-- ==== Sys2Proof/Word.lean ====
section
/-! DEFINITION. The words of the machine: a Broryn instruction and a scalar register are 64 bits (spec 12 preamble, R252),
memory is bytes (R11). -/

namespace Sys2Proof

/-- A scalar register, a control register value, an instruction word. -/
abbrev Word := BitVec 64
/-- A byte of memory. -/
abbrev Byte := BitVec 8
/-- A vector register: 16,384 bits (R91). -/
abbrev VecReg := BitVec 16384
/-- A mask register or an entry of the mask stack: bits [1023:0] (R97, R307). -/
abbrev MaskReg := BitVec 1024
/-- A tile: 64 rows of 256 bytes (R336). -/
abbrev Tile := BitVec 131072

end Sys2Proof
end

