-- ==== Sys2Proof/Syntax.lean ====
section
/-! DEFINITION. The instructions: one constructor of `Instr` for each row of the opcode table. Broryn words carry their
operand fields (spec 12); the device's own events carry the data that the outside world chooses for them. -/

namespace Sys2Proof

/-- The number of a scalar register s0 to s31 (R252). -/
abbrev SReg := BitVec 5
/-- The number of a vector register v0 to v31 (R252). -/
abbrev VReg := BitVec 5
/-- The number of a mask register m0 to m14, 15 for the mask-stack top (R252). -/
abbrev MReg := BitVec 4
/-- The number of a tile t0 to t3 (R252). -/
abbrev TReg := BitVec 2
/-- A result queue q0 to q3, or a feed queue q4 to q7 counted from q4 (R245). -/
abbrev QNum := BitVec 2

/-- Class I of R243: the integer types of scalar words. -/
inductive IntTy where
  | i8 | i16 | i32 | i64 | n8 | n16 | n32 | n64
  deriving DecidableEq, Repr

/-- Class I as vector words accept it (R243): codes 1 to 3 and 5 to 7. -/
inductive VIntTy where
  | i16 | i32 | i64 | n16 | n32 | n64
  deriving DecidableEq, Repr

/-- Class F, codes 0 to 3 (R243). -/
inductive FpTy where
  | f16 | bf16 | f32 | f64
  deriving DecidableEq, Repr

/-- Class F, codes 0 to 4 (R243): the formats of matrix conversions. -/
inductive MatTy where
  | fp (t : FpTy) | res
  deriving DecidableEq, Repr

/-- Class F, codes 2 to 4: the formats of a tile element. -/
inductive MergeTy where
  | f32 | f64 | res
  deriving DecidableEq, Repr

/-- Class W of R243: the widths of elements. -/
inductive WTy where
  | w16 | w32 | w64 | res32
  deriving DecidableEq, Repr

/-- Class M of R243 without the slot format: the stored sizes. -/
inductive MemTy where
  | i8 | i16 | i32 | i64 | n8 | n16 | n32
  deriving DecidableEq, Repr

/-- The types of atomics and WAITA (R315). -/
inductive AmoTy where
  | i32 | i64 | n32 | n64
  deriving DecidableEq, Repr

/-- The RM field of a word that rounds (R187, R242): a mode, or 7 for the mode of FPCTL. -/
inductive Rm where
  | rne | rtz | rdn | rup | rna | dyn
  deriving DecidableEq, Repr

/-- The conditions of compares (R257). -/
inductive Cond where
  | eq | ne | lt | le | gt | ge
  deriving DecidableEq, Repr

/-- The AMO operations 0 to 10 (R236, R257). -/
inductive AmoOp where
  | add | and | or | xor | min | max | minn | maxn | xchg | cas | fadd
  deriving DecidableEq, Repr

/-- The levels of a cancel (R285, R64). -/
inductive Level where
  | strand | launch | graph | phase | job
  deriving DecidableEq, Repr

/-- The kinds of FENCE (R331). -/
inductive FenceKind where
  | loads | stores | engines | all
  deriving DecidableEq, Repr

/-- What A names in a group 2 word (R244): OSEL 0 a vector register, 1 a scalar register, 2 a feed queue. -/
inductive Src where
  | vec (v : VReg) | scl (a : SReg) | que (q : QNum)
  deriving DecidableEq, Repr

/-- What D names in a reduction (R310): OSEL 0 a vector register, 3 a result queue. -/
inductive RedDst where
  | vec (v : VReg) | que (q : QNum)
  deriving DecidableEq, Repr

/-- The conversions of FCVT (R270). -/
inductive Cvt where
  | ff (dst src : FpTy) | fi (dst : IntTy) (src : FpTy) | ofInt (dst : FpTy) (src : IntTy)
  deriving DecidableEq, Repr

/-- The conversions of VFCVT (R312). -/
inductive VCvt where
  | ff (dst src : FpTy) | fi (dst : VIntTy) (src : FpTy) | ofInt (dst : FpTy) (src : VIntTy)
  deriving DecidableEq, Repr

/-- The format of MOPA and MOPS (R339): FP formats round, res does not. -/
inductive MopTy where
  | fp (t : FpTy) (rm : Rm) | res
  deriving DecidableEq, Repr

/-- Type and displacement of a load (R236): a stored size with a byte offset, or the slot format with an offset in
elements, `res` being DK = 1. -/
inductive LdForm where
  | bytes (t : MemTy) (off : BitVec 16) | fmt (res : Bool) (off : BitVec 14)
  deriving DecidableEq, Repr

/-- Type and displacement of a store (R236). -/
inductive StForm where
  | bytes (t : MemTy) (off : BitVec 16) | fmt (off : BitVec 14)
  deriving DecidableEq, Repr

/-- The stored sizes of tile loads and stores (R341). -/
inductive TileTy where
  | i32 | i64 | n32
  deriving DecidableEq, Repr

/-- Type and displacement of MLDT (R341). -/
inductive TileLd where
  | bytes (t : TileTy) (off : BitVec 16) | fmt (res : Bool) (off : BitVec 14)
  deriving DecidableEq, Repr

/-- Type and displacement of MSTT (R341). -/
inductive TileSt where
  | bytes (t : TileTy) (off : BitVec 16) | fmt (off : BitVec 14)
  deriving DecidableEq, Repr

/-- The slot, the offset register and the scope of a memory word (R236). `sl` = 255 takes the slot from the tag of `a`. -/
structure Addr where
  sc : BitVec 2
  sl : BitVec 8
  a  : SReg
  deriving DecidableEq, Repr

/-- Chain bit, governing mask, OE and NO of a vector memory word (R236). -/
structure VAcc where
  c  : Bool
  gov : MReg
  oe : Bool
  no : Bool
  deriving DecidableEq, Repr

/-- The control registers of R253, by name. -/
inductive CReg where
  | vl | mvl | lanes | vlceil | fpctl | fpflg | mflg | tvec | tcause | tpc | tinfo | tsave
  | esv (c : BitVec 3)
  | stripn | stripcyc | stripab | stripmb
  | cpsrc (c : BitVec 2) | cpdst (c : BitVec 2) | cplen (c : BitVec 2) | cpstr (c : BitVec 2)
  | cpctl (c : BitVec 2) | cpflag (c : BitVec 2) | cpgo (c : BitVec 2) | cpdone (c : BitVec 2)
  | lc0 | lc1 | wtimeo | qtimeo | ctxid | incn | strandid | launchid | slottb | cntbase | imgidx | dbgctl | trctl
  deriving DecidableEq, Repr

/-- One half of a pair word (R239). A feed queue of QPUSH is counted from q4. -/
inductive Half where
  | nop
  | mov (d a : SReg) | add (d a : SReg) | sub (d a : SReg) | and (d a : SReg) | or (d a : SReg) | xor (d a : SReg)
  | shl (d a : SReg) | shr (d a : SReg) | sra (d a : SReg)
  | addi (d a : SReg) (imm : BitVec 14) | andi (d a : SReg) (imm : BitVec 14)
  | shli (d a : SReg) (n : BitVec 6) | shri (d a : SReg) (n : BitVec 6) | srai (d a : SReg) (n : BitVec 6)
  | slti (d a : SReg) (imm : BitVec 14) | movi (d : SReg) (imm : BitVec 14)
  | ldD (d a : SReg) (imm : BitVec 14) | ldW (d a : SReg) (imm : BitVec 14)
  | stD (d a : SReg) (imm : BitVec 14) | stW (d a : SReg) (imm : BitVec 14)
  | bz (a : SReg) (imm : BitVec 14) | bnz (a : SReg) (imm : BitVec 14)
  | qpush (q : QNum) (a : SReg) | qpop (d : SReg) (q : QNum)
  deriving DecidableEq, Repr

/-- One constructor for each row of the opcode table: first the words of the instruction set, then the device's events,
each in the table's order. An event has no operand field: what the outside world presents with it stands on the pins
(`Machine.Pins`). A pair word is the constructor of its
slot-0 half with the slot-1 half as `mate`; where slot 0 is NOP it is the constructor of its slot-1 half with no mate
(R238). -/
inductive Instr where
  | add (t : IntTy) (d a b : SReg)
  | sub (t : IntTy) (d a b : SReg)
  | mul (t : IntTy) (d a b : SReg)
  | mulh (t : IntTy) (d a b : SReg)
  | mulhn (t : IntTy) (d a b : SReg)
  | div (t : IntTy) (d a b : SReg)
  | divn (t : IntTy) (d a b : SReg)
  | rem (t : IntTy) (d a b : SReg)
  | remn (t : IntTy) (d a b : SReg)
  | and (t : IntTy) (d a b : SReg)
  | or (t : IntTy) (d a b : SReg)
  | xor (t : IntTy) (d a b : SReg)
  | andn (t : IntTy) (d a b : SReg)
  | shl (t : IntTy) (d a b : SReg)
  | shr (t : IntTy) (d a b : SReg)
  | sra (t : IntTy) (d a b : SReg)
  | rotr (t : IntTy) (d a b : SReg)
  | clz (t : IntTy) (d a : SReg)
  | ctz (t : IntTy) (d a : SReg)
  | popc (t : IntTy) (d a : SReg)
  | min (t : IntTy) (d a b : SReg)
  | max (t : IntTy) (d a b : SReg)
  | minn (t : IntTy) (d a b : SReg)
  | maxn (t : IntTy) (d a b : SReg)
  | slt (t : IntTy) (d a b : SReg)
  | sltn (t : IntTy) (d a b : SReg)
  | seq (t : IntTy) (d a b : SReg)
  | csel (d a b : SReg)
  | addi (t : IntTy) (d a : SReg) (imm : BitVec 32)
  | andi (t : IntTy) (d a : SReg) (imm : BitVec 32)
  | ori (t : IntTy) (d a : SReg) (imm : BitVec 32)
  | xori (t : IntTy) (d a : SReg) (imm : BitVec 32)
  | shli (t : IntTy) (d a : SReg) (n : BitVec 6)
  | shri (t : IntTy) (d a : SReg) (n : BitVec 6)
  | srai (t : IntTy) (d a : SReg) (n : BitVec 6)
  | slti (t : IntTy) (d a : SReg) (imm : BitVec 32)
  | movi (d : SReg) (imm : BitVec 32)
  | movhi (d : SReg) (imm : BitVec 32)
  | fadd (t : FpTy) (rm : Rm) (d a b : SReg)
  | fsub (t : FpTy) (rm : Rm) (d a b : SReg)
  | fmul (t : FpTy) (rm : Rm) (d a b : SReg)
  | fdiv (t : FpTy) (rm : Rm) (d a b : SReg)
  | fsqrt (t : FpTy) (rm : Rm) (d a : SReg)
  | fma (t : FpTy) (rm : Rm) (d a b : SReg)
  | fmin (t : FpTy) (d a b : SReg)
  | fmax (t : FpTy) (d a b : SReg)
  | fcmp (t : FpTy) (k : Cond) (d a b : SReg)
  | fcvt (k : Cvt) (rm : Rm) (d a : SReg)
  | fclass (t : FpTy) (d a : SReg)
  | beq (a b : SReg) (disp : BitVec 32)
  | bne (a b : SReg) (disp : BitVec 32)
  | blt (a b : SReg) (disp : BitVec 32)
  | bge (a b : SReg) (disp : BitVec 32)
  | bltn (a b : SReg) (disp : BitVec 32)
  | bgen (a b : SReg) (disp : BitVec 32)
  | j (disp : BitVec 32)
  | jal (d : SReg) (disp : BitVec 32)
  | jr (a : SReg)
  | jalr (d a : SReg)
  | loop (lv : BitVec 1) (a : SReg) (disp : BitVec 32)
  | loopi (lv : BitVec 1) (n : BitVec 15) (disp : BitVec 32)
  | bmz (disp : BitVec 32)
  | bmnz (disp : BitVec 32)
  | trap (imm : BitVec 32)
  | brk (imm : BitVec 32)
  | eret
  | getc (d : SReg) (r : CReg)
  | copyLaunch (d : SReg) (ch : BitVec 2)
  | setc (r : CReg) (a : SReg)
  | setci (r : CReg) (imm : BitVec 20)
  | deal (d a : SReg)
  | exit
  | yield
  | cntinc (a : SReg) (imm : BitVec 32)
  | cntwait (d a b : SReg)
  | cancel (lv : Level) (a : SReg)
  | qpush (q : QNum) (a : SReg)
  | qpop (d : SReg) (q : QNum)
  | sptr (d : SReg) (k : BitVec 8) (a : SReg)
  | slotq (d : SReg) (k : BitVec 8)
  | slotsync (k : BitVec 8)
  | slotset (a b : SReg)
  | slotinv (a b : SReg)
  | incfence (a : SReg)
  | mark (a : SReg)
  | setvl (t : WTy) (d a : SReg)
  | msetvl (t : WTy) (d a : SReg)
  | vadd (c : Bool) (mk : MReg) (t : VIntTy) (d : VReg) (a : Src) (b : VReg)
  | vsub (c : Bool) (mk : MReg) (t : VIntTy) (d : VReg) (a : Src) (b : VReg)
  | vmul (c : Bool) (mk : MReg) (t : VIntTy) (d : VReg) (a : Src) (b : VReg)
  | vmulh (c : Bool) (mk : MReg) (t : VIntTy) (d : VReg) (a : Src) (b : VReg)
  | vmin (c : Bool) (mk : MReg) (t : VIntTy) (d : VReg) (a : Src) (b : VReg)
  | vmax (c : Bool) (mk : MReg) (t : VIntTy) (d : VReg) (a : Src) (b : VReg)
  | vand (c : Bool) (mk : MReg) (t : VIntTy) (d : VReg) (a : Src) (b : VReg)
  | vor (c : Bool) (mk : MReg) (t : VIntTy) (d : VReg) (a : Src) (b : VReg)
  | vxor (c : Bool) (mk : MReg) (t : VIntTy) (d : VReg) (a : Src) (b : VReg)
  | vshl (c : Bool) (mk : MReg) (t : VIntTy) (d : VReg) (a : Src) (b : VReg)
  | vshr (c : Bool) (mk : MReg) (t : VIntTy) (d : VReg) (a : Src) (b : VReg)
  | vsra (c : Bool) (mk : MReg) (t : VIntTy) (d : VReg) (a : Src) (b : VReg)
  | vsadd (c : Bool) (mk : MReg) (t : VIntTy) (d : VReg) (a : Src) (b : VReg)
  | vssub (c : Bool) (mk : MReg) (t : VIntTy) (d : VReg) (a : Src) (b : VReg)
  | vabs (c : Bool) (mk : MReg) (t : VIntTy) (d a : VReg)
  | vfadd (c : Bool) (mk : MReg) (t : FpTy) (rm : Rm) (d : VReg) (a : Src) (b : VReg)
  | vfsub (c : Bool) (mk : MReg) (t : FpTy) (rm : Rm) (d : VReg) (a : Src) (b : VReg)
  | vfmul (c : Bool) (mk : MReg) (t : FpTy) (rm : Rm) (d : VReg) (a : Src) (b : VReg)
  | vfdiv (c : Bool) (mk : MReg) (t : FpTy) (rm : Rm) (d : VReg) (a : Src) (b : VReg)
  | vfsqrt (c : Bool) (mk : MReg) (t : FpTy) (rm : Rm) (d a : VReg)
  | vfma (c : Bool) (mk : MReg) (t : FpTy) (rm : Rm) (d : VReg) (a : Src) (b : VReg)
  | vfms (c : Bool) (mk : MReg) (t : FpTy) (rm : Rm) (d : VReg) (a : Src) (b : VReg)
  | vfnma (c : Bool) (mk : MReg) (t : FpTy) (rm : Rm) (d : VReg) (a : Src) (b : VReg)
  | vfmin (c : Bool) (mk : MReg) (t : FpTy) (d : VReg) (a : Src) (b : VReg)
  | vfmax (c : Bool) (mk : MReg) (t : FpTy) (d : VReg) (a : Src) (b : VReg)
  | vfabs (c : Bool) (mk : MReg) (t : FpTy) (d a : VReg)
  | vfneg (c : Bool) (mk : MReg) (t : FpTy) (d a : VReg)
  | vfrsqe (c : Bool) (mk : MReg) (t : FpTy) (d a : VReg)
  | vfrcpe (c : Bool) (mk : MReg) (t : FpTy) (d a : VReg)
  | vfexp2 (c : Bool) (mk : MReg) (t : FpTy) (rm : Rm) (d a : VReg)
  | vflog2 (c : Bool) (mk : MReg) (t : FpTy) (rm : Rm) (d a : VReg)
  | vcmp (c : Bool) (mk : MReg) (t : VIntTy) (k : Cond) (md : MReg) (a : Src) (b : VReg)
  | vfcmp (c : Bool) (mk : MReg) (t : FpTy) (k : Cond) (md : MReg) (a : Src) (b : VReg)
  | vfclass (c : Bool) (mk : MReg) (t : FpTy) (d a : VReg)
  | mand (c : Bool) (md ma mb : MReg)
  | mor (c : Bool) (md ma mb : MReg)
  | mxor (c : Bool) (md ma mb : MReg)
  | mandn (c : Bool) (md ma mb : MReg)
  | mnot (c : Bool) (md ma : MReg)
  | mmov (c : Bool) (md ma : MReg)
  | mpopc (c : Bool) (mk : MReg) (q : QNum) (ma : MReg)
  | mfirst (c : Bool) (mk : MReg) (q : QNum) (ma : MReg)
  | mpush (c : Bool) (ma : MReg)
  | minv (c : Bool)
  | mpop (c : Bool)
  | mtop (c : Bool) (md : MReg)
  | vcompress (c : Bool) (mk : MReg) (t : WTy) (d a : VReg)
  | viota (c : Bool) (mk : MReg) (t : WTy) (d : VReg)
  | vperm (c : Bool) (mk : MReg) (t : WTy) (d a b : VReg)
  | vslideup (c : Bool) (mk : MReg) (t : WTy) (d a : VReg) (b : SReg)
  | vslidedn (c : Bool) (mk : MReg) (t : WTy) (d a : VReg) (b : SReg)
  | vbcast (c : Bool) (mk : MReg) (t : WTy) (d : VReg) (a : Src)
  | vextr (c : Bool) (t : WTy) (q : QNum) (a : VReg) (b : SReg)
  | vins (c : Bool) (t : WTy) (d : VReg) (a : Src) (b : SReg)
  | vmerge (c : Bool) (mk : MReg) (t : WTy) (d a b : VReg)
  | vmov (c : Bool) (mk : MReg) (t : WTy) (d a : VReg)
  | vredsum (c : Bool) (mk : MReg) (t : VIntTy) (d : RedDst) (a : VReg) (st : Option VReg)
  | vredmin (c : Bool) (mk : MReg) (t : VIntTy) (d : RedDst) (a : VReg) (st : Option VReg)
  | vredmax (c : Bool) (mk : MReg) (t : VIntTy) (d : RedDst) (a : VReg) (st : Option VReg)
  | vfredsum (c : Bool) (mk : MReg) (t : FpTy) (rm : Rm) (d : RedDst) (a : VReg) (st : Option VReg)
  | vfredmin (c : Bool) (mk : MReg) (t : FpTy) (d : RedDst) (a : VReg) (st : Option VReg)
  | vfredmax (c : Bool) (mk : MReg) (t : FpTy) (d : RedDst) (a : VReg) (st : Option VReg)
  | vcvt (c : Bool) (mk : MReg) (t src : VIntTy) (d a : VReg)
  | vfcvt (c : Bool) (mk : MReg) (k : VCvt) (rm : Rm) (d a : VReg)
  | vresenc (c : Bool) (mk : MReg) (t : VIntTy) (d a : VReg)
  | vresdec (c : Bool) (mk : MReg) (t : VIntTy) (d a : VReg)
  | vresmac (c : Bool) (mk : MReg) (d a b : VReg)
  | vresadd (c : Bool) (mk : MReg) (d a b : VReg)
  | vresmul (c : Bool) (mk : MReg) (d a b : VReg)
  | ld (d : SReg) (m : Addr) (ch : BitVec 2) (x : LdForm)
  | st (d : SReg) (m : Addr) (ch : BitVec 2) (x : StForm)
  | ldacq (t : MemTy) (d : SReg) (m : Addr) (off : BitVec 16)
  | strel (t : MemTy) (d : SReg) (m : Addr) (off : BitVec 16)
  | amo (op : AmoOp) (t : AmoTy) (ord : BitVec 2) (d : SReg) (m : Addr) (off : BitVec 12) (b : SReg)
  | vld (v : VAcc) (d : VReg) (m : Addr) (ch : BitVec 2) (x : LdForm)
  | vlds (v : VAcc) (d : VReg) (m : Addr) (ch : BitVec 2) (x : LdForm) (b : SReg)
  | vldx (v : VAcc) (d : VReg) (m : Addr) (ch : BitVec 2) (x : LdForm) (b : VReg)
  | vldff (v : VAcc) (d : VReg) (m : Addr) (ch : BitVec 2) (x : LdForm) (q : QNum)
  | vldsc (v : VAcc) (d : VReg) (m : Addr) (ch : BitVec 2) (off : BitVec 14)
  | vst (v : VAcc) (d : VReg) (m : Addr) (ch : BitVec 2) (x : StForm)
  | vsts (v : VAcc) (d : VReg) (m : Addr) (ch : BitVec 2) (x : StForm) (b : SReg)
  | vstx (v : VAcc) (d : VReg) (m : Addr) (ch : BitVec 2) (x : StForm) (b : VReg)
  | vamo (v : VAcc) (op : AmoOp) (t : AmoTy) (ord : BitVec 2) (d : VReg) (m : Addr) (off : BitVec 12) (b : VReg)
  | zline (m : Addr) (off : BitVec 16)
  | fence (k : FenceKind) (sc : BitVec 2)
  | waita (t : AmoTy) (d : SReg) (m : Addr) (off : BitVec 16) (b : SReg)
  | pref (m : Addr) (ch : BitVec 2) (off : BitVec 16)
  | mopa (c : Bool) (mk : MReg) (k : MopTy) (mc : MReg) (td : TReg) (a b : VReg)
  | mops (c : Bool) (mk : MReg) (k : MopTy) (mc : MReg) (td : TReg) (a b : VReg)
  | mzero (c : Bool) (td : TReg)
  | mldt (v : VAcc) (td : TReg) (m : Addr) (ch : BitVec 2) (x : TileLd) (b : SReg)
  | mstt (v : VAcc) (td : TReg) (m : Addr) (ch : BitVec 2) (x : TileSt) (b : SReg)
  | mmerge (c : Bool) (mk : MReg) (t : MergeTy) (part : Option SReg) (td : TReg) (m : Addr) (off : BitVec 16)
  | mrow (c : Bool) (d : VReg) (ta : TReg) (b : SReg)
  | mwrow (c : Bool) (td : TReg) (a : VReg) (b : SReg)
  | mfold (c : Bool) (mk : MReg) (rm : Rm) (td ts : TReg) (a b : VReg)
  | mcvt (c : Bool) (mk : MReg) (t : MatTy) (rm : Rm) (td ta : TReg) (src : MergeTy)
  | cpwait (d a : SReg)
  | cpcancel (a : SReg)
  | halfNop
  | halfMov (d a : SReg) (mate : Option Half)
  | halfAdd (d a : SReg) (mate : Option Half)
  | halfSub (d a : SReg) (mate : Option Half)
  | halfAnd (d a : SReg) (mate : Option Half)
  | halfOr (d a : SReg) (mate : Option Half)
  | halfXor (d a : SReg) (mate : Option Half)
  | halfShl (d a : SReg) (mate : Option Half)
  | halfShr (d a : SReg) (mate : Option Half)
  | halfSra (d a : SReg) (mate : Option Half)
  | halfAddi (d a : SReg) (imm : BitVec 14) (mate : Option Half)
  | halfAndi (d a : SReg) (imm : BitVec 14) (mate : Option Half)
  | halfShli (d a : SReg) (n : BitVec 6) (mate : Option Half)
  | halfShri (d a : SReg) (n : BitVec 6) (mate : Option Half)
  | halfSrai (d a : SReg) (n : BitVec 6) (mate : Option Half)
  | halfSlti (d a : SReg) (imm : BitVec 14) (mate : Option Half)
  | halfMovi (d : SReg) (imm : BitVec 14) (mate : Option Half)
  | halfLdD (d a : SReg) (imm : BitVec 14)
  | halfLdW (d a : SReg) (imm : BitVec 14)
  | halfStD (d a : SReg) (imm : BitVec 14)
  | halfStW (d a : SReg) (imm : BitVec 14)
  | halfBz (a : SReg) (imm : BitVec 14)
  | halfBnz (a : SReg) (imm : BitVec 14)
  | halfQpush (q : QNum) (a : SReg) (mate : Option Half)
  | halfQpop (d : SReg) (q : QNum) (mate : Option Half)
  | dieLinkFlit
  | codeWordRead
  | poisonedLineEviction
  | scrubRead
  | stackTemperatureReport
  | selfRefreshEntry
  | thermwaitExpiry
  | stkthermWrite
  | thermwaitWrite
  | pcieInboundRequest
  | downstreamDmaWrite
  | cxlMemRead
  | ualinkRequestSend
  | peerRead
  | peerWrite
  | peerAtomic
  | unknownPacket
  | responseArrival
  | laneRepairRequest
  | replayDrainEnd
  | laneRepairDone
  | portRetrain
  | trainingEnd
  | portDown
  | bootStart
  | bootStepPass
  | bootStepFail
  | bootStepTimeout
  | bootctlClr
  | bootctlRst
  | measurementExtend
  | attcmdGo
  | attestationReportWrite
  | pcumaskWrite
  | plsportWrite
  | pmbaseWrite
  | partitionRegisterWrite
  | powceilWrite
  | vdctlEnSet
  | vdctlEnClear
  | vdRegisterWrite
  | notifyWrite
  | cntdataWrite
  | cancelcmdStrand
  | cancelcmdLaunch
  | cancelcmdGraph
  | cancelcmdPhase
  | cancelcmdJob
  | nopTake
  | launchTake
  | waitTake
  | signalTake
  | phaseTake
  | waitRetire
  | signalRetire
  | phaseRetire
  | launchEligible
  | strandStart
  | launchRetire
  | strandEnd
  | frameStart
  | lendingPoint
  | laneRenegotiation
  | laneFifoService
  | convoyStart
  | convoyRetire
  | heldOperationRelease
  | squash
  | squashDeadline
  | qdeadTimeout
  | registerLineFill
  | replayRelease
  | migctlGo
  | migrationCopyEnd
  | migctlRel
  | wcbLineTimeout
  | zeroLineEviction
  | mergePartArrival
  | mergeTimeout
  | unorderedMergeArrival
  | accessTableWrite
  | leasedAccessArrival
  | lenderEntryWrite
  | leaseSetupMessage
  | leaseRevokeMessage
  | revokeDrainDone
  | borrowerEntryWrite
  | leaseDoneMessage
  | revtoExpiry
  | trapTaken
  | faultRecordPost
  | fqresWrite
  | contextSave
  | cuShareSave
  | divertedLanding
  | restore
  | asyncfaultDelivery
  | ctxkillWrite
  | killComplete
  | requestAtTarget
  | dbgrelWrite
  | trstatFlush
  | segmentSeal
  | segmentSend
  | checkpointTimer
  | sinvcmdWrite
  | sinvComplete
  | copyBeat
  | remoteShareBeat
  | chunkLanded
  | transferComplete
  | cntwaitWake
  | cntwaitTimeout
  | waitaWake
  | waitaTimeout
  | cpwaitEnd
  | cpwaitTimeout
  | registerWrite
  | applicationCoreAccess
  | dispatchBucketCharge
  | segmentWriteCompletion
  | checkpointComplete
  deriving DecidableEq, Repr

end Sys2Proof
end

