-- ==== Sys2Proof/Machine/Pairs.lean ====
section
/-! DEFINITION. Pair words: the two halves a constructor stands for, and the pairing rules (R238 to R240). -/

namespace Sys2Proof

/-- The scalar register a half writes (R240 rule 1). -/
def Half.writes : Half → Option SReg
  | .mov d _ | .add d _ | .sub d _ | .and d _ | .or d _ | .xor d _ | .shl d _ | .shr d _ | .sra d _
  | .addi d _ _ | .andi d _ _ | .shli d _ _ | .shri d _ _ | .srai d _ _ | .slti d _ _ | .movi d _
  | .ldD d _ _ | .ldW d _ _ | .qpop d _ => some d
  | .nop | .stD _ _ _ | .stW _ _ _ | .bz _ _ | .bnz _ _ | .qpush _ _ => none

/-- The scalar registers a half reads (R240 rule 4). -/
def Half.reads : Half → List SReg
  | .add d a | .sub d a | .and d a | .or d a | .xor d a | .shl d a | .shr d a | .sra d a
  | .stD d a _ | .stW d a _ => [d, a]
  | .mov _ a | .addi _ a _ | .andi _ a _ | .shli _ a _ | .shri _ a _ | .srai _ a _ | .slti _ a _
  | .ldD _ a _ | .ldW _ a _ | .bz a _ | .bnz a _ | .qpush _ a => [a]
  | .nop | .movi _ _ | .qpop _ _ => []

/-- A half that stands only in slot 1 (R240 rules 2 and 3). -/
def Half.slot1Only : Half → Bool
  | .ldD _ _ _ | .ldW _ _ _ | .stD _ _ _ | .stW _ _ _ | .bz _ _ | .bnz _ _ => true
  | _ => false

/-- The registers of bank `p` (register-number parity) among the reads, s0 left out, each once (R240 rule 4). -/
def bankReads (p : Nat) (l : List SReg) : List SReg :=
  (l.filter fun r => r != 0 && r.toNat % 2 == p).eraseDups

/-- The pairing rules of R240. -/
def pairOk (h0 h1 : Half) : Bool :=
  (match h0.writes, h1.writes with
   | some a, some b => a.toNat % 2 != b.toNat % 2
   | _, _ => true) &&
  !h0.slot1Only &&
  (bankReads 0 (h0.reads ++ h1.reads)).length ≤ 2 && (bankReads 1 (h0.reads ++ h1.reads)).length ≤ 2

/-- Slot 0 and slot 1 for a half that can stand in either: with no mate, slot 0 is NOP. -/
def withMate (h : Half) : Option Half → Half × Half
  | some m => (h, m)
  | none => (.nop, h)

/-- The two halves of a pair word's constructor. -/
def Instr.halves : Instr → Option (Half × Half)
  | .halfNop => some (.nop, .nop)
  | .halfMov d a mate => some (withMate (.mov d a) mate)
  | .halfAdd d a mate => some (withMate (.add d a) mate)
  | .halfSub d a mate => some (withMate (.sub d a) mate)
  | .halfAnd d a mate => some (withMate (.and d a) mate)
  | .halfOr d a mate => some (withMate (.or d a) mate)
  | .halfXor d a mate => some (withMate (.xor d a) mate)
  | .halfShl d a mate => some (withMate (.shl d a) mate)
  | .halfShr d a mate => some (withMate (.shr d a) mate)
  | .halfSra d a mate => some (withMate (.sra d a) mate)
  | .halfAddi d a imm mate => some (withMate (.addi d a imm) mate)
  | .halfAndi d a imm mate => some (withMate (.andi d a imm) mate)
  | .halfShli d a n mate => some (withMate (.shli d a n) mate)
  | .halfShri d a n mate => some (withMate (.shri d a n) mate)
  | .halfSrai d a n mate => some (withMate (.srai d a n) mate)
  | .halfSlti d a imm mate => some (withMate (.slti d a imm) mate)
  | .halfMovi d imm mate => some (withMate (.movi d imm) mate)
  | .halfLdD d a imm => some (.nop, .ldD d a imm)
  | .halfLdW d a imm => some (.nop, .ldW d a imm)
  | .halfStD d a imm => some (.nop, .stD d a imm)
  | .halfStW d a imm => some (.nop, .stW d a imm)
  | .halfBz a imm => some (.nop, .bz a imm)
  | .halfBnz a imm => some (.nop, .bnz a imm)
  | .halfQpush q a mate => some (withMate (.qpush q a) mate)
  | .halfQpop d q mate => some (withMate (.qpop d q) mate)
  | _ => none

/-- The constructor of a pair of halves (R238): slot 0's, or slot 1's where slot 0 is NOP. A half that stands only in
slot 1 has no constructor in slot 0. -/
def Instr.ofHalves : Half → Half → Option Instr
  | .mov d a, m => some (.halfMov d a (some m))
  | .add d a, m => some (.halfAdd d a (some m))
  | .sub d a, m => some (.halfSub d a (some m))
  | .and d a, m => some (.halfAnd d a (some m))
  | .or d a, m => some (.halfOr d a (some m))
  | .xor d a, m => some (.halfXor d a (some m))
  | .shl d a, m => some (.halfShl d a (some m))
  | .shr d a, m => some (.halfShr d a (some m))
  | .sra d a, m => some (.halfSra d a (some m))
  | .addi d a imm, m => some (.halfAddi d a imm (some m))
  | .andi d a imm, m => some (.halfAndi d a imm (some m))
  | .shli d a n, m => some (.halfShli d a n (some m))
  | .shri d a n, m => some (.halfShri d a n (some m))
  | .srai d a n, m => some (.halfSrai d a n (some m))
  | .slti d a imm, m => some (.halfSlti d a imm (some m))
  | .movi d imm, m => some (.halfMovi d imm (some m))
  | .ldD _ _ _, _ => none
  | .ldW _ _ _, _ => none
  | .stD _ _ _, _ => none
  | .stW _ _ _, _ => none
  | .bz _ _, _ => none
  | .bnz _ _, _ => none
  | .qpush q a, m => some (.halfQpush q a (some m))
  | .qpop d q, m => some (.halfQpop d q (some m))
  | .nop, .nop => some .halfNop
  | .nop, .mov d a => some (.halfMov d a none)
  | .nop, .add d a => some (.halfAdd d a none)
  | .nop, .sub d a => some (.halfSub d a none)
  | .nop, .and d a => some (.halfAnd d a none)
  | .nop, .or d a => some (.halfOr d a none)
  | .nop, .xor d a => some (.halfXor d a none)
  | .nop, .shl d a => some (.halfShl d a none)
  | .nop, .shr d a => some (.halfShr d a none)
  | .nop, .sra d a => some (.halfSra d a none)
  | .nop, .addi d a imm => some (.halfAddi d a imm none)
  | .nop, .andi d a imm => some (.halfAndi d a imm none)
  | .nop, .shli d a n => some (.halfShli d a n none)
  | .nop, .shri d a n => some (.halfShri d a n none)
  | .nop, .srai d a n => some (.halfSrai d a n none)
  | .nop, .slti d a imm => some (.halfSlti d a imm none)
  | .nop, .movi d imm => some (.halfMovi d imm none)
  | .nop, .ldD d a imm => some (.halfLdD d a imm)
  | .nop, .ldW d a imm => some (.halfLdW d a imm)
  | .nop, .stD d a imm => some (.halfStD d a imm)
  | .nop, .stW d a imm => some (.halfStW d a imm)
  | .nop, .bz a imm => some (.halfBz a imm)
  | .nop, .bnz a imm => some (.halfBnz a imm)
  | .nop, .qpush q a => some (.halfQpush q a none)
  | .nop, .qpop d q => some (.halfQpop d q none)

end Sys2Proof
end

