-- ==== Sys2Proof/WellFormed.lean ====
section
/-! DEFINITION. Which terms of `Instr` stand for a word: the operand conditions of spec 12, 13, 15 that the operand types
do not already say. An ill-formed term stands for no word (its encoding would trap RESFIELD or PAIR). -/

namespace Sys2Proof

/-- A mask a word writes is m0 to m14 (R303, R305, R307). -/
def MReg.writable (m : MReg) : Bool := m != 15

/-- FADD reads T = 2 and 3 only (R250). -/
def amoTyOk : AmoOp → AmoTy → Bool
  | .fadd, .n32 | .fadd, .n64 => false
  | _, _ => true

/-- A label of LOOP or LOOPI lies at least two words ahead (R273). -/
def loopDispOk (disp : BitVec 32) : Bool := decide (2 ≤ disp.toInt)

/-- The words of the opcode table that the encoding admits. -/
def Instr.wf (i : Instr) : Bool :=
  match i with
  | .loop _ _ disp | .loopi _ _ disp => loopDispOk disp
  | .getc _ r => match r with
    | .cpgo _ => false            -- the word of a GETC of CPGOc is `copyLaunch` (R349)
    | _ => true
  | .deal d a => d != a && d != 0 && a != 0        -- R280
  | .sptr _ k _ | .slotq _ k | .slotsync k => k != 255   -- R245
  | .vcmp _ _ _ _ md _ _ | .vfcmp _ _ _ _ md _ _ => md.writable
  | .mand _ md _ _ | .mor _ md _ _ | .mxor _ md _ _ | .mandn _ md _ _ | .mnot _ md _ | .mmov _ md _ | .mtop _ md =>
    md.writable
  | .viota _ _ t _ => t != .res32                  -- R308
  | .vins _ _ _ a _ => match a with                -- R244: OSEL 1 or 2
    | .vec _ => false
    | _ => true
  | .amo op t _ _ _ _ _ => amoTyOk op t
  | .vamo _ op t _ _ _ _ _ => op != .cas && amoTyOk op t   -- R316
  | i => match i.halves with
    | some (h0, h1) => pairOk h0 h1
    | none => true

end Sys2Proof
end

