-- ==== Sys2Proof/Decode.lean ====
section
/-! DEFINITION. From the bits of a word to an instruction, and back (spec 12). Decoding rejects by the name of the check of
R242 that fails first; encoding is written from the same tables. -/

namespace Sys2Proof

/-- The checks of R242 that a word can fail at decode: step 1, step 2, step 3. -/
inductive DecodeFault where
  | illop | resfield | pair
  deriving DecidableEq, Repr

/-! ### Fields of the four formats (R234 to R237) and of a half (R238) -/

/-- Format F-R without bit 63 (R234), FN split in FN [5:4] and FN [3:0]. -/
structure FR where
  c  : BitVec 1
  op : BitVec 10
  d  : BitVec 5
  a  : BitVec 5
  b  : BitVec 5
  gm : BitVec 4
  t  : BitVec 3
  rm : BitVec 3
  os : BitVec 2
  fn : BitVec 4
  z  : BitVec 21
  deriving DecidableEq, Repr

/-- Format F-I without bit 63 (R235). -/
structure FI where
  c   : BitVec 1
  op  : BitVec 10
  d   : BitVec 5
  a   : BitVec 5
  gm  : BitVec 4
  t   : BitVec 3
  z   : BitVec 3
  imm : BitVec 32
  deriving DecidableEq, Repr

/-- Format F-M without bit 63 (R236). -/
structure FM where
  c   : BitVec 1
  op  : BitVec 10
  d   : BitVec 5
  a   : BitVec 5
  b   : BitVec 5
  gm  : BitVec 4
  t   : BitVec 3
  oe  : BitVec 1
  no  : BitVec 1
  sc  : BitVec 2
  ch  : BitVec 2
  sl  : BitVec 8
  off : BitVec 16
  deriving DecidableEq, Repr

/-- Format F-B without bit 63 (R237). -/
structure FB where
  c    : BitVec 1
  op   : BitVec 10
  d    : BitVec 5
  a    : BitVec 5
  b    : BitVec 5
  z    : BitVec 5
  disp : BitVec 32
  deriving DecidableEq, Repr

/-- One half of a pair word (R238). -/
structure HF where
  op  : BitVec 7
  d   : BitVec 5
  a   : BitVec 5
  imm : BitVec 14
  deriving DecidableEq, Repr

def FR.ofWord (w : Word) : FR :=
  ⟨w.extractLsb' 62 1, w.extractLsb' 52 10, w.extractLsb' 47 5, w.extractLsb' 42 5, w.extractLsb' 37 5,
   w.extractLsb' 33 4, w.extractLsb' 30 3, w.extractLsb' 27 3, w.extractLsb' 25 2, w.extractLsb' 21 4, w.extractLsb' 0 21⟩

def FI.ofWord (w : Word) : FI :=
  ⟨w.extractLsb' 62 1, w.extractLsb' 52 10, w.extractLsb' 47 5, w.extractLsb' 42 5, w.extractLsb' 38 4,
   w.extractLsb' 35 3, w.extractLsb' 32 3, w.extractLsb' 0 32⟩

def FM.ofWord (w : Word) : FM :=
  ⟨w.extractLsb' 62 1, w.extractLsb' 52 10, w.extractLsb' 47 5, w.extractLsb' 42 5, w.extractLsb' 37 5,
   w.extractLsb' 33 4, w.extractLsb' 30 3, w.extractLsb' 29 1, w.extractLsb' 28 1, w.extractLsb' 26 2,
   w.extractLsb' 24 2, w.extractLsb' 16 8, w.extractLsb' 0 16⟩

def FB.ofWord (w : Word) : FB :=
  ⟨w.extractLsb' 62 1, w.extractLsb' 52 10, w.extractLsb' 47 5, w.extractLsb' 42 5, w.extractLsb' 37 5,
   w.extractLsb' 32 5, w.extractLsb' 0 32⟩

def HF.ofBits (h : BitVec 31) : HF :=
  ⟨h.extractLsb' 24 7, h.extractLsb' 19 5, h.extractLsb' 14 5, h.extractLsb' 0 14⟩

def FR.toWord (f : FR) : Word :=
  0#1 ++ f.c ++ f.op ++ f.d ++ f.a ++ f.b ++ f.gm ++ f.t ++ f.rm ++ f.os ++ f.fn ++ f.z

def FI.toWord (f : FI) : Word :=
  0#1 ++ f.c ++ f.op ++ f.d ++ f.a ++ f.gm ++ f.t ++ f.z ++ f.imm

def FM.toWord (f : FM) : Word :=
  0#1 ++ f.c ++ f.op ++ f.d ++ f.a ++ f.b ++ f.gm ++ f.t ++ f.oe ++ f.no ++ f.sc ++ f.ch ++ f.sl ++ f.off

def FB.toWord (f : FB) : Word :=
  0#1 ++ f.c ++ f.op ++ f.d ++ f.a ++ f.b ++ f.z ++ f.disp

def HF.toBits (f : HF) : BitVec 31 := f.op ++ f.d ++ f.a ++ f.imm

/-- A pair word: bit 63 set, bit 62 zero, slot 0 above slot 1 (R238). -/
def pairWord (h0 h1 : BitVec 31) : Word := 2#2 ++ h0 ++ h1

/-! ### Field codes -/

def IntTy.code : IntTy → BitVec 3
  | .i8 => 0 | .i16 => 1 | .i32 => 2 | .i64 => 3 | .n8 => 4 | .n16 => 5 | .n32 => 6 | .n64 => 7

def IntTy.ofCode (t : BitVec 3) : Option IntTy :=
  match t.toNat with
  | 0 => some .i8 | 1 => some .i16 | 2 => some .i32 | 3 => some .i64
  | 4 => some .n8 | 5 => some .n16 | 6 => some .n32 | _ => some .n64

def VIntTy.code : VIntTy → BitVec 3
  | .i16 => 1 | .i32 => 2 | .i64 => 3 | .n16 => 5 | .n32 => 6 | .n64 => 7

def VIntTy.ofCode (t : BitVec 3) : Option VIntTy :=
  match t.toNat with
  | 1 => some .i16 | 2 => some .i32 | 3 => some .i64 | 5 => some .n16 | 6 => some .n32 | 7 => some .n64 | _ => none

def FpTy.code : FpTy → BitVec 3
  | .f16 => 0 | .bf16 => 1 | .f32 => 2 | .f64 => 3

def FpTy.ofCode (t : BitVec 3) : Option FpTy :=
  match t.toNat with
  | 0 => some .f16 | 1 => some .bf16 | 2 => some .f32 | 3 => some .f64 | _ => none

def MatTy.code : MatTy → BitVec 3
  | .fp t => t.code | .res => 4

def MatTy.ofCode (t : BitVec 3) : Option MatTy :=
  match t.toNat with
  | 0 => some (.fp .f16) | 1 => some (.fp .bf16) | 2 => some (.fp .f32) | 3 => some (.fp .f64) | 4 => some .res | _ => none

def MergeTy.code : MergeTy → BitVec 3
  | .f32 => 2 | .f64 => 3 | .res => 4

def MergeTy.ofCode (t : BitVec 3) : Option MergeTy :=
  match t.toNat with
  | 2 => some .f32 | 3 => some .f64 | 4 => some .res | _ => none

def WTy.code : WTy → BitVec 3
  | .w16 => 1 | .w32 => 2 | .w64 => 3 | .res32 => 4

def WTy.ofCode (t : BitVec 3) : Option WTy :=
  match t.toNat with
  | 1 => some .w16 | 2 => some .w32 | 3 => some .w64 | 4 => some .res32 | _ => none

def MemTy.code : MemTy → BitVec 3
  | .i8 => 0 | .i16 => 1 | .i32 => 2 | .i64 => 3 | .n8 => 4 | .n16 => 5 | .n32 => 6

def MemTy.ofCode (t : BitVec 3) : Option MemTy :=
  match t.toNat with
  | 0 => some .i8 | 1 => some .i16 | 2 => some .i32 | 3 => some .i64 | 4 => some .n8 | 5 => some .n16 | 6 => some .n32
  | _ => none

def AmoTy.code : AmoTy → BitVec 3
  | .i32 => 2 | .i64 => 3 | .n32 => 6 | .n64 => 7

def AmoTy.ofCode (t : BitVec 3) : Option AmoTy :=
  match t.toNat with
  | 2 => some .i32 | 3 => some .i64 | 6 => some .n32 | 7 => some .n64 | _ => none

def TileTy.code : TileTy → BitVec 3
  | .i32 => 2 | .i64 => 3 | .n32 => 6

def TileTy.ofCode (t : BitVec 3) : Option TileTy :=
  match t.toNat with
  | 2 => some .i32 | 3 => some .i64 | 6 => some .n32 | _ => none

def Rm.code : Rm → BitVec 3
  | .rne => 0 | .rtz => 1 | .rdn => 2 | .rup => 3 | .rna => 4 | .dyn => 7

def Rm.ofCode (t : BitVec 3) : Option Rm :=
  match t.toNat with
  | 0 => some .rne | 1 => some .rtz | 2 => some .rdn | 3 => some .rup | 4 => some .rna | 7 => some .dyn | _ => none

def Cond.code : Cond → BitVec 4
  | .eq => 0 | .ne => 1 | .lt => 2 | .le => 3 | .gt => 4 | .ge => 5

def Cond.ofCode (t : BitVec 4) : Option Cond :=
  match t.toNat with
  | 0 => some .eq | 1 => some .ne | 2 => some .lt | 3 => some .le | 4 => some .gt | 5 => some .ge | _ => none

def AmoOp.code : AmoOp → BitVec 4
  | .add => 0 | .and => 1 | .or => 2 | .xor => 3 | .min => 4 | .max => 5 | .minn => 6 | .maxn => 7 | .xchg => 8
  | .cas => 9 | .fadd => 10

def AmoOp.ofCode (t : BitVec 4) : Option AmoOp :=
  match t.toNat with
  | 0 => some .add | 1 => some .and | 2 => some .or | 3 => some .xor | 4 => some .min | 5 => some .max
  | 6 => some .minn | 7 => some .maxn | 8 => some .xchg | 9 => some .cas | 10 => some .fadd | _ => none

def Level.code : Level → BitVec 3
  | .strand => 0 | .launch => 1 | .graph => 2 | .phase => 3 | .job => 4

def Level.ofCode (t : BitVec 3) : Option Level :=
  match t.toNat with
  | 0 => some .strand | 1 => some .launch | 2 => some .graph | 3 => some .phase | 4 => some .job | _ => none

def FenceKind.code : FenceKind → BitVec 2
  | .loads => 0 | .stores => 1 | .engines => 2 | .all => 3

def FenceKind.ofCode (t : BitVec 2) : FenceKind :=
  match t.toNat with
  | 0 => .loads | 1 => .stores | 2 => .engines | _ => .all

/-- The 12-bit number of a control register (R253); channel c's registers stand at 0x030 + 8c + k. -/
def CReg.number : CReg → BitVec 12
  | .vl => 0x000 | .mvl => 0x001 | .lanes => 0x002 | .vlceil => 0x003
  | .fpctl => 0x008 | .fpflg => 0x009 | .mflg => 0x00A
  | .tvec => 0x010 | .tcause => 0x011 | .tpc => 0x012 | .tinfo => 0x013 | .tsave => 0x014
  | .esv c => 0x003#9 ++ c
  | .stripn => 0x020 | .stripcyc => 0x021 | .stripab => 0x022 | .stripmb => 0x023
  | .cpsrc c => 0x030 + (c.setWidth 12 <<< 3)
  | .cpdst c => 0x031 + (c.setWidth 12 <<< 3)
  | .cplen c => 0x032 + (c.setWidth 12 <<< 3)
  | .cpstr c => 0x033 + (c.setWidth 12 <<< 3)
  | .cpctl c => 0x034 + (c.setWidth 12 <<< 3)
  | .cpflag c => 0x035 + (c.setWidth 12 <<< 3)
  | .cpgo c => 0x036 + (c.setWidth 12 <<< 3)
  | .cpdone c => 0x037 + (c.setWidth 12 <<< 3)
  | .lc0 => 0x050 | .lc1 => 0x051 | .wtimeo => 0x058 | .qtimeo => 0x059
  | .ctxid => 0x060 | .incn => 0x061 | .strandid => 0x062 | .launchid => 0x063 | .slottb => 0x064
  | .cntbase => 0x065 | .imgidx => 0x066 | .dbgctl => 0x070 | .trctl => 0x071

/-- Channel register k of channel c (R253). -/
def CReg.channel (c : BitVec 2) : Nat → CReg
  | 0 => .cpsrc c | 1 => .cpdst c | 2 => .cplen c | 3 => .cpstr c | 4 => .cpctl c | 5 => .cpflag c | 6 => .cpgo c
  | _ => .cpdone c

/-- The control register of a number (R253), none where R253 names none. -/
def CReg.ofNumber (n : BitVec 12) : Option CReg :=
  match n.toNat with
  | 0x000 => some .vl | 0x001 => some .mvl | 0x002 => some .lanes | 0x003 => some .vlceil
  | 0x008 => some .fpctl | 0x009 => some .fpflg | 0x00A => some .mflg
  | 0x010 => some .tvec | 0x011 => some .tcause | 0x012 => some .tpc | 0x013 => some .tinfo | 0x014 => some .tsave
  | 0x020 => some .stripn | 0x021 => some .stripcyc | 0x022 => some .stripab | 0x023 => some .stripmb
  | 0x050 => some .lc0 | 0x051 => some .lc1 | 0x058 => some .wtimeo | 0x059 => some .qtimeo
  | 0x060 => some .ctxid | 0x061 => some .incn | 0x062 => some .strandid | 0x063 => some .launchid
  | 0x064 => some .slottb | 0x065 => some .cntbase | 0x066 => some .imgidx | 0x070 => some .dbgctl | 0x071 => some .trctl
  | k =>
    if 0x018 ≤ k && k ≤ 0x01F then some (.esv (BitVec.ofNat 3 (k - 0x018)))
    else if 0x030 ≤ k && k ≤ 0x04F then some (CReg.channel (BitVec.ofNat 2 ((k - 0x030) / 8)) ((k - 0x030) % 8))
    else none

/-! ### Operand fields (R244, R245) -/

/-- A tile or queue number in a wider field: the other bits zero. -/
def up5 (x : BitVec n) : BitVec 5 := x.setWidth 5
/-- Tile tN or result queue q0 to q3 in a five-bit field: the other bits zero. -/
def low2 (x : BitVec 5) : Option (BitVec 2) := if x.toNat < 4 then some (x.setWidth 2) else none
/-- MFOLD's source tile in FN [1:0]: FN [3:2] zero. -/
def low2of4 (x : BitVec 4) : Option (BitVec 2) := if x.toNat < 4 then some (x.setWidth 2) else none
/-- A feed queue q4 to q7 in a five-bit field. -/
def feed5 (q : QNum) : BitVec 5 := 4 + q.setWidth 5
def feedQ (x : BitVec 5) : Option QNum := if 4 ≤ x.toNat && x.toNat < 8 then some (x.setWidth 2) else none
/-- A mask that is read: 0 to 15. -/
def readMask (x : BitVec 5) : Option MReg := if x.toNat < 16 then some (x.setWidth 4) else none
/-- A mask that is written: 0 to 14. -/
def writeMask (x : BitVec 5) : Option MReg := if x.toNat < 15 then some (x.setWidth 4) else none

def Src.osel : Src → BitVec 2
  | .vec _ => 0 | .scl _ => 1 | .que _ => 2
def Src.field : Src → BitVec 5
  | .vec v => v | .scl a => a | .que q => feed5 q
def Src.ofFields (os : BitVec 2) (a : BitVec 5) : Option Src :=
  match os.toNat with
  | 0 => some (.vec a)
  | 1 => some (.scl a)
  | 2 => (feedQ a).map .que
  | _ => none

def RedDst.osel : RedDst → BitVec 2
  | .vec _ => 0 | .que _ => 3
def RedDst.field : RedDst → BitVec 5
  | .vec v => v | .que q => up5 q
def RedDst.ofFields (os : BitVec 2) (d : BitVec 5) : Option RedDst :=
  match os.toNat with
  | 0 => some (.vec d)
  | 3 => (low2 d).map .que
  | _ => none

/-- STV in FN [3], FN [2:0] zero, B the start vector (R310). -/
def stvFn : Option VReg → BitVec 4
  | none => 0 | some _ => 8
def stvB : Option VReg → BitVec 5
  | none => 0 | some b => b
def stvOf (fn : BitVec 4) (b : BitVec 5) : Option (Option VReg) :=
  match fn.toNat with
  | 0 => if b = 0 then some none else none
  | 8 => some (some b)
  | _ => none

/-- FCVT's T, FN [5:4] and FN [3:0] (R270). -/
def Cvt.tCode : Cvt → BitVec 3
  | .ff dst _ => dst.code | .fi dst _ => dst.code | .ofInt dst _ => dst.code
def Cvt.osField : Cvt → BitVec 2
  | .fi _ _ => 1 | _ => 0
def Cvt.fnField : Cvt → BitVec 4
  | .ff _ src => 1#1 ++ src.code | .fi _ src => 1#1 ++ src.code | .ofInt _ src => 0#1 ++ src.code
def Cvt.ofFields (t : BitVec 3) (os : BitVec 2) (fn : BitVec 4) : Option Cvt :=
  match os.toNat, fn.getLsbD 3 with
  | 0, true => do return .ff (← FpTy.ofCode t) (← FpTy.ofCode (fn.setWidth 3))
  | 0, false => do return .ofInt (← FpTy.ofCode t) (← IntTy.ofCode (fn.setWidth 3))
  | 1, true => do return .fi (← IntTy.ofCode t) (← FpTy.ofCode (fn.setWidth 3))
  | _, _ => none

/-- VFCVT's T and FN [3:0] (R312). -/
def VCvt.tCode : VCvt → BitVec 3
  | .ff dst _ => dst.code | .fi dst _ => dst.code | .ofInt dst _ => dst.code
def VCvt.fnField : VCvt → BitVec 4
  | .ff _ src => 2#2 ++ src.code.setWidth 2 | .fi _ src => 3#2 ++ src.code.setWidth 2 | .ofInt _ src => 0#1 ++ src.code
def VCvt.ofFields (t : BitVec 3) (fn : BitVec 4) : Option VCvt :=
  match fn.getLsbD 3, fn.getLsbD 2 with
  | true, false => do return .ff (← FpTy.ofCode t) (← FpTy.ofCode ((fn.setWidth 2).setWidth 3))
  | true, true => do return .fi (← VIntTy.ofCode t) (← FpTy.ofCode ((fn.setWidth 2).setWidth 3))
  | false, _ => do return .ofInt (← FpTy.ofCode t) (← VIntTy.ofCode (fn.setWidth 3))

/-- VCVT's source in FN [2:0], FN [3] zero (R311). -/
def vcvtSrc (fn : BitVec 4) : Option VIntTy := if fn.getLsbD 3 then none else VIntTy.ofCode (fn.setWidth 3)
/-- MCVT's source in FN [2:0], FN [3] zero (R344). -/
def mcvtSrc (fn : BitVec 4) : Option MergeTy := if fn.getLsbD 3 then none else MergeTy.ofCode (fn.setWidth 3)

/-- MOPA's and MOPS's T and RM (R339): RM is 0 for res. -/
def MopTy.tCode : MopTy → BitVec 3
  | .fp t _ => t.code | .res => 4
def MopTy.rmCode : MopTy → BitVec 3
  | .fp _ rm => rm.code | .res => 0
def MopTy.ofFields (t rm : BitVec 3) : Option MopTy :=
  if t = 4 then (if rm = 0 then some .res else none)
  else do return .fp (← FpTy.ofCode t) (← Rm.ofCode rm)

/-- A shift count 0 to 63 in IMM32 (R266). -/
def shiftCount (imm : BitVec 32) : Option (BitVec 6) := if imm.toNat < 64 then some (imm.setWidth 6) else none
/-- A control register in IMM32 [11:0], IMM32 [31:12] zero (R278). -/
def cregOnly (imm : BitVec 32) : Option CReg :=
  if imm.extractLsb' 12 20 = 0 then CReg.ofNumber (imm.extractLsb' 0 12) else none
/-- CANCEL's level in IMM32 [2:0], IMM32 [31:3] zero (R285). -/
def levelOf (imm : BitVec 32) : Option Level :=
  if imm.extractLsb' 3 29 = 0 then Level.ofCode (imm.extractLsb' 0 3) else none
/-- A slot operand in IMM32 [7:0], 0 to 254, IMM32 [31:8] zero (R245, R287). -/
def slotOf (imm : BitVec 32) : Option (BitVec 8) := if imm.toNat < 255 then some (imm.setWidth 8) else none
/-- FENCE's kind and scope, IMM32 [31:4] zero (R331). -/
def fenceImm (k : FenceKind) (sc : BitVec 2) : BitVec 32 := 0#28 ++ sc ++ k.code
def fenceKindOf (imm : BitVec 32) : Option FenceKind :=
  if imm.extractLsb' 4 28 = 0 then some (FenceKind.ofCode (imm.extractLsb' 0 2)) else none
/-- DISP32 of a loop, at least 2 (R273). -/
def loopDisp (disp : BitVec 32) : Option (BitVec 32) := if loopDispOk disp then some disp else none
/-- The level of a loop, 0 or 1 (R273). -/
def loopLevel (d : BitVec 5) : Option (BitVec 1) := if d.toNat < 2 then some (d.setWidth 1) else none
/-- VLDSC's offset in elements: DK zero (R316). -/
def off14Of (off : BitVec 16) : Option (BitVec 14) := if off.extractLsb' 14 2 = 0 then some (off.setWidth 14) else none

def LdForm.tCode : LdForm → BitVec 3
  | .bytes t _ => t.code | .fmt _ _ => 7
def LdForm.offField : LdForm → BitVec 16
  | .bytes _ off => off | .fmt r off => 0#1 ++ BitVec.ofBool r ++ off
def LdForm.ofFields (t : BitVec 3) (off : BitVec 16) : Option LdForm :=
  if t = 7 then (if off.getLsbD 15 then none else some (.fmt (off.getLsbD 14) (off.setWidth 14)))
  else do return .bytes (← MemTy.ofCode t) off

def StForm.tCode : StForm → BitVec 3
  | .bytes t _ => t.code | .fmt _ => 7
def StForm.offField : StForm → BitVec 16
  | .bytes _ off => off | .fmt off => 0#2 ++ off
def StForm.ofFields (t : BitVec 3) (off : BitVec 16) : Option StForm :=
  if t = 7 then (off14Of off).map .fmt
  else do return .bytes (← MemTy.ofCode t) off

def TileLd.tCode : TileLd → BitVec 3
  | .bytes t _ => t.code | .fmt _ _ => 7
def TileLd.offField : TileLd → BitVec 16
  | .bytes _ off => off | .fmt r off => 0#1 ++ BitVec.ofBool r ++ off
def TileLd.ofFields (t : BitVec 3) (off : BitVec 16) : Option TileLd :=
  if t = 7 then (if off.getLsbD 15 then none else some (.fmt (off.getLsbD 14) (off.setWidth 14)))
  else do return .bytes (← TileTy.ofCode t) off

def TileSt.tCode : TileSt → BitVec 3
  | .bytes t _ => t.code | .fmt _ => 7
def TileSt.offField : TileSt → BitVec 16
  | .bytes _ off => off | .fmt off => 0#2 ++ off
def TileSt.ofFields (t : BitVec 3) (off : BitVec 16) : Option TileSt :=
  if t = 7 then (off14Of off).map .fmt
  else do return .bytes (← TileTy.ofCode t) off

/-- MMERGE's OE and part register (R345): B zero where OE is 0. -/
def partOe : Option SReg → BitVec 1
  | none => 0 | some _ => 1
def partB : Option SReg → BitVec 5
  | none => 0 | some b => b
def partOf (oe : BitVec 1) (b : BitVec 5) : Option (Option SReg) :=
  if oe = 1 then some (some b) else if b = 0 then some none else none

/-- `x` where the word's unused fields are zero, none where one is not. -/
def req (ok : Bool) (x : α) : Option α := if ok then some x else none

/-- OSEL 1 or 2 (R244). -/
def Src.notVec : Src → Bool
  | .vec _ => false
  | _ => true

/-- The group 0 words of format F-R (R247): none where a field is out of range or an unused field is not zero. -/
def decodeFR0 (f : FR) : Option Instr :=
  match f.op.toNat with
  | 0x000 => do let t ← IntTy.ofCode f.t; req (f.c == 0 && f.gm == 0 && f.rm == 0 && f.os == 0 && f.fn == 0 && f.z == 0) (.add t f.d f.a f.b)
  | 0x001 => do let t ← IntTy.ofCode f.t; req (f.c == 0 && f.gm == 0 && f.rm == 0 && f.os == 0 && f.fn == 0 && f.z == 0) (.sub t f.d f.a f.b)
  | 0x002 => do let t ← IntTy.ofCode f.t; req (f.c == 0 && f.gm == 0 && f.rm == 0 && f.os == 0 && f.fn == 0 && f.z == 0) (.mul t f.d f.a f.b)
  | 0x003 => do let t ← IntTy.ofCode f.t; req (f.c == 0 && f.gm == 0 && f.rm == 0 && f.os == 0 && f.fn == 0 && f.z == 0) (.mulh t f.d f.a f.b)
  | 0x004 => do let t ← IntTy.ofCode f.t; req (f.c == 0 && f.gm == 0 && f.rm == 0 && f.os == 0 && f.fn == 0 && f.z == 0) (.mulhn t f.d f.a f.b)
  | 0x005 => do let t ← IntTy.ofCode f.t; req (f.c == 0 && f.gm == 0 && f.rm == 0 && f.os == 0 && f.fn == 0 && f.z == 0) (.div t f.d f.a f.b)
  | 0x006 => do let t ← IntTy.ofCode f.t; req (f.c == 0 && f.gm == 0 && f.rm == 0 && f.os == 0 && f.fn == 0 && f.z == 0) (.divn t f.d f.a f.b)
  | 0x007 => do let t ← IntTy.ofCode f.t; req (f.c == 0 && f.gm == 0 && f.rm == 0 && f.os == 0 && f.fn == 0 && f.z == 0) (.rem t f.d f.a f.b)
  | 0x008 => do let t ← IntTy.ofCode f.t; req (f.c == 0 && f.gm == 0 && f.rm == 0 && f.os == 0 && f.fn == 0 && f.z == 0) (.remn t f.d f.a f.b)
  | 0x009 => do let t ← IntTy.ofCode f.t; req (f.c == 0 && f.gm == 0 && f.rm == 0 && f.os == 0 && f.fn == 0 && f.z == 0) (.and t f.d f.a f.b)
  | 0x00A => do let t ← IntTy.ofCode f.t; req (f.c == 0 && f.gm == 0 && f.rm == 0 && f.os == 0 && f.fn == 0 && f.z == 0) (.or t f.d f.a f.b)
  | 0x00B => do let t ← IntTy.ofCode f.t; req (f.c == 0 && f.gm == 0 && f.rm == 0 && f.os == 0 && f.fn == 0 && f.z == 0) (.xor t f.d f.a f.b)
  | 0x00C => do let t ← IntTy.ofCode f.t; req (f.c == 0 && f.gm == 0 && f.rm == 0 && f.os == 0 && f.fn == 0 && f.z == 0) (.andn t f.d f.a f.b)
  | 0x00D => do let t ← IntTy.ofCode f.t; req (f.c == 0 && f.gm == 0 && f.rm == 0 && f.os == 0 && f.fn == 0 && f.z == 0) (.shl t f.d f.a f.b)
  | 0x00E => do let t ← IntTy.ofCode f.t; req (f.c == 0 && f.gm == 0 && f.rm == 0 && f.os == 0 && f.fn == 0 && f.z == 0) (.shr t f.d f.a f.b)
  | 0x00F => do let t ← IntTy.ofCode f.t; req (f.c == 0 && f.gm == 0 && f.rm == 0 && f.os == 0 && f.fn == 0 && f.z == 0) (.sra t f.d f.a f.b)
  | 0x010 => do let t ← IntTy.ofCode f.t; req (f.c == 0 && f.gm == 0 && f.rm == 0 && f.os == 0 && f.fn == 0 && f.z == 0) (.rotr t f.d f.a f.b)
  | 0x011 => do let t ← IntTy.ofCode f.t; req (f.c == 0 && f.b == 0 && f.gm == 0 && f.rm == 0 && f.os == 0 && f.fn == 0 && f.z == 0) (.clz t f.d f.a)
  | 0x012 => do let t ← IntTy.ofCode f.t; req (f.c == 0 && f.b == 0 && f.gm == 0 && f.rm == 0 && f.os == 0 && f.fn == 0 && f.z == 0) (.ctz t f.d f.a)
  | 0x013 => do let t ← IntTy.ofCode f.t; req (f.c == 0 && f.b == 0 && f.gm == 0 && f.rm == 0 && f.os == 0 && f.fn == 0 && f.z == 0) (.popc t f.d f.a)
  | 0x014 => do let t ← IntTy.ofCode f.t; req (f.c == 0 && f.gm == 0 && f.rm == 0 && f.os == 0 && f.fn == 0 && f.z == 0) (.min t f.d f.a f.b)
  | 0x015 => do let t ← IntTy.ofCode f.t; req (f.c == 0 && f.gm == 0 && f.rm == 0 && f.os == 0 && f.fn == 0 && f.z == 0) (.max t f.d f.a f.b)
  | 0x016 => do let t ← IntTy.ofCode f.t; req (f.c == 0 && f.gm == 0 && f.rm == 0 && f.os == 0 && f.fn == 0 && f.z == 0) (.minn t f.d f.a f.b)
  | 0x017 => do let t ← IntTy.ofCode f.t; req (f.c == 0 && f.gm == 0 && f.rm == 0 && f.os == 0 && f.fn == 0 && f.z == 0) (.maxn t f.d f.a f.b)
  | 0x018 => do let t ← IntTy.ofCode f.t; req (f.c == 0 && f.gm == 0 && f.rm == 0 && f.os == 0 && f.fn == 0 && f.z == 0) (.slt t f.d f.a f.b)
  | 0x019 => do let t ← IntTy.ofCode f.t; req (f.c == 0 && f.gm == 0 && f.rm == 0 && f.os == 0 && f.fn == 0 && f.z == 0) (.sltn t f.d f.a f.b)
  | 0x01A => do let t ← IntTy.ofCode f.t; req (f.c == 0 && f.gm == 0 && f.rm == 0 && f.os == 0 && f.fn == 0 && f.z == 0) (.seq t f.d f.a f.b)
  | 0x01B => req (f.c == 0 && f.gm == 0 && f.t == 0 && f.rm == 0 && f.os == 0 && f.fn == 0 && f.z == 0) (.csel f.d f.a f.b)
  | 0x026 => do let t ← FpTy.ofCode f.t; let rm ← Rm.ofCode f.rm; req (f.c == 0 && f.gm == 0 && f.os == 0 && f.fn == 0 && f.z == 0) (.fadd t rm f.d f.a f.b)
  | 0x027 => do let t ← FpTy.ofCode f.t; let rm ← Rm.ofCode f.rm; req (f.c == 0 && f.gm == 0 && f.os == 0 && f.fn == 0 && f.z == 0) (.fsub t rm f.d f.a f.b)
  | 0x028 => do let t ← FpTy.ofCode f.t; let rm ← Rm.ofCode f.rm; req (f.c == 0 && f.gm == 0 && f.os == 0 && f.fn == 0 && f.z == 0) (.fmul t rm f.d f.a f.b)
  | 0x029 => do let t ← FpTy.ofCode f.t; let rm ← Rm.ofCode f.rm; req (f.c == 0 && f.gm == 0 && f.os == 0 && f.fn == 0 && f.z == 0) (.fdiv t rm f.d f.a f.b)
  | 0x02A => do let t ← FpTy.ofCode f.t; let rm ← Rm.ofCode f.rm; req (f.c == 0 && f.b == 0 && f.gm == 0 && f.os == 0 && f.fn == 0 && f.z == 0) (.fsqrt t rm f.d f.a)
  | 0x02B => do let t ← FpTy.ofCode f.t; let rm ← Rm.ofCode f.rm; req (f.c == 0 && f.gm == 0 && f.os == 0 && f.fn == 0 && f.z == 0) (.fma t rm f.d f.a f.b)
  | 0x02C => do let t ← FpTy.ofCode f.t; req (f.c == 0 && f.gm == 0 && f.rm == 0 && f.os == 0 && f.fn == 0 && f.z == 0) (.fmin t f.d f.a f.b)
  | 0x02D => do let t ← FpTy.ofCode f.t; req (f.c == 0 && f.gm == 0 && f.rm == 0 && f.os == 0 && f.fn == 0 && f.z == 0) (.fmax t f.d f.a f.b)
  | 0x02E => do let t ← FpTy.ofCode f.t; let k ← Cond.ofCode f.fn; req (f.c == 0 && f.gm == 0 && f.rm == 0 && f.os == 0 && f.z == 0) (.fcmp t k f.d f.a f.b)
  | 0x02F => do let k ← Cvt.ofFields f.t f.os f.fn; let rm ← Rm.ofCode f.rm; req (f.c == 0 && f.b == 0 && f.gm == 0 && f.z == 0) (.fcvt k rm f.d f.a)
  | 0x030 => do let t ← FpTy.ofCode f.t; req (f.c == 0 && f.b == 0 && f.gm == 0 && f.rm == 0 && f.os == 0 && f.fn == 0 && f.z == 0) (.fclass t f.d f.a)
  | _ => none

/-- The group 0 words of format F-I (R247): none where a field is out of range or an unused field is not zero. -/
def decodeFI0 (f : FI) : Option Instr :=
  match f.op.toNat with
  | 0x01C => do let t ← IntTy.ofCode f.t; req (f.c == 0 && f.gm == 0 && f.z == 0) (.addi t f.d f.a f.imm)
  | 0x01D => do let t ← IntTy.ofCode f.t; req (f.c == 0 && f.gm == 0 && f.z == 0) (.andi t f.d f.a f.imm)
  | 0x01E => do let t ← IntTy.ofCode f.t; req (f.c == 0 && f.gm == 0 && f.z == 0) (.ori t f.d f.a f.imm)
  | 0x01F => do let t ← IntTy.ofCode f.t; req (f.c == 0 && f.gm == 0 && f.z == 0) (.xori t f.d f.a f.imm)
  | 0x020 => do let t ← IntTy.ofCode f.t; let n ← shiftCount f.imm; req (f.c == 0 && f.gm == 0 && f.z == 0) (.shli t f.d f.a n)
  | 0x021 => do let t ← IntTy.ofCode f.t; let n ← shiftCount f.imm; req (f.c == 0 && f.gm == 0 && f.z == 0) (.shri t f.d f.a n)
  | 0x022 => do let t ← IntTy.ofCode f.t; let n ← shiftCount f.imm; req (f.c == 0 && f.gm == 0 && f.z == 0) (.srai t f.d f.a n)
  | 0x023 => do let t ← IntTy.ofCode f.t; req (f.c == 0 && f.gm == 0 && f.z == 0) (.slti t f.d f.a f.imm)
  | 0x024 => req (f.c == 0 && f.a == 0 && f.gm == 0 && f.t == 0 && f.z == 0) (.movi f.d f.imm)
  | 0x025 => req (f.c == 0 && f.a == 0 && f.gm == 0 && f.t == 0 && f.z == 0) (.movhi f.d f.imm)
  | _ => none

/-- The group 1 words of format F-R (R248): none where a field is out of range or an unused field is not zero. -/
def decodeFR1 (f : FR) : Option Instr :=
  match f.op.toNat with
  | 0x090 => req (f.c == 0 && f.d == 0 && f.a == 0 && f.b == 0 && f.gm == 0 && f.t == 0 && f.rm == 0 && f.os == 0 && f.fn == 0 && f.z == 0) (.eret)
  | 0x094 => req (f.d != f.a && f.d != 0 && f.a != 0 && f.c == 0 && f.b == 0 && f.gm == 0 && f.t == 0 && f.rm == 0 && f.os == 0 && f.fn == 0 && f.z == 0) (.deal f.d f.a)
  | 0x095 => req (f.c == 0 && f.d == 0 && f.a == 0 && f.b == 0 && f.gm == 0 && f.t == 0 && f.rm == 0 && f.os == 0 && f.fn == 0 && f.z == 0) (.exit)
  | 0x096 => req (f.c == 0 && f.d == 0 && f.a == 0 && f.b == 0 && f.gm == 0 && f.t == 0 && f.rm == 0 && f.os == 0 && f.fn == 0 && f.z == 0) (.yield)
  | 0x098 => req (f.c == 0 && f.gm == 0 && f.t == 0 && f.rm == 0 && f.os == 0 && f.fn == 0 && f.z == 0) (.cntwait f.d f.a f.b)
  | 0x09A => do let q ← feedQ f.d; req (f.c == 0 && f.b == 0 && f.gm == 0 && f.t == 0 && f.rm == 0 && f.os == 0 && f.fn == 0 && f.z == 0) (.qpush q f.a)
  | 0x09B => do let q ← low2 f.a; req (f.c == 0 && f.b == 0 && f.gm == 0 && f.t == 0 && f.rm == 0 && f.os == 0 && f.fn == 0 && f.z == 0) (.qpop f.d q)
  | 0x09F => req (f.c == 0 && f.d == 0 && f.gm == 0 && f.t == 0 && f.rm == 0 && f.os == 0 && f.fn == 0 && f.z == 0) (.slotset f.a f.b)
  | 0x0A0 => req (f.c == 0 && f.d == 0 && f.gm == 0 && f.t == 0 && f.rm == 0 && f.os == 0 && f.fn == 0 && f.z == 0) (.slotinv f.a f.b)
  | 0x0A1 => req (f.c == 0 && f.d == 0 && f.b == 0 && f.gm == 0 && f.t == 0 && f.rm == 0 && f.os == 0 && f.fn == 0 && f.z == 0) (.incfence f.a)
  | 0x0A2 => req (f.c == 0 && f.d == 0 && f.b == 0 && f.gm == 0 && f.t == 0 && f.rm == 0 && f.os == 0 && f.fn == 0 && f.z == 0) (.mark f.a)
  | _ => none

/-- The group 1 words of format F-I (R248): none where a field is out of range or an unused field is not zero. A GETC of CPGOc is a copy launch (R349). -/
def decodeFI1 (f : FI) : Option Instr :=
  match f.op.toNat with
  | 0x08E => req (f.c == 0 && f.d == 0 && f.a == 0 && f.gm == 0 && f.t == 0 && f.z == 0) (.trap f.imm)
  | 0x08F => req (f.c == 0 && f.d == 0 && f.a == 0 && f.gm == 0 && f.t == 0 && f.z == 0) (.brk f.imm)
  | 0x091 => do
    let r ← cregOnly f.imm
    let i := match r with
      | .cpgo ch => Instr.copyLaunch f.d ch
      | r => Instr.getc f.d r
    req (f.c == 0 && f.a == 0 && f.gm == 0 && f.t == 0 && f.z == 0) i
  | 0x092 => do let r ← cregOnly f.imm; req (f.c == 0 && f.d == 0 && f.gm == 0 && f.t == 0 && f.z == 0) (.setc r f.a)
  | 0x093 => do let r ← CReg.ofNumber (f.imm.extractLsb' 0 12); req (f.c == 0 && f.d == 0 && f.a == 0 && f.gm == 0 && f.t == 0 && f.z == 0) (.setci r (f.imm.extractLsb' 12 20))
  | 0x097 => req (f.c == 0 && f.d == 0 && f.gm == 0 && f.t == 0 && f.z == 0) (.cntinc f.a f.imm)
  | 0x099 => do let lv ← levelOf f.imm; req (f.c == 0 && f.d == 0 && f.gm == 0 && f.t == 0 && f.z == 0) (.cancel lv f.a)
  | 0x09C => do let k ← slotOf f.imm; req (f.c == 0 && f.gm == 0 && f.t == 0 && f.z == 0) (.sptr f.d k f.a)
  | 0x09D => do let k ← slotOf f.imm; req (f.c == 0 && f.a == 0 && f.gm == 0 && f.t == 0 && f.z == 0) (.slotq f.d k)
  | 0x09E => do let k ← slotOf f.imm; req (f.c == 0 && f.d == 0 && f.a == 0 && f.gm == 0 && f.t == 0 && f.z == 0) (.slotsync k)
  | _ => none

/-- The group 1 words of format F-B (R248): none where a field is out of range or an unused field is not zero. -/
def decodeFB1 (f : FB) : Option Instr :=
  match f.op.toNat with
  | 0x080 => req (f.c == 0 && f.d == 0 && f.z == 0) (.beq f.a f.b f.disp)
  | 0x081 => req (f.c == 0 && f.d == 0 && f.z == 0) (.bne f.a f.b f.disp)
  | 0x082 => req (f.c == 0 && f.d == 0 && f.z == 0) (.blt f.a f.b f.disp)
  | 0x083 => req (f.c == 0 && f.d == 0 && f.z == 0) (.bge f.a f.b f.disp)
  | 0x084 => req (f.c == 0 && f.d == 0 && f.z == 0) (.bltn f.a f.b f.disp)
  | 0x085 => req (f.c == 0 && f.d == 0 && f.z == 0) (.bgen f.a f.b f.disp)
  | 0x086 => req (f.c == 0 && f.d == 0 && f.a == 0 && f.b == 0 && f.z == 0) (.j f.disp)
  | 0x087 => req (f.c == 0 && f.a == 0 && f.b == 0 && f.z == 0) (.jal f.d f.disp)
  | 0x088 => req (f.c == 0 && f.d == 0 && f.b == 0 && f.z == 0 && f.disp == 0) (.jr f.a)
  | 0x089 => req (f.c == 0 && f.b == 0 && f.z == 0 && f.disp == 0) (.jalr f.d f.a)
  | 0x08A => do let lv ← loopLevel f.d; let disp ← loopDisp f.disp; req (f.c == 0 && f.b == 0 && f.z == 0) (.loop lv f.a disp)
  | 0x08B => do let lv ← loopLevel f.d; let disp ← loopDisp f.disp; req (f.c == 0) (.loopi lv (f.a ++ f.b ++ f.z) disp)
  | 0x08C => req (f.c == 0 && f.d == 0 && f.a == 0 && f.b == 0 && f.z == 0) (.bmz f.disp)
  | 0x08D => req (f.c == 0 && f.d == 0 && f.a == 0 && f.b == 0 && f.z == 0) (.bmnz f.disp)
  | _ => none

/-- The group 2 words of format F-R (R249): none where a field is out of range or an unused field is not zero. -/
def decodeFR2 (f : FR) : Option Instr :=
  match f.op.toNat with
  | 0x100 => do let t ← WTy.ofCode f.t; req (f.c == 0 && f.b == 0 && f.gm == 0 && f.rm == 0 && f.os == 0 && f.fn == 0 && f.z == 0) (.setvl t f.d f.a)
  | 0x101 => do let t ← WTy.ofCode f.t; req (f.c == 0 && f.b == 0 && f.gm == 0 && f.rm == 0 && f.os == 0 && f.fn == 0 && f.z == 0) (.msetvl t f.d f.a)
  | 0x102 => do let t ← VIntTy.ofCode f.t; let a ← Src.ofFields f.os f.a; req (f.rm == 0 && f.fn == 0 && f.z == 0) (.vadd (f.c == 1) f.gm t f.d a f.b)
  | 0x103 => do let t ← VIntTy.ofCode f.t; let a ← Src.ofFields f.os f.a; req (f.rm == 0 && f.fn == 0 && f.z == 0) (.vsub (f.c == 1) f.gm t f.d a f.b)
  | 0x104 => do let t ← VIntTy.ofCode f.t; let a ← Src.ofFields f.os f.a; req (f.rm == 0 && f.fn == 0 && f.z == 0) (.vmul (f.c == 1) f.gm t f.d a f.b)
  | 0x105 => do let t ← VIntTy.ofCode f.t; let a ← Src.ofFields f.os f.a; req (f.rm == 0 && f.fn == 0 && f.z == 0) (.vmulh (f.c == 1) f.gm t f.d a f.b)
  | 0x106 => do let t ← VIntTy.ofCode f.t; let a ← Src.ofFields f.os f.a; req (f.rm == 0 && f.fn == 0 && f.z == 0) (.vmin (f.c == 1) f.gm t f.d a f.b)
  | 0x107 => do let t ← VIntTy.ofCode f.t; let a ← Src.ofFields f.os f.a; req (f.rm == 0 && f.fn == 0 && f.z == 0) (.vmax (f.c == 1) f.gm t f.d a f.b)
  | 0x108 => do let t ← VIntTy.ofCode f.t; let a ← Src.ofFields f.os f.a; req (f.rm == 0 && f.fn == 0 && f.z == 0) (.vand (f.c == 1) f.gm t f.d a f.b)
  | 0x109 => do let t ← VIntTy.ofCode f.t; let a ← Src.ofFields f.os f.a; req (f.rm == 0 && f.fn == 0 && f.z == 0) (.vor (f.c == 1) f.gm t f.d a f.b)
  | 0x10A => do let t ← VIntTy.ofCode f.t; let a ← Src.ofFields f.os f.a; req (f.rm == 0 && f.fn == 0 && f.z == 0) (.vxor (f.c == 1) f.gm t f.d a f.b)
  | 0x10B => do let t ← VIntTy.ofCode f.t; let a ← Src.ofFields f.os f.a; req (f.rm == 0 && f.fn == 0 && f.z == 0) (.vshl (f.c == 1) f.gm t f.d a f.b)
  | 0x10C => do let t ← VIntTy.ofCode f.t; let a ← Src.ofFields f.os f.a; req (f.rm == 0 && f.fn == 0 && f.z == 0) (.vshr (f.c == 1) f.gm t f.d a f.b)
  | 0x10D => do let t ← VIntTy.ofCode f.t; let a ← Src.ofFields f.os f.a; req (f.rm == 0 && f.fn == 0 && f.z == 0) (.vsra (f.c == 1) f.gm t f.d a f.b)
  | 0x10E => do let t ← VIntTy.ofCode f.t; let a ← Src.ofFields f.os f.a; req (f.rm == 0 && f.fn == 0 && f.z == 0) (.vsadd (f.c == 1) f.gm t f.d a f.b)
  | 0x10F => do let t ← VIntTy.ofCode f.t; let a ← Src.ofFields f.os f.a; req (f.rm == 0 && f.fn == 0 && f.z == 0) (.vssub (f.c == 1) f.gm t f.d a f.b)
  | 0x110 => do let t ← VIntTy.ofCode f.t; req (f.b == 0 && f.rm == 0 && f.os == 0 && f.fn == 0 && f.z == 0) (.vabs (f.c == 1) f.gm t f.d f.a)
  | 0x111 => do let t ← FpTy.ofCode f.t; let rm ← Rm.ofCode f.rm; let a ← Src.ofFields f.os f.a; req (f.fn == 0 && f.z == 0) (.vfadd (f.c == 1) f.gm t rm f.d a f.b)
  | 0x112 => do let t ← FpTy.ofCode f.t; let rm ← Rm.ofCode f.rm; let a ← Src.ofFields f.os f.a; req (f.fn == 0 && f.z == 0) (.vfsub (f.c == 1) f.gm t rm f.d a f.b)
  | 0x113 => do let t ← FpTy.ofCode f.t; let rm ← Rm.ofCode f.rm; let a ← Src.ofFields f.os f.a; req (f.fn == 0 && f.z == 0) (.vfmul (f.c == 1) f.gm t rm f.d a f.b)
  | 0x114 => do let t ← FpTy.ofCode f.t; let rm ← Rm.ofCode f.rm; let a ← Src.ofFields f.os f.a; req (f.fn == 0 && f.z == 0) (.vfdiv (f.c == 1) f.gm t rm f.d a f.b)
  | 0x115 => do let t ← FpTy.ofCode f.t; let rm ← Rm.ofCode f.rm; req (f.b == 0 && f.os == 0 && f.fn == 0 && f.z == 0) (.vfsqrt (f.c == 1) f.gm t rm f.d f.a)
  | 0x116 => do let t ← FpTy.ofCode f.t; let rm ← Rm.ofCode f.rm; let a ← Src.ofFields f.os f.a; req (f.fn == 0 && f.z == 0) (.vfma (f.c == 1) f.gm t rm f.d a f.b)
  | 0x117 => do let t ← FpTy.ofCode f.t; let rm ← Rm.ofCode f.rm; let a ← Src.ofFields f.os f.a; req (f.fn == 0 && f.z == 0) (.vfms (f.c == 1) f.gm t rm f.d a f.b)
  | 0x118 => do let t ← FpTy.ofCode f.t; let rm ← Rm.ofCode f.rm; let a ← Src.ofFields f.os f.a; req (f.fn == 0 && f.z == 0) (.vfnma (f.c == 1) f.gm t rm f.d a f.b)
  | 0x119 => do let t ← FpTy.ofCode f.t; let a ← Src.ofFields f.os f.a; req (f.rm == 0 && f.fn == 0 && f.z == 0) (.vfmin (f.c == 1) f.gm t f.d a f.b)
  | 0x11A => do let t ← FpTy.ofCode f.t; let a ← Src.ofFields f.os f.a; req (f.rm == 0 && f.fn == 0 && f.z == 0) (.vfmax (f.c == 1) f.gm t f.d a f.b)
  | 0x11B => do let t ← FpTy.ofCode f.t; req (f.b == 0 && f.rm == 0 && f.os == 0 && f.fn == 0 && f.z == 0) (.vfabs (f.c == 1) f.gm t f.d f.a)
  | 0x11C => do let t ← FpTy.ofCode f.t; req (f.b == 0 && f.rm == 0 && f.os == 0 && f.fn == 0 && f.z == 0) (.vfneg (f.c == 1) f.gm t f.d f.a)
  | 0x11D => do let t ← FpTy.ofCode f.t; req (f.b == 0 && f.rm == 0 && f.os == 0 && f.fn == 0 && f.z == 0) (.vfrsqe (f.c == 1) f.gm t f.d f.a)
  | 0x11E => do let t ← FpTy.ofCode f.t; req (f.b == 0 && f.rm == 0 && f.os == 0 && f.fn == 0 && f.z == 0) (.vfrcpe (f.c == 1) f.gm t f.d f.a)
  | 0x11F => do let t ← FpTy.ofCode f.t; let rm ← Rm.ofCode f.rm; req (f.b == 0 && f.os == 0 && f.fn == 0 && f.z == 0) (.vfexp2 (f.c == 1) f.gm t rm f.d f.a)
  | 0x120 => do let t ← FpTy.ofCode f.t; let rm ← Rm.ofCode f.rm; req (f.b == 0 && f.os == 0 && f.fn == 0 && f.z == 0) (.vflog2 (f.c == 1) f.gm t rm f.d f.a)
  | 0x121 => do let t ← VIntTy.ofCode f.t; let k ← Cond.ofCode f.fn; let md ← writeMask f.d; let a ← Src.ofFields f.os f.a; req (f.rm == 0 && f.z == 0) (.vcmp (f.c == 1) f.gm t k md a f.b)
  | 0x122 => do let t ← FpTy.ofCode f.t; let k ← Cond.ofCode f.fn; let md ← writeMask f.d; let a ← Src.ofFields f.os f.a; req (f.rm == 0 && f.z == 0) (.vfcmp (f.c == 1) f.gm t k md a f.b)
  | 0x123 => do let t ← FpTy.ofCode f.t; req (f.b == 0 && f.rm == 0 && f.os == 0 && f.fn == 0 && f.z == 0) (.vfclass (f.c == 1) f.gm t f.d f.a)
  | 0x124 => do let md ← writeMask f.d; let ma ← readMask f.a; let mb ← readMask f.b; req (f.gm == 0 && f.t == 0 && f.rm == 0 && f.os == 0 && f.fn == 0 && f.z == 0) (.mand (f.c == 1) md ma mb)
  | 0x125 => do let md ← writeMask f.d; let ma ← readMask f.a; let mb ← readMask f.b; req (f.gm == 0 && f.t == 0 && f.rm == 0 && f.os == 0 && f.fn == 0 && f.z == 0) (.mor (f.c == 1) md ma mb)
  | 0x126 => do let md ← writeMask f.d; let ma ← readMask f.a; let mb ← readMask f.b; req (f.gm == 0 && f.t == 0 && f.rm == 0 && f.os == 0 && f.fn == 0 && f.z == 0) (.mxor (f.c == 1) md ma mb)
  | 0x127 => do let md ← writeMask f.d; let ma ← readMask f.a; let mb ← readMask f.b; req (f.gm == 0 && f.t == 0 && f.rm == 0 && f.os == 0 && f.fn == 0 && f.z == 0) (.mandn (f.c == 1) md ma mb)
  | 0x128 => do let md ← writeMask f.d; let ma ← readMask f.a; req (f.b == 0 && f.gm == 0 && f.t == 0 && f.rm == 0 && f.os == 0 && f.fn == 0 && f.z == 0) (.mnot (f.c == 1) md ma)
  | 0x129 => do let md ← writeMask f.d; let ma ← readMask f.a; req (f.b == 0 && f.gm == 0 && f.t == 0 && f.rm == 0 && f.os == 0 && f.fn == 0 && f.z == 0) (.mmov (f.c == 1) md ma)
  | 0x12A => do let q ← low2 f.d; let ma ← readMask f.a; req (f.os == 3 && f.b == 0 && f.t == 0 && f.rm == 0 && f.fn == 0 && f.z == 0) (.mpopc (f.c == 1) f.gm q ma)
  | 0x12B => do let q ← low2 f.d; let ma ← readMask f.a; req (f.os == 3 && f.b == 0 && f.t == 0 && f.rm == 0 && f.fn == 0 && f.z == 0) (.mfirst (f.c == 1) f.gm q ma)
  | 0x12C => do let ma ← readMask f.a; req (f.d == 0 && f.b == 0 && f.gm == 0 && f.t == 0 && f.rm == 0 && f.os == 0 && f.fn == 0 && f.z == 0) (.mpush (f.c == 1) ma)
  | 0x12D => req (f.d == 0 && f.a == 0 && f.b == 0 && f.gm == 0 && f.t == 0 && f.rm == 0 && f.os == 0 && f.fn == 0 && f.z == 0) (.minv (f.c == 1))
  | 0x12E => req (f.d == 0 && f.a == 0 && f.b == 0 && f.gm == 0 && f.t == 0 && f.rm == 0 && f.os == 0 && f.fn == 0 && f.z == 0) (.mpop (f.c == 1))
  | 0x12F => do let md ← writeMask f.d; req (f.a == 0 && f.b == 0 && f.gm == 0 && f.t == 0 && f.rm == 0 && f.os == 0 && f.fn == 0 && f.z == 0) (.mtop (f.c == 1) md)
  | 0x130 => do let t ← WTy.ofCode f.t; req (f.b == 0 && f.rm == 0 && f.os == 0 && f.fn == 0 && f.z == 0) (.vcompress (f.c == 1) f.gm t f.d f.a)
  | 0x131 => do let t ← WTy.ofCode f.t; req (t != .res32 && f.a == 0 && f.b == 0 && f.rm == 0 && f.os == 0 && f.fn == 0 && f.z == 0) (.viota (f.c == 1) f.gm t f.d)
  | 0x132 => do let t ← WTy.ofCode f.t; req (f.rm == 0 && f.os == 0 && f.fn == 0 && f.z == 0) (.vperm (f.c == 1) f.gm t f.d f.a f.b)
  | 0x133 => do let t ← WTy.ofCode f.t; req (f.rm == 0 && f.os == 0 && f.fn == 0 && f.z == 0) (.vslideup (f.c == 1) f.gm t f.d f.a f.b)
  | 0x134 => do let t ← WTy.ofCode f.t; req (f.rm == 0 && f.os == 0 && f.fn == 0 && f.z == 0) (.vslidedn (f.c == 1) f.gm t f.d f.a f.b)
  | 0x135 => do let t ← WTy.ofCode f.t; let a ← Src.ofFields f.os f.a; req (f.b == 0 && f.rm == 0 && f.fn == 0 && f.z == 0) (.vbcast (f.c == 1) f.gm t f.d a)
  | 0x136 => do let t ← WTy.ofCode f.t; let q ← low2 f.d; req (f.os == 3 && f.gm == 0 && f.rm == 0 && f.fn == 0 && f.z == 0) (.vextr (f.c == 1) t q f.a f.b)
  | 0x137 => do let t ← WTy.ofCode f.t; let a ← Src.ofFields f.os f.a; req (a.notVec && f.gm == 0 && f.rm == 0 && f.fn == 0 && f.z == 0) (.vins (f.c == 1) t f.d a f.b)
  | 0x138 => do let t ← WTy.ofCode f.t; req (f.rm == 0 && f.os == 0 && f.fn == 0 && f.z == 0) (.vmerge (f.c == 1) f.gm t f.d f.a f.b)
  | 0x139 => do let t ← VIntTy.ofCode f.t; let d ← RedDst.ofFields f.os f.d; let st ← stvOf f.fn f.b; req (f.rm == 0 && f.z == 0) (.vredsum (f.c == 1) f.gm t d f.a st)
  | 0x13A => do let t ← VIntTy.ofCode f.t; let d ← RedDst.ofFields f.os f.d; let st ← stvOf f.fn f.b; req (f.rm == 0 && f.z == 0) (.vredmin (f.c == 1) f.gm t d f.a st)
  | 0x13B => do let t ← VIntTy.ofCode f.t; let d ← RedDst.ofFields f.os f.d; let st ← stvOf f.fn f.b; req (f.rm == 0 && f.z == 0) (.vredmax (f.c == 1) f.gm t d f.a st)
  | 0x13C => do let t ← FpTy.ofCode f.t; let rm ← Rm.ofCode f.rm; let d ← RedDst.ofFields f.os f.d; let st ← stvOf f.fn f.b; req (f.z == 0) (.vfredsum (f.c == 1) f.gm t rm d f.a st)
  | 0x13D => do let t ← FpTy.ofCode f.t; let d ← RedDst.ofFields f.os f.d; let st ← stvOf f.fn f.b; req (f.rm == 0 && f.z == 0) (.vfredmin (f.c == 1) f.gm t d f.a st)
  | 0x13E => do let t ← FpTy.ofCode f.t; let d ← RedDst.ofFields f.os f.d; let st ← stvOf f.fn f.b; req (f.rm == 0 && f.z == 0) (.vfredmax (f.c == 1) f.gm t d f.a st)
  | 0x13F => do let t ← VIntTy.ofCode f.t; let src ← vcvtSrc f.fn; req (f.b == 0 && f.rm == 0 && f.os == 0 && f.z == 0) (.vcvt (f.c == 1) f.gm t src f.d f.a)
  | 0x140 => do let k ← VCvt.ofFields f.t f.fn; let rm ← Rm.ofCode f.rm; req (f.b == 0 && f.os == 0 && f.z == 0) (.vfcvt (f.c == 1) f.gm k rm f.d f.a)
  | 0x141 => do let t ← VIntTy.ofCode f.t; req (f.b == 0 && f.rm == 0 && f.os == 0 && f.fn == 0 && f.z == 0) (.vresenc (f.c == 1) f.gm t f.d f.a)
  | 0x142 => do let t ← VIntTy.ofCode f.t; req (f.b == 0 && f.rm == 0 && f.os == 0 && f.fn == 0 && f.z == 0) (.vresdec (f.c == 1) f.gm t f.d f.a)
  | 0x143 => req (f.t == 4 && f.rm == 0 && f.os == 0 && f.fn == 0 && f.z == 0) (.vresmac (f.c == 1) f.gm f.d f.a f.b)
  | 0x144 => req (f.t == 4 && f.rm == 0 && f.os == 0 && f.fn == 0 && f.z == 0) (.vresadd (f.c == 1) f.gm f.d f.a f.b)
  | 0x145 => req (f.t == 4 && f.rm == 0 && f.os == 0 && f.fn == 0 && f.z == 0) (.vresmul (f.c == 1) f.gm f.d f.a f.b)
  | 0x146 => do let t ← WTy.ofCode f.t; req (f.b == 0 && f.rm == 0 && f.os == 0 && f.fn == 0 && f.z == 0) (.vmov (f.c == 1) f.gm t f.d f.a)
  | _ => none

/-- The group 3 words of format F-I (R250): none where a field is out of range or an unused field is not zero. -/
def decodeFI3 (f : FI) : Option Instr :=
  match f.op.toNat with
  | 0x20F => do let k ← fenceKindOf f.imm; req (f.c == 0 && f.d == 0 && f.a == 0 && f.gm == 0 && f.t == 0 && f.z == 0) (.fence k (f.imm.extractLsb' 2 2))
  | _ => none

/-- The group 3 words of format F-M (R250): none where a field is out of range or an unused field is not zero. -/
def decodeFM3 (f : FM) : Option Instr :=
  match f.op.toNat with
  | 0x200 => do let x ← LdForm.ofFields f.t f.off; req (f.c == 0 && f.b == 0 && f.gm == 0 && f.oe == 0 && f.no == 0) (.ld f.d ⟨f.sc, f.sl, f.a⟩ f.ch x)
  | 0x201 => do let x ← StForm.ofFields f.t f.off; req (f.c == 0 && f.b == 0 && f.gm == 0 && f.oe == 0 && f.no == 0) (.st f.d ⟨f.sc, f.sl, f.a⟩ f.ch x)
  | 0x202 => do let t ← MemTy.ofCode f.t; req (f.ch == 1 && f.c == 0 && f.b == 0 && f.gm == 0 && f.oe == 0 && f.no == 0) (.ldacq t f.d ⟨f.sc, f.sl, f.a⟩ f.off)
  | 0x203 => do let t ← MemTy.ofCode f.t; req (f.ch == 2 && f.c == 0 && f.b == 0 && f.gm == 0 && f.oe == 0 && f.no == 0) (.strel t f.d ⟨f.sc, f.sl, f.a⟩ f.off)
  | 0x204 => do let op ← AmoOp.ofCode (f.off.extractLsb' 12 4); let t ← AmoTy.ofCode f.t; req (amoTyOk op t && f.c == 0 && f.gm == 0 && f.oe == 0 && f.no == 0) (.amo op t f.ch f.d ⟨f.sc, f.sl, f.a⟩ (f.off.extractLsb' 0 12) f.b)
  | 0x205 => do let x ← LdForm.ofFields f.t f.off; req (f.b == 0) (.vld ⟨f.c == 1, f.gm, f.oe == 1, f.no == 1⟩ f.d ⟨f.sc, f.sl, f.a⟩ f.ch x)
  | 0x206 => do let x ← LdForm.ofFields f.t f.off; req (true) (.vlds ⟨f.c == 1, f.gm, f.oe == 1, f.no == 1⟩ f.d ⟨f.sc, f.sl, f.a⟩ f.ch x f.b)
  | 0x207 => do let x ← LdForm.ofFields f.t f.off; req (true) (.vldx ⟨f.c == 1, f.gm, f.oe == 1, f.no == 1⟩ f.d ⟨f.sc, f.sl, f.a⟩ f.ch x f.b)
  | 0x208 => do let x ← LdForm.ofFields f.t f.off; let q ← low2 f.b; req (true) (.vldff ⟨f.c == 1, f.gm, f.oe == 1, f.no == 1⟩ f.d ⟨f.sc, f.sl, f.a⟩ f.ch x q)
  | 0x209 => do let off ← off14Of f.off; req (f.t == 7 && f.b == 0) (.vldsc ⟨f.c == 1, f.gm, f.oe == 1, f.no == 1⟩ f.d ⟨f.sc, f.sl, f.a⟩ f.ch off)
  | 0x20A => do let x ← StForm.ofFields f.t f.off; req (f.b == 0) (.vst ⟨f.c == 1, f.gm, f.oe == 1, f.no == 1⟩ f.d ⟨f.sc, f.sl, f.a⟩ f.ch x)
  | 0x20B => do let x ← StForm.ofFields f.t f.off; req (true) (.vsts ⟨f.c == 1, f.gm, f.oe == 1, f.no == 1⟩ f.d ⟨f.sc, f.sl, f.a⟩ f.ch x f.b)
  | 0x20C => do let x ← StForm.ofFields f.t f.off; req (true) (.vstx ⟨f.c == 1, f.gm, f.oe == 1, f.no == 1⟩ f.d ⟨f.sc, f.sl, f.a⟩ f.ch x f.b)
  | 0x20D => do let op ← AmoOp.ofCode (f.off.extractLsb' 12 4); let t ← AmoTy.ofCode f.t; req (op != .cas && amoTyOk op t) (.vamo ⟨f.c == 1, f.gm, f.oe == 1, f.no == 1⟩ op t f.ch f.d ⟨f.sc, f.sl, f.a⟩ (f.off.extractLsb' 0 12) f.b)
  | 0x20E => req (f.c == 0 && f.d == 0 && f.b == 0 && f.gm == 0 && f.t == 0 && f.oe == 0 && f.no == 0 && f.ch == 0) (.zline ⟨f.sc, f.sl, f.a⟩ f.off)
  | 0x210 => do let t ← AmoTy.ofCode f.t; req (f.c == 0 && f.gm == 0 && f.oe == 0 && f.no == 0 && f.ch == 0) (.waita t f.d ⟨f.sc, f.sl, f.a⟩ f.off f.b)
  | 0x211 => req (f.c == 0 && f.d == 0 && f.b == 0 && f.gm == 0 && f.t == 0 && f.oe == 0 && f.no == 0) (.pref ⟨f.sc, f.sl, f.a⟩ f.ch f.off)
  | _ => none

/-- The group 4 words of format F-R (R251): none where a field is out of range or an unused field is not zero. -/
def decodeFR4 (f : FR) : Option Instr :=
  match f.op.toNat with
  | 0x280 => do let k ← MopTy.ofFields f.t f.rm; let td ← low2 f.d; req (f.os == 0 && f.z == 0) (.mopa (f.c == 1) f.gm k f.fn td f.a f.b)
  | 0x281 => do let k ← MopTy.ofFields f.t f.rm; let td ← low2 f.d; req (f.os == 0 && f.z == 0) (.mops (f.c == 1) f.gm k f.fn td f.a f.b)
  | 0x282 => do let td ← low2 f.d; req (f.a == 0 && f.b == 0 && f.gm == 0 && f.t == 0 && f.rm == 0 && f.os == 0 && f.fn == 0 && f.z == 0) (.mzero (f.c == 1) td)
  | 0x286 => do let ta ← low2 f.a; req (f.gm == 0 && f.t == 0 && f.rm == 0 && f.os == 0 && f.fn == 0 && f.z == 0) (.mrow (f.c == 1) f.d ta f.b)
  | 0x287 => do let td ← low2 f.d; req (f.gm == 0 && f.t == 0 && f.rm == 0 && f.os == 0 && f.fn == 0 && f.z == 0) (.mwrow (f.c == 1) td f.a f.b)
  | 0x288 => do let rm ← Rm.ofCode f.rm; let td ← low2 f.d; let ts ← low2of4 f.fn; req (f.t == 0 && f.os == 0 && f.z == 0) (.mfold (f.c == 1) f.gm rm td ts f.a f.b)
  | 0x289 => do let t ← MatTy.ofCode f.t; let rm ← Rm.ofCode f.rm; let td ← low2 f.d; let ta ← low2 f.a; let src ← mcvtSrc f.fn; req (f.b == 0 && f.os == 0 && f.z == 0) (.mcvt (f.c == 1) f.gm t rm td ta src)
  | _ => none

/-- The group 4 words of format F-M (R251): none where a field is out of range or an unused field is not zero. -/
def decodeFM4 (f : FM) : Option Instr :=
  match f.op.toNat with
  | 0x283 => do let td ← low2 f.d; let x ← TileLd.ofFields f.t f.off; req (true) (.mldt ⟨f.c == 1, f.gm, f.oe == 1, f.no == 1⟩ td ⟨f.sc, f.sl, f.a⟩ f.ch x f.b)
  | 0x284 => do let td ← low2 f.d; let x ← TileSt.ofFields f.t f.off; req (true) (.mstt ⟨f.c == 1, f.gm, f.oe == 1, f.no == 1⟩ td ⟨f.sc, f.sl, f.a⟩ f.ch x f.b)
  | 0x285 => do let t ← MergeTy.ofCode f.t; let part ← partOf f.oe f.b; let td ← low2 f.d; req (f.no == 0 && f.ch == 0) (.mmerge (f.c == 1) f.gm t part td ⟨f.sc, f.sl, f.a⟩ f.off)
  | _ => none

/-- The group 5 words of format F-R (R251): none where a field is out of range or an unused field is not zero. -/
def decodeFR5 (f : FR) : Option Instr :=
  match f.op.toNat with
  | 0x2C0 => req (f.c == 0 && f.b == 0 && f.gm == 0 && f.t == 0 && f.rm == 0 && f.os == 0 && f.fn == 0 && f.z == 0) (.cpwait f.d f.a)
  | 0x2C1 => req (f.c == 0 && f.d == 0 && f.b == 0 && f.gm == 0 && f.t == 0 && f.rm == 0 && f.os == 0 && f.fn == 0 && f.z == 0) (.cpcancel f.a)
  | _ => none

/-- The opcodes of the map (R246). -/
def opKnown (op : Nat) : Bool :=
  op ≤ 0x030 || (0x080 ≤ op && op ≤ 0x0A2) || (0x100 ≤ op && op ≤ 0x146) || (0x200 ≤ op && op ≤ 0x211) ||
  (0x280 ≤ op && op ≤ 0x289) || (0x2C0 ≤ op && op ≤ 0x2C1)

/-- The group 1 words of format F-I (R248). -/
def isFI1 (op : Nat) : Bool := [0x08E, 0x08F, 0x091, 0x092, 0x093, 0x097, 0x099, 0x09C, 0x09D, 0x09E].contains op

/-- The format the opcode map gives an opcode (R247 to R251), and the fields read in it. -/
def decodeFull (w : Word) : Option Instr :=
  let op := (w.extractLsb' 52 10).toNat
  if op < 0x080 then
    (if 0x01C ≤ op && op ≤ 0x025 then decodeFI0 (FI.ofWord w) else decodeFR0 (FR.ofWord w))
  else if op < 0x100 then
    (if op ≤ 0x08D then decodeFB1 (FB.ofWord w)
     else if isFI1 op then decodeFI1 (FI.ofWord w) else decodeFR1 (FR.ofWord w))
  else if op < 0x200 then decodeFR2 (FR.ofWord w)
  else if op < 0x280 then
    (if op = 0x20F then decodeFI3 (FI.ofWord w) else decodeFM3 (FM.ofWord w))
  else if op < 0x2C0 then
    (if op = 0x283 || op = 0x284 || op = 0x285 then decodeFM4 (FM.ofWord w) else decodeFR4 (FR.ofWord w))
  else decodeFR5 (FR.ofWord w)

/-- A shift count 0 to 63 in IMM14 (R239). -/
def shift14 (imm : BitVec 14) : Option (BitVec 6) := if imm.toNat < 64 then some (imm.setWidth 6) else none

/-- The fields of a half whose opcode is known (R239): none where an unused field is not zero or a number is out of
range. -/
def decodeHalf (f : HF) : Option Half :=
  match f.op.toNat with
  | 0x00 => req (f.d == 0 && f.a == 0 && f.imm == 0) (.nop)
  | 0x01 => req (f.imm == 0) (.mov f.d f.a)
  | 0x02 => req (f.imm == 0) (.add f.d f.a)
  | 0x03 => req (f.imm == 0) (.sub f.d f.a)
  | 0x04 => req (f.imm == 0) (.and f.d f.a)
  | 0x05 => req (f.imm == 0) (.or f.d f.a)
  | 0x06 => req (f.imm == 0) (.xor f.d f.a)
  | 0x07 => req (f.imm == 0) (.shl f.d f.a)
  | 0x08 => req (f.imm == 0) (.shr f.d f.a)
  | 0x09 => req (f.imm == 0) (.sra f.d f.a)
  | 0x0A => req (true) (.addi f.d f.a f.imm)
  | 0x0B => req (true) (.andi f.d f.a f.imm)
  | 0x0C => do let n ← shift14 f.imm; some (.shli f.d f.a n)
  | 0x0D => do let n ← shift14 f.imm; some (.shri f.d f.a n)
  | 0x0E => do let n ← shift14 f.imm; some (.srai f.d f.a n)
  | 0x0F => req (true) (.slti f.d f.a f.imm)
  | 0x10 => req (f.a == 0) (.movi f.d f.imm)
  | 0x11 => req (true) (.ldD f.d f.a f.imm)
  | 0x12 => req (true) (.ldW f.d f.a f.imm)
  | 0x13 => req (true) (.stD f.d f.a f.imm)
  | 0x14 => req (true) (.stW f.d f.a f.imm)
  | 0x15 => req (f.d == 0) (.bz f.a f.imm)
  | 0x16 => req (f.d == 0) (.bnz f.a f.imm)
  | 0x17 => do let q ← feedQ f.d; req (f.imm == 0) (.qpush q f.a)
  | 0x18 => do let q ← low2 f.a; req (f.imm == 0) (.qpop f.d q)
  | _ => none

/-- A pair word (R238, R242): ILLOP of either half, then bit 62 and the fields, then the pairing rules. -/
def decodePair (w : Word) : Except DecodeFault Instr :=
  let f0 := HF.ofBits (w.extractLsb' 31 31)
  let f1 := HF.ofBits (w.extractLsb' 0 31)
  if 0x18 < f0.op.toNat || 0x18 < f1.op.toNat then .error .illop
  else if w.getLsbD 62 then .error .resfield
  else match decodeHalf f0, decodeHalf f1 with
    | some h0, some h1 =>
      if pairOk h0 h1 then
        (match Instr.ofHalves h0 h1 with
         | some i => .ok i
         | none => .error .pair)
      else .error .pair
    | _, _ => .error .resfield

/-- A GETC, SETC or SETCI whose number names no register (R242 step 1, R254). -/
def cregUnknown (w : Word) : Bool :=
  let op := (w.extractLsb' 52 10).toNat
  (op == 0x091 || op == 0x092 || op == 0x093) && (CReg.ofNumber (w.extractLsb' 0 12)).isNone

/-- Steps 1 to 3 of R242: the instruction of a word, or the first of them that fails. -/
def decode (w : Word) : Except DecodeFault Instr :=
  if w.getLsbD 63 then decodePair w
  else if !opKnown (w.extractLsb' 52 10).toNat || cregUnknown w then .error .illop
  else match decodeFull w with
    | some i => .ok i
    | none => .error .resfield

/-! ### The encoder -/

/-- The bits of a half (R239). -/
def Half.bits : Half → BitVec 31
  | .nop => HF.toBits ⟨0x00, 0, 0, 0⟩
  | .mov d a => HF.toBits ⟨0x01, d, a, 0⟩
  | .add d a => HF.toBits ⟨0x02, d, a, 0⟩
  | .sub d a => HF.toBits ⟨0x03, d, a, 0⟩
  | .and d a => HF.toBits ⟨0x04, d, a, 0⟩
  | .or d a => HF.toBits ⟨0x05, d, a, 0⟩
  | .xor d a => HF.toBits ⟨0x06, d, a, 0⟩
  | .shl d a => HF.toBits ⟨0x07, d, a, 0⟩
  | .shr d a => HF.toBits ⟨0x08, d, a, 0⟩
  | .sra d a => HF.toBits ⟨0x09, d, a, 0⟩
  | .addi d a imm => HF.toBits ⟨0x0A, d, a, imm⟩
  | .andi d a imm => HF.toBits ⟨0x0B, d, a, imm⟩
  | .shli d a n => HF.toBits ⟨0x0C, d, a, n.setWidth 14⟩
  | .shri d a n => HF.toBits ⟨0x0D, d, a, n.setWidth 14⟩
  | .srai d a n => HF.toBits ⟨0x0E, d, a, n.setWidth 14⟩
  | .slti d a imm => HF.toBits ⟨0x0F, d, a, imm⟩
  | .movi d imm => HF.toBits ⟨0x10, d, 0, imm⟩
  | .ldD d a imm => HF.toBits ⟨0x11, d, a, imm⟩
  | .ldW d a imm => HF.toBits ⟨0x12, d, a, imm⟩
  | .stD d a imm => HF.toBits ⟨0x13, d, a, imm⟩
  | .stW d a imm => HF.toBits ⟨0x14, d, a, imm⟩
  | .bz a imm => HF.toBits ⟨0x15, 0, a, imm⟩
  | .bnz a imm => HF.toBits ⟨0x16, 0, a, imm⟩
  | .qpush q a => HF.toBits ⟨0x17, feed5 q, a, 0⟩
  | .qpop d q => HF.toBits ⟨0x18, d, up5 q, 0⟩

/-- The word of an instruction (spec 12): none for an event, and for a half that no slot holds. A term that is not
well-formed encodes to a word that decodes otherwise. -/
def encode (i : Instr) : Option Word :=
  match i with
  | .add t d a b => some (FR.toWord ⟨0, 0x000, d, a, b, 0, t.code, 0, 0, 0, 0⟩)
  | .sub t d a b => some (FR.toWord ⟨0, 0x001, d, a, b, 0, t.code, 0, 0, 0, 0⟩)
  | .mul t d a b => some (FR.toWord ⟨0, 0x002, d, a, b, 0, t.code, 0, 0, 0, 0⟩)
  | .mulh t d a b => some (FR.toWord ⟨0, 0x003, d, a, b, 0, t.code, 0, 0, 0, 0⟩)
  | .mulhn t d a b => some (FR.toWord ⟨0, 0x004, d, a, b, 0, t.code, 0, 0, 0, 0⟩)
  | .div t d a b => some (FR.toWord ⟨0, 0x005, d, a, b, 0, t.code, 0, 0, 0, 0⟩)
  | .divn t d a b => some (FR.toWord ⟨0, 0x006, d, a, b, 0, t.code, 0, 0, 0, 0⟩)
  | .rem t d a b => some (FR.toWord ⟨0, 0x007, d, a, b, 0, t.code, 0, 0, 0, 0⟩)
  | .remn t d a b => some (FR.toWord ⟨0, 0x008, d, a, b, 0, t.code, 0, 0, 0, 0⟩)
  | .and t d a b => some (FR.toWord ⟨0, 0x009, d, a, b, 0, t.code, 0, 0, 0, 0⟩)
  | .or t d a b => some (FR.toWord ⟨0, 0x00A, d, a, b, 0, t.code, 0, 0, 0, 0⟩)
  | .xor t d a b => some (FR.toWord ⟨0, 0x00B, d, a, b, 0, t.code, 0, 0, 0, 0⟩)
  | .andn t d a b => some (FR.toWord ⟨0, 0x00C, d, a, b, 0, t.code, 0, 0, 0, 0⟩)
  | .shl t d a b => some (FR.toWord ⟨0, 0x00D, d, a, b, 0, t.code, 0, 0, 0, 0⟩)
  | .shr t d a b => some (FR.toWord ⟨0, 0x00E, d, a, b, 0, t.code, 0, 0, 0, 0⟩)
  | .sra t d a b => some (FR.toWord ⟨0, 0x00F, d, a, b, 0, t.code, 0, 0, 0, 0⟩)
  | .rotr t d a b => some (FR.toWord ⟨0, 0x010, d, a, b, 0, t.code, 0, 0, 0, 0⟩)
  | .clz t d a => some (FR.toWord ⟨0, 0x011, d, a, 0, 0, t.code, 0, 0, 0, 0⟩)
  | .ctz t d a => some (FR.toWord ⟨0, 0x012, d, a, 0, 0, t.code, 0, 0, 0, 0⟩)
  | .popc t d a => some (FR.toWord ⟨0, 0x013, d, a, 0, 0, t.code, 0, 0, 0, 0⟩)
  | .min t d a b => some (FR.toWord ⟨0, 0x014, d, a, b, 0, t.code, 0, 0, 0, 0⟩)
  | .max t d a b => some (FR.toWord ⟨0, 0x015, d, a, b, 0, t.code, 0, 0, 0, 0⟩)
  | .minn t d a b => some (FR.toWord ⟨0, 0x016, d, a, b, 0, t.code, 0, 0, 0, 0⟩)
  | .maxn t d a b => some (FR.toWord ⟨0, 0x017, d, a, b, 0, t.code, 0, 0, 0, 0⟩)
  | .slt t d a b => some (FR.toWord ⟨0, 0x018, d, a, b, 0, t.code, 0, 0, 0, 0⟩)
  | .sltn t d a b => some (FR.toWord ⟨0, 0x019, d, a, b, 0, t.code, 0, 0, 0, 0⟩)
  | .seq t d a b => some (FR.toWord ⟨0, 0x01A, d, a, b, 0, t.code, 0, 0, 0, 0⟩)
  | .csel d a b => some (FR.toWord ⟨0, 0x01B, d, a, b, 0, 0, 0, 0, 0, 0⟩)
  | .addi t d a imm => some (FI.toWord ⟨0, 0x01C, d, a, 0, t.code, 0, imm⟩)
  | .andi t d a imm => some (FI.toWord ⟨0, 0x01D, d, a, 0, t.code, 0, imm⟩)
  | .ori t d a imm => some (FI.toWord ⟨0, 0x01E, d, a, 0, t.code, 0, imm⟩)
  | .xori t d a imm => some (FI.toWord ⟨0, 0x01F, d, a, 0, t.code, 0, imm⟩)
  | .shli t d a n => some (FI.toWord ⟨0, 0x020, d, a, 0, t.code, 0, n.setWidth 32⟩)
  | .shri t d a n => some (FI.toWord ⟨0, 0x021, d, a, 0, t.code, 0, n.setWidth 32⟩)
  | .srai t d a n => some (FI.toWord ⟨0, 0x022, d, a, 0, t.code, 0, n.setWidth 32⟩)
  | .slti t d a imm => some (FI.toWord ⟨0, 0x023, d, a, 0, t.code, 0, imm⟩)
  | .movi d imm => some (FI.toWord ⟨0, 0x024, d, 0, 0, 0, 0, imm⟩)
  | .movhi d imm => some (FI.toWord ⟨0, 0x025, d, 0, 0, 0, 0, imm⟩)
  | .fadd t rm d a b => some (FR.toWord ⟨0, 0x026, d, a, b, 0, t.code, rm.code, 0, 0, 0⟩)
  | .fsub t rm d a b => some (FR.toWord ⟨0, 0x027, d, a, b, 0, t.code, rm.code, 0, 0, 0⟩)
  | .fmul t rm d a b => some (FR.toWord ⟨0, 0x028, d, a, b, 0, t.code, rm.code, 0, 0, 0⟩)
  | .fdiv t rm d a b => some (FR.toWord ⟨0, 0x029, d, a, b, 0, t.code, rm.code, 0, 0, 0⟩)
  | .fsqrt t rm d a => some (FR.toWord ⟨0, 0x02A, d, a, 0, 0, t.code, rm.code, 0, 0, 0⟩)
  | .fma t rm d a b => some (FR.toWord ⟨0, 0x02B, d, a, b, 0, t.code, rm.code, 0, 0, 0⟩)
  | .fmin t d a b => some (FR.toWord ⟨0, 0x02C, d, a, b, 0, t.code, 0, 0, 0, 0⟩)
  | .fmax t d a b => some (FR.toWord ⟨0, 0x02D, d, a, b, 0, t.code, 0, 0, 0, 0⟩)
  | .fcmp t k d a b => some (FR.toWord ⟨0, 0x02E, d, a, b, 0, t.code, 0, 0, k.code, 0⟩)
  | .fcvt k rm d a => some (FR.toWord ⟨0, 0x02F, d, a, 0, 0, k.tCode, rm.code, k.osField, k.fnField, 0⟩)
  | .fclass t d a => some (FR.toWord ⟨0, 0x030, d, a, 0, 0, t.code, 0, 0, 0, 0⟩)
  | .beq a b disp => some (FB.toWord ⟨0, 0x080, 0, a, b, 0, disp⟩)
  | .bne a b disp => some (FB.toWord ⟨0, 0x081, 0, a, b, 0, disp⟩)
  | .blt a b disp => some (FB.toWord ⟨0, 0x082, 0, a, b, 0, disp⟩)
  | .bge a b disp => some (FB.toWord ⟨0, 0x083, 0, a, b, 0, disp⟩)
  | .bltn a b disp => some (FB.toWord ⟨0, 0x084, 0, a, b, 0, disp⟩)
  | .bgen a b disp => some (FB.toWord ⟨0, 0x085, 0, a, b, 0, disp⟩)
  | .j disp => some (FB.toWord ⟨0, 0x086, 0, 0, 0, 0, disp⟩)
  | .jal d disp => some (FB.toWord ⟨0, 0x087, d, 0, 0, 0, disp⟩)
  | .jr a => some (FB.toWord ⟨0, 0x088, 0, a, 0, 0, 0⟩)
  | .jalr d a => some (FB.toWord ⟨0, 0x089, d, a, 0, 0, 0⟩)
  | .loop lv a disp => some (FB.toWord ⟨0, 0x08A, lv.setWidth 5, a, 0, 0, disp⟩)
  | .loopi lv n disp => some (FB.toWord ⟨0, 0x08B, lv.setWidth 5, n.extractLsb' 10 5, n.extractLsb' 5 5, n.extractLsb' 0 5, disp⟩)
  | .bmz disp => some (FB.toWord ⟨0, 0x08C, 0, 0, 0, 0, disp⟩)
  | .bmnz disp => some (FB.toWord ⟨0, 0x08D, 0, 0, 0, 0, disp⟩)
  | .trap imm => some (FI.toWord ⟨0, 0x08E, 0, 0, 0, 0, 0, imm⟩)
  | .brk imm => some (FI.toWord ⟨0, 0x08F, 0, 0, 0, 0, 0, imm⟩)
  | .eret => some (FR.toWord ⟨0, 0x090, 0, 0, 0, 0, 0, 0, 0, 0, 0⟩)
  | .getc d r => some (FI.toWord ⟨0, 0x091, d, 0, 0, 0, 0, r.number.setWidth 32⟩)
  | .copyLaunch d ch => some (FI.toWord ⟨0, 0x091, d, 0, 0, 0, 0, (CReg.cpgo ch).number.setWidth 32⟩)
  | .setc r a => some (FI.toWord ⟨0, 0x092, 0, a, 0, 0, 0, r.number.setWidth 32⟩)
  | .setci r imm => some (FI.toWord ⟨0, 0x093, 0, 0, 0, 0, 0, imm ++ r.number⟩)
  | .deal d a => some (FR.toWord ⟨0, 0x094, d, a, 0, 0, 0, 0, 0, 0, 0⟩)
  | .exit => some (FR.toWord ⟨0, 0x095, 0, 0, 0, 0, 0, 0, 0, 0, 0⟩)
  | .yield => some (FR.toWord ⟨0, 0x096, 0, 0, 0, 0, 0, 0, 0, 0, 0⟩)
  | .cntinc a imm => some (FI.toWord ⟨0, 0x097, 0, a, 0, 0, 0, imm⟩)
  | .cntwait d a b => some (FR.toWord ⟨0, 0x098, d, a, b, 0, 0, 0, 0, 0, 0⟩)
  | .cancel lv a => some (FI.toWord ⟨0, 0x099, 0, a, 0, 0, 0, lv.code.setWidth 32⟩)
  | .qpush q a => some (FR.toWord ⟨0, 0x09A, feed5 q, a, 0, 0, 0, 0, 0, 0, 0⟩)
  | .qpop d q => some (FR.toWord ⟨0, 0x09B, d, up5 q, 0, 0, 0, 0, 0, 0, 0⟩)
  | .sptr d k a => some (FI.toWord ⟨0, 0x09C, d, a, 0, 0, 0, k.setWidth 32⟩)
  | .slotq d k => some (FI.toWord ⟨0, 0x09D, d, 0, 0, 0, 0, k.setWidth 32⟩)
  | .slotsync k => some (FI.toWord ⟨0, 0x09E, 0, 0, 0, 0, 0, k.setWidth 32⟩)
  | .slotset a b => some (FR.toWord ⟨0, 0x09F, 0, a, b, 0, 0, 0, 0, 0, 0⟩)
  | .slotinv a b => some (FR.toWord ⟨0, 0x0A0, 0, a, b, 0, 0, 0, 0, 0, 0⟩)
  | .incfence a => some (FR.toWord ⟨0, 0x0A1, 0, a, 0, 0, 0, 0, 0, 0, 0⟩)
  | .mark a => some (FR.toWord ⟨0, 0x0A2, 0, a, 0, 0, 0, 0, 0, 0, 0⟩)
  | .setvl t d a => some (FR.toWord ⟨0, 0x100, d, a, 0, 0, t.code, 0, 0, 0, 0⟩)
  | .msetvl t d a => some (FR.toWord ⟨0, 0x101, d, a, 0, 0, t.code, 0, 0, 0, 0⟩)
  | .vadd c mk t d a b => some (FR.toWord ⟨BitVec.ofBool c, 0x102, d, a.field, b, mk, t.code, 0, a.osel, 0, 0⟩)
  | .vsub c mk t d a b => some (FR.toWord ⟨BitVec.ofBool c, 0x103, d, a.field, b, mk, t.code, 0, a.osel, 0, 0⟩)
  | .vmul c mk t d a b => some (FR.toWord ⟨BitVec.ofBool c, 0x104, d, a.field, b, mk, t.code, 0, a.osel, 0, 0⟩)
  | .vmulh c mk t d a b => some (FR.toWord ⟨BitVec.ofBool c, 0x105, d, a.field, b, mk, t.code, 0, a.osel, 0, 0⟩)
  | .vmin c mk t d a b => some (FR.toWord ⟨BitVec.ofBool c, 0x106, d, a.field, b, mk, t.code, 0, a.osel, 0, 0⟩)
  | .vmax c mk t d a b => some (FR.toWord ⟨BitVec.ofBool c, 0x107, d, a.field, b, mk, t.code, 0, a.osel, 0, 0⟩)
  | .vand c mk t d a b => some (FR.toWord ⟨BitVec.ofBool c, 0x108, d, a.field, b, mk, t.code, 0, a.osel, 0, 0⟩)
  | .vor c mk t d a b => some (FR.toWord ⟨BitVec.ofBool c, 0x109, d, a.field, b, mk, t.code, 0, a.osel, 0, 0⟩)
  | .vxor c mk t d a b => some (FR.toWord ⟨BitVec.ofBool c, 0x10A, d, a.field, b, mk, t.code, 0, a.osel, 0, 0⟩)
  | .vshl c mk t d a b => some (FR.toWord ⟨BitVec.ofBool c, 0x10B, d, a.field, b, mk, t.code, 0, a.osel, 0, 0⟩)
  | .vshr c mk t d a b => some (FR.toWord ⟨BitVec.ofBool c, 0x10C, d, a.field, b, mk, t.code, 0, a.osel, 0, 0⟩)
  | .vsra c mk t d a b => some (FR.toWord ⟨BitVec.ofBool c, 0x10D, d, a.field, b, mk, t.code, 0, a.osel, 0, 0⟩)
  | .vsadd c mk t d a b => some (FR.toWord ⟨BitVec.ofBool c, 0x10E, d, a.field, b, mk, t.code, 0, a.osel, 0, 0⟩)
  | .vssub c mk t d a b => some (FR.toWord ⟨BitVec.ofBool c, 0x10F, d, a.field, b, mk, t.code, 0, a.osel, 0, 0⟩)
  | .vabs c mk t d a => some (FR.toWord ⟨BitVec.ofBool c, 0x110, d, a, 0, mk, t.code, 0, 0, 0, 0⟩)
  | .vfadd c mk t rm d a b => some (FR.toWord ⟨BitVec.ofBool c, 0x111, d, a.field, b, mk, t.code, rm.code, a.osel, 0, 0⟩)
  | .vfsub c mk t rm d a b => some (FR.toWord ⟨BitVec.ofBool c, 0x112, d, a.field, b, mk, t.code, rm.code, a.osel, 0, 0⟩)
  | .vfmul c mk t rm d a b => some (FR.toWord ⟨BitVec.ofBool c, 0x113, d, a.field, b, mk, t.code, rm.code, a.osel, 0, 0⟩)
  | .vfdiv c mk t rm d a b => some (FR.toWord ⟨BitVec.ofBool c, 0x114, d, a.field, b, mk, t.code, rm.code, a.osel, 0, 0⟩)
  | .vfsqrt c mk t rm d a => some (FR.toWord ⟨BitVec.ofBool c, 0x115, d, a, 0, mk, t.code, rm.code, 0, 0, 0⟩)
  | .vfma c mk t rm d a b => some (FR.toWord ⟨BitVec.ofBool c, 0x116, d, a.field, b, mk, t.code, rm.code, a.osel, 0, 0⟩)
  | .vfms c mk t rm d a b => some (FR.toWord ⟨BitVec.ofBool c, 0x117, d, a.field, b, mk, t.code, rm.code, a.osel, 0, 0⟩)
  | .vfnma c mk t rm d a b => some (FR.toWord ⟨BitVec.ofBool c, 0x118, d, a.field, b, mk, t.code, rm.code, a.osel, 0, 0⟩)
  | .vfmin c mk t d a b => some (FR.toWord ⟨BitVec.ofBool c, 0x119, d, a.field, b, mk, t.code, 0, a.osel, 0, 0⟩)
  | .vfmax c mk t d a b => some (FR.toWord ⟨BitVec.ofBool c, 0x11A, d, a.field, b, mk, t.code, 0, a.osel, 0, 0⟩)
  | .vfabs c mk t d a => some (FR.toWord ⟨BitVec.ofBool c, 0x11B, d, a, 0, mk, t.code, 0, 0, 0, 0⟩)
  | .vfneg c mk t d a => some (FR.toWord ⟨BitVec.ofBool c, 0x11C, d, a, 0, mk, t.code, 0, 0, 0, 0⟩)
  | .vfrsqe c mk t d a => some (FR.toWord ⟨BitVec.ofBool c, 0x11D, d, a, 0, mk, t.code, 0, 0, 0, 0⟩)
  | .vfrcpe c mk t d a => some (FR.toWord ⟨BitVec.ofBool c, 0x11E, d, a, 0, mk, t.code, 0, 0, 0, 0⟩)
  | .vfexp2 c mk t rm d a => some (FR.toWord ⟨BitVec.ofBool c, 0x11F, d, a, 0, mk, t.code, rm.code, 0, 0, 0⟩)
  | .vflog2 c mk t rm d a => some (FR.toWord ⟨BitVec.ofBool c, 0x120, d, a, 0, mk, t.code, rm.code, 0, 0, 0⟩)
  | .vcmp c mk t k md a b => some (FR.toWord ⟨BitVec.ofBool c, 0x121, up5 md, a.field, b, mk, t.code, 0, a.osel, k.code, 0⟩)
  | .vfcmp c mk t k md a b => some (FR.toWord ⟨BitVec.ofBool c, 0x122, up5 md, a.field, b, mk, t.code, 0, a.osel, k.code, 0⟩)
  | .vfclass c mk t d a => some (FR.toWord ⟨BitVec.ofBool c, 0x123, d, a, 0, mk, t.code, 0, 0, 0, 0⟩)
  | .mand c md ma mb => some (FR.toWord ⟨BitVec.ofBool c, 0x124, up5 md, up5 ma, up5 mb, 0, 0, 0, 0, 0, 0⟩)
  | .mor c md ma mb => some (FR.toWord ⟨BitVec.ofBool c, 0x125, up5 md, up5 ma, up5 mb, 0, 0, 0, 0, 0, 0⟩)
  | .mxor c md ma mb => some (FR.toWord ⟨BitVec.ofBool c, 0x126, up5 md, up5 ma, up5 mb, 0, 0, 0, 0, 0, 0⟩)
  | .mandn c md ma mb => some (FR.toWord ⟨BitVec.ofBool c, 0x127, up5 md, up5 ma, up5 mb, 0, 0, 0, 0, 0, 0⟩)
  | .mnot c md ma => some (FR.toWord ⟨BitVec.ofBool c, 0x128, up5 md, up5 ma, 0, 0, 0, 0, 0, 0, 0⟩)
  | .mmov c md ma => some (FR.toWord ⟨BitVec.ofBool c, 0x129, up5 md, up5 ma, 0, 0, 0, 0, 0, 0, 0⟩)
  | .mpopc c mk q ma => some (FR.toWord ⟨BitVec.ofBool c, 0x12A, up5 q, up5 ma, 0, mk, 0, 0, 3, 0, 0⟩)
  | .mfirst c mk q ma => some (FR.toWord ⟨BitVec.ofBool c, 0x12B, up5 q, up5 ma, 0, mk, 0, 0, 3, 0, 0⟩)
  | .mpush c ma => some (FR.toWord ⟨BitVec.ofBool c, 0x12C, 0, up5 ma, 0, 0, 0, 0, 0, 0, 0⟩)
  | .minv c => some (FR.toWord ⟨BitVec.ofBool c, 0x12D, 0, 0, 0, 0, 0, 0, 0, 0, 0⟩)
  | .mpop c => some (FR.toWord ⟨BitVec.ofBool c, 0x12E, 0, 0, 0, 0, 0, 0, 0, 0, 0⟩)
  | .mtop c md => some (FR.toWord ⟨BitVec.ofBool c, 0x12F, up5 md, 0, 0, 0, 0, 0, 0, 0, 0⟩)
  | .vcompress c mk t d a => some (FR.toWord ⟨BitVec.ofBool c, 0x130, d, a, 0, mk, t.code, 0, 0, 0, 0⟩)
  | .viota c mk t d => some (FR.toWord ⟨BitVec.ofBool c, 0x131, d, 0, 0, mk, t.code, 0, 0, 0, 0⟩)
  | .vperm c mk t d a b => some (FR.toWord ⟨BitVec.ofBool c, 0x132, d, a, b, mk, t.code, 0, 0, 0, 0⟩)
  | .vslideup c mk t d a b => some (FR.toWord ⟨BitVec.ofBool c, 0x133, d, a, b, mk, t.code, 0, 0, 0, 0⟩)
  | .vslidedn c mk t d a b => some (FR.toWord ⟨BitVec.ofBool c, 0x134, d, a, b, mk, t.code, 0, 0, 0, 0⟩)
  | .vbcast c mk t d a => some (FR.toWord ⟨BitVec.ofBool c, 0x135, d, a.field, 0, mk, t.code, 0, a.osel, 0, 0⟩)
  | .vextr c t q a b => some (FR.toWord ⟨BitVec.ofBool c, 0x136, up5 q, a, b, 0, t.code, 0, 3, 0, 0⟩)
  | .vins c t d a b => some (FR.toWord ⟨BitVec.ofBool c, 0x137, d, a.field, b, 0, t.code, 0, a.osel, 0, 0⟩)
  | .vmerge c mk t d a b => some (FR.toWord ⟨BitVec.ofBool c, 0x138, d, a, b, mk, t.code, 0, 0, 0, 0⟩)
  | .vredsum c mk t d a st => some (FR.toWord ⟨BitVec.ofBool c, 0x139, d.field, a, stvB st, mk, t.code, 0, d.osel, stvFn st, 0⟩)
  | .vredmin c mk t d a st => some (FR.toWord ⟨BitVec.ofBool c, 0x13A, d.field, a, stvB st, mk, t.code, 0, d.osel, stvFn st, 0⟩)
  | .vredmax c mk t d a st => some (FR.toWord ⟨BitVec.ofBool c, 0x13B, d.field, a, stvB st, mk, t.code, 0, d.osel, stvFn st, 0⟩)
  | .vfredsum c mk t rm d a st => some (FR.toWord ⟨BitVec.ofBool c, 0x13C, d.field, a, stvB st, mk, t.code, rm.code, d.osel, stvFn st, 0⟩)
  | .vfredmin c mk t d a st => some (FR.toWord ⟨BitVec.ofBool c, 0x13D, d.field, a, stvB st, mk, t.code, 0, d.osel, stvFn st, 0⟩)
  | .vfredmax c mk t d a st => some (FR.toWord ⟨BitVec.ofBool c, 0x13E, d.field, a, stvB st, mk, t.code, 0, d.osel, stvFn st, 0⟩)
  | .vcvt c mk t src d a => some (FR.toWord ⟨BitVec.ofBool c, 0x13F, d, a, 0, mk, t.code, 0, 0, 0#1 ++ src.code, 0⟩)
  | .vfcvt c mk k rm d a => some (FR.toWord ⟨BitVec.ofBool c, 0x140, d, a, 0, mk, k.tCode, rm.code, 0, k.fnField, 0⟩)
  | .vresenc c mk t d a => some (FR.toWord ⟨BitVec.ofBool c, 0x141, d, a, 0, mk, t.code, 0, 0, 0, 0⟩)
  | .vresdec c mk t d a => some (FR.toWord ⟨BitVec.ofBool c, 0x142, d, a, 0, mk, t.code, 0, 0, 0, 0⟩)
  | .vresmac c mk d a b => some (FR.toWord ⟨BitVec.ofBool c, 0x143, d, a, b, mk, 4, 0, 0, 0, 0⟩)
  | .vresadd c mk d a b => some (FR.toWord ⟨BitVec.ofBool c, 0x144, d, a, b, mk, 4, 0, 0, 0, 0⟩)
  | .vresmul c mk d a b => some (FR.toWord ⟨BitVec.ofBool c, 0x145, d, a, b, mk, 4, 0, 0, 0, 0⟩)
  | .vmov c mk t d a => some (FR.toWord ⟨BitVec.ofBool c, 0x146, d, a, 0, mk, t.code, 0, 0, 0, 0⟩)
  | .ld d m ch x => some (FM.toWord ⟨0, 0x200, d, m.a, 0, 0, x.tCode, 0, 0, m.sc, ch, m.sl, x.offField⟩)
  | .st d m ch x => some (FM.toWord ⟨0, 0x201, d, m.a, 0, 0, x.tCode, 0, 0, m.sc, ch, m.sl, x.offField⟩)
  | .ldacq t d m off => some (FM.toWord ⟨0, 0x202, d, m.a, 0, 0, t.code, 0, 0, m.sc, 1, m.sl, off⟩)
  | .strel t d m off => some (FM.toWord ⟨0, 0x203, d, m.a, 0, 0, t.code, 0, 0, m.sc, 2, m.sl, off⟩)
  | .amo op t ord d m off b => some (FM.toWord ⟨0, 0x204, d, m.a, b, 0, t.code, 0, 0, m.sc, ord, m.sl, op.code ++ off⟩)
  | .vld v d m ch x => some (FM.toWord ⟨BitVec.ofBool v.c, 0x205, d, m.a, 0, v.gov, x.tCode, BitVec.ofBool v.oe, BitVec.ofBool v.no, m.sc, ch, m.sl, x.offField⟩)
  | .vlds v d m ch x b => some (FM.toWord ⟨BitVec.ofBool v.c, 0x206, d, m.a, b, v.gov, x.tCode, BitVec.ofBool v.oe, BitVec.ofBool v.no, m.sc, ch, m.sl, x.offField⟩)
  | .vldx v d m ch x b => some (FM.toWord ⟨BitVec.ofBool v.c, 0x207, d, m.a, b, v.gov, x.tCode, BitVec.ofBool v.oe, BitVec.ofBool v.no, m.sc, ch, m.sl, x.offField⟩)
  | .vldff v d m ch x q => some (FM.toWord ⟨BitVec.ofBool v.c, 0x208, d, m.a, up5 q, v.gov, x.tCode, BitVec.ofBool v.oe, BitVec.ofBool v.no, m.sc, ch, m.sl, x.offField⟩)
  | .vldsc v d m ch off => some (FM.toWord ⟨BitVec.ofBool v.c, 0x209, d, m.a, 0, v.gov, 7, BitVec.ofBool v.oe, BitVec.ofBool v.no, m.sc, ch, m.sl, 0#2 ++ off⟩)
  | .vst v d m ch x => some (FM.toWord ⟨BitVec.ofBool v.c, 0x20A, d, m.a, 0, v.gov, x.tCode, BitVec.ofBool v.oe, BitVec.ofBool v.no, m.sc, ch, m.sl, x.offField⟩)
  | .vsts v d m ch x b => some (FM.toWord ⟨BitVec.ofBool v.c, 0x20B, d, m.a, b, v.gov, x.tCode, BitVec.ofBool v.oe, BitVec.ofBool v.no, m.sc, ch, m.sl, x.offField⟩)
  | .vstx v d m ch x b => some (FM.toWord ⟨BitVec.ofBool v.c, 0x20C, d, m.a, b, v.gov, x.tCode, BitVec.ofBool v.oe, BitVec.ofBool v.no, m.sc, ch, m.sl, x.offField⟩)
  | .vamo v op t ord d m off b => some (FM.toWord ⟨BitVec.ofBool v.c, 0x20D, d, m.a, b, v.gov, t.code, BitVec.ofBool v.oe, BitVec.ofBool v.no, m.sc, ord, m.sl, op.code ++ off⟩)
  | .zline m off => some (FM.toWord ⟨0, 0x20E, 0, m.a, 0, 0, 0, 0, 0, m.sc, 0, m.sl, off⟩)
  | .fence k sc => some (FI.toWord ⟨0, 0x20F, 0, 0, 0, 0, 0, fenceImm k sc⟩)
  | .waita t d m off b => some (FM.toWord ⟨0, 0x210, d, m.a, b, 0, t.code, 0, 0, m.sc, 0, m.sl, off⟩)
  | .pref m ch off => some (FM.toWord ⟨0, 0x211, 0, m.a, 0, 0, 0, 0, 0, m.sc, ch, m.sl, off⟩)
  | .mopa c mk k mc td a b => some (FR.toWord ⟨BitVec.ofBool c, 0x280, up5 td, a, b, mk, k.tCode, k.rmCode, 0, mc, 0⟩)
  | .mops c mk k mc td a b => some (FR.toWord ⟨BitVec.ofBool c, 0x281, up5 td, a, b, mk, k.tCode, k.rmCode, 0, mc, 0⟩)
  | .mzero c td => some (FR.toWord ⟨BitVec.ofBool c, 0x282, up5 td, 0, 0, 0, 0, 0, 0, 0, 0⟩)
  | .mldt v td m ch x b => some (FM.toWord ⟨BitVec.ofBool v.c, 0x283, up5 td, m.a, b, v.gov, x.tCode, BitVec.ofBool v.oe, BitVec.ofBool v.no, m.sc, ch, m.sl, x.offField⟩)
  | .mstt v td m ch x b => some (FM.toWord ⟨BitVec.ofBool v.c, 0x284, up5 td, m.a, b, v.gov, x.tCode, BitVec.ofBool v.oe, BitVec.ofBool v.no, m.sc, ch, m.sl, x.offField⟩)
  | .mmerge c mk t part td m off => some (FM.toWord ⟨BitVec.ofBool c, 0x285, up5 td, m.a, partB part, mk, t.code, partOe part, 0, m.sc, 0, m.sl, off⟩)
  | .mrow c d ta b => some (FR.toWord ⟨BitVec.ofBool c, 0x286, d, up5 ta, b, 0, 0, 0, 0, 0, 0⟩)
  | .mwrow c td a b => some (FR.toWord ⟨BitVec.ofBool c, 0x287, up5 td, a, b, 0, 0, 0, 0, 0, 0⟩)
  | .mfold c mk rm td ts a b => some (FR.toWord ⟨BitVec.ofBool c, 0x288, up5 td, a, b, mk, 0, rm.code, 0, 0#2 ++ ts, 0⟩)
  | .mcvt c mk t rm td ta src => some (FR.toWord ⟨BitVec.ofBool c, 0x289, up5 td, up5 ta, 0, mk, t.code, rm.code, 0, 0#1 ++ src.code, 0⟩)
  | .cpwait d a => some (FR.toWord ⟨0, 0x2C0, d, a, 0, 0, 0, 0, 0, 0, 0⟩)
  | .cpcancel a => some (FR.toWord ⟨0, 0x2C1, 0, a, 0, 0, 0, 0, 0, 0, 0⟩)
  | i => match i.halves with
    | some (h0, h1) => some (pairWord h0.bits h1.bits)
    | none => none

/-- A word of the opcode table's numbering: the table's bits are those of the 64-bit word, bits the row leaves out are
zero. -/
def decodeTableWord (_nbits w : Nat) : Option Instr :=
  match decode (BitVec.ofNat 64 w) with
  | .ok i => some i
  | .error _ => none

end Sys2Proof
end

