-- ==== Sys2Proof/Machine/Bits.lean ====
section
/-! DEFINITION. Bit fields, bytes and elements: the plain helpers over numbers and bit vectors. -/

namespace Sys2Proof.Machine

/-- Bits [hi:lo] of a number. -/
def field (x lo width : Nat) : Nat := (x >>> lo) % 2 ^ width

/-- `x` with bits [lo + width - 1 : lo] replaced by the low bits of `v`. -/
def setField (x lo width v : Nat) : Nat :=
  x - (field x lo width) * 2 ^ lo + (v % 2 ^ width) * 2 ^ lo

/-- A `w`-bit number read as signed. -/
def toSigned (w x : Nat) : Int :=
  let y := x % 2 ^ w
  if 2 * y < 2 ^ w then (y : Int) else (y : Int) - (2 ^ w : Nat)

/-- An integer reduced modulo 2^w. -/
def wrapNat (w : Nat) (x : Int) : Nat := (x % ((2 ^ w : Nat) : Int)).toNat

/-- A `w`-bit number sign-extended to 64 bits. -/
def sextWord (w x : Nat) : Word := BitVec.ofInt 64 (toSigned w x)

/-- Little-endian bytes of a number (the byte order of spec 12 for words, of every table for its fields). -/
def leBytes : Nat → Nat → List Byte
  | 0, _ => []
  | n + 1, v => BitVec.ofNat 8 v :: leBytes n (v / 256)

/-- The number of little-endian bytes. -/
def ofLe : List Byte → Nat
  | [] => 0
  | b :: l => b.toNat + 256 * ofLe l

/-- Element `e` of width `w` of a register (R91). -/
def elem {n : Nat} (w : Nat) (v : BitVec n) (e : Nat) : Nat := field v.toNat (w * e) w

/-- A register with element `e` of width `w` written. -/
def setElem {n : Nat} (w : Nat) (v : BitVec n) (e x : Nat) : BitVec n :=
  let m := BitVec.ofNat n ((2 ^ w - 1) * 2 ^ (w * e))
  (v &&& ~~~m) ||| BitVec.ofNat n ((x % 2 ^ w) * 2 ^ (w * e))

/-- A mask with bit `e` written. -/
def setBit {n : Nat} (m : BitVec n) (e : Nat) (b : Bool) : BitVec n :=
  if b then m ||| BitVec.ofNat n (2 ^ e) else m &&& ~~~BitVec.ofNat n (2 ^ e)

/-- A mask written at a list of indices. -/
def setBits {n : Nat} (m : BitVec n) (l : List (Nat × Bool)) : BitVec n :=
  l.foldl (fun m x => setBit m x.1 x.2) m

/-- A register written at a list of elements, in order. -/
def setElems {n : Nat} (w : Nat) (v : BitVec n) (l : List (Nat × Nat)) : BitVec n :=
  l.foldl (fun v x => setElem w v x.1 x.2) v

/-- The number of set bits below `k`. -/
def popBelow {n : Nat} (m : BitVec n) (k : Nat) : Nat :=
  (List.range k).foldl (fun c i => if m.getLsbD i then c + 1 else c) 0

/-- ceil(a / b). -/
def ceilDiv (a b : Nat) : Nat := (a + b - 1) / b

def isPow2 (n : Nat) : Bool := n != 0 && n &&& (n - 1) == 0

end Sys2Proof.Machine
end

