-- ==== Sys2Proof/Machine/State.lean ====
section
/-! DEFINITION. The state of the device: one record that holds every register, table, queue and memory the spec gives it,
as plain data, and its value right after reset. -/

namespace Sys2Proof.Machine

/-! ### Traps -/

/-- The causes of R166, by name; `none` is code 0, no cause. -/
inductive Cause where
  | none | illop | resfield | pair | convoy | badtarget | priv
  | fpinv | fpdz | fpovf | fpunf | fpinx
  | mstk | qdead | loopnest
  | bounds | perm | slotabsent | slotbad | leaserevoked | poison | targetrefuse | thermal | align
  | asyncfault | brk | trap | step | watch
  deriving DecidableEq, Repr

/-- What a stop reports (R166, R167, R173): the cause, TINFO, the precise point, WORD and IXR, the lowest faulting element
and the GEN of the descriptor used; RSTOP of R175 says that the convoy at `pc` resumes from ESV0-ESV7. -/
structure Stop where
  cause : Cause
  info  : Word
  pc    : Word
  word  : Nat
  ixr   : Bool
  rstop : Bool
  elem  : Nat
  gen   : BitVec 16
  deriving DecidableEq, Repr

/-! ### Registers of the chanter -/

/-- The shadow registers of a copy channel (R348). -/
structure Channel where
  src  : Word
  dst  : Word
  len  : Word
  str  : Word
  ctl  : Word
  flag : Word
  deriving DecidableEq, Repr

/-- The loop state of R273: active flags, which level was opened later, bounds. -/
structure Loops where
  act0  : Bool
  act1  : Bool
  later : Bool      -- level 1 was opened after level 0
  s0    : Word
  e0    : Word
  s1    : Word
  e1    : Word
  deriving DecidableEq, Repr

/-- The registers a rollback restores (R88): scalar registers, PC, VL, MVL, FPCTL and the other chanter control
registers, the loop state. PC is kept in 64 bits, so that a target outside slot 0 faults at its fetch (R271). -/
structure Chanter where
  pc     : Word
  s      : Vector Word 32
  vl     : Nat
  mvl    : Nat
  fpctl  : BitVec 32
  tvec   : Word
  tcause : BitVec 32
  tpc    : BitVec 48
  tinfo  : Word
  tsave  : Word
  esv    : Vector Word 8
  stripn : Word
  lc0    : BitVec 32
  lc1    : BitVec 32
  wtimeo : BitVec 32
  qtimeo : BitVec 32
  trctl  : BitVec 32
  chan   : Vector Channel 4
  cpnext : BitVec 16
  loops  : Loops
  deriving DecidableEq, Repr

/-! ### Vector and matrix words as they wait in the vector queue -/

/-- The integer operations of R301. -/
inductive IntOp where
  | add | sub | mul | mulh | min | max | and | or | xor | shl | shr | sra | sadd | ssub
  deriving DecidableEq, Repr

/-- The binary and ternary floating-point operations of R302. -/
inductive FpOp where
  | add | sub | mul | div | fma | fms | fnma | min | max
  deriving DecidableEq, Repr

/-- The unary floating-point operations of R302. -/
inductive FpUn where
  | sqrt | abs | neg | rsqe | rcpe | exp2 | log2
  deriving DecidableEq, Repr

/-- The mask logic of R305. -/
inductive MaskOp where
  | and | or | xor | andn | not | mov
  deriving DecidableEq, Repr

/-- The reductions of R310. -/
inductive RedOp where
  | sum | min | max
  deriving DecidableEq, Repr

/-- The residue operations of R313. -/
inductive ResOp where
  | mac | add | mul
  deriving DecidableEq, Repr

/-- How the elements of a vector access take their offsets (R317). -/
inductive VMode where
  | unit | stride | index (vb : VReg)
  deriving DecidableEq, Repr

/-- What a vector or matrix word does (spec 14, 15, 16), its scalar operands captured beside it. -/
inductive VOp where
  | setvl (w : WTy) (vl : Nat) | msetvl
  | int (k : IntOp) (t : VIntTy) (d : VReg) (a : Src) (b : VReg)
  | abs (t : VIntTy) (d a : VReg)
  | fp (k : FpOp) (t : FpTy) (rm : Rm) (d : VReg) (a : Src) (b : VReg)
  | fpUn (k : FpUn) (t : FpTy) (rm : Rm) (d a : VReg)
  | cmp (t : VIntTy) (k : Cond) (md : MReg) (a : Src) (b : VReg)
  | fcmp (t : FpTy) (k : Cond) (md : MReg) (a : Src) (b : VReg)
  | fclass (t : FpTy) (d a : VReg)
  | cvt (dst src : VIntTy) (d a : VReg)
  | fcvt (k : VCvt) (rm : Rm) (d a : VReg)
  | resenc (t : VIntTy) (d a : VReg) | resdec (t : VIntTy) (d a : VReg)
  | res (k : ResOp) (d a b : VReg)
  | bcast (w : WTy) (d : VReg) (a : Src)
  | ins (w : WTy) (d : VReg) (a : Src)
  | merge (w : WTy) (d a b : VReg) | mov (w : WTy) (d a : VReg)
  | mlog (k : MaskOp) (md ma mb : MReg)
  | mpopc (q : QNum) (ma : MReg) | mfirst (q : QNum) (ma : MReg)
  | mpush (ma : MReg) | minv | mpop | mtop (md : MReg)
  | compress (w : WTy) (d a : VReg) | iota (w : WTy) (d : VReg) | perm (w : WTy) (d a b : VReg)
  | slideup (w : WTy) (d a : VReg) | slidedn (w : WTy) (d a : VReg) | extr (w : WTy) (q : QNum) (a : VReg)
  | red (k : RedOp) (t : VIntTy) (d : RedDst) (a : VReg) (st : Option VReg)
  | fred (k : RedOp) (t : FpTy) (rm : Rm) (d : RedDst) (a : VReg) (st : Option VReg)
  | ld (p : VMode) (v : VAcc) (d : VReg) (m : Addr) (ch : BitVec 2) (x : LdForm)
  | ldff (v : VAcc) (d : VReg) (m : Addr) (ch : BitVec 2) (x : LdForm) (q : QNum)
  | ldsc (v : VAcc) (d : VReg) (m : Addr) (ch : BitVec 2) (off : BitVec 14)
  | st (p : VMode) (v : VAcc) (d : VReg) (m : Addr) (ch : BitVec 2) (x : StForm)
  | amo (v : VAcc) (op : AmoOp) (t : AmoTy) (ord : BitVec 2) (d : VReg) (m : Addr) (off : BitVec 12) (b : VReg)
  | mopa (neg : Bool) (k : MopTy) (mc : MReg) (td : TReg) (a b : VReg)
  | mzero (td : TReg)
  | mldt (v : VAcc) (td : TReg) (m : Addr) (ch : BitVec 2) (x : TileLd)
  | mstt (v : VAcc) (td : TReg) (m : Addr) (ch : BitVec 2) (x : TileSt)
  | mmerge (t : MergeTy) (ord : Bool) (td : TReg) (m : Addr) (off : BitVec 16)
  | mrow (d : VReg) (ta : TReg) | mwrow (td : TReg) (a : VReg)
  | mfold (rm : Rm) (td ts : TReg) (a b : VReg)
  | mcvt (dst : MatTy) (rm : Rm) (src : MergeTy) (td ta : TReg)
  deriving DecidableEq, Repr

/-- A word of a convoy with what its push captured (R85): the registers A and B, and the word itself for TINFO. -/
structure VWord where
  op   : VOp
  gov  : MReg
  sA   : Word
  sB   : Word
  word : Word
  deriving DecidableEq, Repr

/-- How a stopped convoy runs again (R170, R171): the restart index of each cluster under GRANT; with IXR only the word
`word` runs; `sup` is the cause and the element that it reported, none after a squash: in the cluster of that element the group at
its restart index completes before the convoy stops again (R99), with traps suppressed after a trap. -/
structure Restart where
  ridx  : Vector Nat 8
  grant : BitVec 32
  ixr   : Bool
  word  : Nat
  sup   : Option (Cause × Nat)
  deriving DecidableEq, Repr

/-- An entry of a queue register with the program order of the word that pushed it (R88, R94). -/
structure QEntry where
  val : Word
  seq : Nat
  deriving DecidableEq, Repr

/-- A convoy with what it captured (R85, R89), whether it has started (R87), and the queue entries it took. -/
structure Convoy where
  pc      : Word
  words   : List VWord
  vl      : Nat
  mvl     : Nat
  fpctl   : BitVec 32
  restart : Option Restart
  started : Bool
  took    : List (QNum × QEntry)
  skip    : Bool                  -- it passes the breakpoint at its head (R210)
  deriving DecidableEq, Repr

/-- The captured lengths and FPCTL of a convoy that stopped (R170). -/
structure Cap where
  pc    : Word
  vl    : Nat
  mvl   : Nat
  fpctl : BitVec 32
  deriving DecidableEq, Repr

/-- A scalar memory operand after R317: the slot (none where the tag is 255 or SL names none), whether bits [55:48] of
the pointer were zero, the byte offset, or the element offset for T = 7. -/
structure Ref where
  slot  : Nat
  tagOk : Bool
  off   : Int
  deriving DecidableEq, Repr

/-- A held operation that waits in the run-ahead buffer (R87). `word` is one whose effect or result younger words can depend on
(AMO, CNTWAIT, DEAL, WAITA, CPWAIT, FENCE, YIELD, a copy launch), with the registers it will write, whether younger loads stay
behind it, and the access it makes: once everything older has cleared the chanter comes back to it. -/
inductive Held where
  | word (dst : List SReg) (orders : Bool) (foot : Option (Ref × Nat))
  | store (r : Ref) (n : Nat) (fmt : Bool) (val : Word) (ch sc : BitVec 2) (rel : Bool)
  | zline (r : Ref) (sc : BitVec 2)
  | cntinc (i : BitVec 16) (inc : BitVec 32)
  | cancel (lv : Level) (a : Word)
  | cpcancel (id : BitVec 16)
  deriving DecidableEq, Repr

/-- What waits behind the chanter in program order: a convoy of the vector queue, or a held operation (R85, R87). -/
inductive PendItem where
  | convoy (c : Convoy)
  | held (pc : Word) (h : Held) (word : Word)
  deriving DecidableEq, Repr

/-- One pending item: its place in program order and the chanter's registers before it (R88). -/
structure Pend where
  seq  : Nat
  snap : Chanter
  item : PendItem
  deriving DecidableEq, Repr

/-! ### Strands -/

/-- A store of the open strip by a vector word, newest first in `Strand.older`: where it wrote, the bytes from before it and
those it left, and its OE. A vector access of the same strip is not ordered with it unless both have OE = 1 (R141 row 1x);
`low` says whether a later store may still fall below it in coherence order (R143). Of its bytes, by place from its first, `read`
are those that a load has read from it or from a later write, `ordered` those that a load with OE = 1 has so read, `seen` those
behind which no later access can fall: an access that is ordered before it has read or written them (R147). `rel` says that a
release has followed it. -/
structure Older where
  key  : Nat
  old  : List Byte
  new  : List Byte
  id   : Nat
  oe   : Bool
  low  : Bool
  read : List Nat
  ordered : List Nat
  seen : List Nat
  rel  : Bool
  deriving DecidableEq, Repr

/-- Where an access that passes its checks goes. -/
inductive Loc where
  | mem (a : Nat)        -- a physical address
  | share (off : Nat)    -- the strand's share, slot 254
  | cushare (off : Nat)  -- the CU share, slot 253
  | peer (i a : Nat)     -- address a of the lender of borrower entry i
  deriving DecidableEq, Repr

/-- A cached descriptor: the four 8-byte words of R103, and whether its read met poison. -/
structure Desc where
  slot : Nat
  w0   : Word
  w1   : Word
  w2   : Word
  w3   : Word
  bad  : Bool
  deriving DecidableEq, Repr

/-- CPDONE of a channel without OUT (R348). -/
structure CpDone where
  cause  : BitVec 8
  can    : Bool
  err    : Bool
  done   : Bool
  lastId : BitVec 16
  deriving DecidableEq, Repr

/-- A register-copy resume record (R178). -/
structure CopyRec where
  vstart : Nat
  vreg   : VReg
  id     : BitVec 16
  chan   : Channel
  deriving DecidableEq, Repr

/-- An entry of the mask stack (R307). -/
structure MaskEntry where
  active : MaskReg
  parent : MaskReg
  deriving DecidableEq, Repr

/-- Where a strand stands (R92, R167, R174, R281): no strand; taking words; parked on a fault record; stopped for the
debugger; past EXIT or a cancel, waiting to end. -/
inductive Status where
  | empty | running | parked | debug | ending
  deriving DecidableEq, Repr

/-- What a running strand waits for. `pull` is a word that is tried again: older convoys, an empty or full queue, a full
buffer. The others are the waits of CNTWAIT, WAITA, CPWAIT, DEAL, a replay queue, the lane FIFO and SLOTINV. -/
inductive Wait where
  | none | convoys | queuePop (q : QNum) | queuePush (q : QNum) | buffer
  | counter | address | copy | copyId (id : BitVec 16) | deal | replay | lanes | slotinv | incfence | fence | channel | line
  deriving DecidableEq, Repr

/-- The strip account of R93 and R212: the device-wide count at the SETVL the vector unit reached last, the busy counts,
the width and length of the strip, and whether its end has closed it (R281). -/
structure Strip where
  opened : Nat
  ab     : BitVec 32
  mb     : BitVec 32
  w      : BitVec 2
  vl     : Nat
  closed : Bool
  deriving DecidableEq, Repr

/-- What a WAITA or CNTWAIT that has begun waits for: its bytes to differ from a value, or a counter to reach a threshold
(R284, R333). -/
inductive Watch where
  | address (l : Loc) (t : AmoTy) (cmp : Word)
  | counter (i : Nat) (thr : BitVec 32)
  deriving DecidableEq, Repr

/-- One strand with all its registers. -/
structure Strand where
  status   : Status
  muted    : Bool            -- squashed and not yet resumed (R177)
  saved    : Bool            -- its eager state and share stand in its image (R176)
  ch       : Chanter
  v        : Vector VecReg 32
  m        : Vector MaskReg 16     -- m1 to m14; 0 and 15 are not storage
  stack    : List MaskEntry        -- newest first
  t        : Vector Tile 4
  fpflg    : BitVec 32
  mflg     : BitVec 32
  fromVec  : Vector (List QEntry) 4    -- q0 to q3, oldest first
  toVec    : Vector (List QEntry) 4    -- q4 to q7, oldest first
  skip     : Vector Nat 4              -- SKIP of q4 to q7 (R88)
  done     : Vector CpDone 4
  pend     : List Pend                 -- vector queue and run-ahead buffer, oldest first
  forming  : List VWord                -- the convoy the chanter is forming
  formPc   : Word                      -- its head
  formSnap : Chanter                   -- the chanter's registers before its head
  seq      : Nat                       -- program order of the next word taken
  early    : List (QNum × Nat)         -- pushes whose entries a completed older convoy took: queue, program order (R88)
  pops     : List (QNum × Nat × QEntry)  -- entries taken by QPOP while convoys wait
  ahead    : Bool                      -- the vector stream waits for turns of its own
  resume   : Option Stop               -- a pending resume of ERET, FQRES or a restore (R168, R173, R175)
  cap      : Option Cap                -- what the convoy that stopped last had captured (R170)
  keep     : Option Stop               -- the stop kept by a park (R167, R175)
  trap     : Option Stop               -- a trap of a chanter word that is held (R87, R167)
  squashing : Option Nat               -- a squash waits for the oldest started convoy, since this count (R174)
  stepping : Bool                      -- DBGREL.STEP: one word, then STEP (R209)
  skipBrk  : Bool                      -- a resume passes the breakpoint it stands on (R210)
  wait     : Wait
  since    : Nat                       -- device-wide count at which the wait began
  vwait    : Option (Nat × BitVec 32)  -- count at which the vector unit was blocked on a queue, and QTIMEO then (R95, R279)
  armed    : Bool                      -- a wait that had begun when the strand was squashed; `since` then holds how long it has lasted (R152, R333)
  woken    : Option (Word × Word)      -- the PC of a wait that has ended and the value it gives (R333)
  begun    : Option (Word × Word)      -- the PC and the word that the chanter fetched last (log entry 108)
  watching : Option Watch              -- what the WAITA or CNTWAIT that has begun watches (R333)
  amo      : Option (SReg × AmoTy)     -- a chanter atomic that the lender has not answered: its result (R177)
  cancelled : Option Level             -- a cancel covers the strand (R64)
  emptied  : Bool                      -- a DEAL of it was answered empty (R66)
  dcache   : List Desc                 -- descriptor cache (R109)
  share    : List Host.Cell            -- slot 254 (R119)
  older    : List Older                -- vector stores of the open strip (R141)
  async    : List Word                 -- asynchronous fault queue: TINFO of each record (R180)
  asyncOvf : Bool
  copyRecs : Vector (Option CopyRec) 4
  absent   : List Nat                  -- register lines not cached by the CU: v 8n + k, tiles 256 + 64n + i (R98)
  strip    : Strip
  grant    : BitVec 32                 -- LANES (R70)
  short    : Bool                      -- its latest renegotiation computed one group (R70)
  -- identity (R62, R175)
  vd       : Nat
  ctx      : Nat
  incn     : Nat
  strandid : Nat
  launchid : BitVec 32
  launch   : Nat                       -- the launch it belongs to
  imgidx   : Nat
  cuidx    : Option Nat                -- CU index of its CU share (R375)
  priv     : Bool                      -- its device's bit of PRIVVD at its start (R262)
  dbgctl   : BitVec 32
  slottb   : BitVec 48
  cntbase  : BitVec 16
  cntn     : Nat
  strshare : Nat                       -- KiB
  cushare  : Nat                       -- KiB
  prio     : Nat
  deriving DecidableEq, Repr

/-! ### Compute units (spec 04, 06, 08) -/

/-- A line of a write-combining buffer (R120): written bytes by enable mask, whose stores they are, when the first
was written, and the cache policy of the latest store (R121). -/
structure WLine where
  line : Nat
  mask : BitVec 128
  data : BitVec 1024
  vd   : Nat
  ctx  : Nat
  incn : Nat
  born : Nat
  cp   : Nat
  deriving DecidableEq, Repr

/-- A line of an L1 with its presence mask, one bit for each strand slot (R120). -/
structure L1Line where
  line : Nat
  data : BitVec 1024
  pres : BitVec 8
  deriving DecidableEq, Repr

/-- The CU share of a launch on a CU (R119, R375): its SRAM bytes while resident. -/
structure CuShare where
  launch   : Nat
  vd       : Nat
  idx      : Nat
  kib      : Nat
  bytes    : List Host.Cell
  resident : Bool
  deriving DecidableEq, Repr

/-- An entry of a diversion table (R177): its key and the image address its landings go to. -/
structure Divert where
  ctx  : Nat
  incn : Nat
  chan : Nat
  addr : Nat
  deriving DecidableEq, Repr

/-- A compute unit: the split of its SRAM (R118), the lane allocation table and lane FIFO (R70, R71) by strand slot, the
write-combining buffer and L1 (R120), CU shares, the diversion table. -/
structure Cu where
  split  : Option Nat
  lanes  : Vector (Option Nat) 32
  fifo   : List Nat
  wcb    : List WLine
  l1     : List L1Line
  shares : List CuShare
  divert : List Divert
  deriving DecidableEq, Repr

/-- A tag of the L2 (R79, R123, R124): its line, way, whose allocation it is, the zero flag, whether the line differs from
memory, the poison tag. The list of tags runs from most to least recently used. -/
structure L2Tag where
  line   : Nat
  way    : Nat
  vd     : Nat
  zero   : Bool
  dirty  : Bool
  poison : Bool
  deriving DecidableEq, Repr

/-- What a request asks of its target: the bytes of a range; to write the bytes that a mask enables; an atomic operation with
its operand and compare value (R29). -/
inductive MemOp where
  | read (n : Nat)
  | write (bytes : List Byte) (en : Nat)
  | atomic (op : AmoOp) (t : AmoTy) (y c : Nat)
  deriving DecidableEq, Repr

/-- A request from outside the compute units: its master (72 a peer, 73 a root port, 255 an application core), the port it came
by, its address, and the EP bit of a write (R15, R29, R131). -/
structure InReq where
  m    : Nat
  port : Nat
  addr : Nat
  op   : MemOp
  ep   : Bool
  lease : Option (Nat × Nat)   -- LIDX and LGEN of an access through a lease (R134)
  deriving DecidableEq, Repr

/-- Who waits for a request: the chanter of a strand at its word of a program order; a strand's oldest pending item; a transfer; a
migration engine; another master of the device; a request from outside. -/
inductive Asker where
  | chanter (seq : Nat) | pending (seq : Nat) | xfer (key : Nat) | mig (d : Nat) | agent (m : Nat) | inbound (r : InReq)
  deriving DecidableEq, Repr

/-- A requester with its tag: the strand by its device and image index, its context and incarnation (R181). -/
structure Who where
  ask    : Asker
  vd     : Nat
  ctx    : Nat
  incn   : Nat
  imgidx : Nat
  deriving DecidableEq, Repr

/-- Why a request waits in a replay queue (R113). -/
inductive WaitWhy where
  | moving | revoking | critical
  deriving DecidableEq, Repr

/-- A request in a replay queue (R113), in arrival order: the line it would address, its requester, the lease it goes through,
the slot and GEN it used, when it arrived, and whether it has been released. -/
structure Waiting where
  line  : Nat
  why   : WaitWhy
  who   : Who
  lease : Nat
  slot  : Nat
  gen   : BitVec 16
  off   : Int          -- byte offset in the slot, for TINFO
  since : Nat
  wr    : Bool         -- it writes
  go    : Bool         -- released: it goes when no older released request of its slice waits
  word  : Nat          -- its word in the convoy and its element
  elem  : Nat
  deriving DecidableEq, Repr

/-- The arithmetic of a merge (R125). -/
inductive MergeKind where
  | f32 | f64 | res
  deriving DecidableEq, Repr

/-- One part of an ordered merge (R125). -/
structure Part where
  p    : Nat
  kind : MergeKind
  mask : BitVec 128
  data : BitVec 1024
  deriving DecidableEq, Repr

/-- An open entry of a merge buffer (R125, R126), and parts that wait for the next group. -/
structure Merge where
  ctx   : Nat
  incn  : Nat
  vd    : Nat
  line  : Nat
  n     : Nat
  parts : List Part
  born  : Nat
  deriving DecidableEq, Repr

/-- Where a part is that its slice has not taken: on its way, in the replay queue, or held at its requester because that queue
is full (R113, R125). -/
inductive PartAt where
  | way | queue | requester
  deriving DecidableEq, Repr

/-- A part that its slice has not taken (R125): its tag, the line with the slot and offset that gave it, its n (0 for an unordered
merge), and its strand with the strip it was sent in (R220). -/
structure PartWait where
  ctx    : Nat
  incn   : Nat
  vd     : Nat
  line   : Nat
  slot   : Nat
  off    : Int
  slottb : Nat
  n      : Nat
  imgidx : Nat
  strandid : Nat
  stripn : Word
  at'    : PartAt
  part   : Part
  deriving DecidableEq, Repr

/-- A transfer of the bellows (R349 to R352): what the launch latched, how far its payload has been issued and landed, how
many chunks have been announced, its end. -/
structure Xfer where
  key     : Nat          -- its launch among all
  vd      : Nat
  launch  : Nat          -- the launch of its strand
  ctx     : Nat
  incn    : Nat
  imgidx  : Nat          -- issuing strand
  cu      : Nat
  slot    : Nat          -- strand slot on the CU
  chan    : Nat
  id      : BitVec 16
  regs    : Channel
  pos     : Nat          -- payload bytes landed
  chunks  : Nat          -- chunks whose bits are set
  cancel  : Bool
  err     : Cause        -- `none` while no fault has ended it
  info    : Word
  cut     : Bool         -- cut back by a squash (R178)
  tainted : List Nat     -- destination lines that took poison from it (R15)
  before  : List (Nat × Byte)  -- source bytes it has overwritten, by place, as they were before it (R350)
  orphan  : Bool         -- its strand has ended (R281)
  slottb  : BitVec 48
  strshare : Nat
  cushare : Nat
  cuidx   : Option Nat   -- CU index of its strand's CU share (R375)
  deriving DecidableEq, Repr

/-- A range whose bytes the spec leaves unspecified (R128), with the free value that stands for them. -/
structure Fog where
  lo : Nat
  hi : Nat
  n  : Nat
  deriving DecidableEq, Repr

/-- A root port with its lanes (R24). -/
structure Root where
  num   : Nat
  lanes : Nat
  deriving DecidableEq, Repr

/-! ### Fault queues and trace (spec 08, 10) -/

/-- A fault record (R173) of a device that is to be written or waits for room. -/
structure FaultRec where
  vd     : Nat
  cause  : Cause
  esc    : Bool
  ixr    : Bool
  async  : Bool
  ctx    : Nat
  incn   : Nat
  imgidx : Nat
  tpc    : Word
  tinfo  : Word
  elem   : Nat
  slot   : Nat
  word   : Nat
  gen    : BitVec 16
  deriving DecidableEq, Repr

/-- A sealed segment that storage has not taken (R217): its SEQ, its slot of the ring, whether it has been sent. -/
structure Segment where
  seq  : Nat
  slot : Nat
  sent : Bool
  deriving DecidableEq, Repr

/-- The trace writer (R215 to R217): the records that the CUs buffer, by CU, in the order in which they were emitted; the open
segment with the count at its first record, the next SEQ, the sealed segments, oldest first; whether FLUSH has asked for a seal. -/
structure Trace where
  bufs  : List (Nat × BitVec 256)
  cur   : List (BitVec 256)
  start : Nat
  seq   : Nat
  segs  : List Segment
  flush : Bool
  deriving DecidableEq, Repr

/-! ### The dealer (spec 03, 04) -/

/-- A completion counter (R63). -/
structure Counter where
  val : BitVec 32
  can : Bool
  deriving DecidableEq, Repr

/-- The fields of a job card (R61). -/
structure Card where
  ignCan   : Bool
  ctx      : Nat
  split    : Nat
  entry    : Nat
  slottb   : BitVec 48
  trip0    : Nat
  trip1    : BitVec 32
  trip2    : BitVec 32
  minch    : Nat
  gran     : Nat
  strands  : Nat
  vlhint   : BitVec 16
  strshare : Nat
  cushare  : Nat
  donecnt  : Nat
  doneinc  : Nat
  strcnt   : Nat
  graphcnt : Nat
  dep0     : Nat
  dep1     : Nat
  dep0thr  : BitVec 32
  dep1thr  : BitVec 32
  graph    : Nat
  args     : Vector Word 6
  deriving DecidableEq, Repr

/-- Where a launch stands (R58, R60, R63). -/
inductive LaunchState where
  | pending | eligible
  deriving DecidableEq, Repr

/-- A launch of a pending set (R60, R66): its take order, its queue, its context, its card, NXT, how many strands have
started, the widest level a cancel has named, whether the debugger holds it (R211). -/
structure Launch where
  key       : Nat
  vd        : Nat
  queue     : Nat
  prio      : Nat
  ctx       : Nat
  incn      : Nat
  card      : Card
  state     : LaunchState
  nxt       : Nat
  started   : Nat
  cancelled : Option Level
  held      : Bool
  endHold   : Bool           -- HOLDCH of the strand of it that ended last (R211)
  deriving DecidableEq, Repr

/-- A latched queue descriptor (R55). -/
structure QLatch where
  base : Nat
  size : Nat
  ctx  : Nat
  prio : Nat
  deriving DecidableEq, Repr

/-- A taken entry at the head of a queue that has not retired (R58). -/
structure Taken where
  kind  : Nat
  fin   : Bool
  cnt   : Nat
  val   : BitVec 32
  order : Nat
  ctx   : Nat        -- the queue's CTXID when it was taken
  deriving DecidableEq, Repr

/-- A queue as the dealer holds it (R55, R56): the latched copy, the tail last accepted, HEAD, the taken entry at the head,
and the accepted notifies with their order that made untaken entries visible. -/
structure Queue where
  latch : Option QLatch
  blind : Bool                        -- the last notify found the descriptor unreadable (R55)
  tail  : Option (BitVec 32)          -- none before the first notify
  head  : BitVec 32
  taken : Option Taken
  seen  : List (BitVec 32 × Nat)
  span  : Option (Bool × BitVec 32)   -- a cancelled span that a taken head holds up: phase, its end (R64)
  deriving DecidableEq, Repr

/-- Where the phase and the job of a context stand (R65): the job has ended and no entry has been taken since; a cancel has named
its open phase, or the job. -/
structure Levels where
  ended : Bool
  phase : Bool
  job   : Bool
  deriving DecidableEq, Repr

/-- A token bucket (R76): BAL, and what is left of the units lent to the pool. -/
structure Bucket where
  bal  : Nat
  lent : Nat
  rate : Nat      -- RATE as the latest refill took it (R78)
  deriving DecidableEq, Repr

/-- The latched array of a partition (R47, R128). -/
structure Window where
  base  : Nat
  list  : List Nat
  hmask : Nat
  deriving DecidableEq, Repr

/-- What the older-incarnation counter of a context holds beyond its outstanding requests (R183): the incarnation that was
current when it last left zero. -/
structure Drain where
  base : Nat
  used : Bool
  deriving DecidableEq, Repr

/-- A request for an attestation report (R43): the nonce and ATTDST as latched. -/
structure AttReq where
  nonce : List Byte
  dst   : Nat
  deriving DecidableEq, Repr

/-- What an order log records of an event (R220): of an atomic and of a merge its line and its position among those of the line
since the last checkpoint. -/
inductive LogData where
  | atomic (line pos : Nat) | wake (v : Word) | deal (lo hi : Nat) | copy (id : BitVec 16) | merge (line pos : Nat)
  deriving DecidableEq, Repr

/-- An entry of an order log (R220). -/
structure LogEntry where
  strandid : Nat
  stripn   : Word
  data     : LogData
  deriving DecidableEq, Repr

/-- The checkpoints of a device (R219): the count at the last one, and the strands squashed for one in progress. -/
structure Ckpt where
  last : Nat
  held : List Nat
  deriving DecidableEq, Repr

/-- What bring-up found, for the capability list (R45): CUs enabled, slices on conservative timing, die links at half rate,
PCIe one rate lower. -/
structure Found where
  cus      : List Nat
  slow     : List Nat
  halfRate : Bool
  lowPcie  : Bool
  deriving DecidableEq, Repr

/-- The capability list as built (R45): stack mask, device memory size, CU enable masks by die, slow slices, die links at
half rate, UALink ports with their widths, root ports with their lanes and whether one rate lower, the BOOTSTEP bytes. -/
structure Caps where
  stackSet : BitVec 12
  size     : Nat
  cus      : List (BitVec 128)
  slow     : List Nat
  halfRate : Bool
  ports    : List (Nat × Nat)
  roots    : List (Nat × Nat)
  lowPcie  : Bool
  steps    : List Byte
  deriving DecidableEq, Repr

/-! ### The machine -/

/-- What the outside world presents with an event: lines of the device's ports that the event's docstring names. -/
structure Pins where
  port  : Nat
  addr  : Nat
  value : Nat
  count : Nat
  ok    : Bool
  bytes : List Byte
  deriving DecidableEq, Repr

/-- A request to a peer (R29, R134): its requester, the borrower entry it goes through with the PEER, LIDX and LGEN it carries,
and its address at the lender; `again` says that it has been issued a second time (R33), `acked` that its flits have been
acknowledged (R32). -/
structure PeerReq where
  who   : Who
  entry : Nat
  peer  : Nat
  lidx  : Nat
  lgen  : Nat
  addr  : Nat
  op    : MemOp
  again : Bool
  acked : Bool
  deriving DecidableEq, Repr

/-- How a request to a peer ends: with its data (none for a write), an error of the lender (R134), poison (R33, R136), or an
error of the port that went down (R33). -/
inductive PeerAns where
  | data (bytes : List Byte) | error | poison | down (port : Nat)
  deriving DecidableEq, Repr

/-- A request to a peer that has ended, for its requester to take. -/
structure Answer where
  who   : Who
  entry : Nat
  addr  : Nat
  op    : MemOp
  ans   : PeerAns
  deriving DecidableEq, Repr

/-- What the device sends to the outside world. -/
inductive Msg where
  | ualink (port : Nat) (r : PeerReq)         -- a request of a leased access on a UALink port (R29, R134)
  | faultIrq (vd : Nat)                       -- a device's fault interrupt (R173)
  | answer (bytes : List Byte)                -- the data of a read: to a core, a peer or a root port
  | done                                      -- a write or atomic of a peer or a root port is answered
  | dataError                                 -- a peer read met poison (R33)
  | errorResponse                             -- a UALink error response (R19, R31, R131, R134)
  | unsupported                               -- completed Unsupported Request (R25, R131)
  | staleNack                                 -- a read of an old incarnation (R182)
  | lease (kind lidx bidx lgen : Nat)         -- a lease message (R133)
  | setup (lidx bidx lgen : Nat)              -- a SETUP posted to the kernel (R133)
  | notice (lender : Bool) (i : Nat)          -- a lease notice to the kernel (R135)
  | power (stack : Nat)                       -- the power controller is notified (R17)
  | segment (qid root seq addr : Nat)         -- an NVMe write of a trace segment by a queue pair of a root port (R217)
  | forward (root : Nat) (a : Nat) (op : MemOp)   -- a request forwarded downstream of a root port (R11, R23)
  | mmio (a : Nat) (op : MemOp)               -- a request of a core to PCIe MMIO space (R11)
  | privTrap                                  -- an unprivileged access of a core traps PRIV (R4)
  | packageReset                              -- the package resets (R38, R40)
  deriving DecidableEq, Repr

/-- What moves next, as the timing and the outside world decide (log entry 1): strand `k` (0 the one in `me`) takes its
turn; an event occurs; the device-wide cycle count advances; the vector stream of strand `k` from now on waits for turns of
its own, or no longer does. -/
inductive Turn where
  | strand (k : Nat)
  | event (i : Instr) (p : Pins)
  | elapse (n : Nat)
  | ahead (k : Nat) (b : Bool)
  deriving DecidableEq, Repr

structure State where
  me     : Strand                 -- the strand whose turn it is
  others : List Strand
  agenda : List Turn
  pins   : Pins
  now    : Nat                    -- device-wide cycle count (R214)
  fresh  : Nat                    -- index of the next free value
  mem    : List Host.Cell         -- device and CXL memory, coherent at the home slices (R11, R121)
  poison : List Nat               -- lines whose bytes are poisoned in memory (R15)
  fog    : List Fog               -- newest first (R128)
  fogged : List Nat               -- bytes of such ranges that have been written since
  adie   : List (Nat × Word)      -- the A-die register space, by address (R11)
  cus    : List (Nat × Cu)        -- by 128 x die + CU
  l2     : List L2Tag
  replay : List Waiting
  merges : List Merge
  partq  : List PartWait
  xfers  : List Xfer              -- in launch order
  counters : List (Nat × Counter)
  launches : List Launch          -- in take order
  queues   : List (Nat × Queue)   -- by 256 x device + queue
  levels   : List (Nat × Levels)  -- by context
  order    : Nat                  -- take order of the next entry, notify or launch
  buckets  : List (Nat × Bucket)
  last     : List (Nat × Nat)     -- device granted last at an arbiter (R76)
  windows  : List (Nat × Option Window)   -- latched arrays by partition
  drains   : List (Nat × Drain)
  excluded : List Nat             -- stacks that bring-up excluded (R12)
  roots    : List Root            -- root ports with a CXL link (R24)
  out      : List Msg             -- what the device has sent to the outside world, newest first
  crit     : List Nat             -- stacks in the critical state (R17)
  posts    : List FaultRec        -- records that wait for room (R173), oldest first
  trace    : Trace
  asked  : List Nat               -- lines that the vector load word being performed has requested (R370)
  sendq  : List PeerReq           -- UALink requests that no port has sent, oldest first
  ports  : List (Nat × List PeerReq)   -- sent and not answered, by port: the replay buffers (R32)
  peerIn : List Answer            -- answers that their requesters have not taken
  borrowq : List Nat              -- borrower entries whose REVOKE waits for accesses already sent (R135)
  revoked : List (Nat × Nat)      -- lender entries that wait for DONE, with the count at REVOKE (R135)
  migs   : List (Nat × Nat)       -- bytes a running migration engine has copied (R114)
  boot   : Option (Nat × Nat)     -- the boot step that runs, and the count at its start (R36)
  halted : Bool                   -- bring-up has stopped with the package powered (R39)
  serial : BitVec 64              -- the serial number of the verified blob (R41)
  split  : BitVec 8               -- the root-port bifurcation of the verified blob (R23, R41)
  found  : Found
  caps   : Option Caps            -- the capability list (R44)
  measures : Vector (BitVec 512) 4   -- measurement registers (R42)
  attq   : List AttReq            -- waiting requests for reports, oldest first (R43)
  cntsel : List (Nat × BitVec 16) -- CNTSEL of each device (R56)
  ologs  : List (Nat × List LogEntry)  -- order logs since the last checkpoint, by device (R220)
  ckpts  : List (Nat × Ckpt)
  deriving DecidableEq, Repr

/-! ### Stops -/

/-- Why a step can fault. Nothing of the model raises it: every stop the spec gives is a trap, a park or a wait. -/
inductive Fault where
  /-- No meaning and no step raises this. Safe: it stops the machine. -/
  | unreachable
  deriving DecidableEq, Repr

/-- Why a step can refuse. -/
inductive Refusal where
  /-- Raised by an arm of `exec` whose instruction has no meaning yet. Safe: it stops the machine. -/
  | notModelled (mnemonic : String)
  deriving DecidableEq, Repr

/-! ### Reset -/

/-- No copy programmed: every shadow register reads 0 (R348). -/
def Channel.zero : Channel := ⟨0, 0, 0, 0, 0, 0⟩

/-- No loop is active (R273). -/
def Loops.none : Loops := ⟨false, false, false, 0, 0, 0, 0⟩

/-- The chanter registers at their reset values (R62, R253): zero but for ESV0-ESV7, WTIMEO and QTIMEO; transfer ids run
from 1 (R349, log entry 14). -/
def Chanter.zero : Chanter where
  pc := 0
  s := Vector.replicate 32 0
  vl := 0
  mvl := 0
  fpctl := 0
  tvec := 0
  tcause := 0
  tpc := 0
  tinfo := 0
  tsave := 0
  esv := Vector.replicate 8 0x100
  stripn := 0
  lc0 := 0
  lc1 := 0
  wtimeo := 0x4000
  qtimeo := 0x4000
  trctl := 0
  chan := Vector.replicate 4 Channel.zero
  cpnext := 1
  loops := Loops.none

/-- The masks at a strand's start: zero, m11 all ones (R62, R97). Place 0 stands for m0, which is not read from here. -/
def masksAtStart : Vector MaskReg 16 := (Vector.replicate 16 0).set 11 (BitVec.allOnes 1024)

/-- No strand. Its registers hold what R62 gives a starting strand that the launch does not load. -/
def Strand.none : Strand where
  status := .empty
  muted := false
  saved := false
  ch := Chanter.zero
  v := Vector.replicate 32 0
  m := masksAtStart
  stack := []
  t := Vector.replicate 4 0
  fpflg := 0
  mflg := 0
  fromVec := Vector.replicate 4 []
  toVec := Vector.replicate 4 []
  skip := Vector.replicate 4 0
  done := Vector.replicate 4 ⟨0, false, false, false, 0⟩
  pend := []
  forming := []
  formPc := 0
  formSnap := Chanter.zero
  seq := 0
  early := []
  pops := []
  ahead := false
  resume := .none
  cap := .none
  keep := .none
  trap := .none
  squashing := .none
  stepping := false
  skipBrk := false
  wait := .none
  since := 0
  vwait := .none
  armed := false
  woken := .none
  begun := .none
  watching := .none
  amo := .none
  cancelled := .none
  emptied := false
  dcache := []
  share := []
  older := []
  async := []
  asyncOvf := false
  copyRecs := Vector.replicate 4 .none
  absent := []
  strip := ⟨0, 0, 0, 0, 0, false⟩
  grant := 0
  short := false
  vd := 0
  ctx := 0
  incn := 0
  strandid := 0
  launchid := 0
  launch := 0
  imgidx := 0
  cuidx := .none
  priv := false
  dbgctl := 0
  slottb := 0
  cntbase := 0
  cntn := 0
  strshare := 0
  cushare := 0
  prio := 0

/-- A compute unit that holds nothing. -/
def Cu.none : Cu := ⟨.none, Vector.replicate 32 .none, [], [], [], [], []⟩

def Pins.none : Pins := ⟨0, 0, 0, 0, false, []⟩

/-- Right after reset: every register at the value its table gives, memory with nothing listed (log entry 2), no strand on
any compute unit. No program runs: how one comes to run is log entry 13. -/
def State.reset : State where
  me := Strand.none
  others := []
  agenda := []
  pins := Pins.none
  now := 0
  fresh := 0
  mem := []
  poison := []
  fog := []
  fogged := []
  adie := []
  cus := []
  l2 := []
  replay := []
  merges := []
  partq := []
  xfers := []
  counters := []
  launches := []
  queues := []
  levels := []
  order := 0
  buckets := []
  last := []
  windows := []
  drains := []
  excluded := []
  roots := []
  out := []
  crit := []
  posts := []
  trace := ⟨[], [], 0, 0, [], false⟩
  asked := []
  sendq := []
  ports := []
  peerIn := []
  borrowq := []
  revoked := []
  migs := []
  boot := .none
  halted := false
  serial := 0
  split := 0
  found := ⟨[], [], false, false⟩
  caps := .none
  measures := Vector.replicate 4 0
  attq := []
  cntsel := []
  ologs := []
  ckpts := []

end Sys2Proof.Machine
end

