-- ==== Sys2Proof/Machine/Fp.lean ====
section
/-! DEFINITION. Number formats and arithmetic (spec 09): exact values, one rounding, the helpers of R188, seeds and
exponential units, res32. -/

namespace Sys2Proof.Machine

/-! ### Formats (R185) -/

/-- Bits of the fraction. -/
def fracBits : FpTy → Nat
  | .f16 => 10 | .bf16 => 7 | .f32 => 23 | .f64 => 52

/-- Bits of the exponent. -/
def expBits : FpTy → Nat
  | .f16 => 5 | .bf16 => 8 | .f32 => 8 | .f64 => 11

/-- Width of an element in bits. -/
def fpWidth : FpTy → Nat
  | .f16 => 16 | .bf16 => 16 | .f32 => 32 | .f64 => 64

/-- The exponent bias. -/
def bias (f : FpTy) : Nat := 2 ^ (expBits f - 1) - 1

/-- The exponent of the least quantum: a subnormal's last place. -/
def qmin (f : FpTy) : Int := 1 - (bias f : Int) - (fracBits f : Int)

/-- The encoding of +infinity; every smaller number encodes a finite magnitude. -/
def infBits (f : FpTy) : Nat := (2 ^ expBits f - 1) * 2 ^ fracBits f

/-- The canonical quiet NaN (R186). -/
def canonNaN (f : FpTy) : Nat := infBits f + 2 ^ (fracBits f - 1)

/-- The largest finite magnitude. -/
def maxFinite (f : FpTy) : Nat := infBits f - 1

/-- The sign bit's weight. -/
def signBit (f : FpTy) (neg : Bool) : Nat := if neg then 2 ^ (fpWidth f - 1) else 0

/-- A number read from its bits: a NaN, signalling or not; an infinity; or (-1)^neg x m x 2^e. -/
inductive Fp where
  | nan (signalling : Bool)
  | inf (neg : Bool)
  | fin (neg : Bool) (m : Nat) (e : Int)
  deriving DecidableEq, Repr

/-- Reads a format (R185, R186). -/
def fpRead (f : FpTy) (bits : Nat) : Fp :=
  let x := bits % 2 ^ fpWidth f
  let neg := x / 2 ^ (fpWidth f - 1) = 1
  let mag := x % 2 ^ (fpWidth f - 1)
  let ex := mag / 2 ^ fracBits f
  let fr := mag % 2 ^ fracBits f
  if ex = 2 ^ expBits f - 1 then
    (if fr = 0 then .inf neg else .nan (fr < 2 ^ (fracBits f - 1)))
  else if ex = 0 then .fin neg fr (qmin f)
  else .fin neg (fr + 2 ^ fracBits f) (qmin f + ex - 1)

/-! ### Exceptions (R189, R190) -/

/-- A set of exceptions in the places of FPFLG: I 4, Z 3, O 2, U 1, X 0. -/
abbrev Flags := BitVec 5

def flagI : Flags := 0x10
def flagZ : Flags := 0x08
def flagO : Flags := 0x04
def flagU : Flags := 0x02
def flagX : Flags := 0x01

/-- A result with the exceptions it raises, and whether a conversion saturated (R192). -/
structure FpRes where
  bits : Nat
  fl   : Flags
  sat  : Bool
  deriving DecidableEq, Repr

/-- The NaN result of an invalid operation. -/
def invalidRes (f : FpTy) : FpRes := ⟨canonNaN f, flagI, false⟩

/-- The NaN result of NaN operands: invalid when one is signalling (R186). -/
def nanRes (f : FpTy) (signalling : Bool) : FpRes := ⟨canonNaN f, if signalling then flagI else 0, false⟩

/-! ### Rounding (R187, R188) -/

/-- The mode of a word that rounds: 7 takes FPCTL.RM as captured (R187). -/
def modeOf (rm : Rm) (fpctl : BitVec 32) : Rm :=
  match rm with
  | .dyn => match field fpctl.toNat 0 3 with
    | 1 => .rtz | 2 => .rdn | 3 => .rup | 4 => .rna | _ => .rne
  | m => m

/-- Whether a magnitude between n and n + 1 goes up: `r` is the remainder over `d`, 0 < d. -/
def roundsUp (m : Rm) (neg : Bool) (n r d : Nat) : Bool :=
  if r = 0 then false else
  match m with
  | .rtz => false
  | .rdn => neg
  | .rup => !neg
  | .rna => decide (d ≤ 2 * r)
  | _ => decide (d < 2 * r) || (decide (2 * r = d) && n % 2 = 1)

/-- `num / den x 2^e` in units of 2^q, rounded to an integer; and whether that was inexact. -/
def quantize (m : Rm) (neg : Bool) (num den : Nat) (e q : Int) : Nat × Bool :=
  let sh := e - q
  let a := if 0 ≤ sh then num * 2 ^ sh.toNat else num
  let d := if 0 ≤ sh then den else den * 2 ^ (-sh).toNat
  let n := a / d
  let r := a % d
  (if roundsUp m neg n r d then n + 1 else n, r != 0)

/-- floor(log2(num / den)) for positive num, den. -/
def floorLog2 (num den : Nat) : Int :=
  let g : Int := (num.log2 : Int) - den.log2
  let below := if 0 ≤ g then num < den * 2 ^ g.toNat else num * 2 ^ (-g).toNat < den
  if below then g - 1 else g

/-- The exact positive magnitude num / den x 2^e rounded to format f under mode m, with the given sign (R188): tininess
after rounding, underflow only when also inexact (R186). -/
def roundMag (f : FpTy) (m : Rm) (neg : Bool) (num den : Nat) (e : Int) : FpRes :=
  let l := floorLog2 num den + e
  let q0 := l - fracBits f
  let q := max q0 (qmin f)
  let (n, x) := quantize m neg num den e q
  let mag := (q - qmin f).toNat * 2 ^ fracBits f + n
  if infBits f ≤ mag then
    let toInf := match m with
      | .rtz => false | .rdn => neg | .rup => !neg | _ => true
    ⟨signBit f neg + (if toInf then infBits f else maxFinite f), flagO ||| flagX, false⟩
  else
    let (n0, _) := quantize m neg num den e q0
    -- tiny: the result with unbounded exponent lies below the smallest normal
    let tiny := decide (q0 < qmin f) && (q0 - qmin f + (n0.log2 : Int) < fracBits f)
    ⟨signBit f neg + mag, (if x then flagX else 0) ||| (if tiny && x then flagU else 0), false⟩

/-- round(x, f, m) of (-1)^neg x num / den x 2^e; a zero keeps the sign given. -/
def roundQ (f : FpTy) (m : Rm) (neg : Bool) (num den : Nat) (e : Int) : FpRes :=
  if num = 0 then ⟨signBit f neg, 0, false⟩ else roundMag f m neg num den e

/-- round of an integer times 2^e; `zneg` is the sign of a zero. -/
def roundInt (f : FpTy) (m : Rm) (x : Int) (e : Int) (zneg : Bool) : FpRes :=
  if x = 0 then ⟨signBit f zneg, 0, false⟩ else roundMag f m (decide (x < 0)) x.natAbs 1 e

/-! ### Arithmetic (R186, R190, R268, R302) -/

/-- A product kept exact, or what makes it special. -/
inductive Prod where
  | nan (fl : Flags)
  | inf (neg : Bool)
  | fin (neg : Bool) (m : Nat) (e : Int)
  deriving DecidableEq, Repr

def Fp.sig : Fp → Bool
  | .nan s => s
  | _ => false

/-- The exact product of two numbers; infinity times zero is invalid. -/
def fpProd (x y : Fp) : Prod :=
  match x, y with
  | .nan a, y => .nan (if a || y.sig then flagI else 0)
  | _, .nan b => .nan (if b then flagI else 0)
  | .inf a, .inf b => .inf (a != b)
  | .inf a, .fin b m _ => if m = 0 then .nan flagI else .inf (a != b)
  | .fin a m _, .inf b => if m = 0 then .nan flagI else .inf (a != b)
  | .fin a m e, .fin b n g => .fin (a != b) (m * n) (e + g)

/-- A product as a factor of a further product. -/
def Prod.toFp : Prod → Fp
  | .nan fl => .nan (fl != 0)
  | .inf a => .inf a
  | .fin a m e => .fin a m e

def Prod.negate : Prod → Prod
  | .nan fl => .nan fl
  | .inf a => .inf !a
  | .fin a m e => .fin (!a) m e

/-- A signed mantissa. -/
def signed (neg : Bool) (m : Nat) : Int := if neg then -(m : Int) else m

/-- The exact sum of a product and a number, rounded once. -/
def addProd (f : FpTy) (m : Rm) (p : Prod) (z : Fp) : FpRes :=
  match p, z with
  | .nan fl, z => nanRes f (fl != 0 || z.sig)
  | _, .nan s => nanRes f s
  | .inf a, .inf b => if a = b then ⟨signBit f a + infBits f, 0, false⟩ else invalidRes f
  | .inf a, .fin _ _ _ => ⟨signBit f a + infBits f, 0, false⟩
  | .fin _ _ _, .inf b => ⟨signBit f b + infBits f, 0, false⟩
  | .fin a x e, .fin b y g =>
    let k := min e g
    let sum := signed a x * (2 ^ (e - k).toNat : Nat) + signed b y * (2 ^ (g - k).toNat : Nat)
    let zneg := if a = b then a else m == .rdn
    -- a sum of non-zero operands that cancels takes the sign of opposite operands
    roundInt f m sum k zneg

def fpOne : Fp := .fin false 1 0

def Fp.negate : Fp → Fp
  | .nan s => .nan s
  | .inf a => .inf !a
  | .fin a m e => .fin (!a) m e

def fpAdd (f : FpTy) (m : Rm) (x y : Fp) : FpRes := addProd f m (fpProd x fpOne) y
def fpSub (f : FpTy) (m : Rm) (x y : Fp) : FpRes := addProd f m (fpProd x fpOne) y.negate

def fpMul (f : FpTy) (m : Rm) (x y : Fp) : FpRes :=
  match fpProd x y with
  | .nan fl => nanRes f (fl != 0)
  | .inf a => ⟨signBit f a + infBits f, 0, false⟩
  | .fin a x e => roundQ f m a x 1 e

def fpDiv (f : FpTy) (m : Rm) (x y : Fp) : FpRes :=
  match x, y with
  | .nan a, y => nanRes f (a || y.sig)
  | _, .nan b => nanRes f b
  | .inf _, .inf _ => invalidRes f
  | .inf a, .fin b _ _ => ⟨signBit f (a != b) + infBits f, 0, false⟩
  | .fin a _ _, .inf b => ⟨signBit f (a != b), 0, false⟩
  | .fin a n e, .fin b d g =>
    if d = 0 then
      (if n = 0 then invalidRes f else ⟨signBit f (a != b) + infBits f, flagZ, false⟩)
    else roundQ f m (a != b) n d (e - g)

/-- The integer square root, bit by bit from bit k - 1. -/
def isqrtFrom : Nat → Nat → Nat → Nat
  | 0, _, r => r
  | k + 1, n, r => let c := r + 2 ^ k; isqrtFrom k n (if c * c ≤ n then c else r)

def isqrt (n : Nat) : Nat := isqrtFrom (n.log2 / 2 + 1) n 0

/-- sqrt of m x 2^e, m positive: enough bits and a sticky half, so that one rounding decides (R268). -/
def sqrtMag (f : FpTy) (rm : Rm) (m : Nat) (e : Int) : FpRes :=
  let k := 2 * (fracBits f + 4)
  let odd := e % 2 = 1
  let big := m * 2 ^ (k + if odd then 1 else 0)
  let h : Int := (e - (if odd then 1 else 0) - k) / 2
  let r := isqrt big
  if r * r = big then roundMag f rm false r 1 h else roundMag f rm false (2 * r + 1) 1 (h - 1)

def fpSqrt (f : FpTy) (rm : Rm) (x : Fp) : FpRes :=
  match x with
  | .nan s => nanRes f s
  | .inf neg => if neg then invalidRes f else ⟨infBits f, 0, false⟩
  | .fin neg m e => if m = 0 then ⟨signBit f neg, 0, false⟩ else if neg then invalidRes f else sqrtMag f rm m e

/-- The order of two numbers that are no NaNs: -0 and +0 equal. -/
def fpVal : Fp → Int × Int      -- a signed mantissa and an exponent; infinities beyond every finite number
  | .nan _ => (0, 0)
  | .inf neg => (if neg then -1 else 1, 5000)
  | .fin neg m e => (signed neg m, e)

def fpLt (x y : Fp) : Bool :=
  let (a, e) := fpVal x
  let (b, g) := fpVal y
  let k := min e g
  decide (a * (2 ^ (e - k).toNat : Nat) < b * (2 ^ (g - k).toNat : Nat))

def Fp.isNaN : Fp → Bool
  | .nan _ => true
  | _ => false

def Fp.isNeg : Fp → Bool
  | .nan _ => false
  | .inf a => a
  | .fin a _ _ => a

/-- x before y in the order of minimumNumber: -0 below +0 (R268). -/
def fpBefore (x y : Fp) : Bool := fpLt x y || (!fpLt y x && x.isNeg && !y.isNeg)

/-- minimumNumber and maximumNumber (R268): a NaN gives the other operand, a signalling one raises invalid. -/
def fpMinMax (f : FpTy) (isMax : Bool) (a b : Nat) : FpRes :=
  let x := fpRead f a
  let y := fpRead f b
  let fl : Flags := if x.sig || y.sig then flagI else 0
  let a := a % 2 ^ fpWidth f
  let b := b % 2 ^ fpWidth f
  if x.isNaN then ⟨if y.isNaN then canonNaN f else b, fl, false⟩
  else if y.isNaN then ⟨a, fl, false⟩
  else
    let less := fpBefore x y
    ⟨if less != isMax then a else b, fl, false⟩

/-- FCMP and VFCMP (R269). -/
def fpCmp (k : Cond) (x y : Fp) : Bool × Flags :=
  let unord := x.isNaN || y.isNaN
  let sig := x.sig || y.sig
  match k with
  | .eq => (!unord && !fpLt x y && !fpLt y x, if sig then flagI else 0)
  | .ne => (unord || fpLt x y || fpLt y x, if sig then flagI else 0)
  | .lt => (!unord && fpLt x y, if unord then flagI else 0)
  | .le => (!unord && !fpLt y x, if unord then flagI else 0)
  | .gt => (!unord && fpLt y x, if unord then flagI else 0)
  | .ge => (!unord && !fpLt x y, if unord then flagI else 0)

/-- The class mask of R269. -/
def fpClass (f : FpTy) (bits : Nat) : Nat :=
  match fpRead f bits with
  | .nan s => if s then 0x100 else 0x200
  | .inf neg => if neg then 0x001 else 0x080
  | .fin neg m _ =>
    if m = 0 then (if neg then 0x008 else 0x010)
    else if m < 2 ^ fracBits f then (if neg then 0x004 else 0x020)
    else (if neg then 0x002 else 0x040)

/-! ### Conversions (R193) -/

/-- cvt_ff: a finite source beyond the destination's largest finite gives that largest finite, O and X, and saturates. -/
def cvtFF (dst src : FpTy) (m : Rm) (bits : Nat) : FpRes :=
  match fpRead src bits with
  | .nan s => nanRes dst s
  | .inf neg => ⟨signBit dst neg + infBits dst, 0, false⟩
  | .fin neg x e =>
    let r := roundQ dst m neg x 1 e
    if r.fl &&& flagO ≠ 0 then ⟨signBit dst neg + maxFinite dst, flagO ||| flagX, true⟩ else r

/-- A real rounded to an integer under m; and whether that was inexact. -/
def roundToInt (m : Rm) (neg : Bool) (x : Nat) (e : Int) : Int × Bool :=
  let (n, ix) := quantize m neg x 1 e 0
  (signed neg n, ix)

/-- The bounds of an integer type. -/
def intLo (w : Nat) (sgn : Bool) : Int := if sgn then -(2 ^ (w - 1) : Nat) else 0
def intHi (w : Nat) (sgn : Bool) : Int := if sgn then (2 ^ (w - 1) : Nat) - 1 else (2 ^ w : Nat) - 1

/-- sat without its m12 bit: the clamped value, and whether it changed (R188). -/
def clamp (x lo hi : Int) : Int × Bool := if x < lo then (lo, true) else if hi < x then (hi, true) else (x, false)

/-- cvt_fi: a NaN gives 0; a saturated or NaN element raises invalid alone. -/
def cvtFI (w : Nat) (sgn : Bool) (src : FpTy) (m : Rm) (bits : Nat) : FpRes :=
  match fpRead src bits with
  | .nan _ => ⟨0, flagI, true⟩
  | .inf neg => ⟨wrapNat w (if neg then intLo w sgn else intHi w sgn), flagI, true⟩
  | .fin neg x e =>
    let (n, ix) := roundToInt m neg x e
    let (c, far) := clamp n (intLo w sgn) (intHi w sgn)
    ⟨wrapNat w c, if far then flagI else if ix then flagX else 0, far⟩

/-- cvt_if. -/
def cvtIF (dst : FpTy) (m : Rm) (x : Int) : FpRes := roundInt dst m x 0 false

/-! ### Seeds (R200) -/

/-- A normalised magnitude: |x| = 2^e x 1.f, as (e, the top seven bits of f). -/
def seedParts (m : Nat) (e : Int) : Int × Nat :=
  let k := m.log2
  (e + k, (if 7 ≤ k then m >>> (k - 7) else m <<< (7 - k)) % 128)

/-- The seed rounded into the format: only overflow and underflow, with their inexact, are raised. -/
def seedRound (f : FpTy) (neg : Bool) (n : Nat) (e : Int) : FpRes :=
  let r := roundQ f .rne neg n 1 e
  if r.fl &&& (flagO ||| flagU) ≠ 0 then r else { r with fl := 0 }

def fpRsqe (f : FpTy) (x : Fp) : FpRes :=
  match x with
  | .nan s => nanRes f s
  | .inf neg => if neg then invalidRes f else ⟨0, 0, false⟩
  | .fin neg m e =>
    if m = 0 then ⟨signBit f neg + infBits f, flagZ, false⟩
    else if neg then invalidRes f
    else
      let (ex, i) := seedParts m e
      let p := (ex % 2).toNat
      let d := (257 + 2 * i) * 2 ^ p            -- 256 x the argument of the root
      let n := isqrt (2 ^ 32 / d)
      let up := (2 * n + 1) * (2 * n + 1) * d
      let n := if up < 2 ^ 34 || (up = 2 ^ 34 && n % 2 = 1) then n + 1 else n
      seedRound f false n (-(ex / 2) - 12)

def fpRcpe (f : FpTy) (x : Fp) : FpRes :=
  match x with
  | .nan s => nanRes f s
  | .inf neg => ⟨signBit f neg, 0, false⟩
  | .fin neg m e =>
    if m = 0 then ⟨signBit f neg + infBits f, flagZ, false⟩
    else
      let (ex, i) := seedParts m e
      let d := 257 + 2 * i
      let n := 2 ^ 20 / d
      let r := 2 ^ 20 % d
      let n := if d < 2 * r || (2 * r = d && n % 2 = 1) then n + 1 else n
      seedRound f neg n (-ex - 12)

/-! ### 2^x and log2 x (R202) -/

/-- Bounds of 2^(b1/2 + b2/4 + ...) in units of 2^-k: `lo`, `hi` bound the root for the current bit, `a`, `b` the product so
far. -/
def exp2Bits (k : Nat) : List Bool → Nat → Nat → Nat → Nat → Nat × Nat
  | [], _, _, a, b => (a, b)
  | bit :: l, lo, hi, a, b =>
    let lo := isqrt (lo * 2 ^ k)
    let hi := isqrt (hi * 2 ^ k) + 1
    if bit then exp2Bits k l lo hi (a * lo / 2 ^ k) (b * hi / 2 ^ k + 1) else exp2Bits k l lo hi a b

/-- The bits of a fraction r / 2^n, most significant first. -/
def fracBitsOf (r n : Nat) : List Bool := (List.range n).map fun i => r.testBit (n - 1 - i)

/-- The value between two bounds (units of 2^-k, times 2^e) rounded when both bounds round alike. -/
def roundBetween (f : FpTy) (m : Rm) (neg : Bool) (a b k : Nat) (e : Int) : Option FpRes :=
  -- the value lies strictly between the bounds: a half step inside keeps it inexact
  let x := roundMag f m neg (2 * a + 1) 2 (e - k)
  let y := roundMag f m neg (2 * b - 1) 2 (e - k)
  if x = y then some x else none

/-- 2^(n + r/2^w), 0 < r < 2^w, at rising precision until the rounding is decided; `fuel` precisions. -/
def exp2Try (f : FpTy) (m : Rm) (n : Int) (r w : Nat) : Nat → Nat → FpRes
  | 0, k => roundMag f m false (2 * (exp2Bits k (fracBitsOf r w) (2 ^ (k + 1)) (2 ^ (k + 1)) (2 ^ k) (2 ^ k)).1 + 1) 2 (n - k)
  | fuel + 1, k =>
    let (a, b) := exp2Bits k (fracBitsOf r w) (2 ^ (k + 1)) (2 ^ (k + 1)) (2 ^ k) (2 ^ k)
    match roundBetween f m false a b k n with
    | some x => x
    | none => exp2Try f m n r w fuel (2 * k)

def fpExp2 (f : FpTy) (m : Rm) (x : Fp) : FpRes :=
  match x with
  | .nan s => nanRes f s
  | .inf neg => if neg then ⟨0, 0, false⟩ else ⟨infBits f, 0, false⟩
  | .fin neg a e =>
    if a = 0 then roundQ f m false 1 1 0
    else if 0 ≤ e && 1 ≤ (a * 2 ^ (min e.toNat 20)) / 2 ^ 14 then
      -- beyond every exponent
      (if neg then roundMag f m false 1 1 (qmin f - 4) else roundMag f m false 1 1 (2 * (bias f : Int) + 4))
    else if a.log2 + e ≥ 14 then
      (if neg then roundMag f m false 1 1 (qmin f - 4) else roundMag f m false 1 1 (2 * (bias f : Int) + 4))
    else if a.log2 + e < -((fracBits f : Int) + 4) then
      -- 1 and a step too small for the last place
      (if neg then roundMag f m false (2 ^ (fracBits f + 6) - 1) 1 (-(fracBits f + 6 : Int))
       else roundMag f m false (2 ^ (fracBits f + 6) + 1) 1 (-(fracBits f + 6 : Int)))
    else
      let w := (-e).toNat
      let v := signed neg a * (2 ^ e.toNat : Nat)        -- x in units of 2^-w
      let n := v / (2 ^ w : Nat)
      let r := (v % (2 ^ w : Nat)).toNat
      if r = 0 then roundMag f m false 1 1 n else exp2Try f m n r w 4 160

/-- Bits of log2 of a number between the bounds lo and hi in [1, 2), units of 2^-k: as many as the bounds decide, up to
`fuel`; answers the bits read and how many. -/
def log2Bits (k : Nat) : Nat → Nat → Nat → Nat → Nat → Nat × Nat
  | 0, _, _, acc, cnt => (acc, cnt)
  | fuel + 1, lo, hi, acc, cnt =>
    let lo := lo * lo / 2 ^ k
    let hi := hi * hi / 2 ^ k + 1
    if 2 ^ (k + 1) ≤ lo then log2Bits k fuel (lo / 2) (hi / 2 + 1) (2 * acc + 1) (cnt + 1)
    else if hi < 2 ^ (k + 1) then log2Bits k fuel lo hi (2 * acc) (cnt + 1)
    else (acc, cnt)

/-- The real between x and y (units of 2^-c), both of one sign, rounded when both round alike. -/
def roundBetweenInt (f : FpTy) (m : Rm) (x y : Int) (c : Nat) : Option FpRes :=
  -- strictly between the bounds, of one sign
  let a := 2 * x + 1
  let b := 2 * y - 1
  let r := roundInt f m a (-(c : Int) - 1) false
  let q := roundInt f m b (-(c : Int) - 1) false
  if r = q && decide (0 < a) = decide (0 < b) then some r else none

/-- log2(2^ex x m / 2^j) for 2^j < m < 2^(j+1), at rising precision. -/
def log2Try (f : FpTy) (rm : Rm) (ex : Int) (m j : Nat) : Nat → Nat → FpRes
  | 0, k =>
    let (acc, c) := log2Bits k (k / 2) (m * 2 ^ k / 2 ^ j) (m * 2 ^ k / 2 ^ j + 1) 0 0
    roundInt f rm (2 * (ex * (2 ^ c : Nat) + acc) + 1) (-(c : Int) - 1) false
  | fuel + 1, k =>
    let (acc, c) := log2Bits k (k / 2) (m * 2 ^ k / 2 ^ j) (m * 2 ^ k / 2 ^ j + 1) 0 0
    let x := ex * (2 ^ c : Nat) + acc
    match roundBetweenInt f rm x (x + 1) c with
    | some r => r
    | none => log2Try f rm ex m j fuel (2 * k)

def fpLog2 (f : FpTy) (rm : Rm) (x : Fp) : FpRes :=
  match x with
  | .nan s => nanRes f s
  | .inf neg => if neg then invalidRes f else ⟨infBits f, 0, false⟩
  | .fin neg m e =>
    if m = 0 then ⟨signBit f true + infBits f, flagZ, false⟩
    else if neg then invalidRes f
    else
      let j := m.log2
      if m = 2 ^ j then roundInt f rm (e + j) 0 false else log2Try f rm (e + j) m j 4 400

/-! ### Scalar and vector operations by name -/

/-- The binary and ternary operations of R268 and R302 on the bits of their operands. -/
def fpOp (k : FpOp) (f : FpTy) (m : Rm) (a b c : Nat) : FpRes :=
  let x := fpRead f a
  let y := fpRead f b
  let z := fpRead f c
  match k with
  | .add => fpAdd f m x y
  | .sub => fpSub f m x y
  | .mul => fpMul f m x y
  | .div => fpDiv f m x y
  | .fma => addProd f m (fpProd x y) z
  | .fms => addProd f m (fpProd x y) z.negate
  | .fnma => addProd f m (fpProd x y).negate z
  | .min => fpMinMax f false a b
  | .max => fpMinMax f true a b

/-- The unary operations of R302. -/
def fpUn (k : FpUn) (f : FpTy) (m : Rm) (a : Nat) : FpRes :=
  let x := fpRead f a
  let half := 2 ^ (fpWidth f - 1)
  match k with
  | .sqrt => fpSqrt f m x
  | .abs => ⟨a % half, 0, false⟩
  | .neg => ⟨(a % (2 * half)).xor half, 0, false⟩
  | .rsqe => fpRsqe f x
  | .rcpe => fpRcpe f x
  | .exp2 => fpExp2 f m x
  | .log2 => fpLog2 f m x

/-! ### res32 (R194 to R198) -/

def resM : Int := 1073740800
def resLo : Int := -536870400
def resHi : Int := 536870399

def resA (r : Nat) : Nat := field r 0 10 % 1023
def resB (r : Nat) : Nat := field r 10 10
def resC (r : Nat) : Nat := field r 20 11 % 1025
def resOor (r : Nat) : Bool := r.testBit 31

def resPack (a b c : Nat) (oor : Bool) : Nat := a + b * 2 ^ 10 + c * 2 ^ 20 + (if oor then 2 ^ 31 else 0)

def resAdd (r q : Nat) : Nat :=
  resPack ((resA r + resA q) % 1023) ((resB r + resB q) % 1024) ((resC r + resC q) % 1025) (resOor r || resOor q)

def resMul (r q : Nat) : Nat :=
  resPack ((resA r * resA q) % 1023) ((resB r * resB q) % 1024) ((resC r * resC q) % 1025) (resOor r || resOor q)

/-- resneg of R339. -/
def resNeg (r : Nat) : Nat :=
  resPack ((1023 - resA r) % 1023) ((1024 - resB r) % 1024) ((1025 - resC r) % 1025) (resOor r)

/-- resenc: the word, and whether the value was clamped (R197). -/
def resEnc (x : Int) : Nat × Bool :=
  let (c, far) := clamp x resLo resHi
  (resPack (c % 1023).toNat (c % 1024).toNat (c % 1025).toNat far, far)

/-- resdec: the integer, and whether OOR gave a bound (R198). -/
def resDec (r : Nat) : Int × Bool :=
  let a1 := resA r
  let a2 := ((resB r + 1024 - a1 % 1024) * 1023) % 1024
  let a3 := ((resC r + 1025 * 1025 - (a1 + 1023 * a2) % 1025) * 513) % 1025
  let x : Int := a1 + 1023 * a2 + 1047552 * a3
  let x := if 536870400 ≤ x then x - resM else x
  if resOor r then (if 0 ≤ x then resHi else resLo, true) else (x, false)

end Sys2Proof.Machine
end

