-- ==== Sys2Proof/Machine/Assoc.lean ====
section
/-! DEFINITION. Sparse tables keyed by a number: lists in one canonical form, with a default for every key not listed. -/

namespace Sys2Proof.Machine.Assoc

/-- The value of a key, `d` where it is not listed. -/
def get (d : α) (k : Nat) : List (Nat × α) → α
  | [] => d
  | (j, v) :: l => if j = k then v else if k < j then d else get d k l

/-- Writes a key; writing `d` removes the entry, so that equal tables are equal lists. -/
def put [DecidableEq α] (d : α) (k : Nat) (v : α) : List (Nat × α) → List (Nat × α)
  | [] => if v = d then [] else [(k, v)]
  | (j, w) :: l =>
    if j < k then (j, w) :: put d k v l
    else if j = k then (if v = d then l else (k, v) :: l)
    else (if v = d then (j, w) :: l else (k, v) :: (j, w) :: l)

/-- The canonical form: keys strictly rising from `lo`, no entry equal to the default. -/
def wfFrom [DecidableEq α] (d : α) (lo : Nat) : List (Nat × α) → Bool
  | [] => true
  | (j, v) :: l => decide (lo ≤ j) && decide (v ≠ d) && wfFrom d (j + 1) l

def wf [DecidableEq α] (d : α) (l : List (Nat × α)) : Bool := wfFrom d 0 l

/-- Changes the value of a key. -/
def upd [DecidableEq α] (d : α) (k : Nat) (f : α → α) (l : List (Nat × α)) : List (Nat × α) :=
  put d k (f (get d k l)) l

end Sys2Proof.Machine.Assoc
end

