-- ==== Sys2Proof/Machine/Regs.lean ====
section
/-! DEFINITION. The A-die register space (R5, R11): addresses, reset values, reads and writes of one register. -/

namespace Sys2Proof.Machine

/-! ### Addresses, by the tables of spec 01 to 21 -/

namespace Reg

def boot : Nat := 0xF80000010000
def att : Nat := 0xF80000010100
def stack (k : Nat) : Nat := 0xF80000020000 + 0x100 * k
def link (p : Nat) : Nat := 0xF80000030000 + 0x1000 * p
def part (p : Nat) : Nat := 0xF80000070000 + 0x100 * p
def vdev (v : Nat) : Nat := 0xF80000080000 + 0x40 * v
def ctxtb : Nat := 0xF80000090000
def ctxkill : Nat := 0xF80000090010
def killstat : Nat := 0xF80000090018
def rclmctx : Nat := 0xF80000090020
def rclmstat : Nat := 0xF80000090028
def stalecnt : Nat := 0xF80000090030
def orphcnt : Nat := 0xF80000090038
def privvd : Nat := 0xF80000090040
def sinvcmd : Nat := 0xF80000090048
def sinvstat : Nat := 0xF80000090050
def rates (v : Nat) : Nat := 0xF800000A0000 + 0x40 * v
def mig (d : Nat) : Nat := 0xF800000B0000 + 0x100 * d
def access (m : Nat) : Nat := 0xF800000C0000 + 0x80 * m
def mrgto : Nat := 0xF800000D0000
def mrgtocnt : Nat := 0xF800000D0008
def mrgtoln : Nat := 0xF800000D0010
def mrgerr : Nat := 0xF800000D0018
def borrower (i : Nat) : Nat := 0xF800000E0000 + 0x20 * i
def lender (i : Nat) : Nat := 0xF800000F0000 + 0x20 * i
def notify (v : Nat) : Nat := 0xF80000100000 + 0x1000 * v
def dbg (v : Nat) : Nat := 0xF80000140000 + 0x40 * v
def trace : Nat := 0xF80000150000
def ckpt (v : Nat) : Nat := 0xF80000160000 + 0x40 * v
def pch (c : Nat) : Nat := 0xF80000170000 + 0x10 * c
def fq (v : Nat) : Nat := 0xF80000180000 + 0x20 * v
def fqres : Nat := 0xF80000180800

end Reg

/-- The value a register's table gives at reset, 0 where it gives 0 (R20, R34, R78, R80, R126, R218). -/
def regReset (a : Nat) : Word :=
  if Reg.stack 0 ≤ a && a < Reg.stack 12 then
    (if a % 0x100 = 0x20 then 0x00646964 else if a = Reg.stack 0 + 0x28 then 0x14 else 0)
  else if Reg.link 0 ≤ a && a < Reg.link 18 then
    (if a % 0x1000 = 0x28 then 0x10 else if a % 0x1000 = 0x30 then 8 else 0)
  else if Reg.part 0 ≤ a && a < Reg.part 16 then
    (if a % 0x100 = 0x60 then 0x0020040002000100 else 0)
  else if Reg.rates 0 ≤ a && a < Reg.rates 64 then
    (if a % 0x40 = 0x28 then 1 else 0)
  else if a = Reg.mrgto then 0x100000
  else if Reg.ckpt 0 ≤ a && a < Reg.ckpt 64 then
    (if a % 0x40 = 0 then 0xA0000 else 0)
  else 0

/-- What a register holds: only values that differ from reset are listed. -/
def State.reg (s : State) (a : Nat) : Word := (s.adie.lookup a).getD (regReset a)

/-- A register as a number. -/
def State.regN (s : State) (a : Nat) : Nat := (s.reg a).toNat

/-- The register file of a list, with one register written: the list keeps only values that differ from reset. -/
def putReg (a : Nat) (v : Word) : List (Nat × Word) → List (Nat × Word)
  | [] => if v = regReset a then [] else [(a, v)]
  | (b, w) :: l =>
    if b < a then (b, w) :: putReg a v l
    else if b = a then (if v = regReset a then l else (a, v) :: l)
    else (if v = regReset a then (b, w) :: l else (a, v) :: (b, w) :: l)

/-- Writes one register's storage. -/
def State.setReg (s : State) (a : Nat) (v : Word) : State := { s with adie := putReg a v s.adie }

/-- Adds one to a counter register of w bits. It stops at 2^w - 1: the spec says so only of PCHRD and PCHWR (R369); of
STKCECNT, STKUECNT, LNKDROP, LNKREPCNT and LNKRETCNT (R14, R34) it is the model's choice (log entry 83). -/
def State.countReg (s : State) (a w : Nat) : State :=
  if s.regN a < 2 ^ w - 1 then s.setReg a (BitVec.ofNat 64 (s.regN a + 1)) else s

end Sys2Proof.Machine
end

