-- ==== Sys2Proof/Machine/Operands.lean ====
section
/-! DEFINITION. Operand forms: scalar, vector, mask, tile and queue registers, integer types, conditions. -/

namespace Sys2Proof.Machine

/-! ### Scalar registers (R252): s0 reads zero and ignores writes -/

def Chanter.sreg (c : Chanter) (r : SReg) : Word := if r = 0 then 0 else c.s[r.toNat]'r.isLt

def Chanter.setSreg (c : Chanter) (r : SReg) (x : Word) : Chanter :=
  if r = 0 then c else { c with s := c.s.set r.toNat x r.isLt }

/-- Changes the strand whose turn it is. -/
def State.onMe (s : State) (f : Strand → Strand) : State := { s with me := f s.me }

/-- Changes its chanter registers. -/
def State.onCh (s : State) (f : Chanter → Chanter) : State := { s with me := { s.me with ch := f s.me.ch } }

def State.sreg (s : State) (r : SReg) : Word := s.me.ch.sreg r

def State.setSreg (s : State) (r : SReg) (x : Word) : State := s.onCh fun c => c.setSreg r x

/-! ### Integer types (R243, R264) -/

def intWidth : IntTy → Nat
  | .i8 | .n8 => 8 | .i16 | .n16 => 16 | .i32 | .n32 => 32 | .i64 | .n64 => 64

def intSigned : IntTy → Bool
  | .i8 | .i16 | .i32 | .i64 => true
  | _ => false

/-- The result of an integer word, extended to 64 bits as its type gives (R264). -/
def extendInt (t : IntTy) (x : Nat) : Word :=
  if intSigned t then sextWord (intWidth t) x else BitVec.ofNat 64 (x % 2 ^ intWidth t)

def vintWidth : VIntTy → Nat
  | .i16 | .n16 => 16 | .i32 | .n32 => 32 | .i64 | .n64 => 64

def vintSigned : VIntTy → Bool
  | .i16 | .i32 | .i64 => true
  | _ => false

/-- An element as the number its type gives. -/
def vintVal (t : VIntTy) (x : Nat) : Int := if vintSigned t then toSigned (vintWidth t) x else (x % 2 ^ vintWidth t : Nat)

def wtyWidth : WTy → Nat
  | .w16 => 16 | .w32 => 32 | .w64 => 64 | .res32 => 32

/-- VLMAX(w) (R295). -/
def vlmax (w : Nat) : Nat := 16384 / w

/-- A condition on two integers (R269 for numbers, R303). -/
def condInt (k : Cond) (x y : Int) : Bool :=
  match k with
  | .eq => x == y | .ne => x != y | .lt => decide (x < y) | .le => decide (x ≤ y) | .gt => decide (y < x)
  | .ge => decide (y ≤ x)

/-! ### The vector registers of a strand -/

/-- The part of a strand that vector and matrix words read and write (R85). -/
structure VFile where
  v     : Vector VecReg 32
  m     : Vector MaskReg 16
  stack : List MaskEntry
  t     : Vector Tile 4
  fpflg : BitVec 32
  mflg  : BitVec 32
  deriving DecidableEq, Repr

def Strand.file (k : Strand) : VFile := ⟨k.v, k.m, k.stack, k.t, k.fpflg, k.mflg⟩

def Strand.withFile (k : Strand) (f : VFile) : Strand :=
  { k with v := f.v, m := f.m, stack := f.stack, t := f.t, fpflg := f.fpflg, mflg := f.mflg }

def VFile.vreg (f : VFile) (r : VReg) : VecReg := f.v[r.toNat]'r.isLt
def VFile.setV (f : VFile) (r : VReg) (x : VecReg) : VFile := { f with v := f.v.set r.toNat x r.isLt }

/-- The top of the mask stack: all ones when it is empty (R307). -/
def stackTop : List MaskEntry → MaskReg
  | [] => BitVec.allOnes 1024
  | e :: _ => e.active

/-- A mask operand: m0 is all ones, 15 the mask-stack top (R97, R245). -/
def VFile.mask (f : VFile) (k : MReg) : MaskReg :=
  if k = 0 then BitVec.allOnes 1024 else if k = 15 then stackTop f.stack else f.m[k.toNat]'k.isLt

/-- Writes a mask; a write to m0 is discarded (R97). -/
def VFile.setM (f : VFile) (k : MReg) (x : MaskReg) : VFile :=
  if k = 0 || k = 15 then f else { f with m := f.m.set k.toNat x k.isLt }

def VFile.tile (f : VFile) (k : TReg) : Tile := f.t[k.toNat]'k.isLt
def VFile.setT (f : VFile) (k : TReg) (x : Tile) : VFile := { f with t := f.t.set k.toNat x k.isLt }

/-- Element (i, j) of a tile, of s bytes (R336). -/
def tileElem (s : Nat) (t : Tile) (i j : Nat) : Nat := field t.toNat (8 * (256 * i + s * j)) (8 * s)

def setTileElem (s : Nat) (t : Tile) (i j x : Nat) : Tile :=
  let lo := 8 * (256 * i + s * j)
  let m := BitVec.ofNat 131072 ((2 ^ (8 * s) - 1) * 2 ^ lo)
  (t &&& ~~~m) ||| BitVec.ofNat 131072 ((x % 2 ^ (8 * s)) * 2 ^ lo)

/-! ### Queue registers (R94) -/

def Strand.fromQ (k : Strand) (q : QNum) : List QEntry := k.fromVec[q.toNat]'q.isLt
def Strand.toQ (k : Strand) (q : QNum) : List QEntry := k.toVec[q.toNat]'q.isLt
def Strand.setFromQ (k : Strand) (q : QNum) (l : List QEntry) : Strand := { k with fromVec := k.fromVec.set q.toNat l q.isLt }
def Strand.setToQ (k : Strand) (q : QNum) (l : List QEntry) : Strand := { k with toVec := k.toVec.set q.toNat l q.isLt }
def Strand.skipOf (k : Strand) (q : QNum) : Nat := k.skip[q.toNat]'q.isLt
def Strand.setSkip (k : Strand) (q : QNum) (n : Nat) : Strand := { k with skip := k.skip.set q.toNat n q.isLt }

/-- Entries a queue holds (R94). -/
def queueRoom : Nat := 16

/-! ### Copy channels -/

def Chanter.channel (c : Chanter) (k : BitVec 2) : Channel := c.chan[k.toNat]'k.isLt
def Chanter.setChannel (c : Chanter) (k : BitVec 2) (x : Channel) : Chanter := { c with chan := c.chan.set k.toNat x k.isLt }
def Strand.doneOf (k : Strand) (c : BitVec 2) : CpDone := k.done[c.toNat]'c.isLt
def Strand.setDone (k : Strand) (c : BitVec 2) (x : CpDone) : Strand := { k with done := k.done.set c.toNat x c.isLt }

/-! ### Lanes (R70, R91) -/

/-- The lane groups of a grant, in increasing number. -/
def grantGroups (grant : BitVec 32) : List Nat := (List.range 32).filter fun g => grant.getLsbD g

/-- The cluster of element group j under a grant: granted lane j mod L lies in group list[(j mod L) / 4] (R91). With no
lanes, cluster 0. -/
def clusterOf (grant : BitVec 32) (j : Nat) : Nat :=
  let l := grantGroups grant
  if l.isEmpty then 0 else (l.getD (j % (4 * l.length) / 4) 0) / 4

/-- The CU and slot of a strand: STRANDID is 8 x (128 x die + CU) + slot (R62). -/
def Strand.cu (k : Strand) : Nat := k.strandid / 8
def Strand.slot (k : Strand) : Nat := k.strandid % 8

end Sys2Proof.Machine
end

