-- ==== Sys2Proof/Machine/Flags.lean ====
section
/-! DEFINITION. Flags: the exceptions of FPFLG and MFLG, the trap enables of FPCTL, the saturation bits of m12 (R189 to
R192). -/

namespace Sys2Proof.Machine

/-- The exceptions among `fl` whose traps FPCTL enables: EI to EX stand at [12:8] in the order of FPFLG (R189). -/
def enabled (fpctl : BitVec 32) (fl : Flags) : Flags := fl &&& (fpctl.extractLsb' 8 5)

/-- The cause of enabled exceptions, first in the order FPINV, FPDZ, FPOVF, FPUNF, FPINX (R191, R267). -/
def fpCause (fl : Flags) : Option Cause :=
  if fl.getLsbD 4 then some .fpinv
  else if fl.getLsbD 3 then some .fpdz
  else if fl.getLsbD 2 then some .fpovf
  else if fl.getLsbD 1 then some .fpunf
  else if fl.getLsbD 0 then some .fpinx
  else none

/-- FPFLG with exceptions ORed in (R191). -/
def orFlags (r : BitVec 32) (fl : Flags) : BitVec 32 := r ||| fl.setWidth 32

/-- MFLG with exceptions and SAT ORed in (R191). -/
def orMflg (r : BitVec 32) (fl : Flags) (sat : Bool) : BitVec 32 :=
  r ||| fl.setWidth 32 ||| (if sat then 0x20 else 0)

/-- FPCTL as a write stores it: RM values 5 to 7 as 0 (R187, R279). -/
def storeFpctl (x : BitVec 32) : BitVec 32 :=
  if 5 ≤ (x.extractLsb' 0 3).toNat then x &&& 0xFFFFFFF8 else x

/-- What a write stores in a chanter control register: the low bits, reserved fields as zero (R5, R279). -/
def Chanter.writeCreg (c : Chanter) (r : CReg) (x : Word) : Chanter :=
  match r with
  | .fpctl => { c with fpctl := storeFpctl (x.setWidth 32) &&& 0x1F07 }
  | .tvec => { c with tvec := x &&& 0xFFFFFFFFFFF8 }
  | .tcause => { c with tcause := x.setWidth 32 &&& 0x80000FFF }
  | .tpc => { c with tpc := x.setWidth 48 }
  | .tinfo => { c with tinfo := x }
  | .tsave => { c with tsave := x }
  | .esv n =>
    let ridx := min 256 (field x.toNat 0 9)
    let w : Word := (if n = 0 then x.extractLsb' 32 32 else 0#32) ++ BitVec.ofNat 32 ridx
    { c with esv := c.esv.set n.toNat w n.isLt }
  | .lc0 => { c with lc0 := x.setWidth 32 }
  | .lc1 => { c with lc1 := x.setWidth 32 }
  | .wtimeo => { c with wtimeo := x.setWidth 32 }
  | .qtimeo => { c with qtimeo := x.setWidth 32 }
  | .trctl => { c with trctl := x.setWidth 32 &&& 7 }
  | .cpsrc n => c.setChannel n { c.channel n with src := x }
  | .cpdst n => c.setChannel n { c.channel n with dst := x }
  | .cplen n => c.setChannel n { c.channel n with len := x }
  | .cpstr n => c.setChannel n { c.channel n with str := x }
  | .cpctl n => c.setChannel n { c.channel n with ctl := x }
  | .cpflag n => c.setChannel n { c.channel n with flag := x }
  | _ => c

/-- m11 of a file: the elements whose exceptions may trap (R191). -/
def VFile.m11 (f : VFile) : MaskReg := f.m[11]

/-- Sets bits of m12 (R192). -/
def VFile.saturate (f : VFile) (l : List Nat) : VFile :=
  if l.isEmpty then f else { f with m := f.m.set 12 (l.foldl (fun m e => setBit m e true) f.m[12]) }

end Sys2Proof.Machine
end

