-- ==== Sys2Proof/Config.lean ====
section
/-! DEFINITION. What an implementation fixes and the values the spec leaves open. Every `opaque` constant is a free value:
it has no body, so no proof can learn a value of it. The argument `n` is `State.fresh`, read and advanced at each use. -/

namespace Sys2Proof.Config

/-- A byte whose value the spec leaves unspecified (R128, R176): use `n`, byte address `a`. -/
opaque freeByte (n a : Nat) : Byte

/-- How far cluster `c` had run past its lowest possible restart group at a stop (R91, R170). -/
opaque freeSlip (n c : Nat) : Nat

/-- The line an L1 loses when it is full, the descriptor a strand drops when its cache is full (R109, R120). -/
opaque freeVictim (n : Nat) : Nat

/-- Where source and destination of a transfer overlap, whether byte `i` of a beat carries the source byte from before the
transfer (true) or the one that the transfer has written there (R350). Whether an access of a strip comes before
store `i` of the same strip, with which it has no order (R141 row 1x). Whether store `i` of a convoy that stops has performed
although its group does not commit (R170). -/
opaque freePick (n i : Nat) : Bool

/-- Flits that a request with n bytes of data takes on a UALink port, whose flit the spec does not give (R30). -/
opaque ualinkFlits (n : Nat) : Nat

/-- The outcome of decoding a code word with three or more bad symbols (R14): true where it is reported. -/
opaque freeMiscorrect (n : Nat) : Bool

/-- The public half of the device's attestation key, which a physically unclonable circuit gives (R42, R43). -/
opaque attKey : BitVec 456
/-- The maker's public keys in A-die ROM (R41). -/
opaque romKey (i : Nat) : BitVec 456
/-- Ed448: the signature of a message under the attestation key, byte `i` of its 114 (R43). -/
opaque sign (msg : List Byte) (i : Nat) : Byte
/-- Ed448: whether a signature of a message holds under a key (R41). -/
opaque verify (key : BitVec 456) (msg sig : List Byte) : Bool

/-- At which multiple of 16 bytes of its page the capability list starts (R44). -/
opaque capPlace : BitVec 11
/-- The root-port bifurcation that a blob's payload sets, 2 bits for each x16 port: the payload's layout is not given (R41). -/
opaque bifurcation (payload : List Byte) : BitVec 8

/-- What a timing outside the model decides: how many cycles a pipe was busy (R93). -/
opaque freeBusy (n : Nat) : BitVec 32

end Sys2Proof.Config
end

