-- ==== Sys2Proof/Machine/Mem.lean ====
section
/-! DEFINITION. Physical memory and the caches in front of it (spec 06): bytes at the home slices, poison, L2 tags, L1 and
write-combining buffers of the compute units, access tables. -/

namespace Sys2Proof.Machine

/-! ### Token buckets (R75, R76) -/

/-- The arbiters: CU dispatch, L2 slices, pseudo-channels, C-die link directions, bellows, UALink ports. -/
inductive Arbiter where
  | dispatch | slice (i : Nat) | pch (c : Nat) | dieLink (i : Nat) | bellows (cu : Nat) | ualink (p : Nat)
  deriving DecidableEq, Repr

/-- A number for each arbiter. -/
def Arbiter.num : Arbiter → Nat
  | .dispatch => 0
  | .slice i => 1024 + i
  | .pch c => 2048 + c
  | .dieLink i => 3072 + i
  | .bellows cu => 4096 + cu
  | .ualink p => 5120 + p

def Arbiter.key (a : Arbiter) (v : Nat) : Nat := 64 * a.num + v

def Bucket.zero : Bucket := ⟨0, 0, 0⟩

def State.bucketAt (s : State) (a : Arbiter) (v : Nat) : Bucket := Assoc.get Bucket.zero (a.key v) s.buckets

def State.setBucket (s : State) (a : Arbiter) (v : Nat) (b : Bucket) : State :=
  { s with buckets := Assoc.put Bucket.zero (a.key v) b s.buckets }

/-- WEIGHT of a device (R50). -/
def State.vdWeight (s : State) (v : Nat) : Nat := field (s.regN (Reg.vdev v)) 24 8

/-- A device that has lent at the arbiter what covers n units (R76 step 4). -/
def State.lenderAt (s : State) (a : Arbiter) (v n : Nat) : Option Nat :=
  (List.range 64).find? fun u => u != v && decide (n ≤ (s.bucketAt a u).lent)

/-- The maintenance agents (R74). -/
inductive Maint where
  | copier | checkpoint | trace | scrubber
  deriving DecidableEq, Repr

/-- The agent that owns a cycle at each L2 slice and memory controller (R74). -/
def maintAt (now : Nat) : Option Maint :=
  let c := now % 4096
  if c % 1024 < 32 then some .copier
  else if c < 96 then some .checkpoint
  else if 1056 ≤ c && c < 1088 then some .trace
  else if 2080 ≤ c && c < 2112 then some .scrubber
  else none

/-- A maintenance agent's requests are admitted in its own cycles only (R74). -/
def State.inSlot (s : State) (m : Maint) : Bool := maintAt s.now == some m

/-- An arbiter at which the maintenance agents own cycles (R74). -/
def Arbiter.maintained : Arbiter → Bool
  | .slice _ | .pch _ => true
  | _ => false

/-- Device v is granted n units at an arbiter (R76): from its own balance, which withdraws what it had lent; else an idle
maintenance cycle, charged to no one, or from the pool. A grant that none of these covers is made in a later cycle (log entry 15). -/
def State.charge (s : State) (a : Arbiter) (v n : Nat) : State :=
  if 64 ≤ v then s
  else
    let b := s.bucketAt a v
    let s := { s with last := Assoc.put 64 a.num v s.last }
    if n ≤ b.bal then s.setBucket a v { b with bal := b.bal - n, lent := 0 }
    else if s.vdWeight v = 0 || (a.maintained && (maintAt s.now).isSome) then s
    else match s.lenderAt a v n with
      | some u =>
        let c := s.bucketAt a u
        s.setBucket a u { c with bal := c.bal - n, lent := c.lent - n }
      | none => s

/-! ### The address map (R11, R12, R24) -/

/-- The bytes of device memory: 96 GiB for each stack that bring-up left in. -/
def State.devTop (s : State) : Nat := 0x012000000000 - 0x1800000000 * s.excluded.length

/-- A root port's part of a space of four windows of 16 TiB, the first at `base` (R24). -/
def Root.part (r : Root) (base : Nat) : Nat × Nat :=
  (base + (r.num / 4) * 0x100000000000 + (r.num % 4) * 0x40000000000, (r.lanes / 4) * 0x40000000000)

/-- The root port whose part of such a space holds the address. -/
def rootAt (roots : List Root) (base a : Nat) : Option Root :=
  roots.find? fun r => decide ((r.part base).1 ≤ a) && decide (a < (r.part base).1 + (r.part base).2)

/-- A root port's part of the CXL windows holds the address (R24). -/
def inCxl (roots : List Root) (a : Nat) : Bool := (rootAt roots 0x400000000000 a).isSome

/-- An address that strands, engines and peers can reach. -/
def State.inMap (s : State) (a : Nat) : Bool := a < s.devTop || inCxl s.roots a

/-- An address in a root port's part of the host windows (R11, R24): the copier, the checkpoint writer and the migration engines
only. -/
def inHost (roots : List Root) (a : Nat) : Bool := (rootAt roots 0x800000000000 a).isSome

/-- The CXL window, of the four, that holds an address. -/
def cxlWindow (a : Nat) : Option Nat := if 0x400000000000 ≤ a && a < 0x800000000000 then some (a / 0x100000000000) else none

/-- An address that R11 lists for the copier, the checkpoint writer, the migration engines and root ports: device memory, a CXL
window, a host window. -/
def State.listed (s : State) (a : Nat) : Bool := s.inMap a || inHost s.roots a

/-- The device sends a message to the outside world. -/
def State.say (s : State) (m : Msg) : State := { s with out := m :: s.out }

/-! ### Bytes at the home slices -/

/-- What an unlisted byte reads as (log entry 2). -/
def byteDefault : Byte := 0

/-- A byte as the home slices hold it: an unspecified byte is a free value (R128). -/
def State.homeByte (s : State) (a : Nat) : Byte :=
  match s.fog.find? fun f => f.lo ≤ a && a < f.hi with
  | some f => if s.fogged.contains a then Assoc.get byteDefault a s.mem else Config.freeByte f.n a
  | none => Assoc.get byteDefault a s.mem

def State.homeBytes (s : State) (a n : Nat) : List Byte := (List.range n).map fun i => s.homeByte (a + i)

/-- Lines that n bytes at a touch. -/
def linesAt (a n : Nat) : List Nat := (List.range ((a + n + 127) / 128 - a / 128)).map fun i => a / 128 + i

/-- A request to a host window goes downstream by the root port whose part of the windows holds it (R11, R23). -/
def State.forward (s : State) (a : Nat) (op : MemOp) : State :=
  match rootAt s.roots 0x800000000000 a with
  | some r => s.say (.forward r.num a op)
  | none => s

/-- The n bytes at a of a host window, which have just been written, go to the host in writes of at most 512 bytes; `mem` keeps
the device's copy of them (R23, log entry 98). Elsewhere nothing is sent. -/
def State.hostPut (s : State) (a n : Nat) : State :=
  if !inHost s.roots a && !inHost s.roots (a + n - 1) then s
  else (List.range ((n + 511) / 512)).foldl (fun s i =>
    let k := min 512 (n - 512 * i)
    s.forward (a + 512 * i) (.write (s.homeBytes (a + 512 * i) k) (2 ^ k - 1))) s

/-- The n bytes at a of a host window are read from the host in reads of at most 4,096 bytes; they are those of the device's copy
(R23, log entry 98). -/
def State.hostGet (s : State) (a n : Nat) : State :=
  if !inHost s.roots a && !inHost s.roots (a + n - 1) then s
  else (List.range ((n + 4095) / 4096)).foldl (fun s i => s.forward (a + 4096 * i) (.read (min 4096 (n - 4096 * i)))) s

/-- A little-endian number at the home slices. -/
def State.homeNat (s : State) (a n : Nat) : Nat := ofLe (s.homeBytes a n)

/-- Writes one byte at the home slices. -/
def State.setHomeByte (s : State) (a : Nat) (b : Byte) : State :=
  { s with
    mem := Assoc.put byteDefault a b s.mem
    fogged := if (s.fog.any fun f => f.lo ≤ a && a < f.hi) && !s.fogged.contains a then a :: s.fogged else s.fogged }

def State.setHomeBytes (s : State) (a : Nat) : List Byte → State
  | [] => s
  | b :: l => (s.setHomeByte a b).setHomeBytes (a + 1) l

/-- A line as a number. -/
def State.homeLine (s : State) (line : Nat) : BitVec 1024 := BitVec.ofNat 1024 (s.homeNat (128 * line) 128)

/-- Bytes of a range become unspecified (R128). -/
def State.makeFog (s : State) (lo hi : Nat) : State :=
  { s with
    mem := s.mem.filter fun c => !(lo ≤ c.1 && c.1 < hi)
    fogged := s.fogged.filter fun a => !(lo ≤ a && a < hi)
    fog := ⟨lo, hi, s.fresh⟩ :: s.fog
    fresh := s.fresh + 1 }

/-! ### Banks (R128, R129) -/

/-- Pseudo-channels that are present: those of stacks bring-up left in (R13). -/
def State.presentPch (s : State) : List Nat := (List.range 768).filter fun c => !s.excluded.contains (c / 64)

/-- The windows in force, by partition. -/
def State.latched (s : State) : List Window := s.windows.filterMap fun w => w.2

def granule : Nat := 0x60000000

def Window.has (w : Window) (a : Nat) : Bool := w.base ≤ a && a < w.base + w.list.length * granule

/-- The hash of R129 for a line at an offset in a window: bank and row are its remainder and quotient by the number of
pseudo-channels. -/
def bankHash (off hmask : Nat) : Nat := let l := off / 128; l.xor ((l / 64).land hmask)

/-- Bank and row of an offset in a window of n pseudo-channels (R129). -/
def bankRow (off n hmask : Nat) : Nat × Nat := (bankHash off hmask % n, bankHash off hmask / n)

/-- The byte in the pseudo-channel of an offset in a window (R129). -/
def pchByte (off n hmask : Nat) : Nat := 128 * (bankRow off n hmask).2 + off % 128

/-- The pseudo-channels of the system set: present and named by no latched array, in increasing number. -/
def State.systemPch (s : State) : List Nat :=
  s.presentPch.filter fun c => !(s.latched.any fun w => w.list.contains c)

/-- The offset of an address in the system set: device memory outside every window, in increasing address. -/
def State.systemOff (s : State) (a : Nat) : Nat :=
  a - (s.latched.foldl (fun n w => if w.base + w.list.length * granule ≤ a then n + w.list.length * granule else n) 0)

/-- Where a device-memory address stands: the pseudo-channel and the byte in it (R128, R129). A granule of the system set is a
window of one pseudo-channel. -/
def State.pchPlace (s : State) (a : Nat) : Option (Nat × Nat) :=
  if s.devTop ≤ a then none
  else match s.latched.find? fun w => w.has a with
    | some w =>
      let n := w.list.length
      (w.list[(bankRow (a - w.base) n w.hmask).1]?).map fun c => (c, pchByte (a - w.base) n w.hmask)
    | none =>
      let off := s.systemOff a
      (s.systemPch[off / granule]?).map fun c => (c, pchByte (off % granule) 1 0x3F)

/-- The pseudo-channel that holds a device-memory address. -/
def State.pchOf (s : State) (a : Nat) : Option Nat := (s.pchPlace a).map fun p => p.1

/-- Another enabled device shares the partition of device v (R75). -/
def State.shared (s : State) (v : Nat) : Bool :=
  (List.range 64).any fun u => u != v && (s.reg (Reg.vdev u)).getLsbD 0 &&
    field (s.regN (Reg.vdev u)) 16 4 == field (s.regN (Reg.vdev v)) 16 4

/-- Counts one line read or written on a pseudo-channel for a master 0 to 63 (R369); a shared one is metered (R75). -/
def State.countPch (s : State) (m line : Nat) (wr : Bool) : State :=
  if 64 ≤ m then s
  else match s.pchOf (128 * line) with
    | some c =>
      let s := s.countReg (Reg.pch c + if wr then 8 else 0) 32
      if s.shared m then s.charge (.pch c) m 1 else s
    | none => s

/-! ### Poison and L2 tags (R14, R15, R79, R121 to R124) -/

def State.tagOf (s : State) (line : Nat) : Option L2Tag := s.l2.find? fun t => t.line == line

def State.poisoned (s : State) (line : Nat) : Bool :=
  match s.tagOf line with
  | some t => t.poison
  | none => s.poison.contains line

def State.setTag (s : State) (t : L2Tag) : State := { s with l2 := s.l2.map fun u => if u.line = t.line then t else u }

def setMember (l : List Nat) (x : Nat) (b : Bool) : List Nat :=
  if b then (if l.contains x then l else x :: l) else l.filter fun y => y != x

/-- Marks a line poisoned, or clears its poison, where the line stands. -/
def State.setPoison (s : State) (line : Nat) (b : Bool) : State :=
  match s.tagOf line with
  | some t => s.setTag { t with poison := b, dirty := true }
  | none => { s with poison := setMember s.poison line b }

/-- The set of a line (R123). -/
def l2Set (line : Nat) : Nat := (field line 8 9).xor (field line 17 9)

/-- The home slice of a line (R123). -/
def homeSlice (line : Nat) : Nat :=
  ((field line 0 8).xor ((field line 8 8).xor ((field line 16 8).xor ((field line 24 8).xor
    ((field line 32 8).xor (field line 40 1))))))

/-- Two lines share a set: of the 512 of their slice (R123). -/
def sameSet (a b : Nat) : Bool := homeSlice a == homeSlice b && l2Set a == l2Set b

/-- The data ways a device may allocate in (R50, R79). -/
def State.vdWays (s : State) (v : Nat) : List Nat :=
  if 64 ≤ v then [] else (List.range 24).filter fun w => (s.reg (Reg.vdev v + 0x10)).getLsbD w

/-- An evicted tag: a zero line writes zeros, which clears poison; a poisoned line goes back with its pattern (R15, R124). -/
def State.evict (s : State) (t : L2Tag) : State :=
  let s := { s with l2 := s.l2.filter fun u => u.line != t.line, poison := setMember s.poison t.line (t.poison && !t.zero) }
  if t.dirty || t.zero then s.countPch t.vd t.line true else s

/-- A dirty line of a critical stack is not evictable (R18). -/
def State.pinned (s : State) (t : L2Tag) : Bool :=
  (t.dirty || t.zero) && match s.pchOf (128 * t.line) with
    | some c => s.crit.contains (c / 64)
    | none => false

/-- Device v would allocate for the line and finds no evictable way (R18). -/
def State.noWay (s : State) (v line : Nat) : Bool :=
  let ways := s.vdWays v
  !s.crit.isEmpty && !ways.isEmpty &&
  ways.all fun w => s.l2.any fun t => sameSet t.line line && t.way == w && s.pinned t

/-- The stack of a line is critical. -/
def State.critLine (s : State) (line : Nat) : Bool :=
  match s.pchOf (128 * line) with
  | some c => s.crit.contains (c / 64)
  | none => false

/-- A request for the line that misses in the L2 waits: its stack is critical, or it finds no evictable way (R18). -/
def State.lineWaits (s : State) (m line : Nat) : Bool := (s.tagOf line).isNone && (s.critLine line || s.noWay m line)

/-- Frees a way of the set of a line among `ways`: a free one, or the victim least recently used. -/
def State.takeWay (s : State) (line : Nat) (ways : List Nat) : State × Option Nat :=
  let held := s.l2.filter fun t => sameSet t.line line
  match ways.find? fun w => !(held.any fun t => t.way == w) with
  | some w => (s, some w)
  | none =>
    match (held.filter fun t => ways.contains t.way && !s.pinned t).getLast? with
    | some t => (s.evict t, some t.way)
    | none => (s, none)

/-- Puts a tag at the most recently used end, or with streaming at the least recently used end (R121). -/
def State.pushTag (s : State) (t : L2Tag) (cp : Nat) : State :=
  { s with l2 := if cp = 1 then s.l2 ++ [t] else t :: s.l2 }

/-- One access of a line at its home slice for master m and device v under a cache policy (R121): the tags, the poison of a
fill, the line counters. -/
def State.touchL2 (s : State) (m line : Nat) (wr : Bool) (cp : Nat) : State :=
  let s := s.charge (.slice (homeSlice line)) m 1
  match s.tagOf line with
  | some t =>
    let t := { t with dirty := t.dirty || wr }
    if cp = 1 || cp = 3 then s.setTag t
    else { s with l2 := t :: s.l2.filter fun u => u.line != line }
  | none =>
    let ways := s.vdWays m
    if cp = 3 || ways.isEmpty then s.countPch m line wr
    else
      let s := s.countPch m line false
      let (s, w) := s.takeWay line ways
      match w with
      | some w => s.pushTag ⟨line, w, m, false, wr, s.poison.contains line⟩ cp
      | none => s

/-- Whether a line reads as zeros. -/
def State.lineIsZero (s : State) (line : Nat) : Bool := (s.homeBytes (128 * line) 128).all fun b => b == 0

/-- After a write of a line: a zero line that holds a non-zero byte takes a data way, or leaves the L2 (R124). -/
def State.fixZero (s : State) (m line : Nat) : State :=
  match s.tagOf line with
  | some t =>
    if t.zero && !s.lineIsZero line then
      let ways := s.vdWays m
      let s := { s with l2 := s.l2.filter fun u => u.line != line }
      if ways.isEmpty then { s.countPch m line true with poison := setMember s.poison line t.poison }
      else
        let (s, w) := s.takeWay line ways
        match w with
        | some w => s.pushTag ⟨line, w, m, false, true, t.poison⟩ 0
        | none => s
    else s
  | none => s

/-- A write of at most 128 bytes at its home slice: a partial write leaves poison (R15). -/
def State.homeWrite (s : State) (m a : Nat) (bytes : List Byte) (cp : Nat) : State :=
  let line := a / 128
  let last := (a + bytes.length - 1) / 128
  let s := s.touchL2 m line true cp
  let s := if last = line then s else s.touchL2 m last true cp
  let s := (s.setHomeBytes a bytes).fixZero m line
  if last = line then s else s.fixZero m last

/-- A read of at most 128 bytes at its home slice. -/
def State.homeRead (s : State) (m a n cp : Nat) : State × List Byte :=
  let s' := s.touchL2 m (a / 128) false cp
  (if (a + n - 1) / 128 = a / 128 then s' else s'.touchL2 m ((a + n - 1) / 128) false cp, s.homeBytes a n)

/-- ZLINE at the home slice (R75, R124, R329): the line becomes a zero line, and its poison is cleared. -/
def State.zeroLine (s : State) (m line : Nat) : State :=
  let s := (s.charge (.slice (homeSlice line)) m 1).setHomeBytes (128 * line) (List.replicate 128 0)
  match s.tagOf line with
  | some t => { s with l2 := { t with zero := true, dirty := true, poison := false } :: s.l2.filter fun u => u.line != line }
  | none =>
    let own := s.vdWays m
    if own.isEmpty then { s.countPch m line true with poison := setMember s.poison line false }
    else
      let (s, w) := s.takeWay line (own ++ [24, 25, 26, 27, 28, 29, 30, 31])
      match w with
      | some w => s.pushTag ⟨line, w, m, true, true, false⟩ 0
      | none => { s.countPch m line true with poison := setMember s.poison line false }

/-! ### Access tables (R131, R132) -/

/-- Whether master m may read or write the n bytes at a. -/
def State.admits (s : State) (m a n : Nat) (wr : Bool) : Bool :=
  let t := Reg.access m
  let parts := s.reg t
  (s.windows.any fun w => match w.2 with
    | some x => parts.getLsbD w.1 && x.has a && x.has (a + n - 1)
    | none => false) ||
  [0, 1, 2, 3].any fun k =>
    let b := (s.regN (t + 0x10 + 0x10 * k)) / 4096 * 4096
    let l := s.reg (t + 0x18 + 0x10 * k)
    let len := field l.toNat 0 48
    l.getLsbD (if wr then 63 else 62) && decide (b ≤ a) && decide (a + n ≤ b + len)

/-! ### Compute units: write-combining buffer and L1 (R120) -/

def State.cu (s : State) (k : Nat) : Cu := Assoc.get Cu.none k s.cus

def State.setCu (s : State) (k : Nat) (c : Cu) : State := { s with cus := Assoc.put Cu.none k c s.cus }

/-- The current incarnation of a context: its record's INCN (R52, R181). -/
def State.curIncn (s : State) (c : Nat) : Nat := field (s.homeNat (s.regN Reg.ctxtb + 32 * c + 2) 2) 0 11

/-- The written bytes of a buffered line, as (address, byte). -/
def WLine.cells (l : WLine) : List (Nat × Byte) :=
  (List.range 128).filterMap fun i =>
    if l.mask.getLsbD i then some (128 * l.line + i, l.data.extractLsb' (8 * i) 8) else none

/-- A buffered line written to L2 (R120): dropped and counted when its incarnation is no longer current (R182). -/
def State.writeBack (s : State) (l : WLine) : State :=
  if s.curIncn l.ctx ≠ l.incn then s.countReg Reg.stalecnt 32
  else
    let s := s.touchL2 l.vd l.line true l.cp
    (l.cells.foldl (fun s c => s.setHomeByte c.1 c.2) s).fixZero l.vd l.line

/-- A buffered line that cannot leave: it misses in the L2 while its stack is critical, or finds no evictable way (R18). -/
def State.stuck (s : State) (l : WLine) : Bool := s.curIncn l.ctx == l.incn && s.lineWaits l.vd l.line

/-- Empties the write-combining buffer of a CU, oldest line first (R120, R142); a line that cannot leave stays. -/
def State.drainWcb (s : State) (k : Nat) : State :=
  let c := s.cu k
  (c.wcb.filter fun l => !s.stuck l).foldl State.writeBack (s.setCu k { c with wcb := c.wcb.filter s.stuck })

/-- The oldest line that the write-combining buffer of a CU cannot drain. -/
def State.stuckLine (s : State) (k : Nat) : Option Nat := ((s.cu k).wcb.find? s.stuck).map fun l => l.line

/-- Clears a strand slot's presence bit in every L1 line of a CU (R120, R142); a line nobody holds is gone. -/
def clearPresence (c : Cu) (slot : Nat) : Cu :=
  { c with l1 := (c.l1.map fun l => { l with pres := setBit l.pres slot false }).filter fun l => l.pres != 0 }

/-- The bytes of a line as the loads of a strand read them: the buffer, then the strand's L1 copy, then the home slice. -/
def lineByte (c : Cu) (slot : Nat) (home : Nat → Byte) (a : Nat) : Byte :=
  match c.wcb.find? fun l => l.line == a / 128 && l.mask.getLsbD (a % 128) with
  | some l => l.data.extractLsb' (8 * (a % 128)) 8
  | none =>
    match c.l1.find? fun l => l.line == a / 128 && l.pres.getLsbD slot with
    | some l => l.data.extractLsb' (8 * (a % 128)) 8
    | none => home a

/-- A byte as a strand's loads read it. -/
def State.viewByte (s : State) (cu slot a : Nat) : Byte := lineByte (s.cu cu) slot s.homeByte a

/-- How many lines an L1 holds under a split (R61, R118): 768, 1,024 or 1,280 KiB. -/
def l1Lines (split : Option Nat) : Nat :=
  match split with
  | some 0 => 6144 | some 1 => 8192 | some 2 => 10240 | _ => 8192

/-- A line as the CU would hold it: that of the home slice, under the bytes its write-combining buffer still holds (R120). -/
def State.lineFor (s : State) (c : Cu) (line : Nat) : BitVec 1024 :=
  match c.wcb.find? fun l => l.line == line with
  | some l => l.cells.foldl (fun v x => setElem 8 v (x.1 % 128) x.2.toNat) (s.homeLine line)
  | none => s.homeLine line

/-- Fills a line of an L1 for a strand slot; a full L1 loses a line (Config.freeVictim). -/
def State.fillL1 (s : State) (k slot line : Nat) : State :=
  let c := s.cu k
  let data := s.lineFor c line
  match c.l1.find? fun l => l.line == line with
  | some l => s.setCu k { c with l1 := c.l1.map fun u =>
      if u.line = line then { l with data := data, pres := setBit l.pres slot true } else u }
  | none =>
    let full := decide (l1Lines c.split ≤ c.l1.length)
    let l1 := if full then c.l1.eraseIdx (Config.freeVictim s.fresh % c.l1.length) else c.l1
    let s := s.setCu k { c with l1 := ⟨line, data, setBit 0 slot true⟩ :: l1 }
    if full then { s with fresh := s.fresh + 1 } else s

/-- A load of n bytes inside one line by a strand of a CU (R120, R121). With `once` it is one element's of a vector load word, whose
elements in one line make one read request (R370). -/
def State.cuRead (s : State) (m k slot a n cp : Nat) (sync once : Bool) : State × List Byte :=
  let line := a / 128
  let bytes := (List.range n).map fun i => s.viewByte k slot (a + i)
  let c := s.cu k
  if (c.l1.any fun l => l.line == line && l.pres.getLsbD slot) || (once && s.asked.contains line) then (s, bytes)
  else
    let s := s.touchL2 m line false cp
    let s := if once then { s with asked := line :: s.asked } else s
    (if cp = 0 && !sync then s.fillL1 k slot line else s, bytes)

/-- Bytes written into a line's data and mask. -/
def WLine.put (l : WLine) (a : Nat) : List Byte → WLine
  | [] => l
  | b :: bs =>
    let i := a % 128
    ({ l with mask := setBit l.mask i true, data := setElem 8 l.data i b.toNat } : WLine).put (a + 1) bs

/-- L1 copies of a CU take the bytes its stores write (R120). -/
def L1Line.put (l : L1Line) (a : Nat) : List Byte → L1Line
  | [] => l
  | b :: bs => ({ l with data := setElem 8 l.data (a % 128) b.toNat } : L1Line).put (a + 1) bs

/-- A store of bytes inside one line by a strand of a CU: into the write-combining buffer, which updates any L1 copy. It may then
hold more than it should: `settleWcb` lets lines out. -/
def State.cuWrite (s : State) (m ctx incn k a cp : Nat) (bytes : List Byte) : State :=
  let line := a / 128
  let c := s.cu k
  let c : Cu := { c with l1 := c.l1.map fun (l : L1Line) => if l.line = line then l.put a bytes else l }
  let old := c.wcb.find? fun l => l.line == line
  let same := match old with
    | some l => l.ctx == ctx && l.incn == incn && l.vd == m
    | none => false
  -- another context's bytes of the line go out first
  let (s, c) := match old with
    | some l => if same then (s, c) else (s.writeBack l, { c with wcb := c.wcb.filter fun l => l.line != line })
    | none => (s, c)
  let w := match (if same then old else none) with
    | some l => { l.put a bytes with cp := cp }
    | none => (⟨line, 0, 0, m, ctx, incn, s.now, cp⟩ : WLine).put a bytes
  let rest := c.wcb.filter fun l => l.line != line
  s.setCu k { c with wcb := if same then c.wcb.map (fun (l : WLine) => if l.line = line then w else l) else rest ++ [w] }

/-- A line enters a write-combining buffer that holds the lines of `x`: a full buffer sends out the oldest that can go, and a line
that is full leaves at once (R18, R120, R370). -/
def State.enterWcb (x : State × List WLine) (l : WLine) : State × List WLine :=
  let (s, held) : State × List WLine := match if 16 ≤ x.2.length then x.2.find? fun o => !x.1.stuck o else none with
    | some o => (x.1.writeBack o, x.2.filter fun (u : WLine) => u.line != o.line)
    | none => x
  if l.mask = BitVec.allOnes 128 && !s.stuck l then (s.writeBack l, held) else (s, held ++ [l])

/-- The lines of a CU's write-combining buffer take their places, after a scalar store or after a vector word, the bytes of which
in one line enter together (R370). -/
def State.settleWcb (s : State) (k : Nat) : State :=
  let (s, held) := (s.cu k).wcb.foldl State.enterWcb (s, [])
  s.setCu k { s.cu k with wcb := held }

/-- A CU's buffered bytes of a line go out before an access at the home slice (R120: the buffer is of one CU; an atomic of
its strand performs at the home slice after its own older stores, R141 row 1). -/
def State.flushLine (s : State) (k line : Nat) : State :=
  let c := s.cu k
  match c.wcb.find? fun l => l.line == line with
  | some l => (s.setCu k { c with wcb := c.wcb.filter fun l => l.line != line }).writeBack l
  | none => s

/-- L1 copies of a CU take bytes that one of its strands has written at the home slice. -/
def State.patchL1 (s : State) (k a : Nat) (bytes : List Byte) : State :=
  let c := s.cu k
  let n := 128 - a % 128
  s.setCu k { c with l1 := c.l1.map fun (l : L1Line) =>
    if l.line = a / 128 then l.put a (bytes.take n)
    else if l.line = a / 128 + 1 then l.put (a + n) (bytes.drop n) else l }

end Sys2Proof.Machine
end

