-- ==== Sys2Proof/Machine/Slots.lean ====
section
/-! DEFINITION. Relocation slots (spec 06, 15): descriptors, the checks of R106 in their order, and the accesses of the
strand whose turn it is. -/

namespace Sys2Proof.Machine

/-! ### Descriptors (R103, R109) -/

namespace Desc

def gen (d : Desc) : BitVec 16 := d.w0.extractLsb' 48 16
def base (d : Desc) : Nat := field d.w0.toNat 0 48
def limit (d : Desc) : Nat := field d.w1.toNat 0 48
def scoff (d : Desc) : Nat := field d.w3.toNat 0 48
def state (d : Desc) : Nat := field d.w2.toNat 61 3
def perm (d : Desc) : BitVec 3 := d.w2.extractLsb' 56 3
def cp (d : Desc) : Nat := field d.w2.toNat 54 2
def sync (d : Desc) : Bool := d.w2.getLsbD 53
def home (d : Desc) : Nat := field d.w2.toNat 51 2
def lease (d : Desc) : Nat := field d.w2.toNat 40 8
def blk (d : Desc) : Nat := 16 * 2 ^ field d.w2.toNat 3 2
def kind (d : Desc) : Nat := field d.w2.toNat 0 3

end Desc

/-- The descriptor in memory of a slot of a table (R103); its read meets poison when its line is poisoned. -/
def State.memDesc (s : State) (slottb : Nat) (slot : Nat) : Desc :=
  let a := slottb + 32 * slot
  let w := fun k => BitVec.ofNat 64 (s.homeNat (a + 8 * k) 8)
  ⟨slot, w 0, w 1, w 2, w 3, s.poisoned (a / 128)⟩

/-- The strand's current version of a descriptor: cached, or read and cached; a full cache loses an entry (R109). -/
def State.desc (s : State) (slot : Nat) : State × Desc :=
  match s.me.dcache.find? fun d => d.slot == slot with
  | some d => (s, d)
  | none =>
    let d := s.memDesc s.me.slottb.toNat slot
    let s := s.touchL2 s.me.vd ((s.me.slottb.toNat + 32 * slot) / 128) false 0
    let full := decide (16 ≤ s.me.dcache.length)
    let old := if full then s.me.dcache.eraseIdx (Config.freeVictim s.fresh % s.me.dcache.length) else s.me.dcache
    ({ s with me := { s.me with dcache := d :: old }, fresh := if full then s.fresh + 1 else s.fresh }, d)

/-! ### Leases (R133) -/

/-- A lease entry as a 256-bit number. -/
def State.leaseEntry (s : State) (a : Nat) : Nat :=
  s.regN a + s.regN (a + 8) * 2 ^ 64 + s.regN (a + 16) * 2 ^ 128 + s.regN (a + 24) * 2 ^ 192

namespace Lease

def peer (e : Nat) : Nat := field e 0 12
def state (e : Nat) : Nat := field e 16 2
def canRead (e : Nat) : Bool := e.testBit 24
def canWrite (e : Nat) : Bool := e.testBit 25
def policy (e : Nat) : Bool := e.testBit 26
def lgen (e : Nat) : Nat := field e 32 16
def idx (e : Nat) : Nat := field e 48 8
def base (e : Nat) : Nat := field e 64 48
def len (e : Nat) : Nat := field e 128 48
def revto (e : Nat) : Nat := field e 192 32

end Lease

def State.borrower (s : State) (i : Nat) : Nat := s.leaseEntry (Reg.borrower i)
def State.lender (s : State) (i : Nat) : Nat := s.leaseEntry (Reg.lender i)

/-! ### The checks of R106 -/

/-- What an access does: the rights it needs (R106 step 6). -/
structure Rights where
  rd : Bool
  wr : Bool
  ex : Bool
  deriving DecidableEq, Repr

def rdOnly : Rights := ⟨true, false, false⟩
def wrOnly : Rights := ⟨false, true, false⟩
def rdWr : Rights := ⟨true, true, false⟩
def exOnly : Rights := ⟨false, false, true⟩

/-- A place as a number: the key of `Xfer.before` and of `Older`. -/
def Loc.key : Loc → Nat
  | .mem a => a
  | .share o => 2 ^ 48 + o
  | .cushare o => 2 ^ 49 + o
  | .peer i a => 2 ^ 50 * (i + 1) + a

def Loc.isMem : Loc → Bool
  | .mem _ => true
  | _ => false

def Loc.isPeer : Loc → Bool
  | .peer _ _ => true
  | _ => false

/-- The outcome of R106; `lease` names the borrower entry that a waiting request goes through. -/
inductive Chk where
  | ok (l : Loc)
  | fault (c : Cause)
  | wait (w : WaitWhy) (line lease : Nat)
  deriving DecidableEq, Repr

/-- A descriptor bad for an access (R104). -/
def descBad (s : State) (d : Desc) (fmt : Bool) : Bool :=
  let e := s.borrower d.lease
  decide (5 ≤ d.state) || decide (3 ≤ d.kind) ||
  ((d.state == 1 || d.state == 2) && decide (2 ^ 48 < d.base + d.limit)) ||
  (d.kind != 0 && (d.scoff % 2 == 1 || decide (d.limit < d.scoff))) ||
  (fmt && d.kind == 0) ||
  (d.state == 3 && (Lease.state e == 0 || decide (Lease.len e < d.base + d.limit)))

/-- The byte offset an access touches: for T = 7 that of the byte which holds the element (R107). -/
def byteOff (d : Desc) (fmt : Bool) (off : Int) : Int := if fmt && d.kind == 2 then off / 2 else off

/-- The n bytes at a lie where strands and engines may reach (R11): device memory, or a part of a CXL window in which the slot's
BASE lies. -/
def State.reaches (s : State) (base a n : Nat) : Bool :=
  s.inMap a && s.inMap (a + n - 1) && (!inCxl s.roots a || cxlWindow base == cxlWindow a)

/-- Steps 1 to 9 of R106 for the n bytes of an access of master m. `kib` is the size of the strand's and of the CU's
share. `fmt` is T = 7. -/
def State.route (s : State) (m : Nat) (kib : Nat × Nat) (rt : Rights) (r : Ref) (d : Desc) (n : Nat) (fmt : Bool) : Chk :=
  let n := if fmt then 1 else n
  if r.slot = 255 || r.slot = 252 then .fault .slotbad
  else if r.slot = 253 || r.slot = 254 then
    let lim := (if r.slot = 254 then kib.1 else kib.2) * 1024
    if fmt then .fault .slotbad
    else if !r.tagOk then .fault .bounds
    else if rt.ex then .fault .perm
    else if r.off % n ≠ 0 then .fault .align
    else if r.off < 0 || (lim : Int) < r.off + n then .fault .bounds
    else .ok (if r.slot = 254 then .share r.off.toNat else .cushare r.off.toNat)
  else
    let e := s.borrower d.lease
    let leased := d.state == 3
    let off := byteOff d fmt r.off
    let addr := (d.base : Int) + off
    if d.bad || descBad s d fmt then .fault .slotbad
    else if !r.tagOk then .fault .bounds
    else if d.state = 0 then .fault .slotabsent
    else if d.state = 4 || (leased && Lease.state e == 3) then .fault .leaserevoked
    else if d.state = 2 then .wait .moving (addr.toNat / 128) d.lease
    else if leased && Lease.state e == 2 then .wait .revoking ((Lease.base e + addr.toNat) / 128) d.lease
    else if (rt.rd && !d.perm.getLsbD 0) || (rt.wr && !d.perm.getLsbD 1) || (rt.ex && !d.perm.getLsbD 2) ||
        (leased && ((rt.rd && !Lease.canRead e) || (rt.wr && !Lease.canWrite e) || rt.ex)) then .fault .perm
    else if !fmt && r.off % n ≠ 0 then .fault .align
    else if off < 0 || (d.limit : Int) < off + n || (fmt && (d.scoff : Int) ≤ off) then .fault .bounds
    else if leased then .ok (.peer d.lease (Lease.base e + addr.toNat))
    else if !s.reaches d.base addr.toNat n || !s.admits m addr.toNat n rt.wr then .fault .targetrefuse
    else .ok (.mem addr.toNat)

/-- A read or a fetch of the n bytes at a would consume a byte of a poisoned line (R106 step 10). -/
def State.eatsPoison (s : State) (rt : Rights) (a n : Nat) : Bool :=
  (rt.rd || rt.ex) && (s.poisoned (a / 128) || s.poisoned ((a + n - 1) / 128))

/-- A line of the n bytes at a that a request of master m would wait for (R18). -/
def State.hotLine (s : State) (m a n : Nat) : Option Nat := [a / 128, (a + n - 1) / 128].find? fun l => s.lineWaits m l

/-- Steps 1 to 10 of R106, and the wait for a critical stack (R18), for a request to the home slices. -/
def State.check (s : State) (m : Nat) (kib : Nat × Nat) (rt : Rights) (r : Ref) (d : Desc) (n : Nat) (fmt : Bool) : Chk :=
  match s.route m kib rt r d n fmt with
  | .ok (.mem a) =>
    let k := if fmt then 1 else n
    match s.hotLine m a k with
    | some line => .wait .critical line d.lease
    | none => if s.eatsPoison rt a k then .fault .poison else .ok (.mem a)
  | x => x

/-- What a fault of R106 reports (R166, R173). -/
structure Hit where
  cause : Cause
  info  : Word
  gen   : BitVec 16
  deriving DecidableEq, Repr

/-- TINFO of causes 0x20 to 0x28 and 0x3B: slot and byte offset (R166). -/
def slotInfo (slot : Nat) (off : Int) : Word :=
  BitVec.ofNat 8 slot ++ 0#8 ++ BitVec.ofInt 48 off

def hitOf (c : Cause) (r : Ref) (d : Desc) (fmt : Bool) : Hit := ⟨c, slotInfo r.slot (byteOff d fmt r.off), d.gen⟩

/-! ### Access by the strand whose turn it is -/

/-- An access: done with a value; stopped by a fault; or waiting in a replay queue. -/
inductive Ans (α : Type) where
  | ok (s : State) (a : α)
  | fault (s : State) (h : Hit)
  | wait (s : State)

/-- The reference of a memory operand (R102, R317): SL form, or the slot pointer of A. -/
def refOf (sl : BitVec 8) (a : Word) (disp : Int) : Ref :=
  if sl = 255 then
    ⟨(a.extractLsb' 56 8).toNat, a.extractLsb' 48 8 = 0, (a.extractLsb' 0 48).toNat + disp⟩
  else ⟨sl.toNat, true, a.toInt + disp⟩

/-- The reference of a slot pointer (R102, R348). -/
def refPtr (a : Word) (disp : Int) : Ref := refOf 255 a disp

/-- The descriptor an access uses; windows and slot numbers without one use none (R105). -/
def State.descFor (s : State) (slot : Nat) : State × Desc :=
  if 252 ≤ slot then (s, ⟨slot, 0, 0, 0, 0, false⟩) else s.desc slot

/-- The strand as a requester: for the word its chanter stands on, or for its oldest pending item. -/
def Strand.who (k : Strand) (vec : Bool) : Who :=
  ⟨if vec then .pending ((k.pend.head?.map fun p => p.seq).getD k.seq) else .chanter k.seq, k.vd, k.ctx, k.incn, k.imgidx⟩

/-- Requests that the replay queue of a slice holds (R113). -/
def State.queued (s : State) (slice : Nat) : Nat :=
  (s.replay.filter fun w => homeSlice w.line == slice).length +
    (s.partq.filter fun p => p.at' == .queue && homeSlice p.line == slice).length

/-- A request waits in the replay queue of its slice; where that holds 256, at its requester, which tries again (R113). -/
def State.enqueue (s : State) (w : Waiting) : State :=
  if 256 ≤ s.queued (homeSlice w.line) then s else { s with replay := s.replay ++ [w] }

/-- The access of the strand through a slot waits. -/
def State.waitFor (s : State) (why : WaitWhy) (line lease slot : Nat) (gen : BitVec 16) (off : Int) (vec wr : Bool) : State :=
  s.enqueue ⟨line, why, s.me.who vec, lease, slot, gen, off, s.now, wr, false, 0, 0⟩

/-- A requester is a word of the strand. -/
def Strand.asks (k : Strand) (w : Who) : Bool :=
  w.vd == k.vd && w.imgidx == k.imgidx && w.ctx == k.ctx && w.incn == k.incn && match w.ask with
    | .chanter _ | .pending _ => true
    | _ => false

/-- Requests that wait for a machine which acts in turns that are presented: they hold up no other (log entry 89). -/
def Waiting.apart (w : Waiting) : Bool :=
  match w.who.ask with
  | .mig _ | .agent _ => true
  | _ => false

/-- The request has been released, and no older released one of its slice waits (R113). -/
def State.ready (s : State) (w : Waiting) : Bool :=
  w.go && (w.apart || s.replay.find? (fun o => o.go && !o.apart && homeSlice o.line == homeSlice w.line) == some w)

/-- A request of `who` to a peer is outstanding. -/
def State.peerPending (s : State) (w : Who) : Bool := (s.sendq ++ s.ports.flatMap fun p => p.2).any fun r => r.who == w

/-- A request of `who` waits: in a replay queue, or for a lender. -/
def State.heldBy (s : State) (who : Who) : Bool := (s.replay.any fun w => w.who == who && !s.ready w) || s.peerPending who

/-- The requester tries again: its released request translates again (R113, R114). -/
def State.retryBy (s : State) (who : Who) : State := { s with replay := s.replay.filter fun w => !(w.who == who) }

/-- A request of the strand's vector unit, or of its chanter, waits. -/
def State.replayHeld (s : State) (vec : Bool) : Bool := s.heldBy (s.me.who vec)

/-- The strand's word tries again. -/
def State.retrying (s : State) (vec : Bool) : State := s.retryBy (s.me.who vec)

/-- A word that waits leaves nothing but its request. -/
def State.keepWait (s s' : State) : State := { s with replay := s'.replay, sendq := s'.sendq }

/-- The strand's words stop: their waiting requests go, and the answers they have not taken. An atomic that the lender has
performed for a convoy keeps its answer for when the convoy runs again. -/
def State.dropWaits (s : State) : State :=
  { s with
    replay := s.replay.filter fun w => !s.me.asks w.who
    peerIn := s.peerIn.filter fun x => !s.me.asks x.who || match x.who.ask, x.op with
      | .pending _, .atomic _ _ _ _ => true
      | _, _ => false }

/-- The strand's own waiting request, the newest, with its word or its element filled in. -/
def State.markWait (s : State) (f : Waiting → Waiting) : State :=
  { s with replay := match s.replay.getLast? with
      | some w => if w.who = s.me.who true then s.replay.dropLast ++ [f w] else s.replay
      | none => [] }

/-- A debugger's watch covers a byte of the access (R208, R209). -/
def State.watched (s : State) (rt : Rights) (slot : Nat) (off : Int) (n : Nat) : Bool :=
  let b := Reg.dbg s.me.vd
  let w := s.reg (b + 0x20)
  let lo : Int := field (s.regN (b + 0x10)) 0 48
  let hi : Int := field (s.regN (b + 0x18)) 0 48
  s.me.dbgctl.getLsbD 2 && decide (lo < hi) && field w.toNat 0 8 == slot &&
  ((rt.rd && w.getLsbD 8) || (rt.wr && w.getLsbD 9)) && decide (off < hi) && decide (lo < off + n)

/-- A breakpoint of the strand's device is armed at an offset of slot 0 (R208, R209). -/
def State.brkAt (s : State) (pc : Word) : Bool :=
  let b := Reg.dbg s.me.vd
  s.me.dbgctl.getLsbD 1 && [0, 8].any fun o =>
    (s.reg (b + o)).getLsbD 0 && field (s.regN (b + o)) 3 45 * 8 == pc.toNat

/-- Two requesters are one: a strand's words share its chanter, its pending items its vector unit. -/
def Who.same (a b : Who) : Bool :=
  a.vd == b.vd && a.imgidx == b.imgidx && match a.ask, b.ask with
    | .chanter _, .chanter _ => true
    | .pending _, .pending _ => true
    | x, y => x == y

/-- A request of `who` through borrower entry i to the lender's address a: its answer, taken; with none yet, the request goes to
the UALink ports unless one is outstanding, and the access waits (R29, R134). Answers to an older word of the requester go. -/
def State.askPeer (s : State) (w : Who) (i a : Nat) (op : MemOp) : State × Option PeerAns :=
  match s.peerIn.find? fun x => x.who == w && x.entry == i && x.addr == a && x.op == op with
  | some x => ({ s with peerIn := s.peerIn.erase x }, some x.ans)
  | none =>
    if s.peerPending w then (s, none)
    else
      let e := s.borrower i
      ({ s with
          sendq := s.sendq ++ [⟨w, i, Lease.peer e, Lease.idx e, Lease.lgen e, a, op, false, false⟩]
          peerIn := s.peerIn.filter fun x => !(Who.same x.who w) || x.who == w }, none)

/-- Requests of `who` to peers, by borrower entry, address and operation: their answers once all have come. -/
def State.askAll (s : State) (w : Who) : List (Nat × Nat × MemOp) → State × Option (List PeerAns)
  | [] => (s, some [])
  | (i, a, op) :: l => match s.askPeer w i a op with
    | (s, none) => (s, none)
    | (s, some x) => ((s.askAll w l).1, (s.askAll w l).2.map fun t => x :: t)

/-- The cause of an answer that brings no data. -/
def PeerAns.cause : PeerAns → Option Cause
  | .data _ => none
  | .error => some .leaserevoked
  | .poison => some .poison
  | .down _ => some .targetrefuse

/-- What an answer brings: data, or a fault (R33, R134, R136); that of a port that went down names the port. -/
def PeerAns.got (x : PeerAns) (r : Ref) (d : Desc) (fmt : Bool) : Except Hit (List Byte) :=
  match x with
  | .data b => .ok b
  | .error => .error (hitOf .leaserevoked r d fmt)
  | .poison => .error (hitOf .poison r d fmt)
  | .down p => .error ⟨.targetrefuse, BitVec.ofNat 64 p, d.gen⟩

/-- A request of the strand to a peer, and what comes of it. -/
def State.callPeer (s : State) (vec : Bool) (i a : Nat) (op : MemOp) (r : Ref) (d : Desc) (fmt : Bool) : Ans (List Byte) :=
  match s.askPeer (s.me.who vec) i a op with
  | (s, none) => .wait s
  | (s, some x) => match x.got r d fmt with
    | .ok b => .ok s b
    | .error h => .fault s h

/-- The CU itself serves a load of the bytes: its write-combining buffer and the strand's L1 line hold them (R120), so that no
request goes to the L2. -/
def State.cuHolds (s : State) (a n : Nat) : Bool :=
  let c := s.cu s.me.cu
  (List.range n).all fun i =>
    let b := a + i
    (c.wcb.any fun l => l.line == b / 128 && l.mask.getLsbD (b % 128)) ||
      c.l1.any fun l => l.line == b / 128 && l.pres.getLsbD s.me.slot

/-- A merge part of the strand on one of the n bytes at a has not performed: a later access of the bytes waits for it, but for a
load of the chanter (R141 rows 1 and 1y, R151). -/
def State.mergeWaits (s : State) (a n : Nat) : Bool :=
  s.partq.any fun w => w.ctx == s.me.ctx && w.incn == s.me.incn && w.imgidx == s.me.imgidx && (List.range n).any fun i =>
    w.line == (a + i) / 128 && w.part.mask.getLsbD ((a + i) % 128)

/-- The line of a descriptor that the strand must read and whose read waits for a critical stack (R18, R109). -/
def State.descWaits (s : State) (slot : Nat) : Option Nat :=
  if 252 ≤ slot || s.me.dcache.any fun d => d.slot == slot then none
  else s.hotLine s.me.vd (s.me.slottb.toNat + 32 * slot) 32

/-- Checks one access of the strand: every cause of R106 comes before a watch hit (R210). `sup` suppresses the watch. An access
whose request a lender has answered goes on though its lease is being revoked: it has been sent (R135). -/
def State.probe (s : State) (rt : Rights) (r : Ref) (n : Nat) (fmt vec sup : Bool) : Ans (Loc × Desc) :=
  match s.descWaits r.slot with
  | some line => .wait (s.waitFor .critical line 0 r.slot 0 r.off vec rt.wr)
  | none =>
    let (s, d) := s.descFor r.slot
    let k := if fmt then 1 else n
    let off := byteOff d fmt r.off
    let pass := fun (l : Loc) =>
      if !sup && s.watched rt r.slot off k then Ans.fault s (hitOf .watch r d fmt) else .ok s (l, d)
    match s.route s.me.vd (s.me.strshare, s.me.cushare) rt r d n fmt with
    | .fault c => .fault s (hitOf c r d fmt)
    | .wait w line lease =>
      let a := Lease.base (s.borrower lease) + ((d.base : Int) + off).toNat
      if w = .revoking && s.peerIn.any fun x => x.who == s.me.who vec && x.entry == lease && x.addr == a then pass (.peer lease a)
      else .wait (s.waitFor w line lease r.slot d.gen off vec rt.wr)
    | .ok (.mem a) =>
      (match (if rt.rd && !rt.wr && s.cuHolds a k then none else s.hotLine s.me.vd a k) with
       | some line => .wait (s.waitFor .critical line 0 r.slot d.gen off vec rt.wr)
       | none =>
         if (vec || rt.wr) && s.mergeWaits a k then .wait s
         else if s.eatsPoison rt a k then .fault s (hitOf .poison r d fmt) else pass (.mem a))
    | .ok l => pass l

/-- The policy of an access: CH 0 takes the slot's CP (R121). -/
def policyOf (ch : BitVec 2) (d : Desc) : Nat := if ch = 0 then d.cp else ch.toNat

/-- The share of a device's CU index (R375). -/
def CuShare.of (x : CuShare) (vd : Nat) (u : Option Nat) : Bool := x.vd == vd && some x.idx == u

/-- The CU share that the strand carries. -/
def State.cuShareBytes (s : State) : List Host.Cell :=
  match (s.cu s.me.cu).shares.find? fun x => x.of s.me.vd s.me.cuidx with
  | some x => x.bytes
  | none => []

def State.setCuShare (s : State) (f : List Host.Cell → List Host.Cell) : State :=
  let c := s.cu s.me.cu
  s.setCu s.me.cu { c with shares := c.shares.map fun x => if x.of s.me.vd s.me.cuidx then { x with bytes := f x.bytes } else x }

def cellsRead (l : List Host.Cell) (off n : Nat) : List Byte := (List.range n).map fun i => Assoc.get byteDefault (off + i) l

def cellsWrite (l : List Host.Cell) (off : Nat) : List Byte → List Host.Cell
  | [] => l
  | b :: bs => cellsWrite (Assoc.put byteDefault off b l) (off + 1) bs

/-- How many of n bytes at a lie in the line of a: all of them, unless BASE is not aligned to the access. -/
def lineRoom (a n : Nat) : Nat := min n (128 - a % 128)

/-- Reads n bytes where a checked access goes (R120, R121, R134), with `vec` for an element of a vector word (R370). -/
def State.readLoc (s : State) (l : Loc) (r : Ref) (d : Desc) (n : Nat) (fmt vec : Bool) (ch : BitVec 2) : Ans (List Byte) :=
  match l with
  | .share off => .ok s (cellsRead s.me.share off n)
  | .cushare off => .ok s (cellsRead s.cuShareBytes off n)
  | .mem a =>
    let k := lineRoom a n
    let (s, b) := s.cuRead s.me.vd s.me.cu s.me.slot a k (policyOf ch d) d.sync vec
    if k = n then .ok s b
    else
      let (s, c) := s.cuRead s.me.vd s.me.cu s.me.slot (a + k) (n - k) (policyOf ch d) d.sync vec
      .ok s (b ++ c)
  | .peer i a => s.callPeer vec i a (.read n) r d fmt

/-- Writes bytes where a checked access of the device's own memories goes. -/
def State.writeLoc (s : State) (l : Loc) (cp : Nat) (bytes : List Byte) : State :=
  match l with
  | .share off => s.onMe fun k => { k with share := cellsWrite k.share off bytes }
  | .cushare off => s.setCuShare fun b => cellsWrite b off bytes
  | .mem a =>
    let k := lineRoom a bytes.length
    let s := s.cuWrite s.me.vd s.me.ctx s.me.incn s.me.cu a cp (bytes.take k)
    if k = bytes.length then s else s.cuWrite s.me.vd s.me.ctx s.me.incn s.me.cu (a + k) cp (bytes.drop k)
  | .peer _ _ => s

/-- The write-combining buffer has no line for the store and none that can leave: that of its oldest one (R18, R120). -/
def State.wcbFull (s : State) (a : Nat) : Option Nat :=
  let c := s.cu s.me.cu
  if (c.wcb.filter s.stuck).length < 16 || (c.wcb.any fun l => l.line == a / 128) then none
  else c.wcb.head?.map fun l => l.line

/-- A store of bytes where a checked access goes (R120, R134). -/
def State.storeLoc (s : State) (l : Loc) (r : Ref) (d : Desc) (cp : Nat) (fmt vec : Bool) (bytes : List Byte) : Ans Unit :=
  match l with
  | .peer i a => match s.callPeer vec i a (.write bytes (2 ^ bytes.length - 1)) r d fmt with
    | .ok s _ => .ok s ()
    | .fault s h => .fault s h
    | .wait s => .wait s
  | .mem a => (match s.wcbFull a with
    | some line => .wait (s.waitFor .critical line 0 r.slot d.gen r.off vec true)
    | none => .ok (s.writeLoc l cp bytes) ())
  | l => .ok (s.writeLoc l cp bytes) ()

/-- Where an access of the strand would go, none where it would not be performed. -/
def State.placeOf (s : State) (r : Ref) (n : Nat) (fmt : Bool) : Option Loc :=
  match s.route s.me.vd (s.me.strshare, s.me.cushare) ⟨false, false, false⟩ r (s.descFor r.slot).2 n fmt with
  | .ok l => some l
  | _ => none

/-- A load of n bytes by reference (R321): the bytes with the descriptor used. -/
def State.load (s : State) (r : Ref) (n : Nat) (fmt vec sup : Bool) (ch : BitVec 2) : Ans (List Byte × Desc) :=
  match s.probe rdOnly r n fmt vec sup with
  | .fault s h => .fault s h
  | .wait s => .wait s
  | .ok s (l, d) =>
    match s.readLoc l r d (if fmt then 1 else n) fmt vec ch with
    | .ok s b => .ok s (b, d)
    | .fault s h => .fault s h
    | .wait s => .wait s

/-- The code of T = 7 in a byte (R107): the decoded value, and whether it was the reserved code. -/
def decodeFmt (d : Desc) (off : Int) (b : Byte) : Int × Bool :=
  if d.kind = 2 then
    let c := toSigned 4 (if off % 2 = 0 then field b.toNat 0 4 else field b.toNat 4 4)
    if c = -8 then (-7, true) else (c, false)
  else
    let c := b.toInt
    if c = -128 then (-127, true) else (c, false)

/-- The clamped code of a T = 7 store, and whether the clamp changed the value (R108). -/
def encodeFmt (d : Desc) (v : Int) : Int × Bool := if d.kind = 2 then clamp v (-7) 7 else clamp v (-127) 127

/-- A byte with one nibble replaced (R108). -/
def putNibble (b : Byte) (off : Int) (c : Int) : Byte :=
  if off % 2 = 0 then BitVec.ofNat 8 (b.toNat / 16 * 16 + wrapNat 4 c) else BitVec.ofNat 8 (b.toNat % 16 + 16 * wrapNat 4 c)

/-- Reads bytes at the home slice under a cache policy, after the CU's own older stores to the line (atomics, R323; nibbles,
R108). -/
def State.homeLoc (s : State) (l : Loc) (n cp : Nat) : State × List Byte :=
  match l with
  | .share off => (s, cellsRead s.me.share off n)
  | .cushare off => (s, cellsRead s.cuShareBytes off n)
  | .mem a =>
    let s := (s.flushLine s.me.cu (a / 128)).flushLine s.me.cu ((a + n - 1) / 128)
    s.homeRead s.me.vd a n cp
  | .peer _ _ => (s, [])

/-- Writes bytes at the home slice; the CU's L1 copy takes them. -/
def State.setHomeLoc (s : State) (l : Loc) (cp : Nat) (bytes : List Byte) : State :=
  match l with
  | .mem a => (s.homeWrite s.me.vd a bytes cp).patchL1 s.me.cu a bytes
  | .share off => s.onMe fun k => { k with share := cellsWrite k.share off bytes }
  | .cushare off => s.setCuShare fun b => cellsWrite b off bytes
  | .peer _ _ => s

/-- One nibble of a byte at the lender, as compare-and-swaps of the 4-byte word that holds it until one of them meets the word as
last read (R29, R108; log entry 86). `old` is that word. -/
def State.peerNibble (s : State) (vec : Bool) (i a : Nat) (put : Byte → Byte) (r : Ref) (d : Desc) : Nat → Nat → Ans Unit
  | 0, _ => .wait s
  | fuel + 1, old =>
    let k := a % 4
    let new := setField old (8 * k) 8 (put (BitVec.ofNat 8 (field old (8 * k) 8))).toNat
    match s.callPeer vec i (a - k) (.atomic .cas .n32 new old) r d true with
    | .ok s b => if ofLe b = old then .ok s () else s.peerNibble vec i a put r d fuel (ofLe b)
    | .fault s h => .fault s h
    | .wait s => .wait s

/-- A nibble written where a checked access goes: an atomic read-modify-write of its byte at the home slice (R108). -/
def State.nibbleLoc (s : State) (l : Loc) (r : Ref) (d : Desc) (cp : Nat) (vec : Bool) (put : Byte → Byte) : Ans Unit :=
  match l with
  | .peer i a => match s.callPeer vec i (a - a % 4) (.read 4) r d true with
    | .ok s b => s.peerNibble vec i a put r d (s.peerIn.length + 1) (ofLe b)
    | .fault s h => .fault s h
    | .wait s => .wait s
  | l =>
    let (s, b) := s.homeLoc l 1 cp
    .ok (s.setHomeLoc l cp [put (b.headD 0)]) ()

/-- A store of the low n bytes of a value by reference, or of the clamped code for T = 7 (R108, R321): whether a clamp
changed the value, and where the bytes went. `mate` is the value that the same word stores to the other nibble of the byte, with
which it makes one byte write (R325). -/
def State.storeWith (s : State) (r : Ref) (n : Nat) (fmt vec sup : Bool) (chp : BitVec 2) (val : Nat) (mate : Option Nat) :
    Ans (Bool × Loc) :=
  match s.probe wrOnly r n fmt vec sup with
  | .fault s h => .fault s h
  | .wait s => .wait s
  | .ok s (l, d) =>
    let cp := policyOf chp d
    let (c, ch) := encodeFmt d (toSigned 32 val)
    let done :=
      if !fmt then s.storeLoc l r d cp fmt vec (leBytes n val)
      else if d.kind ≠ 2 then s.storeLoc l r d cp fmt vec [BitVec.ofInt 8 c]
      else match mate with
        | some y => s.storeLoc l r d cp fmt vec [putNibble (putNibble 0 r.off c) (r.off + 1) (encodeFmt d (toSigned 32 y)).1]
        | none => s.nibbleLoc l r d cp vec fun b => putNibble b r.off c
    match done with
    | .ok s _ => .ok s (fmt && ch, l)
    | .fault s h => .fault s h
    | .wait s => .wait s

/-- A store by the chanter. -/
def State.store (s : State) (r : Ref) (n : Nat) (fmt vec sup : Bool) (chp : BitVec 2) (val : Nat) : Ans (Bool × Loc) :=
  match s.storeWith r n fmt vec sup chp val none with
  | .ok s x => .ok (if x.2.isMem then s.settleWcb s.me.cu else s) x
  | .fault s h => .fault s h
  | .wait s => .wait s

/-- The new value of an atomic operation on n bytes, none where CAS does not match (R323, R324). -/
def amoNew (op : AmoOp) (t : AmoTy) (old y c : Nat) : Option Nat :=
  let n := match t with
    | .i32 | .n32 => 4
    | .i64 | .n64 => 8
  let w := 8 * n
  match op with
  | .add => some ((old + y) % 2 ^ w)
  | .and => some (old.land y)
  | .or => some (old.lor y)
  | .xor => some (old.xor y)
  | .min => some (if toSigned w y < toSigned w old then y else old)
  | .max => some (if toSigned w old < toSigned w y then y else old)
  | .minn => some (min old y)
  | .maxn => some (max old y)
  | .xchg => some y
  | .cas => if old = c then some y else none
  | .fadd => some ((fpOp .add (if n = 4 then .f32 else .f64) .rne old y 0).bits)

def amoBytes : AmoTy → Nat
  | .i32 | .n32 => 4
  | .i64 | .n64 => 8

/-- The value an atomic or WAITA returns, widened as T gives (R318, R323). -/
def amoWiden (t : AmoTy) (x : Nat) : Word :=
  match t with
  | .i32 => sextWord 32 x
  | _ => BitVec.ofNat 64 x

/-- The registers of the checkpoints of device v (R218). -/
def State.ckOn (s : State) (v : Nat) : Bool := (s.reg (Reg.ckpt v)).getLsbD 0
def State.ckLogN (s : State) (v : Nat) : Nat := field (s.regN (Reg.ckpt v + 0x18)) 0 32

def State.olog (s : State) (v : Nat) : List LogEntry := Assoc.get [] v s.ologs

/-- The order log of device v records an event of a strand (R220). The layout of its 16 bytes is not given: they hold
unspecified values (log entry 16). -/
def State.orderLogOf (s : State) (v strandid : Nat) (stripn : Word) (x : LogData) : State :=
  let l := s.olog v
  if s.ckOn v && l.length < s.ckLogN v then
    let a := field (s.regN (Reg.ckpt v + 0x10)) 0 48 + 16 * l.length
    { s.makeFog a (a + 16) with ologs := Assoc.put [] v (l ++ [⟨strandid, stripn, x⟩]) s.ologs }
  else s

def State.orderLog (s : State) (x : LogData) : State := s.orderLogOf s.me.vd s.me.strandid s.me.ch.stripn x

/-- How many atomics and merges on a line a device's log holds: the position of the next one (R220, log entry 16). -/
def State.logPos (s : State) (v line : Nat) : Nat :=
  (s.olog v).countP fun x => match x.data with
    | .atomic l _ | .merge l _ => l == line
    | _ => false

/-- An atomic on a line of a SYNC slot is recorded (R220). -/
def State.logAtomic (s : State) (l : Loc) (d : Desc) : State :=
  match l with
  | .mem a => if d.sync then s.orderLog (.atomic (a / 128) (s.logPos s.me.vd (a / 128))) else s
  | _ => s

/-- One atomic operation by reference (R323): the old value. The operation goes to the lender's home slice through a lease. -/
def State.amo (s : State) (r : Ref) (op : AmoOp) (t : AmoTy) (vec sup : Bool) (y c : Nat) : Ans Nat :=
  match s.probe rdWr r (amoBytes t) false vec sup with
  | .fault s h => .fault s h
  | .wait s => .wait s
  | .ok s (l, d) =>
    let n := amoBytes t
    let y := y % 2 ^ (8 * n)
    let c := c % 2 ^ (8 * n)
    match l with
    | .peer i a => (match s.callPeer vec i a (.atomic op t y c) r d false with
      | .ok s b => .ok s (ofLe b)
      | .fault s h => .fault s h
      | .wait s => .wait s)
    | l =>
      let (s, b) := s.homeLoc l n d.cp
      let old := ofLe b
      match amoNew op t old y c with
      | some new => .ok ((s.setHomeLoc l d.cp (leBytes n new)).logAtomic l d) old
      | none => .ok (s.logAtomic l d) old

/-- The scope of an access through a slot (R139): 0 CU to 3 domain. -/
def scopeOf (slot : Nat) (d : Desc) (sc : BitVec 2) : Nat :=
  if slot = 253 || slot = 254 then 0
  else if d.state = 3 then 3
  else if d.sync then max d.home sc.toNat else sc.toNat

/-- An acquire by the strand (R142): its L1 presence bits are cleared. The open strip's accesses after it do not fall behind a
store that a release of the strand has followed (log entry 87). -/
def State.acquire (s : State) : State :=
  (s.setCu s.me.cu (clearPresence (s.cu s.me.cu) s.me.slot)).onMe fun k => { k with older := k.older.filter fun o => !o.rel }

/-- Merge parts of the strand wait to be accepted or added: a release waits for them (R151). -/
def State.partsWait (s : State) : Bool :=
  s.partq.any fun w => w.ctx == s.me.ctx && w.incn == s.me.incn && w.imgidx == s.me.imgidx

/-- A release by the strand at a scope (R142): of die scope or wider it drains the CU's write-combining buffer (R120), and waits
while a line cannot leave it (R18, log entry 88). It waits for the strand's merge parts (R151). -/
def State.release (s : State) (scope : Nat) (vec : Bool) : Ans Unit :=
  if s.partsWait then .wait s
  else
    let t := if scope = 0 then s else s.drainWcb s.me.cu
    match if scope = 0 then none else t.stuckLine s.me.cu with
    | some line => .wait (t.waitFor .critical line 0 255 0 0 vec true)
    | none => .ok (t.onMe fun k => { k with older := k.older.map fun o => { o with rel := true } }) ()

/-- A release before an access through a slot, at the scope of that access (R139, R142). -/
def State.releaseFor (s : State) (r : Ref) (sc : BitVec 2) (vec : Bool) : Ans Unit :=
  match s.descWaits r.slot with
  | some line => .wait (s.waitFor .critical line 0 r.slot 0 r.off vec true)
  | none => let (s, d) := s.descFor r.slot; s.release (scopeOf r.slot d sc) vec

/-! ### Widths of memory types (R318) -/

def memBytes : MemTy → Nat
  | .i8 | .n8 => 1 | .i16 | .n16 => 2 | .i32 | .n32 => 4 | .i64 => 8

/-- A scalar load widened to 64 bits: sign for codes 0 to 2, zero for 4 to 6, code 3 whole. -/
def memWiden (t : MemTy) (x : Nat) : Word :=
  match t with
  | .i8 => sextWord 8 x | .i16 => sextWord 16 x | .i32 => sextWord 32 x
  | _ => BitVec.ofNat 64 x

/-- The width of vector elements. -/
def memWidth : MemTy → Nat
  | .i8 | .n8 | .i16 | .n16 => 16 | .i32 | .n32 => 32 | .i64 => 64

/-- A vector load widened to its element: only the 8-bit types widen. -/
def memElem (t : MemTy) (x : Nat) : Nat :=
  match t with
  | .i8 => wrapNat 16 (toSigned 8 x)
  | _ => x

end Sys2Proof.Machine
end

