-- ==== Sys2Proof/Machine/Ops.lean ====
section
/-! DEFINITION. The shared operations of a strand: trace records, fault records, taking a trap, returning from one, moving
to the next word. -/

namespace Sys2Proof.Machine

/-! ### Causes (R166) -/

def Cause.code : Cause → Nat
  | .none => 0 | .illop => 0x01 | .resfield => 0x02 | .pair => 0x03 | .convoy => 0x04 | .badtarget => 0x05 | .priv => 0x06
  | .fpinv => 0x10 | .fpdz => 0x11 | .fpovf => 0x12 | .fpunf => 0x13 | .fpinx => 0x14
  | .mstk => 0x18 | .qdead => 0x19 | .loopnest => 0x1A
  | .bounds => 0x20 | .perm => 0x21 | .slotabsent => 0x22 | .slotbad => 0x23 | .leaserevoked => 0x24 | .poison => 0x25
  | .targetrefuse => 0x26 | .thermal => 0x27 | .align => 0x28
  | .asyncfault => 0x30 | .brk => 0x38 | .trap => 0x39 | .step => 0x3A | .watch => 0x3B

/-- The cause a code of TCAUSE names. -/
def Cause.ofCode (n : Nat) : Cause :=
  (([.illop, .resfield, .pair, .convoy, .badtarget, .priv, .fpinv, .fpdz, .fpovf, .fpunf, .fpinx, .mstk, .qdead, .loopnest,
    .bounds, .perm, .slotabsent, .slotbad, .leaserevoked, .poison, .targetrefuse, .thermal, .align, .asyncfault, .brk,
    .trap, .step, .watch] : List Cause).find? fun c => c.code == n).getD .none

/-- How a cause is delivered (R166): H to the handler, F by parking, D to the debugger. -/
inductive Delivery where
  | handler | park | debug
  deriving DecidableEq, Repr

def Cause.delivery : Cause → Delivery
  | .bounds | .perm | .slotabsent | .slotbad | .leaserevoked | .poison | .targetrefuse | .thermal => .park
  | .step | .watch => .debug
  | _ => .handler

/-- An arithmetic trap, whose group completes with traps suppressed on resume (R170, R191). -/
def Cause.arithmetic : Cause → Bool
  | .fpinv | .fpdz | .fpovf | .fpunf | .fpinx => true
  | _ => false

/-! ### Trace records (R213 to R215) -/

/-- The common word of a strand's record. -/
def commonWord (k : Strand) (kind : Nat) (fin can : Bool) : Word :=
  BitVec.ofNat 64 (kind + (k.strandid % 4096) * 2 ^ 3 + (k.ctx % 8192) * 2 ^ 15 + (k.strip.vl % 2048) * 2 ^ 28 +
    k.strip.w.toNat * 2 ^ 39 + (if fin then 2 ^ 41 else 0) + (if can then 2 ^ 42 else 0))

/-- Emits a 32-byte record into the CU's buffer of 64; a full buffer drops it (R215). -/
def State.emit (s : State) (w0 w1 w2 w3 : Word) : State :=
  let k := s.me.cu
  if 64 ≤ s.trace.bufs.countP fun r => r.1 == k then s.countReg (Reg.trace + 0x28) 32
  else { s with trace := { s.trace with bufs := s.trace.bufs ++ [(k, w3 ++ w2 ++ w1 ++ w0)] } }

/-- A STOP record, while TRCTL.STOPE is 1 (R214). -/
def State.emitStop (s : State) (st : Stop) : State :=
  if s.me.ch.trctl.getLsbD 1 then
    let r := fun c => s.me.ch.esv.toList.getD c 0
    let w0 := (List.range 8).foldl (fun n c => n + field (r c).toNat 0 8 * 2 ^ (8 * c)) 0
    let hi := (List.range 8).foldl (fun n c => n + field (r c).toNat 8 1 * 2 ^ c) 0
    let w1 := hi + st.cause.code * 2 ^ 8 + st.word * 2 ^ 16 + (if st.ixr then 2 ^ 19 else 0) + field st.info.toNat 0 32 * 2 ^ 32
    s.emit (BitVec.ofNat 64 w0) (BitVec.ofNat 64 w1) ((st.pc.extractLsb' 0 48).setWidth 64) (commonWord s.me 2 false false)
  else s

/-! ### Fault records (R173) -/

/-- The bytes of a fault record. -/
def FaultRec.bytes (r : FaultRec) : List Byte :=
  leBytes 1 r.cause.code ++
  leBytes 1 ((if r.esc then 1 else 0) + (if r.ixr then 2 else 0) + (if r.async then 4 else 0)) ++
  leBytes 2 (r.ctx % 8192) ++ leBytes 2 (r.incn % 2048) ++ leBytes 2 r.imgidx ++
  leBytes 8 (field r.tpc.toNat 0 48) ++ leBytes 8 r.tinfo.toNat ++ leBytes 2 r.elem ++ leBytes 1 r.slot ++
  leBytes 1 r.word ++ leBytes 2 r.gen.toNat ++ List.replicate 34 0

/-- FQSIZE as it reads: a power of two from 16 to 4,096, else 0. -/
def State.fqSize (s : State) (v : Nat) : Nat :=
  let n := field (s.regN (Reg.fq v + 8)) 0 16
  if isPow2 n && 16 ≤ n && n ≤ 4096 then n else 0

/-- Room in a device's fault queue: its indices run free modulo 2^32. -/
def State.fqRoom (s : State) (v : Nat) : Bool :=
  decide (field (s.regN (Reg.fq v + 0x18) + 2 ^ 32 - field (s.regN (Reg.fq v + 0x10)) 0 32) 0 32 < s.fqSize v)

/-- Writes a record and advances FQTAIL, a release at device scope with the device's fault interrupt (R173). -/
def State.writeRecord (s : State) (r : FaultRec) : State :=
  let t := field (s.regN (Reg.fq r.vd + 0x18)) 0 32
  let a := field (s.regN (Reg.fq r.vd)) 0 48 + 64 * (t % s.fqSize r.vd)
  let s := s.setHomeBytes a r.bytes
  let s := s.setReg (Reg.fq r.vd + 0x18) (BitVec.ofNat 64 ((t + 1) % 2 ^ 32))
  { s with out := .faultIrq r.vd :: s.out }

/-- Posts a record; with no room it waits (R173). -/
def State.postRecord (s : State) (r : FaultRec) : State :=
  if s.fqRoom r.vd && !(s.posts.any fun p => p.vd == r.vd) then s.writeRecord r
  else { s with posts := s.posts ++ [r] }

/-- The record of a stop of the strand. -/
def stopRecord (k : Strand) (st : Stop) (esc async : Bool) : FaultRec :=
  ⟨k.vd, st.cause, esc, st.ixr, async, k.ctx, k.incn, k.imgidx, st.pc, st.info, st.elem, (st.info.extractLsb' 56 8).toNat,
   st.word, st.gen⟩

/-! ### Taking a trap (R167, R170) -/

/-- ESV0-ESV7 after a stop outside a convoy: RIDX 0 everywhere, GRANT := LANES (R170). -/
def esvOutside (grant : BitVec 32) : Vector Word 8 := (Vector.replicate 8 0).set 0 (grant ++ 0#32)

/-- ESV0-ESV7 after a stop in a convoy. -/
def esvOf (ridx : Vector Nat 8) (grant : BitVec 32) : Vector Word 8 :=
  (ridx.map fun r => BitVec.ofNat 64 r).set 0 (grant ++ BitVec.ofNat 32 ridx[0])

/-- RIDX of ESVc (R169). -/
def ridxOf (esv : Vector Word 8) : Vector Nat 8 := esv.map fun w => field w.toNat 0 9

/-- TCAUSE of a handler entry: ACT, IXR, WORD, CODE (R167). -/
def tcauseOf (st : Stop) : BitVec 32 :=
  BitVec.ofNat 32 (st.cause.code + st.word % 8 * 2 ^ 8 + (if st.ixr then 2 ^ 11 else 0) + 2 ^ 31)

/-- The handler entry of class H: TCAUSE, TPC, TINFO written, PC at TVEC (R167). -/
def Chanter.enter (c : Chanter) (st : Stop) : Chanter :=
  { c with
    tcause := tcauseOf st
    tpc := st.pc.extractLsb' 0 48
    tinfo := st.info
    pc := (c.tvec.extractLsb' 0 48).setWidth 64 }

/-- A handler can be entered: TVEC names one and none is active (R167). -/
def Chanter.handles (c : Chanter) : Bool := c.tvec.extractLsb' 0 48 != 0 && !c.tcause.getLsbD 31

/-- The strand parks: it keeps its stop, and its record is posted; TCAUSE, TPC, TINFO stand (R167, R173). -/
def State.park (s : State) (st : Stop) (esc : Bool) (dest : Status) : State :=
  let s := s.onMe fun k => { k with status := dest, keep := some st }
  s.postRecord (stopRecord s.me st esc (st.cause == .asyncfault))

/-- Taking a trap or a debug stop at its precise point, after the rollback (R167): class H enters the handler or
escalates, class F parks, class D stops for the debugger. `esv` is the restart vector the stop leaves (R170). What the strand waited
for is forgotten, but for a value that has ended a wait when an asynchronous fault comes before its word (R179, log entry 104). -/
def State.takeStop (s : State) (st : Stop) (esv : Vector Word 8) : State :=
  let s := s.onMe fun k =>
    { k with
      ch := { k.ch with esv := esv, pc := st.pc }
      wait := .none, trap := none, forming := [], resume := none, stepping := false, skipBrk := false, vwait := none, armed := false,
      woken := if st.cause = .asyncfault then k.woken else none,
      watching := none, amo := none }
  let s := (s.dropWaits).emitStop st
  match st.cause.delivery with
  | .handler =>
    if s.me.ch.handles then s.onCh fun c => c.enter st
    else s.park st true .parked
  | .park => s.park st false .parked
  | .debug => s.park st false .debug

/-- The stop of a breakpoint at `pc`, before the word or convoy takes effect (R209). A resume passes it (R210). -/
def State.takeBrk (s : State) (pc : Word) : State :=
  (s.takeStop ⟨.watch, slotInfo 0 pc.toInt, pc, 0, false, false, 0, 0⟩ (esvOutside s.me.grant)).onMe fun k => { k with skipBrk := true }

/-- A stop outside a convoy (R170). -/
def stopAt (pc : Word) (c : Cause) (info : Word) : Stop := ⟨c, info, pc, 0, false, false, 0, 0⟩

/-- A trap of a chanter word at `pc` (R87, R167): it is held until every older convoy has completed. -/
def State.raise (s : State) (st : Stop) : State :=
  if s.me.pend.isEmpty then s.takeStop st (esvOutside s.me.grant)
  else s.onMe fun k => { k with trap := some st, wait := .convoys }

/-- A trap at the word the chanter stands on. -/
def State.trapHere (s : State) (c : Cause) (info : Word) : State := s.raise (stopAt s.me.ch.pc c info)

/-- A fault of R106 of a chanter word. -/
def State.faultHere (s : State) (h : Hit) : State :=
  s.raise { stopAt s.me.ch.pc h.cause h.info with gen := h.gen }

/-- The word the chanter stands on waits and is tried again. -/
def State.await (s : State) (w : Wait) : State :=
  s.onMe fun k => { k with wait := w, since := if k.wait = w then k.since else s.now }

/-! ### The word after (R274) -/

/-- Closes level n of the loops. -/
def Loops.close (l : Loops) (n : Nat) : Loops := if n = 0 then { l with act0 := false } else { l with act1 := false }

/-- The loop-back test of level n at E: the new registers, and whether it looped back (R274). -/
def Chanter.loopTest (c : Chanter) (n : Nat) : Chanter × Bool :=
  let lc := if n = 0 then c.lc0 else c.lc1
  if lc.toNat ≤ 1 then
    ({ c with lc0 := if n = 0 then 0 else c.lc0, lc1 := if n = 0 then c.lc1 else 0, loops := c.loops.close n }, false)
  else
    ({ c with
        lc0 := if n = 0 then lc - 1 else c.lc0
        lc1 := if n = 0 then c.lc1 else lc - 1
        pc := if n = 0 then c.loops.s0 else c.loops.s1 }, true)

/-- The level tested first at an end word both share: the one opened later (R274). -/
def Loops.order (l : Loops) : List Nat := if l.later then [1, 0] else [0, 1]

/-- Active levels whose end is `e`, in the order of their tests. -/
def Loops.endingAt (l : Loops) (e : Word) : List Nat :=
  l.order.filter fun n => if n = 0 then l.act0 && l.e0 == e else l.act1 && l.e1 == e

/-- Falls through to `e`, making the loop-back tests of the levels that end there (R274). -/
def Chanter.fallTo (c : Chanter) (e : Word) : Chanter :=
  match c.loops.endingAt e with
  | [] => { c with pc := e }
  | n :: rest =>
    let (c1, back) := { c with pc := e }.loopTest n
    if back then c1
    else match rest with
      | [] => c1
      | m :: _ => (c1.loopTest m).1

/-- A taken branch, jump or return to `t`: a target that is exactly En closes level n and every level opened after it
(R274). -/
def Chanter.jumpTo (c : Chanter) (t : Word) : Chanter :=
  let l := c.loops
  let h0 := l.act0 && l.e0 == t
  let h1 := l.act1 && l.e1 == t
  let c0 := h0 || (h1 && !l.later)
  let c1 := h1 || (h0 && l.later)
  { c with pc := t, loops := { l with act0 := l.act0 && !c0, act1 := l.act1 && !c1 } }

/-- The chanter has taken a word that transferred no control. -/
def State.next (s : State) : State :=
  s.onMe fun k => { k with ch := k.ch.fallTo (k.ch.pc + 8), wait := .none, seq := k.seq + 1, skipBrk := false, resume := none }

/-- The chanter has taken a word that transferred control to `t`. -/
def State.jump (s : State) (t : Word) : State :=
  s.onMe fun k => { k with ch := k.ch.jumpTo t, wait := .none, seq := k.seq + 1, skipBrk := false, resume := none }

/-- PC + 8 x sext(DISP) (R237). -/
def target (pc : Word) (disp : BitVec n) : Word := pc + 8 * disp.signExtend 64

/-! ### Fetch (R102, R106) -/

/-- The eight bytes of slot 0 at an offset, for the fetch: checked as R106 gives. -/
def State.fetchAt (s : State) (pc : Word) : Ans Word :=
  match s.probe exOnly ⟨0, true, pc.toNat⟩ 8 false false true with
  | .fault s h => .fault s h
  | .wait s => .wait s
  | .ok s (l, d) =>
    match l with
    | .mem a =>
      let (s, b) := s.homeRead s.me.vd a 8 d.cp
      .ok s (BitVec.ofNat 64 (ofLe b))
    | .share _ | .cushare _ | .peer _ _ => .fault s (hitOf .perm ⟨0, true, pc.toNat⟩ d false)

/-- A wait that the cycles it has lasted can end (R95, R284, R333, R353). -/
def Wait.timed : Wait → Bool
  | .queuePop _ | .queuePush _ | .counter | .address | .copyId _ => true
  | _ => false

/-- The chanter takes the word it has fetched. -/
def State.beginWord (s : State) (w : Word) : State := s.onMe fun k => { k with begun := some (k.ch.pc, w) }

/-- The word that stands in such a wait: it is not fetched again (log entry 108). -/
def Strand.wordBegun (k : Strand) : Option Word :=
  if k.wait.timed then k.begun.bind fun w => if w.1 = k.ch.pc then some w.2 else .none else .none

/-- Whether the word of slot 0 at an offset stands in a convoy: the word before it has C = 1 (R90). The word before offset
0 and a word that cannot be fetched chain nothing. -/
def State.insideConvoy (s : State) (t : Word) : Bool :=
  if t.toNat < 8 then false
  else
    match s.fetchAt (t - 8) with
    | .ok _ w => !w.getLsbD 63 && w.getLsbD 62
    | _ => false

end Sys2Proof.Machine
end

