-- ==== Sys2Proof/Machine/Lanes.lean ====
section
/-! DEFINITION. The lane allocation table and the strips (spec 04, 05, 10): grants at SETVL, the length ceilings, strip
records; and the strands as a set. -/

namespace Sys2Proof.Machine

/-! ### Strands -/

/-- The strands that exist, the one whose turn it is first. -/
def State.strands (s : State) : List Strand := (s.me :: s.others).filter fun k => k.status != .empty

/-- A strand's registers and share stand on its CU: it holds a strand slot until its save is done (R176). -/
def Strand.onCu (k : Strand) : Bool := k.status != .empty && !k.saved

/-- A strand that may execute words: not muted, not parked. -/
def Strand.runs (k : Strand) : Bool := k.status == .running && !k.muted

/-- Changes every strand. -/
def State.mapStrands (s : State) (f : Strand → Strand) : State := { s with me := f s.me, others := s.others.map f }

/-- Two names for one strand: its device and image index (R175). -/
def Strand.is (k : Strand) (vd img : Nat) : Bool := k.status != .empty && k.vd == vd && k.imgidx == img

/-- The list without its first element that satisfies `p`, and that element. -/
def pull (p : α → Bool) : List α → Option (α × List α)
  | [] => none
  | x :: l => if p x then some (x, l) else (pull p l).map fun y => (y.1, x :: y.2)

/-- The machine with the first strand that satisfies `p` as the one whose turn it is. -/
def State.focus (s : State) (p : Strand → Bool) : Option State :=
  if s.me.status != .empty && p s.me then some s
  else (pull (fun k => k.status != .empty && p k) s.others).map fun x =>
    { s with me := x.1, others := if s.me.status = .empty then x.2 else s.me :: x.2 }

/-- Acts as the first strand that satisfies `p`, then gives the turn back. -/
def State.asStrand (s : State) (p : Strand → Bool) (f : State → State) : State :=
  match s.focus p with
  | none => s
  | some s' =>
    let s' := f s'
    (s'.focus fun k => k.is s.me.vd s.me.imgidx).getD s'

/-- A strand joins the machine. -/
def State.addStrand (s : State) (k : Strand) : State :=
  if s.me.status = .empty then { s with me := k } else { s with others := s.others ++ [k] }

/-- Strands that no longer exist are forgotten. -/
def State.dropEmpty (s : State) : State := { s with others := s.others.filter fun k => k.status != .empty }

/-! ### Virtual devices (R49, R50) -/

def State.vdPart (s : State) (v : Nat) : Nat := field (s.regN (Reg.vdev v)) 16 4
def State.vdEn (s : State) (v : Nat) : Bool := (s.reg (Reg.vdev v)).getLsbD 0
def State.vdCntLo (s : State) (v : Nat) : Nat := field (s.regN (Reg.vdev v + 0x18)) 0 16
def State.vdCntN (s : State) (v : Nat) : Nat := field (s.regN (Reg.vdev v + 0x18)) 16 16
def State.vdQt (s : State) (v : Nat) : Nat := field (s.regN (Reg.vdev v + 0x20)) 0 48
def State.vdQCount (s : State) (v : Nat) : Nat := field (s.regN (Reg.vdev v + 0x20)) 56 8
def State.vdImgBase (s : State) (v : Nat) : Nat := field (s.regN (Reg.vdev v + 0x28)) 16 32 * 2 ^ 16
def State.vdMaxStr (s : State) (v : Nat) : Nat := field (s.regN (Reg.vdev v + 0x30)) 0 13
def State.vdSsMax (s : State) (v : Nat) : Nat := field (s.regN (Reg.vdev v + 0x30)) 16 10
def State.vdCsMax (s : State) (v : Nat) : Nat := field (s.regN (Reg.vdev v + 0x30)) 32 10
def State.vdMaxCu (s : State) (v : Nat) : Nat := field (s.regN (Reg.vdev v + 0x30)) 48 9
def State.vdCtxLo (s : State) (v : Nat) : Nat := field (s.regN (Reg.vdev v + 0x38)) 0 13
def State.vdCtxN (s : State) (v : Nat) : Nat := field (s.regN (Reg.vdev v + 0x38)) 13 14

/-! ### Ceilings (R80, R81) -/

/-- POWCEIL of the strand's partition. -/
def State.powceil (s : State) : Nat := s.regN (Reg.part (s.vdPart s.me.vd) + 0x60)

def lgmaxOf (pc : Nat) : Nat := field pc 48 6

/-- C16, C32 or C64. -/
def ceilOf (pc w : Nat) : Nat := if w = 16 then field pc 32 11 else if w = 32 then field pc 16 10 else field pc 0 9

/-- The 2-bit code of a width: res32 counts as 32-bit (R213, R299). -/
def widthCode : WTy → BitVec 2
  | .w16 => 0
  | .w32 => 1
  | .w64 => 2
  | .res32 => 1

/-! ### Lanes (R70) -/

/-- The groups R70 takes for a need of g: free groups, clusters that hold short strands, LGMAX. -/
def chooseLanes (free short : Nat → Bool) (lg g : Nat) : List Nat :=
  let groups := (List.range 32).filter free
  if g = 1 then
    match (List.range 8).find? fun c => short c && (groups.any fun x => x / 4 == c) with
    | some c => (groups.filter fun x => x / 4 == c).take 1
    | none => groups.take 1
  else
    let whole := ((List.range 8).filter fun c => (List.range 4).all fun i => free (4 * c + i)).take (min (ceilDiv g 4) (lg / 4))
    if whole.isEmpty then groups.take (min g lg) else whole.flatMap fun c => [4 * c, 4 * c + 1, 4 * c + 2, 4 * c + 3]

/-- The owner of a lane group. -/
def Cu.owner (c : Cu) (g : Nat) : Option Nat := c.lanes.toList.getD g Option.none

/-- Gives the groups of a list to a slot, which loses every other group it holds. -/
def Cu.grant (c : Cu) (slot : Nat) (l : List Nat) : Cu :=
  { c with lanes := Vector.ofFn fun (i : Fin 32) =>
      if l.contains i.val then some slot else if c.owner i.val = some slot then Option.none else c.owner i.val }

/-- A cluster of a CU holds a short strand other than the one of `slot`. -/
def State.holdsShort (s : State) (cu slot k : Nat) : Bool :=
  let c := s.cu cu
  s.strands.any fun x => x.cu == cu && x.slot != slot && x.short && !x.muted &&
    (List.range 4).any fun i => c.owner (4 * k + i) == some x.slot

def maskOfGroups (l : List Nat) : BitVec 32 := l.foldl (fun m g => setBit m g true) 0

/-- Lane groups that a grant of vl elements of width w needs (R70). -/
def laneNeed (vl w : Nat) : Nat := min 16 (ceilDiv (vl * w) 1024)

/-- Releases all of the strand's groups (R70, R72). -/
def State.releaseLanes (s : State) : State :=
  let k := s.me
  let c := s.cu k.cu
  let s := s.setCu k.cu { c.grant k.slot [] with fifo := c.fifo.filter fun x => x != k.slot }
  s.onMe fun k => { k with grant := 0 }

/-- Renegotiates the strand's grant for vl elements of width w (R70). False where the SETVL must wait in the lane FIFO. -/
def State.renegotiate (s : State) (vl w : Nat) : State × Bool :=
  let k := s.me
  let c := s.cu k.cu
  let g := laneNeed vl w
  if vl = 0 then ((s.releaseLanes).onMe fun k => { k with short := false }, true)
  else
    let pick := chooseLanes (fun g => c.owner g == none || c.owner g == some k.slot) (s.holdsShort k.cu k.slot)
      (lgmaxOf s.powceil) g
    let s := (s.setCu k.cu (c.grant k.slot pick)).onMe fun k => { k with grant := maskOfGroups pick, short := g == 1 }
    (s, !pick.isEmpty)

/-- The slot waits in the lane FIFO, at its end unless it waits already (R71). -/
def State.joinFifo (s : State) : State :=
  let c := s.cu s.me.cu
  if c.fifo.contains s.me.slot then s else s.setCu s.me.cu { c with fifo := c.fifo ++ [s.me.slot] }

/-- The slot no longer waits in the lane FIFO. -/
def State.leaveFifo (s : State) : State :=
  let c := s.cu s.me.cu
  s.setCu s.me.cu { c with fifo := c.fifo.filter fun x => x != s.me.slot }

/-! ### Strips (R92, R93, R212) -/

/-- A count that stops at 0xFFFF_FFFF. -/
def sat32 (n : Nat) : BitVec 32 := BitVec.ofNat 32 (min n 0xFFFFFFFF)

/-- STRIPCYC: cycles since the vector unit reached the latest SETVL. -/
def State.stripCyc (s : State) : BitVec 32 := sat32 (s.now - s.me.strip.opened)

/-- Closes the strip: a strip record while `on` (TRCTL.STRIPE). An end closes it once (R281, log entry 103). -/
def State.closeStrip (s : State) (on : Bool) (pc : Word) (fin can : Bool) : State :=
  let k := s.me
  let s := if on && !k.strip.closed then
      s.emit (k.strip.ab ++ s.stripCyc) (k.grant ++ k.strip.mb) ((pc.extractLsb' 0 48).setWidth 64) (commonWord k 0 fin can)
    else s
  s.onMe fun k => { k with strip := { k.strip with closed := true } }

/-- The next strip begins (R93). -/
def State.openStrip (s : State) (w : BitVec 2) (vl : Nat) : State :=
  s.onMe fun k => { k with strip := ⟨s.now, 0, 0, w, vl, false⟩, older := [] }

end Sys2Proof.Machine
end

