-- ==== Sys2Proof/Machine/Dealer.lean ====
section
/-! DEFINITION. The dealer (spec 03, 04): completion counters, queues and their entries, job cards, launches, placing and
starting strands, DEAL, cancels. -/

namespace Sys2Proof.Machine

/-! ### Contexts (R50, R52) -/

def State.ctxRec (s : State) (c : Nat) : Nat := field (s.regN Reg.ctxtb) 0 48 + 32 * (c % 8192)
def State.ctxVd (s : State) (c : Nat) : Nat := s.homeNat (s.ctxRec c + 1) 1
def State.ctxSlottb (s : State) (c : Nat) : Nat := field (s.homeNat (s.ctxRec c + 8) 8) 0 48
def State.ctxPhasecnt (s : State) (c : Nat) : Nat := s.homeNat (s.ctxRec c + 0x10) 2
def State.ctxJobcnt (s : State) (c : Nat) : Nat := s.homeNat (s.ctxRec c + 0x12) 2

/-- The record of context c is VALID for device v: c lies in the range of v (R50). -/
def State.ctxOk (s : State) (v c : Nat) : Bool :=
  s.homeNat (s.ctxRec c) 1 % 2 == 1 && s.ctxVd c == v && decide (s.vdCtxLo v ≤ c) && decide (c < s.vdCtxLo v + s.vdCtxN v)

/-! ### Completion counters (R58, R63) -/

def Counter.zero : Counter := ⟨0, false⟩

def State.counter (s : State) (i : Nat) : Counter := Assoc.get Counter.zero i s.counters

def State.setCounter (s : State) (i : Nat) (c : Counter) : State := { s with counters := Assoc.put Counter.zero i c s.counters }

/-- A counter reaches a threshold (R58). -/
def Counter.reached (c : Counter) (x : BitVec 32) : Bool := c.can || !(c.val - x).msb

/-- The counter that a relative index of device v names (R52, R56). -/
def State.cntIndex (s : State) (v r : Nat) : Option Nat :=
  if r = 0xFFFF || s.vdCntN v ≤ r then none else some (s.vdCntLo v + r)

/-- An increment; `can` sets the sticky flag with it (R63, R64). -/
def State.addCounter (s : State) (i : Nat) (n : BitVec 32) (can : Bool) : State :=
  let c := s.counter i
  s.setCounter i ⟨c.val + n, c.can || can⟩

/-- An increment by relative index; 0xFFFF names no counter. -/
def State.addRel (s : State) (v r : Nat) (n : BitVec 32) (can : Bool) : State :=
  match s.cntIndex v r with
  | some i => s.addCounter i n can
  | none => s

/-- PHASECNT or JOBCNT of a context. -/
def State.addCtx (s : State) (c r : Nat) (n : BitVec 32) (can : Bool) : State := s.addRel (s.ctxVd c) r n can

/-! ### Launches (R60, R62, R63) -/

def levelRank : Level → Nat
  | .strand => 0 | .launch => 1 | .graph => 2 | .phase => 3 | .job => 4

/-- The wider of two cancels. -/
def widerLevel (a : Option Level) (b : Level) : Option Level :=
  match a with
  | some a => if levelRank b ≤ levelRank a then some a else some b
  | none => some b

/-- The LAUNCHID of a launch (R62). -/
def Launch.id (l : Launch) : Nat := l.card.graph * 2 ^ 16 + l.card.donecnt

/-- The last chunk of TRIP0 has been dealt (R62). -/
def Launch.dealt (l : Launch) : Bool := l.card.trip0 != 0 && decide (l.card.trip0 ≤ l.nxt)

/-- No further strand of the launch will start. -/
def Launch.full (l : Launch) : Bool := l.cancelled.isSome || l.dealt || decide (l.card.strands ≤ l.started)

/-- A dependence of a card (R61): whether it is met, and whether it carries CAN. -/
def State.depState (s : State) (v r : Nat) (thr : BitVec 32) : Bool × Bool :=
  match s.cntIndex v r with
  | some i => let c := s.counter i; (c.reached thr, c.can)
  | none => (true, false)

/-- Both dependences have reached their thresholds (R60). -/
def State.depsMet (s : State) (l : Launch) : Bool :=
  (s.depState l.vd l.card.dep0 l.card.dep0thr).1 && (s.depState l.vd l.card.dep1 l.card.dep1thr).1

/-- A dependence has reached its threshold with CAN, and the card does not ignore it (R60). -/
def State.depsCan (s : State) (l : Launch) : Bool :=
  ((s.depState l.vd l.card.dep0 l.card.dep0thr).2 || (s.depState l.vd l.card.dep1 l.card.dep1thr).2) && !l.card.ignCan

def State.setLaunch (s : State) (l : Launch) : State :=
  { s with launches := s.launches.map fun x => if x.key = l.key then l else x }

def State.launchOf (s : State) (key : Nat) : Option Launch := s.launches.find? fun l => l.key == key

/-- An increment made by a strand with HOLDCH: launches that it makes eligible are held (R211). -/
def State.holding (s : State) (hold : Bool) (f : State → State) : State :=
  let s' := f s
  if hold then
    { s' with launches := s'.launches.map fun l =>
        if l.state = .pending && !s.depsMet l && s'.depsMet l then { l with held := true } else l }
  else s'

/-- A launch retires (R63, R376): what the end of its last strand makes eligible may be held (R211). DONECNT takes DONEINC, with CAN when it was cancelled; GRAPHCNT takes 1, with CAN when the
cancel covers the graph. -/
def State.retireLaunch (s : State) (l : Launch) : State :=
  let s := { s with launches := s.launches.filter fun x => x.key != l.key }
  s.holding l.endHold fun s =>
    (s.addRel l.vd l.card.donecnt (BitVec.ofNat 32 l.card.doneinc) l.cancelled.isSome).addRel l.vd l.card.graphcnt 1
      (match l.cancelled with
       | some lv => decide (2 ≤ levelRank lv)
       | none => false)

/-- The launch is complete: no strand of it will start or still runs, its transfers and stores have performed (R63). -/
def State.launchDone (s : State) (l : Launch) : Bool :=
  l.full && !(s.strands.any fun k => k.launch == l.key) && !(s.xfers.any fun x => x.launch == l.key)

/-! ### Queues (R55 to R59) -/

def qkey (v q : Nat) : Nat := 256 * v + q

def Queue.none : Queue := ⟨Option.none, false, Option.none, 0, Option.none, [], Option.none⟩

def State.queue (s : State) (v q : Nat) : Queue := Assoc.get Queue.none (qkey v q) s.queues

def State.setQueue (s : State) (v q : Nat) (x : Queue) : State := { s with queues := Assoc.put Queue.none (qkey v q) x s.queues }

def State.qAddr (s : State) (v q : Nat) : Nat := s.vdQt v + 64 * q

/-- The dealer can read n bytes: admitted by the guest's access table, not poisoned, in a present stack (R55, R59). -/
def State.dealerReads (s : State) (v a n : Nat) : Bool :=
  s.inMap a && s.inMap (a + n - 1) && s.admits v a n false &&
    !((List.range ((n + 127) / 128)).any fun i => s.poisoned (a / 128 + i))

/-- An error code in ERRCNT and LASTERR of a queue. -/
def State.queueError (s : State) (v q : Nat) (idx : BitVec 32) (code : Nat) : State :=
  let a := s.qAddr v q
  let s := s.setHomeBytes (a + 0x14) (leBytes 4 (s.homeNat (a + 0x14) 4 + 1))
  s.setHomeBytes (a + 0x18) (leBytes 4 (idx.toNat % 2 ^ 16 * 2 ^ 16 + code))

/-- HEAD advances by one, in the dealer and in memory (R58). -/
def State.advanceHead (s : State) (v q : Nat) : State :=
  let x := s.queue v q
  let s := s.setQueue v q { x with head := x.head + 1 }
  s.setHomeBytes (s.qAddr v q + 0x10) (leBytes 4 (x.head + 1).toNat)

/-- Records a tail that makes entries visible, with its order (R56, R60). -/
def State.acceptTail (s : State) (v q : Nat) (t : BitVec 32) : State :=
  let x := s.queue v q
  let live := x.seen.filter fun y => decide (0 < (y.1 - x.head).toNat) && decide ((y.1 - x.head).toNat ≤ 65536)
  { s.setQueue v q { x with tail := some t, seen := live ++ [(t, s.order)] } with order := s.order + 1 }

/-- A write of a tail to NOTIFYq (R55, R56). Where the spec is silent the model chooses (log entry 90): a queue that latches takes
HEAD from its descriptor; before any tail has been accepted n' is that of HEAD; errors 0x0A and 0x0B give the tail T as the entry
index. -/
def State.notify (s : State) (v q : Nat) (t : BitVec 32) : State :=
  if s.vdQCount v < q then s
  else
    let x := s.queue v q
    let a := s.qAddr v q
    if !s.dealerReads v a 64 then s.setQueue v q { x with tail := some t, blind := true }
    else if s.homeNat (a + 0xF) 1 % 2 = 0 then s.setQueue v q { x with tail := some t, latch := none }
    else
      let base := s.homeNat a 8
      let size := s.homeNat (a + 8) 4
      let cx := s.homeNat (a + 0xC) 2
      let prio := s.homeNat (a + 0xE) 1
      let bad := base % 64 ≠ 0 || !isPow2 size || size < 16 || 65536 < size || 8192 ≤ cx || 16 ≤ prio || s.homeNat (a + 0xF) 1 ≠ 1
      if x.latch.isNone && bad then (s.setQueue v q { x with tail := some t }).queueError v q 0 0x0C
      else
        let fresh := x.latch.isNone
        let x := if fresh then
            { x with latch := some ⟨field base 0 48, size, cx, prio⟩, head := BitVec.ofNat 32 (s.homeNat (a + 0x10) 4), seen := [] }
          else x
        let x := { x with blind := false }
        let n := (t - x.head).toNat
        let n' := ((x.tail.getD x.head) - x.head).toNat
        let s := s.setQueue v q x
        let cap := (x.latch.map fun l => l.size).getD 0
        if cap < n then s.queueError v q t 0x0A
        else if n < n' then s.queueError v q t 0x0B
        else if n = n' && !fresh then s
        else s.acceptTail v q t

/-- Entries of a queue that are visible and not taken. -/
def Queue.waiting (x : Queue) : Nat := ((x.tail.getD x.head) - x.head).toNat

/-- The order of the accepted notify that made the oldest untaken entry visible (R60). -/
def Queue.visibleAt (x : Queue) : Option Nat :=
  ((x.seen.find? fun y => decide (0 < (y.1 - x.head).toNat) && decide ((y.1 - x.head).toNat ≤ 65536)).map fun y => y.2)

/-- The queues of device v that hold a latched copy. -/
def State.liveQueues (s : State) (v : Nat) : List (Nat × Queue) :=
  (s.queues.filter fun x => x.1 / 256 == v && x.2.latch.isSome).map fun x => (x.1 % 256, x.2)

def QLatch.of (x : Queue) : QLatch := x.latch.getD ⟨0, 0, 0, 0⟩

/-- A PHASE entry of the context has been taken and not retired (R58). -/
def State.phaseHolds (s : State) (v c : Nat) : Bool :=
  s.queues.any fun x => x.1 / 256 == v && (match x.2.taken with
    | some t => t.kind == 4 && t.ctx == c
    | none => false)

/-- The ring address of an entry. -/
def entryAddr (x : Queue) (i : BitVec 32) : Nat := let l := QLatch.of x; l.base + 64 * (i.toNat % (max l.size 1))

/-- KIND of the entry at a queue's head; an unreadable entry counts as KIND 255. -/
def State.headKind (s : State) (v : Nat) (x : Queue) : Nat :=
  let a := entryAddr x x.head
  if s.dealerReads v a 64 then s.homeNat a 1 else 255

/-- Launches that wait in the pending set: strands of them may still start (R60, R62). -/
def State.pendingSet (s : State) (v : Nat) : List Launch := s.launches.filter fun l => l.vd == v && !l.full

/-- Queues whose head entry may be taken now (R58, R60). -/
def State.takeable (s : State) (v : Nat) : List (Nat × Queue) :=
  if !s.vdEn v then []
  else (s.liveQueues v).filter fun x =>
    x.2.taken.isNone && x.2.span.isNone && !x.2.blind && decide (0 < x.2.waiting) &&
    !s.phaseHolds v (QLatch.of x.2).ctx && !(s.headKind v x.2 == 1 && decide (64 ≤ (s.pendingSet v).length))

/-- Queue x goes before queue y in R60. -/
def takesFirst (x y : Nat × Queue) : Bool :=
  let px := (QLatch.of x.2).prio
  let py := (QLatch.of y.2).prio
  if px ≠ py then decide (py < px)
  else match x.2.visibleAt, y.2.visibleAt with
    | some a, some b => if a ≠ b then decide (a < b) else decide (x.1 < y.1)
    | some _, none => true
    | none, some _ => false
    | none, none => decide (x.1 < y.1)

/-- The queue whose head the dealer takes next. -/
def State.nextTake (s : State) (v : Nat) : Option (Nat × Queue) :=
  (s.takeable v).foldl (fun best x => match best with
    | none => some x
    | some y => if takesFirst x y then some x else some y) none

/-! ### Job cards (R59, R61) -/

def cardCan (n : Nat) : Bool := n.testBit 0

/-- A card as its fields. -/
def State.readCard (s : State) (a : Nat) : Card :=
  let f := fun o n => s.homeNat (a + o) n
  { ignCan := cardCan (f 6 2), ctx := f 8 2, split := f 0xB 1 % 4, entry := f 0xC 4, slottb := BitVec.ofNat 48 (f 0x10 8),
    trip0 := f 0x18 8, trip1 := BitVec.ofNat 32 (f 0x20 4), trip2 := BitVec.ofNat 32 (f 0x24 4), minch := f 0x28 4,
    gran := f 0x2C 4, strands := f 0x30 2, vlhint := BitVec.ofNat 16 (f 0x32 2), strshare := f 0x34 2, cushare := f 0x36 2,
    donecnt := f 0x38 2, doneinc := f 0x3A 2, strcnt := f 0x3C 2, graphcnt := f 0x3E 2, dep0 := f 0x40 2, dep1 := f 0x42 2,
    dep0thr := BitVec.ofNat 32 (f 0x44 4), dep1thr := BitVec.ofNat 32 (f 0x48 4), graph := f 0x4C 2,
    args := Vector.ofFn fun (i : Fin 6) => BitVec.ofNat 64 (f (0x50 + 8 * i.val) 8) }

/-- Scratchpad size of a split, KiB (R61). -/
def scratchKib (split : Nat) : Nat := if split = 0 then 1280 else if split = 1 then 1024 else 768

/-- A counter index of a card is 0xFFFF or below CNTN. -/
def State.cardCnt (s : State) (v r : Nat) : Bool := r == 0xFFFF || decide (r < s.vdCntN v)

/-- The error code of a card, 0 where it passes (R59). -/
def State.cardError (s : State) (v qctx a : Nat) : Nat :=
  let f := fun o n => s.homeNat (a + o) n
  let c := s.readCard a
  let w := field c.vlhint.toNat 14 2
  let n := field c.vlhint.toNat 0 14
  if f 0 4 ≠ 0x4A43424E || f 4 2 ≠ 1 then 0x02
  else if 2 ≤ f 6 2 || 8192 ≤ c.ctx || 4 ≤ f 0xB 1 || f 0x4E 2 ≠ 0 || (List.range 16).any (fun i => f (0x80 + 8 * i) 8 ≠ 0) then 0x03
  else if c.ctx ≠ qctx || !s.ctxOk v qctx then 0x04
  else if f 0x10 8 ≠ 0 && f 0x10 8 ≠ s.ctxSlottb qctx then 0x05
  else if !([c.donecnt, c.strcnt, c.graphcnt, c.dep0, c.dep1].all fun r => s.cardCnt v r) then 0x06
  else if f 0xA 1 < 1 || 3 < f 0xA 1 || c.split = 3 || c.entry % 8 ≠ 0 || 2 ^ 48 ≤ c.trip0 ||
      (f 0xA 1 < 2 && c.trip1 != 0) || (f 0xA 1 < 3 && c.trip2 != 0) || c.strands < 1 || 4000 < c.strands || w = 3 ||
      1024 / 2 ^ w < n || c.strshare % 4 ≠ 0 || 4 * s.vdSsMax v < c.strshare || c.cushare % 4 ≠ 0 ||
      4 * s.vdCsMax v < c.cushare || scratchKib c.split < c.strshare + c.cushare then 0x07
  else 0

/-- An entry that fails retires at take; a valid launch counter takes CAN and its increment (R59). -/
def State.failEntry (s : State) (v q : Nat) (x : Queue) (code : Nat) (done : Option (Nat × Nat)) : State :=
  let s := (s.queueError v q x.head code).advanceHead v q
  match done with
  | some (r, n) => s.addRel v r (BitVec.ofNat 32 n) true
  | none => s

/-- The launch counter and increment that an aligned, readable card names (R59). -/
def State.cardCounter (s : State) (v card : Nat) : Option (Nat × Nat) :=
  if card % 256 = 0 && s.dealerReads v card 256 then some ((s.readCard card).donecnt, (s.readCard card).doneinc) else none

def Levels.none : Levels := ⟨false, false, false⟩

def State.level (s : State) (c : Nat) : Levels := Assoc.get Levels.none c s.levels

def State.setLevel (s : State) (c : Nat) (x : Levels) : State := { s with levels := Assoc.put Levels.none c x s.levels }

/-- An entry of the context is taken: its job is under way (R65). -/
def State.openJob (s : State) (c : Nat) : State := s.setLevel c { s.level c with ended := false }

/-- A LAUNCH entry: its card is read, checked and copied into the pending set (R58, R59). -/
def State.takeLaunch (s : State) (v q : Nat) (x : Queue) (a : Nat) : State :=
  if !s.dealerReads v a 256 then s.failEntry v q x 0x08 none
  else
    let c := s.readCard a
    let l := QLatch.of x
    let e := s.cardError v l.ctx a
    if e ≠ 0 then s.failEntry v q x e (some (c.donecnt, c.doneinc))
    else
      let s := { s.openJob l.ctx with
        launches := s.launches ++ [(⟨s.order, v, q, l.prio, l.ctx, s.curIncn l.ctx, c, .pending, 0, 0, none, false, false⟩ : Launch)]
        order := s.order + 1 }
      s.advanceHead v q

/-- Takes the head entry of a queue (R57 to R59). Of the checks it fails the first in this order counts: readable, its own form, its
context, the card's or the counter's (log entry 90). -/
def State.takeEntry (s : State) (v q : Nat) (x : Queue) : State :=
  let a := entryAddr x x.head
  let f := fun o n => s.homeNat (a + o) n
  if !s.dealerReads v a 64 then s.failEntry v q x 0x08 none
  else
    let kind := f 0 1
    let fl := f 1 1
    let cnt := f 2 2
    let card := f 8 8
    let c := (QLatch.of x).ctx
    if 4 < kind || 2 ≤ fl || (fl = 1 && kind ≠ 4) || (List.range 48).any (fun i => f (16 + i) 1 ≠ 0) ||
        (kind = 1 && card % 256 ≠ 0) then
      s.failEntry v q x 0x01 (if kind = 1 then s.cardCounter v card else none)
    else if kind = 1 then s.takeLaunch v q x card
    else if !s.ctxOk v c then s.failEntry v q x 0x04 none
    else if kind = 0 then s.advanceHead v q
    else if (kind = 2 || kind = 3) && cnt ≠ 0xFFFF && s.vdCntN v ≤ cnt then s.failEntry v q x 0x06 none
    else
      let t : Taken := ⟨kind, fl == 1, cnt, BitVec.ofNat 32 (f 4 4), s.order, c⟩
      { (s.openJob c).setQueue v q { x with taken := some t } with order := s.order + 1 }

/-- Takes the next entry of device v where its KIND is one of a list. -/
def State.take (s : State) (v : Nat) (kinds : List Nat) : State :=
  match s.nextTake v with
  | some (q, x) => if kinds.contains (s.headKind v x) then s.takeEntry v q x else s
  | none => s

/-- A taken WAIT, SIGNAL or PHASE may retire (R58). -/
def State.mayRetire (s : State) (v q : Nat) (t : Taken) : Bool :=
  if t.kind = 2 then (s.depState v t.cnt t.val).1
  else if t.kind = 3 then !(s.launches.any fun l => l.vd == v && l.queue == q && decide (l.key < t.order))
  else !(s.launches.any fun l => l.ctx == t.ctx && decide (l.key < t.order))

/-- The increments of a retiring entry (R58, R376): `lv` says of the cancel that retires it whether a phase's, none where it retires
on its own. A PHASE ends the open phase, one with END the job (R65). -/
def State.applyEntry (s : State) (v : Nat) (t : Taken) (lv : Option Bool) : State :=
  if t.kind = 3 then s.addRel v t.cnt t.val lv.isSome
  else if t.kind = 4 then
    let c := t.ctx
    let l := s.level c
    let s := (s.setLevel c ⟨t.fin || l.ended, false, !t.fin && l.job⟩).addCtx c (s.ctxPhasecnt c) 1 lv.isSome
    if t.fin then s.addCtx c (s.ctxJobcnt c) 1 (lv == some false) else s
  else s

/-- Retires the taken entry at a queue's head. -/
def State.retireTaken (s : State) (v q : Nat) (lv : Option Bool) : State :=
  let x := s.queue v q
  match x.taken with
  | none => s
  | some t => ((s.applyEntry v t lv).setQueue v q { x with taken := none }).advanceHead v q

/-- An untaken entry at the head of a cancelled span (R376): a LAUNCH retires with its increments, a SIGNAL or PHASE is held as if
taken until the launches it waits for have retired (R64). -/
def State.voidHead (s : State) (v q : Nat) : State :=
  let x := s.queue v q
  let a := entryAddr x x.head
  let f := fun o n => s.homeNat (a + o) n
  let kind := s.headKind v x
  if kind = 3 || kind = 4 then
    let t : Taken := ⟨kind, f 1 1 % 2 == 1, f 2 2, BitVec.ofNat 32 (f 4 4), s.order, (QLatch.of x).ctx⟩
    { s.setQueue v q { x with taken := some t } with order := s.order + 1 }
  else
    let s := if kind = 1 then
        (if s.dealerReads v (f 8 8) 256 then
          let c := s.readCard (f 8 8)
          (s.addRel v c.donecnt (BitVec.ofNat 32 c.doneinc) true).addRel v c.graphcnt 1 true
         else s.queueError v q x.head 0x08)
      else s
    s.advanceHead v q

/-- The cancelled span of a queue is done. -/
def State.endSpan (s : State) (v q : Nat) : State := s.setQueue v q { s.queue v q with span := none }

/-- Retires the entries of a cancelled span in ring order, at most `n` of them, as far as they may (R64): a WAIT at once, a SIGNAL
or PHASE once its launches have retired. A phase's span ends with its PHASE entry. -/
def State.voidRun (s : State) (v q : Nat) : Nat → State
  | 0 => s
  | n + 1 =>
    let x := s.queue v q
    match x.span, x.taken with
    | none, _ => s
    | some (phase, _), some t =>
      if t.kind = 2 || s.mayRetire v q t then
        let s := s.retireTaken v q (some phase)
        (if phase && t.kind = 4 then s.endSpan v q else s).voidRun v q n
      else s
    | some (_, tail), none =>
      if x.head = tail || x.latch.isNone then s.endSpan v q else (s.voidHead v q).voidRun v q n

/-- Goes on with a cancelled span: each of its entries takes at most two turns of `voidRun`. -/
def State.voidSpan (s : State) (v q : Nat) : State :=
  let x := s.queue v q
  s.voidRun v q (2 * ((x.span.map fun y => (y.2 - x.head).toNat).getD 0) + 2)

/-! ### Cancel (R64, R65) -/

/-- A cancel covers the strands and launches that `p` names at a level. Launches without a started strand retire. -/
def State.cancelLaunches (s : State) (lv : Level) (p : Launch → Bool) : State :=
  let hit := s.launches.filter p
  let s := { s with launches := s.launches.map fun l => if p l then { l with cancelled := widerLevel l.cancelled lv } else l }
  let s := s.mapStrands fun k =>
    if hit.any (fun l => l.key == k.launch) then { k with cancelled := widerLevel k.cancelled lv } else k
  (s.launches.filter fun l => p l && l.started == 0).foldl State.retireLaunch s

/-- The queues of device v whose entries, or whose taken entry, are those of context c. -/
def State.ctxQueues (s : State) (v c : Nat) : List (Nat × Queue) :=
  (s.queues.filter fun x => x.1 / 256 == v && (match x.2.latch with
    | some l => l.ctx == c
    | none => x.2.taken.any fun t => t.ctx == c)).map fun x => (x.1 % 256, x.2)

/-- A cancel of the open phase or of the job of context c (R64). After the job's increment it flags no counter (R65). -/
def State.cancelWork (s : State) (v c : Nat) (phase : Bool) : State :=
  let qs := s.ctxQueues v c
  let l := s.level c
  let late := l.ended && !(s.launches.any fun x => x.vd == v && x.ctx == c) &&
    qs.all fun x => x.2.taken.isNone && x.2.waiting == 0
  let s := s.cancelLaunches (if phase then .phase else .job) fun x => x.vd == v && x.ctx == c
  let s :=
    if late then s
    else
      let s := (s.setLevel c ⟨false, true, l.job || !phase⟩).addCtx c (s.ctxPhasecnt c) 0 true
      if phase then s else s.addCtx c (s.ctxJobcnt c) 0 true
  qs.foldl (fun s x =>
    let y := s.queue v x.1
    let tail := if y.latch.isNone then y.head + 1 else y.tail.getD y.head
    let s := s.setQueue v x.1 { y with span := some (match y.span with
      | some (false, t) => (false, t)
      | _ => (phase, tail)) }
    s.voidSpan v x.1) s

/-- A cancel of a level of context c of device v; `id` names the level as R285 gives. -/
def State.cancel (s : State) (v : Nat) (lv : Level) (c id : Nat) : State :=
  match lv with
  | .strand => s.mapStrands fun k =>
      if k.status != .empty && k.ctx == c && k.strandid % 4096 == id % 4096 then { k with cancelled := widerLevel k.cancelled .strand }
      else k
  | .launch => s.cancelLaunches .launch fun l => l.vd == v && l.ctx == c && l.id == id % 2 ^ 32
  | .graph => s.cancelLaunches .graph fun l => l.vd == v && l.ctx == c && l.card.graph == id % 2 ^ 16
  | lv =>
    let phase := lv == .phase
    let l := s.level c
    if l.job || (phase && l.phase) then s else s.cancelWork v c phase

/-! ### DEAL (R66, R67) -/

/-- The dealer's answer to a DEAL of the strand. -/
def State.dealAnswer (s : State) : State × Nat × Nat :=
  match s.launchOf s.me.launch with
  | none => (s.onMe fun k => { k with emptied := true }, 0, 0)
  | some l =>
    let rem := l.card.trip0 - l.nxt
    if rem = 0 || l.cancelled.isSome || s.me.cancelled.isSome || s.me.emptied then
      (s.onMe fun k => { k with emptied := true }, l.nxt, l.nxt)
    else
      let a := max 1 ((s.strands.filter fun k => k.launch == l.key && !k.emptied).length)
      let c := max (max l.card.minch 1) (ceilDiv rem (2 * a))
      let g := max l.card.gran 1
      let hi := min (l.nxt + ceilDiv c g * g) l.card.trip0
      (s.setLaunch { l with nxt := hi }, l.nxt, hi)

/-! ### Placing and starting strands (R62, R68, R69) -/

/-- CU x of die d belongs to the partition of device v and its port is owned (R46, R48). -/
def State.cuOwned (s : State) (v cu : Nat) : Bool :=
  let b := Reg.part (s.vdPart v)
  let d := cu / 128
  let x := cu % 128
  (s.reg (b + 0x10 * d + 8 * (x / 64))).getLsbD (x % 64) && (s.reg (b + 0x58)).getLsbD (x / 2)

/-- The strands that hold a slot of a CU. -/
def State.onCu (s : State) (cu : Nat) : List Strand := s.strands.filter fun k => k.onCu && k.cu == cu

/-- KiB of scratchpad that the launches with strands on a CU use, one more strand counted with its launch and shares: the shares
of the strands and one CU share for each launch (R61). -/
def State.scratchUse (s : State) (cu launch strshare cushare : Nat) : Nat :=
  let on := (s.onCu cu).map fun k => (k.launch, k.strshare, k.cushare)
  let all := (launch, strshare, cushare) :: on
  let shares := (all.map fun x => (x.1, x.2.2)).eraseDups
  all.foldl (fun n x => n + x.2.1) 0 + shares.foldl (fun n x => n + x.2) 0

/-- CU indices of device v that live pairs hold (R375). -/
def State.cuIndices (s : State) (v : Nat) : List Nat := (s.strands.filter fun k => k.vd == v).filterMap fun k => k.cuidx

/-- The CU index of a strand of a launch on a CU: that of the pair, or the least free one below MAXCU; the outer none where
there is no room (R375). Strands that have been saved stand on no CU: they keep their own index (log entry 91). -/
def State.cuIndexFor (s : State) (l : Launch) (cu : Nat) : Option (Option Nat) :=
  if l.card.cushare = 0 then some none
  else match s.strands.find? fun k => k.launch == l.key && k.onCu && k.cu == cu with
    | some k => some k.cuidx
    | none => ((List.range (s.vdMaxCu l.vd)).find? fun u => !(s.cuIndices l.vd).contains u).map some

/-- The device holds dispatch tokens or a pool grant (R76). -/
def State.dispatchable (s : State) (v : Nat) : Bool :=
  decide (0 < (s.bucketAt .dispatch v).bal) || (s.vdWeight v != 0 && (s.lenderAt .dispatch v 1).isSome)

/-- The least image index that no strand of device v holds (R175). -/
def State.imgFree (s : State) (v : Nat) : Option Nat :=
  (List.range (s.vdMaxStr v)).find? fun i => !(s.strands.any fun k => k.is v i)

/-- A checkpoint of the device is being taken (R219). -/
def State.ckBusy (s : State) (v : Nat) : Bool := (s.reg (Reg.ckpt v + 0x20)).getLsbD 0

/-- A strand of the launch may start on the CU (R68). -/
def State.mayPlace (s : State) (l : Launch) (cu : Nat) : Bool :=
  let v := l.vd
  let on := s.onCu cu
  let mine := s.strands.filter fun k => k.vd == v && k.onCu
  s.cuOwned v cu && decide (on.length < 8) && ((s.cu cu).split == some l.card.split || on.isEmpty) &&
    decide (s.scratchUse cu l.key l.card.strshare l.card.cushare ≤ scratchKib l.card.split) && decide (mine.length < s.vdMaxStr v) && (s.imgFree v).isSome &&
    (on.any (fun k => k.vd == v) || decide ((mine.map fun k => k.cu).eraseDups.length < s.vdMaxCu v)) &&
    (s.cuIndexFor l cu).isSome && decide (0 < (s.bucketAt .dispatch v).bal)

/-- The lane-group need of VLHINT (R69). -/
def hintNeed (h : BitVec 16) : Nat :=
  let w := 16 * 2 ^ field h.toNat 14 2
  min 16 (max 1 (ceilDiv (field h.toNat 0 14 * w) 1024))

/-- The lane groups of a CU that are free. -/
def Cu.free (c : Cu) : List Nat := (List.range 32).filter fun g => c.owner g == Option.none

/-- Wholly free for a need: one group, or ceil(h / 4) whole clusters (R69). -/
def Cu.meets (c : Cu) (h : Nat) : Bool :=
  if h = 1 then !c.free.isEmpty
  else decide (ceilDiv h 4 ≤ ((List.range 8).filter fun k => (List.range 4).all fun i => c.owner (4 * k + i) == Option.none).length)

/-- Of two CUs the one the dealer prefers: the better key, ties to the lower number. -/
def bestBy (key : Nat → Nat) (l : List Nat) : Option Nat :=
  l.foldl (fun b x => match b with
    | none => some x
    | some y => if key x < key y then some x else some y) none

/-- A CU has a free group in a cluster that holds short strands (R69, R70). -/
def State.shortRoom (s : State) (cu : Nat) : Bool := (s.cu cu).free.any fun g => s.holdsShort cu 8 (g / 4)

/-- The CU chosen for a launch (R69). -/
def State.placeFor (s : State) (l : Launch) : Option Nat :=
  let ok := (List.range 512).filter fun cu => s.mayPlace l cu
  let h := hintNeed l.card.vlhint
  let near := if h = 1 then ok.filter s.shortRoom else []
  let good := if near.isEmpty then ok.filter fun cu => (s.cu cu).meets h else near
  -- the fewest free groups among the CUs that meet the need, else the most
  if good.isEmpty then bestBy (fun cu => 32 - (s.cu cu).free.length) ok else bestBy (fun cu => (s.cu cu).free.length) good

/-- Launches of a device in the order in which their strands start (R60). -/
def startsFirst (a b : Launch) : Bool := if a.prio ≠ b.prio then decide (b.prio < a.prio) else decide (a.key < b.key)

/-- The launch whose strand starts next, with its CU. While a checkpoint of the device is taken none does (R219, log entry 28). -/
def State.nextStart (s : State) (v : Nat) : Option (Launch × Nat) :=
  if !s.vdEn v || s.ckBusy v then none
  else
    let l := (s.pendingSet v).filter fun l => l.state == .eligible && !l.held && (s.placeFor l).isSome
    let best := l.foldl (fun b x => match b with
      | none => some x
      | some y => if startsFirst x y then some x else some y) none
    best.bind fun l => (s.placeFor l).map fun cu => (l, cu)

/-- s1 to s8 and s31 of a starting strand (R62). -/
def startRegs (l : Launch) : Vector Word 32 :=
  let r := Vector.replicate 32 (0 : Word)
  let r := (List.range 6).foldl (fun (r : Vector Word 32) i => r.set! (i + 1) (l.card.args.toList.getD i 0)) r
  let r := (r.set 7 (BitVec.ofNat 64 l.started)).set 8 (BitVec.ofNat 64 l.card.strands)
  r.set 31 (BitVec.ofNat 64 (0xFE * 2 ^ 56 + l.card.strshare * 1024))

/-- A strand in its start state (R62). -/
def State.startState (s : State) (l : Launch) (cu slot img : Nat) (u : Option Nat) : Strand :=
  { Strand.none with
    status := .running
    ch := { Chanter.zero with
      pc := BitVec.ofNat 64 l.card.entry, s := startRegs l, lc0 := l.card.trip1, lc1 := l.card.trip2 }
    vd := l.vd, ctx := l.ctx, incn := l.incn, strandid := 8 * cu + slot, launchid := BitVec.ofNat 32 l.id, launch := l.key,
    imgidx := img, cuidx := u, priv := (s.reg Reg.privvd).getLsbD l.vd,
    dbgctl := (s.reg (Reg.dbg l.vd + 0x38)).setWidth 32 &&& 0x1F,
    slottb := BitVec.ofNat 48 (s.ctxSlottb l.ctx), cntbase := BitVec.ofNat 16 (s.vdCntLo l.vd), cntn := s.vdCntN l.vd,
    strshare := l.card.strshare, cushare := l.card.cushare, prio := l.prio, strip := ⟨s.now, 0, 0, 0, 0, false⟩ }

/-- Starts the next strand of device v (R62, R68, R69). -/
def State.startStrand (s : State) (v : Nat) : State :=
  match s.nextStart v with
  | none => s
  | some (l, cu) =>
    let slot := ((List.range 8).find? fun i => !((s.onCu cu).any fun k => k.slot == i)).getD 0
    match s.imgFree v, s.cuIndexFor l cu with
    | some img, some u =>
      let c := s.cu cu
      let shares := match u with
        | some i => if c.shares.any (fun x => x.of v u) then c.shares
            else c.shares ++ [⟨l.key, v, i, l.card.cushare, [], true⟩]
        | none => c.shares
      let s' := s.setCu cu { c with split := some l.card.split, shares := shares }
      (s'.addStrand (s.startState l cu slot img u)).setLaunch { l with started := l.started + 1 }
    | _, _ => s

end Sys2Proof.Machine
end

