-- ==== Sys2Proof/Machine/VecOps.lean ====
section
/-! DEFINITION. What one vector word of a convoy does to the vector registers and to memory (spec 14, 15): element by
element over the element groups selected for it. -/

namespace Sys2Proof.Machine

/-- A precise stop an element asks for (R170, R191, R210). -/
structure ElemStop where
  elem  : Nat
  group : Nat
  cause : Cause
  info  : Word
  gen   : BitVec 16
  deriving DecidableEq, Repr

/-- The state of a running convoy: the machine (memory, caches), the registers as its words see them, the registers as they
commit, the values it will push, the stop of an indexed word, which does not stop the others (R171), and the groups that
cannot commit when another word stops: those of indexed elements that faulted or missed, and those at and above VLDFF's k. -/
structure Run where
  s      : State
  w      : VFile
  c      : VFile
  pushes : List (QNum × Word)
  ix     : Option ElemStop
  back   : List Nat

/-- How a word runs: the captured lengths, the groups it executes, those that commit, whether watches and whether traps of
a group are suppressed, the queue entry of OSEL 2, whether only elements of m14 run (R171), which elements, by group and
number, have performed their stores although their groups do not commit (R170), whether the word completes: m13 and m14 are
written then (R149, R171); and whether a word before it has stopped, so that this run of the convoy is not the one that counts and
an atomic word only checks its elements. -/
structure How where
  vl    : Nat
  mvl   : Nat
  fpctl : BitVec 32
  sel   : Nat → Bool
  keep  : Nat → Bool
  sup   : Nat → Bool
  supTrap : Nat → Bool
  ent   : Word
  ixr   : Bool
  early : Nat → Nat → Bool
  whole : Bool
  dry   : Bool

/-- What a word leaves: the run with the stops of its elements, or a wait in a replay queue (R106 step 5). -/
inductive Out where
  | ran (r : Run) (stops : List ElemStop)
  | wait (s : State)

/-- lim of a word of width w (R295). -/
def How.lim (h : How) (w : Nat) : Nat := min h.vl (vlmax w)

/-- The group of an element of width w. -/
def groupOf (w e : Nat) : Nat := e * w / 64

/-- The elements below lim that the governing mask selects, in the groups that run (R296). -/
def actives (h : How) (f : VFile) (mk : MReg) (w : Nat) : List Nat :=
  (List.range (h.lim w)).filter fun e =>
    (f.mask mk).getLsbD e && h.sel (groupOf w e) && (!h.ixr || f.m[14].getLsbD e)

/-- One element's result: its value, its exceptions, whether it saturated. -/
structure ElemOut where
  e   : Nat
  val : Nat
  fl  : Flags
  sat : Bool
  deriving DecidableEq, Repr

/-- Writes the results of a word of element width w, groups counted at width gw: into the working registers, and into the
committed ones for the groups that commit, with their exceptions and m12 bits (R170, R191, R192). -/
def Run.write (r : Run) (h : How) (w gw : Nat) (d : VReg) (l : List ElemOut) : Run :=
  let put := fun (f : VFile) (l : List ElemOut) =>
    let f := f.setV d (setElems w (f.vreg d) (l.map fun x => (x.e, x.val)))
    let f := { f with fpflg := l.foldl (fun (g : BitVec 32) (x : ElemOut) => orFlags g x.fl) f.fpflg }
    f.saturate ((l.filter fun (x : ElemOut) => x.sat).map fun (x : ElemOut) => x.e)
  { r with w := put r.w l, c := put r.c (l.filter fun x => h.keep (groupOf gw x.e)) }

/-- Writes bits of a mask register likewise. -/
def Run.writeMask (r : Run) (h : How) (gw : Nat) (md : MReg) (l : List (Nat × Bool)) (fl : List (Nat × Flags)) : Run :=
  let put := fun (f : VFile) (l : List (Nat × Bool)) (fl : List (Nat × Flags)) =>
    let f := f.setM md (setBits (f.mask md) l)
    { f with fpflg := fl.foldl (fun g x => orFlags g x.2) f.fpflg }
  { r with
    w := put r.w l fl
    c := put r.c (l.filter fun x => h.keep (groupOf gw x.1)) (fl.filter fun x => h.keep (groupOf gw x.1)) }

/-- The traps of a word's exceptions: an active element of m11 whose exception is enabled (R191). -/
def trapsOf (h : How) (m11 : MaskReg) (gw : Nat) (l : List (Nat × Flags)) : List ElemStop :=
  l.filterMap fun x =>
    match fpCause (enabled h.fpctl x.2) with
    | some c => if m11.getLsbD x.1 && !h.supTrap (groupOf gw x.1)
        then some ⟨x.1, groupOf gw x.1, c, BitVec.ofNat 64 x.1, 0⟩ else none
    | none => none

/-- The first operand of an element (R296). -/
def srcVal (h : How) (f : VFile) (sA : Word) (w : Nat) (a : Src) (e : Nat) : Nat :=
  match a with
  | .vec v => elem w (f.vreg v) e
  | .scl _ => sA.toNat % 2 ^ w
  | .que _ => h.ent.toNat % 2 ^ w

/-- An element-wise word: every element reads its operands before any element writes (R296). -/
def Run.ewise (r : Run) (h : How) (mk : MReg) (w gw : Nat) (d : VReg) (op : Nat → FpRes) : Out :=
  let l := (actives h r.w mk gw).map fun e => let x := op e; (⟨e, x.bits, x.fl, x.sat⟩ : ElemOut)
  .ran (r.write h w gw d l) (trapsOf h r.w.m11 gw (l.map fun x => (x.e, x.fl)))

/-- An element-wise word that writes a mask. -/
def Run.ewiseMask (r : Run) (h : How) (mk : MReg) (gw : Nat) (md : MReg) (op : Nat → Bool × Flags) : Out :=
  let l := (actives h r.w mk gw).map fun e => (e, op e)
  .ran (r.writeMask h gw md (l.map fun x => (x.1, x.2.1)) (l.map fun x => (x.1, x.2.2)))
    (trapsOf h r.w.m11 gw (l.map fun x => (x.1, x.2.2)))

/-! ### Integer operations (R301) -/

/-- An integer operation on the stored elements: the result and whether it saturated. -/
def intOp (k : IntOp) (t : VIntTy) (x y : Nat) : Nat × Bool :=
  let w := vintWidth t
  let xs := toSigned w x
  let ys := toSigned w y
  let xv := vintVal t x
  let yv := vintVal t y
  let satTo := fun (z : Int) => let (c, o) := clamp z (intLo w (vintSigned t)) (intHi w (vintSigned t)); (wrapNat w c, o)
  match k with
  | .add => ((x + y) % 2 ^ w, false)
  | .sub => (wrapNat w ((x : Int) - y), false)
  | .mul => (x * y % 2 ^ w, false)
  | .mulh => (wrapNat w (xv * yv / (2 ^ w : Nat)), false)
  | .min => (if yv < xv then y else x, false)
  | .max => (if xv < yv then y else x, false)
  | .and => (x.land y, false)
  | .or => (x.lor y, false)
  | .xor => (x.xor y, false)
  | .shl => (x * 2 ^ (y % w) % 2 ^ w, false)
  | .shr => (x / 2 ^ (y % w), false)
  | .sra => (wrapNat w (xs / (2 ^ (y % w) : Nat)), false)
  | .sadd => satTo (xv + yv)
  | .ssub => let _ := ys; satTo (xv - yv)

/-- VABS (R301): i types saturate at the most negative value, n types leave the element. -/
def absOp (t : VIntTy) (x : Nat) : Nat × Bool :=
  if vintSigned t then
    let w := vintWidth t
    let (c, o) := clamp ((toSigned w x).natAbs) (intLo w true) (intHi w true)
    (wrapNat w c, o)
  else (x, false)

/-- VCVT (R311). -/
def cvtOp (dst src : VIntTy) (x : Nat) : Nat × Bool :=
  let v := vintVal src x
  let wd := vintWidth dst
  if wd < vintWidth src then
    let (c, o) := clamp v (intLo wd (vintSigned dst)) (intHi wd (vintSigned dst))
    (wrapNat wd c, o)
  else (wrapNat wd v, false)

/-- VFCVT on one element (R312). -/
def vfcvtOp (k : VCvt) (m : Rm) (x : Nat) : FpRes :=
  match k with
  | .ff dst src => cvtFF dst src m x
  | .fi dst src => cvtFI (vintWidth dst) (vintSigned dst) src m x
  | .ofInt dst src => cvtIF dst m (vintVal src x)

/-- Source and destination widths of VFCVT. -/
def vcvtWidths : VCvt → Nat × Nat
  | .ff dst src => (fpWidth dst, fpWidth src)
  | .fi dst src => (vintWidth dst, fpWidth src)
  | .ofInt dst src => (fpWidth dst, vintWidth src)

def pureRes (x : Nat × Bool) : FpRes := ⟨x.1, 0, x.2⟩

/-! ### Reductions (R204, R310) -/

/-- A node of the tree: absent, or a value with its lowest leaf. -/
abbrev Node := Option (Nat × Nat)

/-- One op of a floating-point reduction on bits. -/
def fredOp (k : RedOp) (f : FpTy) (m : Rm) (a b : Nat) : FpRes :=
  match k with
  | .sum => fpOp .add f m a b 0
  | .min => fpMinMax f false a b
  | .max => fpMinMax f true a b

/-- Joins two nodes: the value, and the op's exceptions at its lowest leaf (R204). -/
def joinNodes (k : RedOp) (f : FpTy) (m : Rm) (a b : Node) : Node × List (Nat × Flags) :=
  match a, b with
  | none, b => (b, [])
  | a, none => (a, [])
  | some (x, i), some (y, j) => let r := fredOp k f m x y; (some (r.bits, min i j), [(min i j, r.fl)])

/-- One level of the tree. -/
def redLevel (k : RedOp) (f : FpTy) (m : Rm) : List Node → List Node × List (Nat × Flags)
  | a :: b :: l =>
    let (n, fl) := joinNodes k f m a b
    let (ns, fls) := redLevel k f m l
    (n :: ns, fl ++ fls)
  | [a] => ([a], [])
  | [] => ([], [])

/-- The tree over 2^levels nodes. -/
def redTree (k : RedOp) (f : FpTy) (m : Rm) : Nat → List Node → Node × List (Nat × Flags)
  | 0, l => (l.headD none, [])
  | n + 1, l =>
    let (l', fl) := redLevel k f m l
    let (r, fls) := redTree k f m n l'
    (r, fl ++ fls)

/-- An integer reduction of the active elements with an optional start value (R310). -/
def intRed (k : RedOp) (t : VIntTy) (l : List Nat) : Nat :=
  let w := vintWidth t
  match k with
  | .sum => l.foldl (fun a x => (a + x) % 2 ^ w) 0
  | .min => l.foldl (fun a x => if vintVal t x < vintVal t a then x else a) (wrapNat w (intHi w (vintSigned t)))
  | .max => l.foldl (fun a x => if vintVal t a < vintVal t x then x else a) (wrapNat w (intLo w (vintSigned t)))

/-- The queue value of an integer reduction: extended as its type gives. -/
def redPush (t : VIntTy) (x : Nat) : Word := if vintSigned t then sextWord (vintWidth t) x else BitVec.ofNat 64 x

/-! ### Whole-register writes of cross-element words: they commit together (R298) -/

/-- Writes both files alike. -/
def Run.both (r : Run) (f : VFile → VFile) : Run := { r with w := f r.w, c := f r.c }

def Run.push (r : Run) (q : QNum) (x : Word) : Run := { r with pushes := r.pushes ++ [(q, x)] }

/-- A reduction's result goes to element 0 of vD when lim > 0, or into a queue always (R310). -/
def Run.redResult (r : Run) (h : How) (w : Nat) (d : RedDst) (x : Nat) (pushed : Word) : Run :=
  match d with
  | .vec v => if h.lim w = 0 then r else r.both fun f => f.setV v (setElem w (f.vreg v) 0 x)
  | .que q => r.push q pushed

/-- A stop of a word that has no elements of its own. -/
def wordStop (c : Cause) (info : Word) : ElemStop := ⟨0, 256, c, info, 0⟩

/-- The mask-stack words (R307): an MPUSH at depth 16, an MINV or MPOP at depth 0 trap MSTK. -/
def Run.stackWord (r : Run) (f : List MaskEntry → List MaskEntry) (full : Bool) : Out :=
  let k := r.w.stack
  if full && 16 ≤ k.length then .ran r [wordStop .mstk 1]
  else if !full && k.isEmpty then .ran r [wordStop .mstk 0]
  else .ran (r.both fun x => { x with stack := f x.stack }) []

/-! ### Accesses of one strip that have no order (R141 row 1x, R162) -/

/-- A byte of the strand's memory by its place; nothing is known of a peer's. -/
def State.seeKey (s : State) (k : Nat) : Byte :=
  if k < 2 ^ 48 then s.viewByte s.me.cu s.me.slot k
  else if k < 2 ^ 49 then Assoc.get byteDefault (k - 2 ^ 48) s.me.share
  else Assoc.get byteDefault (k - 2 ^ 49) s.cuShareBytes

namespace Older

/-- The record is of the byte at a place. -/
def covers (o : Older) (k : Nat) : Bool := decide (o.key ≤ k) && decide (k < o.key + o.new.length)

/-- Its places, from its first byte, among the n at key k. -/
def touched (o : Older) (k n : Nat) : List Nat :=
  (List.range o.new.length).filter fun i => decide (k ≤ o.key + i) && decide (o.key + i < k + n)

def meets (o : Older) (k n : Nat) : Bool := decide (k < o.key + o.new.length) && decide (o.key < k + n)

/-- What its bytes at the places `l` left stands in a view: no other write has followed there. -/
def stands (o : Older) (v : Nat → Byte) (l : List Nat) : Bool := l.all fun i => v (o.key + i) == o.new.getD i 0

/-- The view without the record's store, where it stands. -/
def undo (o : Older) (v : Nat → Byte) (p : Nat) : Byte :=
  if o.covers p && v p == o.new.getD (p - o.key) 0 then o.old.getD (p - o.key) 0 else v p

/-- A later access with `oe` at the places `l` may come before the whole store: they are not ordered (R141 row 1x), and nothing
that is ordered before the access has read or followed the store there (R147). -/
def free (o : Older) (oe : Bool) (v : Nat → Byte) (l : List Nat) : Bool :=
  !(oe && o.oe) && o.stands v l && l.all fun i => !o.seen.contains i && !(oe && o.ordered.contains i)

/-- A load with `oe` has read the places `l`, from the store or from a later one. -/
def noteRead (o : Older) (oe : Bool) (l : List Nat) : Older :=
  { o with read := o.read ++ l, ordered := if oe then o.ordered ++ l else o.ordered }

/-- No later access falls behind the store at the places `l`, and no later store below it. -/
def fix (o : Older) (l : List Nat) : Older := if l.isEmpty then o else { o with seen := o.seen ++ l, low := false }

end Older

/-- What a load of n bytes at key k reads that may come before the newest stores of the strip: the view of memory it sees, and the
stores it comes before, each as a whole (R138), as far as `pick` takes it. `held` are the stores it comes after. -/
def passStores (oe : Bool) (pick : Nat → Bool) (k n : Nat) : List Older → List Older → (Nat → Byte) → (Nat → Byte) × List Nat
  | [], _, v => (v, [])
  | o :: l, held, v =>
    let t := o.touched k n
    if t.isEmpty then passStores oe pick k n l held (o.undo v)
    else if o.free oe v t && (held.all fun h => !o.meets h.key h.new.length) && pick o.id then
      let (v, ids) := passStores oe pick k n l held (o.undo v)
      (v, o.id :: ids)
    else passStores oe pick k n l (o :: held) v

/-- What a vector load with `oe` takes, from the bytes b that stand at its place: each store of the same strip with which it is
not ordered may come after it, a free choice (Config.freePick). -/
def State.loadPast (s : State) (oe : Bool) (r : Ref) (n : Nat) (fmt : Bool) (b : List Byte) : State × List Byte :=
  match if s.me.older.isEmpty then none else s.placeOf r n fmt with
  | none => (s, b)
  | some l =>
    let k := l.key
    let n := b.length
    if s.me.older.all fun o => !o.meets k n then (s, b)
    else
      let v := fun p => if k ≤ p && p < k + n then b.getD (p - k) 0 else s.seeKey p
      let (v, ids) := passStores oe (Config.freePick s.fresh) k n s.me.older [] v
      let s := s.onMe fun m => { m with older := m.older.map fun o => if ids.contains o.id then o else o.noteRead oe (o.touched k n) }
      ({ s with fresh := s.fresh + 1 }, (List.range n).map fun i => v (k + i))

/-- A load by a vector word. -/
def State.vecLoad (s : State) (oe : Bool) (r : Ref) (n : Nat) (fmt sup : Bool) (ch : BitVec 2) : Ans (List Byte × Desc) :=
  match s.load r n fmt true sup ch with
  | .ok s (b, d) => let (s, b) := s.loadPast oe r n fmt b; .ok s (b, d)
  | .fault s t => .fault s t
  | .wait s => .wait s

/-- The stores above a new one of n bytes at key k, the newest first, below each of which it falls in coherence order, as far as
`pick` takes it (R143); and those beneath it. -/
def fallBelow (oe : Bool) (pick : Nat → Bool) (k n : Nat) : List Older → (Nat → Byte) → List Older × List Older
  | [], _ => ([], [])
  | o :: l, v =>
    let t := o.touched k n
    if t.isEmpty || (o.low && o.free oe v t && pick o.id) then
      let (above, rest) := fallBelow oe pick k n l (o.undo v)
      (o :: above, rest)
    else ([], o :: l)

/-- Slides bytes, by place, in beneath a list of stores: these with what now stands under each, the bytes that none covers, and
what stood at the others. -/
def slideUnder (l : List Older) (w : List (Nat × Byte)) : List Older × List (Nat × Byte) × List (Nat × Byte) :=
  l.foldr (fun o a =>
    let (here, rest) := a.2.1.partition fun x => o.covers x.1
    let old := o.old.zipIdx.map fun x => ((here.find? fun y => y.1 == o.key + x.2).map fun y => y.2).getD x.1
    ({ o with old := old } :: a.1, rest, a.2.2 ++ here.map fun x => (x.1, o.old.getD (x.1 - o.key) 0))) ([], w, [])

/-- Records a vector store that has written at l over the bytes `old`. With `low` it may also fall, as a whole, below stores of
the strip with which it is not ordered, a free choice: their bytes then stand. -/
def State.noteStore (s : State) (oe low : Bool) (l : Loc) (cp : Nat) (old : List Byte) : State :=
  if l.isPeer then s
  else
    let k := l.key
    let n := old.length
    let new := (List.range n).map fun i => s.seeKey (k + i)
    let v := fun p => if k ≤ p && p < k + n then old.getD (p - k) 0 else s.seeKey p
    let near := low && s.me.older.any fun o => o.meets k n
    let (above, rest) := if near then fallBelow oe (Config.freePick s.fresh) k n s.me.older v else ([], s.me.older)
    let (above, bare, under) := slideUnder above (new.zipIdx.map fun x => (k + x.2, x.1))
    let beneath := (List.range n).map fun i => ((under.find? fun x => x.1 == k + i).map fun x => x.2).getD (old.getD i 0)
    let id := s.me.older.foldl (fun m o => max m (o.id + 1)) 0
    let s := s.onMe fun m => { m with older := above ++ ⟨k, beneath, new, id, oe, low, [], [], [], false⟩ :: rest }
    let s := if near then { s with fresh := s.fresh + 1 } else s
    if bare.length = n then s
    else s.writeLoc l cp ((List.range n).map fun i => ((bare.find? fun x => x.1 == k + i).map fun x => x.2).getD (old.getD i 0))

/-- The bytes at a place, before a store there. -/
def State.seeLoc (s : State) (l : Loc) (n : Nat) : List Byte := (List.range n).map fun i => s.seeKey (l.key + i)

/-- A store by a vector word; `mate` is the value for the other nibble of its byte (R325). -/
def State.vecStore (s : State) (oe : Bool) (r : Ref) (n : Nat) (fmt sup : Bool) (ch : BitVec 2) (val : Nat) (mate : Option Nat) :
    Ans (Bool × Loc) :=
  match s.storeWith r n fmt true sup ch val mate with
  | .ok t (c, l) =>
    .ok (t.noteStore oe (!fmt) l (policyOf ch (s.descFor r.slot).2) (s.seeLoc l (if fmt then 1 else n))) (c, l)
  | .fault s t => .fault s t
  | .wait s => .wait s

/-- An atomic operation by a vector word: it performs after the strip's older stores. -/
def State.vecAmo (s : State) (oe : Bool) (r : Ref) (op : AmoOp) (t : AmoTy) (sup : Bool) (y : Nat) : Ans Nat :=
  match s.amo r op t true sup y 0 with
  | .ok u old =>
    match s.placeOf r (amoBytes t) false with
    | some l => .ok (u.noteStore oe false l 0 (leBytes (amoBytes t) old)) old
    | none => .ok u old
  | .fault s t => .fault s t
  | .wait s => .wait s

/-- The chanter has loaded or stored n bytes by reference: no later access of the strip falls behind what it read or
wrote over (R141 row 1, R147). -/
def State.chanterSees (s : State) (r : Ref) (n : Nat) (fmt : Bool) : State :=
  match if s.me.older.isEmpty then none else s.placeOf r n fmt with
  | none => s
  | some l => s.onMe fun m => { m with older := m.older.map fun o => o.fix (o.touched l.key n) }

/-! ### Vector memory words (R317 to R328) -/

/-- Reference of element e: base displacement in bytes or elements, the mode's step, the stored size (R317). -/
def elemRef (p : VMode) (f : VFile) (x : VWord) (m : Addr) (disp : Int) (n w : Nat) (e : Nat) : Ref :=
  let step : Int := match p with
    | .unit => (e * n : Nat)
    | .stride => (e : Int) * x.sB.toInt
    | .index vb => toSigned w (elem w (f.vreg vb) e) * (n : Int)
  refOf m.sl x.sA (disp + step)

/-- Stored size, width, offset and format of a load. -/
def ldShape : LdForm → Nat × Nat × Int × Bool
  | .bytes t off => (memBytes t, memWidth t, off.toInt, false)
  | .fmt _ off => (1, 32, off.toInt, true)

def stShape : StForm → Nat × Nat × Int × Bool
  | .bytes t off => (memBytes t, memWidth t, off.toInt, false)
  | .fmt off => (1, 32, off.toInt, true)

/-- The element a load writes: widened, or the decoded code as an integer or as res32 (R107, R318, R325). -/
def ldElem (x : LdForm) (d : Desc) (off : Int) (b : List Byte) : Nat × Bool :=
  match x with
  | .bytes t _ => (memElem t (ofLe b), false)
  | .fmt res _ =>
    let (c, rsv) := decodeFmt d off (b.headD 0)
    (if res then (resEnc c).1 else wrapNat 32 c, rsv)

/-- An element's access faulted: TINFO and GEN of the hit. -/
def hitStop (w e : Nat) (t : Hit) : ElemStop := ⟨e, groupOf w e, t.cause, t.info, t.gen⟩

/-- Accesses of the elements in a list, in order: the results, the stops, or a wait. -/
def eachElem (s : State) (acc : State → Nat → Ans β) (w : Nat) :
    List Nat → List (Nat × β) → List ElemStop → Except State (State × List (Nat × β) × List ElemStop)
  | [], out, st => .ok (s, out.reverse, st.reverse)
  | e :: l, out, st =>
    match acc s e with
    | .ok s b => eachElem s acc w l ((e, b) :: out) st
    | .fault s t => eachElem s acc w l out (hitStop w e t :: st)
    | .wait s => .error (s.markWait fun q => { q with elem := e })

/-- A vector load word begins: it has made no read request (R370). -/
def State.beginReads (s : State) : State := { s with asked := [] }

/-- The stores of a vector word to memory have entered the write-combining buffer (R370). -/
def State.endWrites (s : State) (l : List Loc) : State := if l.any Loc.isMem then s.settleWcb s.me.cu else s

/-- An indexed access that misses scope (R149): a SYNC slot with SC narrower than HOME, or a VAMO through a leased slot with
SC narrower than domain. -/
def scopeMiss (s : State) (slot : Nat) (sc : BitVec 2) (isAmo : Bool) : Bool :=
  let (_, d) := s.descFor slot
  decide (slot < 252) &&
  ((d.sync && decide (sc.toNat < d.home)) || (isAmo && d.state == 3 && decide (sc.toNat < 3)))

/-- Bits below `lim` of a mask register written from a list of indices (R149, R171). -/
def VFile.markBelow (f : VFile) (k : MReg) (lim : Nat) (l : List Nat) : VFile :=
  f.setM k (setBits (f.mask k) ((List.range lim).map fun e => (e, l.contains e)))

/-- Accesses of an indexed word: the results, the elements that met a fault of R106, and the watch hits. One in an element group
with such a fault is no stop: the fault is taken before it (R210), and the element completes. -/
def indexedElems (s : State) (acc : Bool → State → Nat → Ans β) (w : Nat) (l : List Nat) :
    Except State (State × List (Nat × β) × List ElemStop × List ElemStop) :=
  match eachElem s (acc false) w l [] [] with
  | .error s => .error s
  | .ok (s, got, stops) =>
    let (hits, faults) := stops.partition fun t => t.cause == .watch
    let (past, hits) := hits.partition fun t => faults.any fun f => f.group == t.group
    match eachElem s (acc true) w (past.map fun t => t.elem) [] [] with
    | .error s => .error s
    | .ok (s, more, late) =>
      let all := faults ++ late
      .ok (s, got ++ more, (List.range 1024).filterMap (fun e => all.find? fun t => t.elem == e), hits)

/-- After an indexed word: m13 always, m14 and the reported stop when elements faulted (R149, R171). -/
def Run.indexed (r : Run) (h : How) (w : Nat) (missed : List Nat) (stops : List ElemStop) : Run :=
  let mark := fun (r : Run) (k : MReg) (l : List Nat) =>
    if h.whole then r.both fun f => f.markBelow k (min h.vl 1024) l else { r with w := r.w.markBelow k (min h.vl 1024) l }
  let r := mark r 13 missed
  let r := { r with back := r.back ++ missed.map (groupOf w) ++ stops.map fun t => t.group }
  match stops with
  | [] => r
  | t :: _ => { mark r 14 (stops.map fun t => t.elem) with ix := some t }

/-- VLD, VLDS, VLDX (R325). -/
def Run.load (r : Run) (h : How) (x : VWord) (p : VMode) (v : VAcc) (d : VReg) (m : Addr) (ch : BitVec 2) (f : LdForm) : Out :=
  let (n, w, disp, fmt) := ldShape f
  let act := actives h r.w v.gov w
  let ref := elemRef p r.w x m disp n w
  let indexed := match p with
    | .index _ => true
    | _ => false
  let miss := if indexed then act.filter fun e => scopeMiss r.s (ref e).slot m.sc false else []
  let run := act.filter fun e => !miss.contains e
  let acc := fun (past : Bool) (s : State) (e : Nat) => s.vecLoad v.oe (ref e) n fmt (past || h.sup (groupOf w e)) ch
  let put := fun (s : State) (got : List (Nat × List Byte × Desc)) =>
    ({ r with s := s } : Run).write h w w d (got.map fun g => let y := ldElem f g.2.2 (ref g.1).off g.2.1; ⟨g.1, y.1, 0, y.2⟩)
  if indexed then
    match indexedElems r.s.beginReads acc w run with
    | .error s => .wait s
    | .ok (s, got, faults, hits) => .ran ((put s got).indexed h w miss faults) hits
  else
    match eachElem r.s.beginReads (acc false) w run [] [] with
    | .error s => .wait s
    | .ok (s, got, stops) => .ran (put s got) stops

/-- VLDFF (R172, R326): the elements below the first fault; a fault of the first active element stops. A watch hit below k is a
stop of its own (R210). -/
def Run.loadFF (r : Run) (h : How) (x : VWord) (v : VAcc) (d : VReg) (m : Addr) (ch : BitVec 2) (f : LdForm) (q : QNum) : Out :=
  let (n, w, disp, fmt) := ldShape f
  let act := actives h r.w v.gov w
  let ref := elemRef .unit r.w x m disp n w
  match eachElem r.s.beginReads (fun s e => s.vecLoad v.oe (ref e) n fmt (h.sup (groupOf w e)) ch) w act [] [] with
  | .error s => .wait s
  | .ok (s, got, stops) =>
    let lim := h.lim w
    let k := ((stops.filter fun t => t.cause != .watch).map fun t => t.elem).foldl min lim
    let first := ((List.range lim).find? fun e => (r.w.mask v.gov).getLsbD e).getD lim
    let above := (List.range 256).filter fun g => k < lim && groupOf w k ≤ g
    let r := { r with s := s, back := r.back ++ above }
    if k < lim && k = first then .ran r (stops.filter fun t => t.elem == k)
    else
      let outs := (got.filter fun g => g.1 < k).map fun g =>
        let y := ldElem f g.2.2 (ref g.1).off g.2.1; (⟨g.1, y.1, 0, y.2⟩ : ElemOut)
      .ran ((r.write h w w d outs).push q (BitVec.ofNat 64 k)) (stops.filter fun t => t.elem < k)

/-- VLDSC (R327): two bytes of the scale area per element; a slot without blocks faults SLOTBAD. -/
def Run.loadSc (r : Run) (h : How) (x : VWord) (v : VAcc) (d : VReg) (m : Addr) (ch : BitVec 2) (off : BitVec 14) : Out :=
  let act := actives h r.w v.gov 16
  let base := refOf m.sl x.sA off.toInt
  let acc := fun (s : State) (e : Nat) =>
    let (s, ds) := s.descFor base.slot
    let place := { base with off := ds.scoff + 2 * (base.off / ds.blk + e) }
    if 252 ≤ base.slot || ds.kind = 0 then Ans.fault s (hitOf .slotbad place ds false)
    else s.vecLoad v.oe place 2 false (h.sup (groupOf 16 e)) ch
  match eachElem r.s.beginReads acc 16 act [] [] with
  | .error s => .wait s
  | .ok (s, got, stops) =>
    .ran (({ r with s := s } : Run).write h 16 16 d (got.map fun g => ⟨g.1, ofLe g.2.1, 0, false⟩)) stops

/-- Elements whose stored bytes overlap those of another element of the list. -/
def overlapping (ref : Nat → Ref) (n : Nat) (l : List Nat) : Bool :=
  match l with
  | [] => false
  | e :: rest => (rest.any fun i => (ref e).slot == (ref i).slot && decide (((ref e).off - (ref i).off).natAbs < n)) ||
      overlapping ref n rest

/-- Insertion by a key. -/
def insertKey (key : Nat → Nat) (e : Nat) : List Nat → List Nat
  | [] => [e]
  | i :: l => if key e ≤ key i then e :: i :: l else i :: insertKey key e l

/-- The order in which the elements of one word perform: element order with OE = 1, and where no two overlap, so that the
order cannot be seen; otherwise any order, a free choice (R130, R325, R328). -/
def performOrder (s : State) (oe : Bool) (ref : Nat → Ref) (n : Nat) (l : List Nat) : List Nat × State :=
  if oe || !overlapping ref n l then (l, s)
  else (l.foldr (insertKey (Config.freeSlip s.fresh)) [], { s with fresh := s.fresh + 1 })

/-- Lines that one word's stores cover whole lose their poison (R15). -/
def State.coverLines (s : State) (n : Nat) (locs : List Loc) : State :=
  let addrs := locs.filterMap fun l => match l with
    | .mem a => some a
    | _ => none
  let lines := (addrs.map fun a => a / 128).eraseDups.filter fun l => s.poisoned l
  lines.foldl (fun s l =>
    if (List.range 128).all fun i => addrs.any fun a => a ≤ 128 * l + i && 128 * l + i < a + n
    then s.setPoison l false else s) s

/-- The bits of m12 that a word's clamps set, by group (R108, R192). -/
def Run.satBits (r : Run) (h : How) (w : Nat) (l : List Nat) : Run :=
  { r with w := r.w.saturate l, c := r.c.saturate (l.filter fun e => h.keep (groupOf w e)) }

/-- The store of element e of a word, whose nibble shares its byte with those of other elements: the value of the last of each
parity, and whether e is the one that writes the byte (R325). `val` gives the elements' values. -/
def nibbles (ref : Nat → Ref) (val : Nat → Nat) (l : List Nat) (e : Nat) : Bool × Nat × Option Nat :=
  let same := l.filter fun i => (ref i).slot == (ref e).slot && (ref i).off / 2 == (ref e).off / 2
  let last := fun (p : Int) => (same.filter fun i => (ref i).off % 2 == p).getLast?
  (same.head? == some e, ((last ((ref e).off % 2)).map val).getD (val e), (last (1 - (ref e).off % 2)).map val)

/-- VST, VSTS, VSTX (R325): the stores of the groups that commit, and those that have performed early (R170); every element
is checked. -/
def Run.store (r : Run) (h : How) (x : VWord) (p : VMode) (v : VAcc) (d : VReg) (m : Addr) (ch : BitVec 2) (f : StForm) : Out :=
  let (n, w, disp, fmt) := stShape f
  let act := actives h r.w v.gov w
  let ref := elemRef p r.w x m disp n w
  let indexed := match p with
    | .index _ => true
    | _ => false
  let miss := if indexed then act.filter fun e => scopeMiss r.s (ref e).slot m.sc false else []
  let (run, s) := performOrder r.s v.oe ref n (act.filter fun e => !miss.contains e)
  let performs := fun e => h.keep (groupOf w e) || h.early (groupOf w e) e
  let val := fun e => elem w (r.w.vreg d) e
  let share := if fmt then nibbles ref val (run.filter performs) else fun e => (true, val e, none)
  let acc := fun (past : Bool) (s : State) (e : Nat) =>
    let sup := past || h.sup (groupOf w e)
    let (own, x, mate) := share e
    let half := fmt && (s.descFor (ref e).slot).2.kind == 2
    if performs e && (own || !half) then s.vecStore v.oe (ref e) n fmt sup ch (if half then x else val e) mate
    else
      match s.probe wrOnly (ref e) n fmt true sup with
      | .ok s (l, ds) => .ok s (performs e && fmt && (encodeFmt ds (toSigned 32 (val e))).2, l)
      | .fault s t => .fault s t
      | .wait s => .wait s
  let put := fun (s : State) (got : List (Nat × Bool × Loc)) =>
    let locs := (got.filter fun g => performs g.1).map fun g => g.2.2
    let s := (s.coverLines n locs).endWrites locs
    ({ r with s := s } : Run).satBits h w ((got.filter fun g => g.2.1).map fun g => g.1)
  if indexed then
    match indexedElems s acc w run with
    | .error s => .wait (s.settleWcb s.me.cu)
    | .ok (s, got, faults, hits) => .ran ((put s got).indexed h w miss faults) hits
  else
    match eachElem s (acc false) w run [] [] with
    | .error s => .wait (s.settleWcb s.me.cu)
    | .ok (s, got, stops) => .ran (put s got) ((List.range 1024).filterMap fun e => stops.find? fun t => t.elem == e)

/-- VAMO (R328): each active element one atomic operation; its ORD is its own (R142). Where the word stops at a watch hit, or a
word before it has stopped, the elements of this run are only checked. -/
def Run.amo (r : Run) (h : How) (x : VWord) (v : VAcc) (op : AmoOp) (t : AmoTy) (ord : BitVec 2) (d : VReg) (m : Addr)
    (off : BitVec 12) (b : VReg) : Out :=
  let n := amoBytes t
  let w := 8 * n
  let act := actives h r.w v.gov w
  let ref := elemRef (.index b) r.w x m off.toInt n w
  let miss := act.filter fun e => scopeMiss r.s (ref e).slot m.sc true
  let (run, s) := performOrder r.s v.oe ref n (act.filter fun e => !miss.contains e)
  let check := fun (past : Bool) (s : State) (e : Nat) =>
    match s.probe rdWr (ref e) n false true (past || h.sup (groupOf w e)) with
    | .ok s _ => Ans.ok s (elem w (r.w.vreg d) e)
    | .fault s t => .fault s t
    | .wait s => .wait s
  let perform := fun (s : State) (sup : Bool) (e : Nat) =>
    match s.vecAmo v.oe (ref e) op t sup (elem w (r.w.vreg d) e) with
    | .ok s old => Ans.ok (if ord.getLsbD 0 then s.acquire else s) old
    | .fault s t => .fault s t
    | .wait s => .wait s
  let acc := fun (past : Bool) (s : State) (e : Nat) =>
    let sup := past || h.sup (groupOf w e)
    if !h.keep (groupOf w e) then check past s e
    else if !ord.getLsbD 1 then perform s sup e
    else
      match s.releaseFor (ref e) m.sc true with
      | .ok s _ => perform s sup e
      | .fault s t => .fault s t
      | .wait s => .wait s
  match indexedElems s check w run with
  | .error s => .wait s
  | .ok (s, _, faults, hits) =>
    if h.dry || (h.whole && !hits.isEmpty) then .ran (({ r with s := s } : Run).indexed h w miss faults) hits
    else match indexedElems s acc w run with
      | .error s => .wait s
      | .ok (s, got, faults, hits) =>
        .ran ((({ r with s := s } : Run).write h w w d (got.map fun g => ⟨g.1, g.2, 0, false⟩)).indexed h w miss faults) hits

/-! ### One vector word -/

/-- Mask logic on all 1,024 bits (R305). -/
def maskOp (k : MaskOp) (a b : MaskReg) : MaskReg :=
  match k with
  | .and => a &&& b | .or => a ||| b | .xor => a ^^^ b | .andn => a &&& ~~~b | .not => ~~~a | .mov => a

/-- VCOMPRESS (R308). -/
def compressed (w : Nat) (v : VecReg) (sel : List Nat) : List (Nat × Nat) :=
  sel.zipIdx.map fun x => (x.2, elem w v x.1)

/-- Elements below lim that the mask selects, whatever the groups. -/
def selected (h : How) (f : VFile) (mk : MReg) (w : Nat) : List Nat :=
  (List.range (h.lim w)).filter fun e => (f.mask mk).getLsbD e

/-- What a word of group 2, or a vector memory word, does (spec 14, 15). Matrix words do nothing here. -/
def Run.vecWord (r : Run) (h : How) (x : VWord) : Out :=
  let f := r.w
  let mk := x.gov
  let rm := fun m => modeOf m h.fpctl
  match x.op with
  | .int k t d a b =>
    let w := vintWidth t
    r.ewise h mk w w d fun e => pureRes (intOp k t (srcVal h f x.sA w a e) (elem w (f.vreg b) e))
  | .abs t d a =>
    let w := vintWidth t
    r.ewise h mk w w d fun e => pureRes (absOp t (elem w (f.vreg a) e))
  | .fp k t m d a b =>
    let w := fpWidth t
    r.ewise h mk w w d fun e => fpOp k t (rm m) (srcVal h f x.sA w a e) (elem w (f.vreg b) e) (elem w (f.vreg d) e)
  | .fpUn k t m d a =>
    let w := fpWidth t
    r.ewise h mk w w d fun e => fpUn k t (rm m) (elem w (f.vreg a) e)
  | .cmp t k md a b =>
    let w := vintWidth t
    r.ewiseMask h mk w md fun e => (condInt k (vintVal t (srcVal h f x.sA w a e)) (vintVal t (elem w (f.vreg b) e)), 0)
  | .fcmp t k md a b =>
    let w := fpWidth t
    r.ewiseMask h mk w md fun e => fpCmp k (fpRead t (srcVal h f x.sA w a e)) (fpRead t (elem w (f.vreg b) e))
  | .fclass t d a =>
    let w := fpWidth t
    r.ewise h mk w w d fun e => ⟨fpClass t (elem w (f.vreg a) e), 0, false⟩
  | .cvt dst src d a =>
    let g := max (vintWidth dst) (vintWidth src)
    r.ewise h mk (vintWidth dst) g d fun e => pureRes (cvtOp dst src (elem (vintWidth src) (f.vreg a) e))
  | .fcvt k m d a =>
    let (wd, ws) := vcvtWidths k
    r.ewise h mk wd (max wd ws) d fun e => vfcvtOp k (rm m) (elem ws (f.vreg a) e)
  | .resenc t d a =>
    let w := vintWidth t
    r.ewise h mk 32 (max w 32) d fun e => pureRes (resEnc (vintVal t (elem w (f.vreg a) e)))
  | .resdec t d a =>
    let w := vintWidth t
    r.ewise h mk w (max w 32) d fun e =>
      let (v, o) := resDec (elem 32 (f.vreg a) e)
      let (c, o') := clamp v (intLo w (vintSigned t)) (intHi w (vintSigned t))
      ⟨wrapNat w c, 0, o || o'⟩
  | .res k d a b =>
    r.ewise h mk 32 32 d fun e =>
      let y := elem 32 (f.vreg a) e
      let z := elem 32 (f.vreg b) e
      ⟨match k with
       | .mac => resAdd (elem 32 (f.vreg d) e) (resMul y z)
       | .add => resAdd y z
       | .mul => resMul y z, 0, false⟩
  | .bcast t d a =>
    let w := wtyWidth t
    match a with
    | .vec v => .ran (r.both fun g => g.setV d (setElems w (g.vreg d) ((selected h f mk w).map fun e => (e, elem w (f.vreg v) 0)))) []
    | a => r.ewise h mk w w d fun e => ⟨srcVal h f x.sA w a e, 0, false⟩
  | .ins t d a =>
    let w := wtyWidth t
    let s := x.sB.toNat
    if s < h.lim w && h.sel (groupOf w s) then .ran (r.write h w w d [⟨s, srcVal h f x.sA w a s, 0, false⟩]) [] else .ran r []
  | .merge t d a b =>
    let w := wtyWidth t
    r.ewise h 0 w w d fun e => ⟨if (f.mask mk).getLsbD e then elem w (f.vreg a) e else elem w (f.vreg b) e, 0, false⟩
  | .mov t d a =>
    let w := wtyWidth t
    r.ewise h mk w w d fun e => ⟨elem w (f.vreg a) e, 0, false⟩
  | .mlog k md ma mb => .ran (r.both fun g => g.setM md (maskOp k (f.mask ma) (f.mask mb))) []
  | .mpopc q ma => .ran (r.push q (BitVec.ofNat 64 ((selected h f mk 16).countP fun e => (f.mask ma).getLsbD e))) []
  | .mfirst q ma =>
    .ran (r.push q (BitVec.ofNat 64 (((selected h f mk 16).find? fun e => (f.mask ma).getLsbD e).getD (h.lim 16)))) []
  | .mpush ma => r.stackWord (fun k => ⟨f.mask ma &&& stackTop k, stackTop k⟩ :: k) true
  | .minv => r.stackWord (fun k => match k with
      | e :: l => { e with active := e.parent &&& ~~~e.active } :: l
      | [] => []) false
  | .mpop => r.stackWord (fun k => k.tail) false
  | .mtop md => .ran (r.both fun g => g.setM md (stackTop f.stack)) []
  | .compress t d a =>
    let w := wtyWidth t
    .ran (r.both fun g => g.setV d (setElems w (g.vreg d) (compressed w (f.vreg a) (selected h f mk w)))) []
  | .iota t d =>
    let w := wtyWidth t
    .ran (r.both fun g => g.setV d (setElems w (g.vreg d) ((List.range (h.lim w)).map fun e => (e, popBelow (f.mask mk) e)))) []
  | .perm t d a b =>
    let w := wtyWidth t
    .ran (r.both fun g => g.setV d (setElems w (g.vreg d) ((selected h f mk w).map fun e =>
      let i := elem w (f.vreg b) e
      (e, if i < h.lim w then elem w (f.vreg a) i else 0)))) []
  | .slideup t d a =>
    let w := wtyWidth t
    let s := x.sB.toNat
    .ran (r.both fun g => g.setV d (setElems w (g.vreg d)
      (((selected h f mk w).filter fun e => s ≤ e).map fun e => (e, elem w (f.vreg a) (e - s))))) []
  | .slidedn t d a =>
    let w := wtyWidth t
    let s := x.sB.toNat
    .ran (r.both fun g => g.setV d (setElems w (g.vreg d) ((selected h f mk w).map fun e =>
      (e, if e + s < h.lim w then elem w (f.vreg a) (e + s) else 0)))) []
  | .extr t q a =>
    let w := wtyWidth t
    .ran (r.push q (BitVec.ofNat 64 (if x.sB.toNat < h.lim w then elem w (f.vreg a) x.sB.toNat else 0))) []
  | .red k t d a st =>
    let w := vintWidth t
    let l := (selected h f mk w).map fun e => elem w (f.vreg a) e
    let l := match st with
      | some b => l ++ [elem w (f.vreg b) 0]
      | none => l
    -- with nothing to combine: 0, the greatest or the least value (R310)
    .ran (r.redResult h w d (intRed k t l) (redPush t (intRed k t l))) []
  | .fred k t m d a st =>
    let w := fpWidth t
    let act := selected h f mk w
    let nodes := (List.range (vlmax w)).map fun e => if act.contains e then some (elem w (f.vreg a) e, e) else none
    let (root, fls) := redTree k t (rm m) (vlmax w).log2 nodes
    let (res, fls) := match root, st with
      | none, none => (match k with
          | .sum => 0
          | _ => canonNaN t, fls)
      | none, some b => (elem w (f.vreg b) 0, fls)
      | some (y, _), none => (y, fls)
      | some (y, i), some b => let o := fredOp k t (rm m) y (elem w (f.vreg b) 0); (o.bits, fls ++ [(i, o.fl)])
    -- exceptions of ops with one lowest leaf are those of one element, in the order of R191
    let traps := trapsOf h f.m11 w (fls.map fun y => (y.1, fls.foldl (fun g z => if z.1 = y.1 then g ||| z.2 else g) 0))
    let low := traps.foldl (fun n t => min n t.elem) (vlmax w)
    let r := r.both fun g => { g with fpflg := fls.foldl (fun z y => orFlags z y.2) g.fpflg }
    .ran (r.redResult h w d res (BitVec.ofNat 64 res)) (traps.filter fun t => t.elem == low)
  | .ld p v d m ch f => r.load h x p v d m ch f
  | .ldff v d m ch f q => r.loadFF h x v d m ch f q
  | .ldsc v d m ch off => r.loadSc h x v d m ch off
  | .st p v d m ch f => r.store h x p v d m ch f
  | .amo v op t ord d m off b => r.amo h x v op t ord d m off b
  | _ => .ran r []

end Sys2Proof.Machine
end

