-- ==== Sys2Proof/Machine/MatOps.lean ====
section
/-! DEFINITION. What a matrix word does to the tiles and to memory (spec 16, R336 to R346). -/

namespace Sys2Proof.Machine

/-- mlim (R338): MVL as captured, at most 64, 32 or 16. -/
def How.mlim (h : How) (top : Nat) : Nat := min h.mvl top

/-- Bytes of a tile element, and how many rows a word may use. -/
def mergeSize : MergeTy → Nat
  | .f64 => 8
  | _ => 4

def mergeTop : MergeTy → Nat
  | .f64 => 16
  | _ => 64

/-- The (row, column) pairs a word works on: rows that the governing mask selects, in row-major order (R337). -/
def cells (f : VFile) (mk : MReg) (n : Nat) (cols : Nat → Bool) : List (Nat × Nat) :=
  ((List.range n).filter fun i => (f.mask mk).getLsbD i).flatMap fun i =>
    ((List.range n).filter cols).map fun j => (i, j)

/-- One element's new value, its exceptions, whether it sets SAT. -/
abbrev TileOut := Nat × Nat × FpRes

/-- Writes elements of a tile and ORs their exceptions into MFLG (R191, R337). -/
def VFile.putTile (f : VFile) (td : TReg) (s : Nat) (l : List TileOut) : VFile :=
  let f := f.setT td (l.foldl (fun t x => setTileElem s t x.1 x.2.1 x.2.2.bits) (f.tile td))
  { f with mflg := l.foldl (fun m x => orMflg m x.2.2.fl x.2.2.sat) f.mflg }

/-- The format and the top of MOPA and MOPS (R338, R339). -/
def mopShape : MopTy → FpTy × Nat × Nat × Nat      -- the tile's format, its element size, operand width, limit
  | .fp .f16 _ => (.f32, 4, 16, 64)
  | .fp .bf16 _ => (.f32, 4, 16, 64)
  | .fp .f32 _ => (.f32, 4, 32, 32)
  | .fp .f64 _ => (.f64, 8, 64, 16)
  | .res => (.f32, 4, 32, 64)

/-- One element of an outer product (R205, R339). -/
def mopElem (neg : Bool) (k : MopTy) (fpctl : BitVec 32) (t x y : Nat) : FpRes :=
  match k with
  | .res =>
    let q := resMul x y
    ⟨resAdd t (if neg then resNeg q else q), 0, resOor t || resOor x || resOor y⟩
  | .fp ty rm =>
    let p := fpProd (fpRead ty x) (fpRead ty y)
    let ft := (mopShape k).1
    addProd ft (modeOf rm fpctl) (if neg then p.negate else p) (fpRead ft t)

/-- One element of MFOLD: the three-way product exact (R343). -/
def mfoldElem (m : Rm) (t a b r : Nat) : FpRes :=
  let (v, oor) := resDec r
  let p := fpProd (fpProd (fpRead .bf16 a) (fpRead .bf16 b)).toFp (.fin (decide (v < 0)) v.natAbs 0)
  { addProd .f32 m p (fpRead .f32 t) with sat := oor }

def mergeFp : MergeTy → FpTy
  | .f64 => .f64
  | _ => .f32

/-- f32 or f64 to res (R344). -/
def fpToRes (src : FpTy) (m : Rm) (bits : Nat) : FpRes :=
  match fpRead src bits with
  | .nan _ => ⟨resPack 0 0 0 true, flagI, true⟩
  | .inf neg => ⟨(resEnc (if neg then resLo - 1 else resHi + 1)).1, flagI, true⟩
  | .fin neg x e =>
    let (n, ix) := roundToInt m neg x e
    let (r, far) := resEnc n
    ⟨r, if far then flagI else if ix then flagX else 0, far⟩

/-- One element of MCVT (R344). -/
def mcvtElem (dst : MatTy) (m : Rm) (src : MergeTy) (x : Nat) : FpRes :=
  match dst, src with
  | .res, .res => ⟨x, 0, false⟩
  | .fp f, .res => let (v, oor) := resDec x; { cvtIF f m v with sat := oor }
  | .res, s => fpToRes (mergeFp s) m x
  | .fp f, s => if f = mergeFp s then ⟨x, 0, false⟩ else cvtFF f (mergeFp s) m x

/-- Bytes of a tile element of MCVT's destination: a 16-bit result stands in a 32-bit element (R344). -/
def matSize : MatTy → Nat
  | .fp .f64 => 8
  | _ => 4

/-- Row r of a tile as a number, and a tile with a row written (R342). -/
def tileRow (t : Tile) (r : Nat) : Nat := elem 2048 t r

/-! ### Tile loads and stores (R341) -/

def tileTyBytes : TileTy → Nat
  | .i64 => 8
  | _ => 4

/-- Stored size, tile element size, limit, displacement, format. -/
def tileLdShape : TileLd → Nat × Nat × Nat × Int × Bool
  | .bytes t off => (tileTyBytes t, tileTyBytes t, if tileTyBytes t = 8 then 16 else 64, off.toInt, false)
  | .fmt _ off => (1, 4, 64, off.toInt, true)

def tileStShape : TileSt → Nat × Nat × Nat × Int × Bool
  | .bytes t off => (tileTyBytes t, tileTyBytes t, if tileTyBytes t = 8 then 16 else 64, off.toInt, false)
  | .fmt off => (1, 4, 64, off.toInt, true)

/-- Reference of element (i, j). -/
def tileRef (x : VWord) (m : Addr) (disp : Int) (n : Nat) (i j : Nat) : Ref :=
  refOf m.sl x.sA (disp + (i : Int) * x.sB.toInt + (j * n : Nat))

/-- The stops of a word that commits as a whole name its elements in row-major order. -/
def rowMajor (n : Nat) (c : Nat × Nat) : Nat := c.1 * n + c.2

/-- MLDT. -/
def Run.tileLoad (r : Run) (h : How) (x : VWord) (v : VAcc) (td : TReg) (m : Addr) (ch : BitVec 2) (f : TileLd) : Out :=
  let (n, s, top, disp, fmt) := tileLdShape f
  let lim := h.mlim top
  let act := cells r.w v.gov lim fun _ => true
  let at' := fun e => tileRef x m disp n (e / lim) (e % lim)
  match eachElem r.s.beginReads (fun s e => s.vecLoad v.oe (at' e) n fmt (h.sup 256) ch) 64 (act.map (rowMajor lim)) [] [] with
  | .error s => .wait s
  | .ok (st, got, stops) =>
    let outs := got.map fun g =>
      let y := match f with
        | .bytes _ _ => (ofLe g.2.1, false)
        | .fmt res _ =>
          let (c, rsv) := decodeFmt g.2.2 (at' g.1).off (g.2.1.headD 0)
          (if res then (resEnc c).1 else wrapNat 32 c, rsv)
      ((g.1 / lim, g.1 % lim, (⟨y.1, 0, y.2⟩ : FpRes)) : TileOut)
    .ran (({ r with s := st } : Run).both fun g => g.putTile td s outs) stops

/-- MSTT: every element is checked before any is stored; of a word that does not complete, elements that pass may have
stored early (R170). -/
def Run.tileStore (r : Run) (h : How) (x : VWord) (v : VAcc) (td : TReg) (m : Addr) (ch : BitVec 2) (f : TileSt) : Out :=
  let (n, s, top, disp, fmt) := tileStShape f
  let lim := h.mlim top
  let act := (cells r.w v.gov lim fun _ => true).map (rowMajor lim)
  let at' := fun e => tileRef x m disp n (e / lim) (e % lim)
  let val := fun e => tileElem s (r.w.tile td) (e / lim) (e % lim)
  let check := fun (s : State) (e : Nat) =>
    match s.probe wrOnly (at' e) n fmt true (h.sup 256) with
    | .ok s _ => Ans.ok s ()
    | .fault s t => .fault s t
    | .wait s => .wait s
  match eachElem r.s check 64 act [] [] with
  | .error s => .wait s
  | .ok (st, _, stops) =>
    if h.whole && !stops.isEmpty then .ran { r with s := st } stops
    else
      let act := if h.whole then act else act.filter fun e => h.early 256 e && stops.all fun t => t.elem != e
      let (order, st) := performOrder st v.oe at' n act
      let share := if fmt then nibbles at' val order else fun e => (true, val e, none)
      let put := fun (q : State) (e : Nat) =>
        let (own, x, mate) := share e
        let (q, ds) := q.descFor (at' e).slot
        let half := fmt && ds.kind == 2
        if own || !half then q.vecStore v.oe (at' e) n fmt true ch (if half then x else val e) mate
        else match q.probe wrOnly (at' e) n fmt true true with
          | .ok q (l, _) => .ok q ((encodeFmt ds (toSigned 32 (val e))).2, l)
          | .fault q t => .fault q t
          | .wait q => .wait q
      match eachElem st put 64 order [] [] with
      | .error s => .wait (s.settleWcb s.me.cu)
      | .ok (st, got, stops) =>
        let locs := got.map fun g => g.2.2
        let st := (st.coverLines n locs).endWrites locs
        let sat := got.any fun g => g.2.1
        .ran (({ r with s := st } : Run).both fun g => { g with mflg := orMflg g.mflg 0 sat }) stops

/-! ### Merges (R125 to R127, R345, R346) -/

/-- The elements of a part written into a line, one after another, rounded to nearest even (R125, R206). -/
def mergeElem (k : MergeKind) (v p : Nat) : Nat :=
  match k with
  | .f32 => (fpOp .add .f32 .rne v p 0).bits
  | .f64 => (fpOp .add .f64 .rne v p 0).bits
  | .res => resAdd v p

def kindSize : MergeKind → Nat
  | .f64 => 8
  | _ => 4

/-- A line with a part's enabled elements added. -/
def addPart (line : BitVec 1024) (p : Part) : BitVec 1024 :=
  let s := kindSize p.kind
  (List.range (128 / s)).foldl (fun l e =>
    if p.mask.getLsbD (s * e) then setElem (8 * s) l e (mergeElem p.kind (elem (8 * s) l e) (elem (8 * s) p.data e)) else l) line

/-- The compute units of a context's strands drop their L1 copies of a line, which its merge has changed (R120, R141). -/
def State.dropCopies (s : State) (ctx incn line : Nat) : State :=
  ((s.me :: s.others).filter fun k => k.status != .empty && k.ctx == ctx && k.incn == incn).foldl (fun s k =>
    let c := s.cu k.cu
    s.setCu k.cu { c with l1 := c.l1.filter fun l => l.line != line }) s

/-- A line written with the sum at its home slice; a poisoned line stays poisoned and is counted in MRGERR (R125). -/
def State.writeMerged (s : State) (vd ctx incn line : Nat) (v : BitVec 1024) : State :=
  let s := if s.poisoned line then s.countReg Reg.mrgerr 32 else s
  (s.homeWrite vd (128 * line) (leBytes 128 v.toNat) 0).dropCopies ctx incn line

/-- An unordered merge adds its row at arrival (R127), which the order log records (R220). -/
def State.mergeNow (s : State) (w : PartWait) : State :=
  (s.writeMerged w.vd w.ctx w.incn w.line (addPart (s.homeLine w.line) w.part)).orderLogOf w.vd w.strandid w.stripn
    (.merge w.line (s.logPos w.vd w.line))

/-- The parts of an entry in part order. -/
def sortParts (l : List Part) : List Part := (List.range 16).filterMap fun i => l.find? fun p => p.p == i

/-- An entry closes with the parts it holds (R125, R126). -/
def State.closeMerge (s : State) (e : Merge) : State :=
  let s := { s with merges := s.merges.filter fun o => !(o.ctx == e.ctx && o.incn == e.incn && o.line == e.line) }
  s.writeMerged e.vd e.ctx e.incn e.line ((sortParts e.parts).foldl addPart (s.homeLine e.line))

/-- An ordered part at the slice (R125): dropped and counted, waiting, or in an entry; the last part closes it. The second
answer says whether it is accepted or dropped, the first holds the state. -/
def State.mergePart (s : State) (ctx incn vd line n : Nat) (p : Part) : State × Bool :=
  match s.merges.find? fun e => e.ctx == ctx && e.incn == incn && e.line == line with
  | some e =>
    if e.n ≠ n then (s.countReg Reg.mrgerr 32, true)
    else if e.parts.any fun q => q.p == p.p then (s, false)
    else
      let e' := { e with parts := e.parts ++ [p] }
      if e'.parts.length = n then (s.closeMerge e', true)
      else ({ s with merges := s.merges.map fun o => if o = e then e' else o }, true)
  | none =>
    if 64 ≤ (s.merges.filter fun e => homeSlice e.line == homeSlice line).length then (s, false)
    else
      let e : Merge := ⟨ctx, incn, vd, line, n, [p], s.now⟩
      if n = 1 then (s.closeMerge e, true) else ({ s with merges := s.merges ++ [e] }, true)

/-- The tag of a request is that of the current incarnation (R181). -/
def State.tagCurrent (s : State) (ctx incn : Nat) : Bool := s.curIncn ctx == incn

/-- A part arrives at its home slice (R125, R127): false where it must wait, also for a critical stack (R18). One of an old
incarnation is dropped and counted (R182). A part with n = 0 is unordered. -/
def State.arrive (s : State) (w : PartWait) : State × Bool :=
  if !s.tagCurrent w.ctx w.incn then (s.countReg Reg.stalecnt 32, true)
  else if s.lineWaits w.vd w.line then (s, false)
  else if w.n = 0 then (s.mergeNow w, true)
  else s.mergePart w.ctx w.incn w.vd w.line w.n w.part

/-- Where a part waits that its slice cannot take: in the replay queue, or at its requester while that is full (R113). -/
def State.parked (s : State) (w : PartWait) : PartWait :=
  if w.at' = .queue || s.queued (homeSlice w.line) < 256 then { w with at' := .queue } else { w with at' := .requester }

/-- A waiting part tries again; taken or dropped, it leaves the queue. -/
def State.retryPart (s : State) (w : PartWait) : State :=
  -- an older part of the same key and index goes first
  if s.partq.find? (fun o => o.ctx == w.ctx && o.incn == w.incn && o.line == w.line && o.n == w.n && o.part.p == w.part.p) == some w then
    let (s', ok) := s.arrive w
    if ok then { s' with partq := s'.partq.erase w }
    else { s' with partq := s'.partq.map fun o => if o = w then s'.parked w else o }
  else s

/-- Tries every waiting ordered part once, oldest first (R125). -/
def State.retryParts (s : State) : State := (s.partq.filter fun w => w.n != 0).foldl State.retryPart s

/-- A part sent by a strand through a slot, n = 0 for an unordered one, after the CU's own older stores to the line (R141 row 1):
it arrives at once, or with turns of its own waits for the step that delivers it. -/
def State.sendPart (s : State) (slot : Nat) (d : Desc) (line n : Nat) (p : Part) : State :=
  let k := s.me
  let w : PartWait := ⟨k.ctx, k.incn, k.vd, line, slot, (128 * line : Int) - d.base, k.slottb.toNat, n, k.imgidx, k.strandid,
    k.ch.stripn, .way, p⟩
  let s := s.flushLine k.cu line
  if k.ahead then { s with partq := s.partq ++ [w] }
  else
    let (s', ok) := s.arrive w
    if ok then s'.retryParts else { s' with partq := s'.partq ++ [s'.parked w] }

def mergeKindOf : MergeTy → MergeKind
  | .f32 => .f32
  | .f64 => .f64
  | .res => .res

/-- MMERGE (R345, R346): the checks in their order, of every element of the region, then one part for each of its lines. -/
def Run.merge (r : Run) (h : How) (x : VWord) (t : MergeTy) (ord : Bool) (td : TReg) (m : Addr) (off : BitVec 16) : Out :=
  let sz := mergeSize t
  let lim := h.mlim (mergeTop t)
  let base := refOf m.sl x.sA off.toInt
  let p := field x.sB.toNat 0 8
  let n := field x.sB.toNat 8 8
  let (s, d) := r.s.descFor base.slot
  if lim = 0 then .ran r []
  else if ord && (n = 0 || 16 < n || n ≤ p) then .ran r [wordStop .resfield x.word]
  else if base.slot = 253 || base.slot = 254 || (base.slot < 252 && !d.bad && d.state = 3) then
    .ran { r with s := s } [{ wordStop .slotbad (slotInfo base.slot base.off) with gen := d.gen }]
  else
    let on := fun e => (r.w.mask x.gov).getLsbD (e / lim)
    let at' := fun e : Nat => ({ base with off := base.off + (e * sz : Nat) } : Ref)
    let check := fun (s : State) (e : Nat) =>
      match s.probe wrOnly (at' e) sz false true (h.sup 256 || !on e) with
      | .ok s (.mem a, _) => Ans.ok s a
      | .ok s _ => .ok s 0
      | .fault s t => .fault s t
      | .wait s => .wait s
    match eachElem s check 64 (List.range (lim * lim)) [] [] with
    | .error s => .wait s
    | .ok (s, got, stops) =>
      if !stops.isEmpty then .ran { r with s := s } stops
      else if !h.whole then .ran { r with s := s } []
      else
        -- the lines the mlim x mlim region touches; the region lies whole in the slot's physical range
        let a0 := ((d.base : Int) + base.off).toNat
        let bytes := lim * lim * sz
        let lines := (List.range ((a0 + bytes + 127) / 128 - a0 / 128)).map fun i => a0 / 128 + i
        let part := fun line =>
          let el := got.filter fun g => on g.1 && g.2 / 128 == line
          let data := el.foldl (fun v g => setElem (8 * sz) v (g.2 % 128 / sz) (tileElem sz (r.w.tile td) (g.1 / lim) (g.1 % lim))) (0 : BitVec 1024)
          let mask := el.foldl (fun v g => setElem sz v (g.2 % 128 / sz) (2 ^ sz - 1)) (0 : BitVec 128)
          (⟨p, mergeKindOf t, mask, data⟩ : Part)
        .ran { r with s := lines.foldl (fun s line =>
          let p := part line
          if !ord && p.mask = 0 then s else s.sendPart base.slot d line (if ord then n else 0) p) s } []

/-! ### One matrix word -/

def matRm (fpctl : BitVec 32) (m : Rm) : Rm := modeOf m fpctl

/-- What a word of group 4 does; every other word as `vecWord` gives. -/
def Run.anyWord (r : Run) (h : How) (x : VWord) : Out :=
  let f := r.w
  match x.op with
  | .mopa neg k mc td a b =>
    let (_, s, w, top) := mopShape k
    let l := (cells f x.gov (h.mlim top) fun j => (f.mask mc).getLsbD j).map fun c =>
      (c.1, c.2, mopElem neg k h.fpctl (tileElem s (f.tile td) c.1 c.2) (elem w (f.vreg a) c.1) (elem w (f.vreg b) c.2))
    .ran (r.both fun g => g.putTile td s l) []
  | .mzero td => .ran (r.both fun g => g.setT td 0) []
  | .mldt v td m ch t => r.tileLoad h x v td m ch t
  | .mstt v td m ch t => r.tileStore h x v td m ch t
  | .mmerge t ord td m off => r.merge h x t ord td m off
  | .mrow d ta =>
    let i := x.sB.toNat
    .ran (r.both fun g => g.setV d (setElem 2048 (g.vreg d) 0 (if i < 64 then tileRow (g.tile ta) i else 0))) []
  | .mwrow td a =>
    let i := x.sB.toNat
    .ran (if i < 64 then r.both fun g => g.setT td (setElem 2048 (g.tile td) i (elem 2048 (g.vreg a) 0)) else r) []
  | .mfold rm td ts a b =>
    let l := (cells f x.gov (h.mlim 64) fun _ => true).map fun c =>
      (c.1, c.2, mfoldElem (matRm h.fpctl rm) (tileElem 4 (f.tile td) c.1 c.2) (elem 16 (f.vreg a) c.1) (elem 16 (f.vreg b) c.2)
        (tileElem 4 (f.tile ts) c.1 c.2))
    .ran (r.both fun g => g.putTile td 4 l) []
  | .mcvt dst rm src td ta =>
    let top := if matSize dst = 8 || mergeSize src = 8 then 16 else 64
    let l := (cells f x.gov (h.mlim top) fun _ => true).map fun c =>
      (c.1, c.2, mcvtElem dst (matRm h.fpctl rm) src (tileElem (mergeSize src) (f.tile ta) c.1 c.2))
    .ran (r.both fun g => g.putTile td (matSize dst) l) []
  | _ => r.vecWord h x

end Sys2Proof.Machine
end

