-- ==== Sys2Proof/Machine/Bellows.lean ====
section
/-! DEFINITION. The bellows (spec 16, R348 to R355): beats, chunks and completions of the transfers of the copy channels. -/

namespace Sys2Proof.Machine

/-! ### Fields of a channel's registers (R348) -/

namespace Channel

def size (c : Channel) : Nat := field c.len.toNat 0 40
def row (c : Channel) : Nat := field c.str.toNat 0 20
def spitch (c : Channel) : Nat := field c.str.toNat 20 22
def dpitch (c : Channel) : Nat := field c.str.toNat 42 22
def sc (c : Channel) : BitVec 2 := c.ctl.extractLsb' 0 2
def ch (c : Channel) : BitVec 2 := c.ctl.extractLsb' 2 2
def flagen (c : Channel) : Bool := c.ctl.getLsbD 4
def dreg (c : Channel) : Bool := c.ctl.getLsbD 5
def cw (c : Channel) : Nat := field c.ctl.toNat 14 2
def chlog (c : Channel) : Nat := field c.ctl.toNat 16 4
def cmask (c : Channel) : BitVec 4 := c.ctl.extractLsb' 20 4
def tstrand (c : Channel) : Nat := field c.ctl.toNat 24 12
def rsh (c : Channel) : Bool := c.ctl.getLsbD 36
/-- Bytes of an element of the chunk mask. -/
def wb (c : Channel) : Nat := 2 * 2 ^ c.cw
def chunk (c : Channel) : Nat := 2 ^ (c.chlog + 6)
/-- Source and destination offsets of payload byte x (R350). -/
def srcOff (c : Channel) (x : Nat) : Nat := if c.row = 0 then x else x / c.row * c.spitch + x % c.row
def dstOff (c : Channel) (x : Nat) : Nat := if c.row = 0 then x else x / c.row * c.dpitch + x % c.row
/-- A transfer that the end of the strand of image index `img` waits for (R281): it writes the strand's own share, be it by RSH, a
register, or a chunk mask. -/
def bound (c : Channel) (img : Nat) : Bool :=
  c.dreg || c.cmask != 0 || (c.dst.extractLsb' 56 8 == 254 && (!c.rsh || c.tstrand == img))

end Channel

/-! ### Images (R96, R175) -/

def imageSize : Nat := 147456

/-- The record of image index i of device v. -/
def State.imgAddr (s : State) (v i : Nat) : Nat := s.vdImgBase v + i * (imageSize + 4096 * s.vdSsMax v)

/-- The CU share image u of device v (R175). -/
def State.cuImgAddr (s : State) (v u : Nat) : Nat :=
  s.vdImgBase v + s.vdMaxStr v * (imageSize + 4096 * s.vdSsMax v) + u * 4096 * s.vdCsMax v

/-! ### The strand of a transfer -/

/-- The strand that launched a transfer, while it has not ended. -/
def State.strandOf (s : State) (x : Xfer) : Option Strand :=
  if x.orphan then none else s.strands.find? fun k => k.is x.vd x.imgidx

def State.updStrand (s : State) (v i : Nat) (f : Strand → Strand) : State :=
  s.mapStrands fun k => if k.is v i then f k else k

def State.setXfer (s : State) (x : Xfer) : State :=
  { s with xfers := s.xfers.map fun y => if y.key = x.key then x else y }

/-- Byte `off` of a strand's share as the bellows reads it: in SRAM, or in the image once the share has been saved (R177). -/
def State.shareByte (s : State) (k : Strand) (off : Nat) : Byte :=
  if k.saved then s.homeByte (s.imgAddr k.vd k.imgidx + 0x24000 + off) else Assoc.get 0 off k.share

def State.setShareByte (s : State) (k : Strand) (off : Nat) (b : Byte) : State :=
  if k.saved then s.setHomeByte (s.imgAddr k.vd k.imgidx + 0x24000 + off) b
  else s.updStrand k.vd k.imgidx fun k => { k with share := Assoc.put 0 off b k.share }

/-- The CU share of a device's CU index and the CU it stands on, or stood on when it was saved (R375). -/
def State.cuShareAt (s : State) (vd : Nat) (u : Option Nat) : Option (Nat × CuShare) :=
  s.cus.findSome? fun c => (c.2.shares.find? fun x => x.of vd u).map fun x => (c.1, x)

/-- Byte `off` of the CU share that a transfer's strand carries: in SRAM, or in its image once the share has been saved. A share
that has been released holds nothing. -/
def State.cuShareByte (s : State) (x : Xfer) (off : Nat) : Byte :=
  match s.cuShareAt x.vd x.cuidx with
  | some (_, y) => if y.resident then Assoc.get 0 off y.bytes else s.homeByte (s.cuImgAddr x.vd y.idx + off)
  | none => Config.freeByte s.fresh off

def State.setCuShareByte (s : State) (x : Xfer) (off : Nat) (b : Byte) : State :=
  match s.cuShareAt x.vd x.cuidx with
  | some (k, y) =>
    if y.resident then
      let c := s.cu k
      s.setCu k { c with shares := c.shares.map fun z => if z.of x.vd x.cuidx then { z with bytes := Assoc.put 0 off b z.bytes } else z }
    else s.setHomeByte (s.cuImgAddr x.vd y.idx + off) b
  | none => s

/-! ### Asynchronous faults (R180, R350) -/

/-- TINFO of an ASYNCFAULT (R166). -/
def asyncInfo (id : BitVec 16) (c : Cause) (chan : Nat) : Word :=
  BitVec.ofNat 64 (id.toNat + c.code * 2 ^ 16 + chan % 64 * 2 ^ 24)

/-- A record of the asynchronous fault queue in an image. -/
def asyncBytes (k : Strand) (info : Word) : List Byte :=
  FaultRec.bytes ⟨k.vd, .asyncfault, false, false, true, k.ctx, k.incn, k.imgidx, 0, info, 0, 0, 0, 0⟩

/-- Queues an asynchronous fault of a strand: 32 records, in the image once the strand has been saved; a full queue drops it
and notes OVF (R180). -/
def State.pushAsync (s : State) (k : Strand) (info : Word) : State :=
  if k.saved then
    let q := fun i => s.imgAddr k.vd k.imgidx + 0x23000 + 64 * i
    match (List.range 32).find? fun i => !(s.homeByte (q i + 1)).getLsbD 2 with
    | some i => s.setHomeBytes (q i) (asyncBytes k info)
    | none => s.updStrand k.vd k.imgidx fun k => { k with asyncOvf := true }
  else s.updStrand k.vd k.imgidx fun k =>
    if 32 ≤ k.async.length then { k with asyncOvf := true } else { k with async := k.async ++ [info] }

/-- The fault of a transfer that has completed: to its strand's queue, or for an ended strand to the device's fault queue
with ASYNC = 1 and ESC = 1 (R281, R350). -/
def State.reportXfer (s : State) (x : Xfer) (info : Word) : State :=
  match s.strandOf x with
  | some k => s.pushAsync k info
  | none => s.postRecord ⟨x.vd, .asyncfault, true, false, true, x.ctx, x.incn, x.imgidx, 0, info, 0, (info.extractLsb' 56 8).toNat, 0, 0⟩

/-! ### Beats (R350, R351) -/

/-- The transfer as a requester. -/
def Xfer.who (x : Xfer) : Who := ⟨.xfer x.key, x.vd, x.ctx, x.incn, x.imgidx⟩

/-- The descriptor that an access of a transfer uses: the version current at its issue (R112). -/
def State.xferDesc (s : State) (x : Xfer) (slot : Nat) : Desc :=
  if 252 ≤ slot then ⟨slot, 0, 0, 0, 0, false⟩ else s.memDesc x.slottb.toNat slot

/-- The checks of n bytes of a transfer: where they go and whether their line is poisoned; or their fault, or a wait. An access whose
request a lender has answered goes on though its lease is being revoked: it has been sent (R135). -/
def State.xferCheck (s : State) (x : Xfer) (rt : Rights) (r : Ref) (n : Nat) : Except (Ref × Chk) (Loc × Bool) :=
  let d := s.xferDesc x r.slot
  match s.check x.vd (x.strshare, x.cushare) rt r d n false with
  | .ok l => .ok (l, false)
  | .fault .poison => if d.bad then .error (r, .fault .poison) else .ok (.mem ((d.base : Int) + r.off).toNat, true)
  | .fault c => .error (r, .fault c)
  | .wait w line lease =>
    let a := Lease.base (s.borrower lease) + ((d.base : Int) + r.off).toNat
    if w = .revoking && s.peerIn.any fun y => y.who == x.who && y.entry == lease && y.addr ≤ a && a < y.addr + 128 then
      .ok (.peer lease a, false)
    else .error (r, .wait w line lease)

/-- The checks of a list of bytes in order. -/
def State.xferBytes (s : State) (x : Xfer) (rt : Rights) (f : Nat → Ref) : List Nat → Except (Ref × Chk) (List (Loc × Bool))
  | [] => .ok []
  | i :: l =>
    match s.xferCheck x rt (f i) 1 with
    | .error c => .error c
    | .ok a => match s.xferBytes x rt f l with
      | .error c => .error c
      | .ok t => .ok (a :: t)

/-- The transfer ends with a fault: no further beat is issued (R350). -/
def Xfer.fail (x : Xfer) (c : Cause) : Xfer := { x with err := c, info := asyncInfo x.id c (4 * x.slot + x.chan) }

/-- What comes of an access of a transfer that does not pass: a fault ends the transfer, a wait holds it in the replay queue of the
slice it would address (R113, R350). -/
def State.xferStop (s : State) (x : Xfer) (wr : Bool) (e : Ref × Chk) : State :=
  match e.2 with
  | .wait w line lease => s.enqueue ⟨line, w, x.who, lease, e.1.slot, (s.xferDesc x e.1.slot).gen, e.1.off, s.now, wr, false, 0, 0⟩
  | .fault c => s.setXfer (x.fail c)
  | .ok _ => s

/-- The runs of peer addresses in a list of places, none across a line: entry, first address, length. -/
def peerRuns : List Loc → List (Nat × Nat × Nat)
  | .peer i a :: l => (match peerRuns l with
    | (j, b, n) :: r => if j = i && b = a + 1 && b % 128 ≠ 0 then (i, a, n + 1) :: r else (i, a, 1) :: (j, b, n) :: r
    | [] => [(i, a, 1)])
  | _ :: l => peerRuns l
  | [] => []

/-- A byte read where a source check led; `got` holds the bytes that lenders have answered. -/
def State.xferRead (s : State) (x : Xfer) (got : List (Loc × Byte)) (l : Loc) : Byte :=
  match l with
  | .mem a => s.homeByte a
  | .share off => match s.strandOf x with
    | some k => s.shareByte k off
    | none => Config.freeByte s.fresh off
  | .cushare off => s.cuShareByte x off
  | .peer _ _ => ((got.find? fun y => y.1 == l).map fun y => y.2).getD 0

/-- A source byte of a beat, its `i`-th: where the transfer has overwritten it, the byte from before the transfer or the one
that stands there now, a free choice (R350). -/
def State.xferByteAt (s : State) (x : Xfer) (got : List (Loc × Byte)) (i : Nat) (l : Loc) : Byte :=
  match x.before.find? fun y => y.1 == l.key with
  | some y => if Config.freePick s.fresh i then y.2 else s.xferRead x got l
  | none => s.xferRead x got l

/-- A place that the source of a transfer takes in. -/
def State.inSource (s : State) (x : Xfer) (l : Loc) : Bool :=
  let c := x.regs
  let r := refPtr c.src 0
  -- the end of the source, from its first byte
  let n := if c.row = 0 then c.size else (c.size - 1) / c.row * c.spitch + c.row
  let within := fun (lo : Int) (a : Nat) => decide (lo ≤ a) && decide ((a : Int) < lo + n)
  match l with
  | .mem a => decide (r.slot < 252) && within ((s.memDesc x.slottb.toNat r.slot).base + r.off) a
  | .share o => r.slot == 254 && within r.off o
  | .cushare o => r.slot == 253 && within r.off o
  | .peer _ _ => false

/-- The bytes of the source that a beat is about to overwrite join those kept from before the transfer (R350). -/
def State.keepBefore (s : State) (x : Xfer) (dst : List Loc) : Xfer :=
  let l := dst.filter fun l => s.inSource x l && x.before.all fun y => y.1 != l.key
  { x with before := x.before ++ l.map fun l => (l.key, s.xferRead x [] l) }

/-- A byte written where a destination check led, in the device's own memories; memory lines are touched apart. L1 copies of the
CU on which the strand stands take it (R146 step 4). -/
def State.xferWrite (s : State) (x : Xfer) (l : Loc) (b : Byte) : State :=
  match l with
  | .mem a =>
    let s := s.setHomeByte a b
    match s.strandOf x with
    | some k => if k.saved then s else s.patchL1 k.cu a [b]
    | none => s
  | .share off => match s.strandOf x with
    | some k => s.setShareByte k off b
    | none => s
  | .cushare off => s.setCuShareByte x off b
  | .peer _ _ => s

/-- The lines of memory among a list of places. -/
def linesOf (l : List Loc) : List Nat :=
  (l.filterMap fun x => match x with
    | .mem a => some (a / 128)
    | _ => none).eraseDups

/-- The payload bytes below p, as they are written, take in destination offset o. -/
def covers (c : Channel) (p : Nat) (o : Int) : Bool :=
  if o < 0 then false
  else
    let n := o.toNat
    if c.row = 0 then decide (n < p)
    else if c.dpitch = 0 then decide (n < c.row) && decide (n < p)
    else (List.range (c.row / c.dpitch + 1)).any fun j =>
      let q := n / c.dpitch - j
      decide (j ≤ n / c.dpitch) && decide (n - q * c.dpitch < c.row) && decide (q * c.row + (n - q * c.dpitch) < p)

/-- Poison of destination lines after a beat: a poisoned source line taints them, and a line that the payload has covered whole
without taint is clean (R15). `dst` pairs each line with the destination offset of its first byte in the payload's terms. -/
def State.beatPoison (s : State) (x : Xfer) (dst : List (Nat × Int)) (tainted : Bool) : State × Xfer :=
  dst.foldl (fun (s, x) y =>
    if tainted then (s.setPoison y.1 true, { x with tainted := y.1 :: x.tainted })
    else if s.poisoned y.1 && !x.tainted.contains y.1 && (List.range 128).all (fun i => covers x.regs x.pos (y.2 + i)) then
      (s.setPoison y.1 false, x)
    else (s, x)) (s, x)

/-- A beat into a register lands. -/
def State.landReg (s : State) (x : Xfer) (l : List (Nat × Byte)) : State :=
  let v := BitVec.ofNat 5 x.regs.dst.toNat
  (s.updStrand x.vd x.imgidx fun k =>
    { k with v := k.v.set v.toNat (setElems 8 (k.v[v.toNat]'v.isLt) (l.map fun y => (y.1, y.2.toNat))) v.isLt }).setXfer
      { x with pos := x.pos + l.length }

/-- A beat into the share of another strand lands (R351). -/
def State.landShare (s : State) (x : Xfer) (img : Nat) (l : List (Loc × Byte)) : State :=
  (l.foldl (fun s y => match y.1, s.strands.find? fun k => k.is x.vd img with
    | .share off, some t => s.setShareByte t off y.2
    | _, _ => s) s).setXfer { x with pos := x.pos + l.length }

/-- A beat lands where its checks led: the payload bytes with their places and values. What goes to a lender has been answered. -/
def State.landBeat (s : State) (x : Xfer) (tainted : Bool) (l : List (Nat × Loc × Byte)) : State :=
  let c := x.regs
  let dst := l.map fun y => y.2.1
  let lines := linesOf dst
  let done := s.keepBefore { x with pos := x.pos + l.length } dst
  let cp := policyOf c.ch (s.xferDesc x (refPtr c.dst 0).slot)
  let s := lines.foldl (fun s line => s.touchL2 x.vd line true cp) s
  let s := l.foldl (fun s y => s.xferWrite x y.2.1 y.2.2) s
  let s := lines.foldl (fun s line => s.fixZero x.vd line) s
  let first := lines.filterMap fun line =>
    l.findSome? fun y => match y.2.1 with
      | .mem a => if a / 128 = line then some (line, (c.dstOff y.1 : Int) - (a % 128 : Nat)) else none
      | _ => none
  let (s, done) := s.beatPoison done first tainted
  s.setXfer done

/-- The started strand of the transfer's context that TSTRAND names (R351). -/
def State.xferTarget (s : State) (x : Xfer) : Option Strand :=
  s.strands.find? fun k => k.vd == x.vd && k.ctx == x.ctx && k.incn == x.incn && k.imgidx == x.regs.tstrand

/-- The destination of payload bytes: their places, none for a register (R350, R351). -/
def State.beatPlaces (s : State) (x : Xfer) (l : List Nat) : Except (Ref × Chk) (List Loc) :=
  let c := x.regs
  let places := fun (y : Xfer) => match s.xferBytes y wrOnly (fun i => refPtr c.dst (c.dstOff i)) l with
    | .error e => .error e
    | .ok t => .ok (t.map fun z => z.1)
  if c.dreg then .ok []
  else if c.rsh then match s.xferTarget x with
    | none => .error (refPtr c.dst 0, .fault .targetrefuse)
    | some t => places { x with strshare := t.strshare }
  else places x

/-- A line of a transfer's destination register is not cached by the CU: the beat waits for its fill, as a word does (R98). -/
def State.regAway (s : State) (x : Xfer) : Bool :=
  x.regs.dreg && match s.strandOf x with
    | some k => k.absent.any fun i => i < 256 && i / 8 == (BitVec.ofNat 5 x.regs.dst.toNat).toNat
    | none => false

/-- Issues and lands the next beat of a transfer (R350, R351). A beat that reads or writes through a lease is made when the lender
has answered; a poisoned one bound for a share, a register or a lender ends the transfer (log entry 92). -/
def State.beat (s : State) (x : Xfer) : State :=
  let c := x.regs
  if x.cancel || x.err != .none || x.cut || c.size ≤ x.pos || s.heldBy x.who || s.regAway x then s
  else
    let s := s.retryBy x.who
    let l := (List.range (min 64 (c.size - x.pos))).map fun i => x.pos + i
    match s.xferBytes x rdOnly (fun i => refPtr c.src (c.srcOff i)) l with
    | .error e => s.xferStop x false e
    | .ok src =>
      match s.beatPlaces x l with
      | .error e => s.xferStop x true e
      | .ok dst =>
        let tainted := src.any fun y => y.2
        let home := dst.all fun p => match p with
          | .mem _ => true
          | _ => false
        if tainted && (c.dreg || !home) then s.setXfer (x.fail .poison)
        else
          let from' := peerRuns (src.map fun y => y.1)
          match s.askAll x.who (from'.map fun r => (r.1, r.2.1, .read r.2.2)) with
          | (t, none) => s.keepWait t
          | (t, some ans) =>
            match ans.findSome? PeerAns.cause with
            | some e => t.setXfer (x.fail e)
            | none =>
              let got := (from'.zip ans).flatMap fun y => match y.2 with
                | .data b => b.zipIdx.map fun z => (Loc.peer y.1.1 (y.1.2.1 + z.2), z.1)
                | _ => []
              let bytes := src.zipIdx.map fun y => t.xferByteAt x got y.2 y.1.1
              let into' := peerRuns dst
              let data := fun (r : Nat × Nat × Nat) => (dst.zip bytes).filterMap fun y => match y.1 with
                | .peer i a => if i = r.1 && r.2.1 ≤ a && a < r.2.1 + r.2.2 then some y.2 else none
                | _ => none
              match t.askAll x.who (into'.map fun r => (r.1, r.2.1, .write (data r) (2 ^ r.2.2 - 1))) with
              | (u, none) => s.keepWait u
              | (u, some acks) =>
                match acks.findSome? PeerAns.cause with
                | some e => u.setXfer (x.fail e)
                | none =>
                  let cp := (s.xferDesc x (refPtr c.src 0).slot).cp
                  let u := { u.charge (.bellows x.cu) x.vd 1 with fresh := u.fresh + 1 }
                  let u := (linesOf (src.map fun y => y.1)).foldl (fun s line => s.touchL2 x.vd line false cp) u
                  if c.dreg then u.landReg x (l.zip bytes)
                  else if c.rsh then u.landShare x c.tstrand (dst.zip bytes)
                  else u.landBeat x tainted (l.zip (dst.zip bytes))

/-! ### Chunks (R352) -/

/-- Bits of the chunk mask that chunk k sets. -/
def chunkBits (c : Channel) (k : Nat) : List Nat :=
  let lo := c.chunk * k
  let hi := min (lo + c.chunk) c.size
  (List.range 1024).filter fun e => decide (lo ≤ e * c.wb) && decide (e * c.wb < hi)

/-- Writes bits of a strand's mask, in its image once it has been saved (R355). -/
def State.setMaskBits (s : State) (k : Strand) (m : MReg) (l : List Nat) (b : Bool) : State :=
  if k.saved then
    let a := s.imgAddr k.vd k.imgidx + 0x20C00 + 0x80 * (m.toNat - 1)
    l.foldl (fun s e => s.setHomeByte (a + e / 8) (setBit (s.homeByte (a + e / 8)) (e % 8) b)) s
  else s.updStrand k.vd k.imgidx fun k => { k with m := k.m.set m.toNat (setBits (k.m[m.toNat]'m.isLt) (l.map fun e => (e, b))) m.isLt }

/-- The number of chunks that have wholly landed. -/
def Xfer.landed (x : Xfer) : Nat := if x.regs.size ≤ x.pos then ceilDiv x.pos x.regs.chunk else x.pos / x.regs.chunk

/-- Announces the next chunk that has landed: its bits are set (R352). -/
def State.chunkLanded (s : State) (x : Xfer) : State :=
  if x.regs.cmask = 0 || x.landed ≤ x.chunks then s
  else
    let s := match s.strandOf x with
      | some k => s.setMaskBits k x.regs.cmask (chunkBits x.regs x.chunks) true
      | none => s
    s.setXfer { x with chunks := x.chunks + 1 }

/-! ### Completion (R352) -/

/-- OUT of a channel: its transfers outstanding. -/
def State.outOf (s : State) (k : Strand) (c : Nat) : Nat :=
  (s.xfers.filter fun x => x.vd == k.vd && x.imgidx == k.imgidx && !x.orphan && x.chan == c).length

/-- CPDONE as a word (R348). -/
def cpDoneWord (d : CpDone) (out : Nat) : Word :=
  BitVec.ofNat 64 (d.lastId.toNat + (if d.done then 2 ^ 16 else 0) + (if d.err then 2 ^ 17 else 0) + (if d.can then 2 ^ 18 else 0) +
    d.cause.toNat * 2 ^ 24 + out * 2 ^ 32)

/-- The status word of CPWAIT (R353). -/
def cpStatus (id : BitVec 16) (done : Bool) (x : CpDone) : Word :=
  BitVec.ofNat 64 (id.toNat + (if done then 2 ^ 16 else 0) + (if x.err then 2 ^ 17 else 0) + (if x.can then 2 ^ 18 else 0) +
    x.cause.toNat * 2 ^ 24)

/-- The transfer is the oldest of its channel. -/
def State.oldest (s : State) (x : Xfer) : Bool :=
  match s.xfers.find? fun y => y.vd == x.vd && y.imgidx == x.imgidx && y.orphan == x.orphan && y.chan == x.chan with
  | some y => y.key == x.key
  | none => false

/-- It has issued all it will, and every landed chunk has been announced. -/
def Xfer.finished (x : Xfer) : Bool :=
  (x.cancel || x.err != .none || (decide (x.regs.size ≤ x.pos) && !x.cut)) && (x.regs.cmask == 0 || decide (x.landed ≤ x.chunks))

/-- The value of the flag word (R352). -/
def Xfer.flag (x : Xfer) : Nat := if x.err != .none then 2 + x.err.code * 256 else if x.cancel then 3 else 1

/-- The checks of R106 on the flag word: where it lies, none with FLAGEN = 0 (R352). -/
def State.flagCheck (s : State) (x : Xfer) : Except (Ref × Chk) (Option Loc) :=
  if x.regs.flagen then
    match s.xferCheck x wrOnly (refPtr x.regs.flag 0) 8 with
    | .ok y => .ok (some y.1)
    | .error c => .error c
  else .ok none

/-- The flag word is written, as one 8-byte store (R352). -/
def State.writeFlag (s : State) (x : Xfer) (l : Loc) : State :=
  let b := leBytes 8 x.flag
  match l with
  | .mem a =>
    let s := s.homeWrite x.vd a b (s.xferDesc x (refPtr x.regs.flag 0).slot).cp
    match s.strandOf x with
    | some k => if k.saved then s else s.patchL1 k.cu a b
    | none => s
  | .share off => b.zipIdx.foldl (fun s y => s.xferWrite x (.share (off + y.2)) y.1) s
  | .cushare off => b.zipIdx.foldl (fun s y => s.xferWrite x (.cushare (off + y.2)) y.1) s
  | .peer _ _ => s

/-- The completion made known: CPDONE takes the transfer, then the flag word is written at `flag`, then a fault is reported
(R352). -/
def State.endXfer (s : State) (x : Xfer) (info : Word) (flag : Option Loc) : State :=
  let s := { s with xfers := s.xfers.filter fun y => y.key != x.key }
  let d : CpDone := ⟨BitVec.ofNat 8 x.err.code, x.cancel, x.err != .none, true, x.id⟩
  let s := match s.strandOf x with
    | some k =>
      let s := s.updStrand k.vd k.imgidx fun k => if k.wait = .copyId x.id then { k with woken := some (k.ch.pc, cpStatus x.id true d) } else k
      if k.saved then
        s.setHomeBytes (s.imgAddr k.vd k.imgidx + 0x20300 + 0x40 * x.chan + 0x38) (leBytes 8 (cpDoneWord d (s.outOf k x.chan)).toNat)
      else s.updStrand k.vd k.imgidx fun k => k.setDone (BitVec.ofNat 2 x.chan) d
    | none => s
  let s := match flag with
    | some l => s.writeFlag x l
    | none => s
  if x.err = .none then s else s.reportXfer x info

/-- The flag word meets a fault: a fault of the transfer where it had none of its own (R352). -/
def State.flagFault (s : State) (x : Xfer) (c : Cause) : State :=
  let r := refPtr x.regs.flag 0
  if x.err = .none then s.endXfer { x with err := c } (slotInfo r.slot r.off) none else s.endXfer x x.info none

/-- Completes a transfer: CPDONE, then the flag word (R352). Through a lease the flag is written first: only the lender's answer
says whether it passes the checks that come before (log entry 92). -/
def State.completeXfer (s : State) (x : Xfer) : State :=
  if !x.finished || !s.oldest x || s.heldBy x.who then s
  else
    let s := s.retryBy x.who
    match s.flagCheck x with
    | .error (_, .fault c) => s.flagFault x c
    | .error e => s.xferStop x true e
    | .ok (some (.peer i a)) =>
      (match s.askPeer x.who i a (.write (leBytes 8 x.flag) 255) with
       | (t, none) => s.keepWait t
       | (t, some ans) => match ans.cause with
         | some c => t.flagFault x c
         | none => t.endXfer x x.info none)
    | .ok l => s.endXfer x x.info l

/-- CPCANCEL: the bellows issues no further beat of the transfer (R354). -/
def State.cancelXfer (s : State) (id : BitVec 16) : State :=
  { s with xfers := s.xfers.map fun x =>
      if x.vd = s.me.vd && x.imgidx = s.me.imgidx && !x.orphan && x.id = id && x.err = .none then { x with cancel := true } else x }

/-- A transfer of the strand with this id is outstanding. -/
def State.outstanding (s : State) (id : BitVec 16) : Option Xfer :=
  s.xfers.find? fun x => x.vd == s.me.vd && x.imgidx == s.me.imgidx && !x.orphan && x.id == id

end Sys2Proof.Machine
end

