-- ==== Sys2Proof/Machine/Convoy.lean ====
section
/-! DEFINITION. Convoys and held operations (spec 05, 08): what starts a convoy, how its head part and tail part commit or
stop, rollback, the drain of the vector queue and of the run-ahead buffer. -/

namespace Sys2Proof.Machine

/-! ### What a word names -/

def srcQueue : Src → Option QNum
  | .que q => some q
  | _ => none

/-- The feed queue a word takes one entry from (R244, R296). -/
def VOp.takes : VOp → Option QNum
  | .int _ _ _ a _ | .fp _ _ _ _ a _ | .cmp _ _ _ a _ | .fcmp _ _ _ a _ | .bcast _ _ a | .ins _ _ a => srcQueue a
  | _ => none

/-- The result queue a word pushes one entry into. -/
def VOp.pushes : VOp → Option QNum
  | .mpopc q _ | .mfirst q _ | .extr _ q _ | .ldff _ _ _ _ _ q => some q
  | .red _ _ d _ _ | .fred _ _ _ d _ _ => match d with
    | .que q => some q
    | .vec _ => none
  | _ => none

/-- Matrix words (R84). -/
def VOp.matrix : VOp → Bool
  | .mopa _ _ _ _ _ _ | .mzero _ | .mldt _ _ _ _ _ | .mstt _ _ _ _ _ | .mmerge _ _ _ _ _ | .mrow _ _ | .mwrow _ _
  | .mfold _ _ _ _ _ | .mcvt _ _ _ _ _ => true
  | _ => false

/-- Cross-element words (R298). -/
def VOp.cross (o : VOp) : Bool :=
  o.matrix || match o with
  | .compress _ _ _ | .iota _ _ | .perm _ _ _ _ | .slideup _ _ _ | .slidedn _ _ _ | .extr _ _ _ | .red _ _ _ _ _
  | .fred _ _ _ _ _ _ | .mpopc _ _ | .mfirst _ _ | .mlog _ _ _ _ | .mpush _ | .minv | .mpop | .mtop _ => true
  | .bcast _ _ a => match a with
    | .vec _ => true
    | _ => false
  | _ => false

/-- Words that R90 counts as memory words (VLD to VAMO), and those that must stand last. -/
def VOp.memory : VOp → Bool
  | .ld _ _ _ _ _ _ | .ldff _ _ _ _ _ _ | .ldsc _ _ _ _ _ | .st _ _ _ _ _ _ | .amo _ _ _ _ _ _ _ _ => true
  | _ => false

def VOp.indexed : VOp → Bool
  | .ld p _ _ _ _ _ | .st p _ _ _ _ _ => match p with
    | .index _ => true
    | _ => false
  | .amo _ _ _ _ _ _ _ _ => true
  | _ => false

/-- The width at which a word's element groups are counted, and the narrower width it also touches (R295). -/
def VOp.widths : VOp → Nat × Nat
  | .int _ t _ _ _ | .abs t _ _ | .cmp t _ _ _ _ | .red _ t _ _ _ => (vintWidth t, vintWidth t)
  | .fp _ t _ _ _ _ | .fpUn _ t _ _ _ | .fcmp t _ _ _ _ | .fclass t _ _ | .fred _ t _ _ _ _ => (fpWidth t, fpWidth t)
  | .cvt a b _ _ => (max (vintWidth a) (vintWidth b), min (vintWidth a) (vintWidth b))
  | .fcvt k _ _ _ => let (a, b) := vcvtWidths k; (max a b, min a b)
  | .resenc t _ _ | .resdec t _ _ => (max (vintWidth t) 32, min (vintWidth t) 32)
  | .res _ _ _ _ => (32, 32)
  | .bcast w _ _ | .ins w _ _ | .merge w _ _ _ | .mov w _ _ | .compress w _ _ | .iota w _ | .perm w _ _ _ | .slideup w _ _
  | .slidedn w _ _ | .extr w _ _ => (wtyWidth w, wtyWidth w)
  | .ld _ _ _ _ _ f | .ldff _ _ _ _ f _ => let w := (ldShape f).2.1; (w, w)
  | .ldsc _ _ _ _ _ => (16, 16)
  | .st _ _ _ _ _ f => let w := (stShape f).2.1; (w, w)
  | .amo _ _ t _ _ _ _ _ => (8 * amoBytes t, 8 * amoBytes t)
  | _ => (64, 64)

def srcVregs : Src → List VReg
  | .vec v => [v]
  | _ => []

/-- The vector registers and tiles a word names (R98). -/
def VOp.names : VOp → List VReg × List TReg
  | .int _ _ d a b => (d :: b :: srcVregs a, [])
  | .fp _ _ _ d a b => (d :: b :: srcVregs a, [])
  | .abs _ d a | .fclass _ d a | .cvt _ _ d a | .fcvt _ _ d a | .resenc _ d a | .resdec _ d a | .mov _ d a
  | .compress _ d a | .slideup _ d a | .slidedn _ d a => ([d, a], [])
  | .fpUn _ _ _ d a => ([d, a], [])
  | .cmp _ _ _ a b | .fcmp _ _ _ a b => (b :: srcVregs a, [])
  | .res _ d a b | .merge _ d a b | .perm _ d a b => ([d, a, b], [])
  | .bcast _ d a | .ins _ d a => (d :: srcVregs a, [])
  | .iota _ d => ([d], [])
  | .extr _ _ a => ([a], [])
  | .red _ _ d a o | .fred _ _ _ d a o =>
    (a :: o.toList ++ (match d with
      | .vec v => [v]
      | .que _ => []), [])
  | .ld p _ d _ _ _ | .st p _ d _ _ _ => (match p with
      | .index b => [d, b]
      | _ => [d], [])
  | .ldff _ d _ _ _ _ | .ldsc _ d _ _ _ => ([d], [])
  | .amo _ _ _ _ d _ _ b => ([d, b], [])
  | .mopa _ _ _ td a b => ([a, b], [td])
  | .mzero td | .mldt _ td _ _ _ | .mstt _ td _ _ _ | .mmerge _ _ td _ _ => ([], [td])
  | .mrow d ta => ([d], [ta])
  | .mwrow td a => ([a], [td])
  | .mfold _ td ts a b => ([a, b], [td, ts])
  | .mcvt _ _ _ td ta => ([], [td, ta])
  | .setvl _ _ | .msetvl | .mlog _ _ _ _ | .mpopc _ _ | .mfirst _ _ | .mpush _ | .minv | .mpop | .mtop _ => ([], [])

/-- A word that writes the mask-stack top, or a mask from which it is formed (R272). -/
def VOp.stack : VOp → Bool
  | .mpush _ | .minv | .mpop => true
  | _ => false

/-! ### Queue entries a convoy takes and pushes (R87, R94) -/

/-- The entries the words of a convoy take in order, and the queues without them; or the queue that lacks one. -/
def takeEntries : List VWord → Vector (List QEntry) 4 → Except QNum (List (QNum × QEntry) × Vector (List QEntry) 4)
  | [], qs => .ok ([], qs)
  | x :: l, qs =>
    match x.op.takes with
    | none => takeEntries l qs
    | some q =>
      match qs[q.toNat]'q.isLt with
      | [] => .error q
      | e :: rest =>
        match takeEntries l (qs.set q.toNat rest q.isLt) with
        | .ok (t, qs) => .ok ((q, e) :: t, qs)
        | .error q => .error q

/-- The entry of word i: the words before it took theirs first. -/
def entryOf (ws : List VWord) (took : List (QNum × QEntry)) (i : Nat) : Word :=
  let n := ((ws.take i).filter fun x => x.op.takes.isSome).length
  ((took[n]?).map fun y => y.2.val).getD 0

/-- A result queue that lacks room for what the words push. -/
def lacksRoom (ws : List VWord) (k : Strand) : Option QNum :=
  ([0, 1, 2, 3] : List QNum).find? fun q =>
    queueRoom < (k.fromQ q).length + (ws.filter fun x => x.op.pushes == some q).length

/-- The words that run: with IXR the one it names (R171). -/
def Convoy.running (c : Convoy) : List VWord :=
  match c.restart with
  | some r => if r.ixr then (c.words.drop r.word).take 1 else c.words
  | none => c.words

/-- Register lines of the convoy that its CU does not cache (R98). -/
def Strand.lacks (k : Strand) (c : Convoy) : Bool :=
  c.running.any fun x =>
    let (vs, ts) := x.op.names
    k.absent.any fun i => if i < 256 then vs.any fun v => v.toNat == i / 8 else ts.any fun t => t.toNat == (i - 256) / 64

/-- Why a convoy cannot start (R87): lanes, a register line, a feed queue without an entry, a result queue without room. -/
inductive Block where
  | lanes | line | entry (q : QNum) | room (q : QNum)
  deriving DecidableEq, Repr

/-- SETVL stands alone and needs no lanes (R70, R90). -/
def Convoy.isSetvl (c : Convoy) : Bool :=
  match c.words with
  | [x] => match x.op with
    | .setvl _ _ => true
    | _ => false
  | _ => false

/-- What keeps the convoy from starting. -/
def Strand.blocks (k : Strand) (c : Convoy) : Option Block :=
  if !c.isSetvl && c.vl ≠ 0 && k.grant = 0 then some .lanes
  else if k.lacks c then some .line
  else match takeEntries c.running k.toVec with
    | .error q => some (.entry q)
    | .ok _ => (lacksRoom c.running k).map Block.room

/-! ### Rollback (R88) -/

/-- Entries that the pending items of a list took from queue q. -/
def tookFrom (q : QNum) (l : List Pend) : List QEntry :=
  l.flatMap fun p => match p.item with
    | .convoy c => (c.took.filter fun y => y.1 == q).map fun y => y.2
    | .held _ _ _ => []

/-- The strand as before the word of program order n, whose chanter registers were c (R88). -/
def Strand.rollback (k : Strand) (n : Nat) (c : Chanter) : Strand :=
  let gone := k.pend.filter fun p => n ≤ p.seq
  { k with
    ch := c
    pend := k.pend.filter fun p => p.seq < n
    forming := []
    toVec := Vector.ofFn fun (i : Fin 4) =>
      (tookFrom (BitVec.ofFin i) gone ++ k.toVec[i]).filter fun e => e.seq < n
    skip := Vector.ofFn fun (i : Fin 4) =>
      k.skip[i] + (k.early.filter fun e => e.1 == BitVec.ofFin i && n ≤ e.2).length
    early := k.early.filter fun e => e.2 < n
    fromVec := Vector.ofFn fun (i : Fin 4) =>
      ((k.pops.filter fun e => e.1 == BitVec.ofFin i && n ≤ e.2.1).map fun e => e.2.2) ++ k.fromVec[i]
    pops := k.pops.filter fun e => e.2.1 < n
    seq := n
    trap := Option.none, wait := .none, resume := Option.none, vwait := Option.none }

/-! ### Running a convoy (R89, R91, R170, R298) -/

/-- Words in order, each with the stops of its elements; or a wait. -/
def runWords (how : Nat → How) : List (Nat × VWord) → Run → List (Nat × ElemStop) → Except State (Run × List (Nat × ElemStop))
  | [], r, st => .ok (r, st)
  | (i, x) :: l, r, st =>
    match r.anyWord { how i with dry := (how i).whole && !st.isEmpty } x with
    | .wait s => .error (s.markWait fun q => { q with word := i })
    | .ran r t => runWords how l r (st ++ t.map fun t => (i, t))

/-- Of two stops the one earlier in word and element order. -/
def earlier (x y : Nat × ElemStop) : Bool := decide (x.1 < y.1) || (x.1 == y.1 && decide (x.2.elem < y.2.elem))

def earliest (l : List (Nat × ElemStop)) : Option (Nat × ElemStop) :=
  l.foldl (fun b x => match b with
    | none => some x
    | some y => if earlier x y then some x else some y) none

/-- The stop of one element group: every cause of R166 before a watch hit (R210). -/
def groupStop (l : List (Nat × ElemStop)) : Option (Nat × ElemStop) :=
  let real := l.filter fun x => x.2.cause != .watch
  earliest (if real.isEmpty then l else real)

/-- The lowest stopping group of a cluster, with its stop. -/
def clusterStop (cl : Nat → Nat) (c : Nat) (l : List (Nat × ElemStop)) : Option (Nat × Nat × ElemStop) :=
  let mine := l.filter fun x => cl x.2.group == c
  match mine.map fun x => x.2.group with
  | [] => none
  | g :: gs =>
    let low := gs.foldl min g
    (groupStop (mine.filter fun x => x.2.group == low)).map fun x => (low, x)

/-- How a convoy ends a turn: committed whole; stopped, with the state of its committed groups, the stop and the restart
indices; or waiting, started. -/
inductive Ran where
  | done (r : Run)
  | stop (s : State) (f : VFile) (st : Stop) (ridx : Vector Nat 8)
  | wait (s : State)

/-- The stop a convoy reports. -/
def convoyStop (pc : Word) (x : Nat × ElemStop) (ixr : Bool) : Stop :=
  ⟨x.2.cause, x.2.info, pc, x.1, ixr, true, x.2.elem, x.2.gen⟩

/-- The groups of cluster c that the convoy executes, below `n`. -/
def groupsOf (cl : Nat → Nat) (sel : Nat → Bool) (c n : Nat) : List Nat := (List.range n).filter fun j => cl j == c && sel j

/-- One of the candidates, a free choice where there are several. -/
def choose (fresh i : Nat) (l : List Nat) (d : Nat) : Nat :=
  match l with
  | [] => d
  | [x] => x
  | l => l.getD (Config.freeSlip fresh i % l.length) d

/-- The restart index of cluster c, which has run some way (Config.freeSlip) and not past `lim` (R91, R170). With `none` it
may have committed everything, which 256 says. -/
def slipTo (fresh c : Nat) (groups : List Nat) (lim : Option Nat) : Nat :=
  let cand := match lim with
    | some g => (groups.filter fun j => j < g) ++ [g]
    | none => groups ++ [256]
  choose fresh c cand 256

/-- The limit of a cluster: its own stop, and the groups that cannot commit. -/
def limitOf (cl : Nat → Nat) (c : Nat) (own : Option Nat) (back : List Nat) : Option Nat :=
  (back.filter fun j => cl j == c).foldl (fun m j => match m with
    | some k => some (min k j)
    | none => some j) own

/-- The restart indices of a stop in the head part (R170), and the stop that is taken. `must` is the cluster whose fault has been
serviced: its first group completes before another cluster stops (R99). -/
def restartIndices (fresh : Nat) (cl : Nat → Nat) (sel : Nat → Bool) (n : Nat) (stops : List (Nat × ElemStop)) (back : List Nat)
    (must : Option Nat) : Vector Nat 8 × Option (Nat × ElemStop) :=
  let own := fun c => clusterStop cl c stops
  let hit := (List.range 8).filter fun c => (own c).isSome
  let first := fun c => (groupsOf cl sel c n).headD 256
  let again := match must with
    | some c => (match own c with
        | some x => if x.1 = first c then some c else none
        | none => none)
    | none => none
  let pick := again.getD (choose fresh 8 hit 0)
  let isWatch : Nat → Bool := fun c => match own c with
    | some (_, x) => x.2.cause == .watch
    | none => false
  -- every cluster with a watch hit has met it; the lowest of them is reported (R210)
  let met := if isWatch pick then hit.filter isWatch else [pick]
  let rep := earliest (met.filterMap fun c => (own c).map fun x => x.2)
  (Vector.ofFn fun (c : Fin 8) =>
    let lim := limitOf cl c.val ((own c.val).map fun x => x.1) back
    let l := groupsOf cl sel c.val n
    if met.contains c.val then lim.getD 256
    else slipTo fresh c.val (if must = some c.val && lim ≠ some (first c.val) then l.tail else l) lim, rep)

/-- The registers an element-wise word reads and writes, with the bits each takes for an element: vector register n as n, mask n
as 32 + n. -/
def VWord.uses (x : VWord) : List (Nat × Nat) × List (Nat × Nat) :=
  let v := fun (r : VReg) (w : Nat) => (r.toNat, w)
  let src := fun (a : Src) (w : Nat) => (srcVregs a).map fun r => v r w
  let gov := (32 + x.gov.toNat, 1)
  match x.op with
  | .int _ t d a b => let w := vintWidth t; (gov :: v b w :: src a w, [v d w])
  | .fp _ t _ d a b => let w := fpWidth t; (gov :: v d w :: v b w :: src a w, [v d w])
  | .abs t d a => let w := vintWidth t; ([gov, v a w], [v d w])
  | .fpUn _ t _ d a | .fclass t d a => let w := fpWidth t; ([gov, v a w], [v d w])
  | .cmp t _ md a b => let w := vintWidth t; (gov :: v b w :: src a w, [(32 + md.toNat, 1)])
  | .fcmp t _ md a b => let w := fpWidth t; (gov :: v b w :: src a w, [(32 + md.toNat, 1)])
  | .cvt p q d a => ([gov, v a (vintWidth q)], [v d (vintWidth p)])
  | .fcvt k _ d a => let (p, q) := vcvtWidths k; ([gov, v a q], [v d p])
  | .resenc t d a => ([gov, v a (vintWidth t)], [v d 32])
  | .resdec t d a => ([gov, v a 32], [v d (vintWidth t)])
  | .res _ d a b => ([gov, v d 32, v a 32, v b 32], [v d 32])
  | .bcast t d a | .ins t d a => let w := wtyWidth t; (gov :: src a w, [v d w])
  | .merge t d a b => let w := wtyWidth t; ([gov, v a w, v b w], [v d w])
  | .mov t d a => let w := wtyWidth t; ([gov, v a w], [v d w])
  | .ld p _ d _ _ f =>
    let w := (ldShape f).2.1
    (gov :: (match p with
      | .index b => [v b w]
      | _ => []), [v d w])
  | .ldff _ d _ _ f _ => let w := (ldShape f).2.1; ([gov], [v d w])
  | .ldsc _ d _ _ _ => ([gov], [v d 16])
  | .st p _ d _ _ f =>
    let w := (stShape f).2.1
    (gov :: v d w :: (match p with
      | .index b => [v b w]
      | _ => []), [])
  | .amo _ _ t _ d _ _ b => let w := 8 * amoBytes t; ([gov, v d w, v b w], [v d w])
  | _ => ([], [])

/-- The bits that element group j of a word takes of a register, `w` for each element, groups counted at width gw. -/
def groupBits (gw w j : Nat) : Nat × Nat := (j * (64 / gw) * w, (j + 1) * (64 / gw) * w)

/-- Running the groups that `kept` leaves out again would not give what one run gives (R203): a kept group of a word has
overwritten what a left-out group of that word or of one before it reads, or a left-out group of one before it writes over a kept
one. -/
def hazard (l : List (Nat × VWord)) (kept : Nat → Bool) (n : Nat) : Bool :=
  let groups := fun (x : VWord) => List.range (min n 256) |>.map fun j => (j, x.op.widths.1)
  l.any fun x => l.any fun y => decide (y.1 ≤ x.1) && x.2.uses.2.any fun p =>
    (y.2.uses.1 ++ if y.1 < x.1 then y.2.uses.2 else []).any fun q => p.1 == q.1 &&
      (groups x.2).any fun i => kept i.1 && (groups y.2).any fun j => !kept j.1 &&
        (let (a, b) := groupBits i.2 p.2 i.1; let (c, d) := groupBits j.2 q.2 j.1; decide (a < d) && decide (c < b))

/-- The groups that run (R170). -/
def Convoy.selects (c : Convoy) (cl : Nat → Nat) (j : Nat) : Bool :=
  match c.restart with
  | some r => r.ixr || decide ((r.ridx.toList.getD (cl j) 256) ≤ j)
  | none => true

/-- The group of the element that a suppressed trap named. -/
def Restart.supGroup (r : Restart) (ws : List VWord) (e : Nat) : Nat :=
  groupOf ((ws[r.word]?).map (fun x => x.op.widths.1) |>.getD 64) e

/-- Groups whose watches, or whose traps, a resumed head part suppresses (R170, R191, R210): for a trap that at the restart
index of the trapping cluster, for a watch those at the restart index of each cluster; with IXR, where no index tells them apart,
every watch; and where words of several widths have kept the restart index below the stop, the group of the element it named (log
entry 52). -/
def Convoy.suppresses (c : Convoy) (cl : Nat → Nat) (mixed watch : Bool) (j : Nat) : Bool :=
  match c.restart with
  | some r =>
    match r.sup with
    | some (cause, e) =>
      let g := r.supGroup c.words e
      let at' := decide (r.ridx.toList.getD (cl j) 256 = j)
      if watch then cause == .watch && (at' || r.ixr || (mixed && j == g))
      else cause.arithmetic && ((at' && cl j == cl g) || (mixed && j == g))
    | none => false
  | none => false

/-- The cluster whose fault has been serviced (R99). -/
def Convoy.serviced (c : Convoy) (cl : Nat → Nat) : Option Nat :=
  c.restart.bind fun r => if r.ixr then none else r.sup.map fun x => cl (r.supGroup c.words x.2)

/-- A tail word whose watches, or whose traps, are suppressed. -/
def Convoy.suppressesTail (c : Convoy) (watch : Bool) (i : Nat) : Bool :=
  match c.restart with
  | some r => (match r.sup with
      | some (cause, _) => (if watch then cause == .watch else cause.arithmetic) && r.word == i
      | none => false)
  | none => false

/-- The words with their places; the head part and the tail part (R298). -/
def Convoy.parts (c : Convoy) : List (Nat × VWord) × List (Nat × VWord) :=
  let ws := c.words.zipIdx.map fun x => (x.2, x.1)
  match c.restart with
  | some r => if r.ixr then ((ws.drop r.word).take 1, []) else (ws.takeWhile fun x => !x.2.op.cross, ws.dropWhile fun x => !x.2.op.cross)
  | none => (ws.takeWhile fun x => !x.2.op.cross, ws.dropWhile fun x => !x.2.op.cross)

/-- Element groups that the head part's words need. -/
def headGroups (c : Convoy) (l : List (Nat × VWord)) : Nat :=
  l.foldl (fun n x => let w := x.2.op.widths.1; max n (ceilDiv (min c.vl (vlmax w) * w) 64)) 0

/-- The words count groups at one width only. -/
def uniform (l : List (Nat × VWord)) : Bool :=
  let ws := l.map fun x => x.2.op.widths
  ws.all fun w => w.1 == w.2 && ws.all fun v => v.1 == w.1

/-- Element e of group g has performed the store of word i although group g does not commit: it may have where no word
before i has stopped in that group, nor a word up to i at that element, a free choice (R170). -/
def earlyStore (fresh : Nat) (stops : List (Nat × ElemStop)) (i g e : Nat) : Bool :=
  (stops.all fun x => decide (i < x.1) || x.2.elem != e && (x.1 == i || x.2.group != g)) && Config.freePick fresh (8192 * i + e)

/-- The restart indices that a stop of the head part leaves, and the stop: where running the rest again would not give what one run
gives, every cluster stands at the lowest stopping group, or none has moved (R203, log entry 52). -/
def stopIndices (fresh : Nat) (cl : Nat → Nat) (sel : Nat → Bool) (head : List (Nat × VWord)) (n : Nat)
    (stops : List (Nat × ElemStop)) (back : List Nat) (must : Option Nat) : Vector Nat 8 × Option (Nat × ElemStop) :=
  let safe := fun (v : Vector Nat 8) => uniform head || !hazard head (fun j => decide (j < v.toList.getD (cl j) 256)) n
  let a := restartIndices fresh cl sel n stops back must
  if safe a.1 then a
  else
    let low := (stops.map fun x => x.2.group).foldl min 256
    let rep := groupStop (stops.filter fun x => x.2.group == low)
    let from' := fun (f : Nat) => Vector.ofFn fun (c : Fin 8) => ((groupsOf cl sel c.val n).filter fun j => f ≤ j).headD 256
    let v := from' (back.foldl min low)
    (if safe v then v else from' 0, rep)

/-- Runs a started convoy on the strand whose turn it is. -/
def State.runConvoy (s : State) (c : Convoy) : Ran :=
  let grant := match c.restart with
    | some r => r.grant
    | none => s.me.grant
  let map := (List.range 256).map (clusterOf grant)
  let cl := fun j => map.getD j 0
  let sel := c.selects cl
  let (head, tail) := c.parts
  let ixr := match c.restart with
    | some r => r.ixr
    | none => false
  let how := fun (keep : Nat → Bool) (whole : Bool) (early : Nat → Nat → Nat → Bool) (i : Nat) =>
    ({ vl := c.vl, mvl := c.mvl, fpctl := c.fpctl, sel := sel, keep := keep, sup := c.suppresses cl (!uniform head) true,
       supTrap := c.suppresses cl (!uniform head) false, ent := entryOf c.running c.took i, ixr := ixr, early := early i,
       whole := whole, dry := false } : How)
  let file := s.me.file
  match runWords (how (fun _ => true) true fun _ _ _ => false) head ⟨s, file, file, [], none, []⟩ [] with
  | .error s' => .wait (s.keepWait s')
  | .ok (r, stops) =>
    if stops.isEmpty then
      let howT := fun (whole : Bool) (early : Nat → Nat → Nat → Bool) (i : Nat) =>
        ({ vl := c.vl, mvl := c.mvl, fpctl := c.fpctl, sel := fun _ => true, keep := fun _ => whole,
           sup := fun _ => c.suppressesTail true i, supTrap := fun _ => c.suppressesTail false i,
           ent := entryOf c.running c.took i, ixr := false, early := early i, whole := whole, dry := false } : How)
      match runWords (howT true fun _ _ _ => false) tail { r with w := r.c } [] with
      | .error s' => .wait (s.keepWait s')
      | .ok (t, stops) =>
        -- the first stopping word of the tail part; in one word every cause comes before a watch hit
        match earliest stops with
        | none => .done t
        | some x =>
          let st := (groupStop (stops.filter fun y => y.1 == x.1)).getD x
          -- of the words up to the one that stopped, stores may have performed
          let early := fun i g e => decide (i ≤ x.1) && earlyStore r.s.fresh stops i g e
          match runWords (howT false early) tail { r with s := { r.s with fresh := r.s.fresh + 1 }, w := r.c } [] with
          | .error s' => .wait (s.keepWait s')
          | .ok (u, _) => .stop u.s r.c (convoyStop c.pc st false) (Vector.replicate 8 256)
    else
      -- with IXR nothing of the word commits at a watch hit, and every restart index stays 256 (R171)
      let (ridx, rep) := if ixr then (Vector.replicate 8 256, groupStop stops)
        else stopIndices s.fresh cl sel head (headGroups c head) stops r.back (c.serviced cl)
      let keep := fun j => !ixr && decide (j < ridx.toList.getD (cl j) 256)
      match runWords (how keep false (earlyStore s.fresh stops)) head ⟨{ s with fresh := s.fresh + 1 }, file, file, [], none, []⟩ [] with
      | .error s' => .wait (s.keepWait s')
      | .ok (r, _) =>
        match rep with
        | some x => .stop r.s r.c (convoyStop c.pc x ixr) ridx
        | none => .done r

/-! ### The head of the pending items -/

/-- Nothing waits: the rollback records are no longer needed. -/
def Strand.settle (k : Strand) : Strand := if k.pend.isEmpty then { k with early := [], pops := [] } else k

/-- Replaces the oldest pending item's convoy. -/
def Strand.setHead (k : Strand) (c : Convoy) : Strand :=
  match k.pend with
  | p :: l => { k with pend := { p with item := .convoy c } :: l }
  | [] => k

/-- The convoy at the head starts: it takes its entries (R87). -/
def State.startHead (s : State) (c : Convoy) : State :=
  match takeEntries c.running s.me.toVec with
  | .error _ => s
  | .ok (took, qs) => s.onMe fun k => ({ k with toVec := qs, vwait := none } : Strand).setHead { c with started := true, took := took }

/-- Entries of younger pushes that a completed convoy of program order n took (R88). -/
def earlyOf (n : Nat) (c : Convoy) : List (QNum × Nat) :=
  (c.took.filter fun y => n < y.2.seq).map fun y => (y.1, y.2.seq)

/-- The results of a convoy that has completed, and its pushes, in program order n (R89, R94). -/
def Run.commit (r : Run) (p : Pend) (c : Convoy) : State :=
  let s := { r.s with me := r.s.me.withFile r.c }
  s.onMe fun k =>
    let k := r.pushes.foldl (fun (k : Strand) y => k.setFromQ y.1 (k.fromQ y.1 ++ [⟨y.2, p.seq⟩])) k
    { k with pend := k.pend.tail, early := k.early ++ earlyOf p.seq c }

/-- A stop at the word of program order n: rollback, then the trap (R167). -/
def State.stopFrom (s : State) (n : Nat) (snap : Chanter) (st : Stop) (esv : Vector Word 8) : State :=
  (s.onMe fun k => k.rollback n snap).takeStop st esv

/-- What a convoy that stops had captured (R170). -/
def capOf (c : Convoy) : Cap := ⟨c.pc, c.vl, c.mvl, c.fpctl⟩

/-- The grant a stop records (R170). -/
def Convoy.grantOf (c : Convoy) (k : Strand) : BitVec 32 :=
  match c.restart with
  | some r => r.grant
  | none => k.grant

/-- The vector unit runs the convoy at the head. -/
def State.runHead (s : State) (p : Pend) (c : Convoy) : State :=
  match s.runConvoy c with
  | .wait s' => s'
  | .stop s' f st ridx =>
    let s := { s' with me := s'.me.withFile f }
    let s := s.onMe fun k => { k with cap := some (capOf c) }
    s.stopFrom p.seq p.snap st (esvOf ridx (c.grantOf s.me))
  | .done r =>
    let g := c.grantOf s.me
    let s := r.commit p c
    match r.ix with
    | none => s.onMe Strand.settle
    | some t =>
      -- the convoy has completed; its entries stay taken, and only the indexed word runs again (R171)
      let i := match c.restart with
        | some q => if q.ixr then q.word else c.words.length - 1
        | none => c.words.length - 1
      let s := s.onMe fun k => { k with cap := some (capOf c) }
      s.stopFrom p.seq p.snap (convoyStop c.pc (i, t) true) (esvOf (Vector.replicate 8 256) g)

/-- A SETVL that waits in the lane FIFO, at the head of the pending items, with its width and length. -/
def Strand.waitingSetvl (k : Strand) : Option (WTy × Nat) :=
  match k.pend with
  | ⟨_, _, .convoy c⟩ :: _ => (match c.words with
    | [x] => (match x.op with
      | .setvl w vl => if c.started then some (w, vl) else .none
      | _ => .none)
    | _ => .none)
  | _ => .none

/-- The strand's turn at the head of the lane FIFO (R71): its waiting SETVL, or the strip of a strand that came back, is
renegotiated. A strand that a cancel covers leaves the FIFO: it stops there (R72). -/
def State.serveMine (s : State) : State :=
  match s.me.waitingSetvl with
  | some (w, vl) =>
    if s.me.cancelled.isSome then s.leaveFifo
    else
      let (s, ok) := s.renegotiate vl (wtyWidth w)
      if ok then (s.leaveFifo).onMe fun k => ({ k with pend := k.pend.tail } : Strand).settle else s
  | .none =>
    let (s, ok) := s.renegotiate s.me.strip.vl (16 * 2 ^ s.me.strip.w.toNat)
    if ok then s.leaveFifo else s

/-- Serves the lane FIFO of a CU in arrival order, until its head must wait (R71). -/
def State.serveFifo (s : State) (cu : Nat) : Nat → State
  | 0 => s
  | n + 1 =>
    match (s.cu cu).fifo with
    | [] => s
    | slot :: l =>
      let s' := s.asStrand (fun k => k.onCu && !k.muted && k.cu == cu && k.slot == slot) State.serveMine
      if (s'.cu cu).fifo = l then s'.serveFifo cu n else s'

/-- The lane FIFO of the strand's CU: it holds at most eight SETVLs. -/
def State.serveLanes (s : State) : State := s.serveFifo s.me.cu 8

/-- The vector unit reaches a SETVL (R92, R93, R212): the strip closes, the next one opens, the grant is renegotiated. Those who
wait for lanes come first, and take what it gives up (R71). -/
def State.reachSetvl (s : State) (p : Pend) (c : Convoy) (w : WTy) (vl : Nat) : State :=
  if c.started then s.serveLanes
  else
    let s := ((s.closeStrip (p.snap.trctl.getLsbD 0) c.pc false s.me.cancelled.isSome).openStrip (widthCode w) vl).serveLanes
    let (s, ok) := s.renegotiate vl (wtyWidth w)
    (if ok then (s.leaveFifo).onMe fun k => ({ k with pend := k.pend.tail } : Strand).settle
     else (s.joinFifo).onMe fun k => k.setHead { c with started := true }).serveLanes

/-! ### Held operations (R87) -/

/-- The access that follows a release of the strand. -/
def Ans.then (x : Ans Unit) (f : State → Ans Unit) : Ans Unit :=
  match x with
  | .ok s _ => f s
  | .fault s h => .fault s h
  | .wait s => .wait s

/-- A store takes effect (R321, R322), STREL after its release. `vec` says that it comes from the run-ahead buffer. -/
def State.doStore (s : State) (r : Ref) (n : Nat) (fmt : Bool) (val : Word) (ch sc : BitVec 2) (rel sup vec : Bool) : Ans Unit :=
  (if rel then s.releaseFor r sc vec else Ans.ok s ()).then fun s =>
    match s.store r n fmt vec sup ch val.toNat with
    | .ok s _ => .ok (s.chanterSees r n fmt) ()
    | .fault s h => .fault s h
    | .wait s => .wait s

/-- ZLINE takes effect (R329): 128 zero bytes at a line, in memory a zero line; through a lease or a window a write. -/
def State.doZline (s : State) (r : Ref) (sup vec : Bool) : Ans Unit :=
  match s.probe wrOnly r 128 false vec sup with
  | .fault s h => .fault s h
  | .wait s => .wait s
  | .ok s (l, d) =>
    let zeros := List.replicate 128 (0 : Byte)
    let done : Ans Unit := match l with
      | .mem a =>
        if a % 128 = 0 then
          .ok (((s.flushLine s.me.cu (a / 128)).zeroLine s.me.vd (a / 128)).patchL1 s.me.cu a zeros) ()
        else (s.storeLoc l r d 0 false vec zeros).then fun s => .ok (s.settleWcb s.me.cu) ()
      | l => s.storeLoc l r d 0 false vec zeros
    done.then fun s => .ok (s.chanterSees r 128 false) ()

/-- CNTINC takes effect (R283): a release at device scope. -/
def State.doCntinc (s : State) (i : BitVec 16) (inc : BitVec 32) (vec : Bool) : Ans Unit :=
  (s.release 2 vec).then fun s =>
    .ok (s.holding (s.me.dbgctl.getLsbD 4) fun s => s.addCounter (s.me.cntbase.toNat + i.toNat) inc false) ()

/-- CANCEL takes effect (R285): a phase or a job names its own context, where that is VALID. -/
def State.doCancel (s : State) (lv : Level) (a : Word) : State :=
  match lv with
  | .phase | .job => let c := field a.toNat 0 13; if s.ctxOk (s.ctxVd c) c then s.cancel (s.ctxVd c) lv c 0 else s
  | lv => s.cancel s.me.vd lv s.me.ctx a.toNat

/-- A held operation takes effect, `sup` with its watch suppressed. A word that the chanter comes back to does nothing here. -/
def State.doHeld (s : State) (h : Held) (sup vec : Bool) : Ans Unit :=
  match h with
  | .word _ _ _ => .ok s ()
  | .store r n fmt val ch sc rel => s.doStore r n fmt val ch sc rel sup vec
  | .zline r _ => s.doZline r sup vec
  | .cntinc i inc => s.doCntinc i inc vec
  | .cancel lv a => .ok (s.doCancel lv a) ()
  | .cpcancel id => .ok (s.cancelXfer id) ()

/-- The oldest pending item takes its turn. -/
def State.vecTurn (s : State) : State :=
  match s.me.pend with
  | [] => s.onMe Strand.settle
  | p :: _ =>
    if s.replayHeld true then s
    else
    let s := s.retrying true
    match p.item with
    | .held _ (.word _ _ _) _ => s.onMe fun k => { k.rollback p.seq p.snap with stepping := false }
    | .held pc h _ =>
      (match s.doHeld h false true with
       | .ok s _ => s.onMe fun k => ({ k with pend := k.pend.tail } : Strand).settle
       | .wait s' => s.keepWait s'
       | .fault s h =>
         let st := { stopAt pc h.cause h.info with gen := h.gen }
         s.stopFrom p.seq p.snap st (esvOutside s.me.grant))
    | .convoy c =>
      if !c.started && c.restart.isNone && !c.skip && s.brkAt c.pc then (s.onMe fun k => k.rollback p.seq p.snap).takeBrk c.pc
      else match c.words with
      | [⟨.setvl w vl, _, _, _, _⟩] => s.reachSetvl p c w vl
      | _ =>
        if c.started then s.runHead p c
        else match s.me.blocks c with
          | none =>
            let s := s.startHead c
            (match s.me.pend with
             | ⟨_, _, .convoy c'⟩ :: _ => s.runHead p c'
             | _ => s)
          | some (.entry _) | some (.room _) => s.onMe fun k => { k with vwait := some (k.vwait.getD (s.now, k.ch.qtimeo)) }
          | some _ => s

/-- The vector stream goes on as far as it can; with nothing older left, a held trap is taken (R87, R167). -/
def State.drainFor : Nat → State → State
  | 0, s => s
  | n + 1, s =>
    match s.me.pend with
    | [] => (match s.me.trap with
        | some st => s.takeStop st (esvOutside s.me.grant)
        | none => s.onMe Strand.settle)
    | _ :: l =>
      let s' := s.vecTurn
      if s'.me.pend.length ≤ l.length then s'.drainFor n else s'

/-- After a word that gave the vector stream something to do. With turns of its own the stream waits for them. -/
def State.drain (s : State) : State := if s.me.ahead then s else s.drainFor (s.me.pend.length + 1)

/-! ### Pushing (R85) -/

/-- Convoys that the vector queue holds, and operations that the run-ahead buffer holds (R85, R87). -/
def Strand.convoys (k : Strand) : Nat :=
  (k.pend.filter fun p => match p.item with
    | .convoy _ => true
    | _ => false).length

def Strand.heldOps (k : Strand) : Nat := k.pend.length - k.convoys

/-- A held operation of the word the chanter stands on: at once when nothing older waits, else into the buffer. `f` is what
else the word does (the other half of a pair). -/
def State.holdWith (s : State) (h : Held) (word : Word) (sup : Bool) (f : State → State) : State :=
  if s.me.pend.isEmpty then
    match s.doHeld h sup false with
    | .ok s _ => (f s).next
    | .fault s h => s.faultHere h
    | .wait s' => (s.keepWait s').await .replay
  else if 32 ≤ s.me.heldOps then s.await .buffer
  else
    let k := s.me
    (((f s).next).onMe fun k' => { k' with pend := k'.pend ++ [⟨k.seq, k.ch, .held k.ch.pc h word⟩] }).drain

def State.hold (s : State) (h : Held) (word : Word) (sup : Bool) : State := s.holdWith h word sup fun s => s

end Sys2Proof.Machine
end

