-- ==== Sys2Proof/Machine/Issue.lean ====
section
/-! DEFINITION. How the chanter takes a word: forming and pushing convoys (R85, R89, R90), held operations, the waits of R86
and R261. -/

namespace Sys2Proof.Machine

/-- What a meaning answers. -/
abbrev Result := Host.Outcome State Fault Refusal

/-- The word of an instruction, for TINFO (R166). -/
def wordOf (i : Instr) : Word := (encode i).getD 0

/-- A strand whose older convoys and held operations have all completed. -/
def State.idle (s : State) : Bool := s.me.pend.isEmpty

/-- The chanter waits until every older convoy and held operation has completed, then acts (R86, R87, R261). -/
def State.whenIdle (s : State) (f : State → State) : State := if s.idle then f s else s.await .convoys

/-- A held word whose result or effect younger words can depend on (R87): with nothing older pending it acts; else it waits in the
run-ahead buffer, where the chanter comes back to it, and the chanter runs on. `dst` are the registers it will write, `orders` says that
younger loads stay behind it, `foot` is the access it makes. -/
def State.heldWord (s : State) (word : Word) (dst : List SReg) (orders : Bool) (foot : Option (Ref × Nat)) (f : State → State) : State :=
  if s.idle then f s
  else if 32 ≤ s.me.heldOps then s.await .buffer
  else
    let k := s.me
    ((s.next).onMe fun k' => { k' with pend := k'.pend ++ [⟨k.seq, k.ch, .held k.ch.pc (.word dst orders foot) word⟩] }).drain

/-- A watch that stopped the strand at this word is suppressed once (R210). -/
def State.supWatch (s : State) : Bool :=
  match s.me.resume with
  | some st => st.cause == .watch && st.pc == s.me.ch.pc
  | none => false

end Sys2Proof.Machine

/-! ### Registers that a held word owes (R87) -/

namespace Sys2Proof

/-- The scalar registers of a memory operand. -/
def Addr.regs (m : Addr) : List SReg := [m.a]

/-- The scalar register of an OSEL 1 operand. -/
def Src.regs : Src → List SReg
  | .scl a => [a]
  | _ => []

/-- The scalar registers that a word of the strand reads or writes; an event has none. -/
def Instr.regs (i : Instr) : List SReg :=
  match i with
  | .add _ d a b | .sub _ d a b | .mul _ d a b | .mulh _ d a b | .mulhn _ d a b | .div _ d a b | .divn _ d a b | .rem _ d a b
  | .remn _ d a b | .and _ d a b | .or _ d a b | .xor _ d a b | .andn _ d a b | .shl _ d a b | .shr _ d a b | .sra _ d a b
  | .rotr _ d a b | .min _ d a b | .max _ d a b | .minn _ d a b | .maxn _ d a b | .slt _ d a b | .sltn _ d a b | .seq _ d a b
  | .csel d a b | .fadd _ _ d a b | .fsub _ _ d a b | .fmul _ _ d a b | .fdiv _ _ d a b | .fma _ _ d a b | .fmin _ d a b
  | .fmax _ d a b | .fcmp _ _ d a b | .cntwait d a b => [d, a, b]
  | .clz _ d a | .ctz _ d a | .popc _ d a | .addi _ d a _ | .andi _ d a _ | .ori _ d a _ | .xori _ d a _ | .shli _ d a _
  | .shri _ d a _ | .srai _ d a _ | .slti _ d a _ | .fsqrt _ _ d a | .fcvt _ _ d a | .fclass _ d a | .jalr d a | .deal d a
  | .sptr d _ a | .setvl _ d a | .msetvl _ d a | .cpwait d a => [d, a]
  | .beq a b _ | .bne a b _ | .blt a b _ | .bge a b _ | .bltn a b _ | .bgen a b _ | .slotset a b | .slotinv a b => [a, b]
  | .movi d _ | .movhi d _ | .jal d _ | .getc d _ | .copyLaunch d _ | .qpop d _ | .slotq d _ => [d]
  | .jr a | .loop _ a _ | .setc _ a | .cntinc a _ | .cancel _ a | .qpush _ a | .incfence a | .mark a | .cpcancel a => [a]
  | .ld d m _ _ | .st d m _ _ | .ldacq _ d m _ | .strel _ d m _ => d :: m.regs
  | .amo _ _ _ d m _ b | .waita _ d m _ b => d :: b :: m.regs
  | .zline m _ | .pref m _ _ | .vld _ _ m _ _ | .vldx _ _ m _ _ _ | .vldff _ _ m _ _ _ | .vldsc _ _ m _ _ | .vst _ _ m _ _
  | .vstx _ _ m _ _ _ | .vamo _ _ _ _ _ m _ _ => m.regs
  | .vlds _ _ m _ _ b | .vsts _ _ m _ _ b | .mldt _ _ m _ _ b | .mstt _ _ m _ _ b => b :: m.regs
  | .mmerge _ _ _ part _ m _ => part.toList ++ m.regs
  | .vadd _ _ _ _ a _ | .vsub _ _ _ _ a _ | .vmul _ _ _ _ a _ | .vmulh _ _ _ _ a _ | .vmin _ _ _ _ a _ | .vmax _ _ _ _ a _
  | .vand _ _ _ _ a _ | .vor _ _ _ _ a _ | .vxor _ _ _ _ a _ | .vshl _ _ _ _ a _ | .vshr _ _ _ _ a _ | .vsra _ _ _ _ a _
  | .vsadd _ _ _ _ a _ | .vssub _ _ _ _ a _ | .vfadd _ _ _ _ _ a _ | .vfsub _ _ _ _ _ a _ | .vfmul _ _ _ _ _ a _
  | .vfdiv _ _ _ _ _ a _ | .vfma _ _ _ _ _ a _ | .vfms _ _ _ _ _ a _ | .vfnma _ _ _ _ _ a _ | .vfmin _ _ _ _ a _
  | .vfmax _ _ _ _ a _ | .vcmp _ _ _ _ _ a _ | .vfcmp _ _ _ _ _ a _ | .vbcast _ _ _ _ a => a.regs
  | .vins _ _ _ a b => b :: a.regs
  | .vslideup _ _ _ _ _ b | .vslidedn _ _ _ _ _ b | .vextr _ _ _ _ b | .mrow _ _ _ b | .mwrow _ _ _ b => [b]
  | i => match i.halves with
    | some (h, g) => h.writes.toList ++ g.writes.toList ++ h.reads ++ g.reads
    | none => []

end Sys2Proof

namespace Sys2Proof.Machine

/-- A word in the run-ahead buffer will write one of the registers. -/
def Strand.owes (k : Strand) (l : List SReg) : Bool :=
  k.pend.any fun p => match p.item with
    | .held _ (.word dst _ _) _ => dst.any fun d => d != 0 && l.contains d
    | _ => false

/-! ### Convoys -/

/-- The head of the convoy that the word at PC belongs to. -/
def Strand.headPc (k : Strand) : Word := if k.forming.isEmpty then k.ch.pc else k.formPc

/-- A trap at the head of the convoy the chanter is forming, or at the word itself (R90, R167). -/
def State.trapHead (s : State) (c : Cause) (info : Word) : State := s.raise (stopAt s.me.headPc c info)

/-- The pending resume of a convoy: it runs again from ESV0-ESV7 (R170, R175). -/
def Strand.restartOf (k : Strand) (pc : Word) : Option Restart :=
  match k.resume with
  | some st =>
    if st.rstop && st.pc == pc then
      let sup := if st.cause.arithmetic then some (st.cause, field st.info.toNat 0 16)
        else if st.cause = .none then .none else some (st.cause, st.elem)
      some ⟨ridxOf k.ch.esv, k.ch.esv[0].extractLsb' 32 32, st.ixr, st.word, sup⟩
    else .none
  | .none => .none

/-- A convoy as it is pushed: what it captures (R85), or for a resumed one what it had captured (R170). -/
def Strand.capture (k : Strand) (pc : Word) (ws : List VWord) : Convoy :=
  let r := k.restartOf pc
  match r, k.cap with
  | some _, some q => if q.pc = pc then ⟨pc, ws, q.vl, q.mvl, q.fpctl, r, false, [], k.skipBrk⟩
      else ⟨pc, ws, k.ch.vl, k.ch.mvl, k.ch.fpctl, r, false, [], k.skipBrk⟩
  | _, _ => ⟨pc, ws, k.ch.vl, k.ch.mvl, k.ch.fpctl, r, false, [], k.skipBrk⟩

/-- Pushes a convoy whose last word the chanter stands on; a full vector queue stalls it (R85). `c` are the chanter's
registers before the convoy. -/
def State.pushConvoy (s : State) (pc : Word) (c : Chanter) (ws : List VWord) : State :=
  if 32 ≤ s.me.convoys then s.await .buffer
  else
    let k := s.me
    let v := k.capture pc ws
    let s := s.next
    let used := match v.restart with
      | some _ => true
      | none => false
    (s.onMe fun k' =>
      { k' with
        pend := k'.pend ++ [⟨k.seq, c, .convoy v⟩], forming := []
        cap := if used then .none else k'.cap }).drain

/-- The chanter's registers at the head of a convoy: nothing but PC changes while it forms. -/
def Strand.headSnap (k : Strand) : Chanter := { k.ch with pc := k.headPc }

/-- The chanter takes a vector or matrix word: it joins the convoy that is forming, which its last word pushes; the rules of
R90 come first. `c` is its chain bit. -/
def State.takeVector (s : State) (c : Bool) (x : VWord) : State :=
  let k := s.me
  let ws := k.forming ++ [x]
  if 4 < ws.length || (c && ws.length == 4) then s.trapHead .convoy x.word
  else if 2 < (ws.filter fun y => y.op.memory).length then s.trapHead .convoy x.word
  else if c && x.op.indexed then s.trapHead .convoy x.word
  else if c && !(k.ch.loops.endingAt (k.ch.pc + 8)).isEmpty then s.trapHead .convoy x.word
  else if c then
    s.onMe fun k => { k with forming := ws, formPc := k.headPc, formSnap := k.headSnap, ch := { k.ch with pc := k.ch.pc + 8 }, wait := .none }
  else s.pushConvoy k.headPc k.headSnap ws

/-- A word with its scalar operands as they stand (R85). -/
def State.vword (s : State) (i : Instr) (op : VOp) (gov : MReg) (a b : SReg) : VWord := ⟨op, gov, s.sreg a, s.sreg b, wordOf i⟩

/-- The scalar register of an OSEL 1 operand. -/
def srcReg : Src → SReg
  | .scl a => a
  | _ => 0

end Sys2Proof.Machine
end

