-- ==== Sys2Proof/Machine/Preempt.lean ====
section
/-! DEFINITION. Strands that end, are squashed, saved, restored or killed (spec 05, 08, 13). -/

namespace Sys2Proof.Machine

/-! ### Outstanding requests (R181 to R183) -/

/-- A requester acts for context c in an incarnation that satisfies `p` (R181). -/
def Who.tagged (w : Who) (c : Nat) (p : Nat → Bool) : Bool :=
  w.ctx == c && p w.incn && match w.ask with
    | .chanter _ | .pending _ | .xfer _ => true
    | _ => false

/-- Requests to peers that have not been answered. -/
def State.peerReqs (s : State) : List PeerReq := s.sendq ++ s.ports.flatMap fun x => x.2

/-- Requests with a tag of context c whose incarnation satisfies `p`: buffered stores, requests that wait, merge parts,
requests to peers, transfers. -/
def State.tagged (s : State) (c : Nat) (p : Nat → Bool) : Nat :=
  let w := s.cus.foldl (fun n x => n + (x.2.wcb.filter fun l => l.ctx == c && p l.incn).length) 0
  w + (s.replay.filter fun r => r.who.tagged c p).length + (s.partq.filter fun r => r.ctx == c && p r.incn).length +
    (s.peerReqs.filter fun r => r.who.tagged c p).length + (s.xfers.filter fun x => x.ctx == c && p x.incn).length

/-- The drain counters of R183: requests of the current incarnation and of all older ones. -/
def State.outstandingCur (s : State) (c : Nat) : Nat := s.tagged c fun i => i == s.curIncn c
def State.outstandingOld (s : State) (c : Nat) : Nat := s.tagged c fun i => i != s.curIncn c

/-! ### The end of a strand (R281) -/

/-- A bound transfer of the strand is outstanding (R281). -/
def State.boundXfers (s : State) : Bool :=
  s.xfers.any fun x => x.vd == s.me.vd && x.imgidx == s.me.imgidx && !x.orphan && x.regs.bound s.me.imgidx

/-- What the strand held on its CU is free: lanes, its place in the lane FIFO, its presence bits (R120). -/
def State.leaveCu (s : State) : State :=
  let s := s.releaseLanes
  s.setCu s.me.cu (clearPresence (s.cu s.me.cu) s.me.slot)

/-- The CU share and the CU index of the strand are released when no other strand carries them (R375). -/
def State.dropCuShare (s : State) : State :=
  let k := s.me
  if k.cuidx.isNone || s.others.any (fun o => o.status != .empty && o.vd == k.vd && o.cuidx == k.cuidx) then s
  else
    let a := s.cuImgAddr k.vd (k.cuidx.getD 0)
    { s with cus := s.cus.map fun x => (x.1, { x.2 with
        shares := x.2.shares.filter fun h => !h.of k.vd k.cuidx
        divert := x.2.divert.filter fun d => !(d.ctx == k.ctx && d.chan == 48 && d.addr == a) }) }

/-- A CU that holds no strand has no split (R61, R118). -/
def State.freeSplit (s : State) (cu : Nat) : State :=
  if (s.onCu cu).isEmpty then s.setCu cu { s.cu cu with split := .none } else s

/-- HOLDCH of the strand that ends is noted in its launch, whose last increments may come of its end (R211). -/
def State.noteHold (s : State) : State :=
  match s.launchOf s.me.launch with
  | some l => s.setLaunch { l with endHold := s.me.dbgctl.getLsbD 4 }
  | .none => s

/-- The end of strand k is counted: STRCNT takes 1, with CAN or not (R63); a launch that this makes eligible is held where the strand's
HOLDCH is set (R211). -/
def State.countEnd (s : State) (k : Strand) (can : Bool) : State :=
  s.holding (k.dbgctl.getLsbD 4) fun s =>
    match s.launchOf k.launch with
    | some l => s.addRel k.vd l.card.strcnt 1 can
    | .none => s

/-- The strand ends (R281 steps 5 and 6): its transfers go on without it, what it waited for is forgotten, STRCNT takes 1 with CAN
where a cancel covers it (R63, R64). -/
def State.endStrand (s : State) : State :=
  let k := s.me
  let s := (s.leaveCu).dropCuShare.noteHold
  let s := { s with
    xfers := s.xfers.map fun (x : Xfer) => if x.vd == k.vd && x.imgidx == k.imgidx && !x.orphan then { x with orphan := true } else x
    replay := s.replay.filter fun r => !k.asks r.who
    sendq := s.sendq.filter fun r => !k.asks r.who
    peerIn := s.peerIn.filter fun r => !k.asks r.who
    me := Strand.none }
  (s.freeSplit k.cu).countEnd k k.cancelled.isSome

/-- Steps 2 to 4 of R281, for a strand whose older work is complete: its strip closes, its stores and merge parts perform (R151),
and its bound transfers are waited for. -/
def State.closing (s : State) : Ans Unit :=
  let s := s.closeStrip (s.me.ch.trctl.getLsbD 0) s.me.ch.pc true s.me.cancelled.isSome
  match s.release 2 false with
  | .ok s _ => if s.boundXfers then .wait s else .ok s ()
  | x => x

/-- A strand that is past EXIT or a cancel ends, or waits for what its end waits for. -/
def State.tryEnd (s : State) : State :=
  match s.closing with
  | .ok s _ => s.endStrand
  | .fault s _ => s
  | .wait s => s

/-- The run-ahead buffer holds a word that the chanter will come back to (R87). -/
def Strand.comesBack (k : Strand) : Bool :=
  k.pend.any fun p => match p.item with
    | .held _ (.word _ _ _) _ => true
    | _ => false

/-- A cancel stops the strand here, as at a strip boundary (R64, R92): it takes no further word, and ends once its older
convoys have completed. -/
def State.endByCancel (s : State) : State :=
  s.onMe fun k => { k with status := .ending, forming := [], wait := .none, trap := .none, resume := .none }

/-! ### The image (R96, R175) -/

/-- The element groups of line n of a vector register: those j with (j mod 128) div 16 = n (R96). -/
def lineGroups (n : Nat) : List Nat := (List.range 256).filter fun j => j % 128 / 16 == n

/-- A vector register in the byte order of its image. -/
def imageOfV (v : VecReg) : List Byte :=
  (List.range 8).flatMap fun n => (lineGroups n).flatMap fun j => leBytes 8 (elem 64 v j)

/-- A register with the bytes of line n taken from its image. -/
def lineIntoV (v : VecReg) (n : Nat) (bytes : List Byte) : VecReg :=
  setElems 64 v ((lineGroups n).zipIdx.map fun x => (x.1, ofLe ((bytes.drop (8 * x.2)).take 8)))

/-- WORD, IXR and RSTOP of the stop that a resume goes on from. -/
def resumeBits (st : Option Stop) : Nat :=
  match st with
  | some st => st.word % 4 * 2 ^ 48 + (if st.ixr then 2 ^ 50 else 0) + (if st.rstop then 2 ^ 51 else 0)
  | none => 0

/-- The PC word of the image (R175). -/
def Strand.pcWord (k : Strand) : Nat :=
  field k.ch.pc.toNat 0 48 + resumeBits (if k.status = Status.running then k.resume else k.keep)

def Loops.word (l : Loops) : Nat := (if l.act0 then 1 else 0) + (if l.act1 then 2 else 0) + (if l.later then 4 else 0)

/-- The control registers of an image in their order. -/
def Strand.controlWords (k : Strand) : List Nat :=
  [k.ch.vl, k.ch.mvl, k.ch.fpctl.toNat, k.fpflg.toNat, k.mflg.toNat, k.ch.tvec.toNat, k.ch.tcause.toNat, k.ch.tpc.toNat,
   k.ch.tinfo.toNat, k.ch.tsave.toNat] ++ k.ch.esv.toList.map BitVec.toNat ++
  [k.ch.stripn.toNat, k.ch.lc0.toNat, k.ch.lc1.toNat, k.ch.wtimeo.toNat, k.ch.qtimeo.toNat, k.cntbase.toNat,
   k.dbgctl.toNat, k.ch.trctl.toNat, k.pcWord, k.ch.loops.word, k.ch.cpnext.toNat]

/-- The six registers of a channel. -/
def Channel.regs (c : Channel) : List Word := [c.src, c.dst, c.len, c.str, c.ctl, c.flag]

def wordsBytes (l : List Nat) : List Byte := l.flatMap fun x => leBytes 8 x

/-- A queue of an image: the ring position of its oldest entry is the hardware's, and the places of no entry are ignored on
restore; both are free values. -/
def State.saveQueue (s : State) (a : Nat) (l : List Word) (skip : Nat) : State :=
  let head := Config.freeSlip s.fresh 0 % 16
  let s := s.makeFog a (a + 0x80)
  let s := l.zipIdx.foldl (fun s x => s.setHomeBytes (a + 8 * ((head + x.2) % 16)) (leBytes 8 x.1.toNat)) s
  s.setHomeBytes (a + 0x80) (leBytes 8 (l.length + head * 2 ^ 8 + skip % 32 * 2 ^ 16))

/-- The resume record of a copy channel (R178). -/
def copyRecBytes (r : Option CopyRec) : List Byte :=
  match r with
  | none => List.replicate 64 0
  | some r =>
    leBytes 2 r.vstart ++ leBytes 1 r.vreg.toNat ++ leBytes 1 1 ++ leBytes 2 r.id.toNat ++ leBytes 2 0 ++
    wordsBytes [r.chan.src.toNat, r.chan.len.toNat, r.chan.str.toNat, r.chan.ctl.toNat, r.chan.flag.toNat] ++ List.replicate 16 0

/-- The eager state of the strand written to its image (R175, R176). Entry 0 of the mask stack is the oldest (DEDUCED). -/
def State.saveEager (s : State) (a : Nat) : State :=
  let k := s.me
  let s := s.setHomeBytes (a + 0x20000) (wordsBytes ((List.range 32).map fun i => (k.ch.sreg (BitVec.ofNat 5 i)).toNat))
  let s := s.setHomeBytes (a + 0x20100) (wordsBytes k.controlWords)
  let s := s.setHomeBytes (a + 0x20200) (wordsBytes ([k.ch.loops.s0, k.ch.loops.e0, k.ch.loops.s1, k.ch.loops.e1].map fun x => field x.toNat 0 48))
  let s := (List.range 4).foldl (fun s c =>
    let i := BitVec.ofNat 2 c
    s.setHomeBytes (a + 0x20300 + 0x40 * c)
      (wordsBytes (((k.ch.channel i).regs.map BitVec.toNat) ++ [0, (cpDoneWord (k.doneOf i) (s.outOf k c)).toNat]))) s
  let s := (List.range 4).foldl (fun s n =>
    let q := BitVec.ofNat 2 n
    let s := s.saveQueue (a + 0x20400 + 0x100 * n) ((k.fromQ q).map fun e => e.val) 0
    s.saveQueue (a + 0x20800 + 0x100 * n) ((k.toQ q).map fun e => e.val) (k.skipOf q)) s
  let s := (List.range 14).foldl (fun s n =>
    s.setHomeBytes (a + 0x20C00 + 0x80 * n) (leBytes 128 (k.file.mask (BitVec.ofNat 4 (n + 1))).toNat)) s
  let s := s.setHomeBytes (a + 0x21800) (leBytes 8 k.stack.length)
  let s := k.stack.reverse.zipIdx.foldl (fun s x =>
    s.setHomeBytes (a + 0x22000 + 0x100 * x.2) (leBytes 128 x.1.active.toNat ++ leBytes 128 x.1.parent.toNat)) s
  let s := (List.range 32).foldl (fun s i =>
    s.setHomeBytes (a + 0x23000 + 64 * i) (match k.async[i]? with
      | some w => asyncBytes k w
      | none => List.replicate 64 0)) s
  (List.range 4).foldl (fun s c => s.setHomeBytes (a + 0x23800 + 0x40 * c) (copyRecBytes (k.copyRecs.toList.getD c none))) s

/-- The bytes of a register from its line i on, written to the image at a, line by line; a line that the CU does not cache stands in the
image (R98). -/
def State.saveRegLines (s : State) (a i : Nat) (b : List Byte) : State :=
  let gone := s.me.absent.filter fun j => i ≤ j && j < i + b.length / 256
  if gone = [] then s.setHomeBytes a b
  else ((List.range (b.length / 256)).filter fun n => !gone.contains (i + n)).foldl
    (fun s n => s.setHomeBytes (a + 256 * n) ((b.drop (256 * n)).take 256)) s

/-- The vector registers and tiles written to the image: their lines' write-back (R98). -/
def State.saveLines (s : State) (a : Nat) : State :=
  let k := s.me
  let s := (List.range 32).foldl (fun s n => s.saveRegLines (a + 0x800 * n) (8 * n) (imageOfV (k.file.vreg (BitVec.ofNat 5 n)))) s
  (List.range 4).foldl (fun s n =>
    s.saveRegLines (a + 0x10000 + 0x4000 * n) (256 + 64 * n) (leBytes 16384 (k.file.tile (BitVec.ofNat 2 n)).toNat)) s

/-- The share written to the image. -/
def State.saveShare (s : State) (a : Nat) : State :=
  s.setHomeBytes (a + 0x24000) ((List.range (1024 * s.me.strshare)).map fun i => Assoc.get byteDefault i s.me.share)

/-! ### Kill (R181 to R183) -/

/-- A strand of a killed context leaves its CU: nothing is saved, and its end is counted with CAN (R181, log entry 107). -/
def State.dropStrand (s : State) : State :=
  let k := s.me
  let s := (if k.saved then s else s.leaveCu).dropCuShare.noteHold
  (({ s with me := Strand.none } : State).freeSplit k.cu).countEnd k true

/-- Every strand of context c stops at once. -/
def State.dropStrands (s : State) (c : Nat) : Nat → State
  | 0 => s
  | n + 1 =>
    match s.focus fun k => k.ctx == c with
    | some s' =>
      let s' := s'.dropStrand
      -- another strand takes the turn where the one in `me` was killed
      (match s'.others with
       | k :: l => if s'.me.status = Status.empty then { s' with me := k, others := l } else s'
       | [] => s').dropStrands c n
    | none => s

/-- Merge entries, transfers and diversion entries of context c go. Its requests that wait, and those on their way, stay until
they meet their target (R182). -/
def State.dropTraffic (s : State) (c : Nat) : State :=
  { s with
    merges := s.merges.filter fun e => e.ctx != c
    xfers := s.xfers.filter fun x => x.ctx != c
    cus := s.cus.map fun x => (x.1, { x.2 with divert := x.2.divert.filter fun d => d.ctx != c }) }

/-- The kill of a context: its incarnation moves on, its strands stop, its queues and launches go as by a job cancel, whatever
cancels it has seen. -/
def State.kill (s : State) (c : Nat) : State :=
  let old := s.curIncn c
  let v := s.ctxVd c
  let d := Assoc.get ⟨0, false⟩ c s.drains
  let d := if s.outstandingOld c = 0 && s.outstandingCur c ≠ 0 then (⟨old, true⟩ : Drain) else d
  let s := (s.dropStrands c (s.others.length + 1)).dropTraffic c
  let s := s.setHomeBytes (s.ctxRec c + 2) (leBytes 2 ((old + 1) % 2048))
  let s := { s with drains := Assoc.put ⟨0, false⟩ c d s.drains }
  ((s.setLevel c Levels.none).cancelWork v c false).setLevel c Levels.none

/-- A kill is refused: older requests are outstanding, and INCN would come round to the incarnation that was current when
their count last left zero (R183). -/
def State.killWraps (s : State) (c : Nat) : Bool :=
  let d := Assoc.get ⟨0, false⟩ c s.drains
  s.outstandingOld c != 0 && d.used && (s.curIncn c + 1) % 2048 == d.base

/-- The kill of a context that a save or a fill asks for (R98, R176); one that is refused sets WRAP (R183). -/
def State.killFor (s : State) (c : Nat) : State :=
  if s.killWraps c then s.setReg Reg.killstat (s.reg Reg.killstat ||| 0x40000000) else s.kill c

/-! ### Squash (R88, R174, R177, R178) -/

/-- The chanter stands on an atomic that has gone to a lender (R29). -/
def State.amoSent (s : State) : Bool :=
  let w := s.me.who false
  s.me.amo.isSome && ((s.ports.any fun p => p.2.any fun r => r.who == w) || s.peerIn.any fun x => x.who == w)

/-- A request of the strand is on its way that a squash waits for: of the oldest convoy, or of the chanter but for an atomic, whose
response is diverted (R174, R177). -/
def State.inFlight (s : State) : Bool :=
  s.ports.any fun p => p.2.any fun r => s.me.asks r.who && match r.who.ask with
    | .chanter _ => !s.amoSent
    | _ => s.me.pend.any fun q => match q.item with
      | .convoy _ => r.who.ask == .pending q.seq
      | .held _ _ _ => false

/-- The response of an atomic of a muted strand arrives: its result goes to its register, or to the place of the register in the
image; a fault goes to the asynchronous fault queue (R177, R180, log entry 105). -/
def State.amoLands (s : State) (ans : PeerAns) : State :=
  match s.me.amo with
  | none => s
  | some (d, t) =>
    let s := match ans with
      | .data b =>
        let x := amoWiden t (ofLe b)
        if !s.me.saved then (s.acquire).setSreg d x
        else if d = 0 then s
        else s.setHomeBytes (s.imgAddr s.me.vd s.me.imgidx + 0x20000 + 8 * d.toNat) (leBytes 8 x.toNat)
      | x => s.pushAsync s.me (asyncInfo 0 (x.cause.getD .none) (32 + s.me.slot))
    s.onMe fun k => { k with amo := none }

/-- Channels that need a diversion entry at the squash of the strand. -/
def State.divertChannels (s : State) : List Nat :=
  let k := s.me
  let copies := (List.range 4).filter fun c => s.outOf k c != 0
  let last : Bool := match k.cuidx with
    | some u => !(s.others.any fun o => o.status != .empty && !o.muted && o.vd == k.vd && o.cuidx == some u)
    | none => false
  copies.map (fun c => 4 * k.slot + c) ++ (if s.amoSent then [32 + k.slot] else []) ++
    (if k.strshare = 0 then [] else [40 + k.slot]) ++ (if last = true then [48] else [])

def State.divertEntries (s : State) : List Divert :=
  let k := s.me
  s.divertChannels.map fun ch =>
    ⟨k.ctx, k.incn, ch, if ch = 48 then s.cuImgAddr k.vd (k.cuidx.getD 0) else s.imgAddr k.vd k.imgidx⟩

/-- The strand may be squashed: it holds a slot, is not muted, is not ending, and its diversion entries fit (R177). -/
def State.maySquash (s : State) : Bool :=
  let k := s.me
  k.onCu && !k.muted && (k.status == .running || k.status == .parked || k.status == .debug) &&
    decide ((s.cu k.cu).divert.length + s.divertChannels.length ≤ 64)

/-- Register-bound transfers are cut back: nothing more is issued, and the resume record stands (R178). -/
def State.cutCopies (s : State) : State :=
  let k := s.me
  let mine := fun (x : Xfer) => x.vd == k.vd && x.imgidx == k.imgidx && !x.orphan && x.regs.dreg && x.err == .none && !x.cancel &&
    decide (x.pos < x.regs.size)
  let s := (s.xfers.filter mine).foldl (fun (s : State) x => s.onMe fun k =>
    if h : x.chan < 4 then
      { k with copyRecs := k.copyRecs.set x.chan (some ⟨ceilDiv x.pos 8, BitVec.ofNat 5 x.regs.dst.toNat, x.id, x.regs⟩) h }
    else k) s
  { s with
    xfers := s.xfers.map fun x => if mine x then { x with cut := true } else x
    replay := s.replay.filter fun w => !s.xfers.any fun x => mine x && w.who == x.who }

/-- A convoy that waits in a replay queue stops precisely for the squash: no group of it is committed (R174, log entry 17). -/
def Convoy.restartEsv (c : Convoy) (k : Strand) : Vector Word 8 :=
  match c.restart with
  | some r => esvOf r.ridx r.grant
  | none =>
    let cl := clusterOf k.grant
    let n := headGroups c c.parts.1
    esvOf (Vector.ofFn fun (i : Fin 8) => (groupsOf cl (fun _ => true) i.val n).headD 256) k.grant

/-- A held operation that takes effect by itself: with no convoy older than it, it has been released (R88). -/
def Pend.goes (p : Pend) : Bool :=
  match p.item with
  | .convoy _ => false
  | .held _ h _ => match h with
    | .word _ _ _ => false
    | _ => true

/-- Where the convoy at the rollback point of a squash resumes: it had started, or had stopped before. -/
def Convoy.point (c : Convoy) : Option Stop :=
  if (c.started && !c.isSetvl) || c.restart.isSome then
    let sup := (c.restart.bind fun r => r.sup).getD (.none, 0)
    some ⟨sup.1, BitVec.ofNat 64 sup.2, c.pc, (c.restart.map fun r => r.word).getD 0, (c.restart.map fun r => r.ixr).getD false, true,
      sup.2, 0⟩
  else none

/-- The rollback of a squash (R88): to the oldest convoy that has not completed, or to the word the chanter stands on. Held operations
with no convoy before them have been released and go on; one that the chanter comes back to is itself the rollback point, and an atomic
that has been sent is past (log entry 105). -/
def State.rollbackForSquash (s : State) : State :=
  let k := s.me
  match k.pend.dropWhile Pend.goes with
  | p :: _ =>
    match p.item with
    | .convoy c =>
      let stopped := c.started && !c.isSetvl
      let esv := if stopped then c.restartEsv k else k.ch.esv
      s.onMe fun k =>
        let k := k.rollback p.seq p.snap
        { k with
          ch := if stopped then { k.ch with esv := esv } else k.ch
          cap := if stopped then some (capOf c) else k.cap
          resume := c.point
          skipBrk := c.skip }
    | .held _ _ _ => s.onMe fun k => k.rollback p.seq p.snap
  | [] =>
    if s.amoSent then s.next
    else
      let timed := k.wait == .address || k.wait == .counter || match k.wait with
        | .copyId _ => true
        | _ => false
      s.onMe fun k =>
        { k with
          ch := if k.forming.isEmpty then k.ch else k.formSnap
          forming := [], trap := .none, vwait := .none, armed := timed, amo := .none
          wait := if timed then k.wait else .none
          since := s.now - k.since }

/-- The oldest pending item is a convoy that has started (R87). -/
def Strand.headStarted (k : Strand) : Bool :=
  match k.pend with
  | p :: _ => (match p.item with
    | .convoy c => c.started && !c.isSetvl
    | .held _ _ _ => false)
  | [] => false

def State.headStarted (s : State) : Bool := s.me.headStarted

/-- Requests of words that the strand has given up are forgotten. An atomic that a lender has performed for a convoy keeps its answer
for when the convoy runs again. -/
def State.dropGone (s : State) : State :=
  let gone := fun (w : Who) => s.me.asks w && !(s.me.pend.any fun p => w.ask == .pending p.seq)
  { s with
    replay := s.replay.filter fun w => !gone w.who
    sendq := s.sendq.filter fun r => !gone r.who
    peerIn := s.peerIn.filter fun x => !gone x.who || match x.who.ask, x.op with
      | .pending _, .atomic _ _ _ _ => true
      | _, _ => false }

/-- A squash takes effect: the younger work is dropped, a started convoy that has not completed stops precisely, the strand's stores
leave the buffer of its CU, it is muted, its lanes are free (R72, R88, R174). -/
def State.finishSquash (s : State) : State :=
  let entries := s.divertEntries
  let answered := if s.amoSent then s.peerIn.find? fun x => x.who == s.me.who false else none
  let s := if s.me.status = .running then s.rollbackForSquash else s
  let s := (s.cutCopies).drainWcb s.me.cu
  let c := s.cu s.me.cu
  let s := s.setCu s.me.cu { c with divert := c.divert ++ entries }
  let s := ((s.dropGone).releaseLanes).onMe fun k => { k with muted := true, short := false, squashing := .none, begun := .none }
  match answered with
  | some x => s.amoLands x.ans
  | none => s

/-- The squash goes on: the oldest convoy, started, completes or stops; what is on its way comes home; then the squash takes effect
(R174). -/
def State.squashTurn (s : State) : State :=
  let s := if s.headStarted then s.vecTurn else s
  if s.inFlight then s else s.finishSquash

/-- The dealer squashes the strand (R174): the oldest started convoy completes or stops first, now or, with `now` false, in a
turn of its own within 2,048 cycles. -/
def State.squash (s : State) (now : Bool) : State :=
  let s := s.onMe fun k => { k with squashing := some s.now }
  if now || !s.headStarted then s.squashTurn else s

/-! ### Save and restore (R98, R175 to R179) -/

/-- The bytes of an image record. -/
def State.imgBytes (s : State) (v : Nat) : Nat := imageSize + 4096 * s.vdSsMax v

/-- The copier may write or read n bytes at a (R11, R54, R131). -/
def State.copierMay (s : State) (a n : Nat) (wr : Bool) : Bool := s.listed a && s.listed (a + n - 1) && s.admits 68 a n wr

/-- The copier's access of n bytes at a waits: for its time slots (R74), or for a critical stack (R19). -/
def State.copierWaits (s : State) (a n : Nat) : Bool := !s.inSlot .copier || (linesAt a n).any fun l => s.lineWaits 68 l

/-- The copier has written the n bytes at a: whole lines, which are clean (R15); those of a host window go to the host (R11). -/
def State.copied (s : State) (a n : Nat) : State :=
  ((linesAt a n).foldl (fun s l => ((s.touchL2 68 l true 0).fixZero 68 l).setPoison l false) s).hostPut a n

/-- The copier has read the n bytes at a. -/
def State.fetched (s : State) (a n : Nat) : State := ((linesAt a n).foldl (fun s l => s.touchL2 68 l false 0) s).hostGet a n

/-- The bytes of the strand's image: the record's fixed part and the share. -/
def Strand.imgSpan (k : Strand) : Nat := imageSize + 1024 * k.strshare

/-- The strand may be saved: nothing of it is left on its way to memory. -/
def State.maySave (s : State) (k : Strand) : Bool :=
  k.muted && !k.saved && k.pend.isEmpty && !(s.cu k.cu).wcb.any fun l => l.vd == k.vd && l.ctx == k.ctx && l.incn == k.incn

/-- Where register line i stands in an image (R96). -/
def lineOff (i : Nat) : Nat := if i < 256 then 0x100 * i else 0x10000 + 0x100 * (i - 256)

/-- The copier writes the strand's image; the strand then holds no slot (R176). A register line that the CU does not cache stays as the
image holds it, poison and all (R98). -/
def State.saveStrand (s : State) : State :=
  let k := s.me
  let a := s.imgAddr k.vd k.imgidx
  let bad := (k.absent.flatMap fun i => linesAt (a + lineOff i) 256).filter s.poisoned
  let s := bad.foldl (fun s l => s.setPoison l true) ((((s.saveLines a).saveEager a).saveShare a).copied a k.imgSpan)
  let c := clearPresence (s.cu k.cu) k.slot
  ((s.setCu k.cu c).onMe fun k => { k with saved := true, share := [], async := [] }).freeSplit k.cu

/-- A word of an image. -/
def State.imgWord (s : State) (a : Nat) : Word := BitVec.ofNat 64 (s.homeNat a 8)

/-- A queue read back: the entries at (HEAD + j) mod 16 for j < COUNT, and SKIP. -/
def State.loadQueue (s : State) (a : Nat) : List QEntry × Nat :=
  let w := s.homeNat (a + 0x80) 8
  ((List.range (min 16 (field w 0 5))).map fun j => ⟨s.imgWord (a + 8 * ((field w 8 4 + j) % 16)), 0⟩, field w 16 5)

/-- The control registers of an image that a word can write, with their places in its order (R175). -/
def imageCregs : List (CReg × Nat) :=
  [(.fpctl, 2), (.tvec, 5), (.tcause, 6), (.tpc, 7), (.tinfo, 8), (.tsave, 9), (.lc0, 19), (.lc1, 20), (.wtimeo, 21), (.qtimeo, 22),
   (.trctl, 25)] ++ (List.range 8).map fun i => (.esv (BitVec.ofNat 3 i), 10 + i)

/-- The chanter registers of an image: each takes what a write of it would store (R5). -/
def State.loadChanter (s : State) (a : Nat) : Chanter :=
  let c := fun k => s.imgWord (a + 0x20100 + 8 * k)
  let ps := c 27
  let base : Chanter :=
    { Chanter.zero with
      pc := (c 26).extractLsb' 0 48 |>.setWidth 64
      s := Vector.ofFn fun (i : Fin 32) => s.imgWord (a + 0x20000 + 8 * i.val)
      vl := min 1024 (field (c 0).toNat 0 16), mvl := min 64 (field (c 1).toNat 0 16)
      stripn := c 18
      chan := Vector.ofFn fun (i : Fin 4) =>
        let r := fun k => s.imgWord (a + 0x20300 + 0x40 * i.val + 8 * k)
        ⟨r 0, r 1, r 2, r 3, r 4, r 5⟩
      cpnext := (c 28).setWidth 16
      loops := ⟨ps.getLsbD 0, ps.getLsbD 1, ps.getLsbD 2, s.imgWord (a + 0x20200), s.imgWord (a + 0x20208),
        s.imgWord (a + 0x20210), s.imgWord (a + 0x20218)⟩ }
  imageCregs.foldl (fun b r => b.writeCreg r.1 (c r.2)) base

def State.loadDone (s : State) (a : Nat) : CpDone :=
  let w := s.imgWord a
  ⟨w.extractLsb' 24 8, w.getLsbD 18, w.getLsbD 17, w.getLsbD 16, w.extractLsb' 0 16⟩

def State.loadCopyRec (s : State) (a : Nat) : Option CopyRec :=
  if (s.homeByte (a + 3)).getLsbD 0 then
    some ⟨s.homeNat a 2, BitVec.ofNat 5 (s.homeNat (a + 2) 1), BitVec.ofNat 16 (s.homeNat (a + 4) 2),
      ⟨s.imgWord (a + 8), 0, s.imgWord (a + 0x10), s.imgWord (a + 0x18), s.imgWord (a + 0x20), s.imgWord (a + 0x28)⟩⟩
  else none

/-- The stop a resume goes on from, with the PC word's WORD, IXR and RSTOP. -/
def resumeOf (old : Option Stop) (w : Word) : Option Stop :=
  let pc := (w.extractLsb' 0 48).setWidth 64
  let o := old.getD (stopAt pc .none 0)
  if old.isSome || w.getLsbD 51 || w.getLsbD 50 then
    some { o with pc := pc, word := field w.toNat 48 2, ixr := w.getLsbD 50, rstop := w.getLsbD 51 }
  else none

/-- The strand as its image holds it: the eager state and the share. Its register lines are not cached (R98). -/
def State.loadStrand (s : State) (k : Strand) : Strand :=
  let a := s.imgAddr k.vd k.imgidx
  let w := s.imgWord (a + 0x201D0)
  let q := fun n => s.loadQueue (a + 0x20400 + 0x100 * n)
  { k with
    ch := s.loadChanter a
    fpflg := (s.imgWord (a + 0x20118)).setWidth 32 &&& 0x1F
    mflg := (s.imgWord (a + 0x20120)).setWidth 32 &&& 0x3F
    dbgctl := (s.imgWord (a + 0x201C0)).setWidth 32 &&& 0x1F
    fromVec := Vector.ofFn fun (i : Fin 4) => (q i.val).1
    toVec := Vector.ofFn fun (i : Fin 4) => (q (4 + i.val)).1
    skip := Vector.ofFn fun (i : Fin 4) => (q (4 + i.val)).2
    m := Vector.ofFn fun (i : Fin 16) =>
      if 1 ≤ i.val && i.val ≤ 14 then BitVec.ofNat 1024 (s.homeNat (a + 0x20C00 + 0x80 * (i.val - 1)) 128) else 0
    stack := ((List.range (min 16 (field (s.homeNat (a + 0x21800) 8) 0 5))).map fun e =>
      ⟨BitVec.ofNat 1024 (s.homeNat (a + 0x22000 + 0x100 * e) 128), BitVec.ofNat 1024 (s.homeNat (a + 0x22080 + 0x100 * e) 128)⟩).reverse
    done := Vector.ofFn fun (i : Fin 4) => s.loadDone (a + 0x20338 + 0x40 * i.val)
    async := (List.range 32).filterMap fun i =>
      if (s.homeByte (a + 0x23000 + 64 * i + 1)).getLsbD 2 then some (s.imgWord (a + 0x23010 + 64 * i)) else none
    copyRecs := Vector.ofFn fun (i : Fin 4) => s.loadCopyRec (a + 0x23800 + 0x40 * i.val)
    share := (List.range (1024 * k.strshare)).foldl (fun l i => Assoc.put byteDefault i (s.homeByte (a + 0x24000 + i)) l) []
    resume := if k.status = Status.running then resumeOf k.resume w else k.resume
    keep := if k.status = Status.running then k.keep else resumeOf k.keep w
    absent := List.range 512
    saved := false, muted := false
    cntbase := (s.imgWord (a + 0x201B8)).setWidth 16 }

/-- The image of a strand, from byte lo to byte hi, takes in one of the n bytes at a. -/
def State.imgMeets (s : State) (k : Strand) (a n lo hi : Nat) : Bool :=
  let b := s.imgAddr k.vd k.imgidx
  decide (a < b + hi) && decide (b + lo < a + n)

/-- The registers of the strand stand on its CU, and software may see and write them in its image (R96, R175). -/
def Strand.shows (k : Strand) : Bool :=
  k.status != .empty && !k.saved && k.pend.isEmpty && (k.muted || k.status == .parked || k.status == .debug)

/-- The eager part of the image reads back as the strand's registers: what software has written there stands, such as the ring position of
a queue's oldest entry or the entries of a queue whose COUNT comes later (R175). -/
def State.imageHolds (s : State) : Bool :=
  let k := s.me
  ({ s.loadStrand k with muted := k.muted, saved := k.saved, share := k.share, absent := k.absent } : Strand) == k

/-- The parts of the strand's image that the n bytes at a touch are written from its registers, unless they hold them already. -/
def State.showImage (s : State) (a n : Nat) : State :=
  let k := s.me
  let b := s.imgAddr k.vd k.imgidx
  let s := if s.imgMeets k a n 0 0x20000 then s.saveLines b else s
  let s := if s.imgMeets k a n 0x20000 0x24000 && !s.imageHolds then s.saveEager b else s
  if s.imgMeets k a n 0x24000 k.imgSpan then s.saveShare b else s

/-- The strand takes the parts of its image that the n bytes at a touch. -/
def State.takeImage (s : State) (a n : Nat) : State :=
  let k := s.me
  let x := s.loadStrand k
  let k' := if s.imgMeets k a n 0x20000 0x24000 then { x with muted := k.muted, saved := k.saved } else k
  { s with me := { k' with
    share := if s.imgMeets k a n 0x24000 k.imgSpan then x.share else k.share
    absent := if s.imgMeets k a n 0 0x20000 then x.absent else k.absent } }

/-- Cut-back transfers go on from VSTART of their resume records (R178). -/
def State.resumeCopies (s : State) : State :=
  let k := s.me
  let s := { s with xfers := s.xfers.map fun (x : Xfer) =>
    if x.vd == k.vd && x.imgidx == k.imgidx && !x.orphan && x.cut then
      match k.copyRecs.toList.getD x.chan none with
      | some r => { x with cut := false, pos := 8 * r.vstart }
      | none => { x with cut := false }
    else x }
  s.onMe fun k => { k with copyRecs := Vector.replicate 4 .none }

/-- Diversion of the strand ends (R179). -/
def State.endDiversion (s : State) (k : Strand) : State :=
  { s with cus := s.cus.map fun x => if x.1 = k.cu then
      (x.1, { x.2 with divert := x.2.divert.filter fun d =>
        !(d.ctx == k.ctx && d.incn == k.incn && (d.addr == s.imgAddr k.vd k.imgidx)) }) else x }

/-- The CU share of the strand's index is resident on a CU. -/
def State.shareResident (s : State) (k : Strand) (cu : Nat) : Bool := (s.cu cu).shares.any fun x => x.of k.vd k.cuidx && x.resident

/-- The CU share of the strand's index, read back where it is not resident (R375). -/
def State.restoreCuShare (s : State) (k : Strand) (cu : Nat) : State :=
  match k.cuidx with
  | none => s
  | some u =>
    if s.shareResident k cu then s
    else
      let a := s.cuImgAddr k.vd u
      let bytes := (List.range (1024 * k.cushare)).foldl (fun l i => Assoc.put byteDefault i (s.homeByte (a + i)) l) []
      let s := { s.fetched a (1024 * k.cushare) with cus := s.cus.map fun (x : Nat × Cu) => (x.1, { x.2 with
        shares := x.2.shares.filter fun h => !h.of k.vd k.cuidx
        divert := x.2.divert.filter fun d => !(d.ctx == k.ctx && d.chan == 48 && d.addr == a) }) }
      let c := s.cu cu
      s.setCu cu { c with shares := c.shares ++ [(⟨k.launch, k.vd, u, k.cushare, bytes, true⟩ : CuShare)] }

/-- A CU may take a saved strand back (R68, R375): owned, a free slot, the same split, room for its shares; while its CU share is
resident the CU that holds it, else one that holds no other CU share of the launch (log entry 91). Its atomic has been answered. -/
def State.mayRestore (s : State) (k : Strand) (cu : Nat) (split : Nat) : Bool :=
  let on := s.onCu cu
  s.cuOwned k.vd cu && decide (on.length < 8) && ((s.cu cu).split == some split || on.isEmpty) &&
    decide (s.scratchUse cu k.launch k.strshare k.cushare ≤ scratchKib split) && k.amo.isNone &&
    (k.cuidx.isNone || match s.cuShareAt k.vd k.cuidx with
      | some (c, x) => if x.resident then c == cu else !(s.cu cu).shares.any fun h => h.launch == k.launch && h.resident
      | none => true)

/-- A wait that was armed goes on: the cycles in which the strand was muted do not count (R333). -/
def Strand.waitsOn (k : Strand) (now : Nat) : Strand := if k.armed then { k with armed := false, since := now - k.since } else k

/-- Restores the saved strand whose turn it is on a CU (R179): STRANDID names the new place, the lanes are what R70 grants
for the strip it is in (R83). -/
def State.restore (s : State) (cu : Nat) (split : Nat) : State :=
  let k := s.me
  let slot := ((List.range 8).find? fun i => !((s.onCu cu).any fun o => o.slot == i)).getD 0
  let s := (s.restoreCuShare k cu).fetched (s.imgAddr k.vd k.imgidx) k.imgSpan
  let k' := s.loadStrand k
  let s := s.endDiversion k
  let s := { s with me := { k' with strandid := 8 * cu + slot, dcache := [] }.waitsOn s.now }
  let s := s.setCu cu { s.cu cu with split := some split }
  let (s, ok) := s.renegotiate s.me.strip.vl (16 * 2 ^ s.me.strip.w.toNat)
  let s := if ok then s else s.joinFifo
  s.resumeCopies

/-- A squash undone before the save: the strand goes on where it stands (R179), its atomic answered; of its image only the CU share may
have to be copied. -/
def State.unmute (s : State) : State :=
  let s := (s.restoreCuShare s.me s.me.cu).endDiversion s.me
  let s := s.onMe fun k => { k with muted := false }.waitsOn s.now
  let (s, ok) := s.renegotiate s.me.strip.vl (16 * 2 ^ s.me.strip.w.toNat)
  (if ok then s else s.joinFifo).resumeCopies

/-- Fills a register line from the image (R98). -/
def State.fillLine (s : State) (i : Nat) : State :=
  let k := s.me
  let a := s.imgAddr k.vd k.imgidx
  if i < 256 then
    let v := BitVec.ofNat 5 (i / 8)
    let bytes := s.homeBytes (a + 0x800 * (i / 8) + 0x100 * (i % 8)) 256
    s.onMe fun k =>
      let f := k.file.setV v (lineIntoV (k.file.vreg v) (i % 8) bytes)
      { k.withFile f with absent := k.absent.filter fun j => j != i }
  else
    let t := BitVec.ofNat 2 ((i - 256) / 64)
    let x := s.homeNat (a + 0x10000 + 0x4000 * ((i - 256) / 64) + 0x100 * (i % 64)) 256
    s.onMe fun k =>
      let f := k.file.setT t (setElem 2048 (k.file.tile t) (i % 64) x)
      { k.withFile f with absent := k.absent.filter fun j => j != i }

/-! ### YIELD (R282) -/

/-- A launch that cannot start now and could on this CU once the strand has left it. -/
def State.wantsSlot (s : State) (l : Launch) : Bool :=
  let k := s.me
  l.state == .eligible && !l.held && !l.full && decide (k.prio ≤ l.prio) && (s.placeFor l).isNone &&
    ({ s with me := Strand.none } : State).mayPlace l k.cu

/-- A saved strand of equal or higher PRIO waits for a slot on this CU. -/
def State.wantsBack (s : State) (o : Strand) : Bool :=
  let k := s.me
  o.saved && decide (k.prio ≤ o.prio) &&
    (match (s.cu k.cu).split with
     | some sp => ({ s with me := Strand.none } : State).mayRestore o k.cu sp
     | none => false)

/-- The dealer has a strand of equal or higher queue PRIO waiting for a slot on this CU (R282). -/
def State.yields (s : State) : Bool := s.launches.any s.wantsSlot || s.others.any s.wantsBack

end Sys2Proof.Machine
end

