-- ==== Sys2Proof/Machine/Control.lean ====
section
/-! DEFINITION. Group 1: branches, hardware loops, traps and returns, control registers, dealer words, counters, queue moves,
slot words, marks (R271 to R293). -/

namespace Sys2Proof.Machine

/-! ### Transfers of control (R271) -/

/-- A taken transfer to `t`: a target inside a convoy traps BADTARGET (R90). -/
def State.transfer (s : State) (t : Word) (f : State → State) : State :=
  if s.insideConvoy t then s.trapHere .badtarget t else f s

/-- A conditional branch (R271). -/
def State.branch (s : State) (taken : Bool) (disp : BitVec 32) : State :=
  let t := target s.me.ch.pc disp
  if taken then s.transfer t fun s => s.jump t else s.next

def execBeq (a b : SReg) (disp : BitVec 32) (s : State) : Result := .next (s.branch (s.sreg a == s.sreg b) disp)
def execBne (a b : SReg) (disp : BitVec 32) (s : State) : Result := .next (s.branch (s.sreg a != s.sreg b) disp)
def execBlt (a b : SReg) (disp : BitVec 32) (s : State) : Result := .next (s.branch ((s.sreg a).slt (s.sreg b)) disp)
def execBge (a b : SReg) (disp : BitVec 32) (s : State) : Result := .next (s.branch (!(s.sreg a).slt (s.sreg b)) disp)
def execBltn (a b : SReg) (disp : BitVec 32) (s : State) : Result := .next (s.branch ((s.sreg a).ult (s.sreg b)) disp)
def execBgen (a b : SReg) (disp : BitVec 32) (s : State) : Result := .next (s.branch (!(s.sreg a).ult (s.sreg b)) disp)

def execJ (disp : BitVec 32) (s : State) : Result := .next (s.branch true disp)

/-- JAL: d := PC + 8. -/
def execJal (d : SReg) (disp : BitVec 32) (s : State) : Result :=
  let pc := s.me.ch.pc
  .next (s.transfer (target pc disp) fun s => (s.setSreg d (pc + 8)).jump (target pc disp))

/-- A transfer to a register's value: a misaligned one traps ALIGN (R271). -/
def State.jumpReg (s : State) (t : Word) (f : State → State) : State :=
  if t.extractLsb' 0 3 ≠ 0 then s.trapHere .align (slotInfo 0 t.toInt) else s.transfer t f

def execJr (a : SReg) (s : State) : Result :=
  let t := s.sreg a
  .next (s.jumpReg t fun s => s.jump t)

/-- JALR: the target is read before d := PC + 8. -/
def execJalr (d a : SReg) (s : State) : Result :=
  let t := s.sreg a
  let pc := s.me.ch.pc
  .next (s.jumpReg t fun s => (s.setSreg d (pc + 8)).jump t)

/-! ### Hardware loops (R273) -/

/-- Level n is active. -/
def Loops.active (l : Loops) (n : BitVec 1) : Bool := if n = 0 then l.act0 else l.act1

/-- Opens level n with a count, S and E. -/
def Chanter.openLoop (c : Chanter) (n : BitVec 1) (cnt : BitVec 32) (s e : Word) : Chanter :=
  if n = 0 then { c with lc0 := cnt, loops := { c.loops with act0 := true, later := false, s0 := s, e0 := e } }
  else { c with lc1 := cnt, loops := { c.loops with act1 := true, later := true, s1 := s, e1 := e } }

/-- Goes on at `t` without a test of any level: a loop whose body is skipped (R273). -/
def State.skipTo (s : State) (t : Word) : State :=
  s.onMe fun k => { k with ch := { k.ch with pc := t }, wait := .none, seq := k.seq + 1, skipBrk := false, resume := .none }

/-- Opens a loop, or skips its body with a count of 0; an active level traps LOOPNEST (R273). -/
def State.loop (s : State) (n : BitVec 1) (cnt : BitVec 32) (disp : BitVec 32) : State :=
  let pc := s.me.ch.pc
  let e := target pc disp
  if s.me.ch.loops.active n then s.trapHere .loopnest 0
  else if cnt = 0 then s.skipTo e
  else (s.onCh fun c => c.openLoop n cnt (pc + 8) e).next

def execLoop (lv : BitVec 1) (a : SReg) (disp : BitVec 32) (s : State) : Result :=
  .next (s.loop lv ((s.sreg a).extractLsb' 0 32) disp)

def execLoopi (lv : BitVec 1) (n : BitVec 15) (disp : BitVec 32) (s : State) : Result :=
  .next (s.loop lv (n.setWidth 32) disp)

/-! ### Branches on the mask-stack top (R272) -/

/-- A pending convoy writes the mask-stack top. -/
def Strand.stackPending (k : Strand) : Bool :=
  k.pend.any fun p => match p.item with
    | .convoy c => c.words.any fun x => x.op.stack
    | .held _ _ _ => false

/-- The top has a set bit below VL. -/
def Strand.topSet (k : Strand) : Bool := (List.range k.ch.vl).any fun e => (stackTop k.stack).getLsbD e

def execBmz (disp : BitVec 32) (s : State) : Result :=
  .next (if s.me.stackPending then s.await .convoys else s.branch (!s.me.topSet) disp)

def execBmnz (disp : BitVec 32) (s : State) : Result :=
  .next (if s.me.stackPending then s.await .convoys else s.branch s.me.topSet disp)

/-! ### Traps and returns (R276, R277) -/

def execTrap (imm : BitVec 32) (s : State) : Result := .next (s.trapHere .trap (imm.setWidth 64))
def execBrk (imm : BitVec 32) (s : State) : Result := .next (s.trapHere .brk (imm.setWidth 64))

/-- What ERET resumes: the trap that TCAUSE, TINFO and TPC name; a convoy at TPC runs from ESV0-ESV7 (R168, R170, R171). -/
def Chanter.resumes (c : Chanter) : Stop :=
  ⟨Cause.ofCode (field c.tcause.toNat 0 8), c.tinfo, c.tpc.setWidth 64, field c.tcause.toNat 8 3, c.tcause.getLsbD 11, true, 0, 0⟩

/-- ERET (R168, R275, R277): a TPC that is En of an active level makes the deferred test first. -/
def execEret (s : State) : Result :=
  let c := s.me.ch
  let t : Word := c.tpc.setWidth 64
  .next (
    if !c.tcause.getLsbD 31 then s.trapHere .priv (wordOf .eret)
    else s.transfer t fun s =>
      let c' := ({ c with tcause := c.tcause &&& 0x7FFFFFFF } : Chanter).fallTo t
      s.onMe fun k =>
        { k with
          ch := c', wait := .none, seq := k.seq + 1, skipBrk := false
          woken := k.woken.filter fun w => w.1 == c'.pc
          resume := if c'.pc = t then some c.resumes else .none })

/-! ### Control registers (R253, R254, R278, R279) -/

/-- The number of a control register (R253). -/
def cregNum : CReg → Nat
  | .vl => 0x000 | .mvl => 0x001 | .lanes => 0x002 | .vlceil => 0x003
  | .fpctl => 0x008 | .fpflg => 0x009 | .mflg => 0x00A
  | .tvec => 0x010 | .tcause => 0x011 | .tpc => 0x012 | .tinfo => 0x013 | .tsave => 0x014
  | .esv c => 0x018 + c.toNat
  | .stripn => 0x020 | .stripcyc => 0x021 | .stripab => 0x022 | .stripmb => 0x023
  | .cpsrc c => 0x030 + 8 * c.toNat | .cpdst c => 0x031 + 8 * c.toNat | .cplen c => 0x032 + 8 * c.toNat
  | .cpstr c => 0x033 + 8 * c.toNat | .cpctl c => 0x034 + 8 * c.toNat | .cpflag c => 0x035 + 8 * c.toNat
  | .cpgo c => 0x036 + 8 * c.toNat | .cpdone c => 0x037 + 8 * c.toNat
  | .lc0 => 0x050 | .lc1 => 0x051 | .wtimeo => 0x058 | .qtimeo => 0x059
  | .ctxid => 0x060 | .incn => 0x061 | .strandid => 0x062 | .launchid => 0x063 | .slottb => 0x064 | .cntbase => 0x065
  | .imgidx => 0x066 | .dbgctl => 0x070 | .trctl => 0x071

/-- A GETC that waits until every older convoy has completed (R86, R348). -/
def cregWaits : CReg → Bool
  | .fpflg | .mflg | .esv _ | .cpsrc _ | .cpdst _ | .cplen _ | .cpstr _ | .cpctl _ | .cpflag _ | .cpgo _ | .cpdone _ => true
  | _ => false

/-- A register that SETC and SETCI may not write. -/
def cregReadOnly : CReg → Bool
  | .vl | .mvl | .lanes | .vlceil | .stripn | .stripcyc | .stripab | .stripmb | .cpgo _ | .cpdone _ | .ctxid | .incn
  | .strandid | .launchid | .cntbase | .imgidx | .dbgctl => true
  | _ => false

/-- The vector unit has a SETVL still to reach (R73). -/
def Strand.setvlPending (k : Strand) : Bool :=
  k.pend.any fun p => match p.item with
    | .convoy c => c.isSetvl
    | .held _ _ _ => false

/-- What a control register reads as. -/
def State.readCreg (s : State) (r : CReg) : Word :=
  let k := s.me
  let c := k.ch
  match r with
  | .vl => BitVec.ofNat 64 c.vl | .mvl => BitVec.ofNat 64 c.mvl
  | .lanes => k.grant.setWidth 64
  | .vlceil => BitVec.ofNat 64 (field s.powceil 0 48)
  | .fpctl => c.fpctl.setWidth 64 | .fpflg => k.fpflg.setWidth 64 | .mflg => k.mflg.setWidth 64
  | .tvec => c.tvec | .tcause => c.tcause.setWidth 64 | .tpc => c.tpc.setWidth 64 | .tinfo => c.tinfo | .tsave => c.tsave
  | .esv n => c.esv[n.toNat]'n.isLt
  | .stripn => c.stripn | .stripcyc => s.stripCyc.setWidth 64
  | .stripab => k.strip.ab.setWidth 64 | .stripmb => k.strip.mb.setWidth 64
  | .cpsrc n => (c.channel n).src | .cpdst n => (c.channel n).dst | .cplen n => (c.channel n).len
  | .cpstr n => (c.channel n).str | .cpctl n => (c.channel n).ctl | .cpflag n => (c.channel n).flag
  | .cpgo _ => 0
  | .cpdone n => cpDoneWord (k.doneOf n) (s.outOf k n.toNat)
  | .lc0 => c.lc0.setWidth 64 | .lc1 => c.lc1.setWidth 64
  | .wtimeo => c.wtimeo.setWidth 64 | .qtimeo => c.qtimeo.setWidth 64
  | .ctxid => BitVec.ofNat 64 k.ctx | .incn => BitVec.ofNat 64 k.incn | .strandid => BitVec.ofNat 64 k.strandid
  | .launchid => k.launchid.setWidth 64 | .slottb => k.slottb.setWidth 64 | .cntbase => k.cntbase.setWidth 64
  | .imgidx => BitVec.ofNat 64 k.imgidx | .dbgctl => k.dbgctl.setWidth 64 | .trctl => c.trctl.setWidth 64

/-- A GETC of CPDONE acquires from the completions up to LASTID (R142, R348). -/
def State.seeDone (s : State) (n : BitVec 2) : State :=
  let d := s.me.doneOf n
  if d.done then (s.orderLog (.copy d.lastId)).acquire else s

/-- GETC (R278) of every register but CPGOc. -/
def execGetc (d : SReg) (r : CReg) (s : State) : Result :=
  .next (
    if r = .slottb && !s.me.priv then s.trapHere .priv (BitVec.ofNat 64 (cregNum r))
    else if cregWaits r && !s.idle then s.await .convoys
    else if r = .lanes && s.me.setvlPending then s.await .lanes
    else
      let x := s.readCreg r
      let s := match r with
        | .cpdone n => s.seeDone n
        | _ => s
      (s.setSreg d x).next)

/-- A write of a control register (R254, R279): a read-only one traps PRIV with its number, SLOTTB of an unprivileged strand
with the word (R262); FPFLG, MFLG and SLOTTB wait for older convoys. -/
def State.setCreg (s : State) (r : CReg) (x word : Word) : State :=
  if cregReadOnly r then s.trapHere .priv (BitVec.ofNat 64 (cregNum r))
  else match r with
    | .slottb =>
      if !s.me.priv then s.trapHere .priv word
      else s.whenIdle fun s => (s.onMe fun k => { k with slottb := x.setWidth 48, dcache := [] }).next
    | .fpflg => s.whenIdle fun s => (s.onMe fun k => { k with fpflg := x.setWidth 32 &&& 0x1F }).next
    | .mflg => s.whenIdle fun s => (s.onMe fun k => { k with mflg := x.setWidth 32 &&& 0x3F }).next
    | r => (s.onCh fun c => c.writeCreg r x).next

def execSetc (r : CReg) (a : SReg) (s : State) : Result := .next (s.setCreg r (s.sreg a) (wordOf (.setc r a)))

def execSetci (r : CReg) (imm : BitVec 20) (s : State) : Result :=
  .next (s.setCreg r (imm.signExtend 64) (wordOf (.setci r imm)))

/-! ### Copy launches (R349) -/

/-- A check of the latched values fails (R349). -/
def State.badLaunch (s : State) (c : BitVec 2) : Bool :=
  let ch := s.me.ch.channel c
  let len := ch.size
  ch.len.extractLsb' 40 24 ≠ 0 || ch.ctl.extractLsb' 37 27 ≠ 0 || ch.ctl.extractLsb' 6 8 ≠ 0 ||
  decide (11 < ch.chlog) || ch.cw == 3 || ch.cmask == 15 ||
  (ch.cmask != 0 && decide (1024 * ch.wb < len)) ||
  (ch.row != 0 && len % ch.row != 0) ||
  (ch.dreg && (ch.dst.extractLsb' 5 59 != 0 || decide (2048 < len) ||
    s.xfers.any fun x => x.vd == s.me.vd && x.imgidx == s.me.imgidx && !x.orphan && x.chan == c.toNat && x.regs.dreg)) ||
  (ch.rsh && (ch.dreg || ch.dst.extractLsb' 56 8 != 254))

/-- The id after an id: 1 to 65,535, then 1 again. -/
def nextId (id : BitVec 16) : BitVec 16 := if id = 0xFFFF then 1 else id + 1

/-- The first row of a destination, `n` rows of `row` bytes at offset `off` and `p` apart, that reaches past `lo` (R350). -/
def rowPast (off lo : Int) (row p n : Nat) : Nat :=
  if lo < off + row || p = 0 then 0 else min (n - 1) (((lo - off - row) / p).toNat + 1)

/-- A write of the transfer that a debugger's watch covers: a row of its destination in the strand's slots, or its flag word
(R208, R209, log entry 99). -/
def State.copyWatched (s : State) (c : Channel) : Option Hit :=
  let r := refPtr c.dst 0
  let row := if c.row = 0 then c.size else c.row
  let lo : Int := field (s.regN (Reg.dbg s.me.vd + 0x10)) 0 48
  let o := r.off + (rowPast r.off lo row c.dpitch (if c.row = 0 then 1 else c.size / c.row) * c.dpitch : Nat)
  let f := refPtr c.flag 0
  if !c.dreg && !c.rsh && s.watched wrOnly r.slot o row then some ⟨.watch, slotInfo r.slot o, (s.descFor r.slot).2.gen⟩
  else if c.flagen && s.watched wrOnly f.slot f.off 8 then some ⟨.watch, slotInfo f.slot f.off, (s.descFor f.slot).2.gen⟩
  else none

/-- Launches the transfer that channel c describes, once every older access has performed (R146, R349). -/
def State.launchCopy (s : State) (d : SReg) (c : BitVec 2) : State :=
  let k := s.me
  let ch := k.ch.channel c
  let id := k.ch.cpnext
  let x : Xfer :=
    { key := s.order, vd := k.vd, launch := k.launch, ctx := k.ctx, incn := k.incn, imgidx := k.imgidx, cu := k.cu, slot := k.slot,
      chan := c.toNat, id := id, regs := ch, pos := 0, chunks := 0, cancel := false, err := .none, info := 0, cut := false,
      tainted := [], before := [], orphan := false, slottb := k.slottb, strshare := k.strshare, cushare := k.cushare,
      cuidx := k.cuidx }
  let s := if ch.cmask = 0 then s
    else s.setMaskBits s.me ch.cmask ((List.range 1024).filter fun e => decide (e * ch.wb < ch.size)) false
  let s := { s with xfers := s.xfers ++ [x], order := s.order + 1 }
  ((s.onCh fun c => { c with cpnext := nextId id }).setSreg d (BitVec.ofNat 64 (c.toNat * 2 ^ 16 + id.toNat))).next

/-- The word the chanter stands on acts after a release of the strand (R142), or waits for it. -/
def State.afterRelease (s : State) (scope : Nat) (f : State → State) : State :=
  match s.release scope false with
  | .ok t _ => f t
  | .fault t h => t.faultHere h
  | .wait t => (s.keepWait t).await .fence

/-- GETC of CPGOc (R349): a held word that writes d (R87). Whatever the channel's scope the launch is a release: the bellows reads at
the home slices. -/
def execCopyLaunch (d : SReg) (ch : BitVec 2) (s : State) : Result :=
  .next (s.heldWord (wordOf (.copyLaunch d ch)) [d] false none fun s =>
    if 4 ≤ s.outOf s.me ch.toNat then s.await .channel
    else if s.badLaunch ch then s.trapHere .resfield (wordOf (.copyLaunch d ch))
    else match s.copyWatched (s.me.ch.channel ch) with
      | some h => if s.supWatch then s.afterRelease 1 fun s => s.launchCopy d ch else s.faultHere h
      | none => s.afterRelease 1 fun s => s.launchCopy d ch)

/-! ### Waits (R92, R95, R229) -/

/-- A strand that a cancel covers while it waits at this word stops at once (R92). -/
def State.unlessCancelled (s : State) (f : State → State) : State :=
  if s.me.cancelled.isSome && s.me.wait != .none then s.endByCancel else f s

/-- The wait of this kind has lasted WTIMEO x 1,024 cycles; 0 disables the timeout (R284). -/
def State.timedOut (s : State) (w : Wait) : Bool :=
  let t := s.me.ch.wtimeo.toNat
  s.me.wait == w && t != 0 && decide (1024 * t ≤ s.now - s.me.since)

/-- The word's wait ends. -/
def State.wake (s : State) : State := s.onMe fun k => { k with armed := false, woken := .none, watching := .none }

/-- The value that has ended a wait of the word at PC (R333, R353). -/
def Strand.wokenHere (k : Strand) : Option Word := k.woken.bind fun w => if w.1 = k.ch.pc then some w.2 else .none

/-- The word waits, and watches. -/
def State.watch (s : State) (w : Watch) (why : Wait) : State := (s.onMe fun k => { k with watching := some w }).await why

/-! ### Dealer words (R280 to R285) -/

/-- DEAL: d := lo, a := hi (R66, R280). -/
def execDeal (d a : SReg) (s : State) : Result :=
  .next (s.unlessCancelled fun s => s.heldWord (wordOf (.deal d a)) [d, a] false none fun s =>
    let (s, lo, hi) := s.dealAnswer
    (((s.orderLog (.deal lo hi)).setSreg d (BitVec.ofNat 64 lo)).setSreg a (BitVec.ofNat 64 hi)).next)

/-- EXIT (R281): waits for older convoys, then for stores, merge parts and bound transfers; then the strand ends. -/
def execExit (s : State) : Result :=
  .next (s.whenIdle fun s => match s.closing with
    | .ok s _ => s.endStrand
    | .fault s h => s.faultHere h
    | .wait s => s.await .copy)

/-- YIELD (R282): the strand is squashed with its rollback point after the word, or nothing happens. -/
def execYield (s : State) : Result :=
  .next (s.heldWord (wordOf .yield) [] false none fun s => if s.yields && s.maySquash then (s.next).squash true else s.next)

/-- CNTINC (R283). -/
def execCntinc (a : SReg) (imm : BitVec 32) (s : State) : Result :=
  let i := (s.sreg a).extractLsb' 0 16
  .next (
    if s.me.cntn ≤ i.toNat then s.trapHere .priv (wordOf (.cntinc a imm))
    else s.hold (.cntinc i imm) (wordOf (.cntinc a imm)) false)

/-- A counter as CNTWAIT and CNTDATA show it: [32] CAN, [31:0] VALUE. -/
def Counter.word (c : Counter) : Word := BitVec.ofNat 64 (c.val.toNat + if c.can then 2 ^ 32 else 0)

/-- CNTWAIT (R229, R284): a threshold met at this read wins over a timeout. -/
def execCntwait (d a b : SReg) (s : State) : Result :=
  let i := (s.sreg a).extractLsb' 0 16
  .next (
    if s.me.cntn ≤ i.toNat then s.trapHere .priv (wordOf (.cntwait d a b))
    else s.unlessCancelled fun s => s.heldWord (wordOf (.cntwait d a b)) [d] true none fun s =>
      let n := s.me.cntbase.toNat + i.toNat
      let c := s.counter n
      match s.me.wokenHere with
      | some x => (((s.acquire).wake).setSreg d x).next
      | .none =>
        if c.reached ((s.sreg b).extractLsb' 0 32) then (((s.acquire).wake).setSreg d c.word).next
        else if s.timedOut .counter then ((s.wake).setSreg d c.word).next
        else s.watch (.counter n ((s.sreg b).extractLsb' 0 32)) .counter)

/-- CANCEL (R285): another context's CTXID needs privilege (R262). -/
def execCancel (lv : Level) (a : SReg) (s : State) : Result :=
  let other : Bool := match lv with
    | .phase | .job => field (s.sreg a).toNat 0 13 != s.me.ctx
    | _ => false
  .next (
    if other && !s.me.priv then s.trapHere .priv (wordOf (.cancel lv a))
    else s.hold (.cancel lv (s.sreg a)) (wordOf (.cancel lv a)) false)

/-! ### Queue moves (R94, R95, R286) -/

/-- A party that blocked at count `t`, with QTIMEO as it stood then, has been blocked for QTIMEO x 1,024 cycles; 0 disables the
timeout (R95, R279). -/
def State.qDead (s : State) (t : Nat) (q : BitVec 32) : Bool := q != 0 && decide (1024 * q.toNat ≤ s.now - t)

/-- The chanter is blocked on a queue: it waits, raises QDEAD, or a cancel stops it. -/
def State.blockOn (s : State) (w : Wait) (q : Nat) : State :=
  if s.me.cancelled.isSome then s.endByCancel
  else if s.me.wait = w && s.qDead s.me.since s.me.ch.qtimeo then s.trapHere .qdead (BitVec.ofNat 64 q)
  else s.await w

/-- Pushes a value into a feed queue; one of SKIP pushes nothing (R88). -/
def Strand.push (k : Strand) (q : QNum) (x : Word) : Strand :=
  if k.skipOf q = 0 then k.setToQ q (k.toQ q ++ [⟨x, k.seq⟩])
  else ({ k with early := k.early ++ [(q, k.seq)] } : Strand).setSkip q (k.skipOf q - 1)

/-- A push finds room. -/
def Strand.pushFits (k : Strand) (q : QNum) : Bool := k.skipOf q != 0 || decide ((k.toQ q).length < queueRoom)

/-- QPUSH: the queue is counted from q4. -/
def execQpush (q : QNum) (a : SReg) (s : State) : Result :=
  .next (
    if s.me.pushFits q then (((s.onMe fun k => k.push q (s.sreg a)).next).drain)
    else s.blockOn (.queuePush q) (4 + q.toNat))

/-- Takes the oldest entry of a result queue. -/
def Strand.popped (k : Strand) (q : QNum) (e : QEntry) (l : List QEntry) : Strand :=
  { k.setFromQ q l with pops := k.pops ++ [(q, k.seq, e)] }

def execQpop (d : SReg) (q : QNum) (s : State) : Result :=
  .next (
    match s.me.fromQ q with
    | e :: l => (((s.onMe fun k => k.popped q e l).setSreg d e.val).next).drain
    | [] => s.blockOn (.queuePop q) q.toNat)

/-! ### Slot words (R287 to R292) -/

def execSptr (d : SReg) (k : BitVec 8) (a : SReg) (s : State) : Result :=
  .next ((s.setSreg d (k ++ 0#8 ++ (s.sreg a).extractLsb' 0 48)).next)

/-- SLOTQ's word of a descriptor (R288). -/
def slotqWord (d : Desc) : Word :=
  BitVec.ofNat 3 d.state ++ d.perm ++ (if d.sync then 1#1 else 0#1) ++ BitVec.ofNat 2 d.home ++ BitVec.ofNat 2 d.cp ++
    d.w2.extractLsb' 0 5 ++ BitVec.ofNat 48 d.limit

/-- SLOTQ's word of a scratchpad window: resident, read and write, normal policy, HOME CU, LIMIT its size. -/
def windowWord (kib : Nat) : Word := 1#3 ++ 3#3 ++ 0#10 ++ BitVec.ofNat 48 (1024 * kib)

def execSlotq (d : SReg) (k : BitVec 8) (s : State) : Result :=
  .next (
    if k = 254 then (s.setSreg d (windowWord s.me.strshare)).next
    else if k = 253 then (s.setSreg d (windowWord s.me.cushare)).next
    else match s.descWaits k.toNat with
    | some line => (s.keepWait (s.waitFor .critical line 0 k.toNat 0 0 false false)).await .replay
    | none =>
      let (s, x) := s.desc k.toNat
      if x.bad then s.faultHere ⟨.slotbad, slotInfo k.toNat 0, x.gen⟩ else (s.setSreg d (slotqWord x)).next)

/-- SLOTSYNC (R289). -/
def execSlotsync (k : BitVec 8) (s : State) : Result :=
  .next (s.whenIdle fun s => (s.onMe fun m => { m with dcache := m.dcache.filter fun x => x.slot != k.toNat }).next)

/-- A privileged word (R262): PRIV with the word, else serialising. -/
def State.privileged (s : State) (word : Word) (f : State → State) : State :=
  if s.me.priv then s.whenIdle f else s.trapHere .priv word

/-- STATE of a slot of a context is written in place, with every other bit of ATTR as it stands (R290). -/
def State.setSlotState (s : State) (c slot : Nat) (st : BitVec 3) : State :=
  let a := s.ctxSlottb c + 32 * slot + 16
  let b := leBytes 8 (setField (s.homeNat a 8) 61 3 st.toNat)
  (s.homeWrite s.me.vd a b 0).patchL1 s.me.cu a b

def execSlotset (a b : SReg) (s : State) : Result :=
  let c := field (s.sreg a).toNat 8 13
  let slot := field (s.sreg a).toNat 0 8
  .next (s.privileged (wordOf (.slotset a b)) fun s =>
    if s.homeNat (s.ctxRec c) 1 % 2 = 1 && slot ≤ 251 then
      s.afterRelease 2 fun s => (s.setSlotState c slot ((s.sreg b).extractLsb' 0 3)).next
    else s.next)

/-- SLOTINV on the contexts that `p` names (R111): no strand of them keeps a version of the slots, and their presence bits
are cleared. -/
def State.invalidate (s : State) (p : Nat → Bool) (first last : Nat) : State :=
  let s := s.mapStrands fun k =>
    if k.status != .empty && p k.ctx then { k with dcache := k.dcache.filter fun d => decide (d.slot < first || last < d.slot) } else k
  (s.strands.filter fun k => p k.ctx && k.onCu).foldl (fun s k => s.setCu k.cu (clearPresence (s.cu k.cu) k.slot)) s

/-- The stores of the contexts that `p` names leave the write-combining buffers (R111). -/
def State.flushContexts (s : State) (p : Nat → Bool) : State :=
  (s.cus.filter fun c => c.2.wcb.any fun l => p l.ctx).foldl (fun s c => s.drainWcb c.1) s

/-- An access of a context that `p` names may still go by an older version of a descriptor (R111, R112): a convoy has started and
does not wait in a replay queue, a store stands in a write-combining buffer, a request is on its way to a lender, a merge part to its
slice. -/
def State.usesVersion (s : State) (p : Nat → Bool) : Bool :=
  (s.strands.any fun k => p k.ctx && k.headStarted && !(s.replay.any fun r => r.who == k.who true && !s.ready r)) ||
  (s.peerReqs.any fun r => p r.who.ctx && match r.who.ask with
    | .chanter _ | .pending _ | .xfer _ => true
    | _ => false) ||
  (s.cus.any fun c => c.2.wcb.any fun l => p l.ctx) || s.partq.any fun w => p w.ctx && w.at' == .way

def execSlotinv (a b : SReg) (s : State) : Result :=
  let x := s.sreg a
  let first := field (s.sreg b).toNat 0 8
  let last := field (s.sreg b).toNat 8 8
  .next (s.privileged (wordOf (.slotinv a b)) fun s =>
    let p := fun c => x.getLsbD 63 || c == field x.toNat 0 13
    if last < first then s.next
    else
      let s := s.flushContexts p
      if s.usesVersion p then s.await .slotinv else (s.invalidate p first last).next)

/-- INCFENCE (R292): waits until no request of an older incarnation of the context is outstanding. -/
def execIncfence (a : SReg) (s : State) : Result :=
  .next (s.privileged (wordOf (.incfence a)) fun s =>
    if s.outstandingOld (field (s.sreg a).toNat 0 13) = 0 then s.next else s.await .incfence)

/-! ### Marks (R293) -/

def execMark (a : SReg) (s : State) : Result :=
  .next (s.whenIdle fun s =>
    let k := s.me
    let s := if k.ch.trctl.getLsbD 2 then
        s.emit (s.sreg a) (BitVec.ofNat 64 s.now) ((k.ch.pc.extractLsb' 0 48).setWidth 64) (commonWord k 1 false false)
      else s
    s.next)

end Sys2Proof.Machine
end

