-- ==== Sys2Proof/Machine/Memory.lean ====
section
/-! DEFINITION. Group 3, the memory and synchronisation words (spec 15), and the words that wait for copies (spec 16). Vector
memory words join the convoy the chanter is forming; chanter words act here. -/

namespace Sys2Proof.Machine

/-! ### What a load may not overtake (R141, R320) -/

/-- Whether a vector memory word has NO = 1. -/
def VOp.noAhead : VOp → Bool
  | .ld _ v _ _ _ _ | .ldff v _ _ _ _ _ | .ldsc v _ _ _ _ | .st _ v _ _ _ _ | .amo v _ _ _ _ _ _ _ | .mldt v _ _ _ _
  | .mstt v _ _ _ _ => v.no
  | _ => false

/-- A pending convoy has a vector access with NO = 1. -/
def Strand.noPending (k : Strand) : Bool :=
  k.pend.any fun p => match p.item with
    | .convoy c => c.words.any fun x => x.op.noAhead
    | .held _ _ _ => false

/-- The index register of a word that reads memory. -/
def VOp.readIndex : VOp → Option VReg
  | .ld p _ _ _ _ _ => match p with
    | .index b => some b
    | _ => none
  | .amo _ _ _ _ _ _ _ b => some b
  | _ => none

/-- A word may write a vector register. -/
def VWord.mayWrite (x : VWord) (v : VReg) : Bool :=
  if x.op.cross then x.op.names.1.contains v else x.uses.2.any fun u => u.1 == v.toNat

/-- The accesses by which a word of a pending convoy will read memory: reference, size, T = 7. -/
def VWord.reads (x : VWord) (c : Convoy) (s : State) : List (Ref × Nat × Bool) :=
  let f := s.me.file
  match x.op with
  | .ld p _ _ m _ t =>
    let (n, w, disp, fmt) := ldShape t
    (List.range (min c.vl (vlmax w))).map fun e => (elemRef p f x m disp n w e, n, fmt)
  | .amo _ _ t _ _ m off b =>
    let n := amoBytes t
    (List.range (min c.vl (vlmax (8 * n)))).map fun e => (elemRef (.index b) f x m off.toInt n (8 * n) e, n, false)
  | .ldsc _ _ m _ off =>
    let base := refOf m.sl x.sA off.toInt
    let ds := (s.descFor base.slot).2
    (List.range (min c.vl (vlmax 16))).map fun e : Nat => ({ base with off := ds.scoff + 2 * (base.off / ds.blk + e) }, 2, false)
  | .ldff _ _ m _ t _ =>
    let (n, w, disp, fmt) := ldShape t
    (List.range (min c.vl (vlmax w))).map fun e => (elemRef .unit f x m disp n w e, n, fmt)
  | .mldt _ _ m _ t =>
    let (n, _, top, disp, fmt) := tileLdShape t
    let lim := min c.mvl top
    (List.range (lim * lim)).map fun e => (tileRef x m disp n (e / lim) (e % lim), n, fmt)
  | _ => []

/-- Two accesses touch a common byte. -/
def Loc.meets (a : Loc) (n : Nat) (b : Loc) (m : Nat) : Bool :=
  let cut := fun (x y : Nat) => decide (x < y + m) && decide (y < x + n)
  match a, b with
  | .mem x, .mem y => cut x y
  | .share x, .share y => cut x y
  | .cushare x, .cushare y => cut x y
  | .peer i x, .peer j y => i == j && cut x y
  | _, _ => false

/-- An access by reference would touch one of the n bytes at `l`. -/
def State.touches (s : State) (l : Loc) (n : Nat) (r : Ref) (m : Nat) (fmt : Bool) : Bool :=
  match s.placeOf r m fmt with
  | some l' => l.meets n l' (if fmt then 1 else m)
  | none => false

/-- The words of pending convoys, oldest first. -/
def Strand.pendingWords (k : Strand) : List (Convoy × VWord) :=
  k.pend.flatMap fun p => match p.item with
    | .convoy c => c.words.map fun x => (c, x)
    | .held _ _ _ => []

/-- A vector word of a list reads one of the n bytes at `l`, or may: its index register is not yet known (R141 row 1, log entry 18). -/
def State.readAhead (s : State) (l : Loc) (n : Nat) : List (Convoy × VWord) → List VWord → Bool
  | [], _ => false
  | (c, x) :: rest, before =>
    (match x.op.readIndex with
      | some b => before.any fun y => y.mayWrite b
      | none => false) ||
    (x.reads c s).any (fun y => s.touches l n y.1 y.2.1 y.2.2) || s.readAhead l n rest (x :: before)

/-- A pending access of the strand touches a byte of a load at `l` that the load may not overtake: a held operation, or a vector
load (R141 row 1). -/
def State.mustFollow (s : State) (l : Loc) (n : Nat) : Bool :=
  (s.me.pend.any fun p => match p.item with
    | .held _ h _ => (match h with
        | .store r m fmt _ _ _ _ => s.touches l n r m fmt
        | .zline r _ => s.touches l n r 128 false
        | .word _ _ (some (r, m)) => s.touches l n r m false
        | _ => false)
    | .convoy _ => false) || s.readAhead l n s.me.pendingWords []

/-- A held word of the run-ahead buffer keeps younger loads behind it: an acquire, or a FENCE (R141, R143). -/
def Strand.orderPending (k : Strand) : Bool :=
  k.pend.any fun p => match p.item with
    | .held _ (.word _ o _) _ => o
    | _ => false

/-- A chanter load waits for what it may not overtake. -/
def State.loadWaits (s : State) (r : Ref) (n : Nat) (fmt : Bool) : Bool :=
  !s.me.pend.isEmpty &&
  (s.me.noPending || s.me.orderPending || match s.placeOf r n fmt with
    | some l => s.mustFollow l (if fmt then 1 else n)
    | none => false)

/-! ### Scalar loads and stores (R321, R322) -/

/-- A chanter load of n bytes, `wide` giving the register's value (R321). `f` is what else the word does (the other half of
a pair). -/
def State.loadWith (s : State) (d : SReg) (r : Ref) (n : Nat) (fmt : Bool) (ch : BitVec 2) (wide : Desc → List Byte → Word)
    (f : State → State) : State :=
  if s.loadWaits r n fmt then s.await .convoys
  else match s.load r n fmt false s.supWatch ch with
    | .ok t (b, ds) => ((f (t.chanterSees r n fmt)).setSreg d (wide ds b)).next
    | .fault t h => t.faultHere h
    | .wait t => (s.keepWait t).await .replay

def State.scalarLoad (s : State) (d : SReg) (r : Ref) (n : Nat) (fmt : Bool) (ch : BitVec 2) (wide : Desc → List Byte → Word) : State :=
  s.loadWith d r n fmt ch wide fun s => s

/-- The value of an LD (R107, R318). -/
def ldValue (x : LdForm) (r : Ref) (d : Desc) (b : List Byte) : Word :=
  match x with
  | .bytes t _ => memWiden t (ofLe b)
  | .fmt res _ =>
    let c := (decodeFmt d r.off (b.headD 0)).1
    if res then BitVec.ofNat 64 (resEnc c).1 else BitVec.ofInt 64 c

def ldSize : LdForm → Nat × Int × Bool
  | .bytes t off => (memBytes t, off.toInt, false)
  | .fmt _ off => (1, off.toInt, true)

def stSize : StForm → Nat × Int × Bool
  | .bytes t off => (memBytes t, off.toInt, false)
  | .fmt off => (1, off.toInt, true)

def execLd (d : SReg) (m : Addr) (ch : BitVec 2) (x : LdForm) (s : State) : Result :=
  let (n, disp, fmt) := ldSize x
  let r := refOf m.sl (s.sreg m.a) disp
  .next (s.scalarLoad d r n fmt ch (ldValue x r))

def execSt (d : SReg) (m : Addr) (ch : BitVec 2) (x : StForm) (s : State) : Result :=
  let (n, disp, fmt) := stSize x
  .next (s.hold (.store (refOf m.sl (s.sreg m.a) disp) n fmt (s.sreg d) ch m.sc false) (wordOf (.st d m ch x)) s.supWatch)

/-- LDACQ: the strand's L1 presence bits are cleared, so that the load reads past its copies (R142, R322). -/
def execLdacq (t : MemTy) (d : SReg) (m : Addr) (off : BitVec 16) (s : State) : Result :=
  let r := refOf m.sl (s.sreg m.a) off.toInt
  .next (
    if s.loadWaits r (memBytes t) false then s.await .convoys
    else (s.acquire).scalarLoad d r (memBytes t) false 0 (fun _ b => memWiden t (ofLe b)))

def execStrel (t : MemTy) (d : SReg) (m : Addr) (off : BitVec 16) (s : State) : Result :=
  .next (s.hold (.store (refOf m.sl (s.sreg m.a) off.toInt) (memBytes t) false (s.sreg d) 0 m.sc true)
    (wordOf (.strel t d m off)) s.supWatch)

/-! ### AMO (R323, R324) -/

/-- AMO with its older work complete: a release waits for the strand's merge parts (R151) and drains at its scope, an acquire
clears the presence bits. While it waits the strand notes where its result goes (R177). -/
def State.scalarAmo (s : State) (op : AmoOp) (t : AmoTy) (ord : BitVec 2) (d : SReg) (r : Ref) (sc : BitVec 2) (b : SReg) : State :=
  match if ord.getLsbD 1 then s.releaseFor r sc false else Ans.ok s () with
  | .fault u h => u.faultHere h
  | .wait u => (s.keepWait u).await .fence
  | .ok u _ =>
    match u.amo r op t false s.supWatch (s.sreg b).toNat (s.sreg d).toNat with
    | .ok u old =>
      (((if ord.getLsbD 0 then u.acquire else u).chanterSees r (amoBytes t) false).onMe fun k => { k with amo := none }).setSreg d
        (amoWiden t old) |>.next
    | .fault u h => u.faultHere h
    | .wait u => ((s.keepWait u).onMe fun k => { k with amo := some (d, t) }).await .replay

/-- A held AMO writes d, and as an acquire keeps younger loads behind it. -/
def execAmo (op : AmoOp) (t : AmoTy) (ord : BitVec 2) (d : SReg) (m : Addr) (off : BitVec 12) (b : SReg) (s : State) : Result :=
  let r := refOf m.sl (s.sreg m.a) off.toInt
  .next (s.heldWord (wordOf (.amo op t ord d m off b)) [d] (ord.getLsbD 0) (some (r, amoBytes t)) fun s =>
    s.scalarAmo op t ord d r m.sc b)

/-! ### ZLINE and PREF (R329, R330) -/

def execZline (m : Addr) (off : BitVec 16) (s : State) : Result :=
  .next (s.hold (.zline (refOf m.sl (s.sreg m.a) off.toInt) m.sc) (wordOf (.zline m off)) s.supWatch)

/-- The policy PREF fills under: none where it does nothing. -/
def prefPolicy (ch : BitVec 2) (d : Desc) : Option Nat :=
  let cp := policyOf ch d
  if cp = 3 then none else some (if ch = 0 then cp else 2)

/-- PREF: an access that fails or would wait does nothing; no L1 copy is made, so no presence bit is set. -/
def State.prefetch (s : State) (r : Ref) (ch : BitVec 2) : State :=
  if 252 ≤ r.slot || (s.descWaits r.slot).isSome then s
  else
    let (s, d) := s.desc r.slot
    match s.check s.me.vd (s.me.strshare, s.me.cushare) rdOnly r d 1 false, prefPolicy ch d with
    | .ok (.mem a), some cp => s.touchL2 s.me.vd (a / 128) false cp
    | _, _ => s

def execPref (m : Addr) (ch : BitVec 2) (off : BitVec 16) (s : State) : Result :=
  .next ((s.prefetch (refOf m.sl (s.sreg m.a) off.toInt) ch).next)

/-! ### FENCE (R143, R331) -/

def FenceKind.coversLoads : FenceKind → Bool
  | .loads | .all => true
  | _ => false

def FenceKind.coversStores : FenceKind → Bool
  | .stores | .all => true
  | _ => false

def FenceKind.coversEngines : FenceKind → Bool
  | .engines | .all => true
  | _ => false

/-- A transfer that the strand launched is outstanding. -/
def State.anyXfer (s : State) : Bool := s.xfers.any fun x => x.vd == s.me.vd && x.imgidx == s.me.imgidx && !x.orphan

/-- What a FENCE orders among the accesses of the open strip (R143): of kind loads, no later access falls behind what an earlier load
has read; of kind stores, no later store falls below an earlier one; of kind all, no later access comes before an earlier store. -/
def FenceKind.fixes (k : FenceKind) (l : List Older) : List Older :=
  match k with
  | .loads => l.map fun o => o.fix o.read
  | .stores => l.map fun o => { o with low := false }
  | .all => []
  | .engines => l

/-- The loads before a FENCE that covers them become acquires, of whatever scope (R142). -/
def State.fenced (s : State) (k : FenceKind) : State :=
  (if FenceKind.coversLoads k then s.acquire else s).onMe fun m => { m with older := FenceKind.fixes k m.older }

/-- FENCE with its older work complete. -/
def State.fence (s : State) (k : FenceKind) (sc : BitVec 2) : State :=
  if FenceKind.coversEngines k && s.anyXfer then s.await .fence
  else if FenceKind.coversStores k then s.afterRelease sc.toNat fun s => (s.fenced k).next
  else (s.fenced k).next

/-- A held FENCE keeps younger loads behind it. -/
def execFence (k : FenceKind) (sc : BitVec 2) (s : State) : Result :=
  .next (s.heldWord (wordOf (.fence k sc)) [] true none fun s => s.fence k sc)

/-! ### WAITA (R332, R333) -/

/-- Reads the watched bytes past L1, at the home slice, in SRAM, or at the lender; with their place. A read that waits already goes on
waiting. -/
def State.watchRead (s : State) (r : Ref) (n : Nat) : Ans (List Byte × Loc) :=
  if s.replayHeld false then .wait s
  else match (s.retrying false).probe rdOnly r n false false s.supWatch with
  | .fault s h => .fault s h
  | .wait s => .wait s
  | .ok s (l, d) =>
    match l with
    | .peer i a => (match s.callPeer false i a (.read n) r d false with
        | .ok s b => .ok s (b, l)
        | .fault s h => .fault s h
        | .wait s => .wait s)
    | l => let (s, b) := s.homeLoc l n d.cp; .ok s (b, l)

/-- The read that ended the wait is an acquire (R142, R220). -/
def State.waitaDone (s : State) (d : SReg) (x : Word) : State := (((s.orderLog (.wake x)).acquire.wake).setSreg d x).next

def State.waita (s : State) (t : AmoTy) (d : SReg) (r : Ref) (b : SReg) : State :=
  match s.me.wokenHere with
  | some x => s.waitaDone d x
  | .none =>
    match s.watchRead r (amoBytes t) with
    | .fault s h => (s.wake).faultHere h
    | .wait u => if s.me.wait = .address then s.keepWait u else (s.keepWait u).await .replay
    | .ok s (y, l) =>
      let v := ofLe y
      if v ≠ (s.sreg b).toNat % 2 ^ (8 * amoBytes t) then s.waitaDone d (amoWiden t v)
      else if s.timedOut .address then ((s.wake).setSreg d (amoWiden t v)).next
      else s.watch (.address l t (s.sreg b)) .address

def execWaita (t : AmoTy) (d : SReg) (m : Addr) (off : BitVec 16) (b : SReg) (s : State) : Result :=
  let r := refOf m.sl (s.sreg m.a) off.toInt
  .next (s.unlessCancelled fun s => s.heldWord (wordOf (.waita t d m off b)) [d] true (some (r, amoBytes t)) fun s => s.waita t d r b)

/-! ### CPWAIT and CPCANCEL (R353, R354) -/

/-- No outcome to report. -/
def CpDone.none : CpDone := ⟨0, false, false, false, 0⟩

/-- CPWAIT with its older work complete; a transfer that completed while it waited has left its outcome in `woken`. An order log
takes the id that it returns, also where no such transfer is outstanding (R220). -/
def State.cpwait (s : State) (d : SReg) (id : BitVec 16) : State :=
  match s.me.wokenHere with
  | some x => ((((s.orderLog (.copy id)).acquire).wake).setSreg d x).next
  | .none =>
    if (s.outstanding id).isNone then ((s.orderLog (.copy id)).setSreg d (cpStatus id true CpDone.none)).next
    else if s.timedOut (.copyId id) then (s.setSreg d (cpStatus id false CpDone.none)).next
    else s.await (.copyId id)

def execCpwait (d a : SReg) (s : State) : Result :=
  .next (s.unlessCancelled fun s => s.heldWord (wordOf (.cpwait d a)) [d] true none fun s => s.cpwait d ((s.sreg a).extractLsb' 0 16))

def execCpcancel (a : SReg) (s : State) : Result :=
  .next (s.hold (.cpcancel ((s.sreg a).extractLsb' 0 16)) (wordOf (.cpcancel a)) false)

/-! ### Vector memory words (R317 to R328) -/

def execVld (v : VAcc) (d : VReg) (m : Addr) (ch : BitVec 2) (x : LdForm) (s : State) : Result :=
  .next (s.takeVector v.c (s.vword (.vld v d m ch x) (.ld .unit v d m ch x) v.gov m.a 0))

def execVlds (v : VAcc) (d : VReg) (m : Addr) (ch : BitVec 2) (x : LdForm) (b : SReg) (s : State) : Result :=
  .next (s.takeVector v.c (s.vword (.vlds v d m ch x b) (.ld .stride v d m ch x) v.gov m.a b))

def execVldx (v : VAcc) (d : VReg) (m : Addr) (ch : BitVec 2) (x : LdForm) (b : VReg) (s : State) : Result :=
  .next (s.takeVector v.c (s.vword (.vldx v d m ch x b) (.ld (.index b) v d m ch x) v.gov m.a 0))

def execVldff (v : VAcc) (d : VReg) (m : Addr) (ch : BitVec 2) (x : LdForm) (q : QNum) (s : State) : Result :=
  .next (s.takeVector v.c (s.vword (.vldff v d m ch x q) (.ldff v d m ch x q) v.gov m.a 0))

def execVldsc (v : VAcc) (d : VReg) (m : Addr) (ch : BitVec 2) (off : BitVec 14) (s : State) : Result :=
  .next (s.takeVector v.c (s.vword (.vldsc v d m ch off) (.ldsc v d m ch off) v.gov m.a 0))

def execVst (v : VAcc) (d : VReg) (m : Addr) (ch : BitVec 2) (x : StForm) (s : State) : Result :=
  .next (s.takeVector v.c (s.vword (.vst v d m ch x) (.st .unit v d m ch x) v.gov m.a 0))

def execVsts (v : VAcc) (d : VReg) (m : Addr) (ch : BitVec 2) (x : StForm) (b : SReg) (s : State) : Result :=
  .next (s.takeVector v.c (s.vword (.vsts v d m ch x b) (.st .stride v d m ch x) v.gov m.a b))

def execVstx (v : VAcc) (d : VReg) (m : Addr) (ch : BitVec 2) (x : StForm) (b : VReg) (s : State) : Result :=
  .next (s.takeVector v.c (s.vword (.vstx v d m ch x b) (.st (.index b) v d m ch x) v.gov m.a 0))

def execVamo (v : VAcc) (op : AmoOp) (t : AmoTy) (ord : BitVec 2) (d : VReg) (m : Addr) (off : BitVec 12) (b : VReg) (s : State) : Result :=
  .next (s.takeVector v.c (s.vword (.vamo v op t ord d m off b) (.amo v op t ord d m off b) v.gov m.a 0))


end Sys2Proof.Machine
end

