-- ==== Sys2Proof/Machine/PairWords.lean ====
section
/-! DEFINITION. Group 5, the pair words (R238 to R240): two halves that read their operands before either writes. -/

namespace Sys2Proof.Machine

/-- What a half computes from D and A as they stand. -/
def halfValue (h : Half) (x y : Word) : Word :=
  match h with
  | .mov _ _ => y
  | .add _ _ => x + y | .sub _ _ => x - y | .and _ _ => x &&& y | .or _ _ => x ||| y | .xor _ _ => x ^^^ y
  | .shl _ _ => x <<< (y.toNat % 64) | .shr _ _ => x >>> (y.toNat % 64) | .sra _ _ => x.sshiftRight (y.toNat % 64)
  | .addi _ _ imm => y + imm.signExtend 64 | .andi _ _ imm => y &&& imm.signExtend 64
  | .shli _ _ n => y <<< n.toNat | .shri _ _ n => y >>> n.toNat | .srai _ _ n => y.sshiftRight n.toNat
  | .slti _ _ imm => if y.slt (imm.signExtend 64) then 1 else 0
  | .movi _ imm => imm.signExtend 64
  | _ => 0

/-- The fields D and A of a half; 0 where it has none. -/
def halfD : Half → SReg
  | .mov d _ | .add d _ | .sub d _ | .and d _ | .or d _ | .xor d _ | .shl d _ | .shr d _ | .sra d _
  | .addi d _ _ | .andi d _ _ | .shli d _ _ | .shri d _ _ | .srai d _ _ | .slti d _ _ | .movi d _
  | .ldD d _ _ | .ldW d _ _ | .stD d _ _ | .stW d _ _ | .qpop d _ => d
  | .nop | .bz _ _ | .bnz _ _ | .qpush _ _ => 0

def halfA : Half → SReg
  | .mov _ a | .add _ a | .sub _ a | .and _ a | .or _ a | .xor _ a | .shl _ a | .shr _ a | .sra _ a
  | .addi _ a _ | .andi _ a _ | .shli _ a _ | .shri _ a _ | .srai _ a _ | .slti _ a _
  | .ldD _ a _ | .ldW _ a _ | .stD _ a _ | .stW _ a _ | .bz a _ | .bnz a _ | .qpush _ a => a
  | .nop | .movi _ _ | .qpop _ _ => 0

/-- What a half writes, from operands x and y read before: a register, or a queue. -/
def State.doHalf (s : State) (h : Half) (x y : Word) : State :=
  match h with
  | .nop | .ldD _ _ _ | .ldW _ _ _ | .stD _ _ _ | .stW _ _ _ | .bz _ _ | .bnz _ _ => s
  | .qpush q _ => s.onMe fun k => k.push q y
  | .qpop d q => (match s.me.fromQ q with
      | e :: l => (s.onMe fun k => k.popped q e l).setSreg d e.val
      | [] => s)
  | h => s.setSreg (halfD h) (halfValue h x y)

/-- How many entries a half pops from q, and pushes into q. -/
def halfPops (h : Half) (q : QNum) : Nat :=
  match h with
  | .qpop _ p => if p = q then 1 else 0
  | _ => 0

def halfPushes (h : Half) (q : QNum) : Nat :=
  match h with
  | .qpush p _ => if p = q then 1 else 0
  | _ => 0

/-- The queue on which a pair is blocked: the pair waits for the entries and the room of both halves (R94). -/
def Strand.pairBlock (k : Strand) (h0 h1 : Half) : Option (Wait × Nat) :=
  ([h0, h1] : List Half).findSome? fun h => match h with
    | .qpop _ q => if (k.fromQ q).length < halfPops h0 q + halfPops h1 q then some (.queuePop q, q.toNat) else .none
    | .qpush q _ =>
      if queueRoom < (k.toQ q).length + (halfPushes h0 q + halfPushes h1 q - k.skipOf q) then some (.queuePush q, 4 + q.toNat)
      else .none
    | _ => .none

/-- A pair word: neither half acts where the other traps or waits. -/
def State.pair (s : State) (h0 h1 : Half) (word : Word) : State :=
  match s.me.pairBlock h0 h1 with
  | some (w, q) => s.blockOn w q
  | .none =>
    let x := fun h => s.sreg (halfD h)
    let y := fun h => s.sreg (halfA h)
    let f := fun (t : State) => t.doHalf h0 (x h0) (y h0)
    let ref := fun (imm : BitVec 14) => refPtr (y h1) imm.toInt
    let br := fun (taken : Bool) (imm : BitVec 14) =>
      if taken then s.transfer (target s.me.ch.pc imm) fun t => (f t).jump (target s.me.ch.pc imm) else (f s).next
    match h1 with
    | .ldD d _ imm => (s.loadWith d (ref imm) 8 false 0 (fun _ b => BitVec.ofNat 64 (ofLe b)) f).drain
    | .ldW d _ imm => (s.loadWith d (ref imm) 4 false 0 (fun _ b => sextWord 32 (ofLe b)) f).drain
    | .stD _ _ imm => (s.holdWith (.store (ref imm) 8 false (x h1) 0 2 false) word s.supWatch f).drain
    | .stW _ _ imm => (s.holdWith (.store (ref imm) 4 false (x h1) 0 2 false) word s.supWatch f).drain
    | .bz _ imm => (br (y h1 == 0) imm).drain
    | .bnz _ imm => (br (y h1 != 0) imm).drain
    | h1 => (((f s).doHalf h1 (x h1) (y h1)).next).drain

/-- A pair word's constructor with its halves. -/
def State.pairOf (s : State) (i : Instr) : State :=
  match i.halves with
  | some (h0, h1) => s.pair h0 h1 (wordOf i)
  | .none => s

/-! ### The constructors -/

def execHalfNop (s : State) : Result := .next (s.pairOf (.halfNop))
def execHalfMov (d a : SReg) (mate : Option Half) (s : State) : Result := .next (s.pairOf (.halfMov d a mate))
def execHalfAdd (d a : SReg) (mate : Option Half) (s : State) : Result := .next (s.pairOf (.halfAdd d a mate))
def execHalfSub (d a : SReg) (mate : Option Half) (s : State) : Result := .next (s.pairOf (.halfSub d a mate))
def execHalfAnd (d a : SReg) (mate : Option Half) (s : State) : Result := .next (s.pairOf (.halfAnd d a mate))
def execHalfOr (d a : SReg) (mate : Option Half) (s : State) : Result := .next (s.pairOf (.halfOr d a mate))
def execHalfXor (d a : SReg) (mate : Option Half) (s : State) : Result := .next (s.pairOf (.halfXor d a mate))
def execHalfShl (d a : SReg) (mate : Option Half) (s : State) : Result := .next (s.pairOf (.halfShl d a mate))
def execHalfShr (d a : SReg) (mate : Option Half) (s : State) : Result := .next (s.pairOf (.halfShr d a mate))
def execHalfSra (d a : SReg) (mate : Option Half) (s : State) : Result := .next (s.pairOf (.halfSra d a mate))
def execHalfAddi (d a : SReg) (imm : BitVec 14) (mate : Option Half) (s : State) : Result := .next (s.pairOf (.halfAddi d a imm mate))
def execHalfAndi (d a : SReg) (imm : BitVec 14) (mate : Option Half) (s : State) : Result := .next (s.pairOf (.halfAndi d a imm mate))
def execHalfShli (d a : SReg) (n : BitVec 6) (mate : Option Half) (s : State) : Result := .next (s.pairOf (.halfShli d a n mate))
def execHalfShri (d a : SReg) (n : BitVec 6) (mate : Option Half) (s : State) : Result := .next (s.pairOf (.halfShri d a n mate))
def execHalfSrai (d a : SReg) (n : BitVec 6) (mate : Option Half) (s : State) : Result := .next (s.pairOf (.halfSrai d a n mate))
def execHalfSlti (d a : SReg) (imm : BitVec 14) (mate : Option Half) (s : State) : Result := .next (s.pairOf (.halfSlti d a imm mate))
def execHalfMovi (d : SReg) (imm : BitVec 14) (mate : Option Half) (s : State) : Result := .next (s.pairOf (.halfMovi d imm mate))
def execHalfLdD (d a : SReg) (imm : BitVec 14) (s : State) : Result := .next (s.pairOf (.halfLdD d a imm))
def execHalfLdW (d a : SReg) (imm : BitVec 14) (s : State) : Result := .next (s.pairOf (.halfLdW d a imm))
def execHalfStD (d a : SReg) (imm : BitVec 14) (s : State) : Result := .next (s.pairOf (.halfStD d a imm))
def execHalfStW (d a : SReg) (imm : BitVec 14) (s : State) : Result := .next (s.pairOf (.halfStW d a imm))
def execHalfBz (a : SReg) (imm : BitVec 14) (s : State) : Result := .next (s.pairOf (.halfBz a imm))
def execHalfBnz (a : SReg) (imm : BitVec 14) (s : State) : Result := .next (s.pairOf (.halfBnz a imm))
def execHalfQpush (q : QNum) (a : SReg) (mate : Option Half) (s : State) : Result := .next (s.pairOf (.halfQpush q a mate))
def execHalfQpop (d : SReg) (q : QNum) (mate : Option Half) (s : State) : Result := .next (s.pairOf (.halfQpop d q mate))

end Sys2Proof.Machine
end

