-- ==== Sys2Proof/Machine/EvPackage.lean ====
section
/-! DEFINITION. The events of the memory stacks, the root ports and the UALink ports (spec 01, R10 to R35). Each acts on what
the pins present; an event whose condition does not hold leaves the state as it is. -/

namespace Sys2Proof.Machine

/-- A field of a register written. -/
def State.setRegField (s : State) (a lo w v : Nat) : State := s.setReg a (BitVec.ofNat 64 (setField (s.regN a) lo w v))

/-- Adds n to a counter register that stops at 2^w - 1. -/
def State.addReg (s : State) (a w n : Nat) : State := s.setReg a (BitVec.ofNat 64 (min (s.regN a + n) (2 ^ w - 1)))

/-! ### Die links (R10) -/

/-- A flit of device `pins.value` arrives over die link `pins.port`. A flit that fails its CRC (`ok` false) is sent again, so
that software sees nothing of it. -/
def execDieLinkFlit (s : State) : Result :=
  .next (if s.pins.ok then s.charge (.dieLink s.pins.port) s.pins.value 1 else s)

/-! ### Code words (R14 to R16) -/

/-- Stack k finds an uncorrectable error in a line. -/
def State.uncorrectable (s : State) (k line : Nat) : State :=
  let s := (s.setPoison line true).countReg (Reg.stack k + 0x10) 32
  s.setReg (Reg.stack k + 0x18) (BitVec.ofNat 64 (128 * line))

/-- A read of the code word at `a` meets `n` bad symbols: one is corrected, two are detected; with more the code may miss
them, and the word then holds unspecified bytes. -/
def State.readCodeWord (s : State) (a n : Nat) : State :=
  match s.pchOf a with
  | none => s
  | some c =>
    let k := c / 64
    if n = 0 then s
    else if n = 1 then s.countReg (Reg.stack k + 0x08) 32
    else if n = 2 || Config.freeMiscorrect s.fresh then ({ s with fresh := s.fresh + 1 } : State).uncorrectable k (a / 128)
    else ({ s with fresh := s.fresh + 1 } : State).makeFog (a / 64 * 64) (a / 64 * 64 + 64)

/-- `pins.addr` names the code word, `pins.count` its bad symbols. -/
def execCodeWordRead (s : State) : Result := .next (s.readCodeWord s.pins.addr s.pins.count)

/-- The scrubber reads a code word, in its own cycles and within its access table (R16, R74, R131); the corrected data it writes
back are what the word held. -/
def execScrubRead (s : State) : Result :=
  .next (if s.inSlot .scrubber && s.admits 71 (s.pins.addr / 64 * 64) 64 false then s.readCodeWord s.pins.addr s.pins.count else s)

/-- The poisoned line of `pins.addr` is evicted from the L2 (R15). -/
def execPoisonedLineEviction (s : State) : Result :=
  .next (match s.tagOf (s.pins.addr / 128) with
    | some t => if t.poison && !s.pinned t then s.evict t else s
    | none => s)

/-! ### Critical temperature (R17 to R22) -/

def Reg.thermwait : Nat := Reg.stack 0 + 0x28

/-- STATE of STKSTAT. -/
def State.stackState (s : State) (k : Nat) : Nat := field (s.regN (Reg.stack k)) 0 3
def State.setStackState (s : State) (k x : Nat) : State := s.setRegField (Reg.stack k) 0 3 x

/-- Bytes that an operation reads or writes, those of data that its request carries, and whether it writes. -/
def MemOp.size : MemOp → Nat
  | .read n => n
  | .write b _ => b.length
  | .atomic _ t _ _ => amoBytes t

def MemOp.data : MemOp → Nat
  | .read _ => 0
  | .write b _ => b.length
  | .atomic _ t _ _ => 2 * amoBytes t

def MemOp.writes : MemOp → Bool
  | .read _ => false
  | _ => true

/-- The access table under which a requester acts (R131). -/
def Who.master (w : Who) : Nat :=
  match w.ask with
  | .mig d => 64 + d
  | .agent m => m
  | .inbound r => r.m
  | _ => w.vd

/-- A waiting request that a critical stack still holds up. -/
def State.heldByHeat (s : State) (w : Waiting) : Bool := w.why == .critical && !w.go && s.lineWaits w.who.master w.line

/-! ### Accesses from outside the compute units (R26, R29, R131, R134, R153) -/

/-- A read at the home slices by a master that is no device. -/
def State.ioRead (s : State) (m a n : Nat) : State × List Byte :=
  ((linesAt a n).foldl (fun s line => s.touchL2 m line false 0) s, s.homeBytes a n)

/-- A write of the enabled bytes at the home slices. -/
def State.ioWrite (s : State) (m a : Nat) (bytes : List Byte) (en : Nat → Bool) : State :=
  let lines := linesAt a bytes.length
  let s := lines.foldl (fun s line => s.touchL2 m line true 0) s
  let s := bytes.zipIdx.foldl (fun s y => if en y.2 then s.setHomeByte (a + y.2) y.1 else s) s
  lines.foldl (fun s line => s.fixZero m line) s

/-- A downstream DMA write: with the EP bit every line it touches is poisoned, else lines it covers are clean (R15, R26). -/
def State.dmaWrite (s : State) (a : Nat) (bytes : List Byte) (ep : Bool) : State :=
  let s := s.ioWrite 73 a bytes fun _ => true
  (linesAt a bytes.length).foldl (fun s line =>
    if ep then s.setPoison line true
    else if a ≤ 128 * line && 128 * line + 128 ≤ a + bytes.length then s.setPoison line false
    else s) s

/-- One atomic at the home slice for master m: the old bytes. -/
def State.ioAtomic (s : State) (m a : Nat) (op : AmoOp) (t : AmoTy) (y c : Nat) : State × List Byte :=
  let (s, b) := s.ioRead m a (amoBytes t)
  match amoNew op t (ofLe b) y c with
  | some x => (s.ioWrite m a (leBytes (amoBytes t) x) fun _ => true, b)
  | none => (s, b)

/-- Lender entry i admits an access of n bytes at a (R134). -/
def State.leaseAdmits (s : State) (i gen a n : Nat) (rd wr : Bool) : Bool :=
  let e := s.lender i
  decide (i < 256) && (Lease.state e == 1 || Lease.state e == 2) && Lease.lgen e == gen && decide (Lease.base e ≤ a) &&
    decide (a + n ≤ Lease.base e + Lease.len e) && (!rd || Lease.canRead e) && (!wr || Lease.canWrite e)

/-- The rights over a lease that an operation needs. -/
def MemOp.reads : MemOp → Bool
  | .write _ _ => false
  | _ => true

/-- A request from outside is admitted (R11, R131, R134); those of application cores are not checked. -/
def State.inboundOk (s : State) (r : InReq) : Bool :=
  let n := r.op.size
  r.m == 255 || s.inMap r.addr && s.inMap (r.addr + n - 1) && s.admits r.m r.addr n r.op.writes &&
    match r.lease with
    | some (i, gen) => s.leaseAdmits i gen r.addr n r.op.reads r.op.writes
    | none => true

/-- A request that is not admitted is answered: a peer's with an error response, a root port's as unsupported (R131). -/
def State.refuse (s : State) (m : Nat) : State := if m = 72 then s.say .errorResponse else if m = 73 then s.say .unsupported else s

/-- The line of a request from outside whose stack is critical (R18). -/
def State.inboundHot (s : State) (r : InReq) : Option Nat := (linesAt r.addr r.op.size).find? fun line => s.lineWaits r.m line

/-- The line on which one of `older` waits that came by the same port: they perform in arrival order (R153). -/
def behind (older : List Waiting) (r : InReq) : Option Nat :=
  (linesAt r.addr r.op.size).find? fun line => older.any fun w => match w.who.ask with
    | .inbound q => q.m == r.m && q.port == r.port && (linesAt q.addr q.op.size).contains line
    | _ => false

/-- A request of an application core, which sees in its image the registers of a parked or muted strand and may change them there
(R96, R175, R207; log entry 106): the strand's image is written before it, and read back after a write. -/
def State.throughImages (s : State) (r : InReq) (f : State → State) : State :=
  let n := r.op.size
  let shown := (s.strands.filter fun k => k.shows && s.imgMeets k r.addr n 0 k.imgSpan).map fun k => (k.vd, k.imgidx)
  let at' := fun (g : State → State) (s : State) => shown.foldl (fun s x => s.asStrand (fun k => k.is x.1 x.2) g) s
  let s := f (at' (fun s => s.showImage r.addr n) s)
  if r.op.writes then at' (fun s => s.takeImage r.addr n) s else s

/-- A request from outside performs at the home slices, and is answered. A read of a poisoned line is a data error, but to a root
port (R33, log entry 33). -/
def State.perform (s : State) (r : InReq) : State :=
  let bad := (linesAt r.addr r.op.size).any fun line => s.poisoned line
  match r.op with
  | .read n => if bad && r.m ≠ 73 then s.say .dataError else let (s, b) := s.ioRead r.m r.addr n; s.say (.answer b)
  | .write b en =>
    if r.m = 73 then (s.dmaWrite r.addr b r.ep).say .done
    else
      let s := s.ioWrite r.m r.addr b fun i => en.testBit i
      if r.m = 72 then s.say .done else s
  | .atomic op t y c => if bad then s.say .dataError else let (s, b) := s.ioAtomic r.m r.addr op t y c; s.say (.answer b)

def State.serve (s : State) (r : InReq) : State :=
  if r.m = 255 then s.throughImages r fun s => s.perform r else s.perform r

/-- A request from outside arrives at its target: it is refused, waits in the replay queue, or performs. Where that queue is full it
is held at its port, which presents it again (R113). -/
def State.inbound (s : State) (r : InReq) : State :=
  if !s.inboundOk r then s.refuse r.m
  else match (s.inboundHot r).or (behind s.replay r) with
    | some line =>
      s.enqueue ⟨line, .critical, ⟨.inbound r, r.m, 0, 0, 0⟩, 0, 255, 0, 0, s.now, r.op.writes, (s.inboundHot r).isNone, 0, 0⟩
    | none => s.serve r

/-! ### Release of waiting requests (R19, R113) -/

/-- The oldest released request from outside that may perform. -/
def State.nextInbound (s : State) : Option (Waiting × InReq) :=
  s.replay.findSome? fun w => match w.who.ask with
    | .inbound r => if s.ready w && (behind (s.replay.takeWhile fun o => o != w) r).isNone then some (w, r) else none
    | _ => none

/-- Released requests from outside perform, where no older released request of their slice waits; each is checked again, and one whose
stack has become critical since then waits on in its place. -/
def State.serveInbound : Nat → State → State
  | 0, s => s
  | n + 1, s =>
    match s.nextInbound with
    | some (w, r) =>
      let t := { s with replay := s.replay.erase w }
      (if !s.inboundOk r then t.refuse r.m
       else match s.inboundHot r with
        | some line => { s with replay := s.replay.map fun o => if o = w then { w with line := line, go := false } else o }
        | none => t.serve r).serveInbound n
    | none => s

/-- The waiting requests that satisfy `p` are released, in arrival order: each goes once no older released one of its slice waits. -/
def State.letGo (s : State) (p : Waiting → Bool) : State :=
  let s := { s with replay := s.replay.map fun w => if p w then { w with go := true } else w }
  s.serveInbound s.replay.length

/-- A stack leaves the critical state: its waiting requests are released (R17, R19). -/
def State.leaveCritical (s : State) (k : Nat) : State :=
  let s := { s with crit := s.crit.filter fun j => j != k }
  s.letGo fun w => w.why == .critical && !s.heldByHeat w

/-- Enters normal or warm; entering warm notifies the power controller (R17). -/
def State.coolState (s : State) (k : Nat) (warm : Bool) : State :=
  let was := s.stackState k
  let s := s.setStackState k (if warm then 1 else 0)
  if warm && was ≠ 1 then s.say (.power k) else s

/-- Stack `pins.port` reports `pins.value` eighths of a degree. -/
def execStackTemperatureReport (s : State) : Result :=
  let k := s.pins.port
  let t := s.pins.value % 4096
  .next (
    if 12 ≤ k || s.excluded.contains k || s.stackState k = 4 then s
    else
      let s := s.setRegField (Reg.stack k) 20 12 t
      let lim := s.regN (Reg.stack k + 0x20)
      let warm := decide (8 * field lim 0 8 ≤ t)
      if s.crit.contains k then
        if t ≤ 8 * field lim 16 8 then (s.leaveCritical k).coolState k warm else s
      else if 8 * field lim 8 8 ≤ t then (({ s with crit := k :: s.crit } : State).setStackState k 3)
      else s.coolState k warm)

/-- Stack `pins.port` has completed its scheduled commands and enters self-refresh (R18). -/
def execSelfRefreshEntry (s : State) : Result :=
  .next (if s.pins.port < 12 && s.stackState s.pins.port = 3 then s.setStackState s.pins.port 2 else s)

/-- STKTHERM of stack `pins.port` takes `pins.value` (R22). The stack passes to another state at its next temperature report: the spec
does not say whether the write itself moves it (log entry 94). -/
def State.writeStktherm (s : State) (k x : Nat) : State :=
  let exit' := field x 16 8
  let crit := field x 8 8
  let warm := field x 0 8
  if k < 12 && exit' ≤ crit && warm ≤ crit then s.setReg (Reg.stack k + 0x20) (BitVec.ofNat 64 (x % 2 ^ 24)) else s

def execStkthermWrite (s : State) : Result := .next (s.writeStktherm s.pins.port s.pins.value)

/-- THERMWAIT takes a value clamped to 1 to 1,000 (R20). -/
def State.writeThermwait (s : State) (x : Nat) : State :=
  s.setReg Reg.thermwait (BitVec.ofNat 64 (min 1000 (max 1 (field x 0 32))))

def execThermwaitWrite (s : State) : Result := .next (s.writeThermwait s.pins.value)

/-- Cycles in a millisecond of the 2.0 GHz core clock. -/
def msCycles : Nat := 2000000

/-- The strand whose request has waited stops with THERMAL at its precise point (R19, R167): a convoy has committed no group
(log entry 17). A word that is fetched stops at the head of the convoy it belongs to. -/
def State.thermalStop (s : State) (w : Waiting) : State :=
  let info := slotInfo w.slot w.off
  s.asStrand (fun k => k.is w.who.vd w.who.imgidx) fun s =>
    match w.who.ask, s.me.pend with
    | .pending _, ⟨n, snap, .convoy c⟩ :: _ =>
      let st : Stop := ⟨.thermal, info, c.pc, w.word, (c.restart.map fun r => r.ixr).getD false, true, w.elem, w.gen⟩
      let esv := c.restartEsv s.me
      (s.onMe fun k => { k with cap := some (capOf c) }).stopFrom n snap st esv
    | .pending _, ⟨n, snap, .held pc _ _⟩ :: _ => s.stopFrom n snap { stopAt pc .thermal info with gen := w.gen } (esvOutside s.me.grant)
    | _, _ => s.raise { stopAt s.me.headPc .thermal info with gen := w.gen }

/-- The waiting request `pins.count` of the replay queues has waited THERMWAIT (R19): a strand parks, a peer gets an error response.
Transfers, migration engines, the DMA of root ports and application cores keep waiting, and so does what has been released. -/
def execThermwaitExpiry (s : State) : Result :=
  .next (match s.replay[s.pins.count]? with
    | some w =>
      if s.heldByHeat w && decide (s.regN Reg.thermwait * msCycles ≤ s.now - w.since) then
        let t := { s with replay := s.replay.eraseIdx s.pins.count }
        match w.who.ask with
        | .chanter _ | .pending _ => t.thermalStop w
        | .inbound r => if r.m = 72 then t.say .errorResponse else s
        | _ => s
      else s
    | none => s)

/-! ### Root ports (R23 to R28) -/

/-- A request that a root port brings (R23, R25, R131): to an address that R11 does not list, of no bytes, or of more bytes than the
port supports, it is unsupported (log entry 96); to a host window it goes on downstream of that window's port; else it performs here. -/
def State.rootRequest (s : State) (r : InReq) : State :=
  let n := r.op.size
  if n = 0 || (if r.op.writes then 512 else 4096) < n || !s.listed r.addr || !s.listed (r.addr + n - 1) then s.say .unsupported
  else if inHost s.roots r.addr then s.forward r.addr r.op
  else s.inbound r

/-- A write of all bytes of a list. -/
def wholeWrite (b : List Byte) : MemOp := .write b (2 ^ b.length - 1)

/-- An inbound request of root port `pins.port` (R25): `value` 1 is an ATS or PRI request; else a write of `bytes`, or with none a read
of `count` bytes. -/
def execPcieInboundRequest (s : State) : Result :=
  let p := s.pins
  .next (
    if p.value = 1 then s.say .unsupported
    else s.rootRequest ⟨73, p.port, p.addr, if p.bytes.isEmpty then .read p.count else wholeWrite p.bytes, false, none⟩)

/-- A DMA write of root port `pins.port`; `ok` false is the EP bit. -/
def execDownstreamDmaWrite (s : State) : Result :=
  let p := s.pins
  .next (s.rootRequest ⟨73, p.port, p.addr, wholeWrite p.bytes, !p.ok, none⟩)

/-- A CXL.mem read for device `pins.value` fills the L2; `ok` false returns poison (R28). -/
def execCxlMemRead (s : State) : Result :=
  let line := s.pins.addr / 128
  .next (
    if inCxl s.roots s.pins.addr then
      let s := s.touchL2 s.pins.value line false 0
      if s.pins.ok then s else s.setPoison line true
    else s)

/-! ### UALink: requests of peers (R29, R31, R33, R131) -/

/-- A peer's request of 1 to 256 bytes (R29). -/
def State.forPeer (s : State) (addr : Nat) (op : MemOp) (lease : Option (Nat × Nat)) : State :=
  if op.size = 0 || 256 < op.size then s.say .errorResponse else s.inbound ⟨72, s.pins.port, addr, op, false, lease⟩

/-- `pins.port` is the UALink port that brings the request. -/
def execPeerRead (s : State) : Result := .next (s.forPeer s.pins.addr (.read s.pins.count) none)

/-- Bit i of `value` enables byte i. -/
def execPeerWrite (s : State) : Result := .next (s.forPeer s.pins.addr (.write s.pins.bytes s.pins.value) none)

/-- The AMO operations by their numbers (R236, R257). -/
def amoOfCode (n : Nat) : Option AmoOp :=
  ([.add, .and, .or, .xor, .min, .max, .minn, .maxn, .xchg, .cas, .fadd] : List AmoOp)[n]?

/-- Operation number `op` on n bytes at a, its operand and compare value in `b`: none where there is none such, or the address is not
aligned. -/
def atomicOf (op n a : Nat) (b : List Byte) : Option MemOp :=
  if (n = 4 || n = 8) && a % n = 0 then
    (amoOfCode op).map fun o => .atomic o (if n = 4 then .i32 else .i64) (ofLe (b.take n)) (ofLe (b.drop n))
  else none

/-- Operation `value` of `count` bytes; `bytes` holds the operand and the compare value. -/
def execPeerAtomic (s : State) : Result :=
  let p := s.pins
  .next (match atomicOf p.value p.count p.addr p.bytes with
    | none => s.say .errorResponse
    | some op => s.forPeer p.addr op none)

/-- Port `pins.port` receives a packet it must reject (R31). -/
def execUnknownPacket (s : State) : Result :=
  .next (if 18 ≤ s.pins.port then s else (s.countReg (Reg.link s.pins.port + 0x08) 32).say .errorResponse)

/-! ### UALink: requests of the device (R30, R32, R33, R182) -/

def State.linkState (s : State) (p : Nat) : Nat := field (s.regN (Reg.link p)) 0 3
def State.linkWidth (s : State) (p : Nat) : Nat := field (s.regN (Reg.link p)) 4 4
def State.laneOk (s : State) (p : Nat) : Nat := field (s.regN (Reg.link p)) 8 4
def State.setLink (s : State) (p state width lanes : Nat) : State :=
  s.setReg (Reg.link p) (BitVec.ofNat 64 (state + 16 * width + 256 * lanes))

def popNat (w x : Nat) : Nat := popBelow (BitVec.ofNat 64 x) w

def State.upPorts (s : State) : List Nat := (List.range 18).filter fun p => s.linkState p == 2

/-- The up port for a line: a hash the spec does not give, the same while the set of up ports is unchanged (R30). -/
def portFor (ups : List Nat) (line : Nat) : Option Nat :=
  if ups.isEmpty then none
  else some (ups.getD (Config.freeSlip (ups.foldl (fun n p => n + 2 ^ p) 0) line % ups.length) 0)

def State.sent (s : State) (p : Nat) : List PeerReq := Assoc.get [] p s.ports
def State.setSent (s : State) (p : Nat) (l : List PeerReq) : State := { s with ports := Assoc.put [] p l s.ports }

/-- Flits that a request takes on a UALink port (R30, log entry 97). -/
def PeerReq.flits (r : PeerReq) : Nat := Config.ualinkFlits r.op.data

/-- A request goes out on a port; its device pays for its flits. -/
def State.transmit (s : State) (p : Nat) (r : PeerReq) : State := (s.charge (.ualink p) r.who.vd r.flits).say (.ualink p r)

/-- A requester acts for an incarnation that is no longer current (R181, R182). -/
def State.staleWho (s : State) (w : Who) : Bool := w.tagged w.ctx fun i => i != s.curIncn w.ctx

/-- A request of an old incarnation never performs: it is counted, or a read of it nacked (R182). -/
def State.dropStale (s : State) (wr : Bool) : State := if wr then s.countReg Reg.stalecnt 32 else s.say .staleNack

/-- The device that an arbiter grants next (R76), of a list of devices with the units that each asks for: those whose balance covers
them, round-robin after the last one granted; else borrowers in the order of their WEIGHT. Migration engines have no bucket. Where
nothing covers a request the grant is that of a later cycle (log entry 15). -/
def State.grantNext (s : State) (a : Arbiter) (l : List (Nat × Nat)) : Option Nat :=
  let turn := fun v => (v + 127 - min 63 (Assoc.get 64 a.num s.last)) % 64
  let own := (l.filter fun x => 64 ≤ x.1 || x.2 ≤ (s.bucketAt a x.1).bal).map fun x => x.1
  let borrow := (l.filter fun x => s.vdWeight x.1 != 0 && (s.lenderAt a x.1 x.2).isSome).map fun x => x.1
  ((bestBy turn own).or (bestBy (fun v => 64 * (255 - s.vdWeight v) + turn v) borrow)).or ((l.head?).map fun x => x.1)

/-- Of the requests that wait for UALink port `pins.port` one is sent: the oldest of the device that the port grants (R30, R76).
Requests of an old incarnation are dropped first (R182). -/
def execUalinkRequestSend (s : State) : Result :=
  let p := s.pins.port
  let s := (s.sendq.filter fun r => s.staleWho r.who).foldl (fun s r => s.dropStale r.op.writes)
    { s with sendq := s.sendq.filter fun r => !s.staleWho r.who }
  let mine := s.sendq.filter fun r => portFor s.upPorts (r.addr / 128) == some p
  .next (match s.grantNext (.ualink p) (mine.map fun r => (r.who.vd, r.flits)) with
    | none => s
    | some v => match mine.find? fun r => r.who.vd == v with
      | none => s
      | some r => (({ s with sendq := s.sendq.erase r } : State).setSent p (s.sent p ++ [r])).transmit p r)

/-- A requester waits for an answer: the strand's word, the pending item or the transfer is there; an atomic that a lender has
performed for a convoy is kept for it. -/
def State.awaited (s : State) (r : PeerReq) : Bool :=
  match r.who.ask with
  | .chanter n => s.strands.any fun k => k.asks r.who && k.seq == n
  | .pending n => s.strands.any fun k => k.asks r.who && ((k.pend.any fun p => p.seq == n) || match r.op with
      | .atomic _ _ _ _ => true
      | _ => false)
  | .xfer key => s.xfers.any fun x => x.key == key
  | .mig _ | .agent _ => true
  | .inbound _ => false

/-- The request ends. An answer to an older incarnation is dropped and counted (R182); that of an atomic whose strand has been squashed
goes where R177 says; any other is there for its requester to take. -/
def State.answer (s : State) (r : PeerReq) (ans : PeerAns) : State :=
  let atomicOf' : Strand → Bool := fun k => k.asks r.who && k.muted && k.amo.isSome && r.who.ask == .chanter (k.seq - 1)
  if s.staleWho r.who then s.countReg Reg.orphcnt 32
  else if s.strands.any atomicOf' then s.asStrand atomicOf' fun s => s.amoLands ans
  else if s.awaited r then { s with peerIn := s.peerIn ++ [⟨r.who, r.entry, r.addr, r.op, ans⟩] }
  else s

/-- What the response says: `value` 1 an error, 2 poison, else the data, of which a write has none. -/
def responseOf (op : MemOp) (p : Pins) : Option PeerAns :=
  let n := match op with
    | .write _ _ => 0
    | op => op.size
  if p.value = 1 then some .error else if p.value = 2 then some .poison
  else if p.bytes.length = n then some (.data p.bytes) else none

/-- The response to request `pins.count` of port `pins.port` arrives. -/
def execResponseArrival (s : State) : Result :=
  let p := s.pins.port
  .next (match (s.sent p)[s.pins.count]? with
    | none => s
    | some r => match responseOf r.op s.pins with
      | some ans => (s.setSent p ((s.sent p).eraseIdx s.pins.count)).answer r ans
      | none => s)

/-- A lane of port `pins.port` has had `pins.value` CRC errors within 1 ms (R32). -/
def execLaneRepairRequest (s : State) : Result :=
  let p := s.pins.port
  .next (
    if 18 ≤ p || s.linkState p ≠ 2 || s.pins.value < s.regN (Reg.link p + 0x28) then s
    else (s.addReg (Reg.link p + 0x10) 32 s.pins.value).setLink p 3 (s.linkWidth p) (s.laneOk p))

/-- The lanes of the next narrower width that exclude a failing lane. -/
def narrower (lanes fail : Nat) : Nat :=
  if lanes = 0xF then (if 2 ≤ fail then 0x3 else 0xC) else lanes - lanes.land (2 ^ fail)

/-- The replay buffer of port `pins.port` is empty: every flit sent has been acknowledged, be its request answered or not (R32). Lane
`pins.count` fails, and the narrower lanes are in use from then on: LANEOK shows them at once, WIDTH when the repair is done. A link
of one lane has no narrower width and stays as it is until it retrains or goes down (log entry 95). -/
def execReplayDrainEnd (s : State) : Result :=
  let p := s.pins.port
  .next (
    if p < 18 && s.linkState p = 3 && popNat 4 (s.laneOk p) = s.linkWidth p && 1 < s.linkWidth p &&
        (s.laneOk p).testBit s.pins.count then
      (s.setSent p ((s.sent p).map fun (r : PeerReq) => { r with acked := true })).setLink p 3 (s.linkWidth p)
        (narrower (s.laneOk p) s.pins.count)
    else s)

def execLaneRepairDone (s : State) : Result :=
  let p := s.pins.port
  .next (
    if p < 18 && s.linkState p = 3 && popNat 4 (s.laneOk p) < s.linkWidth p then
      (s.setLink p 2 (popNat 4 (s.laneOk p)) (s.laneOk p)).countReg (Reg.link p + 0x18) 16
    else s)

/-- A flit has been replayed `pins.value` times during the drain. WIDTH and LANEOK stand while the port retrains (log entry 95). -/
def execPortRetrain (s : State) : Result :=
  let p := s.pins.port
  .next (
    if p < 18 && s.linkState p = 3 && decide (s.regN (Reg.link p + 0x30) < s.pins.value) then
      (s.setLink p 4 (s.linkWidth p) (s.laneOk p)).countReg (Reg.link p + 0x20) 16
    else s)

/-- A request of port p, which went down (R33): a read or a write is issued again, once, on another up port; else the request
completes with an error that names the port. -/
def State.reissue (s : State) (p : Nat) (r : PeerReq) : State :=
  let once : Bool := match r.op with
    | .atomic _ _ _ _ => false
    | _ => !r.again
  match portFor s.upPorts (r.addr / 128) with
  | some q =>
    if once then let r := { r with again := true }; (s.setSent q (s.sent q ++ [r])).transmit q r
    else s.answer r (.down p)
  | none => s.answer r (.down p)

/-- A port goes down: so do its requests that have not been acknowledged. -/
def State.goDown (s : State) (p : Nat) : State :=
  let l := (s.sent p).filter fun r => !r.acked
  let s := (s.setLink p 0 0 0).setSent p ((s.sent p).filter fun r => r.acked)
  l.foldl (fun s r => s.reissue p r) s

/-- Training of port `pins.port` ends; `ok` with lanes `pins.value` in use at a first training. The replay buffer is sent
again. -/
def execTrainingEnd (s : State) : Result :=
  let p := s.pins.port
  .next (
    if 18 ≤ p then s
    else if s.linkState p = 1 then
      let n := popNat 4 s.pins.value
      if s.pins.ok && (n = 1 || n = 2 || n = 4) then s.setLink p 2 n (s.pins.value % 16) else s.goDown p
    else if s.linkState p = 4 then
      if s.pins.ok then
        ((s.sent p).filter fun r => !r.acked).foldl (fun s r => s.transmit p r) (s.setLink p 2 (s.linkWidth p) (s.laneOk p))
      else s.goDown p
    else s)

def execPortDown (s : State) : Result :=
  .next (if s.pins.port < 18 && s.linkState s.pins.port ≠ 0 then s.goDown s.pins.port else s)

/-! ### Lines that leave a buffer (R120, R124) -/

/-- The zero line of `pins.addr` is evicted. -/
def execZeroLineEviction (s : State) : Result :=
  .next (match s.tagOf (s.pins.addr / 128) with
    | some t => if t.zero && !s.pinned t then s.evict t else s
    | none => s)

/-- The buffered line of `pins.addr` on CU `pins.port` has stood for 64 cycles. -/
def execWcbLineTimeout (s : State) : Result :=
  .next (match (s.cu s.pins.port).wcb.find? fun l => l.line == s.pins.addr / 128 with
    | some l => if 64 ≤ s.now - l.born && !s.stuck l then s.flushLine s.pins.port l.line else s
    | none => s)

end Sys2Proof.Machine
end

