-- ==== Sys2Proof/Machine/Keccak.lean ====
section
/-! DEFINITION. SHAKE256 (R42): a sponge of rate 1,088 over the permutation of 1,600 bits that its standard gives. The state is one
number, the lane of column x and row y at bits 64 (5 y + x). -/

namespace Sys2Proof.Machine.Keccak

/-- The lane of column x and row y, both counted around. -/
def lane (a : BitVec 1600) (x y : Nat) : Word := a.extractLsb' (64 * (5 * (y % 5) + x % 5)) 64

/-- The state whose lanes a rule gives. -/
def ofLanes (f : Nat → Nat → Word) : BitVec 1600 :=
  (List.range 25).foldr (fun i a => (a <<< 64) ||| (f (i % 5) (i / 5)).setWidth 1600) 0

/-- The walk (x, y) to (y, 2 x + 3 y) from (1, 0): the lane at its step t turns by the t-th triangular number. -/
def walk : Nat → Nat → Nat → Nat → List (Nat × Nat × Nat)
  | 0, _, _, _ => []
  | n + 1, t, x, y => (x, y, t * (t + 1) / 2 % 64) :: walk n (t + 1) y ((2 * x + 3 * y) % 5)

/-- By how much a lane turns; that of (0, 0) stays. -/
def turn (x y : Nat) : Nat := (((walk 24 1 1 0).find? fun p => p.1 == x % 5 && p.2.1 == y % 5).map fun p => p.2.2).getD 0

/-- The feedback register of eight bits after t steps. -/
def feedback : Nat → BitVec 8
  | 0 => 1
  | t + 1 => let r := feedback t; (r <<< 1) ^^^ if r.getLsbD 7 then 0x71 else 0

/-- What round i adds to the lane of (0, 0): bit 2^j - 1 is bit j + 7 i of the feedback. -/
def roundWord (i : Nat) : Word :=
  (List.range 7).foldl (fun w j => setBit w (2 ^ j - 1) ((feedback (j + 7 * i)).getLsbD 0)) 0

/-- The parity of column x. -/
def parity (a : BitVec 1600) (x : Nat) : Word := lane a x 0 ^^^ lane a x 1 ^^^ lane a x 2 ^^^ lane a x 3 ^^^ lane a x 4

/-- Every bit takes the parities of two columns near it. -/
def spread (a : BitVec 1600) : BitVec 1600 :=
  let p := ofLanes fun x _ => parity a (x + 4) ^^^ (parity a (x + 1)).rotateLeft 1
  a ^^^ p

/-- The lanes turn, and that of (x, y) goes to (y, 2 x + 3 y): what stands at (x, y) has come from (x + 3 y, x). -/
def move (a : BitVec 1600) : BitVec 1600 := ofLanes fun x y => (lane a (x + 3 * y) x).rotateLeft (turn (x + 3 * y) x)

/-- The one step that is not linear, along a row. -/
def mix (a : BitVec 1600) : BitVec 1600 := ofLanes fun x y => lane a x y ^^^ (~~~lane a (x + 1) y &&& lane a (x + 2) y)

def permute (a : BitVec 1600) : BitVec 1600 :=
  (List.range 24).foldl (fun a i => mix (move (spread a)) ^^^ (roundWord i).setWidth 1600) a

/-- The message with the bits 1111 that mark SHAKE, then 1, zeros and a last 1, to whole blocks of 136 bytes. -/
def pad (m : List Byte) : List Byte :=
  let l := m ++ [0x1F]
  let z := l ++ List.replicate ((136 - l.length % 136) % 136) 0
  z.dropLast ++ [z.getLastD 0 ||| 0x80]

/-- The state after n blocks. -/
def absorb : Nat → BitVec 1600 → List Byte → BitVec 1600
  | 0, a, _ => a
  | n + 1, a, m => absorb n (permute (a ^^^ BitVec.ofNat 1600 (ofLe (m.take 136)))) (m.drop 136)

/-- SHAKE256 with an output of 64 bytes, as a little-endian number. -/
def shake256 (m : List Byte) : BitVec 512 := (absorb ((pad m).length / 136) 0 (pad m)).setWidth 512

end Sys2Proof.Machine.Keccak
end

