-- ==== Sys2Proof/Machine/EvBoot.lean ====
section
/-! DEFINITION. The events of bring-up and attestation (spec 02, R36 to R45). -/

namespace Sys2Proof.Machine

/-! ### The boot record (R37 to R40) -/

def Reg.bootstep (n : Nat) : Nat := Reg.boot + n
def Reg.bootstart : Nat := Reg.boot + 0x20
def Reg.boothalt : Nat := Reg.boot + 0x28
def Reg.capbase : Nat := Reg.boot + 0x38

def State.stepByte (s : State) (n : Nat) : Nat := field (s.regN (Reg.bootstep n)) 0 6
def State.setStep (s : State) (n status alt fails : Nat) : State :=
  s.setReg (Reg.bootstep n) (BitVec.ofNat 64 (status + 8 * alt + 16 * fails))

def stepStatus (b : Nat) : Nat := field b 0 3
def stepAlt (b : Nat) : Nat := field b 3 1
def stepFails (b : Nat) : Nat := field b 4 2

def stepOptional (n : Nat) : Bool := n == 18
/-- Steps that have an alternate method. -/
def stepHasAlt (n : Nat) : Bool := n != 0 && n != 1 && n != 18

/-- The time limit of a step, in ms. -/
def stepLimit (n : Nat) : Nat :=
  if n = 0 then 50 else if n = 1 then 10 else if n = 2 then 100 else if n = 3 then 200 else if n < 16 then 500
  else if n = 16 then 1000 else if n = 17 then 2000 else if n = 18 then 300 else if n = 19 then 500 else 5000

/-- What the record makes of a step at a start (R38): the method that runs (true: the alternate) with its FAILS, or none
where the step is not run and STATUS becomes 4. -/
def stepAction (n b : Nat) : Option (Bool × Nat) :=
  let st := if stepStatus b = 1 then 3 else stepStatus b
  let alt := stepAlt b == 1
  if st = 0 || st = 2 then some (false, stepFails b)
  else if st = 3 && stepOptional n && !alt then none
  else if st = 3 && stepHasAlt n && !alt then some (true, 0)
  else if st = 3 then some (alt, stepFails b)
  else if st = 4 then none
  else some (alt, stepFails b)

/-- The package resets (R38, R40): every register and every part of the machine is as after reset but for the boot record and
the report count; what memory holds is not said and is free. -/
def State.packageReset (s : State) : State :=
  let kept := s.adie.filter fun x => Reg.boot ≤ x.1 && x.1 < Reg.boot + 0x30
  let n := s.regN (Reg.att + 0x30) / 2 ^ 16 * 2 ^ 16
  ({ State.reset with
      adie := kept, fresh := s.fresh + 1, fog := [⟨0, 2 ^ 48, s.fresh⟩], agenda := s.agenda, pins := s.pins
      out := .packageReset :: s.out } : State).setReg (Reg.att + 0x30) (BitVec.ofNat 64 n)

/-- Bring-up stops (R39). The step that halts keeps the STATUS it has recorded: at codes 0x02 and 0x04 that of the method that
passed, on which the spec is silent (log entry 84). -/
def State.haltBoot (s : State) (n code : Nat) : State :=
  ({ s with
      boot := none
      halted := true } : State).setReg Reg.boothalt (BitVec.ofNat 64 (256 * n + code))

/-! ### The capability list (R44, R45) -/

/-- The CU enable mask of a die that bring-up found. -/
def State.cuMask (s : State) (d : Nat) : BitVec 128 :=
  (s.found.cus.filter fun c => c / 128 == d).foldl (fun m c => setBit m (c % 128) true) 0

/-- A body of the list, filled up with zeros to a multiple of 16 bytes. -/
def capBody (l : List Byte) : List Byte := l ++ List.replicate ((16 - l.length % 16) % 16) 0

/-- The bodies of the entries 1 to 5. The spec names their fields and no layout: each field stands in the order of R45 in whole
bytes, a die link's rate in TB/s and a root port's in GT/s (log entry 85). -/
def Caps.bodies (c : Caps) : List (List Byte) :=
  [ leBytes 8 c.stackSet.toNat ++ leBytes 8 c.size,
    c.cus.flatMap fun m => leBytes 16 m.toNat ++ leBytes 8 (popBelow m 128),
    leBytes 32 (c.slow.foldl (fun (m : BitVec 256) i => setBit m i true) 0).toNat,
    leBytes 8 (if c.halfRate then 6 else 12) ++
      (c.ports.flatMap fun p => leBytes 1 (if p.1 = 2 then 1 else 0) ++ leBytes 1 p.2) ++
      (List.range 16).flatMap fun n => match c.roots.find? fun r => r.1 == n with
        | some r => leBytes 1 1 ++ leBytes 1 (if c.lowPcie then 64 else 128) ++ leBytes 1 r.2
        | none => leBytes 3 0,
    c.steps ].map capBody

/-- The entries from address `a` on, the first with identifier `id`: a header and a body each (R44). -/
def capEntries (a id : Nat) : List (List Byte) → List Byte
  | [] => []
  | b :: l =>
    let n := 16 + b.length
    leBytes 2 id ++ leBytes 2 1 ++ leBytes 4 n ++ leBytes 8 (if l.isEmpty then 0 else a + n) ++ b ++ capEntries (a + n) (id + 1) l

/-- Where the list starts: in the page of A-die register space that no register lies in (log entry 85). -/
def capBase : Nat := 0xF80000000000 + 16 * Config.capPlace.toNat

/-- The list as it stands in A-die register space. -/
def Caps.bytes (c : Caps) : List Byte := capEntries capBase 1 c.bodies

/-- Builds the capability list before OS load, with its measurement (R42, R44). -/
def State.buildCaps (s : State) : State :=
  let c : Caps :=
    { stackSet := (s.excluded.foldl (fun m k => setBit m k false) (BitVec.allOnes 12))
      size := s.devTop
      cus := (List.range 4).map s.cuMask
      slow := s.found.slow
      halfRate := s.found.halfRate
      ports := (List.range 18).map fun p => (s.linkState p, s.linkWidth p)
      roots := s.roots.map fun r => (r.num, r.lanes)
      lowPcie := s.found.lowPcie
      steps := (List.range 21).map fun n => BitVec.ofNat 8 (s.stepByte n) }
  ({ s with caps := some c, measures := s.measures.set 2 (Keccak.shake256 c.bytes) } : State).setReg
    Reg.capbase (BitVec.ofNat 64 capBase)

/-! ### Running the steps -/

/-- Begins step n or the first step after it that runs; past step 20 bring-up is done. Steps 4 to 15 train a stack, which shows
STATE 4 (R21); step 18 starts the training of the UALink ports; step 20 finds the capability list built. -/
def State.beginStep (s : State) : Nat → Nat → State
  | 0, _ => s
  | fuel + 1, n =>
    if 21 ≤ n then { s with boot := none }
    else
      let s := if n = 20 then s.buildCaps else s
      match stepAction n (s.stepByte n) with
      | none => (s.setStep n 4 0 (stepFails (s.stepByte n))).beginStep fuel (n + 1)
      | some (alt, fails) =>
        let s := s.setStep n 1 (if alt then 1 else 0) fails
        let s := if n = 18 then (List.range 18).foldl (fun s p => s.setLink p 1 0 0) s
          else if 4 ≤ n && n < 16 && !alt then s.setStackState (n - 4) 4
          else s
        { s with boot := some (n, s.now) }

/-- The package starts (R38): not while a step runs, bring-up has ended, or it has halted and no reset has come since. -/
def execBootStart (s : State) : Result :=
  .next (
    if s.boot.isSome || s.caps.isSome || s.halted then s
    else (s.setReg Reg.bootstart (BitVec.ofNat 64 ((s.regN Reg.bootstart + 1) % 2 ^ 32))).beginStep 22 0)

/-- A copy of the configuration blob verifies (R41). -/
def blobOk (b : List Byte) : Bool :=
  let f := fun o n => ofLe ((b.drop o).take n)
  let p := f 0x18 4
  f 0 4 == 0x3544584E && f 4 2 == 1 && decide (f 6 1 < 4) && f 7 9 == 0 && f 0x1C 4 == 0 && decide (p ≤ 0x10000) &&
  decide (b.length = 0x20 + p + 114) &&
  Config.verify (Config.romKey (f 6 1)) (b.take (0x20 + p)) (b.drop (0x20 + p))

/-- The CUs of a die that are enabled: the lowest-numbered 125 of those that pass. `pass` has a bit for each CU. -/
def enabledCus (pass : Nat) (d : Nat) : List Nat :=
  (((List.range 128).filter fun c => pass.testBit (128 * d + c)).take 125).map fun c => 128 * d + c

/-- The root ports of a bifurcation: 2 bits for each x16 port, 0 one link, 1 two, 2 four (R23, R24). -/
def rootsOf (split : Nat) : List Root :=
  (List.range 4).flatMap fun p =>
    if field split (2 * p) 2 = 1 then [⟨4 * p, 8⟩, ⟨4 * p + 2, 8⟩]
    else if field split (2 * p) 2 = 2 then [⟨4 * p, 4⟩, ⟨4 * p + 1, 4⟩, ⟨4 * p + 2, 4⟩, ⟨4 * p + 3, 4⟩]
    else [⟨4 * p, 16⟩]

/-- What a step leaves when its method passes; a code of R39 where bring-up cannot go on. The pins present what the step
found: the blob or the image in `bytes`, the CUs that pass in `bytes` as a mask, the slices on conservative timing in `bytes`.
Step 17 maps failing CUs out in its normal method as in its alternate: R36 enables the CUs that pass in either (log entry
84). -/
def State.stepDone (s : State) (n : Nat) (alt : Bool) : State × Nat :=
  let p := s.pins
  if n = 2 then
    ({ s with
        measures := s.measures.set 0 (Keccak.shake256 p.bytes)
        serial := BitVec.ofNat 64 (ofLe ((p.bytes.drop 0x10).take 8))
        split := Config.bifurcation ((p.bytes.drop 0x20).take (ofLe ((p.bytes.drop 0x18).take 4))) }, 0)
  else if n = 3 then ({ s with found := { s.found with halfRate := alt } }, 0)
  else if 4 ≤ n && n < 16 then
    if alt then
      let s := { s.setRegField (Reg.stack (n - 4)) 3 1 1 with excluded := (n - 4) :: s.excluded }
      (s, if 12 ≤ s.excluded.length then 2 else 0)
    else (s.setStackState (n - 4) 0, 0)
  else if n = 16 then ({ s with found := { s.found with slow := if alt then p.bytes.map BitVec.toNat else [] } }, 0)
  else if n = 17 then
    let l := fun d => enabledCus (ofLe p.bytes) d
    ({ s with found := { s.found with cus := (List.range 4).flatMap l } },
      if (List.range 4).all fun d => decide (100 ≤ (l d).length) then 0 else 4)
  else if n = 19 then ({ s with found := { s.found with lowPcie := alt }, roots := rootsOf s.split.toNat }, 0)
  else if n = 20 then ({ s with measures := s.measures.set 1 (Keccak.shake256 p.bytes) }, 0)
  else (s, 0)

/-- The step has reached its time limit (R36). -/
def State.stepLate (s : State) (n t : Nat) : Bool := decide (stepLimit n * msCycles ≤ s.now - t)

/-- The method of a step begun at count t may pass: the blob verifies; a port is up at UALink's step, which fails only where
none comes up; the image has verified (`ok`); and the limit has not been reached. -/
def State.mayPass (s : State) (n t : Nat) : Bool :=
  if n = 18 then !s.upPorts.isEmpty
  else !s.stepLate n t && (if n = 2 then blobOk s.pins.bytes else if n = 20 then s.pins.ok else true)

/-- The running step passes. -/
def State.passStep (s : State) (n : Nat) : State :=
  let b := s.stepByte n
  let alt := stepAlt b == 1
  let (s, code) := s.stepDone n alt
  let s := s.setStep n (if alt then 5 else 2) (stepAlt b) (stepFails b)
  if code ≠ 0 then s.haltBoot n code else s.beginStep 22 (n + 1)

def execBootStepPass (s : State) : Result :=
  .next (match s.boot with
    | none => s
    | some (n, t) => if s.mayPass n t then s.passStep n else s)

/-- The running step fails (R38, R39): STATUS 3 and FAILS, then a halt or a reset. A second copy of the blob that does not
verify leaves none. UALink's step fails only where no port comes up (R36). -/
def State.failStep (s : State) (noBlob : Bool) : State :=
  match s.boot with
  | none => s
  | some (n, _) =>
    let b := s.stepByte n
    let f := min 3 (stepFails b + 1)
    let t := s.setStep n 3 (stepAlt b) f
    if n = 18 && !s.upPorts.isEmpty then s
    else if n = 2 && stepAlt b = 1 && noBlob then t.haltBoot 2 3
    else if f = 3 then t.haltBoot n 1
    else t.packageReset

/-- `bytes` holds the blob's copy at step 2. -/
def execBootStepFail (s : State) : Result := .next (s.failStep (!blobOk s.pins.bytes))

def execBootStepTimeout (s : State) : Result :=
  .next (match s.boot with
    | some (n, t) =>
      if !s.stepLate n t then s
      else if n = 18 && !s.upPorts.isEmpty then s.passStep n
      else s.failStep false
    | none => s)

/-- BOOTCTL.CLR and BOOTCTL.RST (R40). -/
def State.clearBoot (s : State) : State :=
  (((List.range 21).foldl (fun s n => s.setReg (Reg.bootstep n) 0) s).setReg Reg.boothalt 0).packageReset

def execBootctlClr (s : State) : Result := .next s.clearBoot
def execBootctlRst (s : State) : Result := .next s.packageReset

/-! ### Attestation (R42, R43) -/

/-- The OS extends register 3 with the 64 bytes on the pins. -/
def execMeasurementExtend (s : State) : Result :=
  .next (if s.pins.bytes.length ≠ 64 then s
    else { s with measures := s.measures.set 3 (Keccak.shake256 (leBytes 64 (s.measures[3]).toNat ++ s.pins.bytes)) })

/-- BUSY and PEND of ATTSTAT: the oldest request is being built while any waits. -/
def State.attPend (s : State) : State :=
  (s.setRegField (Reg.att + 0x30) 4 4 s.attq.length).setRegField (Reg.att + 0x30) 0 1 (if s.attq.isEmpty then 0 else 1)

/-- GO of ATTCMD (R43). ATTDST lies outside device memory where any byte of its 1 KiB buffer does (log entry 84). -/
def State.attGo (s : State) : State :=
  let dst := field (s.regN (Reg.att + 0x20)) 0 48
  if 4 ≤ s.attq.length || dst % 64 ≠ 0 || s.devTop < dst + 1024 then s.setRegField (Reg.att + 0x30) 1 1 1
  else
    let nonce := (List.range 4).flatMap fun n => leBytes 8 (s.regN (Reg.att + 8 * n))
    ((({ s with attq := s.attq ++ [⟨nonce, dst⟩] } : State).setRegField (Reg.att + 0x30) 1 1 0)).attPend

def execAttcmdGo (s : State) : Result := .next s.attGo

/-- Bytes 0x000 to 0x18F of a report. -/
def State.reportBody (s : State) (r : AttReq) : List Byte :=
  leBytes 4 0x5441584E ++ leBytes 2 1 ++ leBytes 2 0 ++ leBytes 8 s.serial.toNat ++ r.nonce ++
  (s.measures.toList.flatMap fun m => leBytes 64 m.toNat) ++
  ((List.range 21).map fun n => BitVec.ofNat 8 (s.stepByte n)) ++ leBytes 3 0 ++ leBytes 4 (s.regN Reg.bootstart) ++ leBytes 4 0 ++
  leBytes 57 Config.attKey.toNat ++ leBytes 7 0

/-- The oldest request is answered: the whole report is written, then NDONE counts. -/
def execAttestationReportWrite (s : State) : Result :=
  .next (match s.attq with
    | [] => s
    | r :: l =>
      let body := s.reportBody r
      let sig := (List.range 114).map fun i => Config.sign body i
      let s := s.ioWrite 255 r.dst (body ++ sig ++ List.replicate 510 0) fun _ => true
      let a := Reg.att + 0x30
      (({ s with attq := l } : State).setRegField a 16 16 (field (s.regN a) 16 16 + 1)).attPend)

end Sys2Proof.Machine
end

