-- ==== Sys2Proof/Machine/EvTrace.lean ====
section
/-! DEFINITION. The events of the trace writer, of checkpoints and of the debugger's release (spec 10, R211 to R220). -/

namespace Sys2Proof.Machine

/-! ### Segments (R215 to R217) -/

def Reg.trstat : Nat := Reg.trace + 0x30
def State.trNseg (s : State) : Nat := field (s.regN (Reg.trace + 8)) 0 16
def State.trBase (s : State) : Nat := field (s.regN Reg.trace) 0 48

/-- TRNSEG gives a ring that the writer can use (R217). -/
def State.trRing (s : State) : Bool := decide (2 ≤ s.trNseg) && decide (s.trNseg ≤ 1024)

/-- The trace writer is on. -/
def State.tracing (s : State) : Bool := (s.reg Reg.trstat).getLsbD 0 && s.trRing

/-- Records of a segment. -/
def segmentRecords : Nat := 32766

/-- CRC-32C: one byte, and a list of bytes. -/
def crcByte (c : BitVec 32) (b : Byte) : BitVec 32 :=
  (List.range 8).foldl (fun (c : BitVec 32) _ => if c.getLsbD 0 then (c >>> 1) ^^^ 0x82F63B78#32 else c >>> 1)
    (c ^^^ b.setWidth 32)

def crc32c (l : List Byte) : BitVec 32 := ~~~(l.foldl crcByte (BitVec.allOnes 32))

/-- The bytes of a sealed segment (R216). -/
def segmentBytes (seq start : Nat) (l : List (BitVec 256)) : List Byte :=
  let head := leBytes 4 0x52544E44 ++ leBytes 4 l.length ++ leBytes 8 seq ++ leBytes 8 start
  let tail := List.replicate 36 (0 : Byte) ++ l.flatMap (fun r => leBytes 32 r.toNat) ++
    List.replicate (32 * (segmentRecords - l.length)) 0
  head ++ leBytes 4 (crc32c (head ++ [0, 0, 0, 0] ++ tail)).toNat ++ tail

/-- The slot of the ring that the next segment takes. -/
def State.trSlot (s : State) : Nat := s.trBase + 0x100000 * (s.trace.seq % s.trNseg)

/-- The writer may write n bytes at a, as an engine (R11, R131). -/
def State.trMay (s : State) (a n : Nat) : Bool := s.inMap a && s.inMap (a + n - 1) && s.admits 70 a n true

/-- The write of a segment waits for a critical stack (R18, R19). -/
def State.trWaits (s : State) : Bool :=
  !s.crit.isEmpty && s.trMay s.trSlot 0x100000 && (linesAt s.trSlot 0x100000).any fun line => s.lineWaits 70 line

/-- Seals the open segment: it takes its slot of the ring; with every slot holding an unsent segment the oldest one is
overwritten (R217). A segment with no record is not open. -/
def State.sealSegment (s : State) : State :=
  let t := s.trace
  if !s.trRing || t.cur.isEmpty then s
  else
    let n := s.trNseg
    let lost := decide (n ≤ t.segs.length)
    let a := s.trSlot
    let s := if lost then s.countReg (Reg.trace + 0x20) 32 else s
    let segs := if lost then t.segs.tail else t.segs
    let s := if s.trMay a 0x100000 then s.ioWrite 70 a (segmentBytes t.seq t.start t.cur) fun _ => true else s
    { s with trace := { t with cur := [], seq := t.seq + 1, segs := segs ++ [⟨t.seq, t.seq % n, false⟩], flush := false } }

/-- The writer moves buffered records into the open segment in the order in which they were emitted, as far as there is room (R215). -/
def State.collectTrace (s : State) : State :=
  let t := s.trace
  if !s.tracing || t.bufs.isEmpty then s
  else
    let room := segmentRecords - t.cur.length
    { s with trace := { t with
        bufs := t.bufs.drop room, cur := t.cur ++ (t.bufs.take room).map fun r => r.2
        start := if t.cur.isEmpty then s.now else t.start } }

/-- TRSTAT takes `pins.value`: EN, and with FLUSH the open segment is to be sealed, whatever EN was (R216, R217). -/
def State.writeTrstat (s : State) (x : Nat) : State :=
  let s := if x.testBit 1 && !s.trace.cur.isEmpty then { s with trace := { s.trace with flush := true } } else s
  s.setReg Reg.trstat (BitVec.ofNat 64 (x % 2))

def execTrstatFlush (s : State) : Result := .next (s.writeTrstat s.pins.value)

/-- In its own cycles the writer seals the open segment, which is full or has been asked for (R74, R215, R216). -/
def execSegmentSeal (s : State) : Result :=
  .next (if s.inSlot .trace && (s.trace.flush || decide (segmentRecords ≤ s.trace.cur.length)) && !s.trWaits then s.sealSegment else s)

/-- The storage address of a segment, in 1 MiB blocks. -/
def State.segmentBlock (s : State) (seq : Nat) : Nat :=
  let r := s.regN (Reg.trace + 0x18)
  field r 0 32 + seq % field r 32 32

/-- Sends the oldest sealed segment that has not been sent, in the writer's own cycles: by queue pair QID of root port PORT, where
there is such a port (R24, R74, R217). -/
def execSegmentSend (s : State) : Result :=
  let qp := s.regN (Reg.trace + 0x10)
  let root := field qp 0 4
  .next (
    if !s.tracing || !s.inSlot .trace || field (s.regN (Reg.trace + 0x18)) 32 32 = 0 || !(s.roots.any fun r => r.num == root) then s
    else match s.trace.segs.find? fun x => !x.sent with
      | some x =>
        let segs := s.trace.segs.map fun (y : Segment) => if y.seq = x.seq then { y with sent := true } else y
        ({ s with trace := { s.trace with segs := segs } } : State).say (.segment (field qp 16 16) root x.seq (s.segmentBlock x.seq))
      | none => s)

/-- Storage has taken the sent segment whose SEQ is `pins.value`. -/
def execSegmentWriteCompletion (s : State) : Result :=
  .next { s with trace := { s.trace with segs := s.trace.segs.filter fun x => !(x.sent && x.seq == s.pins.value) } }

/-! ### Checkpoints (R218 to R220) -/

def State.ckpt (s : State) (v : Nat) : Ckpt := Assoc.get ⟨0, []⟩ v s.ckpts
def State.setCkpt (s : State) (v : Nat) (c : Ckpt) : State := { s with ckpts := Assoc.put ⟨0, []⟩ v c s.ckpts }

/-- T in cycles: PERIOD outside 1 to 1,000 reads as 10. -/
def State.ckPeriod (s : State) (v : Nat) : Nat :=
  let t := field (s.regN (Reg.ckpt v)) 16 16
  (if 1 ≤ t && t ≤ 1000 then t else 10) * msCycles

/-- The order log of the device is full. -/
def State.ologFull (s : State) (v : Nat) : Bool := s.ckLogN v != 0 && decide (s.ckLogN v ≤ (s.olog v).length)

/-- A CU share whose last resident strand has left is saved to its image (R375). -/
def State.saveCuShare (s : State) (cu : Nat) (h : CuShare) : State :=
  let a := s.cuImgAddr h.vd h.idx
  let bytes := (List.range (1024 * h.kib)).map fun i => Assoc.get byteDefault i h.bytes
  let s := (s.setHomeBytes a bytes).copied a (1024 * h.kib)
  let c := s.cu cu
  let left := fun (x : CuShare) => if x.of h.vd (some h.idx) then { x with resident := false, bytes := [] } else x
  s.setCu cu { c with shares := c.shares.map left }

/-- CU shares of a CU that no unmuted strand there carries (R375). -/
def State.idleShares (s : State) (cu : Nat) : List CuShare :=
  (s.cu cu).shares.filter fun h =>
    h.resident && !(s.strands.any fun k => k.onCu && !k.muted && k.cu == cu && h.of k.vd k.cuidx)

/-- The strands of device v that can be squashed now are squashed for its checkpoint. -/
def State.squashForCkpt (s : State) (v : Nat) : State :=
  ((s.strands.filter fun k => k.vd == v && k.onCu && !k.muted && k.squashing.isNone).map fun k => k.imgidx).foldl (fun s i =>
    s.asStrand (fun k => k.is v i) fun s =>
      if s.maySquash then
        let c := s.ckpt v
        (s.squash true).setCkpt v { c with held := c.held ++ [i] }
      else s) s

/-- A checkpoint of device v begins (R219): its strands are squashed, and the copier then saves their images, with the CU shares that
they leave. The order log starts again. A strand that cannot be squashed yet is squashed when it can be. -/
def State.takeCheckpoint (s : State) (v : Nat) : State :=
  if !s.ckOn v || s.ckBusy v then s
  else
    let s := s.setReg (Reg.ckpt v + 0x20) (s.reg (Reg.ckpt v + 0x20) ||| 1)
    ({ s.setCkpt v ⟨s.now, []⟩ with ologs := Assoc.put [] v [] s.ologs } : State).squashForCkpt v

/-- Device `pins.port`: T after the previous checkpoint, or with its order log full. While a checkpoint is being taken, the strands that
it still has to squash. -/
def execCheckpointTimer (s : State) : Result :=
  let v := s.pins.port
  .next (if s.ckBusy v then s.squashForCkpt v
    else if s.ckPeriod v ≤ s.now - (s.ckpt v).last || s.ologFull v then s.takeCheckpoint v
    else s)

/-- The bytes a checkpoint store may take: the partition window, the image region and a CRC for each granule of 64 KiB. The
layout of the store is not given, so that its bytes are free values. -/
def State.ckBytes (s : State) (v : Nat) : Nat :=
  let w := match Assoc.get none (s.vdPart v) s.windows with
    | some w => w.list.length * granule
    | none => 0
  let img := (if field (s.regN (Reg.vdev v + 0x28)) 50 14 = 0 then 16384 else field (s.regN (Reg.vdev v + 0x28)) 50 14) * 65536
  w + img + 4 * ((w + img) / 65536)

/-- Every strand of device v has been squashed and saved, with the CU shares (R219). -/
def State.ckSaved (s : State) (v : Nat) : Bool :=
  !(s.strands.any fun k => k.vd == v && k.onCu) && !(s.cus.any fun c => c.2.shares.any fun h => h.vd == v && h.resident)

/-- The checkpoint writer may write its store (R11, R54, R131). -/
def State.ckMay (s : State) (a n : Nat) : Bool := s.listed a && s.listed (a + n - 1) && s.admits 69 a n true

/-- The checkpoint writer is done with device `pins.port`, in its own cycles and with no line of the store in a critical stack (R19,
R74, R219). The strands that it has squashed then come back, as the dealer resumes them. -/
def execCheckpointComplete (s : State) : Result :=
  let v := s.pins.port
  let a := field (s.regN (Reg.ckpt v + 8)) 0 48
  let n := s.ckBytes v
  .next (
    if !s.ckBusy v || !s.ckSaved v || !s.inSlot .checkpoint ||
        (!s.crit.isEmpty && s.ckMay a n && (linesAt a n).any fun line => s.lineWaits 69 line) then s
    else
      let s := if s.ckMay a n then (s.makeFog a (a + n)).hostPut a n else s
      let num := (field (s.regN (Reg.ckpt v + 0x20)) 32 32 + 1) % 2 ^ 32
      s.setReg (Reg.ckpt v + 0x20) (BitVec.ofNat 64 (num * 2 ^ 32)))

/-! ### The debugger's release (R211) -/

/-- DBGREL of device `pins.port` takes `pins.value`: every held launch of the device may start. -/
def State.writeDbgrel (s : State) (v x : Nat) : State :=
  if x.testBit 0 then
    { s with launches := s.launches.map fun (l : Launch) => if l.vd = v then { l with held := false } else l }
  else s

def execDbgrelWrite (s : State) : Result := .next (s.writeDbgrel s.pins.port s.pins.value)

end Sys2Proof.Machine
end

