-- ==== Sys2Proof/Machine/EvDevice.lean ====
section
/-! DEFINITION. The events of partitions, virtual devices and the dealer (spec 02 to 04, R46 to R83). `pins.port` names the
partition or the device. -/

namespace Sys2Proof.Machine

/-! ### Partitions (R46 to R48, R80, R128) -/

/-- No device of the partition is enabled and none of its strands is resident: its registers accept writes (R47). -/
def State.partIdle (s : State) (p : Nat) : Bool :=
  (List.range 64).all fun v => s.vdPart v != p || (!s.vdEn v && !(s.strands.any fun k => k.vd == v && k.onCu))

/-- Where a granule of device memory stands: its place in a latched window with that window, or its pseudo-channel in the
system set. -/
def State.granuleMap (s : State) (g : Nat) : Option Window × Option Nat :=
  match s.latched.find? fun w => w.has (g * granule) with
  | some w => (some w, some (g - w.base / granule))
  | none => (none, s.pchOf (g * granule))

/-- Ranges that cover a rising list of granules. -/
def granuleRanges : List Nat → List (Nat × Nat)
  | [] => []
  | g :: l => match granuleRanges l with
    | (a, b) :: r => if a = g + 1 then (g, b) :: r else (g, g + 1) :: (a, b) :: r
    | [] => [(g, g + 1)]

/-- Changes the latched windows: granules whose place changes hold unspecified bytes afterwards (R128). -/
def State.remap (s : State) (f : State → State) : State :=
  let s' := f s
  let moved := (List.range (s.devTop / granule)).filter fun g => s.granuleMap g != s'.granuleMap g
  (granuleRanges moved).foldl (fun t r => t.makeFog (r.1 * granule) (r.2 * granule)) s'

def State.setWindow (s : State) (p : Nat) (w : Option Window) : State := { s with windows := Assoc.put none p w s.windows }

/-- The latched array of a partition is dropped (R47). -/
def State.dropLatch (s : State) (p : Nat) : State := s.remap fun s => s.setWindow p none

/-- The CUs a partition's PCUMASK0 to PCUMASK3 name on a die. -/
def State.pcumask (s : State) (p d : Nat) : BitVec 128 := s.reg (Reg.part p + 0x10 * d + 8) ++ s.reg (Reg.part p + 0x10 * d)

/-- PCUMASKd of partition p takes x: ignored for a CU that bring-up mapped out or that another partition owns. -/
def State.writePcumask (s : State) (p d : Nat) (x : BitVec 128) : State :=
  let bad := (List.range 128).any fun c => x.getLsbD c &&
    (!s.found.cus.contains (128 * d + c) || (List.range 16).any fun q => q != p && (s.pcumask q d).getLsbD c)
  if 16 ≤ p || 4 ≤ d || bad || !s.partIdle p then s
  else ((s.setReg (Reg.part p + 0x10 * d) (x.setWidth 64)).setReg (Reg.part p + 0x10 * d + 8) (x.extractLsb' 64 64)).dropLatch p

/-- `pins.count` is the C-die. -/
def execPcumaskWrite (s : State) : Result :=
  .next (s.writePcumask s.pins.port s.pins.count (BitVec.ofNat 128 s.pins.value))

/-- PLSPORT: ignored where two partitions would share a port (R48). -/
def State.writePlsport (s : State) (p x : Nat) : State :=
  let bad := (List.range 16).any fun q => q != p && (s.regN (Reg.part q + 0x58)).land x != 0
  if 16 ≤ p || bad || !s.partIdle p then s else (s.setReg (Reg.part p + 0x58) (BitVec.ofNat 64 x)).dropLatch p

def execPlsportWrite (s : State) : Result := .next (s.writePlsport s.pins.port (s.pins.value % 2 ^ 64))

/-- PMBASE: a multiple of 1.5 GiB (R128). -/
def State.writePmbase (s : State) (p x : Nat) : State :=
  if 16 ≤ p || x % granule ≠ 0 || !s.partIdle p then s
  else (s.setReg (Reg.part p + 0x68) (BitVec.ofNat 64 x)).dropLatch p

def execPmbaseWrite (s : State) : Result := .next (s.writePmbase s.pins.port (s.pins.value % 2 ^ 48))

/-- PCHLIST, PCHN or PHMASK, at offset `o` of the block (R46). -/
def State.writePart (s : State) (p o x : Nat) : State :=
  let y := if o = 0x40 then x % 2 ^ 48 else if o = 0x48 then x % 2 ^ 16 else x % 2 ^ 6
  if 16 ≤ p || (o ≠ 0x40 && o ≠ 0x48 && o ≠ 0x50) || (o = 0x48 && 768 < y) || !s.partIdle p then s
  else (s.setReg (Reg.part p + o) (BitVec.ofNat 64 y)).dropLatch p

/-- `pins.addr` is the offset. -/
def execPartitionRegisterWrite (s : State) : Result := .next (s.writePart s.pins.port s.pins.addr s.pins.value)

/-- POWCEIL with its fields clamped (R80). It may be written at any time and keeps the latch. -/
def State.writePowceil (s : State) (p x : Nat) : State :=
  let lg := field x 48 6
  let lg := if lg = 0 || 32 < lg then 32 else lg
  let c16 := min 1024 (max 4 (field x 32 11))
  let c32 := min 512 (max 2 (field x 16 10))
  let c64 := min 256 (max 1 (field x 0 9))
  if 16 ≤ p then s
  else s.setReg (Reg.part p + 0x60) (BitVec.ofNat 64 (lg * 2 ^ 48 + c16 * 2 ^ 32 + c32 * 2 ^ 16 + c64))

def execPowceilWrite (s : State) : Result := .next (s.writePowceil s.pins.port s.pins.value)

/-! ### Virtual devices (R50, R51, R53) -/

/-- Units of 64 KiB of a device's image region, and those it needs (R53). -/
def State.imgUnits (s : State) (v : Nat) : Nat :=
  let n := field (s.regN (Reg.vdev v + 0x28)) 50 14
  if n = 0 then 16384 else n
def State.imgNeed (s : State) (v : Nat) : Nat :=
  ceilDiv (s.vdMaxStr v * (imageSize + 4096 * s.vdSsMax v) + s.vdMaxCu v * 4096 * s.vdCsMax v) 65536

/-- The array that a partition would latch now, or none where the EN write is ignored (R47, R128). -/
def State.readArray (s : State) (p : Nat) : Option Window :=
  let b := Reg.part p
  let a := s.regN (b + 0x40)
  let n := s.regN (b + 0x48)
  let base := s.regN (b + 0x68)
  let l := (List.range n).map fun i => s.homeNat (a + 2 * i) 2
  let readable := n = 0 || (s.inMap a && s.inMap (a + 2 * n - 1) && !((linesAt a (2 * n)).any fun line => s.poisoned line))
  let others := (s.windows.filter fun w => w.1 != p).filterMap fun w => w.2
  let w : Window := ⟨base, l, s.regN (b + 0x50)⟩
  let hi := base + n * granule
  if readable && l.all (fun c => decide (c < 768) && !s.excluded.contains (c / 64) &&
        !(others.any fun o => o.list.contains c)) &&
      decide (l.eraseDups.length = l.length) && decide (hi ≤ s.devTop) &&
      others.all (fun o => decide (hi ≤ o.base) || decide (o.base + o.list.length * granule ≤ base) || n == 0 || o.list.isEmpty) then
    some w
  else none

/-- The other devices of the partition are not enabled. -/
def State.firstOf (s : State) (v p : Nat) : Bool :=
  (List.range 64).all fun u => u == v || s.vdPart u != p || !s.vdEn u

/-- No queue of the device holds a latched copy (R55). -/
def State.dropQueues (s : State) (v : Nat) : State :=
  { s with queues := s.queues.map fun x => if x.1 / 256 = v then (x.1, { x.2 with latch := none }) else x }

/-- VDCTL of device v takes x: WEIGHT always, PART only while EN is 0; a 0 to 1 write of EN checks the image region, and for
the first device of its partition reads, checks and latches the array. A write of EN that is ignored changes nothing. -/
def State.writeVdctl (s : State) (v x : Nat) : State :=
  let on := s.vdEn v
  let p := if on then s.vdPart v else field x 16 4
  let y := BitVec.ofNat 64 (field x 24 8 * 2 ^ 24 + p * 2 ^ 16 + x % 2)
  if 64 ≤ v then s
  else if !on && x.testBit 0 then
    if s.imgUnits v < s.imgNeed v then s
    else if s.firstOf v p then
      (match s.readArray p with
       | some w => ((s.remap fun s => s.setWindow p (some w)).setReg (Reg.vdev v) y).dropQueues v
       | none => s)
    else (s.setReg (Reg.vdev v) y).dropQueues v
  else s.setReg (Reg.vdev v) y

/-- A write of VDCTL with EN = 1. -/
def execVdctlEnSet (s : State) : Result :=
  .next (if s.pins.value.testBit 0 then s.writeVdctl s.pins.port s.pins.value else s)

/-- A write of VDCTL with EN = 0. -/
def execVdctlEnClear (s : State) : Result :=
  .next (if s.pins.value.testBit 0 then s else s.writeVdctl s.pins.port s.pins.value)

/-- Two ranges share a number. -/
def overlaps (a n b m : Nat) : Bool := decide (0 < n) && decide (0 < m) && decide (a < b + m) && decide (b < a + n)

/-- A register of the block of device v, at offset `o` (R49 to R51). -/
def State.writeVd (s : State) (v o x : Nat) : State :=
  let a := Reg.vdev v + o
  let put := fun (m : Nat) => s.setReg a (BitVec.ofNat 64 (x.land m))
  if 64 ≤ v then s
  else if o = 0 then s.writeVdctl v x
  else if o = 0x08 then put (2 ^ 32 - 1)
  else if o = 0x10 then put (2 ^ 24 - 1)
  else if s.vdEn v then s
  else if o = 0x18 then
    let lo := field x 0 16
    let n := field x 16 16
    if 65536 < lo + n || (List.range 64).any fun u => u != v && overlaps lo n (s.vdCntLo u) (s.vdCntN u) then s
    else put (2 ^ 32 - 1)
  else if o = 0x20 then put 0xFF00FFFFFFFFFFFF
  else if o = 0x28 then put 0xFFFFFFFFFFFF0000
  else if o = 0x30 then put 0x01FF03FF03FF1FFF
  else if o = 0x38 then
    let lo := field x 0 13
    let n := field x 13 14
    if 8192 < lo + n || (List.range 64).any fun u => u != v && overlaps lo n (s.vdCtxLo u) (s.vdCtxN u) then s
    else put (2 ^ 27 - 1)
  else s

/-- `pins.addr` is the offset in the block. -/
def execVdRegisterWrite (s : State) : Result := .next (s.writeVd s.pins.port s.pins.addr s.pins.value)

/-! ### The notify window (R55, R56, R64) -/

/-- Queue `pins.addr` takes tail `pins.value`. -/
def execNotifyWrite (s : State) : Result :=
  .next (if s.pins.port < 64 && s.pins.addr < 256 then s.notify s.pins.port s.pins.addr (BitVec.ofNat 32 s.pins.value) else s)

/-- CNTDATA writes the counter that CNTSEL selects. -/
def State.writeCntdata (s : State) (v x : Nat) : State :=
  match s.cntIndex v (Assoc.get (0 : BitVec 16) v s.cntsel).toNat with
  | some i => s.setCounter i ⟨BitVec.ofNat 32 x, x.testBit 32⟩
  | none => s

def execCntdataWrite (s : State) : Result := .next (s.writeCntdata s.pins.port s.pins.value)

def levelOfCode (n : Nat) : Option Level :=
  if n = 0 then some .strand else if n = 1 then some .launch else if n = 2 then some .graph else if n = 3 then some .phase
  else if n = 4 then some .job else none

/-- CANCELCMD of device v takes x (R64): ignored for a context that is not the device's. -/
def State.writeCancelcmd (s : State) (v x : Nat) : State :=
  match levelOfCode (field x 0 3) with
  | none => s
  | some lv => if s.ctxOk v (field x 16 13) then s.cancel v lv (field x 16 13) (field x 32 32) else s

/-- A write of CANCELCMD whose LEVEL is `n`. -/
def State.cancelcmd (s : State) (n : Nat) : State :=
  if field s.pins.value 0 3 = n then s.writeCancelcmd s.pins.port s.pins.value else s

def execCancelcmdStrand (s : State) : Result := .next (s.cancelcmd 0)
def execCancelcmdLaunch (s : State) : Result := .next (s.cancelcmd 1)
def execCancelcmdGraph (s : State) : Result := .next (s.cancelcmd 2)
def execCancelcmdPhase (s : State) : Result := .next (s.cancelcmd 3)
def execCancelcmdJob (s : State) : Result := .next (s.cancelcmd 4)

/-! ### Entries (R57 to R60) -/

/-- The next entry that the dealer takes is a NOP, or one whose KIND is not defined or cannot be read. -/
def execNopTake (s : State) : Result :=
  .next (match s.nextTake s.pins.port with
    | some (q, x) =>
      let k := s.headKind s.pins.port x
      if k = 0 || 4 < k then s.takeEntry s.pins.port q x else s
    | none => s)

def execLaunchTake (s : State) : Result := .next (s.take s.pins.port [1])
def execWaitTake (s : State) : Result := .next (s.take s.pins.port [2])
def execSignalTake (s : State) : Result := .next (s.take s.pins.port [3])
def execPhaseTake (s : State) : Result := .next (s.take s.pins.port [4])

/-- The taken entry of queue q retires when it may (R58); entries that a cancel covers follow it (R64). -/
def State.retire (s : State) (v q kind : Nat) : State :=
  let x := s.queue v q
  match x.taken with
  | none => s
  | some t =>
    if t.kind ≠ kind then s
    else if x.span.isSome then s.voidSpan v q
    else if s.vdEn v && s.mayRetire v q t then s.retireTaken v q none
    else s

/-- Queue `pins.addr`. -/
def execWaitRetire (s : State) : Result := .next (s.retire s.pins.port s.pins.addr 2)
def execSignalRetire (s : State) : Result := .next (s.retire s.pins.port s.pins.addr 3)

/-- A PHASE that retires is a checkpoint when checkpoints are on (R219). -/
def execPhaseRetire (s : State) : Result :=
  let v := s.pins.port
  let s' := s.retire v s.pins.addr 4
  let gone := (s.queue v s.pins.addr).taken.isSome && (s'.queue v s.pins.addr).taken.isNone
  .next (if gone then s'.takeCheckpoint v else s')

/-! ### Launches and strands (R60, R62, R63) -/

/-- The launch of key `pins.value` becomes eligible, or is retired because one of its dependences has reached its threshold with CAN
(R60). -/
def State.launchEligible (s : State) (key : Nat) : State :=
  match s.launchOf key with
  | none => s
  | some l =>
    if l.state = .eligible || !s.vdEn l.vd then s
    else if s.depsCan l then s.retireLaunch { l with cancelled := widerLevel l.cancelled .launch }
    else if s.depsMet l then s.setLaunch { l with state := .eligible }
    else s

def execLaunchEligible (s : State) : Result := .next (s.launchEligible s.pins.value)

def execStrandStart (s : State) : Result := .next (s.startStrand s.pins.port)

/-- The launch of key `pins.value` retires. -/
def execLaunchRetire (s : State) : Result :=
  .next (match s.launchOf s.pins.value with
    | some l => if s.launchDone l then s.retireLaunch l else s
    | none => s)

/-- The strand of image index `pins.addr`, past EXIT or a cancel, ends. -/
def execStrandEnd (s : State) : Result :=
  .next (s.asStrand (fun k => k.is s.pins.port s.pins.addr && k.status == .ending && !k.muted && k.pend.isEmpty) State.tryEnd)

/-! ### Frames (R75, R76, R78) -/

/-- The numbers of the arbiters. -/
def arbiterNums : List Nat :=
  [0] ++ (List.range 256).map (fun i => 1024 + i) ++ (List.range 768).map (fun i => 2048 + i) ++
  (List.range 64).map (fun i => 3072 + i) ++ (List.range 512).map (fun i => 4096 + i) ++ (List.range 18).map fun i => 5120 + i

/-- RATE of device v at an arbiter: VDBUDGET for the dispatch bucket (R75). -/
def State.rateAt (s : State) (num v : Nat) : Nat :=
  let r := fun o => field (s.regN (Reg.rates v + o)) 0 32
  if num = 0 then field (s.regN (Reg.vdev v + 8)) 0 32
  else if num < 2048 then r 0 else if num < 3072 then r 8 else if num < 4096 then r 0x10 else if num < 5120 then r 0x18 else r 0x20

def State.depth (s : State) (v : Nat) : Nat :=
  let d := field (s.regN (Reg.rates v + 0x28)) 0 3
  if d = 0 then 1 else if 4 < d then 4 else d

/-- Refills one bucket; what it had lent returns. -/
def State.refill (s : State) (num v : Nat) : State :=
  let k := 64 * num + v
  let r := s.rateAt num v
  let b := Assoc.get Bucket.zero k s.buckets
  { s with buckets := Assoc.put Bucket.zero k ⟨min (b.bal + r) (s.depth v * r), 0, r⟩ s.buckets }

/-- Cycle 0 of a frame: every bucket is refilled; the trace writer has had its slots (R74). -/
def execFrameStart (s : State) : Result :=
  .next (if s.now % 4096 ≠ 0 then s
    else (arbiterNums.foldl (fun s n => (List.range 64).foldl (fun s v => s.refill n v) s) s).collectTrace)

/-- A device has strands that issue, or an eligible launch (R76). -/
def State.wantsDispatch (s : State) (v : Nat) : Bool :=
  (s.strands.any fun k => k.vd == v && k.onCu && k.runs && k.wait == .none) ||
  (s.pendingSet v).any fun l => l.state == .eligible && !l.held

/-- Device v has a request waiting at an arbiter: for the dispatch bucket, a bellows and a UALink port the machine knows; at the others,
where the model keeps no request waiting, bit v of `pins.value` says so. -/
def State.waitsAt (s : State) (num v : Nat) : Bool :=
  if num = 0 then s.wantsDispatch v
  else if 5120 ≤ num then s.sendq.any fun r => r.who.vd == v && portFor s.upPorts (r.addr / 128) == some (num - 5120)
  else if 4096 ≤ num then s.xfers.any fun x => x.vd == v && x.cu == num - 4096 && !x.finished && !x.cut && !s.heldBy x.who
  else s.pins.value.testBit v

/-- Cycle 2,048: at arbiter `pins.addr` the devices without a waiting request lend. -/
def execLendingPoint (s : State) : Result :=
  let num := s.pins.addr
  .next (if s.now % 4096 ≠ 2048 || !arbiterNums.contains num then s
    else (List.range 64).foldl (fun s v =>
      let b := Assoc.get Bucket.zero (64 * num + v) s.buckets
      if s.waitsAt num v then s
      else { s with buckets := Assoc.put Bucket.zero (64 * num + v) { b with lent := min b.bal b.rate } s.buckets }) s)

/-- Every 16 cycles each strand slot that device `pins.port` holds costs one unit. -/
def execDispatchBucketCharge (s : State) : Result :=
  let v := s.pins.port
  .next (if s.now % 16 ≠ 0 || 64 ≤ v then s
    else (List.range (s.strands.filter fun k => k.vd == v && k.onCu && !k.muted).length).foldl (fun s _ => s.charge .dispatch v 1) s)

end Sys2Proof.Machine
end

