-- ==== Sys2Proof/Machine/EvStrand.lean ====
section
/-! DEFINITION. The events of strands (spec 04, 05, 08, 13, 15, 16): lanes, convoys, squashes, images, traps and fault records,
asynchronous faults, kills, transfers, the ends of waits. `pins.port` names the device of a strand and `pins.addr` its image
index, unless a docstring says otherwise. -/

namespace Sys2Proof.Machine

/-- Acts as the strand that the pins name, where it satisfies `p`. -/
def State.atStrand (s : State) (p : Strand → Bool) (f : State → State) : State :=
  s.asStrand (fun k => k.is s.pins.port s.pins.addr && p k) f

/-- A strand whose vector stream may go on: resident, running, not muted. -/
def Strand.flows (k : Strand) : Bool := k.runs && k.onCu

/-- The convoy at the head of the pending items. -/
def Strand.headConvoy (k : Strand) : Option Convoy :=
  match k.pend with
  | p :: _ => (match p.item with
    | .convoy c => some c
    | .held _ _ _ => .none)
  | [] => .none

/-! ### Lanes (R70, R71) -/

/-- The vector unit reaches the SETVL at the head. -/
def execLaneRenegotiation (s : State) : Result :=
  .next (s.atStrand Strand.flows fun s =>
    match s.me.headConvoy with
    | some c => if c.isSetvl && !c.started then s.vecTurn else s
    | none => s)

/-- The lane FIFO of CU `pins.port` is served in arrival order, until its head must wait (R71). -/
def execLaneFifoService (s : State) : Result := .next (s.serveFifo s.pins.port 8)

/-! ### Convoys and held operations (R87, R89) -/

/-- The convoy at the head starts: it takes its queue entries. An armed breakpoint at it stops the strand first (R209). -/
def execConvoyStart (s : State) : Result :=
  .next (s.atStrand Strand.flows fun s =>
    match s.me.headConvoy with
    | some c =>
      if c.isSetvl || c.started || !s.dispatchable s.me.vd then s
      else if c.restart.isNone && !c.skip && s.brkAt c.pc then s.vecTurn
      else if (s.me.blocks c).isNone then s.startHead c
      else s
    | none => s)

/-- The started convoy at the head completes, or stops precisely. -/
def execConvoyRetire (s : State) : Result :=
  .next (s.atStrand Strand.flows fun s => if s.headStarted then s.vecTurn else s)

/-- The held operation at the head takes effect: every older convoy has completed. -/
def execHeldOperationRelease (s : State) : Result :=
  .next (s.atStrand Strand.flows fun s => if s.me.headConvoy.isNone then s.vecTurn else s)

/-! ### Squash (R88, R174) -/

/-- `ok` false: the oldest started convoy needs more time. -/
def execSquash (s : State) : Result :=
  .next (s.atStrand (fun k => k.squashing.isNone) fun s => if s.maySquash then s.squash s.pins.ok else s)

/-- The squash has waited 2,048 cycles for the oldest started convoy; what is on its way to memory still comes home. -/
def execSquashDeadline (s : State) : Result :=
  .next (s.atStrand (fun k => k.squashing.isSome) fun s =>
    if s.me.squashing.getD s.now + 2048 ≤ s.now && !s.inFlight then s.finishSquash else s)

/-! ### QDEAD (R95) -/

/-- The queue that blocks the convoy at the head, from 0 to 7. -/
def Strand.blockedOn (k : Strand) : Option Nat :=
  match k.headConvoy with
  | some c => (match k.blocks c with
    | some (.entry q) => some (4 + q.toNat)
    | some (.room q) => some q.toNat
    | _ => .none)
  | .none => .none

/-- The vector unit raises QDEAD at the head of the blocked convoy; a convoy that had stopped before keeps its restart
vector. -/
def State.vectorDead (s : State) : State :=
  match s.me.pend, s.me.blockedOn with
  | p :: _, some q =>
    (match p.item with
     | .convoy c =>
       let st := stopAt c.pc .qdead (BitVec.ofNat 64 q)
       (match c.restart with
        | some r =>
          (s.onMe fun k => { k with cap := some (capOf c) }).stopFrom p.seq p.snap
            { st with rstop := true, ixr := r.ixr, word := r.word } (esvOf r.ridx r.grant)
        | none => s.stopFrom p.seq p.snap st (esvOutside s.me.grant))
     | .held _ _ _ => s)
  | _, _ => s

/-- The vector unit has been blocked for QTIMEO. -/
def State.vectorExpired (s : State) : Bool :=
  match s.me.vwait with
  | some (t, q) => s.qDead t q && s.me.blockedOn.isSome
  | none => false

/-- The queue that the chanter is blocked on, from 0 to 7: one that has an entry, or room, since then blocks it no more (R286). -/
def Strand.chanterBlockedOn (k : Strand) : Option Nat :=
  match k.wait with
  | .queuePop q => if (k.fromQ q).isEmpty then some q.toNat else .none
  | .queuePush q => if k.pushFits q then .none else some (4 + q.toNat)
  | _ => .none

/-- The convoy is older than the word the chanter is blocked at, so that it goes first. -/
def State.queueDead (s : State) : State :=
  if s.vectorExpired then s.vectorDead
  else match s.me.chanterBlockedOn with
    | some q => if s.qDead s.me.since s.me.ch.qtimeo then s.trapHere .qdead (BitVec.ofNat 64 q) else s
    | none => s

def execQdeadTimeout (s : State) : Result := .next (s.atStrand Strand.flows State.queueDead)

/-! ### Register lines (R98) -/

/-- The kill of a context with KILLSTAT (R181): refused with WRAP, or begun. -/
def State.writeCtxkill (s : State) (c : Nat) : State :=
  if (s.reg Reg.killstat).getLsbD 31 then s
  else if s.killWraps c then s.setReg Reg.killstat (BitVec.ofNat 64 (2 ^ 30 + c))
  else (s.kill c).setReg Reg.killstat (BitVec.ofNat 64 (2 ^ 31 + c))

/-- Register line `pins.count` is filled from the image; a poisoned line kills the context, one of a critical stack is waited for. -/
def execRegisterLineFill (s : State) : Result :=
  let i := s.pins.count
  .next (match s.strands.find? fun k => k.is s.pins.port s.pins.addr && k.onCu && k.absent.contains i with
    | some k =>
      let a := s.imgAddr k.vd k.imgidx + lineOff i
      if (linesAt a 256).any fun l => s.lineWaits 68 l then s
      else if (linesAt a 256).any fun l => s.poisoned l then s.killFor k.ctx
      else s.atStrand (fun k => k.onCu) fun s => (s.fetched a 256).fillLine i
    | none => s)

/-! ### Replay queues (R113) -/

/-- A waiting request may be released: its stack has cooled, or its lease is no longer revoking. A moving one goes with REL. -/
def State.mayGo (s : State) (w : Waiting) : Bool :=
  match w.why with
  | .critical => !s.heldByHeat w
  | .revoking => Lease.state (s.borrower w.lease) != 2
  | .moving => false

/-- The waiting requests of an old incarnation that satisfy `p` never perform (R182). -/
def State.dropStaleWaits (s : State) (p : Waiting → Bool) : State :=
  let old := fun w => p w && s.staleWho w.who
  (s.replay.filter old).foldl (fun s w => s.dropStale w.wr) { s with replay := s.replay.filter fun w => !old w }

/-- The slice `pins.port` releases its requests that may go on, which then translate again, and the waiting parts of merges. -/
def execReplayRelease (s : State) : Result :=
  let here := fun (w : Waiting) => homeSlice w.line == s.pins.port
  let t := (s.dropStaleWaits here).letGo fun w => here w && s.mayGo w
  .next ((t.partq.filter fun w => w.n != 0 && homeSlice w.line == s.pins.port).foldl State.retryPart t)

/-! ### Traps and fault records (R167, R173) -/

/-- A held trap takes effect once every older convoy has completed. -/
def execTrapTaken (s : State) : Result :=
  .next (s.atStrand Strand.flows fun s =>
    match s.me.pend, s.me.trap with
    | [], some st => s.takeStop st (esvOutside s.me.grant)
    | _, _ => s)

/-- The oldest record of device `pins.port` that waits for room is written. -/
def execFaultRecordPost (s : State) : Result :=
  let v := s.pins.port
  .next (match pull (fun r => r.vd == v) s.posts with
    | some (r, l) => if s.fqRoom v then ({ s with posts := l } : State).writeRecord r else s
    | none => s)

/-- FQRES takes x (R173): the parked strand of the current incarnation goes on where it stands. -/
def State.writeFqres (s : State) (x : Nat) : State :=
  let c := field x 32 13
  let i := field x 16 12
  if !x.testBit 0 then s
  else s.asStrand (fun k => k.ctx == c && k.imgidx == i && k.incn == s.curIncn c && (k.status == .parked || k.status == .debug)) fun s =>
    s.onMe fun k =>
      let watch : Bool := match k.keep with
        | some st => st.cause == .watch
        | none => false
      { k with status := .running, resume := if k.skipBrk then none else k.keep, keep := none, skipBrk := watch }

def execFqresWrite (s : State) : Result := .next (s.writeFqres s.pins.value)

/-! ### Saves, landings and restores (R175 to R179, R375) -/

/-- The copier saves a muted strand, in its own cycles; `ok` false is an uncorrectable error, which kills the context and leaves the
record undefined (R176). -/
def execContextSave (s : State) : Result :=
  .next (match s.strands.find? fun k => k.is s.pins.port s.pins.addr with
    | some k =>
      let a := s.imgAddr k.vd k.imgidx
      if !s.maySave k || !s.copierMay a k.imgSpan true || s.copierWaits a k.imgSpan then s
      else if s.pins.ok then s.atStrand (fun _ => true) State.saveStrand
      else if s.killWraps k.ctx then s.killFor k.ctx
      else (s.killFor k.ctx).makeFog a (a + k.imgSpan)
    | none => s)

/-- A CU share of CU `pins.port` that no strand there uses is saved: that of CU index `pins.count` of device `pins.value` (R375). -/
def execCuShareSave (s : State) : Result :=
  .next (match (s.idleShares s.pins.port).find? fun h => h.of s.pins.value (some s.pins.count) with
    | some h =>
      let a := s.cuImgAddr h.vd h.idx
      if s.copierMay a (1024 * h.kib) true && !s.copierWaits a (1024 * h.kib) then s.saveCuShare s.pins.port h else s
    | none => s)

/-- The strand of a transfer, while it is muted. -/
def State.mutedOf (s : State) (x : Xfer) : Option Strand := (s.strandOf x).bind fun k => if k.muted then some k else none

/-- A beat of transfer `pins.count` lands for a muted strand: in its share while that is in SRAM, else in its image, for which it waits
while a stack of it is critical (R177). -/
def execDivertedLanding (s : State) : Result :=
  .next (match s.xfers[s.pins.count]? with
    | some x => (match s.mutedOf x with
      | some k =>
        if k.saved && !s.crit.isEmpty && (linesAt (s.imgAddr k.vd k.imgidx) k.imgSpan).any fun l => s.lineWaits 68 l then s else s.beat x
      | none => s)
    | none => s)

/-- The copier can bring back the CU share of a strand on a CU, or it is there (R375). -/
def State.shareBack (s : State) (k : Strand) (cu : Nat) : Bool :=
  match k.cuidx with
  | some u =>
    let a := s.cuImgAddr k.vd u
    s.shareResident k cu || s.copierMay a (1024 * k.cushare) false && !s.copierWaits a (1024 * k.cushare)
  | none => true

/-- The strand is back: a checkpoint has no more to do with it. -/
def State.leaveCkpt (s : State) (k : Strand) : State :=
  let c := s.ckpt k.vd
  s.setCkpt k.vd { c with held := c.held.filter fun i => i != k.imgidx }

/-- A line of the eager state or of a share that the restore of a strand on a CU reads is poisoned. -/
def State.badImage (s : State) (k : Strand) (cu : Nat) : Bool :=
  ((linesAt (s.imgAddr k.vd k.imgidx + 0x20000) (k.imgSpan - 0x20000)).any fun l => s.poisoned l) || match k.cuidx with
    | some u => !s.shareResident k cu && (linesAt (s.cuImgAddr k.vd u) (1024 * k.cushare)).any fun l => s.poisoned l
    | none => false

/-- The dealer resumes a muted strand, while no checkpoint of its device is being taken: on CU `pins.value` from its image, in the
copier's cycles, or where it is when it was not saved. A poisoned line kills the context, as one that a fill meets does (log entry 56). -/
def execRestore (s : State) : Result :=
  let cu := s.pins.value
  .next (s.atStrand (fun k => k.muted && k.amo.isNone && !s.ckBusy k.vd) fun s =>
    let k := s.me
    if !k.saved then (if s.shareBack k k.cu then (s.unmute).leaveCkpt k else s)
    else
      let split := match s.launchOf k.launch with
        | some l => l.card.split
        | none => 0
      let a := s.imgAddr k.vd k.imgidx
      if s.mayRestore k cu split && s.copierMay a k.imgSpan false && !s.copierWaits a k.imgSpan && s.shareBack k cu then
        if s.badImage k cu then s.killFor k.ctx else (s.restore cu split).leaveCkpt k
      else s)

/-! ### Asynchronous faults (R180) -/

/-- The oldest record is delivered; the last one carries OVF when the queue had dropped records. A stop inside a convoy that
waits to be resumed keeps its restart vector. -/
def State.deliverAsync (s : State) : State :=
  match s.me.async with
  | [] => s
  | w :: l =>
    let ovf := l.isEmpty && s.me.asyncOvf
    let info := if ovf then w ||| 0x40000000 else w
    let pc := s.me.headPc
    let s := s.onMe fun k => { k with async := l, asyncOvf := k.asyncOvf && !ovf }
    let st := stopAt pc .asyncfault info
    match s.me.resume with
    | some r =>
      if r.rstop && r.pc == pc then s.takeStop { st with rstop := true, ixr := r.ixr, word := r.word } s.me.ch.esv
      else s.takeStop st (esvOutside s.me.grant)
    | none => s.takeStop st (esvOutside s.me.grant)

/-- A record may be delivered: no handler is active, and every older word has taken effect. -/
def State.asyncReady (s : State) : Bool :=
  !s.me.async.isEmpty && !s.me.ch.tcause.getLsbD 31 && s.me.pend.isEmpty && s.me.trap.isNone

def execAsyncfaultDelivery (s : State) : Result :=
  .next (s.atStrand Strand.flows fun s => if s.asyncReady then s.deliverAsync else s)

/-! ### Kills and stale traffic (R181, R182) -/

def execCtxkillWrite (s : State) : Result := .next (s.writeCtxkill (s.pins.value % 8192))

/-- Every step of the kill is done: BUSY clears. A request that is on its way to a lender may still perform there, so that its answer
is waited for (R182). -/
def execKillComplete (s : State) : Result :=
  let c := field (s.regN Reg.killstat) 0 13
  let away := s.ports.any fun p => p.2.any fun r => r.who.tagged c fun i => i != s.curIncn c
  .next (if (s.reg Reg.killstat).getLsbD 31 && !away then s.setRegField Reg.killstat 31 1 0 else s)

/-- Waiting request `pins.count` meets its target: one of an old incarnation is dropped, a read of it with a stale nack (R182). -/
def execRequestAtTarget (s : State) : Result :=
  .next (match s.replay[s.pins.count]? with
    | some w => if s.staleWho w.who then ({ s with replay := s.replay.eraseIdx s.pins.count } : State).dropStale w.wr else s
    | none => s)

/-! ### Transfers (R350 to R352) -/

/-- Beat of transfer `pins.count`, in launch order. -/
def execCopyBeat (s : State) : Result :=
  .next (match s.xfers[s.pins.count]? with
    | some x => if x.regs.rsh || (s.mutedOf x).isSome then s else s.beat x
    | none => s)

/-- A beat bound for another strand's share. -/
def execRemoteShareBeat (s : State) : Result :=
  .next (match s.xfers[s.pins.count]? with
    | some x => if x.regs.rsh then s.beat x else s
    | none => s)

def execChunkLanded (s : State) : Result :=
  .next (match s.xfers[s.pins.count]? with
    | some x => s.chunkLanded x
    | none => s)

/-- A completion that a flag word or a chunk mask shows is recorded in the order log (R220). -/
def execTransferComplete (s : State) : Result :=
  .next (match s.xfers[s.pins.count]? with
    | some x =>
      let s' := s.completeXfer x
      if (x.regs.flagen || x.regs.cmask != 0) && s'.xfers.length < s.xfers.length then
        s'.asStrand (fun k => !x.orphan && k.is x.vd x.imgidx) fun s => s.orderLog (.copy x.id)
      else s'
    | none => s)

/-! ### Waits that end (R229, R284, R332, R333, R353) -/

/-- The state a meaning answers. -/
def after (r : Result) (s : State) : State :=
  match r with
  | .next t => t
  | .fault _ => s
  | .refused _ => s

/-- A word that took effect: with DBGCTL.STEP the strand stops once it has retired (R209). -/
def State.noteStep (before : Nat) (s : State) : State :=
  if s.me.dbgctl.getLsbD 0 && s.me.seq != before && s.me.status == .running then s.onMe fun k => { k with stepping := true } else s

/-- The strand's word is tried again, and may end its wait. -/
def State.retryWord (s : State) (r : Result) : State := (after r s).noteStep s.me.seq

/-- The word that the strand stands on. -/
def State.wordHere (s : State) : Option Instr :=
  let w := match s.me.wordBegun with
    | some w => some w
    | none => (match s.fetchAt s.me.ch.pc with
      | .ok _ w => some w
      | _ => none)
  w.bind fun w => match decode w with
    | .ok i => some i
    | .error _ => none

/-- CNTWAIT sees its threshold. -/
def execCntwaitWake (s : State) : Result :=
  .next (s.atStrand (fun k => k.flows && k.wait == .counter) fun s =>
    match s.wordHere with
    | some (.cntwait d a b) =>
      let c := s.counter (s.me.cntbase.toNat + ((s.sreg a).extractLsb' 0 16).toNat)
      if c.reached ((s.sreg b).extractLsb' 0 32) then s.retryWord (execCntwait d a b s) else s
    | _ => s)

/-- CNTWAIT has waited WTIMEO. -/
def execCntwaitTimeout (s : State) : Result :=
  .next (s.atStrand (fun k => k.flows && k.wait == .counter) fun s =>
    match s.wordHere with
    | some (.cntwait d a b) => if s.timedOut .counter then s.retryWord (execCntwait d a b s) else s
    | _ => s)

/-- WAITA reads again (R332): a value that differs ends the wait, and so does a fault; through a lease the lender is asked. -/
def execWaitaWake (s : State) : Result :=
  .next (s.atStrand (fun k => k.flows && k.wait == .address) fun s =>
    match s.wordHere with
    | some (.waita t d m off b) =>
      let r := refOf m.sl (s.sreg m.a) off.toInt
      (match s.watchRead r (amoBytes t) with
       | .ok u (y, l) =>
         -- an equal value that a lender has answered is taken: the lender is asked again
         if ofLe y ≠ (s.sreg b).toNat % 2 ^ (8 * amoBytes t) then s.retryWord (execWaita t d m off b s)
         else if l.isPeer then u else s
       | .wait u => s.keepWait u
       | .fault _ _ => s.retryWord (execWaita t d m off b s))
    | _ => s)

/-- WAITA has waited WTIMEO. -/
def execWaitaTimeout (s : State) : Result :=
  .next (s.atStrand (fun k => k.flows && k.wait == .address) fun s =>
    match s.wordHere with
    | some (.waita t d m off b) => if s.timedOut .address then s.retryWord (execWaita t d m off b s) else s
    | _ => s)

/-- The id of the transfer that a CPWAIT of the strand waits for. -/
def Strand.copyWait (k : Strand) : Option (BitVec 16) :=
  match k.wait with
  | .copyId id => some id
  | _ => .none

/-- The transfer of a waiting CPWAIT has completed. -/
def execCpwaitEnd (s : State) : Result :=
  .next (s.atStrand (fun k => k.flows && k.copyWait.isSome) fun s =>
    match s.wordHere with
    | some (.cpwait d a) =>
      if s.me.wokenHere.isSome || (s.outstanding (s.me.copyWait.getD 0)).isNone then s.retryWord (execCpwait d a s) else s
    | _ => s)

/-- CPWAIT has waited WTIMEO. -/
def execCpwaitTimeout (s : State) : Result :=
  .next (s.atStrand (fun k => k.flows && k.copyWait.isSome) fun s =>
    match s.wordHere with
    | some (.cpwait d a) => if s.timedOut (.copyId (s.me.copyWait.getD 0)) then s.retryWord (execCpwait d a s) else s
    | _ => s)

/-! ### Waits of muted strands (R152, R333) -/

/-- The n bytes that a muted strand watches: at the home slice, or where its share or its CU share stands. Those of a lender are not
seen from here (log entry 102). -/
def State.watchBytes (s : State) (k : Strand) (l : Loc) (n : Nat) : Option (List Byte) :=
  match l with
  | .mem a => some (s.homeBytes a n)
  | .share o => some ((List.range n).map fun i => s.shareByte k (o + i))
  | .cushare o => (s.cuShareAt k.vd k.cuidx).map fun x => (List.range n).map fun i =>
      if x.2.resident then Assoc.get byteDefault (o + i) x.2.bytes else s.homeByte (s.cuImgAddr k.vd x.2.idx + o + i)
  | .peer _ _ => none

/-- The value that ends the wait of a muted strand, once it is there (R152, R333). -/
def State.watchEnds (s : State) (k : Strand) : Watch → Option Word
  | .address l t cmp => (s.watchBytes k l (amoBytes t)).bind fun b =>
    if ofLe b = cmp.toNat % 2 ^ (8 * amoBytes t) then none else some (amoWiden t (ofLe b))
  | .counter i thr => if (s.counter i).reached thr then some (s.counter i).word else none

/-- A muted strand whose wait had begun keeps the value that ends it (R152, R333). -/
def State.noteWatch (s : State) (k : Strand) : Strand :=
  if k.muted && k.armed && k.woken.isNone then
    match k.watching.bind (s.watchEnds k) with
    | some x => { k with woken := some (k.ch.pc, x) }
    | .none => k
  else k

/-- Muted strands look at what they wait for. -/
def State.noteWatches (s : State) : State := s.mapStrands s.noteWatch

end Sys2Proof.Machine
end

