-- ==== Sys2Proof/Machine/EvMemory.lean ====
section
/-! DEFINITION. The events of migration engines, merges, access tables, leases and invalidations (spec 06), register writes
(R5) and the accesses of application cores (R153). -/

namespace Sys2Proof.Machine

/-! ### Migration engines (R114 to R116). `pins.port` is the engine. -/

def State.migBusy (s : State) (d : Nat) : Bool := (s.reg (Reg.mig d + 0x20)).getLsbD 0
def State.migLsrc (s : State) (d : Nat) : Bool := (s.reg (Reg.mig d + 0x18)).getLsbD 2
def State.migLease (s : State) (d : Nat) : Nat := field (s.regN (Reg.mig d + 0x18)) 8 8
def State.migLen (s : State) (d : Nat) : Nat := s.regN (Reg.mig d + 0x10)
def State.migDst (s : State) (d : Nat) : Nat := s.regN (Reg.mig d + 0x08)

/-- Where the source starts: with LSRC an address of the lender. -/
def State.migSrc (s : State) (d : Nat) : Nat :=
  s.regN (Reg.mig d) + if s.migLsrc d then Lease.base (s.borrower (s.migLease d)) else 0

/-- A merge part that its slice has not taken translates again (R111, R114): where its line lies now; with a fault of its own it ends,
as an asynchronous fault of its strand (R180). -/
def State.translatePart (s : State) (w : PartWait) : State :=
  let d := s.memDesc w.slottb w.slot
  let z := kindSize w.part.kind
  let on := (List.range (128 / z)).filter fun e => w.part.mask.getLsbD (z * e)
  let chk := fun (e : Nat) => s.route w.vd (0, 0) wrOnly ⟨w.slot, true, w.off + (z * e : Nat)⟩ d z false
  let drop := { s with partq := s.partq.erase w }
  match on.findSome? fun e => match chk e with
    | .fault c => some c
    | .ok (.peer _ _) => some .slotbad
    | _ => none with
  | some c => (match s.strands.find? fun k => k.is w.vd w.imgidx with
    | some k => drop.pushAsync k (asyncInfo 0 c 0)
    | none => drop)
  | none => { s with partq := s.partq.map fun o => if o = w then { o with line := ((d.base : Int) + w.off).toNat / 128 } else o }

/-- REL: ignored unless DONE = 1 and RELD = 0. Every request that waits on an address of the source is released: it translates again. -/
def State.migRel (s : State) (d : Nat) : State :=
  let st := s.reg (Reg.mig d + 0x20)
  let a := s.migSrc d
  let n := s.migLen d
  let inS := fun line => decide (a < 128 * line + 128) && decide (128 * line < a + n)
  if st.getLsbD 1 && !st.getLsbD 2 then
    let s := s.setReg (Reg.mig d + 0x20) (st ||| 4)
    let s := (s.partq.filter fun w => w.at' != .way && inS w.line).foldl State.translatePart s
    s.letGo fun w => inS w.line
  else s

/-- GO: ignored while BUSY = 1; it clears the other bits of MIGSTAT. -/
def State.migGo (s : State) (d x : Nat) : State :=
  if s.migBusy d then s
  else ({ s with migs := Assoc.put 0 d 0 s.migs } : State).setReg (Reg.mig d + 0x18) (BitVec.ofNat 64 (x.land 0xFF04)) |>.setReg
    (Reg.mig d + 0x20) 1

/-- MIGCTL takes x. -/
def State.writeMigctl (s : State) (d x : Nat) : State :=
  let s := if x.testBit 1 then s.migRel d else s
  if x.testBit 0 then s.migGo d x else s

def execMigctlGo (s : State) : Result :=
  .next (if s.pins.port < 4 && s.pins.value.testBit 0 then s.writeMigctl s.pins.port s.pins.value else s)

def execMigctlRel (s : State) : Result :=
  .next (if s.pins.port < 4 && s.pins.value.testBit 1 then s.writeMigctl s.pins.port s.pins.value else s)

/-- An engine reaches an address: device memory, a CXL window or a host window, within its access table. -/
def State.engineMay (s : State) (m a n : Nat) (wr : Bool) : Bool :=
  s.listed a && s.listed (a + n - 1) && s.admits m a n wr

/-- The engine as a requester. -/
def migWho (d : Nat) : Who := ⟨.mig d, 64 + d, 0, 0, 0⟩

/-- A source line of a copy: its bytes, none where a lender has answered with poison, and whether it is poisoned; or it is not there
yet; or it is refused. -/
inductive MigRead where
  | line (bytes : Option (List Byte)) (bad : Bool) | wait | refused
  deriving DecidableEq, Repr

/-- Reads a source line at `a`: with LSRC from the lender of the lease. -/
def State.migRead (s : State) (d a : Nat) : State × MigRead :=
  if s.migLsrc d then
    let i := s.migLease d
    let e := s.borrower i
    if Lease.state e = 0 || Lease.state e = 3 || !Lease.canRead e || Lease.base e + Lease.len e < a + 128 then (s, .refused)
    else match s.askPeer (migWho d) i a (.read 128) with
      | (t, none) => (t, .wait)
      | (t, some ans) => (t, match ans with
        | .data b => .line (some b) false
        | .poison => .line none true
        | .error | .down _ => .refused)
  else if s.engineMay (64 + d) a 128 false then
    let (t, b) := s.ioRead (64 + d) a 128
    (t.hostGet a 128, .line (some b) (s.poisoned (a / 128)))
  else (s, .refused)

/-- Where the next poisoned destination line is listed, none where it is not (R116). -/
def State.migListAt (s : State) (d : Nat) : Option Nat :=
  let n := field (s.regN (Reg.mig d + 0x20)) 16 16
  let l := s.regN (Reg.mig d + 0x30)
  if l ≠ 0 && n < 4096 then some (l + 8 * n) else none

/-- Notes a poisoned destination line (R116). -/
def State.migPoison (s : State) (d a : Nat) : State :=
  let n := field (s.regN (Reg.mig d + 0x20)) 16 16
  let t := s.setRegField (Reg.mig d + 0x20) 16 16 (min (n + 1) 0xFFFF)
  let t := if n = 0 then t.setReg (Reg.mig d + 0x28) (BitVec.ofNat 64 a) else t
  match s.migListAt d with
  | some l => (t.ioWrite (64 + d) l (leBytes 8 a) fun _ => true).hostPut l 8
  | none => t

/-- The engine waits for a critical stack, in the replay queue (R18, R19). -/
def State.migHot (s : State) (d : Nat) (l : List (Nat × Nat)) : Option Nat := l.findSome? fun x => s.hotLine (64 + d) x.1 x.2

/-- Copies the next line, with its poison: true, false where it is refused, none where it waits. -/
def State.migLine (s : State) (d : Nat) : State × Option Bool :=
  let p := Assoc.get 0 d s.migs
  let a := s.migSrc d + p
  let b := s.migDst d + p
  let note := (s.migListAt d).map fun l => (l, 8)
  let s := s.retryBy (migWho d)
  match s.migHot d ((if s.migLsrc d then [] else [(a, 128)]) ++ (b, 128) :: note.toList) with
  | some line => (s.enqueue ⟨line, .critical, migWho d, 0, 255, 0, 0, s.now, true, false, 0, 0⟩, none)
  | none =>
    match s.migRead d a with
    | (s, .refused) => (s, some false)
    | (s, .wait) => (s, none)
    | (s, .line bytes bad) =>
      if !s.engineMay (64 + d) b 128 true || (bad && note.any fun l => !s.engineMay (64 + d) l.1 8 true) then (s, some false)
      else
        let s := match bytes with
          | some x => s.ioWrite (64 + d) b x fun _ => true
          | none => s.makeFog b (b + 128)
        let s := (s.setPoison (b / 128) bad).hostPut b 128
        let s := if bad then s.migPoison d b else s
        ({ s with migs := Assoc.put 0 d (p + 128) s.migs }, some true)

/-- The copy ends: BUSY clears, DONE is set, with ERR where it stopped. -/
def State.migEnd (s : State) (d : Nat) (err : Bool) : State :=
  (s.setRegField (Reg.mig d + 0x20) 0 4 (if err then 0xA else 2))

/-- Copies up to n lines in increasing order; the copy ends after the last one or where one is refused. -/
def State.migRun (s : State) (d : Nat) : Nat → State
  | 0 => if s.migLen d ≤ Assoc.get 0 d s.migs then s.migEnd d false else s
  | n + 1 =>
    if s.migLen d ≤ Assoc.get 0 d s.migs then s.migEnd d false
    else if s.heldBy (migWho d) then s
    else match s.migLine d with
      | (s, some true) => s.migRun d n
      | (s, some false) => s.migEnd d true
      | (s, none) => s

/-- The running copy moves `pins.count` lines, or with 0 all that are left, as far as it need not wait. Overlap and a length that is no multiple of 128
stop it with ERR. -/
def execMigrationCopyEnd (s : State) : Result :=
  let d := s.pins.port
  .next (
    if 4 ≤ d || !s.migBusy d then s
    else
      let n := s.migLen d
      let overlap := !s.migLsrc d && overlaps (s.migSrc d) n (s.migDst d) n
      if overlap || n % 128 ≠ 0 then s.migEnd d true
      else s.migRun d (if s.pins.count = 0 then n / 128 else s.pins.count))

/-! ### Merges (R125 to R127) -/

/-- Ordered part `pins.count` of the parts under way arrives. -/
def execMergePartArrival (s : State) : Result :=
  .next (match s.partq[s.pins.count]? with
    | some w => if w.n = 0 then s else s.retryPart w
    | none => s)

/-- Unordered row `pins.count` of the parts under way arrives. -/
def execUnorderedMergeArrival (s : State) : Result :=
  .next (match s.partq[s.pins.count]? with
    | some w => if w.n = 0 then { (s.arrive w).1 with partq := s.partq.eraseIdx s.pins.count } else s
    | none => s)

/-- Open entry `pins.count` has been open for MRGTO cycles; 0 disables the timeout. -/
def execMergeTimeout (s : State) : Result :=
  let t := s.regN Reg.mrgto
  .next (match s.merges[s.pins.count]? with
    | some e =>
      if t ≠ 0 && t ≤ s.now - e.born then
        ((s.closeMerge e).countReg Reg.mrgtocnt 32).setReg Reg.mrgtoln (BitVec.ofNat 64 (128 * e.line))
      else s
    | none => s)

/-! ### Access tables (R132) -/

/-- The table of master m, at offset o. -/
def State.writeAccess (s : State) (m o x : Nat) : State :=
  let a := Reg.access m + o
  if 74 ≤ m then s
  else if o = 0 then s.setReg a (BitVec.ofNat 64 (x % 2 ^ 16))
  else if o = 0x10 || o = 0x20 || o = 0x30 || o = 0x40 then s.setReg a (BitVec.ofNat 64 (x.land 0xFFFFFFFFF000))
  else if o = 0x18 || o = 0x28 || o = 0x38 || o = 0x48 then s.setReg a (BitVec.ofNat 64 (x.land 0xC000FFFFFFFFFFFF))
  else s

/-- `pins.port` is the master, `pins.addr` the offset. -/
def execAccessTableWrite (s : State) : Result := .next (s.writeAccess s.pins.port s.pins.addr s.pins.value)

/-! ### Leases (R133 to R136) -/

/-- A field of word 0 of a lease entry. -/
def State.setLeaseState (s : State) (a x : Nat) : State := s.setRegField a 16 2 x

/-- Word o of lender entry i: STATE 3 reads as 0; revoking sends REVOKE. -/
def State.writeLender (s : State) (i o x : Nat) : State :=
  let a := Reg.lender i + o
  if 256 ≤ i then s
  else if o = 0 then
    let e := s.lender i
    let st := if field x 16 2 = 3 then 0 else field x 16 2
    let s := (s.setReg a (BitVec.ofNat 64 (x.land 0x00FFFFFF03000FFF))).setLeaseState a st
    let s := { s with revoked := s.revoked.filter fun r => r.1 != i || st == 2 }
    if st = 2 && Lease.state e ≠ 2 then
      { (s.say (.lease 2 i (field x 48 8) (field x 32 16))) with revoked := s.revoked ++ [(i, s.now)] }
    else s
  else if o = 8 || o = 16 then s.setReg a (BitVec.ofNat 64 (x % 2 ^ 48))
  else if o = 24 then s.setReg a (BitVec.ofNat 64 (x % 2 ^ 32))
  else s

/-- `pins.port` is the entry, `pins.addr` the offset of the word. -/
def execLenderEntryWrite (s : State) : Result := .next (s.writeLender s.pins.port s.pins.addr s.pins.value)

/-- Word o of borrower entry i: revoked releases its waiting requests, which translate again, and sends DONE. -/
def State.writeBorrower (s : State) (i o x : Nat) : State :=
  let a := Reg.borrower i + o
  if 256 ≤ i then s
  else if o = 0 then
    let was := Lease.state (s.borrower i)
    let s := s.setReg a (BitVec.ofNat 64 (x.land 0x00FFFFFF07030FFF))
    if field x 16 2 = 3 && was ≠ 3 then
      (s.letGo fun w => w.why == .revoking && w.lease == i).say (.lease 3 (field x 48 8) i (field x 32 16))
    else s
  else if o = 8 || o = 16 then s.setReg a (BitVec.ofNat 64 (x % 2 ^ 48))
  else s

def execBorrowerEntryWrite (s : State) : Result := .next (s.writeBorrower s.pins.port s.pins.addr s.pins.value)

/-- A lease message of a kind: LIDX, BIDX and LGEN of its 64 bytes. -/
def leaseMessage (b : List Byte) (kind : Nat) : Option (Nat × Nat × Nat) :=
  let f := fun o n => ofLe ((b.drop o).take n)
  if b.length = 64 && f 0 1 = kind then some (f 2 1, f 3 1, f 4 2) else none

/-- SETUP is posted to the kernel. -/
def execLeaseSetupMessage (s : State) : Result :=
  .next (match leaseMessage s.pins.bytes 1 with
    | some (l, b, g) => s.say (.setup l b g)
    | none => s)

/-- REVOKE: the matching entry becomes revoking; one that is already revoking or revoked ignores it (R136). -/
def execLeaseRevokeMessage (s : State) : Result :=
  .next (match leaseMessage s.pins.bytes 2 with
    | some (l, b, g) =>
      let e := s.borrower b
      if Lease.state e = 1 && Lease.idx e = l && Lease.lgen e = g then
        let s := s.setLeaseState (Reg.borrower b) 2
        { s with borrowq := s.borrowq ++ [b] }
      else s
    | none => s)

/-- An access under borrower entry i has been sent and not answered. -/
def State.leaseBusy (s : State) (i : Nat) : Bool := s.peerReqs.any fun r => r.entry == i

/-- The accesses already sent under borrower entry `pins.port` have completed: the kernel is told. -/
def execRevokeDrainDone (s : State) : Result :=
  let i := s.pins.port
  .next (if s.borrowq.contains i && !s.leaseBusy i then
      ({ s with borrowq := s.borrowq.filter fun j => j != i } : State).say (.notice false i)
    else s)

/-- DONE: the lender frees its entry and tells its kernel. -/
def execLeaseDoneMessage (s : State) : Result :=
  .next (match leaseMessage s.pins.bytes 3 with
    | some (l, b, g) =>
      let e := s.lender l
      if Lease.state e = 2 && Lease.idx e = b && Lease.lgen e = g then
        ({ s.setLeaseState (Reg.lender l) 0 with revoked := s.revoked.filter fun r => r.1 != l } : State).say (.notice true l)
      else s
    | none => s)

/-- Cycles in a microsecond of the 2.0 GHz core clock. -/
def usCycles : Nat := 2000

/-- No DONE has come for lender entry `pins.port` in REVTO. -/
def execRevtoExpiry (s : State) : Result :=
  let i := s.pins.port
  .next (match s.revoked.find? fun r => r.1 == i with
    | some (_, t) =>
      if Lease.revto (s.lender i) * usCycles ≤ s.now - t then
        { s.setLeaseState (Reg.lender i) 0 with revoked := s.revoked.filter fun r => r.1 != i }
      else s
    | none => s)

/-- A leased access arrives at the lender by UALink port `pins.port`: `pins.value` holds LGEN in [15:0], LIDX in [23:16], and above
them 0, or an atomic's operation number plus 1; `bytes` are a write's data, or an atomic's operand and compare value. -/
def execLeasedAccessArrival (s : State) : Result :=
  let p := s.pins
  let lease := some (field p.value 16 8, field p.value 0 16)
  .next (
    if p.value < 2 ^ 24 then s.forPeer p.addr (if p.bytes.isEmpty then .read p.count else wholeWrite p.bytes) lease
    else match atomicOf (p.value / 2 ^ 24 - 1) p.count p.addr p.bytes with
      | none => s.say .errorResponse
      | some op => s.forPeer p.addr op lease)

/-! ### Invalidations (R111, R263) -/

/-- The contexts that a SINVCMD word names. -/
def sinvNames (x : Word) (c : Nat) : Bool := x.getLsbD 63 || c == field x.toNat 32 13

/-- SINVCMD takes x: ignored while BUSY = 1; with no slot named it completes at once. -/
def State.writeSinvcmd (s : State) (x : Nat) : State :=
  if (s.reg Reg.sinvstat).getLsbD 0 || field x 8 8 < field x 0 8 then s
  else (s.setReg Reg.sinvcmd (BitVec.ofNat 64 x)).setReg Reg.sinvstat 1

def execSinvcmdWrite (s : State) : Result := .next (s.writeSinvcmd s.pins.value)

/-- Stores made by an older version leave the write-combining buffers; once both conditions of R111 hold for what SINVCMD names, no
version is kept, and BUSY clears. -/
def execSinvComplete (s : State) : Result :=
  let x := s.reg Reg.sinvcmd
  .next (
    if (s.reg Reg.sinvstat).getLsbD 0 then
      let s := s.flushContexts (sinvNames x)
      if s.usesVersion (sinvNames x) then s
      else (s.invalidate (sinvNames x) (field x.toNat 0 8) (field x.toNat 8 8)).setReg Reg.sinvstat 0
    else s)

/-! ### Register writes (R5) -/

/-- A register that stores the bits of a mask. -/
def State.store64 (s : State) (a m x : Nat) : State := s.setReg a (BitVec.ofNat 64 (x.land m))

def m16 : Nat := 0xFFFF
def m32 : Nat := 0xFFFFFFFF
def m48 : Nat := 0xFFFFFFFFFFFF
def m64 : Nat := 0xFFFFFFFFFFFFFFFF

/-- The boot and attestation blocks (R40, R43). -/
def State.writeBoot (s : State) (o x : Nat) : State :=
  let a := Reg.boot + o
  if o = 0x30 then (if x.testBit 0 then s.clearBoot else if x.testBit 1 then s.packageReset else s)
  else if o = 0x100 || o = 0x108 || o = 0x110 || o = 0x118 then s.store64 a m64 x
  else if o = 0x120 then s.store64 a m48 x
  else if o = 0x128 then (if x.testBit 0 then s.attGo else s)
  else s

/-- The block of stack k (R20). -/
def State.writeStack (s : State) (k o x : Nat) : State :=
  if 12 ≤ k then s
  else if o = 0x08 || o = 0x10 then s.store64 (Reg.stack k + o) m32 x
  else if o = 0x20 then s.writeStktherm k x
  else if o = 0x28 && k = 0 then s.writeThermwait x
  else s

/-- The block of UALink port p (R34). -/
def State.writeLink (s : State) (p o x : Nat) : State :=
  let a := Reg.link p + o
  if 18 ≤ p then s
  else if o = 0x08 || o = 0x10 then s.store64 a m32 x
  else if o = 0x18 || o = 0x20 then s.store64 a m16 x
  else if o = 0x28 then s.store64 a m16 (max 1 (x % 2 ^ 16))
  else if o = 0x30 then s.store64 a 0xFF (max 1 (x % 2 ^ 8))
  else s

/-- The block of partition p (R46, R80, R128); PCUMASKd is two words of 64 bits. -/
def State.writePartBlock (s : State) (p o x : Nat) : State :=
  if o < 0x40 && o % 8 = 0 then
    let d := o / 0x10
    let w := BitVec.ofNat 64 x
    s.writePcumask p d (if o % 0x10 = 0 then (s.pcumask p d).extractLsb' 64 64 ++ w else w ++ (s.pcumask p d).extractLsb' 0 64)
  else if o = 0x58 then s.writePlsport p (x % 2 ^ 64)
  else if o = 0x60 then s.writePowceil p x
  else if o = 0x68 then s.writePmbase p (x % 2 ^ 48)
  else s.writePart p o x

/-- The registers of contexts and kills (R52, R181, R263). -/
def State.writeCtx (s : State) (a x : Nat) : State :=
  if a = Reg.ctxtb then s.store64 a 0xFFFFFFFFFFE0 x
  else if a = Reg.ctxkill then s.writeCtxkill (x % 8192)
  else if a = Reg.rclmctx then s.store64 a 0x1FFF x
  else if a = Reg.stalecnt || a = Reg.orphcnt then s.store64 a m32 x
  else if a = Reg.privvd then s.store64 a m64 x
  else if a = Reg.sinvcmd then s.writeSinvcmd (x % 2 ^ 64)
  else s

/-- The block of migration engine d (R115). -/
def State.writeMig (s : State) (d o x : Nat) : State :=
  if 4 ≤ d then s
  else if o = 0 || o = 0x08 || o = 0x10 || o = 0x30 then s.store64 (Reg.mig d + o) m48 x
  else if o = 0x18 then s.writeMigctl d x
  else s

/-- The notify window of device v (R56). -/
def State.writeNotify (s : State) (v o x : Nat) : State :=
  if 64 ≤ v then s
  else if o < 0x800 then (if o % 8 = 0 then s.notify v (o / 8) (BitVec.ofNat 32 x) else s)
  else if o = 0x800 then s.writeCancelcmd v x
  else if o = 0x810 then { s with cntsel := Assoc.put 0 v (BitVec.ofNat 16 x) s.cntsel }
  else if o = 0x818 then s.writeCntdata v x
  else s

/-- The debug block of device v (R208). -/
def State.writeDbg (s : State) (v o x : Nat) : State :=
  let a := Reg.dbg v + o
  if 64 ≤ v then s
  else if o = 0 || o = 8 then s.store64 a 0xFFFFFFFFFFF9 x
  else if o = 0x10 || o = 0x18 then s.store64 a m48 x
  else if o = 0x20 then s.store64 a 0x3FF x
  else if o = 0x28 then s.store64 a m64 x
  else if o = 0x30 then s.writeDbgrel v x
  else if o = 0x38 then s.store64 a 0x1F x
  else s

/-- The trace block (R217). -/
def State.writeTrace (s : State) (o x : Nat) : State :=
  let a := Reg.trace + o
  if o = 0 then s.store64 a m48 x
  else if o = 0x08 then s.store64 a m16 x
  else if o = 0x10 then s.store64 a 0xFFFF000F x
  else if o = 0x18 then s.store64 a m64 x
  else if o = 0x20 || o = 0x28 then s.store64 a m32 x
  else if o = 0x30 then s.writeTrstat x
  else s

/-- The checkpoint block of device v (R218): the first checkpoint comes T after EN is set. -/
def State.writeCkpt (s : State) (v o x : Nat) : State :=
  let a := Reg.ckpt v + o
  if 64 ≤ v then s
  else if o = 0 then
    let s := if !s.ckOn v && x.testBit 0 then s.setCkpt v ⟨s.now, (s.ckpt v).held⟩ else s
    s.store64 a 0xFFFF0001 x
  else if o = 0x08 || o = 0x10 then s.store64 a m48 x
  else if o = 0x18 then s.store64 a m32 x
  else s

/-- The fault queue of device v, and FQRES (R173). -/
def State.writeFq (s : State) (o x : Nat) : State :=
  if o = 0x800 then s.writeFqres x
  else if 0x800 ≤ o then s
  else if o % 0x20 = 0 then s.store64 (Reg.fq 0 + o) m48 x
  else if o % 0x20 = 0x08 then s.store64 (Reg.fq 0 + o) m16 x
  else if o % 0x20 = 0x10 then s.store64 (Reg.fq 0 + o) m32 x
  else s

/-- A write of x to the A-die register space at a: reserved bits and places that hold no register ignore it (R5). -/
def State.writeReg (s : State) (a x : Nat) : State :=
  let o := a - 0xF80000000000
  let page := o / 0x10000
  if a < 0xF80000000000 then s
  else if page = 1 then s.writeBoot (o % 0x10000) x
  else if page = 2 then s.writeStack (o % 0x10000 / 0x100) (o % 0x100) x
  else if 3 ≤ page && page < 5 then s.writeLink ((o - 0x30000) / 0x1000) (o % 0x1000) x
  else if page = 7 then s.writePartBlock (o % 0x10000 / 0x100) (o % 0x100) x
  else if page = 8 then s.writeVd (o % 0x10000 / 0x40) (o % 0x40) x
  else if page = 9 then s.writeCtx a x
  else if page = 0xA then
    let r := o % 0x40
    if 64 ≤ o % 0x10000 / 0x40 then s
    else if r = 0 || r = 8 || r = 0x10 || r = 0x18 || r = 0x20 then s.store64 a m32 x
    else if r = 0x28 then s.store64 a 7 x
    else s
  else if page = 0xB then s.writeMig (o % 0x10000 / 0x100) (o % 0x100) x
  else if page = 0xC then s.writeAccess (o % 0x10000 / 0x80) (o % 0x80) x
  else if page = 0xD then
    if a = Reg.mrgto || a = Reg.mrgtocnt || a = Reg.mrgerr then s.store64 a m32 x else s
  else if page = 0xE then s.writeBorrower (o % 0x10000 / 0x20) (o % 0x20) x
  else if page = 0xF then s.writeLender (o % 0x10000 / 0x20) (o % 0x20) x
  else if 0x10 ≤ page && page < 0x14 then s.writeNotify ((o - 0x100000) / 0x1000) (o % 0x1000) x
  else if page = 0x14 then s.writeDbg (o % 0x10000 / 0x40) (o % 0x40) x
  else if page = 0x15 then s.writeTrace (o % 0x10000) x
  else if page = 0x16 then s.writeCkpt (o % 0x10000 / 0x40) (o % 0x40) x
  else if page = 0x17 then
    if o % 0x10000 < 0x3000 && (a % 0x10 = 0 || a % 0x10 = 8) then s.store64 a m32 x else s
  else if page = 0x18 then s.writeFq (o % 0x10000) x
  else s

/-- `pins.addr` takes `pins.value`. -/
def execRegisterWrite (s : State) : Result := .next (s.writeReg s.pins.addr (s.pins.value % 2 ^ 64))

/-! ### Register reads (R4, R5) -/

/-- A register that is write-only: it reads zero. -/
def writeOnly (a : Nat) : Bool :=
  a == Reg.boot + 0x30 || a == Reg.att + 0x28 || a == Reg.ctxkill || a == Reg.sinvcmd || a == Reg.fqres ||
  ((List.range 4).any fun d => a == Reg.mig d + 0x18) || ((List.range 64).any fun v => a == Reg.dbg v + 0x30)

/-- What the notify window of device v reads as (R56). -/
def State.readNotify (s : State) (v o : Nat) : Word :=
  if 64 ≤ v then 0
  else if o < 0x800 then
    (if o % 8 = 0 && o / 8 ≤ s.vdQCount v then (((s.queue v (o / 8)).tail).getD 0).setWidth 64 else 0)
  else if o = 0x810 then (Assoc.get (0 : BitVec 16) v s.cntsel).setWidth 64
  else if o = 0x818 then
    (match s.cntIndex v (Assoc.get (0 : BitVec 16) v s.cntsel).toNat with
     | some i => (s.counter i).word
     | none => 0)
  else 0

/-- Bytes of the capability list from address a on (R44). -/
def State.capBytes (s : State) (a n : Nat) : List Byte :=
  match s.caps with
  | some c => (List.range n).map fun i => c.bytes.getD (a - capBase + i) 0
  | none => List.replicate n 0

/-- An address in the capability list. -/
def State.inCaps (s : State) (a : Nat) : Bool :=
  match s.caps with
  | some c => decide (capBase ≤ a) && decide (a < capBase + c.bytes.length)
  | none => false

/-- What the A-die register space reads as. -/
def State.readReg (s : State) (a : Nat) : Word :=
  if writeOnly a then 0
  else if s.inCaps a then BitVec.ofNat 64 (ofLe (s.capBytes a 8))
  else if Reg.notify 0 ≤ a && a < Reg.notify 64 then s.readNotify ((a - Reg.notify 0) / 0x1000) (a % 0x1000)
  else if a = Reg.rclmstat then (if s.outstandingOld (s.regN Reg.rclmctx) = 0 then 0x80000000 else 0)
  else if Reg.fq 0 ≤ a && a < Reg.fq 64 && a % 0x20 = 8 then BitVec.ofNat 64 (s.fqSize ((a - Reg.fq 0) / 0x20))
  else if Reg.ckpt 0 ≤ a && a < Reg.ckpt 64 && a % 0x40 = 0 then
    BitVec.ofNat 64 (s.ckPeriod ((a - Reg.ckpt 0) / 0x40) / msCycles * 2 ^ 16 + s.regN a % 2)
  else if Reg.rates 0 ≤ a && a < Reg.rates 64 && a % 0x40 = 0x28 then BitVec.ofNat 64 (s.depth ((a - Reg.rates 0) / 0x40))
  else s.reg a

/-! ### Application cores (R4, R5, R11, R153) -/

/-- Multiples of 8 below n. -/
def words (n : Nat) : List Nat := (List.range (n / 8)).map fun i => 8 * i

/-- The register blocks that are PRIV: first address, distance, how many, the places of their registers. Only the notify windows
(R56) are not. -/
def privBlocks : List (Nat × Nat × Nat × List Nat) :=
  [ (Reg.boot, 0x100, 1, List.range 21 ++ [0x20, 0x28, 0x30, 0x38]), (Reg.att, 0x100, 1, words 0x38),
    (Reg.stack 0, 0x100, 12, words 0x28), (Reg.stack 0 + 0x28, 0x100, 1, [0]), (Reg.link 0, 0x1000, 18, words 0x38),
    (Reg.part 0, 0x100, 16, words 0x70), (Reg.vdev 0, 0x40, 64, words 0x40), (Reg.ctxtb, 0x100, 1, 0 :: (words 0x58).drop 2),
    (Reg.rates 0, 0x40, 64, words 0x30), (Reg.mig 0, 0x100, 4, words 0x38), (Reg.access 0, 0x80, 74, 0 :: (words 0x50).drop 2),
    (Reg.mrgto, 0x100, 1, words 0x20), (Reg.borrower 0, 0x20, 256, words 0x20), (Reg.lender 0, 0x20, 256, words 0x20),
    (Reg.dbg 0, 0x40, 64, words 0x40), (Reg.trace, 0x100, 1, words 0x38), (Reg.ckpt 0, 0x40, 64, words 0x28),
    (Reg.pch 0, 0x10, 768, words 0x10), (Reg.fq 0, 0x20, 64, words 0x20), (Reg.fqres, 8, 1, [0]) ]

/-- A PRIV register. -/
def privReg (a : Nat) : Bool :=
  privBlocks.any fun (b, w, n, os) => decide (b ≤ a) && decide ((a - b) / w < n) && os.contains ((a - b) % w)

/-- An access to A-die register space (R4, R5). What a core reads or writes there the spec gives for whole registers only: the model
takes the address as it stands, so that an address inside a register names none; a read gives at most the 8 bytes of one register; an
AMO acts as a write (log entry 93). -/
def State.coreReg (s : State) (a n : Nat) (bytes : List Byte) (priv : Bool) : State :=
  if privReg a && !priv then s.say .privTrap
  else if !bytes.isEmpty then s.writeReg a (ofLe (bytes.take 8))
  else if s.inCaps a then s.say (.answer (s.capBytes a n))
  else s.say (.answer (leBytes (min n 8) (s.readReg a).toNat))

/-- A load of `pins.count` bytes (LR too), a store of `pins.bytes` (an SC that succeeds too), an AMO whose operation number
plus 1 is `pins.value`, with its operand in `bytes`; with no bytes and count 0 a fence. `pins.port` is the core, `pins.ok` says that it
runs at kernel or hypervisor privilege. Application cores are not checked against access tables (R131); a poisoned line is answered
as to a peer (log entry 33). PCIe MMIO space and host windows answer from outside. -/
def execApplicationCoreAccess (s : State) : Result :=
  let p := s.pins
  let n := if p.bytes.isEmpty then p.count else p.bytes.length
  let op := if p.value ≠ 0 then atomicOf (p.value - 1) p.count p.addr p.bytes
    else some (if p.bytes.isEmpty then .read n else wholeWrite p.bytes)
  .next (
    if n = 0 then s
    else if 0xF80000000000 ≤ p.addr then s.coreReg p.addr n p.bytes p.ok
    else match op with
      | none => s
      | some op =>
        if 0xF00000000000 ≤ p.addr then s.say (.mmio p.addr op)
        else if inHost s.roots p.addr then s.forward p.addr op
        else if !s.inMap p.addr || !s.inMap (p.addr + op.size - 1) then s
        else s.inbound ⟨255, p.port, p.addr, op, false, none⟩)

end Sys2Proof.Machine
end

