-- ==== Sys2Proof/Machine/Matrix.lean ====
section
/-! DEFINITION. Group 4, the matrix words (R336 to R346): they join the convoy the chanter is forming and act when the vector
unit passes them to the matrix engine (`Run.anyWord`). -/

namespace Sys2Proof.Machine

def execMopa (c : Bool) (mk : MReg) (k : MopTy) (mc : MReg) (td : TReg) (a b : VReg) (s : State) : Result :=
  .next (s.takeVector c (s.vword (.mopa c mk k mc td a b) (.mopa false k mc td a b) mk 0 0))

def execMops (c : Bool) (mk : MReg) (k : MopTy) (mc : MReg) (td : TReg) (a b : VReg) (s : State) : Result :=
  .next (s.takeVector c (s.vword (.mops c mk k mc td a b) (.mopa true k mc td a b) mk 0 0))

def execMzero (c : Bool) (td : TReg) (s : State) : Result :=
  .next (s.takeVector c (s.vword (.mzero c td) (.mzero td) 0 0 0))

def execMldt (v : VAcc) (td : TReg) (m : Addr) (ch : BitVec 2) (x : TileLd) (b : SReg) (s : State) : Result :=
  .next (s.takeVector v.c (s.vword (.mldt v td m ch x b) (.mldt v td m ch x) v.gov m.a b))

def execMstt (v : VAcc) (td : TReg) (m : Addr) (ch : BitVec 2) (x : TileSt) (b : SReg) (s : State) : Result :=
  .next (s.takeVector v.c (s.vword (.mstt v td m ch x b) (.mstt v td m ch x) v.gov m.a b))

def execMmerge (c : Bool) (mk : MReg) (t : MergeTy) (part : Option SReg) (td : TReg) (m : Addr) (off : BitVec 16) (s : State) : Result :=
  .next (s.takeVector c (s.vword (.mmerge c mk t part td m off) (.mmerge t part.isSome td m off) mk m.a (part.getD 0)))

def execMrow (c : Bool) (d : VReg) (ta : TReg) (b : SReg) (s : State) : Result :=
  .next (s.takeVector c (s.vword (.mrow c d ta b) (.mrow d ta) 0 0 b))

def execMwrow (c : Bool) (td : TReg) (a : VReg) (b : SReg) (s : State) : Result :=
  .next (s.takeVector c (s.vword (.mwrow c td a b) (.mwrow td a) 0 0 b))

def execMfold (c : Bool) (mk : MReg) (rm : Rm) (td ts : TReg) (a b : VReg) (s : State) : Result :=
  .next (s.takeVector c (s.vword (.mfold c mk rm td ts a b) (.mfold rm td ts a b) mk 0 0))

def execMcvt (c : Bool) (mk : MReg) (t : MatTy) (rm : Rm) (td ta : TReg) (src : MergeTy) (s : State) : Result :=
  .next (s.takeVector c (s.vword (.mcvt c mk t rm td ta src) (.mcvt t rm src td ta) mk 0 0))


end Sys2Proof.Machine
end

