-- ==== Sys2Proof/Machine/Scalar.lean ====
section
/-! DEFINITION. Group 0, the scalar words (R264 to R270): integer, immediate and floating point. Each is plain. -/

namespace Sys2Proof.Machine

/-- Writes a scalar register and moves on. -/
def State.write (s : State) (d : SReg) (x : Word) : State := (s.setSreg d x).next

/-! ### Operations on w-bit numbers (R265) -/

/-- Leading zero bits of a w-bit number. -/
def clzOf (w x : Nat) : Nat := if x = 0 then w else w - 1 - x.log2

/-- Trailing zero bits of a w-bit number. -/
def ctzOf (w x : Nat) : Nat := ((List.range w).find? fun i => x.testBit i).getD w

def addOf (_w x y : Nat) : Nat := x + y
def subOf (w x y : Nat) : Nat := wrapNat w ((x : Int) - y)
def mulOf (_w x y : Nat) : Nat := x * y
def mulhOf (w x y : Nat) : Nat := wrapNat w (toSigned w x * toSigned w y / (2 ^ w : Nat))
def mulhnOf (w x y : Nat) : Nat := x * y / 2 ^ w
def divOf (w x y : Nat) : Nat := if y = 0 then 2 ^ w - 1 else wrapNat w ((toSigned w x).tdiv (toSigned w y))
def divnOf (w x y : Nat) : Nat := if y = 0 then 2 ^ w - 1 else x / y
def remOf (w x y : Nat) : Nat := if y = 0 then x else wrapNat w ((toSigned w x).tmod (toSigned w y))
def remnOf (_w x y : Nat) : Nat := if y = 0 then x else x % y
def andOf (_w x y : Nat) : Nat := x.land y
def orOf (_w x y : Nat) : Nat := x.lor y
def xorOf (_w x y : Nat) : Nat := x.xor y
def andnOf (w x y : Nat) : Nat := x.land (2 ^ w - 1 - y)
def shlOf (w x y : Nat) : Nat := x * 2 ^ (y % w)
def shrOf (w x y : Nat) : Nat := x / 2 ^ (y % w)
def sraOf (w x y : Nat) : Nat := wrapNat w (toSigned w x / (2 ^ (y % w) : Nat))
def rotrOf (w x y : Nat) : Nat := x / 2 ^ (y % w) + x % 2 ^ (y % w) * 2 ^ (w - y % w)
def minOf (w x y : Nat) : Nat := if toSigned w y < toSigned w x then y else x
def maxOf (w x y : Nat) : Nat := if toSigned w x < toSigned w y then y else x
def minnOf (_w x y : Nat) : Nat := if y < x then y else x
def maxnOf (_w x y : Nat) : Nat := if x < y then y else x
def sltOf (w x y : Nat) : Nat := if toSigned w x < toSigned w y then 1 else 0
def sltnOf (_w x y : Nat) : Nat := if x < y then 1 else 0
def seqOf (_w x y : Nat) : Nat := if x = y then 1 else 0

/-- A register form: the operation on the low w bits of a and b, extended as T gives (R264). -/
def State.intReg (s : State) (t : IntTy) (d a b : SReg) (op : Nat → Nat → Nat → Nat) : State :=
  let w := intWidth t
  s.write d (extendInt t (op w (field (s.sreg a).toNat 0 w) (field (s.sreg b).toNat 0 w)))

/-- An immediate form: y is the low w bits of the sign-extended immediate (R264, R266). -/
def State.intImm (s : State) (t : IntTy) (d a : SReg) (y : Word) (op : Nat → Nat → Nat → Nat) : State :=
  let w := intWidth t
  s.write d (extendInt t (op w (field (s.sreg a).toNat 0 w) (field y.toNat 0 w)))

/-- A word of one operand. -/
def State.intUn (s : State) (t : IntTy) (d a : SReg) (op : Nat → Nat → Nat) : State :=
  let w := intWidth t
  s.write d (extendInt t (op w (field (s.sreg a).toNat 0 w)))

def execAdd (t : IntTy) (d a b : SReg) (s : State) : Result := .next (s.intReg t d a b addOf)
def execSub (t : IntTy) (d a b : SReg) (s : State) : Result := .next (s.intReg t d a b subOf)
def execMul (t : IntTy) (d a b : SReg) (s : State) : Result := .next (s.intReg t d a b mulOf)
def execMulh (t : IntTy) (d a b : SReg) (s : State) : Result := .next (s.intReg t d a b mulhOf)
def execMulhn (t : IntTy) (d a b : SReg) (s : State) : Result := .next (s.intReg t d a b mulhnOf)
def execDiv (t : IntTy) (d a b : SReg) (s : State) : Result := .next (s.intReg t d a b divOf)
def execDivn (t : IntTy) (d a b : SReg) (s : State) : Result := .next (s.intReg t d a b divnOf)
def execRem (t : IntTy) (d a b : SReg) (s : State) : Result := .next (s.intReg t d a b remOf)
def execRemn (t : IntTy) (d a b : SReg) (s : State) : Result := .next (s.intReg t d a b remnOf)
def execAnd (t : IntTy) (d a b : SReg) (s : State) : Result := .next (s.intReg t d a b andOf)
def execOr (t : IntTy) (d a b : SReg) (s : State) : Result := .next (s.intReg t d a b orOf)
def execXor (t : IntTy) (d a b : SReg) (s : State) : Result := .next (s.intReg t d a b xorOf)
def execAndn (t : IntTy) (d a b : SReg) (s : State) : Result := .next (s.intReg t d a b andnOf)
def execShl (t : IntTy) (d a b : SReg) (s : State) : Result := .next (s.intReg t d a b shlOf)
def execShr (t : IntTy) (d a b : SReg) (s : State) : Result := .next (s.intReg t d a b shrOf)
def execSra (t : IntTy) (d a b : SReg) (s : State) : Result := .next (s.intReg t d a b sraOf)
def execRotr (t : IntTy) (d a b : SReg) (s : State) : Result := .next (s.intReg t d a b rotrOf)
def execMin (t : IntTy) (d a b : SReg) (s : State) : Result := .next (s.intReg t d a b minOf)
def execMax (t : IntTy) (d a b : SReg) (s : State) : Result := .next (s.intReg t d a b maxOf)
def execMinn (t : IntTy) (d a b : SReg) (s : State) : Result := .next (s.intReg t d a b minnOf)
def execMaxn (t : IntTy) (d a b : SReg) (s : State) : Result := .next (s.intReg t d a b maxnOf)
def execSlt (t : IntTy) (d a b : SReg) (s : State) : Result := .next (s.intReg t d a b sltOf)
def execSltn (t : IntTy) (d a b : SReg) (s : State) : Result := .next (s.intReg t d a b sltnOf)
def execSeq (t : IntTy) (d a b : SReg) (s : State) : Result := .next (s.intReg t d a b seqOf)
def execClz (t : IntTy) (d a : SReg) (s : State) : Result := .next (s.intUn t d a clzOf)
def execCtz (t : IntTy) (d a : SReg) (s : State) : Result := .next (s.intUn t d a ctzOf)
def execPopc (t : IntTy) (d a : SReg) (s : State) : Result := .next (s.intUn t d a fun w x => popBelow (BitVec.ofNat 64 x) w)

/-! ### Immediate forms (R266) -/

def execAddi (t : IntTy) (d a : SReg) (imm : BitVec 32) (s : State) : Result :=
  .next (s.intImm t d a (imm.signExtend 64) addOf)
def execAndi (t : IntTy) (d a : SReg) (imm : BitVec 32) (s : State) : Result :=
  .next (s.intImm t d a (imm.signExtend 64) andOf)
def execOri (t : IntTy) (d a : SReg) (imm : BitVec 32) (s : State) : Result :=
  .next (s.intImm t d a (imm.signExtend 64) orOf)
def execXori (t : IntTy) (d a : SReg) (imm : BitVec 32) (s : State) : Result :=
  .next (s.intImm t d a (imm.signExtend 64) xorOf)
def execShli (t : IntTy) (d a : SReg) (n : BitVec 6) (s : State) : Result :=
  .next (s.intImm t d a (n.setWidth 64) shlOf)
def execShri (t : IntTy) (d a : SReg) (n : BitVec 6) (s : State) : Result :=
  .next (s.intImm t d a (n.setWidth 64) shrOf)
def execSrai (t : IntTy) (d a : SReg) (n : BitVec 6) (s : State) : Result :=
  .next (s.intImm t d a (n.setWidth 64) sraOf)

/-- SLTI: as SLT for i types, as SLTN for n types. -/
def execSlti (t : IntTy) (d a : SReg) (imm : BitVec 32) (s : State) : Result :=
  .next (s.intImm t d a (imm.signExtend 64) (if intSigned t then sltOf else sltnOf))

def execMovi (d : SReg) (imm : BitVec 32) (s : State) : Result := .next (s.write d (imm.signExtend 64))

/-- MOVHI replaces the high half of d. -/
def execMovhi (d : SReg) (imm : BitVec 32) (s : State) : Result := .next (s.write d (imm ++ (s.sreg d).extractLsb' 0 32))

/-- CSEL: a where the old d is not 0, else b. -/
def execCsel (d a b : SReg) (s : State) : Result := .next (s.write d (if s.sreg d != 0 then s.sreg a else s.sreg b))

/-! ### Scalar floating point (R267 to R270) -/

/-- A result with its exceptions: an enabled one traps and nothing is written, else FPFLG takes them (R191, R267). -/
def State.fpResult (s : State) (d : SReg) (x : Word) (fl : Flags) : State :=
  match fpCause (enabled s.me.ch.fpctl fl) with
  | some c => s.trapHere c 0xFFFF
  | none => (s.onMe fun k => { k with fpflg := orFlags k.fpflg fl }).write d x

/-- A word of FpOp: x, y and the old d, all in format f. -/
def State.fpScalar (s : State) (k : FpOp) (f : FpTy) (rm : Rm) (d a b : SReg) : State :=
  let r := fpOp k f (modeOf rm s.me.ch.fpctl) (s.sreg a).toNat (s.sreg b).toNat (s.sreg d).toNat
  s.fpResult d (BitVec.ofNat 64 r.bits) r.fl

def execFadd (t : FpTy) (rm : Rm) (d a b : SReg) (s : State) : Result := .next (s.fpScalar .add t rm d a b)
def execFsub (t : FpTy) (rm : Rm) (d a b : SReg) (s : State) : Result := .next (s.fpScalar .sub t rm d a b)
def execFmul (t : FpTy) (rm : Rm) (d a b : SReg) (s : State) : Result := .next (s.fpScalar .mul t rm d a b)
def execFdiv (t : FpTy) (rm : Rm) (d a b : SReg) (s : State) : Result := .next (s.fpScalar .div t rm d a b)
def execFma (t : FpTy) (rm : Rm) (d a b : SReg) (s : State) : Result := .next (s.fpScalar .fma t rm d a b)
def execFmin (t : FpTy) (d a b : SReg) (s : State) : Result := .next (s.fpScalar .min t .rne d a b)
def execFmax (t : FpTy) (d a b : SReg) (s : State) : Result := .next (s.fpScalar .max t .rne d a b)

def execFsqrt (t : FpTy) (rm : Rm) (d a : SReg) (s : State) : Result :=
  let r := fpUn .sqrt t (modeOf rm s.me.ch.fpctl) (s.sreg a).toNat
  .next (s.fpResult d (BitVec.ofNat 64 r.bits) r.fl)

def execFcmp (t : FpTy) (k : Cond) (d a b : SReg) (s : State) : Result :=
  let r := fpCmp k (fpRead t (s.sreg a).toNat) (fpRead t (s.sreg b).toNat)
  .next (s.fpResult d (if r.1 then 1 else 0) r.2)

/-- FCVT (R193, R270): an integer result is extended as its type gives; no m12 bit. -/
def cvtScalar (k : Cvt) (m : Rm) (x : Word) : Word × Flags :=
  match k with
  | .ff dst src => let r := cvtFF dst src m x.toNat; (BitVec.ofNat 64 r.bits, r.fl)
  | .fi dst src => let r := cvtFI (intWidth dst) (intSigned dst) src m x.toNat; (extendInt dst r.bits, r.fl)
  | .ofInt dst src =>
    let w := intWidth src
    let v : Int := if intSigned src then toSigned w x.toNat else field x.toNat 0 w
    let r := cvtIF dst m v; (BitVec.ofNat 64 r.bits, r.fl)

def execFcvt (k : Cvt) (rm : Rm) (d a : SReg) (s : State) : Result :=
  let r := cvtScalar k (modeOf rm s.me.ch.fpctl) (s.sreg a)
  .next (s.fpResult d r.1 r.2)

def execFclass (t : FpTy) (d a : SReg) (s : State) : Result := .next (s.write d (BitVec.ofNat 64 (fpClass t (s.sreg a).toNat)))

end Sys2Proof.Machine
end

