-- ==== Sys2Proof/Machine/Vector.lean ====
section
/-! DEFINITION. Group 2, the vector compute words (spec 14). SETVL and MSETVL have a part of their own on the chanter (R86);
every other word joins the convoy the chanter is forming (R85, R89), and acts when the vector unit runs it
(`Run.vecWord`). -/

namespace Sys2Proof.Machine

/-! ### Lengths (R299, R300) -/

/-- The VL that SETVL grants: the request, VLMAX(w) and the ceiling of the strand's partition (R81, R299). -/
def State.grantedVl (s : State) (t : WTy) (req : Word) : Nat :=
  let w := wtyWidth t
  min (min req.toNat (vlmax w)) (ceilOf s.powceil w)

/-- STRIPN has come to DBGSTRIP.N with the strip-count break on (R209). -/
def State.stripBreak (s : State) : Bool :=
  s.me.dbgctl.getLsbD 3 && s.me.ch.stripn == s.reg (Reg.dbg s.me.vd + 0x28)

/-- SETVL on the chanter, with room in the vector queue: VL, d and STRIPN, then the push (R92, R299). -/
def State.setvl (s : State) (t : WTy) (d a : SReg) : State :=
  let c := s.me.ch
  let vl := s.grantedVl t (s.sreg a)
  let x := s.vword (.setvl t d a) (.setvl t vl) 0 a 0
  let s := (s.onCh fun c => { c with vl := vl, stripn := c.stripn + 1 }).setSreg d (BitVec.ofNat 64 vl)
  let s := if s.stripBreak then s.onMe fun k => { k with stepping := true } else s
  s.pushConvoy c.pc c [x]

/-- SETVL (R299): a strand that a cancel covers stops there (R92), with every older word done; a full vector queue stalls the
chanter (R85). -/
def execSetvl (t : WTy) (d a : SReg) (s : State) : Result :=
  .next (
    if s.me.cancelled.isSome then (if s.me.comesBack then s.await .convoys else s.endByCancel)
    else if 32 ≤ s.me.convoys then s.await .buffer
    else s.setvl t d a)

/-- The MVL that MSETVL grants (R300). -/
def grantedMvl (t : WTy) (req : Word) : Nat :=
  let top := match t with
    | .w16 | .res32 => 64
    | .w32 => 32
    | .w64 => 16
  let n := min req.toNat top
  if 64 ≤ n then 64 else if 32 ≤ n then 32 else if 16 ≤ n then 16 else if 8 ≤ n then 8 else if 4 ≤ n then 4 else 0

/-- MSETVL on the chanter, with room in the vector queue. -/
def State.msetvl (s : State) (t : WTy) (d a : SReg) : State :=
  let c := s.me.ch
  let mvl := grantedMvl t (s.sreg a)
  let x := s.vword (.msetvl t d a) .msetvl 0 a 0
  ((s.onCh fun c => { c with mvl := mvl }).setSreg d (BitVec.ofNat 64 mvl)).pushConvoy c.pc c [x]

def execMsetvl (t : WTy) (d a : SReg) (s : State) : Result :=
  .next (if 32 ≤ s.me.convoys then s.await .buffer else s.msetvl t d a)

/-! ### Integer arithmetic (R301) -/

def execVadd (c : Bool) (mk : MReg) (t : VIntTy) (d : VReg) (a : Src) (b : VReg) (s : State) : Result :=
  .next (s.takeVector c (s.vword (.vadd c mk t d a b) (.int .add t d a b) mk (srcReg a) 0))

def execVsub (c : Bool) (mk : MReg) (t : VIntTy) (d : VReg) (a : Src) (b : VReg) (s : State) : Result :=
  .next (s.takeVector c (s.vword (.vsub c mk t d a b) (.int .sub t d a b) mk (srcReg a) 0))

def execVmul (c : Bool) (mk : MReg) (t : VIntTy) (d : VReg) (a : Src) (b : VReg) (s : State) : Result :=
  .next (s.takeVector c (s.vword (.vmul c mk t d a b) (.int .mul t d a b) mk (srcReg a) 0))

def execVmulh (c : Bool) (mk : MReg) (t : VIntTy) (d : VReg) (a : Src) (b : VReg) (s : State) : Result :=
  .next (s.takeVector c (s.vword (.vmulh c mk t d a b) (.int .mulh t d a b) mk (srcReg a) 0))

def execVmin (c : Bool) (mk : MReg) (t : VIntTy) (d : VReg) (a : Src) (b : VReg) (s : State) : Result :=
  .next (s.takeVector c (s.vword (.vmin c mk t d a b) (.int .min t d a b) mk (srcReg a) 0))

def execVmax (c : Bool) (mk : MReg) (t : VIntTy) (d : VReg) (a : Src) (b : VReg) (s : State) : Result :=
  .next (s.takeVector c (s.vword (.vmax c mk t d a b) (.int .max t d a b) mk (srcReg a) 0))

def execVand (c : Bool) (mk : MReg) (t : VIntTy) (d : VReg) (a : Src) (b : VReg) (s : State) : Result :=
  .next (s.takeVector c (s.vword (.vand c mk t d a b) (.int .and t d a b) mk (srcReg a) 0))

def execVor (c : Bool) (mk : MReg) (t : VIntTy) (d : VReg) (a : Src) (b : VReg) (s : State) : Result :=
  .next (s.takeVector c (s.vword (.vor c mk t d a b) (.int .or t d a b) mk (srcReg a) 0))

def execVxor (c : Bool) (mk : MReg) (t : VIntTy) (d : VReg) (a : Src) (b : VReg) (s : State) : Result :=
  .next (s.takeVector c (s.vword (.vxor c mk t d a b) (.int .xor t d a b) mk (srcReg a) 0))

def execVshl (c : Bool) (mk : MReg) (t : VIntTy) (d : VReg) (a : Src) (b : VReg) (s : State) : Result :=
  .next (s.takeVector c (s.vword (.vshl c mk t d a b) (.int .shl t d a b) mk (srcReg a) 0))

def execVshr (c : Bool) (mk : MReg) (t : VIntTy) (d : VReg) (a : Src) (b : VReg) (s : State) : Result :=
  .next (s.takeVector c (s.vword (.vshr c mk t d a b) (.int .shr t d a b) mk (srcReg a) 0))

def execVsra (c : Bool) (mk : MReg) (t : VIntTy) (d : VReg) (a : Src) (b : VReg) (s : State) : Result :=
  .next (s.takeVector c (s.vword (.vsra c mk t d a b) (.int .sra t d a b) mk (srcReg a) 0))

def execVsadd (c : Bool) (mk : MReg) (t : VIntTy) (d : VReg) (a : Src) (b : VReg) (s : State) : Result :=
  .next (s.takeVector c (s.vword (.vsadd c mk t d a b) (.int .sadd t d a b) mk (srcReg a) 0))

def execVssub (c : Bool) (mk : MReg) (t : VIntTy) (d : VReg) (a : Src) (b : VReg) (s : State) : Result :=
  .next (s.takeVector c (s.vword (.vssub c mk t d a b) (.int .ssub t d a b) mk (srcReg a) 0))

def execVabs (c : Bool) (mk : MReg) (t : VIntTy) (d a : VReg) (s : State) : Result :=
  .next (s.takeVector c (s.vword (.vabs c mk t d a) (.abs t d a) mk 0 0))

/-! ### Floating point (R302) -/

def execVfadd (c : Bool) (mk : MReg) (t : FpTy) (rm : Rm) (d : VReg) (a : Src) (b : VReg) (s : State) : Result :=
  .next (s.takeVector c (s.vword (.vfadd c mk t rm d a b) (.fp .add t rm d a b) mk (srcReg a) 0))

def execVfsub (c : Bool) (mk : MReg) (t : FpTy) (rm : Rm) (d : VReg) (a : Src) (b : VReg) (s : State) : Result :=
  .next (s.takeVector c (s.vword (.vfsub c mk t rm d a b) (.fp .sub t rm d a b) mk (srcReg a) 0))

def execVfmul (c : Bool) (mk : MReg) (t : FpTy) (rm : Rm) (d : VReg) (a : Src) (b : VReg) (s : State) : Result :=
  .next (s.takeVector c (s.vword (.vfmul c mk t rm d a b) (.fp .mul t rm d a b) mk (srcReg a) 0))

def execVfdiv (c : Bool) (mk : MReg) (t : FpTy) (rm : Rm) (d : VReg) (a : Src) (b : VReg) (s : State) : Result :=
  .next (s.takeVector c (s.vword (.vfdiv c mk t rm d a b) (.fp .div t rm d a b) mk (srcReg a) 0))

def execVfma (c : Bool) (mk : MReg) (t : FpTy) (rm : Rm) (d : VReg) (a : Src) (b : VReg) (s : State) : Result :=
  .next (s.takeVector c (s.vword (.vfma c mk t rm d a b) (.fp .fma t rm d a b) mk (srcReg a) 0))

def execVfms (c : Bool) (mk : MReg) (t : FpTy) (rm : Rm) (d : VReg) (a : Src) (b : VReg) (s : State) : Result :=
  .next (s.takeVector c (s.vword (.vfms c mk t rm d a b) (.fp .fms t rm d a b) mk (srcReg a) 0))

def execVfnma (c : Bool) (mk : MReg) (t : FpTy) (rm : Rm) (d : VReg) (a : Src) (b : VReg) (s : State) : Result :=
  .next (s.takeVector c (s.vword (.vfnma c mk t rm d a b) (.fp .fnma t rm d a b) mk (srcReg a) 0))

def execVfmin (c : Bool) (mk : MReg) (t : FpTy) (d : VReg) (a : Src) (b : VReg) (s : State) : Result :=
  .next (s.takeVector c (s.vword (.vfmin c mk t d a b) (.fp .min t .rne d a b) mk (srcReg a) 0))

def execVfmax (c : Bool) (mk : MReg) (t : FpTy) (d : VReg) (a : Src) (b : VReg) (s : State) : Result :=
  .next (s.takeVector c (s.vword (.vfmax c mk t d a b) (.fp .max t .rne d a b) mk (srcReg a) 0))

def execVfsqrt (c : Bool) (mk : MReg) (t : FpTy) (rm : Rm) (d a : VReg) (s : State) : Result :=
  .next (s.takeVector c (s.vword (.vfsqrt c mk t rm d a) (.fpUn .sqrt t rm d a) mk 0 0))

def execVfabs (c : Bool) (mk : MReg) (t : FpTy) (d a : VReg) (s : State) : Result :=
  .next (s.takeVector c (s.vword (.vfabs c mk t d a) (.fpUn .abs t .rne d a) mk 0 0))

def execVfneg (c : Bool) (mk : MReg) (t : FpTy) (d a : VReg) (s : State) : Result :=
  .next (s.takeVector c (s.vword (.vfneg c mk t d a) (.fpUn .neg t .rne d a) mk 0 0))

def execVfrsqe (c : Bool) (mk : MReg) (t : FpTy) (d a : VReg) (s : State) : Result :=
  .next (s.takeVector c (s.vword (.vfrsqe c mk t d a) (.fpUn .rsqe t .rne d a) mk 0 0))

def execVfrcpe (c : Bool) (mk : MReg) (t : FpTy) (d a : VReg) (s : State) : Result :=
  .next (s.takeVector c (s.vword (.vfrcpe c mk t d a) (.fpUn .rcpe t .rne d a) mk 0 0))

def execVfexp2 (c : Bool) (mk : MReg) (t : FpTy) (rm : Rm) (d a : VReg) (s : State) : Result :=
  .next (s.takeVector c (s.vword (.vfexp2 c mk t rm d a) (.fpUn .exp2 t rm d a) mk 0 0))

def execVflog2 (c : Bool) (mk : MReg) (t : FpTy) (rm : Rm) (d a : VReg) (s : State) : Result :=
  .next (s.takeVector c (s.vword (.vflog2 c mk t rm d a) (.fpUn .log2 t rm d a) mk 0 0))

/-! ### Compares and masks (R303 to R307) -/

def execVcmp (c : Bool) (mk : MReg) (t : VIntTy) (k : Cond) (md : MReg) (a : Src) (b : VReg) (s : State) : Result :=
  .next (s.takeVector c (s.vword (.vcmp c mk t k md a b) (.cmp t k md a b) mk (srcReg a) 0))

def execVfcmp (c : Bool) (mk : MReg) (t : FpTy) (k : Cond) (md : MReg) (a : Src) (b : VReg) (s : State) : Result :=
  .next (s.takeVector c (s.vword (.vfcmp c mk t k md a b) (.fcmp t k md a b) mk (srcReg a) 0))

def execVfclass (c : Bool) (mk : MReg) (t : FpTy) (d a : VReg) (s : State) : Result :=
  .next (s.takeVector c (s.vword (.vfclass c mk t d a) (.fclass t d a) mk 0 0))

def execMand (c : Bool) (md ma mb : MReg) (s : State) : Result :=
  .next (s.takeVector c (s.vword (.mand c md ma mb) (.mlog .and md ma mb) 0 0 0))

def execMor (c : Bool) (md ma mb : MReg) (s : State) : Result :=
  .next (s.takeVector c (s.vword (.mor c md ma mb) (.mlog .or md ma mb) 0 0 0))

def execMxor (c : Bool) (md ma mb : MReg) (s : State) : Result :=
  .next (s.takeVector c (s.vword (.mxor c md ma mb) (.mlog .xor md ma mb) 0 0 0))

def execMandn (c : Bool) (md ma mb : MReg) (s : State) : Result :=
  .next (s.takeVector c (s.vword (.mandn c md ma mb) (.mlog .andn md ma mb) 0 0 0))

def execMnot (c : Bool) (md ma : MReg) (s : State) : Result :=
  .next (s.takeVector c (s.vword (.mnot c md ma) (.mlog .not md ma ma) 0 0 0))

def execMmov (c : Bool) (md ma : MReg) (s : State) : Result :=
  .next (s.takeVector c (s.vword (.mmov c md ma) (.mlog .mov md ma ma) 0 0 0))

def execMpopc (c : Bool) (mk : MReg) (q : QNum) (ma : MReg) (s : State) : Result :=
  .next (s.takeVector c (s.vword (.mpopc c mk q ma) (.mpopc q ma) mk 0 0))

def execMfirst (c : Bool) (mk : MReg) (q : QNum) (ma : MReg) (s : State) : Result :=
  .next (s.takeVector c (s.vword (.mfirst c mk q ma) (.mfirst q ma) mk 0 0))

def execMpush (c : Bool) (ma : MReg) (s : State) : Result :=
  .next (s.takeVector c (s.vword (.mpush c ma) (.mpush ma) 0 0 0))

def execMinv (c : Bool) (s : State) : Result :=
  .next (s.takeVector c (s.vword (.minv c) (.minv) 0 0 0))

def execMpop (c : Bool) (s : State) : Result :=
  .next (s.takeVector c (s.vword (.mpop c) (.mpop) 0 0 0))

def execMtop (c : Bool) (md : MReg) (s : State) : Result :=
  .next (s.takeVector c (s.vword (.mtop c md) (.mtop md) 0 0 0))

/-! ### Moves across elements (R308, R309) -/

def execVcompress (c : Bool) (mk : MReg) (t : WTy) (d a : VReg) (s : State) : Result :=
  .next (s.takeVector c (s.vword (.vcompress c mk t d a) (.compress t d a) mk 0 0))

def execViota (c : Bool) (mk : MReg) (t : WTy) (d : VReg) (s : State) : Result :=
  .next (s.takeVector c (s.vword (.viota c mk t d) (.iota t d) mk 0 0))

def execVperm (c : Bool) (mk : MReg) (t : WTy) (d a b : VReg) (s : State) : Result :=
  .next (s.takeVector c (s.vword (.vperm c mk t d a b) (.perm t d a b) mk 0 0))

def execVslideup (c : Bool) (mk : MReg) (t : WTy) (d a : VReg) (b : SReg) (s : State) : Result :=
  .next (s.takeVector c (s.vword (.vslideup c mk t d a b) (.slideup t d a) mk 0 b))

def execVslidedn (c : Bool) (mk : MReg) (t : WTy) (d a : VReg) (b : SReg) (s : State) : Result :=
  .next (s.takeVector c (s.vword (.vslidedn c mk t d a b) (.slidedn t d a) mk 0 b))

def execVbcast (c : Bool) (mk : MReg) (t : WTy) (d : VReg) (a : Src) (s : State) : Result :=
  .next (s.takeVector c (s.vword (.vbcast c mk t d a) (.bcast t d a) mk (srcReg a) 0))

def execVextr (c : Bool) (t : WTy) (q : QNum) (a : VReg) (b : SReg) (s : State) : Result :=
  .next (s.takeVector c (s.vword (.vextr c t q a b) (.extr t q a) 0 0 b))

def execVins (c : Bool) (t : WTy) (d : VReg) (a : Src) (b : SReg) (s : State) : Result :=
  .next (s.takeVector c (s.vword (.vins c t d a b) (.ins t d a) 0 (srcReg a) b))

def execVmerge (c : Bool) (mk : MReg) (t : WTy) (d a b : VReg) (s : State) : Result :=
  .next (s.takeVector c (s.vword (.vmerge c mk t d a b) (.merge t d a b) mk 0 0))

def execVmov (c : Bool) (mk : MReg) (t : WTy) (d a : VReg) (s : State) : Result :=
  .next (s.takeVector c (s.vword (.vmov c mk t d a) (.mov t d a) mk 0 0))

/-! ### Reductions (R310) -/

def execVredsum (c : Bool) (mk : MReg) (t : VIntTy) (d : RedDst) (a : VReg) (st : Option VReg) (s : State) : Result :=
  .next (s.takeVector c (s.vword (.vredsum c mk t d a st) (.red .sum t d a st) mk 0 0))

def execVredmin (c : Bool) (mk : MReg) (t : VIntTy) (d : RedDst) (a : VReg) (st : Option VReg) (s : State) : Result :=
  .next (s.takeVector c (s.vword (.vredmin c mk t d a st) (.red .min t d a st) mk 0 0))

def execVredmax (c : Bool) (mk : MReg) (t : VIntTy) (d : RedDst) (a : VReg) (st : Option VReg) (s : State) : Result :=
  .next (s.takeVector c (s.vword (.vredmax c mk t d a st) (.red .max t d a st) mk 0 0))

def execVfredsum (c : Bool) (mk : MReg) (t : FpTy) (rm : Rm) (d : RedDst) (a : VReg) (st : Option VReg) (s : State) : Result :=
  .next (s.takeVector c (s.vword (.vfredsum c mk t rm d a st) (.fred .sum t rm d a st) mk 0 0))

def execVfredmin (c : Bool) (mk : MReg) (t : FpTy) (d : RedDst) (a : VReg) (st : Option VReg) (s : State) : Result :=
  .next (s.takeVector c (s.vword (.vfredmin c mk t d a st) (.fred .min t .rne d a st) mk 0 0))

def execVfredmax (c : Bool) (mk : MReg) (t : FpTy) (d : RedDst) (a : VReg) (st : Option VReg) (s : State) : Result :=
  .next (s.takeVector c (s.vword (.vfredmax c mk t d a st) (.fred .max t .rne d a st) mk 0 0))

/-! ### Conversions and residues (R311 to R313) -/

def execVcvt (c : Bool) (mk : MReg) (t src : VIntTy) (d a : VReg) (s : State) : Result :=
  .next (s.takeVector c (s.vword (.vcvt c mk t src d a) (.cvt t src d a) mk 0 0))

def execVfcvt (c : Bool) (mk : MReg) (k : VCvt) (rm : Rm) (d a : VReg) (s : State) : Result :=
  .next (s.takeVector c (s.vword (.vfcvt c mk k rm d a) (.fcvt k rm d a) mk 0 0))

def execVresenc (c : Bool) (mk : MReg) (t : VIntTy) (d a : VReg) (s : State) : Result :=
  .next (s.takeVector c (s.vword (.vresenc c mk t d a) (.resenc t d a) mk 0 0))

def execVresdec (c : Bool) (mk : MReg) (t : VIntTy) (d a : VReg) (s : State) : Result :=
  .next (s.takeVector c (s.vword (.vresdec c mk t d a) (.resdec t d a) mk 0 0))

def execVresmac (c : Bool) (mk : MReg) (d a b : VReg) (s : State) : Result :=
  .next (s.takeVector c (s.vword (.vresmac c mk d a b) (.res .mac d a b) mk 0 0))

def execVresadd (c : Bool) (mk : MReg) (d a b : VReg) (s : State) : Result :=
  .next (s.takeVector c (s.vword (.vresadd c mk d a b) (.res .add d a b) mk 0 0))

def execVresmul (c : Bool) (mk : MReg) (d a b : VReg) (s : State) : Result :=
  .next (s.takeVector c (s.vword (.vresmul c mk d a b) (.res .mul d a b) mk 0 0))

end Sys2Proof.Machine
end

