-- ==== Sys2Proof/Machine/Dispatch.lean ====
section
/-! DEFINITION. One arm for each row of the opcode table: its meaning. -/

namespace Sys2Proof.Machine

/-- What an instruction does to the strand whose turn it is, or what an event does to the device. -/
def exec (i : Instr) (s : State) : Host.Outcome State Fault Refusal :=
  match i with
  | .dieLinkFlit => Sys2Proof.Machine.execDieLinkFlit s
  | .codeWordRead => Sys2Proof.Machine.execCodeWordRead s
  | .poisonedLineEviction => Sys2Proof.Machine.execPoisonedLineEviction s
  | .scrubRead => Sys2Proof.Machine.execScrubRead s
  | .stackTemperatureReport => Sys2Proof.Machine.execStackTemperatureReport s
  | .selfRefreshEntry => Sys2Proof.Machine.execSelfRefreshEntry s
  | .thermwaitExpiry => Sys2Proof.Machine.execThermwaitExpiry s
  | .stkthermWrite => Sys2Proof.Machine.execStkthermWrite s
  | .thermwaitWrite => Sys2Proof.Machine.execThermwaitWrite s
  | .pcieInboundRequest => Sys2Proof.Machine.execPcieInboundRequest s
  | .downstreamDmaWrite => Sys2Proof.Machine.execDownstreamDmaWrite s
  | .cxlMemRead => Sys2Proof.Machine.execCxlMemRead s
  | .ualinkRequestSend => Sys2Proof.Machine.execUalinkRequestSend s
  | .peerRead => Sys2Proof.Machine.execPeerRead s
  | .peerWrite => Sys2Proof.Machine.execPeerWrite s
  | .peerAtomic => Sys2Proof.Machine.execPeerAtomic s
  | .unknownPacket => Sys2Proof.Machine.execUnknownPacket s
  | .responseArrival => Sys2Proof.Machine.execResponseArrival s
  | .laneRepairRequest => Sys2Proof.Machine.execLaneRepairRequest s
  | .replayDrainEnd => Sys2Proof.Machine.execReplayDrainEnd s
  | .laneRepairDone => Sys2Proof.Machine.execLaneRepairDone s
  | .portRetrain => Sys2Proof.Machine.execPortRetrain s
  | .trainingEnd => Sys2Proof.Machine.execTrainingEnd s
  | .portDown => Sys2Proof.Machine.execPortDown s
  | .bootStart => Sys2Proof.Machine.execBootStart s
  | .bootStepPass => Sys2Proof.Machine.execBootStepPass s
  | .bootStepFail => Sys2Proof.Machine.execBootStepFail s
  | .bootStepTimeout => Sys2Proof.Machine.execBootStepTimeout s
  | .bootctlClr => Sys2Proof.Machine.execBootctlClr s
  | .bootctlRst => Sys2Proof.Machine.execBootctlRst s
  | .measurementExtend => Sys2Proof.Machine.execMeasurementExtend s
  | .attcmdGo => Sys2Proof.Machine.execAttcmdGo s
  | .attestationReportWrite => Sys2Proof.Machine.execAttestationReportWrite s
  | .pcumaskWrite => Sys2Proof.Machine.execPcumaskWrite s
  | .plsportWrite => Sys2Proof.Machine.execPlsportWrite s
  | .pmbaseWrite => Sys2Proof.Machine.execPmbaseWrite s
  | .partitionRegisterWrite => Sys2Proof.Machine.execPartitionRegisterWrite s
  | .powceilWrite => Sys2Proof.Machine.execPowceilWrite s
  | .vdctlEnSet => Sys2Proof.Machine.execVdctlEnSet s
  | .vdctlEnClear => Sys2Proof.Machine.execVdctlEnClear s
  | .vdRegisterWrite => Sys2Proof.Machine.execVdRegisterWrite s
  | .notifyWrite => Sys2Proof.Machine.execNotifyWrite s
  | .cntdataWrite => Sys2Proof.Machine.execCntdataWrite s
  | .cancelcmdStrand => Sys2Proof.Machine.execCancelcmdStrand s
  | .cancelcmdLaunch => Sys2Proof.Machine.execCancelcmdLaunch s
  | .cancelcmdGraph => Sys2Proof.Machine.execCancelcmdGraph s
  | .cancelcmdPhase => Sys2Proof.Machine.execCancelcmdPhase s
  | .cancelcmdJob => Sys2Proof.Machine.execCancelcmdJob s
  | .nopTake => Sys2Proof.Machine.execNopTake s
  | .launchTake => Sys2Proof.Machine.execLaunchTake s
  | .waitTake => Sys2Proof.Machine.execWaitTake s
  | .signalTake => Sys2Proof.Machine.execSignalTake s
  | .phaseTake => Sys2Proof.Machine.execPhaseTake s
  | .waitRetire => Sys2Proof.Machine.execWaitRetire s
  | .signalRetire => Sys2Proof.Machine.execSignalRetire s
  | .phaseRetire => Sys2Proof.Machine.execPhaseRetire s
  | .launchEligible => Sys2Proof.Machine.execLaunchEligible s
  | .strandStart => Sys2Proof.Machine.execStrandStart s
  | .launchRetire => Sys2Proof.Machine.execLaunchRetire s
  | .strandEnd => Sys2Proof.Machine.execStrandEnd s
  | .frameStart => Sys2Proof.Machine.execFrameStart s
  | .lendingPoint => Sys2Proof.Machine.execLendingPoint s
  | .laneRenegotiation => Sys2Proof.Machine.execLaneRenegotiation s
  | .laneFifoService => Sys2Proof.Machine.execLaneFifoService s
  | .convoyStart => Sys2Proof.Machine.execConvoyStart s
  | .convoyRetire => Sys2Proof.Machine.execConvoyRetire s
  | .heldOperationRelease => Sys2Proof.Machine.execHeldOperationRelease s
  | .squash => Sys2Proof.Machine.execSquash s
  | .squashDeadline => Sys2Proof.Machine.execSquashDeadline s
  | .qdeadTimeout => Sys2Proof.Machine.execQdeadTimeout s
  | .registerLineFill => Sys2Proof.Machine.execRegisterLineFill s
  | .replayRelease => Sys2Proof.Machine.execReplayRelease s
  | .migctlGo => Sys2Proof.Machine.execMigctlGo s
  | .migrationCopyEnd => Sys2Proof.Machine.execMigrationCopyEnd s
  | .migctlRel => Sys2Proof.Machine.execMigctlRel s
  | .wcbLineTimeout => Sys2Proof.Machine.execWcbLineTimeout s
  | .zeroLineEviction => Sys2Proof.Machine.execZeroLineEviction s
  | .mergePartArrival => Sys2Proof.Machine.execMergePartArrival s
  | .mergeTimeout => Sys2Proof.Machine.execMergeTimeout s
  | .unorderedMergeArrival => Sys2Proof.Machine.execUnorderedMergeArrival s
  | .accessTableWrite => Sys2Proof.Machine.execAccessTableWrite s
  | .leasedAccessArrival => Sys2Proof.Machine.execLeasedAccessArrival s
  | .lenderEntryWrite => Sys2Proof.Machine.execLenderEntryWrite s
  | .leaseSetupMessage => Sys2Proof.Machine.execLeaseSetupMessage s
  | .leaseRevokeMessage => Sys2Proof.Machine.execLeaseRevokeMessage s
  | .revokeDrainDone => Sys2Proof.Machine.execRevokeDrainDone s
  | .borrowerEntryWrite => Sys2Proof.Machine.execBorrowerEntryWrite s
  | .leaseDoneMessage => Sys2Proof.Machine.execLeaseDoneMessage s
  | .revtoExpiry => Sys2Proof.Machine.execRevtoExpiry s
  | .trapTaken => Sys2Proof.Machine.execTrapTaken s
  | .faultRecordPost => Sys2Proof.Machine.execFaultRecordPost s
  | .fqresWrite => Sys2Proof.Machine.execFqresWrite s
  | .contextSave => Sys2Proof.Machine.execContextSave s
  | .cuShareSave => Sys2Proof.Machine.execCuShareSave s
  | .divertedLanding => Sys2Proof.Machine.execDivertedLanding s
  | .restore => Sys2Proof.Machine.execRestore s
  | .asyncfaultDelivery => Sys2Proof.Machine.execAsyncfaultDelivery s
  | .ctxkillWrite => Sys2Proof.Machine.execCtxkillWrite s
  | .killComplete => Sys2Proof.Machine.execKillComplete s
  | .requestAtTarget => Sys2Proof.Machine.execRequestAtTarget s
  | .dbgrelWrite => Sys2Proof.Machine.execDbgrelWrite s
  | .trstatFlush => Sys2Proof.Machine.execTrstatFlush s
  | .segmentSeal => Sys2Proof.Machine.execSegmentSeal s
  | .segmentSend => Sys2Proof.Machine.execSegmentSend s
  | .checkpointTimer => Sys2Proof.Machine.execCheckpointTimer s
  | .sinvcmdWrite => Sys2Proof.Machine.execSinvcmdWrite s
  | .sinvComplete => Sys2Proof.Machine.execSinvComplete s
  | .copyBeat => Sys2Proof.Machine.execCopyBeat s
  | .remoteShareBeat => Sys2Proof.Machine.execRemoteShareBeat s
  | .chunkLanded => Sys2Proof.Machine.execChunkLanded s
  | .transferComplete => Sys2Proof.Machine.execTransferComplete s
  | .cntwaitWake => Sys2Proof.Machine.execCntwaitWake s
  | .cntwaitTimeout => Sys2Proof.Machine.execCntwaitTimeout s
  | .waitaWake => Sys2Proof.Machine.execWaitaWake s
  | .waitaTimeout => Sys2Proof.Machine.execWaitaTimeout s
  | .cpwaitEnd => Sys2Proof.Machine.execCpwaitEnd s
  | .cpwaitTimeout => Sys2Proof.Machine.execCpwaitTimeout s
  | .registerWrite => Sys2Proof.Machine.execRegisterWrite s
  | .add t d a b => Sys2Proof.Machine.execAdd t d a b s
  | .sub t d a b => Sys2Proof.Machine.execSub t d a b s
  | .mul t d a b => Sys2Proof.Machine.execMul t d a b s
  | .mulh t d a b => Sys2Proof.Machine.execMulh t d a b s
  | .mulhn t d a b => Sys2Proof.Machine.execMulhn t d a b s
  | .div t d a b => Sys2Proof.Machine.execDiv t d a b s
  | .divn t d a b => Sys2Proof.Machine.execDivn t d a b s
  | .rem t d a b => Sys2Proof.Machine.execRem t d a b s
  | .remn t d a b => Sys2Proof.Machine.execRemn t d a b s
  | .and t d a b => Sys2Proof.Machine.execAnd t d a b s
  | .or t d a b => Sys2Proof.Machine.execOr t d a b s
  | .xor t d a b => Sys2Proof.Machine.execXor t d a b s
  | .andn t d a b => Sys2Proof.Machine.execAndn t d a b s
  | .shl t d a b => Sys2Proof.Machine.execShl t d a b s
  | .shr t d a b => Sys2Proof.Machine.execShr t d a b s
  | .sra t d a b => Sys2Proof.Machine.execSra t d a b s
  | .rotr t d a b => Sys2Proof.Machine.execRotr t d a b s
  | .clz t d a => Sys2Proof.Machine.execClz t d a s
  | .ctz t d a => Sys2Proof.Machine.execCtz t d a s
  | .popc t d a => Sys2Proof.Machine.execPopc t d a s
  | .min t d a b => Sys2Proof.Machine.execMin t d a b s
  | .max t d a b => Sys2Proof.Machine.execMax t d a b s
  | .minn t d a b => Sys2Proof.Machine.execMinn t d a b s
  | .maxn t d a b => Sys2Proof.Machine.execMaxn t d a b s
  | .slt t d a b => Sys2Proof.Machine.execSlt t d a b s
  | .sltn t d a b => Sys2Proof.Machine.execSltn t d a b s
  | .seq t d a b => Sys2Proof.Machine.execSeq t d a b s
  | .csel d a b => Sys2Proof.Machine.execCsel d a b s
  | .addi t d a imm => Sys2Proof.Machine.execAddi t d a imm s
  | .andi t d a imm => Sys2Proof.Machine.execAndi t d a imm s
  | .ori t d a imm => Sys2Proof.Machine.execOri t d a imm s
  | .xori t d a imm => Sys2Proof.Machine.execXori t d a imm s
  | .shli t d a n => Sys2Proof.Machine.execShli t d a n s
  | .shri t d a n => Sys2Proof.Machine.execShri t d a n s
  | .srai t d a n => Sys2Proof.Machine.execSrai t d a n s
  | .slti t d a imm => Sys2Proof.Machine.execSlti t d a imm s
  | .movi d imm => Sys2Proof.Machine.execMovi d imm s
  | .movhi d imm => Sys2Proof.Machine.execMovhi d imm s
  | .fadd t rm d a b => Sys2Proof.Machine.execFadd t rm d a b s
  | .fsub t rm d a b => Sys2Proof.Machine.execFsub t rm d a b s
  | .fmul t rm d a b => Sys2Proof.Machine.execFmul t rm d a b s
  | .fdiv t rm d a b => Sys2Proof.Machine.execFdiv t rm d a b s
  | .fsqrt t rm d a => Sys2Proof.Machine.execFsqrt t rm d a s
  | .fma t rm d a b => Sys2Proof.Machine.execFma t rm d a b s
  | .fmin t d a b => Sys2Proof.Machine.execFmin t d a b s
  | .fmax t d a b => Sys2Proof.Machine.execFmax t d a b s
  | .fcmp t k d a b => Sys2Proof.Machine.execFcmp t k d a b s
  | .fcvt k rm d a => Sys2Proof.Machine.execFcvt k rm d a s
  | .fclass t d a => Sys2Proof.Machine.execFclass t d a s
  | .beq a b disp => Sys2Proof.Machine.execBeq a b disp s
  | .bne a b disp => Sys2Proof.Machine.execBne a b disp s
  | .blt a b disp => Sys2Proof.Machine.execBlt a b disp s
  | .bge a b disp => Sys2Proof.Machine.execBge a b disp s
  | .bltn a b disp => Sys2Proof.Machine.execBltn a b disp s
  | .bgen a b disp => Sys2Proof.Machine.execBgen a b disp s
  | .j disp => Sys2Proof.Machine.execJ disp s
  | .jal d disp => Sys2Proof.Machine.execJal d disp s
  | .jr a => Sys2Proof.Machine.execJr a s
  | .jalr d a => Sys2Proof.Machine.execJalr d a s
  | .loop lv a disp => Sys2Proof.Machine.execLoop lv a disp s
  | .loopi lv n disp => Sys2Proof.Machine.execLoopi lv n disp s
  | .bmz disp => Sys2Proof.Machine.execBmz disp s
  | .bmnz disp => Sys2Proof.Machine.execBmnz disp s
  | .trap imm => Sys2Proof.Machine.execTrap imm s
  | .brk imm => Sys2Proof.Machine.execBrk imm s
  | .eret => Sys2Proof.Machine.execEret s
  | .getc d r => Sys2Proof.Machine.execGetc d r s
  | .copyLaunch d ch => Sys2Proof.Machine.execCopyLaunch d ch s
  | .setc r a => Sys2Proof.Machine.execSetc r a s
  | .setci r imm => Sys2Proof.Machine.execSetci r imm s
  | .deal d a => Sys2Proof.Machine.execDeal d a s
  | .exit => Sys2Proof.Machine.execExit s
  | .yield => Sys2Proof.Machine.execYield s
  | .cntinc a imm => Sys2Proof.Machine.execCntinc a imm s
  | .cntwait d a b => Sys2Proof.Machine.execCntwait d a b s
  | .cancel lv a => Sys2Proof.Machine.execCancel lv a s
  | .qpush q a => Sys2Proof.Machine.execQpush q a s
  | .qpop d q => Sys2Proof.Machine.execQpop d q s
  | .sptr d k a => Sys2Proof.Machine.execSptr d k a s
  | .slotq d k => Sys2Proof.Machine.execSlotq d k s
  | .slotsync k => Sys2Proof.Machine.execSlotsync k s
  | .slotset a b => Sys2Proof.Machine.execSlotset a b s
  | .slotinv a b => Sys2Proof.Machine.execSlotinv a b s
  | .incfence a => Sys2Proof.Machine.execIncfence a s
  | .mark a => Sys2Proof.Machine.execMark a s
  | .setvl t d a => Sys2Proof.Machine.execSetvl t d a s
  | .msetvl t d a => Sys2Proof.Machine.execMsetvl t d a s
  | .vadd c mk t d a b => Sys2Proof.Machine.execVadd c mk t d a b s
  | .vsub c mk t d a b => Sys2Proof.Machine.execVsub c mk t d a b s
  | .vmul c mk t d a b => Sys2Proof.Machine.execVmul c mk t d a b s
  | .vmulh c mk t d a b => Sys2Proof.Machine.execVmulh c mk t d a b s
  | .vmin c mk t d a b => Sys2Proof.Machine.execVmin c mk t d a b s
  | .vmax c mk t d a b => Sys2Proof.Machine.execVmax c mk t d a b s
  | .vand c mk t d a b => Sys2Proof.Machine.execVand c mk t d a b s
  | .vor c mk t d a b => Sys2Proof.Machine.execVor c mk t d a b s
  | .vxor c mk t d a b => Sys2Proof.Machine.execVxor c mk t d a b s
  | .vshl c mk t d a b => Sys2Proof.Machine.execVshl c mk t d a b s
  | .vshr c mk t d a b => Sys2Proof.Machine.execVshr c mk t d a b s
  | .vsra c mk t d a b => Sys2Proof.Machine.execVsra c mk t d a b s
  | .vsadd c mk t d a b => Sys2Proof.Machine.execVsadd c mk t d a b s
  | .vssub c mk t d a b => Sys2Proof.Machine.execVssub c mk t d a b s
  | .vabs c mk t d a => Sys2Proof.Machine.execVabs c mk t d a s
  | .vfadd c mk t rm d a b => Sys2Proof.Machine.execVfadd c mk t rm d a b s
  | .vfsub c mk t rm d a b => Sys2Proof.Machine.execVfsub c mk t rm d a b s
  | .vfmul c mk t rm d a b => Sys2Proof.Machine.execVfmul c mk t rm d a b s
  | .vfdiv c mk t rm d a b => Sys2Proof.Machine.execVfdiv c mk t rm d a b s
  | .vfsqrt c mk t rm d a => Sys2Proof.Machine.execVfsqrt c mk t rm d a s
  | .vfma c mk t rm d a b => Sys2Proof.Machine.execVfma c mk t rm d a b s
  | .vfms c mk t rm d a b => Sys2Proof.Machine.execVfms c mk t rm d a b s
  | .vfnma c mk t rm d a b => Sys2Proof.Machine.execVfnma c mk t rm d a b s
  | .vfmin c mk t d a b => Sys2Proof.Machine.execVfmin c mk t d a b s
  | .vfmax c mk t d a b => Sys2Proof.Machine.execVfmax c mk t d a b s
  | .vfabs c mk t d a => Sys2Proof.Machine.execVfabs c mk t d a s
  | .vfneg c mk t d a => Sys2Proof.Machine.execVfneg c mk t d a s
  | .vfrsqe c mk t d a => Sys2Proof.Machine.execVfrsqe c mk t d a s
  | .vfrcpe c mk t d a => Sys2Proof.Machine.execVfrcpe c mk t d a s
  | .vfexp2 c mk t rm d a => Sys2Proof.Machine.execVfexp2 c mk t rm d a s
  | .vflog2 c mk t rm d a => Sys2Proof.Machine.execVflog2 c mk t rm d a s
  | .vcmp c mk t k md a b => Sys2Proof.Machine.execVcmp c mk t k md a b s
  | .vfcmp c mk t k md a b => Sys2Proof.Machine.execVfcmp c mk t k md a b s
  | .vfclass c mk t d a => Sys2Proof.Machine.execVfclass c mk t d a s
  | .mand c md ma mb => Sys2Proof.Machine.execMand c md ma mb s
  | .mor c md ma mb => Sys2Proof.Machine.execMor c md ma mb s
  | .mxor c md ma mb => Sys2Proof.Machine.execMxor c md ma mb s
  | .mandn c md ma mb => Sys2Proof.Machine.execMandn c md ma mb s
  | .mnot c md ma => Sys2Proof.Machine.execMnot c md ma s
  | .mmov c md ma => Sys2Proof.Machine.execMmov c md ma s
  | .mpopc c mk q ma => Sys2Proof.Machine.execMpopc c mk q ma s
  | .mfirst c mk q ma => Sys2Proof.Machine.execMfirst c mk q ma s
  | .mpush c ma => Sys2Proof.Machine.execMpush c ma s
  | .minv c => Sys2Proof.Machine.execMinv c s
  | .mpop c => Sys2Proof.Machine.execMpop c s
  | .mtop c md => Sys2Proof.Machine.execMtop c md s
  | .vcompress c mk t d a => Sys2Proof.Machine.execVcompress c mk t d a s
  | .viota c mk t d => Sys2Proof.Machine.execViota c mk t d s
  | .vperm c mk t d a b => Sys2Proof.Machine.execVperm c mk t d a b s
  | .vslideup c mk t d a b => Sys2Proof.Machine.execVslideup c mk t d a b s
  | .vslidedn c mk t d a b => Sys2Proof.Machine.execVslidedn c mk t d a b s
  | .vbcast c mk t d a => Sys2Proof.Machine.execVbcast c mk t d a s
  | .vextr c t q a b => Sys2Proof.Machine.execVextr c t q a b s
  | .vins c t d a b => Sys2Proof.Machine.execVins c t d a b s
  | .vmerge c mk t d a b => Sys2Proof.Machine.execVmerge c mk t d a b s
  | .vmov c mk t d a => Sys2Proof.Machine.execVmov c mk t d a s
  | .vredsum c mk t d a st => Sys2Proof.Machine.execVredsum c mk t d a st s
  | .vredmin c mk t d a st => Sys2Proof.Machine.execVredmin c mk t d a st s
  | .vredmax c mk t d a st => Sys2Proof.Machine.execVredmax c mk t d a st s
  | .vfredsum c mk t rm d a st => Sys2Proof.Machine.execVfredsum c mk t rm d a st s
  | .vfredmin c mk t d a st => Sys2Proof.Machine.execVfredmin c mk t d a st s
  | .vfredmax c mk t d a st => Sys2Proof.Machine.execVfredmax c mk t d a st s
  | .vcvt c mk t src d a => Sys2Proof.Machine.execVcvt c mk t src d a s
  | .vfcvt c mk k rm d a => Sys2Proof.Machine.execVfcvt c mk k rm d a s
  | .vresenc c mk t d a => Sys2Proof.Machine.execVresenc c mk t d a s
  | .vresdec c mk t d a => Sys2Proof.Machine.execVresdec c mk t d a s
  | .vresmac c mk d a b => Sys2Proof.Machine.execVresmac c mk d a b s
  | .vresadd c mk d a b => Sys2Proof.Machine.execVresadd c mk d a b s
  | .vresmul c mk d a b => Sys2Proof.Machine.execVresmul c mk d a b s
  | .ld d m ch x => Sys2Proof.Machine.execLd d m ch x s
  | .st d m ch x => Sys2Proof.Machine.execSt d m ch x s
  | .ldacq t d m off => Sys2Proof.Machine.execLdacq t d m off s
  | .strel t d m off => Sys2Proof.Machine.execStrel t d m off s
  | .amo op t ord d m off b => Sys2Proof.Machine.execAmo op t ord d m off b s
  | .vld v d m ch x => Sys2Proof.Machine.execVld v d m ch x s
  | .vlds v d m ch x b => Sys2Proof.Machine.execVlds v d m ch x b s
  | .vldx v d m ch x b => Sys2Proof.Machine.execVldx v d m ch x b s
  | .vldff v d m ch x q => Sys2Proof.Machine.execVldff v d m ch x q s
  | .vldsc v d m ch off => Sys2Proof.Machine.execVldsc v d m ch off s
  | .vst v d m ch x => Sys2Proof.Machine.execVst v d m ch x s
  | .vsts v d m ch x b => Sys2Proof.Machine.execVsts v d m ch x b s
  | .vstx v d m ch x b => Sys2Proof.Machine.execVstx v d m ch x b s
  | .vamo v op t ord d m off b => Sys2Proof.Machine.execVamo v op t ord d m off b s
  | .zline m off => Sys2Proof.Machine.execZline m off s
  | .fence k sc => Sys2Proof.Machine.execFence k sc s
  | .waita t d m off b => Sys2Proof.Machine.execWaita t d m off b s
  | .pref m ch off => Sys2Proof.Machine.execPref m ch off s
  | .mopa c mk k mc td a b => Sys2Proof.Machine.execMopa c mk k mc td a b s
  | .mops c mk k mc td a b => Sys2Proof.Machine.execMops c mk k mc td a b s
  | .mzero c td => Sys2Proof.Machine.execMzero c td s
  | .mldt v td m ch x b => Sys2Proof.Machine.execMldt v td m ch x b s
  | .mstt v td m ch x b => Sys2Proof.Machine.execMstt v td m ch x b s
  | .mmerge c mk t part td m off => Sys2Proof.Machine.execMmerge c mk t part td m off s
  | .mrow c d ta b => Sys2Proof.Machine.execMrow c d ta b s
  | .mwrow c td a b => Sys2Proof.Machine.execMwrow c td a b s
  | .mfold c mk rm td ts a b => Sys2Proof.Machine.execMfold c mk rm td ts a b s
  | .mcvt c mk t rm td ta src => Sys2Proof.Machine.execMcvt c mk t rm td ta src s
  | .cpwait d a => Sys2Proof.Machine.execCpwait d a s
  | .cpcancel a => Sys2Proof.Machine.execCpcancel a s
  | .halfNop => Sys2Proof.Machine.execHalfNop s
  | .halfMov d a mate => Sys2Proof.Machine.execHalfMov d a mate s
  | .halfAdd d a mate => Sys2Proof.Machine.execHalfAdd d a mate s
  | .halfSub d a mate => Sys2Proof.Machine.execHalfSub d a mate s
  | .halfAnd d a mate => Sys2Proof.Machine.execHalfAnd d a mate s
  | .halfOr d a mate => Sys2Proof.Machine.execHalfOr d a mate s
  | .halfXor d a mate => Sys2Proof.Machine.execHalfXor d a mate s
  | .halfShl d a mate => Sys2Proof.Machine.execHalfShl d a mate s
  | .halfShr d a mate => Sys2Proof.Machine.execHalfShr d a mate s
  | .halfSra d a mate => Sys2Proof.Machine.execHalfSra d a mate s
  | .halfAddi d a imm mate => Sys2Proof.Machine.execHalfAddi d a imm mate s
  | .halfAndi d a imm mate => Sys2Proof.Machine.execHalfAndi d a imm mate s
  | .halfShli d a n mate => Sys2Proof.Machine.execHalfShli d a n mate s
  | .halfShri d a n mate => Sys2Proof.Machine.execHalfShri d a n mate s
  | .halfSrai d a n mate => Sys2Proof.Machine.execHalfSrai d a n mate s
  | .halfSlti d a imm mate => Sys2Proof.Machine.execHalfSlti d a imm mate s
  | .halfMovi d imm mate => Sys2Proof.Machine.execHalfMovi d imm mate s
  | .halfLdD d a imm => Sys2Proof.Machine.execHalfLdD d a imm s
  | .halfLdW d a imm => Sys2Proof.Machine.execHalfLdW d a imm s
  | .halfStD d a imm => Sys2Proof.Machine.execHalfStD d a imm s
  | .halfStW d a imm => Sys2Proof.Machine.execHalfStW d a imm s
  | .halfBz a imm => Sys2Proof.Machine.execHalfBz a imm s
  | .halfBnz a imm => Sys2Proof.Machine.execHalfBnz a imm s
  | .halfQpush q a mate => Sys2Proof.Machine.execHalfQpush q a mate s
  | .halfQpop d q mate => Sys2Proof.Machine.execHalfQpop d q mate s
  | .applicationCoreAccess => Sys2Proof.Machine.execApplicationCoreAccess s
  | .dispatchBucketCharge => Sys2Proof.Machine.execDispatchBucketCharge s
  | .segmentWriteCompletion => Sys2Proof.Machine.execSegmentWriteCompletion s
  | .checkpointComplete => Sys2Proof.Machine.execCheckpointComplete s

end Sys2Proof.Machine
end

