-- ==== Sys2Proof/Machine/Turn.lean ====
section
/-! DEFINITION. What moves at a step (log entry 1): the turn of a strand, in which its chanter takes the word at PC; an event;
the passing of cycles; and what goes on by itself while nothing is presented. -/

namespace Sys2Proof.Machine

/-- The rows of the opcode table that are events: nothing fetches them. -/
def isEvent (i : Instr) : Bool :=
  match i with
  | .dieLinkFlit | .codeWordRead | .poisonedLineEviction | .scrubRead | .stackTemperatureReport | .selfRefreshEntry
  | .thermwaitExpiry | .stkthermWrite | .thermwaitWrite | .pcieInboundRequest | .downstreamDmaWrite | .cxlMemRead
  | .ualinkRequestSend | .peerRead | .peerWrite | .peerAtomic | .unknownPacket | .responseArrival | .laneRepairRequest
  | .replayDrainEnd | .laneRepairDone | .portRetrain | .trainingEnd | .portDown | .bootStart | .bootStepPass | .bootStepFail
  | .bootStepTimeout | .bootctlClr | .bootctlRst | .measurementExtend | .attcmdGo | .attestationReportWrite | .pcumaskWrite
  | .plsportWrite | .pmbaseWrite | .partitionRegisterWrite | .powceilWrite | .vdctlEnSet | .vdctlEnClear | .vdRegisterWrite
  | .notifyWrite | .cntdataWrite | .cancelcmdStrand | .cancelcmdLaunch | .cancelcmdGraph | .cancelcmdPhase | .cancelcmdJob
  | .nopTake | .launchTake | .waitTake | .signalTake | .phaseTake | .waitRetire | .signalRetire | .phaseRetire
  | .launchEligible | .strandStart | .launchRetire | .strandEnd | .frameStart | .lendingPoint | .laneRenegotiation
  | .laneFifoService | .convoyStart | .convoyRetire | .heldOperationRelease | .squash | .squashDeadline | .qdeadTimeout
  | .registerLineFill | .replayRelease | .migctlGo | .migrationCopyEnd | .migctlRel | .wcbLineTimeout | .zeroLineEviction
  | .mergePartArrival | .mergeTimeout | .unorderedMergeArrival | .accessTableWrite | .leasedAccessArrival
  | .lenderEntryWrite | .leaseSetupMessage | .leaseRevokeMessage | .revokeDrainDone | .borrowerEntryWrite
  | .leaseDoneMessage | .revtoExpiry | .trapTaken | .faultRecordPost | .fqresWrite | .contextSave | .cuShareSave
  | .divertedLanding | .restore | .asyncfaultDelivery | .ctxkillWrite | .killComplete | .requestAtTarget | .dbgrelWrite
  | .trstatFlush | .segmentSeal | .segmentSend | .checkpointTimer | .sinvcmdWrite | .sinvComplete | .copyBeat
  | .remoteShareBeat | .chunkLanded | .transferComplete | .cntwaitWake | .cntwaitTimeout | .waitaWake | .waitaTimeout
  | .cpwaitEnd | .cpwaitTimeout | .registerWrite | .applicationCoreAccess | .dispatchBucketCharge | .segmentWriteCompletion
  | .checkpointComplete => true
  | _ => false

/-- The words that stand in convoys of more than one word (R89, R90). -/
def joins (i : Instr) : Bool :=
  match i with
  | .vadd _ _ _ _ _ _ | .vsub _ _ _ _ _ _ | .vmul _ _ _ _ _ _ | .vmulh _ _ _ _ _ _ | .vmin _ _ _ _ _ _ | .vmax _ _ _ _ _ _
  | .vand _ _ _ _ _ _ | .vor _ _ _ _ _ _ | .vxor _ _ _ _ _ _ | .vshl _ _ _ _ _ _ | .vshr _ _ _ _ _ _ | .vsra _ _ _ _ _ _
  | .vsadd _ _ _ _ _ _ | .vssub _ _ _ _ _ _ | .vabs _ _ _ _ _ | .vfadd _ _ _ _ _ _ _ | .vfsub _ _ _ _ _ _ _
  | .vfmul _ _ _ _ _ _ _ | .vfdiv _ _ _ _ _ _ _ | .vfsqrt _ _ _ _ _ _ | .vfma _ _ _ _ _ _ _ | .vfms _ _ _ _ _ _ _
  | .vfnma _ _ _ _ _ _ _ | .vfmin _ _ _ _ _ _ | .vfmax _ _ _ _ _ _ | .vfabs _ _ _ _ _ | .vfneg _ _ _ _ _ | .vfrsqe _ _ _ _ _
  | .vfrcpe _ _ _ _ _ | .vfexp2 _ _ _ _ _ _ | .vflog2 _ _ _ _ _ _ | .vcmp _ _ _ _ _ _ _ | .vfcmp _ _ _ _ _ _ _
  | .vfclass _ _ _ _ _ | .mand _ _ _ _ | .mor _ _ _ _ | .mxor _ _ _ _ | .mandn _ _ _ _ | .mnot _ _ _ | .mmov _ _ _
  | .mpopc _ _ _ _ | .mfirst _ _ _ _ | .mpush _ _ | .minv _ | .mpop _ | .mtop _ _ | .vcompress _ _ _ _ _ | .viota _ _ _ _
  | .vperm _ _ _ _ _ _ | .vslideup _ _ _ _ _ _ | .vslidedn _ _ _ _ _ _ | .vbcast _ _ _ _ _ | .vextr _ _ _ _ _
  | .vins _ _ _ _ _ | .vmerge _ _ _ _ _ _ | .vmov _ _ _ _ _ | .vredsum _ _ _ _ _ _ | .vredmin _ _ _ _ _ _
  | .vredmax _ _ _ _ _ _ | .vfredsum _ _ _ _ _ _ _ | .vfredmin _ _ _ _ _ _ | .vfredmax _ _ _ _ _ _ | .vcvt _ _ _ _ _ _
  | .vfcvt _ _ _ _ _ _ | .vresenc _ _ _ _ _ | .vresdec _ _ _ _ _ | .vresmac _ _ _ _ _ | .vresadd _ _ _ _ _
  | .vresmul _ _ _ _ _ | .vld _ _ _ _ _ | .vlds _ _ _ _ _ _ | .vldx _ _ _ _ _ _ | .vldff _ _ _ _ _ _ | .vldsc _ _ _ _ _
  | .vst _ _ _ _ _ | .vsts _ _ _ _ _ _ | .vstx _ _ _ _ _ _ | .vamo _ _ _ _ _ _ _ _ | .mopa _ _ _ _ _ _ _
  | .mops _ _ _ _ _ _ _ | .mzero _ _ | .mldt _ _ _ _ _ _ | .mstt _ _ _ _ _ _ | .mmerge _ _ _ _ _ _ _ | .mrow _ _ _ _
  | .mwrow _ _ _ _ | .mfold _ _ _ _ _ _ _ | .mcvt _ _ _ _ _ _ _ => true
  | _ => false

/-- The state that a meaning answers, changed. -/
def mapState (f : State → State) (r : Result) : Result :=
  match r with
  | .next s => .next (f s)
  | .fault e => .fault e
  | .refused e => .refused e

/-! ### The chanter takes a word (R84 to R90, R209, R242) -/

/-- The cause of a word that decoding rejects. -/
def causeOf : DecodeFault → Cause
  | .illop => .illop
  | .resfield => .resfield
  | .pair => .pair

/-- The word w that the chanter has fetched: its checks, then its meaning. A word that cannot join the convoy being formed
breaks the rule of R90 there. One whose registers a word of the run-ahead buffer has still to write waits for that (R87). -/
def State.take1 (s : State) (w : Word) : Result :=
  match decode w with
  | .error e => .next (s.trapHead (causeOf e) w)
  | .ok i =>
    if !s.me.forming.isEmpty && !joins i then .next (s.trapHead .convoy w)
    else if s.me.owes i.regs then .next (s.await .convoys)
    else mapState (State.noteStep s.me.seq) (exec i s)

/-- An armed breakpoint stops the chanter at a word: not at one that has begun to wait, not inside a convoy, not at the head of one
that is resumed (R209, log entries 52 and 108). -/
def State.breaksAt (s : State) (pc : Word) : Bool :=
  s.me.wordBegun.isNone && s.me.forming.isEmpty && !s.me.skipBrk && s.brkAt pc && (s.me.restartOf pc).isNone

/-- The chanter fetches the word at PC and takes it, or goes on with the word that stands in a wait. One whose request waits takes
nothing. -/
def State.chanterTurn (s : State) : Result :=
  let pc := s.me.ch.pc
  if s.replayHeld false && !s.me.wait.timed then .next s
  else
    let s := if s.replayHeld false then s else s.retrying false
    if s.breaksAt pc then .next (if s.me.pend.isEmpty then s.takeBrk pc else s.await .convoys)
    else match s.me.wordBegun with
      | some w => s.take1 w
      | none =>
        match s.fetchAt pc with
        | .fault s h => .next (s.raise { stopAt s.me.headPc h.cause h.info with gen := h.gen })
        | .wait u => .next (if s.me.wait.timed then s else (s.keepWait u).await .replay)
        | .ok s w => (s.beginWord w).take1 w

/-! ### The turn of a strand -/

/-- A cancel stops at once a strand whose SETVL waits in the lane FIFO (R72), or whose vector unit waits in a queue register (R92). -/
def State.stopCancelled (s : State) : Option State :=
  match s.me.pend with
  | p :: _ =>
    if s.me.cancelled.isSome && (s.me.waitingSetvl.isSome || (s.me.vwait.isSome && s.me.blockedOn.isSome)) then
      some ((s.onMe fun k => k.rollback p.seq p.snap).leaveFifo.endByCancel)
    else none
  | [] => none

/-- Its vector stream goes on as far as it can, in its own turns where it has them. -/
def State.flow (s : State) : State :=
  if s.me.ahead then (if s.me.wait = .none && s.me.trap.isNone && !s.me.stepping then s else s.vecTurn) else s.drain

/-- An answer or a release has come for a request of the strand: its word goes on, which issues nothing (R76, R113). -/
def State.comesHome (s : State) : Bool :=
  s.peerIn.any (fun x => s.me.asks x.who) || s.replay.any fun w => w.go && s.me.asks w.who

/-- A strand that takes words: its vector stream goes on; then it stops where it has to, an asynchronous fault is delivered (R179,
R180), or its chanter takes the word at PC. -/
def State.takeWords (s : State) : Result :=
  let s := s.flow
  if !s.me.flows || s.me.trap.isSome then .next s
  else if s.me.stepping then
    .next (if s.me.pend.isEmpty then s.takeStop (stopAt s.me.ch.pc .step 0) (esvOutside s.me.grant) else s)
  else if s.asyncReady then .next s.deliverAsync
  else s.chanterTurn

/-- The strand in `me` takes its turn. One that is being squashed gets its convoy done (R174); one that ends gets its older convoys
done, then what its end waits for (R281); of a muted one the released operations go on (R88); a parked or saved one does nothing; one
whose device has no dispatch token issues nothing (R76). -/
def State.meTurn (s : State) : Result :=
  let k := s.me
  if k.squashing.isSome then .next s.squashTurn
  else if k.status = .ending && !k.muted then .next (if k.pend.isEmpty then s.tryEnd else s.stopCancelled.getD s.flow)
  else if k.muted && !k.saved && !k.pend.isEmpty then .next s.vecTurn
  else if !k.flows then .next s
  else match s.stopCancelled with
  | some t => .next t
  | none =>
    if !s.dispatchable k.vd && !s.comesHome then .next s
    else if s.vectorExpired then .next s.vectorDead
    else s.takeWords

/-! ### The strands take turns -/

/-- Strand `k` of those that exist is the one whose turn it is. -/
def State.turnTo (s : State) (k : Nat) : State :=
  let s := if s.me.status = .empty then
      (match s.others with
       | o :: l => { s with me := o, others := l }
       | [] => s)
    else s
  match k with
  | 0 => s
  | j + 1 =>
    match s.others[j]? with
    | some o => { s with me := o, others := s.others.eraseIdx j ++ [s.me] }
    | none => s

/-- The pipes of a strand were busy for some of n cycles (R93). -/
def Strand.busy (k : Strand) (n i : Nat) : Strand :=
  let add := fun (x : BitVec 32) (j : Nat) => sat32 (x.toNat + min n (Config.freeBusy (2 * i + j)).toNat)
  if k.flows then { k with strip := { k.strip with ab := add k.strip.ab 0, mb := add k.strip.mb 1 } } else k

/-- n cycles pass. -/
def State.elapse (s : State) (n : Nat) : State :=
  { s with now := s.now + n, fresh := s.fresh + 1, me := s.me.busy n s.fresh, others := s.others.map fun k => k.busy n s.fresh }

/-- One turn of the agenda. -/
def State.runTurn (s : State) (t : Turn) : Result :=
  match t with
  | .strand k => (s.turnTo k).meTurn
  | .event i p => if isEvent i then exec i { s with pins := p } else .next s
  | .elapse n => .next (s.elapse n)
  | .ahead k b => .next ((s.turnTo k).onMe fun m => { m with ahead := b })

/-! ### What goes on by itself -/

def pinsOf (port addr count value : Nat) : Pins := ⟨port, addr, value, count, true, []⟩

/-- Events inside the device that need nothing from outside, in the order in which they are tried. -/
def State.inner (s : State) : List (Instr × Pins) :=
  let each := fun (n : Nat) (l : List Instr) => (List.range n).flatMap fun i => l.map fun x => (x, pinsOf 0 0 i 0)
  let devs := (List.range 64).filter fun v => s.vdEn v
  let busy := devs.filter fun v => s.ckBusy v
  each s.xfers.length [.transferComplete, .chunkLanded, .copyBeat, .remoteShareBeat, .divertedLanding] ++
  each s.partq.length [.mergePartArrival, .unorderedMergeArrival] ++
  each s.merges.length [.mergeTimeout] ++
  (s.cus.flatMap fun c => c.2.wcb.map fun l => (.wcbLineTimeout, pinsOf c.1 (128 * l.line) 0 0)) ++
  (s.replay.map fun w => (.replayRelease, pinsOf (homeSlice w.line) 0 0 0)) ++
  each s.replay.length [.thermwaitExpiry] ++
  (if s.sendq.isEmpty then [] else s.upPorts.map fun p => (.ualinkRequestSend, pinsOf p 0 0 0)) ++
  (s.posts.map fun r => (.faultRecordPost, pinsOf r.vd 0 0 0)) ++
  (s.strands.flatMap fun k => (if k.onCu then k.absent else []).map fun i => (.registerLineFill, pinsOf k.vd k.imgidx i 0)) ++
  (s.cus.map fun c => (.laneFifoService, pinsOf c.1 0 0 0)) ++
  (s.launches.flatMap fun l => [(.launchRetire, pinsOf 0 0 0 l.key), (.launchEligible, pinsOf 0 0 0 l.key)]) ++
  (s.queues.flatMap fun q => [(.waitRetire, pinsOf (q.1 / 256) (q.1 % 256) 0 0), (.signalRetire, pinsOf (q.1 / 256) (q.1 % 256) 0 0),
    (.phaseRetire, pinsOf (q.1 / 256) (q.1 % 256) 0 0)]) ++
  (devs.flatMap fun v => [(.nopTake, pinsOf v 0 0 0), (.launchTake, pinsOf v 0 0 0), (.waitTake, pinsOf v 0 0 0),
    (.signalTake, pinsOf v 0 0 0), (.phaseTake, pinsOf v 0 0 0), (.strandStart, pinsOf v 0 0 0)]) ++
  ((devs.filter fun v => s.ckOn v).map fun v => (.checkpointTimer, pinsOf v 0 0 0)) ++
  (s.strands.flatMap fun k =>
    if !k.muted then []
    else if s.ckBusy k.vd then [(.contextSave, pinsOf k.vd k.imgidx 0 0)]
    else if (s.ckpt k.vd).held.contains k.imgidx then [(.restore, pinsOf k.vd k.imgidx 0 k.cu)]
    else []) ++
  (s.cus.flatMap fun c => (c.2.shares.filter fun h => busy.contains h.vd).map fun h => (.cuShareSave, pinsOf c.1 0 h.idx h.vd)) ++
  (busy.map fun v => (.checkpointComplete, pinsOf v 0 0 0)) ++
  ((List.range 4).filter fun d => s.migBusy d).map (fun d => (.migrationCopyEnd, pinsOf d 0 0 0)) ++
  [(.killComplete, pinsOf 0 0 0 0), (.sinvComplete, pinsOf 0 0 0 0), (.segmentSeal, pinsOf 0 0 0 0), (.segmentSend, pinsOf 0 0 0 0)]

/-- The first event of a list that changes the state. -/
def State.firstEvent (s : State) : List (Instr × Pins) → Option Result
  | [] => none
  | (i, p) :: l =>
    match exec i { s with pins := p } with
    | .next t => if { t with pins := s.pins } = s then s.firstEvent l else some (.next { t with pins := s.pins })
    | r => some r

/-- A cycle passes, with what is due in it: the refill, the lending of every arbiter and the charge of the dispatch
bucket (R74 to R76). -/
def State.cycle (s : State) : State :=
  let s := s.elapse 1
  let fire := fun (s : State) (i : Instr) (p : Pins) => { after (exec i { s with pins := p }) s with pins := s.pins }
  let s := if s.now % 4096 = 0 then fire s .frameStart Pins.none else s
  let arbiters := (s.buckets.map fun x => x.1 / 64).eraseDups
  let s := if s.now % 4096 = 2048 then arbiters.foldl (fun s n => fire s .lendingPoint (pinsOf 0 n 0 0)) s else s
  if s.now % 16 = 0 then ((s.strands.map fun k => k.vd).eraseDups).foldl (fun s v => fire s .dispatchBucketCharge (pinsOf v 0 0 0)) s
  else s

/-- The first strand other than the one in `me` that may take a word. -/
def State.nextReady (s : State) : Option Nat :=
  (List.range s.others.length).find? fun i => match s.others[i]? with
    | some k => k.flows && k.wait == .none
    | none => false

/-- The turn of the strand in `me`, with nothing on the agenda: while it waits for something the device goes on, the other
strands take their turns, and cycles pass. -/
def State.idleTurn (s : State) : Result :=
  match s.firstEvent s.inner with
  | some r => r
  | none =>
    match s.nextReady with
    | some i => (s.turnTo (i + 1)).meTurn
    | none =>
      match s.meTurn with
      | .next t => .next (if t = s then s.cycle.turnTo 1 else t)
      | r => r

/-- A step with nothing on the agenda. -/
def State.freeTurn (s : State) : Result :=
  if s.me.flows && s.me.wait == .none && s.dispatchable s.me.vd then s.meTurn else s.idleTurn

end Sys2Proof.Machine
end

