-- ==== Sys2Proof/Machine/Step.lean ====
section
/-! DEFINITION. One step of the machine. -/

namespace Sys2Proof.Machine

/-- One step (log entry 1): what the agenda names moves; with nothing on it the strand whose turn it is takes its word, or
while it waits the device goes on. Muted strands see what it left where they watch (R152, R333). -/
def step (s : State) : Host.Outcome State Fault Refusal :=
  mapState State.noteWatches (match s.agenda with
    | t :: l => ({ s with agenda := l } : State).runTurn t
    | [] => s.freeTurn)

/-- Where `withFetchWord` places the word. -/
def fetchBase : Nat := 0x10000

/-- The state in which the next step fetches the 64-bit word `w` and runs it, as the first word of a strand that a launch has
just started (log entry 13): slot 0 is resident and executable over the bytes, device 0 may read them and holds a dispatch
token. Everything else stands as it was. -/
def State.withFetchWord (s : State) (_nbits w : Nat) : State :=
  let k := s.me
  let d : Desc := ⟨0, BitVec.ofNat 64 fetchBase, 0x10000, 0x2400000000000000, 0, false⟩
  let s := ((s.setReg (Reg.access k.vd + 0x10) (BitVec.ofNat 64 fetchBase)).setReg (Reg.access k.vd + 0x18) 0x4000000000010000)
  let s := s.setBucket .dispatch k.vd ⟨1, 0, 0⟩
  let s := s.setHomeBytes fetchBase (leBytes 8 w)
  { s with
    agenda := []
    poison := s.poison.filter fun l => l != fetchBase / 128
    l2 := s.l2.filter fun t => t.line != fetchBase / 128
    crit := []
    replay := s.replay.filter fun w => !k.asks w.who
    sendq := s.sendq.filter fun r => !k.asks r.who
    ports := s.ports.map fun p => (p.1, p.2.filter fun r => !k.asks r.who)
    me := { k with
      status := .running, muted := false, saved := false, squashing := none, wait := .none, trap := none, stepping := false
      pend := [], forming := [], vwait := none, async := [], skipBrk := true, resume := none
      armed := false, woken := none, begun := none, watching := none, amo := none
      ch := { k.ch with pc := 0 }
      dcache := d :: k.dcache.filter fun x => x.slot != 0 } }

end Sys2Proof.Machine
end

