-- ==== Sys2Proof/Safety.lean ====
section
/-! DEFINITION. What counts as a safe run, in the terms that claims use: the canonical form of memory, a step that answers. -/

namespace Sys2Proof.Machine

/-- The canonical form of memory: addresses strictly rising, no entry equal to what an unlisted byte reads as. -/
def Memory.wf (l : List Host.Cell) : Bool := Assoc.wf byteDefault l

/-- The memory of a state stands in its canonical form. -/
abbrev State.memOk (s : State) : Prop := Memory.wf s.mem = true

/-- The canonical form of the register list: addresses strictly rising, no entry equal to the register's reset value. -/
def Regs.wfFrom (lo : Nat) : List (Nat × Word) → Bool
  | [] => true
  | (a, v) :: l => decide (lo ≤ a) && decide (v ≠ regReset a) && wfFrom (a + 1) l

abbrev State.regsOk (s : State) : Prop := Regs.wfFrom 0 s.adie = true

/-- No byte of memory reads otherwise than before. -/
def State.sameBytes (s t : State) : Prop := ∀ a : Nat, t.homeByte a = s.homeByte a

/-- No request of the strand's vector unit, or of its chanter, waits. -/
abbrev State.quiet (s : State) (vec : Bool) : Prop :=
  (s.replay.any fun w => w.who == s.me.who vec) = false ∧ s.peerPending (s.me.who vec) = false

/-- The strand in `me` takes a vector word that stands alone and runs at once: nothing older is pending or forming, no resume,
trap or breakpoint is due, no request of its vector unit waits, its stream has no turns of its own, it holds lanes where VL asks for them, and its register lines
are cached. -/
def State.lone (s : State) : Prop :=
  s.me.pend = [] ∧ s.me.forming = [] ∧ s.me.early = [] ∧ s.me.pops = [] ∧ s.me.ahead = false ∧ s.me.resume = none ∧
  s.me.trap = none ∧ s.me.vwait = none ∧ s.me.absent = [] ∧ (s.me.grant ≠ 0 ∨ s.me.ch.vl = 0) ∧
  (s.me.skipBrk = true ∨ s.brkAt s.me.ch.pc = false) ∧ s.quiet true

/-- The convoy of a word that stands alone, as it starts with the queue entry it took. -/
def State.loneConvoy (s : State) (x : VWord) (took : List (QNum × QEntry)) : Convoy :=
  ⟨s.me.ch.pc, [x], s.me.ch.vl, s.me.ch.mvl, s.me.ch.fpctl, none, true, took, s.me.skipBrk⟩

def State.loneItem (s : State) (x : VWord) (took : List (QNum × QEntry)) : Pend :=
  ⟨s.me.seq, s.me.ch, .convoy (s.loneConvoy x took)⟩

/-- The state in which it runs: the chanter has moved on, the entry is taken. -/
def State.loneStart (s : State) (x : VWord) (took : List (QNum × QEntry)) (qs : Vector (List QEntry) 4) : State :=
  s.next.onMe fun k => { k with pend := [s.loneItem x took], forming := [], toVec := qs, vwait := none }

/-- How a word that stands alone runs: whole, at the lengths and FPCTL of the strand, with the entry it takes. -/
def State.loneHow (s : State) (ent : Word) : How :=
  { vl := s.me.ch.vl, mvl := s.me.ch.mvl, fpctl := s.me.ch.fpctl, sel := fun _ => true, keep := fun _ => true,
    sup := fun _ => false, supTrap := fun _ => false, ent := ent, ixr := false, early := fun _ _ => false, whole := true, dry := false }

end Sys2Proof.Machine
end

