-- ==== Sys2Proof/Certificates/Slice0/Obligations.lean ====
section
/-! DEFINITION. The statements for the provers. A completion statement has `exec i s = .next t` for its conclusion; where `t`
is written out, the equation is the frame as well: what it does not name is as before. -/

open Sys2Proof Sys2Proof.Machine

/-- Between s and u only the chanter's registers differ, and the marks of the word it took. -/
def Sys2Proof.Claims.onlyCh (s u : State) : Prop :=
  u = s.onMe fun k => { k with ch := u.me.ch, wait := u.me.wait, seq := u.me.seq, skipBrk := u.me.skipBrk, resume := u.me.resume }

/-- Only those and the strand's queues differ. -/
def Sys2Proof.Claims.onlyQueues (s u : State) : Prop :=
  u = s.onMe fun k => { k with ch := u.me.ch, wait := u.me.wait, seq := u.me.seq, skipBrk := u.me.skipBrk, resume := u.me.resume, toVec := u.me.toVec, fromVec := u.me.fromVec, early := u.me.early, pops := u.me.pops }

/-! ### Encoding (spec 12) -/

/-- Every well-formed instruction that has a word decodes back to itself, with every operand it holds. -/
def Obligations.DecodeOfEncode : Prop :=
  ∀ (i : Instr) (w : Word), i.wf = true → encode i = some w → decode w = .ok i

/-- Each word has one meaning and no bit of it is dropped: what decodes is well-formed and encodes to that word. -/
def Obligations.EncodeOfDecode : Prop :=
  ∀ (i : Instr) (w : Word), decode w = .ok i → i.wf = true ∧ encode i = some w

/-- R242 step 1: a full word whose opcode is not in the map of R246, 0x300 to 0x3FF included, traps ILLOP. -/
def Sys2Proof.Claims.UnknownOpcodes : Prop :=
  ∀ w : Word, w.getLsbD 63 = false → opKnown (w.extractLsb' 52 10).toNat = false → decode w = .error .illop

/-- R238, R242: a pair word whose bit 62 is set decodes to no instruction. -/
def Sys2Proof.Claims.PairBit62 : Prop :=
  ∀ w : Word, w.getLsbD 63 = true → w.getLsbD 62 = true → ∀ i, decode w ≠ .ok i

/-- A full word of an opcode outside the map traps ILLOP, and a pair word with bit 62 set decodes to no instruction. -/
def Obligations.WordsThatDecodeToNothing : Prop := Claims.UnknownOpcodes ∧ Claims.PairBit62

/-- Words that spec 12 to 16 write out, and what they stand for. -/
def Obligations.WordsOfTheSpec : Prop :=
  decode 0x082010A0FFFFFFFD = .ok (.blt 4 5 0xFFFFFFFD) ∧
  decode 0x08B0000500000005 = .ok (.loopi 0 5 5) ∧
  decode 0x0930000001001008 = .ok (.setci .fpctl 0x01001) ∧
  decode 0x1161_0460_B800_0000 = .ok (.vfma false 0 .f32 .dyn 2 (.vec 1) 3) ∧
  decode 0x1161_0460_A800_0000 = .error .resfield ∧
  decode 0x3000_0000_0000_0000 = .error .illop ∧
  decode 0x8525_2000_9239_0010 = .error .pair

/-! ### Integer words (R264 to R266) -/

/-- A w-bit result extended to 64 bits as its type gives: by sign for i types, by zero for n types. -/
def Sys2Proof.Claims.widen (t : IntTy) {w : Nat} (x : BitVec w) : Word := if intSigned t then x.signExtend 64 else x.setWidth 64

/-- The register forms of R265, on w-bit vectors. -/
def Sys2Proof.Claims.intForms : List ((IntTy → SReg → SReg → SReg → Instr) × ((w : Nat) → BitVec w → BitVec w → BitVec w)) :=
  [(.add, fun _ x y => x + y), (.sub, fun _ x y => x - y), (.mul, fun _ x y => x * y),
   (.mulh, fun w x y => (x.signExtend (2 * w) * y.signExtend (2 * w)).extractLsb' w w),
   (.mulhn, fun w x y => (x.setWidth (2 * w) * y.setWidth (2 * w)).extractLsb' w w),
   (.div, fun w x y => if y = 0 then BitVec.allOnes w else x.sdiv y),
   (.divn, fun w x y => if y = 0 then BitVec.allOnes w else x / y),
   (.rem, fun _ x y => if y = 0 then x else x.srem y),
   (.remn, fun _ x y => if y = 0 then x else x % y),
   (.and, fun _ x y => x &&& y), (.or, fun _ x y => x ||| y), (.xor, fun _ x y => x ^^^ y), (.andn, fun _ x y => x &&& ~~~y),
   (.shl, fun w x y => x <<< (y.toNat % w)), (.shr, fun w x y => x >>> (y.toNat % w)),
   (.sra, fun w x y => x.sshiftRight (y.toNat % w)), (.rotr, fun w x y => x.rotateRight (y.toNat % w)),
   (.min, fun _ x y => if y.slt x then y else x), (.max, fun _ x y => if x.slt y then y else x),
   (.minn, fun _ x y => if y.ult x then y else x), (.maxn, fun _ x y => if x.ult y then y else x),
   (.slt, fun w x y => if x.slt y then BitVec.ofNat w 1 else 0), (.sltn, fun w x y => if x.ult y then BitVec.ofNat w 1 else 0),
   (.seq, fun w x y => if x = y then BitVec.ofNat w 1 else 0)]

/-- ADD, SUB, MUL, MULH, MULHN, DIV, DIVN, REM, REMN, AND, OR, XOR, ANDN, SHL, SHR, SRA, ROTR, MIN, MAX, MINN, MAXN, SLT,
SLTN and SEQ complete in every state: d takes the result, and but for the move to the next word nothing else changes. -/
def Sys2Proof.Claims.IntRegisterForms : Prop :=
  ∀ f ∈ Claims.intForms, ∀ (t : IntTy) (d a b : SReg) (s : State),
    exec (f.1 t d a b) s =
      .next ((s.setSreg d (Claims.widen t (f.2 (intWidth t) ((s.sreg a).setWidth _) ((s.sreg b).setWidth _)))).next)

/-- The immediate forms of R266 that take a 32-bit immediate. -/
def Sys2Proof.Claims.immForms : List ((IntTy → SReg → SReg → BitVec 32 → Instr) × ((t : IntTy) → (w : Nat) → BitVec w → BitVec w → BitVec w)) :=
  [(.addi, fun _ _ x y => x + y), (.andi, fun _ _ x y => x &&& y), (.ori, fun _ _ x y => x ||| y), (.xori, fun _ _ x y => x ^^^ y),
   (.slti, fun t w x y => if (if intSigned t then x.slt y else x.ult y) then BitVec.ofNat w 1 else 0)]

/-- Those with a shift count. -/
def Sys2Proof.Claims.countForms : List ((IntTy → SReg → SReg → BitVec 6 → Instr) × ((w : Nat) → BitVec w → Nat → BitVec w)) :=
  [(.shli, fun w x n => x <<< (n % w)), (.shri, fun w x n => x >>> (n % w)), (.srai, fun w x n => x.sshiftRight (n % w))]

/-- ADDI, ANDI, ORI, XORI, SLTI, SHLI, SHRI, SRAI, MOVI, MOVHI and CSEL complete in every state, with their results. -/
def Obligations.IntImmediateForms : Prop :=
  (∀ f ∈ Claims.immForms, ∀ (t : IntTy) (d a : SReg) (imm : BitVec 32) (s : State),
    exec (f.1 t d a imm) s =
      .next ((s.setSreg d (Claims.widen t (f.2 t (intWidth t) ((s.sreg a).setWidth _) ((imm.signExtend 64).setWidth _)))).next)) ∧
  (∀ f ∈ Claims.countForms, ∀ (t : IntTy) (d a : SReg) (n : BitVec 6) (s : State),
    exec (f.1 t d a n) s = .next ((s.setSreg d (Claims.widen t (f.2 (intWidth t) ((s.sreg a).setWidth _) n.toNat))).next)) ∧
  (∀ (d : SReg) (imm : BitVec 32) (s : State),
    exec (.movi d imm) s = .next ((s.setSreg d (imm.signExtend 64)).next) ∧
    exec (.movhi d imm) s = .next ((s.setSreg d (imm ++ (s.sreg d).setWidth 32)).next)) ∧
  ∀ (d a b : SReg) (s : State),
    exec (.csel d a b) s = .next ((s.setSreg d (if s.sreg d ≠ 0 then s.sreg a else s.sreg b)).next)

/-- CLZ, CTZ and POPC complete in every state. The count n of CLZ: n is at most w, the n highest bits of x are 0, and the next
one is 1; of CTZ the same from the low end; of POPC the number of bits that are 1. -/
def Sys2Proof.Claims.IntBitCounts : Prop :=
  ∀ (t : IntTy) (d a : SReg) (s : State),
    let w := intWidth t
    let x : BitVec w := (s.sreg a).setWidth w
    (∃ n ≤ w, exec (.clz t d a) s = .next ((s.setSreg d (BitVec.ofNat 64 n)).next) ∧ (∀ i < n, x.getMsbD i = false) ∧
      (n < w → x.getMsbD n = true)) ∧
    (∃ n ≤ w, exec (.ctz t d a) s = .next ((s.setSreg d (BitVec.ofNat 64 n)).next) ∧ (∀ i < n, x.getLsbD i = false) ∧
      (n < w → x.getLsbD n = true)) ∧
    exec (.popc t d a) s = .next ((s.setSreg d (BitVec.ofNat 64 ((List.range w).countP fun i => x.getLsbD i))).next)

/-- The register forms of the integer words: d takes the result of R265, widened as T gives, in every state; nothing else changes
but for the move to the next word. -/
def Obligations.IntegerRegisterForms : Prop := Claims.IntRegisterForms ∧ Claims.IntBitCounts

/-- s0 reads zero and ignores writes; any other register reads what was written, and a write changes no other one. -/
def Obligations.ScalarRegisters : Prop :=
  ∀ (s : State) (r q : SReg) (x : Word),
    s.sreg 0 = 0 ∧ s.setSreg 0 x = s ∧ (r ≠ 0 → (s.setSreg r x).sreg r = x) ∧ (q ≠ r → (s.setSreg r x).sreg q = s.sreg q)

/-! ### Scalar floating point (R189, R191, R267 to R270) -/

/-- Where a scalar floating-point word that can raise exceptions writes, what, and which exceptions it raises (R267, R268). -/
def Sys2Proof.Claims.fpWord (s : State) (i : Instr) : Option (SReg × Word × Flags) :=
  let m := fun rm => modeOf rm s.me.ch.fpctl
  let n := fun r => (s.sreg r).toNat
  let bits := fun (d : SReg) (r : FpRes) => some (d, BitVec.ofNat 64 r.bits, r.fl)
  match i with
  | .fadd t rm d a b => bits d (fpAdd t (m rm) (fpRead t (n a)) (fpRead t (n b)))
  | .fsub t rm d a b => bits d (fpSub t (m rm) (fpRead t (n a)) (fpRead t (n b)))
  | .fmul t rm d a b => bits d (fpMul t (m rm) (fpRead t (n a)) (fpRead t (n b)))
  | .fdiv t rm d a b => bits d (fpDiv t (m rm) (fpRead t (n a)) (fpRead t (n b)))
  | .fsqrt t rm d a => bits d (fpSqrt t (m rm) (fpRead t (n a)))
  | .fma t rm d a b => bits d (addProd t (m rm) (fpProd (fpRead t (n a)) (fpRead t (n b))) (fpRead t (n d)))
  | .fmin t d a b => bits d (fpMinMax t false (n a) (n b))
  | .fmax t d a b => bits d (fpMinMax t true (n a) (n b))
  | .fcmp t k d a b => let r := fpCmp k (fpRead t (n a)) (fpRead t (n b)); some (d, if r.1 then 1 else 0, r.2)
  | .fcvt k rm d a => match k with
    | .ff dst src => bits d (cvtFF dst src (m rm) (n a))
    | .fi dst src => let r := cvtFI (intWidth dst) (intSigned dst) src (m rm) (n a); some (d, extendInt dst r.bits, r.fl)
    | .ofInt dst src =>
      bits d (cvtIF dst (m rm) (if intSigned src then toSigned (intWidth src) (n a) else (n a % 2 ^ intWidth src : Nat)))
  | _ => none

/-- FADD, FSUB, FMUL, FDIV, FSQRT, FMA, FMIN, FMAX, FCMP and FCVT complete where FPCTL enables none of their exceptions: d
takes the result, FPFLG the exceptions. FCLASS completes in every state. -/
def Sys2Proof.Claims.FpScalarResults : Prop :=
  (∀ (s : State) (i : Instr) (d : SReg) (x : Word) (fl : Flags), Claims.fpWord s i = some (d, x, fl) →
    fl &&& s.me.ch.fpctl.extractLsb' 8 5 = 0 →
    exec i s = .next (((s.onMe fun k => { k with fpflg := k.fpflg ||| fl.setWidth 32 }).setSreg d x).next)) ∧
  ∀ (s : State) (t : FpTy) (d a : SReg),
    exec (.fclass t d a) s = .next ((s.setSreg d (BitVec.ofNat 64 (fpClass t (s.sreg a).toNat))).next)

/-- The trap of enabled exceptions is taken at the word, the first of FPINV, FPDZ, FPOVF, FPUNF and FPINX with 0xFFFF in TINFO;
d and FPFLG stand. -/
def Sys2Proof.Claims.FpScalarTraps : Prop :=
  ∀ (s : State) (i : Instr) (d : SReg) (x : Word) (fl : Flags) (c : Cause), Claims.fpWord s i = some (d, x, fl) →
    s.me.pend = [] → fpCause (fl &&& s.me.ch.fpctl.extractLsb' 8 5) = some c →
    ∃ t, exec i s = .next t ∧ t = s.takeStop (stopAt s.me.ch.pc c 0xFFFF) (esvOutside s.me.grant) ∧ t.me.ch.s = s.me.ch.s ∧
      t.me.fpflg = s.me.fpflg

/-- The scalar floating-point words, with no enabled exception and with one. -/
def Obligations.FpScalarWords : Prop := Claims.FpScalarResults ∧ Claims.FpScalarTraps

/-- A NaN operand of FADD, FSUB, FMUL, FDIV or FMA gives the canonical NaN in every format and rounding mode, and a signalling
one raises invalid (R190). -/
def Obligations.NaNOperands : Prop :=
  ∀ (k : FpOp) (t : FpTy) (m : Rm) (a b c : Nat), k ≠ .min → k ≠ .max →
    (fpRead t a).isNaN = true ∨ (fpRead t b).isNaN = true →
    (fpOp k t m a b c).bits = canonNaN t ∧
    (fpRead t a = .nan true ∨ fpRead t b = .nan true → (fpOp k t m a b c).fl = flagI)

/-! ### Branches, loops, traps (R90, R167, R168, R271 to R277) -/

/-- The conditional branches with their conditions (R271). -/
def Sys2Proof.Claims.branches : List ((SReg → SReg → BitVec 32 → Instr) × (Word → Word → Prop)) :=
  [(.beq, fun x y => x = y), (.bne, fun x y => x ≠ y), (.blt, fun x y => x.toInt < y.toInt), (.bge, fun x y => y.toInt ≤ x.toInt),
   (.bltn, fun x y => x.toNat < y.toNat), (.bgen, fun x y => y.toNat ≤ x.toNat)]

/-- BEQ, BNE, BLT, BGE, BLTN and BGEN: not taken they go to the next word; taken to PC + 8 x sext(DISP32), where that is not
inside a convoy; a target inside a convoy traps BADTARGET with the target in TINFO. -/
def Sys2Proof.Claims.ConditionalBranches : Prop :=
  ∀ f ∈ Claims.branches, ∀ (a b : SReg) (disp : BitVec 32) (s : State),
    let t := s.me.ch.pc + 8 * disp.signExtend 64
    (¬ f.2 (s.sreg a) (s.sreg b) → exec (f.1 a b disp) s = .next s.next) ∧
    (f.2 (s.sreg a) (s.sreg b) → s.insideConvoy t = false → exec (f.1 a b disp) s = .next (s.jump t)) ∧
    (f.2 (s.sreg a) (s.sreg b) → s.insideConvoy t = true →
      exec (f.1 a b disp) s = .next (s.raise (stopAt s.me.ch.pc .badtarget t)))

/-- J, JAL, JR and JALR; the link register takes PC + 8, and JALR reads its target first. A register target that is not a
multiple of 8 traps ALIGN. -/
def Sys2Proof.Claims.Jumps : Prop :=
  ∀ (d a : SReg) (disp : BitVec 32) (s : State),
    let t := s.me.ch.pc + 8 * disp.signExtend 64
    let r := s.sreg a
    (s.insideConvoy t = false → exec (.j disp) s = .next (s.jump t) ∧
      exec (.jal d disp) s = .next ((s.setSreg d (s.me.ch.pc + 8)).jump t)) ∧
    (s.insideConvoy r = false → r.extractLsb' 0 3 = 0 → exec (.jr a) s = .next (s.jump r) ∧
      exec (.jalr d a) s = .next ((s.setSreg d (s.me.ch.pc + 8)).jump r)) ∧
    (s.insideConvoy t = true → exec (.j disp) s = .next (s.raise (stopAt s.me.ch.pc .badtarget t)) ∧
      exec (.jal d disp) s = .next (s.raise (stopAt s.me.ch.pc .badtarget t))) ∧
    (s.insideConvoy r = true → r.extractLsb' 0 3 = 0 → exec (.jr a) s = .next (s.raise (stopAt s.me.ch.pc .badtarget r)) ∧
      exec (.jalr d a) s = .next (s.raise (stopAt s.me.ch.pc .badtarget r))) ∧
    (r.extractLsb' 0 3 ≠ 0 → exec (.jr a) s = .next (s.raise (stopAt s.me.ch.pc .align (slotInfo 0 r.toInt))) ∧
      exec (.jalr d a) s = .next (s.raise (stopAt s.me.ch.pc .align (slotInfo 0 r.toInt))))

/-- LOOP and LOOPI: a level that is not active opens with its count, the next word as S and the label as E; with a count of 0
the body is skipped and the level stays free; an active level traps LOOPNEST. -/
def Obligations.LoopWords : Prop :=
  ∀ (lv : BitVec 1) (a : SReg) (n : BitVec 15) (disp : BitVec 32) (s : State),
    let e := s.me.ch.pc + 8 * disp.signExtend 64
    ∀ i cnt, (i = Instr.loop lv a disp ∧ cnt = (s.sreg a).extractLsb' 0 32) ∨ (i = Instr.loopi lv n disp ∧ cnt = n.setWidth 32) →
      (s.me.ch.loops.active lv = true → exec i s = .next (s.raise (stopAt s.me.ch.pc .loopnest 0))) ∧
      (s.me.ch.loops.active lv = false → cnt = 0 → ∃ t, exec i s = .next t ∧ Claims.onlyCh s t ∧
        t.me.ch = { s.me.ch with pc := e }) ∧
      (s.me.ch.loops.active lv = false → cnt ≠ 0 →
        exec i s = .next ((s.onCh fun c => c.openLoop lv cnt (s.me.ch.pc + 8) e).next))

/-- The loop-back test of R274, after a word that transfers no control: with one active level that ends there, LC at most 1
closes the level and falls through, a greater LC counts down and goes back to S. -/
def Sys2Proof.Claims.LoopBackTest : Prop :=
  ∀ (s : State) (t : IntTy) (a b : SReg),
    let c := s.me.ch
    let e := c.pc + 8
    let at0 := c.loops.act0 = true ∧ c.loops.e0 = e
    let at1 := c.loops.act1 = true ∧ c.loops.e1 = e
    ∃ u, exec (.add t 0 a b) s = .next u ∧ Claims.onlyCh s u ∧
      u.me.ch = { c with pc := u.me.ch.pc, loops := u.me.ch.loops, lc0 := u.me.ch.lc0, lc1 := u.me.ch.lc1 } ∧
      (¬ at0 → ¬ at1 → u.me.ch.pc = e ∧ u.me.ch.loops = c.loops ∧ u.me.ch.lc0 = c.lc0 ∧ u.me.ch.lc1 = c.lc1) ∧
      (at0 → ¬ at1 → u.me.ch.lc1 = c.lc1 ∧ u.me.ch.loops.act1 = c.loops.act1 ∧
        (c.lc0.toNat ≤ 1 → u.me.ch.pc = e ∧ u.me.ch.lc0 = 0 ∧ u.me.ch.loops.act0 = false) ∧
        (1 < c.lc0.toNat → u.me.ch.pc = c.loops.s0 ∧ u.me.ch.lc0 = c.lc0 - 1 ∧ u.me.ch.loops = c.loops)) ∧
      (at1 → ¬ at0 → u.me.ch.lc0 = c.lc0 ∧ u.me.ch.loops.act0 = c.loops.act0 ∧
        (c.lc1.toNat ≤ 1 → u.me.ch.pc = e ∧ u.me.ch.lc1 = 0 ∧ u.me.ch.loops.act1 = false) ∧
        (1 < c.lc1.toNat → u.me.ch.pc = c.loops.s1 ∧ u.me.ch.lc1 = c.lc1 - 1 ∧ u.me.ch.loops = c.loops))

/-- Both levels end at one word: the level opened later is tested first, and where it loops back the other is not tested
(R274). -/
def Sys2Proof.Claims.SharedLoopEnd : Prop :=
  ∀ (s : State) (t : IntTy) (a b : SReg),
    let c := s.me.ch
    c.loops.act0 = true → c.loops.e0 = c.pc + 8 → c.loops.act1 = true → c.loops.e1 = c.pc + 8 →
    ∃ u, exec (.add t 0 a b) s = .next u ∧ Claims.onlyCh s u ∧
      (c.loops.later = true → 1 < c.lc1.toNat → u.me.ch.pc = c.loops.s1 ∧ u.me.ch.lc0 = c.lc0 ∧ u.me.ch.lc1 = c.lc1 - 1) ∧
      (c.loops.later = false → 1 < c.lc0.toNat → u.me.ch.pc = c.loops.s0 ∧ u.me.ch.lc1 = c.lc1 ∧ u.me.ch.lc0 = c.lc0 - 1) ∧
      (c.lc0.toNat ≤ 1 → c.lc1.toNat ≤ 1 → u.me.ch.pc = c.pc + 8 ∧ u.me.ch.loops.act0 = false ∧ u.me.ch.loops.act1 = false)

/-- The loop-back test, with one level that ends at the next word and with both. -/
def Obligations.LoopBackTests : Prop := Claims.LoopBackTest ∧ Claims.SharedLoopEnd

/-- BMZ and BMNZ wait until no older convoy that writes the mask stack is left. Then BMZ is taken where the top has no set bit
below VL, and BMNZ where it has one; a target inside a convoy traps BADTARGET. -/
def Obligations.MaskBranches : Prop :=
  ∀ (disp : BitVec 32) (s : State),
    let t := s.me.ch.pc + 8 * disp.signExtend 64
    let some' := ∃ e < s.me.ch.vl, (stackTop s.me.stack).getLsbD e = true
    (s.me.stackPending = true → exec (.bmz disp) s = .next (s.await .convoys) ∧ exec (.bmnz disp) s = .next (s.await .convoys)) ∧
    (s.me.stackPending = false → ∀ i j, (i = Instr.bmz disp ∧ j = Instr.bmnz disp ∧ ¬ some') ∨ (i = .bmnz disp ∧ j = .bmz disp ∧ some') →
      exec j s = .next s.next ∧ (s.insideConvoy t = false → exec i s = .next (s.jump t)) ∧
      (s.insideConvoy t = true → exec i s = .next (s.raise (stopAt s.me.ch.pc .badtarget t))))

/-- The branch words of R271: conditional branches, jumps and links, with the traps of their targets. -/
def Obligations.BranchWords : Prop := Claims.ConditionalBranches ∧ Claims.Jumps

/-- TRAP and BRK with nothing older pending, a handler named in TVEC and none active: TCAUSE takes ACT and the code, TPC the
word, TINFO the immediate, PC goes to TVEC; the scalar registers, VL, lanes and memory stand as they stood (R167, R276). -/
def Sys2Proof.Claims.TrapEntry : Prop :=
  ∀ (imm : BitVec 32) (s : State) (i : Instr) (code : BitVec 32),
    (i = .trap imm ∧ code = 0x39) ∨ (i = .brk imm ∧ code = 0x38) →
    s.me.pend = [] → s.me.ch.tvec.extractLsb' 0 48 ≠ 0 → s.me.ch.tcause.getLsbD 31 = false →
    ∃ t, exec i s = .next t ∧
      t.me.ch = { s.me.ch with tcause := 0x80000000 ||| code, tpc := s.me.ch.pc.extractLsb' 0 48, tinfo := imm.setWidth 64, pc := (s.me.ch.tvec.extractLsb' 0 48).setWidth 64, esv := (Vector.replicate 8 0).set 0 (s.me.grant ++ 0#32) } ∧
      t.me.status = s.me.status ∧ t.me.grant = s.me.grant ∧ t.me.v = s.me.v ∧ t.me.m = s.me.m ∧ t.me.t = s.me.t ∧
      t.me.stack = s.me.stack ∧ t.me.fpflg = s.me.fpflg ∧ t.me.mflg = s.me.mflg ∧ t.me.toVec = s.me.toVec ∧
      t.me.fromVec = s.me.fromVec ∧ t.me.share = s.me.share ∧ t.mem = s.mem ∧ t.counters = s.counters ∧
      t.others = s.others

/-- A class H cause with TVEC 0 or a handler active escalates: the strand parks with its stop, TCAUSE, TPC and TINFO stand, and
the fault record carries ESC (R167, R173). -/
def Sys2Proof.Claims.TrapEscalates : Prop :=
  ∀ (imm : BitVec 32) (s : State), s.me.pend = [] →
    (s.me.ch.tvec.extractLsb' 0 48 = 0 ∨ s.me.ch.tcause.getLsbD 31 = true) →
    ∃ t, exec (.trap imm) s = .next t ∧ t.me.status = .parked ∧
      t.me.ch = { s.me.ch with esv := (Vector.replicate 8 0).set 0 (s.me.grant ++ 0#32) } ∧ t.me.v = s.me.v ∧ t.me.m = s.me.m ∧
      t.me.t = s.me.t ∧ t.me.stack = s.me.stack ∧ t.me.share = s.me.share ∧
      t.me.keep = some (stopAt s.me.ch.pc .trap (imm.setWidth 64)) ∧
      (t.posts ≠ s.posts → ∃ r, t.posts = s.posts ++ [r] ∧ r.esc = true ∧ r.cause = .trap ∧ r.vd = s.me.vd)

/-- TRAP and BRK: the entry of the handler, and the escalation where there is none. -/
def Obligations.TrapTaken : Prop := Claims.TrapEntry ∧ Claims.TrapEscalates

/-- ERET with ACT = 1 clears ACT and goes on at TPC, with the loop-back tests of the levels that end there; where no level loops
back it resumes what TCAUSE, TPC and TINFO name. A TPC inside a convoy traps BADTARGET with ACT as it was; with ACT = 0 ERET
traps PRIV (R168, R275, R277). -/
def Obligations.EretReturns : Prop :=
  ∀ s : State,
    let t := s.me.ch.tpc.setWidth 64
    (s.me.ch.tcause.getLsbD 31 = true → s.insideConvoy t = false →
      ∃ u, exec .eret s = .next u ∧
        u = s.onMe (fun k => { k with ch := u.me.ch, wait := .none, seq := k.seq + 1, skipBrk := false, resume := u.me.resume, woken := k.woken.filter fun w => w.1 == u.me.ch.pc }) ∧
        u.me.ch = ({ s.me.ch with tcause := s.me.ch.tcause &&& 0x7FFFFFFF } : Chanter).fallTo t ∧
        u.me.resume = (if u.me.ch.pc = t then some s.me.ch.resumes else none)) ∧
    (s.me.ch.tcause.getLsbD 31 = true → s.insideConvoy t = true → exec .eret s = .next (s.raise (stopAt s.me.ch.pc .badtarget t))) ∧
    (s.me.ch.tcause.getLsbD 31 = false → exec .eret s = .next (s.raise (stopAt s.me.ch.pc .priv (wordOf .eret))))

/-! ### Control registers (R253, R254, R278, R279) -/

/-- GETC of a register that needs no wait, or with nothing older pending: d takes the register, zero-extended, and nothing else
changes; CPDONEc acquires first where a transfer of the channel completed (CPGOc is the copy launch). SLOTTB of an unprivileged
strand traps PRIV with the number. -/
def Obligations.GetcReads : Prop :=
  (∀ (d : SReg) (r : CReg) (s : State), (∀ c, r ≠ .cpdone c ∧ r ≠ .cpgo c) → (r = .slottb → s.me.priv = true) →
    (cregWaits r = true → s.me.pend = []) → (r = .lanes → s.me.setvlPending = false) →
    exec (.getc d r) s = .next ((s.setSreg d (s.readCreg r)).next)) ∧
  (∀ (d : SReg) (c : BitVec 2) (s : State), s.me.pend = [] →
    exec (.getc d (.cpdone c)) s = .next (((s.seeDone c).setSreg d (s.readCreg (.cpdone c))).next)) ∧
  ∀ (d : SReg) (s : State), s.me.priv = false →
    exec (.getc d .slottb) s = .next (s.raise (stopAt s.me.ch.pc .priv 0x64))

/-- SETC and SETCI of the registers of the chanter store the low bits, as R279 gives for each; those of FPFLG and MFLG, with nothing
older pending, their low 5 and 6 bits; that of SLOTTB of a privileged strand its low 48 bits, and drops the cached descriptors. -/
def Sys2Proof.Claims.SetcWrites : Prop :=
  ∀ (a : SReg) (imm : BitVec 20) (s : State),
    let x := s.sreg a
    let y : Word := imm.signExtend 64
    let flags := fun (x : Word) => (s.onMe fun k => { k with fpflg := (x.extractLsb' 0 5).setWidth 32 }).next
    let sticky := fun (x : Word) => (s.onMe fun k => { k with mflg := (x.extractLsb' 0 6).setWidth 32 }).next
    let table := fun (x : Word) => (s.onMe fun k => { k with slottb := x.extractLsb' 0 48, dcache := [] }).next
    (∀ r : CReg, cregReadOnly r = false → r ≠ .slottb → r ≠ .fpflg → r ≠ .mflg →
      exec (.setc r a) s = .next ((s.onCh fun c => c.writeCreg r x).next) ∧
      exec (.setci r imm) s = .next ((s.onCh fun c => c.writeCreg r y).next)) ∧
    (s.me.pend = [] → exec (.setc .fpflg a) s = .next (flags x) ∧ exec (.setci .fpflg imm) s = .next (flags y) ∧
      exec (.setc .mflg a) s = .next (sticky x) ∧ exec (.setci .mflg imm) s = .next (sticky y)) ∧
    (s.me.priv = true → s.me.pend = [] →
      exec (.setc .slottb a) s = .next (table x) ∧ exec (.setci .slottb imm) s = .next (table y)) ∧
    (s.me.priv = false →
      exec (.setc .slottb a) s = .next (s.raise (stopAt s.me.ch.pc .priv (wordOf (.setc .slottb a)))) ∧
      exec (.setci .slottb imm) s = .next (s.raise (stopAt s.me.ch.pc .priv (wordOf (.setci .slottb imm)))))

/-- What a write leaves: TVEC a multiple of 8, FPCTL no rounding mode above 4, RIDX at most 256, the others as written. -/
def Sys2Proof.Claims.WrittenRegisters : Prop :=
  ∀ (c : Chanter) (x : Word) (n : BitVec 3),
    (c.writeCreg .tvec x).tvec.extractLsb' 0 3 = 0 ∧ ((c.writeCreg .fpctl x).fpctl.extractLsb' 0 3).toNat ≤ 4 ∧
    ((c.writeCreg (.esv n) x).esv[n.toNat]'n.isLt).extractLsb' 0 32 ≤ 256 ∧
    (c.writeCreg .tinfo x).tinfo = x ∧ (c.writeCreg .tsave x).tsave = x ∧ (c.writeCreg .tpc x).tpc = x.extractLsb' 0 48 ∧
    (c.writeCreg .lc0 x).lc0 = x.extractLsb' 0 32 ∧ (c.writeCreg .lc1 x).lc1 = x.extractLsb' 0 32 ∧
    (c.writeCreg .wtimeo x).wtimeo = x.extractLsb' 0 32 ∧ (c.writeCreg .qtimeo x).qtimeo = x.extractLsb' 0 32

/-- A SETC or SETCI of a read-only register traps PRIV with the register's number in TINFO (R254). -/
def Sys2Proof.Claims.ReadOnlyRegisters : Prop :=
  ∀ (r : CReg) (a : SReg) (imm : BitVec 20) (s : State), cregReadOnly r = true →
    exec (.setc r a) s = .next (s.raise (stopAt s.me.ch.pc .priv (BitVec.ofNat 64 (cregNum r)))) ∧
    exec (.setci r imm) s = .next (s.raise (stopAt s.me.ch.pc .priv (BitVec.ofNat 64 (cregNum r))))

/-- SETC and SETCI of every control register: what they store, and which ones trap. -/
def Obligations.ControlRegisterWrites : Prop := Claims.ReadOnlyRegisters ∧ Claims.SetcWrites ∧ Claims.WrittenRegisters

/-! ### Dealer words, counters, queues (spec 13, R280 to R286; R293) -/

/-- DEAL with nothing older pending, in a context with no checkpoint log, takes the next chunk of the launch: d takes NXT, a the
end of a chunk of max(MINCH, ceil(rem / 2A)) iterations rounded up to GRAN, at most TRIP0, and NXT moves there. A launch at its
end or cancelled, and a strand answered empty before, get NXT twice (R66, R280). -/
def Obligations.DealChunks : Prop :=
  ∀ (d a : SReg) (s : State) (l : Launch), d ≠ a → d ≠ 0 → a ≠ 0 → s.me.pend = [] → s.me.cancelled = none →
    s.launchOf s.me.launch = some l → s.ckOn s.me.vd = false →
    let n := max 1 ((s.strands.filter fun k => k.launch == l.key && !k.emptied).length)
    let rem := l.card.trip0 - l.nxt
    let g := max l.card.gran 1
    let c := max (max l.card.minch 1) ((rem + 2 * n - 1) / (2 * n))
    let hi := min (l.nxt + (c + g - 1) / g * g) l.card.trip0
    let answer := fun (s : State) lo hi => ((s.setSreg d (BitVec.ofNat 64 lo)).setSreg a (BitVec.ofNat 64 hi)).next
    (rem ≠ 0 → l.cancelled = none → s.me.emptied = false →
      exec (.deal d a) s = .next (answer (s.setLaunch { l with nxt := hi }) l.nxt hi)) ∧
    (rem = 0 ∨ l.cancelled ≠ none ∨ s.me.emptied = true →
      exec (.deal d a) s = .next (answer (s.onMe fun k => { k with emptied := true }) l.nxt l.nxt))

/-- EXIT with nothing older pending, no bound transfer and no merge part outstanding and no stack critical: the strip closes and the
strand's stores perform, then the strand ends; no strand stands in its place, and its transfers go on without it (R281). -/
def Obligations.ExitEnds : Prop :=
  ∀ s : State, s.me.pend = [] → s.boundXfers = false → s.partsWait = false → s.crit = [] →
    ∃ t u, s.closing = .ok u () ∧ exec .exit s = .next t ∧ t = u.endStrand ∧ t.me = Strand.none ∧ t.others = s.others

/-- YIELD with nothing older pending: with no strand of equal or higher PRIO waiting for the slot it does nothing; else the
strand, no request of which is on its way to a lender, is squashed with its rollback point at the next word; its stores leave the
write-combining buffer of its CU (R282). -/
def Obligations.YieldSquashes : Prop :=
  ∀ s : State, s.me.pend = [] →
    (s.yields = false → exec .yield s = .next s.next) ∧
    (s.yields = true → s.maySquash = true → s.me.status = .running → s.me.forming = [] → s.me.amo = none →
      (∀ p ∈ s.ports, ∀ r ∈ p.2, s.me.asks r.who = false) →
      ∃ t, exec .yield s = .next t ∧ t.me.muted = true ∧ t.me.grant = 0 ∧ t.me.ch = s.next.me.ch ∧ t.me.v = s.me.v ∧
        t.me.m = s.me.m ∧ t.me.t = s.me.t ∧ t.me.stack = s.me.stack ∧ t.me.toVec = s.me.toVec ∧ t.me.fromVec = s.me.fromVec ∧
        t.me.share = s.me.share ∧ ((s.cu s.me.cu).wcb = [] → t.mem = s.mem) ∧ t.others = s.others)

/-- CNTINC of a counter below CNTN with nothing older pending and no stack critical: VALUE takes the immediate modulo 2^32 and CAN stands (R283);
no other counter changes. Counters stand in their canonical form. -/
def Sys2Proof.Claims.CntincAdds : Prop :=
  ∀ (a : SReg) (imm : BitVec 32) (s : State),
    let i := ((s.sreg a).extractLsb' 0 16).toNat
    s.me.pend = [] → i < s.me.cntn → s.partsWait = false → s.crit = [] → Assoc.wf Counter.zero s.counters = true →
    ∃ t, exec (.cntinc a imm) s = .next t ∧ t.me.ch = s.next.me.ch ∧ t.me.file = s.me.file ∧ t.me.share = s.me.share ∧
      t.mem = (s.drainWcb s.me.cu).mem ∧ t.others = s.others ∧
      (t.counter (s.me.cntbase.toNat + i)).val = (s.counter (s.me.cntbase.toNat + i)).val + imm ∧
      (t.counter (s.me.cntbase.toNat + i)).can = (s.counter (s.me.cntbase.toNat + i)).can ∧
      ∀ j, j ≠ s.me.cntbase.toNat + i → t.counter j = s.counter j

/-- A CNTINC or CNTWAIT of a counter at or above CNTN traps PRIV with the word (R283, R284). -/
def Sys2Proof.Claims.CounterRange : Prop :=
  ∀ (d a b : SReg) (imm : BitVec 32) (s : State), s.me.cntn ≤ ((s.sreg a).extractLsb' 0 16).toNat →
    exec (.cntinc a imm) s = .next (s.raise (stopAt s.me.ch.pc .priv (wordOf (.cntinc a imm)))) ∧
    exec (.cntwait d a b) s = .next (s.raise (stopAt s.me.ch.pc .priv (wordOf (.cntwait d a b))))

/-- CNTINC in range, and CNTINC and CNTWAIT out of range. -/
def Obligations.CounterWords : Prop := Claims.CntincAdds ∧ Claims.CounterRange

/-- CNTWAIT whose threshold is met at its first read, CANCEL, MARK and CPCANCEL, with nothing older pending. CNTWAIT writes the
counter with CAN at bit 32 after an acquire (R229, R284). -/
def Obligations.HeldDealerWords : Prop :=
  (∀ (d a b : SReg) (s : State),
    let i := ((s.sreg a).extractLsb' 0 16).toNat
    let c := s.counter (s.me.cntbase.toNat + i)
    s.me.pend = [] → i < s.me.cntn → s.me.cancelled = none → s.me.woken = none →
    (c.can = true ∨ (c.val - (s.sreg b).extractLsb' 0 32).toNat < 2 ^ 31) →
    exec (.cntwait d a b) s =
      .next (((s.acquire.wake).setSreg d (BitVec.ofNat 64 (c.val.toNat + if c.can then 2 ^ 32 else 0))).next)) ∧
  (∀ (lv : Level) (a : SReg) (s : State), s.me.pend = [] →
    (lv = .phase ∨ lv = .job → field (s.sreg a).toNat 0 13 = s.me.ctx ∨ s.me.priv = true) →
    exec (.cancel lv a) s = .next ((s.doCancel lv (s.sreg a)).next)) ∧
  (∀ (a : SReg) (s : State), s.me.pend = [] →
    exec (.cpcancel a) s = .next ((s.cancelXfer ((s.sreg a).extractLsb' 0 16)).next)) ∧
  ∀ (a : SReg) (s : State), s.me.pend = [] →
    (s.me.ch.trctl.getLsbD 2 = false → exec (.mark a) s = .next s.next) ∧
    (s.me.ch.trctl.getLsbD 2 = true → exec (.mark a) s = .next ((s.emit (s.sreg a) (BitVec.ofNat 64 s.now)
      ((s.me.ch.pc.extractLsb' 0 48).setWidth 64) (commonWord s.me 1 false false)).next))

/-- QPUSH with room and no SKIP pushes the value at the end of its queue; QPOP takes the oldest entry into d. Nothing older is
pending, so that the vector stream has nothing to do (R94, R286). -/
def Obligations.QueueMoves : Prop :=
  ∀ (s : State), s.me.pend = [] → s.me.trap = none →
    (∀ (q : QNum) (a : SReg), s.me.skipOf q = 0 → (s.me.toQ q).length < 16 →
      ∃ t, exec (.qpush q a) s = .next t ∧ t.me.toQ q = s.me.toQ q ++ [⟨s.sreg a, s.me.seq⟩] ∧ t.me.ch = s.next.me.ch ∧
        t.me.fromVec = s.me.fromVec ∧ (∀ r, r ≠ q → t.me.toQ r = s.me.toQ r) ∧ Claims.onlyQueues s t) ∧
    ∀ (q : QNum) (d : SReg) (e : QEntry) (l : List QEntry), s.me.fromQ q = e :: l →
      ∃ t, exec (.qpop d q) s = .next t ∧ t.me.fromQ q = l ∧ t.me.ch = (s.setSreg d e.val).next.me.ch ∧
        t.me.toVec = s.me.toVec ∧ (∀ r, r ≠ q → t.me.fromQ r = s.me.fromQ r) ∧ Claims.onlyQueues s t

/-! ### Slot words and privilege (R262, R287 to R292) -/

/-- SPTR builds slot x 2^56 + a[47:0]; SLOTQ of a window reads as resident with its size, of another slot as its descriptor,
where that can be read;
SLOTSYNC drops the cached descriptor, with nothing older pending. -/
def Obligations.SlotWords : Prop :=
  (∀ (d a : SReg) (k : BitVec 8) (s : State),
    exec (.sptr d k a) s = .next ((s.setSreg d (BitVec.ofNat 64 (k.toNat * 2 ^ 56 + (s.sreg a).toNat % 2 ^ 48))).next)) ∧
  (∀ (d : SReg) (s : State),
    exec (.slotq d 254) s = .next ((s.setSreg d (windowWord s.me.strshare)).next) ∧
    exec (.slotq d 253) s = .next ((s.setSreg d (windowWord s.me.cushare)).next)) ∧
  (∀ (d : SReg) (k : BitVec 8) (s : State), k ≠ 254 → k ≠ 253 → s.descWaits k.toNat = none → (s.desc k.toNat).2.bad = false →
    exec (.slotq d k) s = .next (((s.desc k.toNat).1.setSreg d (slotqWord (s.desc k.toNat).2)).next)) ∧
  ∀ (k : BitVec 8) (s : State), s.me.pend = [] →
    exec (.slotsync k) s = .next ((s.onMe fun m => { m with dcache := m.dcache.filter fun x => x.slot != k.toNat }).next)

/-- The words that only a privileged strand may run. -/
def Sys2Proof.Claims.privileged : Instr → Bool
  | .slotset _ _ | .slotinv _ _ | .incfence _ => true
  | _ => false

/-- SLOTSET, SLOTINV and INCFENCE of an unprivileged strand trap PRIV with the word in TINFO (R262). -/
def Sys2Proof.Claims.PrivilegedWords : Prop :=
  ∀ (i : Instr) (s : State), Claims.privileged i = true → s.me.priv = false →
    exec i s = .next (s.raise (stopAt s.me.ch.pc .priv (wordOf i)))

/-- SLOTSET, SLOTINV and INCFENCE of a privileged strand with nothing older pending: SLOTSET, after a release of
device scope, writes STATE in place where the record is VALID and the slot is at most 251, and else does nothing; SLOTINV sends the
buffered stores of what it names out, and drops its versions once no access goes by one; INCFENCE goes on when no request of an older incarnation is outstanding. -/
def Sys2Proof.Claims.SlotControl : Prop :=
  ∀ (a b : SReg) (s : State), s.me.priv = true → s.me.pend = [] →
    let c := field (s.sreg a).toNat 8 13
    let slot := field (s.sreg a).toNat 0 8
    let valid := s.homeNat (s.ctxRec c) 1 % 2 = 1 ∧ slot ≤ 251
    let names := fun x => (s.sreg a).getLsbD 63 || x == field (s.sreg a).toNat 0 13
    let first := field (s.sreg b).toNat 0 8
    let last := field (s.sreg b).toNat 8 8
    (s.partsWait = false → s.crit = [] → valid → ∃ u, s.release 2 false = .ok u () ∧
      exec (.slotset a b) s = .next ((u.setSlotState c slot ((s.sreg b).extractLsb' 0 3)).next)) ∧
    (¬ valid → exec (.slotset a b) s = .next s.next) ∧
    (last < first → exec (.slotinv a b) s = .next s.next) ∧
    (first ≤ last → (s.flushContexts names).usesVersion names = false →
      exec (.slotinv a b) s = .next (((s.flushContexts names).invalidate names first last).next)) ∧
    (s.outstandingOld (field (s.sreg a).toNat 0 13) = 0 → exec (.incfence a) s = .next s.next)

/-- SLOTSET, SLOTINV and INCFENCE, privileged and not. -/
def Obligations.PrivilegedSlotWords : Prop := Claims.PrivilegedWords ∧ Claims.SlotControl

/-! ### Scalar memory and synchronisation words (spec 15) -/

/-- LD and LDACQ whose access answers: d takes the value widened as the form gives, and no later access of the open strip falls behind
what was read; LDACQ is an acquire first (R141, R321, R322). -/
def Obligations.ScalarLoads : Prop :=
  ∀ (d : SReg) (m : Addr) (s s' : State) (b : List Byte) (ds : Desc),
    (∀ (ch : BitVec 2) (x : LdForm),
      let (n, disp, fmt) := ldSize x
      let r := refOf m.sl (s.sreg m.a) disp
      s.loadWaits r n fmt = false → s.load r n fmt false s.supWatch ch = .ok s' (b, ds) →
      exec (.ld d m ch x) s = .next (((s'.chanterSees r n fmt).setSreg d (ldValue x r ds b)).next)) ∧
    ∀ (t : MemTy) (off : BitVec 16),
      let r := refOf m.sl (s.sreg m.a) off.toInt
      s.loadWaits r (memBytes t) false = false → s.acquire.loadWaits r (memBytes t) false = false →
      s.acquire.load r (memBytes t) false false s.acquire.supWatch 0 = .ok s' (b, ds) →
      exec (.ldacq t d m off) s = .next (((s'.chanterSees r (memBytes t) false).setSreg d (memWiden t (ofLe b))).next)

/-- The strand's own share (slot 254): a load of n aligned bytes inside it, with nothing older pending and no watch on, reads
the bytes of the share in little-endian order; it changes nothing but d, and what the open strip's accesses may fall behind (R102, R119,
R141, R318, R321). -/
def Sys2Proof.Claims.ShareLoads : Prop :=
  ∀ (t : MemTy) (d a : SReg) (sc ch : BitVec 2) (off : BitVec 16) (s : State),
    let at' := (s.sreg a).toInt + off.toInt
    s.me.pend = [] → s.me.dbgctl.getLsbD 2 = false → 0 ≤ at' → at' + memBytes t ≤ 1024 * s.me.strshare → at' % memBytes t = 0 →
    exec (.ld d ⟨sc, 254, a⟩ ch (.bytes t off)) s =
      .next (((s.chanterSees ⟨254, true, at'⟩ (memBytes t) false).setSreg d
        (memWiden t (ofLe ((List.range (memBytes t)).map fun i => Assoc.get byteDefault (at'.toNat + i) s.me.share)))).next)

/-- An aligned store of n bytes into the share, with nothing older pending and no watch on: those bytes of the share take the
low bytes of d, every other byte of it and all of memory read as before, and no register changes (R119, R321). -/
def Sys2Proof.Claims.ShareStores : Prop :=
  ∀ (t : MemTy) (d a : SReg) (sc ch : BitVec 2) (off : BitVec 16) (s : State),
    let at' := (s.sreg a).toInt + off.toInt
    s.me.pend = [] → s.me.dbgctl.getLsbD 2 = false → 0 ≤ at' → at' + memBytes t ≤ 1024 * s.me.strshare → at' % memBytes t = 0 →
    Memory.wf s.me.share = true →
    ∃ u, exec (.st d ⟨sc, 254, a⟩ ch (.bytes t off)) s = .next u ∧ u.me.ch = s.next.me.ch ∧ u.sameBytes s ∧
      (∀ i < memBytes t, Assoc.get byteDefault (at'.toNat + i) u.me.share = BitVec.ofNat 8 ((s.sreg d).toNat / 256 ^ i)) ∧
      ∀ o, (o < at'.toNat ∨ at'.toNat + memBytes t ≤ o) →
        Assoc.get byteDefault o u.me.share = Assoc.get byteDefault o s.me.share

/-- A scalar access of slot 254 that is misaligned traps ALIGN, an aligned one outside the share faults BOUNDS, each with the slot
and the offset (R106 steps 7 and 8, R166). -/
def Sys2Proof.Claims.ShareFaults : Prop :=
  ∀ (t : MemTy) (d a : SReg) (sc ch : BitVec 2) (off : BitVec 16) (s : State),
    let at' := (s.sreg a).toInt + off.toInt
    let fault := fun c => s.raise (stopAt s.me.ch.pc c (slotInfo 254 at'))
    s.me.pend = [] →
    (at' % memBytes t ≠ 0 → exec (.ld d ⟨sc, 254, a⟩ ch (.bytes t off)) s = .next (fault .align) ∧
      exec (.st d ⟨sc, 254, a⟩ ch (.bytes t off)) s = .next (fault .align)) ∧
    (at' % memBytes t = 0 → (at' < 0 ∨ 1024 * s.me.strshare < at' + memBytes t) →
      exec (.ld d ⟨sc, 254, a⟩ ch (.bytes t off)) s = .next (fault .bounds) ∧
      exec (.st d ⟨sc, 254, a⟩ ch (.bytes t off)) s = .next (fault .bounds))

/-- Scalar loads and stores of the strand's share, with all that they change. -/
def Obligations.ShareAccesses : Prop := Claims.ShareLoads ∧ Claims.ShareStores ∧ Claims.ShareFaults

/-- ST, STREL and ZLINE with nothing older pending, where the access answers: its effect, then the next word; STREL is a release
at its scope first (R321, R322, R329). -/
def Obligations.ScalarStores : Prop :=
  ∀ (d : SReg) (m : Addr) (s u : State), s.me.pend = [] →
    (∀ (ch : BitVec 2) (x : StForm),
      let (n, disp, fmt) := stSize x
      s.doStore (refOf m.sl (s.sreg m.a) disp) n fmt (s.sreg d) ch m.sc false s.supWatch false = .ok u () →
      exec (.st d m ch x) s = .next u.next) ∧
    (∀ (t : MemTy) (off : BitVec 16),
      s.doStore (refOf m.sl (s.sreg m.a) off.toInt) (memBytes t) false (s.sreg d) 0 m.sc true s.supWatch false = .ok u () →
      exec (.strel t d m off) s = .next u.next) ∧
    ∀ off : BitVec 16, s.doZline (refOf m.sl (s.sreg m.a) off.toInt) s.supWatch false = .ok u () → exec (.zline m off) s = .next u.next

/-- AMO in the share with nothing older pending, no watch on and plain ORD: d takes the old value, the bytes the new one; a CAS
that does not match writes nothing (R323, R324). -/
def Sys2Proof.Claims.ShareAtomics : Prop :=
  ∀ (op : AmoOp) (t : AmoTy) (d a b : SReg) (sc : BitVec 2) (off : BitVec 12) (s : State),
    let n := amoBytes t
    let at' := (s.sreg a).toInt + off.toInt
    let old := ofLe ((List.range n).map fun i => Assoc.get byteDefault (at'.toNat + i) s.me.share)
    s.me.pend = [] → s.me.dbgctl.getLsbD 2 = false → 0 ≤ at' → at' + n ≤ 1024 * s.me.strshare → at' % n = 0 →
    ∃ u, exec (.amo op t 0 d ⟨sc, 254, a⟩ off b) s = .next u ∧ u.me.ch = (s.setSreg d (amoWiden t old)).next.me.ch ∧
      u.mem = s.mem ∧
      u.me.share = match amoNew op t old ((s.sreg b).toNat % 2 ^ (8 * n)) ((s.sreg d).toNat % 2 ^ (8 * n)) with
        | some x => cellsWrite s.me.share at'.toNat (leBytes n x)
        | none => s.me.share

/-- AMO with nothing older pending where the access answers the old value: a release at its scope before, an acquire after, as
ORD gives (R142, R323). -/
def Sys2Proof.Claims.AtomicOrder : Prop :=
  ∀ (op : AmoOp) (t : AmoTy) (ord : BitVec 2) (d : SReg) (m : Addr) (off : BitVec 12) (b : SReg) (s v u : State) (old : Nat),
    let r := refOf m.sl (s.sreg m.a) off.toInt
    s.me.pend = [] → (if ord.getLsbD 1 then s.releaseFor r m.sc false else .ok s ()) = .ok v () →
    v.amo r op t false v.supWatch (v.sreg b).toNat (v.sreg d).toNat = .ok u old →
    exec (.amo op t ord d m off b) s =
      .next (((((if ord.getLsbD 0 then u.acquire else u).chanterSees r (amoBytes t) false).onMe fun k => { k with amo := none }).setSreg d
        (amoWiden t old)).next)

/-- AMO: its effect in the strand's share, and its order everywhere. -/
def Obligations.AtomicWords : Prop := Claims.ShareAtomics ∧ Claims.AtomicOrder

/-- PREF completes in every state and changes no register and no byte; FENCE completes with nothing older pending once the
transfers and merge parts it covers are gone and no stack is critical: it releases and acquires as its kind says, and the accesses of
the open strip stay in the order that it gives; WAITA when the watched bytes differ from b, CPWAIT when the transfer is not
outstanding (R330, R331, R332, R353). -/
def Obligations.SyncWords : Prop :=
  (∀ (m : Addr) (ch : BitVec 2) (off : BitVec 16) (s : State),
    ∃ u, exec (.pref m ch off) s = .next u ∧ u.me.ch = s.next.me.ch ∧ u.me.v = s.me.v ∧ u.me.share = s.me.share ∧ u.mem = s.mem) ∧
  (∀ (k : FenceKind) (sc : BitVec 2) (s : State), s.me.pend = [] → s.anyXfer = false → s.partsWait = false → s.crit = [] →
    let seen := fun (t : State) => ((if k = .loads ∨ k = .all then t.acquire else t).onMe fun m =>
      { m with older := FenceKind.fixes k m.older }).next
    (k = .stores ∨ k = .all → ∃ u, s.release sc.toNat false = .ok u () ∧ exec (.fence k sc) s = .next (seen u)) ∧
    (k = .loads ∨ k = .engines → exec (.fence k sc) s = .next (seen s))) ∧
  (∀ (t : AmoTy) (d : SReg) (m : Addr) (off : BitVec 16) (b : SReg) (s u : State) (y : List Byte) (l : Loc),
    s.me.pend = [] → s.me.cancelled = none → s.me.woken = none →
    s.watchRead (refOf m.sl (s.sreg m.a) off.toInt) (amoBytes t) = .ok u (y, l) →
    ofLe y ≠ (u.sreg b).toNat % 2 ^ (8 * amoBytes t) →
    exec (.waita t d m off b) s = .next (u.waitaDone d (amoWiden t (ofLe y)))) ∧
  ∀ (d a : SReg) (s : State), s.me.pend = [] → s.me.cancelled = none → s.me.woken = none →
    s.outstanding ((s.sreg a).extractLsb' 0 16) = none →
    exec (.cpwait d a) s = .next (((s.orderLog (.copy ((s.sreg a).extractLsb' 0 16))).setSreg d
      (cpStatus ((s.sreg a).extractLsb' 0 16) true ⟨0, false, false, false, 0⟩)).next)

/-- GETC of CPGOc with nothing older pending, a free place of the channel, values that pass the checks of R349, no watch on and no stack
critical: the transfer
is outstanding with the next id, which d takes with the channel; a bad launch traps RESFIELD with the word. -/
def Obligations.CopyLaunches : Prop :=
  ∀ (d : SReg) (c : BitVec 2) (s : State), s.me.pend = [] → s.outOf s.me c.toNat < 4 → s.partsWait = false →
    (s.badLaunch c = false → d ≠ 0 → s.me.dbgctl.getLsbD 2 = false → s.crit = [] →
      ∃ t x, exec (.copyLaunch d c) s = .next t ∧ t.xfers = s.xfers ++ [x] ∧ x.id = s.me.ch.cpnext ∧ x.chan = c.toNat ∧
        x.regs = s.me.ch.channel c ∧ x.vd = s.me.vd ∧ x.imgidx = s.me.imgidx ∧ x.pos = 0 ∧
        t.sreg d = BitVec.ofNat 64 (c.toNat * 2 ^ 16 + s.me.ch.cpnext.toNat) ∧
        t.me.ch.cpnext = (if s.me.ch.cpnext = 0xFFFF then 1 else s.me.ch.cpnext + 1)) ∧
    (s.badLaunch c = true → exec (.copyLaunch d c) s = .next (s.raise (stopAt s.me.ch.pc .resfield (wordOf (.copyLaunch d c)))))

/-! ### Pair words (R238 to R240) -/

/-- A half that neither accesses memory nor branches. -/
def Sys2Proof.Claims.plainHalf : Half → Bool
  | .ldD _ _ _ | .ldW _ _ _ | .stD _ _ _ | .stW _ _ _ | .bz _ _ | .bnz _ _ => false
  | _ => true

/-- What such a half does to t, with its operands read in s, as they stand before the pair (R239). -/
def Sys2Proof.Claims.halfAct (s : State) (h : Half) (t : State) : State :=
  match h with
  | .mov d a => t.setSreg d (s.sreg a)
  | .add d a => t.setSreg d (s.sreg d + s.sreg a) | .sub d a => t.setSreg d (s.sreg d - s.sreg a)
  | .and d a => t.setSreg d (s.sreg d &&& s.sreg a) | .or d a => t.setSreg d (s.sreg d ||| s.sreg a)
  | .xor d a => t.setSreg d (s.sreg d ^^^ s.sreg a)
  | .shl d a => t.setSreg d (s.sreg d <<< ((s.sreg a).toNat % 64)) | .shr d a => t.setSreg d (s.sreg d >>> ((s.sreg a).toNat % 64))
  | .sra d a => t.setSreg d ((s.sreg d).sshiftRight ((s.sreg a).toNat % 64))
  | .addi d a imm => t.setSreg d (s.sreg a + imm.signExtend 64) | .andi d a imm => t.setSreg d (s.sreg a &&& imm.signExtend 64)
  | .shli d a n => t.setSreg d (s.sreg a <<< n.toNat) | .shri d a n => t.setSreg d (s.sreg a >>> n.toNat)
  | .srai d a n => t.setSreg d ((s.sreg a).sshiftRight n.toNat)
  | .slti d a imm => t.setSreg d (if (s.sreg a).toInt < (imm.signExtend 64).toInt then 1 else 0)
  | .movi d imm => t.setSreg d (imm.signExtend 64)
  | .qpush q a => t.onMe fun k => k.setToQ q (k.toQ q ++ [⟨s.sreg a, k.seq⟩])
  | .qpop d q => match t.me.fromQ q with
    | e :: l => (t.onMe fun k => k.setFromQ q l).setSreg d e.val
    | [] => t
  | _ => t

/-- Nothing older is pending or held, and the queues have the entries and the room that the halves ask for (R94). -/
def Sys2Proof.Claims.pairReady (s : State) (h0 h1 : Half) : Prop :=
  s.me.pend = [] ∧ s.me.trap = none ∧ s.me.early = [] ∧ s.me.pops = [] ∧ s.me.ahead = false ∧
  ∀ q : QNum, halfPops h0 q + halfPops h1 q ≤ (s.me.fromQ q).length ∧ s.me.skipOf q = 0 ∧
    (s.me.toQ q).length + (halfPushes h0 q + halfPushes h1 q) ≤ 16

/-- A pair of plain halves: both read their operands before either writes, and the word ends as any other (HALF_NOP, HALF_MOV to
HALF_MOVI, HALF_QPUSH and HALF_QPOP, in either slot or alone). -/
def Obligations.PairsOfPlainHalves : Prop :=
  ∀ (i : Instr) (h0 h1 : Half) (s : State), i.halves = some (h0, h1) → Claims.plainHalf h0 = true → Claims.plainHalf h1 = true →
    Claims.pairReady s h0 h1 → exec i s = .next (Claims.halfAct s h1 (Claims.halfAct s h0 s)).next

/-- HALF_BZ and HALF_BNZ beside a plain half or alone: not taken to the next word, taken to PC + 8 x sext(IMM14); a target inside a
convoy traps BADTARGET, and the other half does nothing. -/
def Sys2Proof.Claims.PairBranches : Prop :=
  ∀ (i : Instr) (h0 : Half) (a : SReg) (imm : BitVec 14) (s : State) (z : Bool),
    let h1 := if z then Half.bz a imm else .bnz a imm
    i.halves = some (h0, h1) → Claims.plainHalf h0 = true → Claims.pairReady s h0 h1 →
    let t := s.me.ch.pc + 8 * imm.signExtend 64
    let w := Claims.halfAct s h0 s
    (¬ ((s.sreg a = 0) ↔ (z = true)) → exec i s = .next w.next) ∧
    (((s.sreg a = 0) ↔ (z = true)) → s.insideConvoy t = false → exec i s = .next (w.jump t)) ∧
    (((s.sreg a = 0) ↔ (z = true)) → s.insideConvoy t = true → exec i s = .next (s.raise (stopAt s.me.ch.pc .badtarget t)))

/-- HALF_LD and HALF_ST of 8 and 4 bytes beside a plain half or alone, in the share, with no watch on. The open strip's accesses do not
fall behind what was read or written. -/
def Sys2Proof.Claims.PairMemory : Prop :=
  ∀ (i : Instr) (h0 : Half) (d a : SReg) (imm : BitVec 14) (s : State), Claims.plainHalf h0 = true → Claims.pairReady s h0 .nop →
    s.me.dbgctl.getLsbD 2 = false → (s.sreg a).extractLsb' 48 16 = 0xFE00 →
    let at' : Int := ((s.sreg a).toNat % 2 ^ 48 : Nat) + imm.toInt
    let sees := fun (n : Nat) (t : State) => Claims.halfAct s h0 (t.chanterSees (refPtr (s.sreg a) imm.toInt) n false)
    let bytes := fun n => ofLe ((List.range n).map fun i => Assoc.get byteDefault (at'.toNat + i) s.me.share)
    let fits := fun (n : Nat) => 0 ≤ at' ∧ at' + n ≤ 1024 * s.me.strshare ∧ at' % n = 0
    (i.halves = some (h0, .ldD d a imm) → fits 8 → exec i s = .next (((sees 8 s).setSreg d (BitVec.ofNat 64 (bytes 8))).next)) ∧
    (i.halves = some (h0, .ldW d a imm) → fits 4 → exec i s = .next (((sees 4 s).setSreg d (sextWord 32 (bytes 4))).next)) ∧
    (i.halves = some (h0, .stD d a imm) → fits 8 →
      exec i s = .next (sees 8 (s.onMe fun k => { k with share := cellsWrite k.share at'.toNat (leBytes 8 (s.sreg d).toNat) })).next) ∧
    (i.halves = some (h0, .stW d a imm) → fits 4 →
      exec i s = .next (sees 4 (s.onMe fun k => { k with share := cellsWrite k.share at'.toNat (leBytes 4 (s.sreg d).toNat) })).next)

/-- The halves that branch or access memory. -/
def Obligations.PairsWithAccesses : Prop := Claims.PairBranches ∧ Claims.PairMemory

/-! ### Vector words (spec 14). A word that stands alone (`State.lone`) takes effect at once, whole (R85, R87, R89) -/

/-- Element e of width w of a register, zero-extended. -/
def Sys2Proof.Claims.lane (w : Nat) (v : VecReg) (e : Nat) : Word := (v.extractLsb' (w * e) w).setWidth 64

/-- The queue entry that a word's operand A takes, and the feed queues after it; none where its queue is empty (R244, R296). -/
def Sys2Proof.Claims.feed (s : State) : Src → Option (Word × Vector (List QEntry) 4)
  | .que q => match s.me.toQ q with
    | [] => none
    | e :: l => some (e.val, s.me.toVec.set q.toNat l q.isLt)
  | _ => some (0, s.me.toVec)

/-- Operand A of element e, of width w, zero-extended (R296). -/
def Sys2Proof.Claims.src (s : State) (ent : Word) (w : Nat) (a : Src) (e : Nat) : Word :=
  match a with
  | .vec v => Claims.lane w (s.me.file.vreg v) e
  | .scl r => ((s.sreg r).setWidth w).setWidth 64
  | .que _ => (ent.setWidth w).setWidth 64

/-- What an element-wise word does: the elements it acts on, the width it writes, where, the values (their low w bits), which
of them saturate, their exceptions, and operand A for its queue entry. -/
structure Sys2Proof.Claims.Elems where
  act : Nat → Bool
  w   : Nat
  d   : VReg
  val : Word → Nat → Word
  sat : Word → Nat → Bool
  fl  : Word → Nat → Flags
  a   : Src

/-- Elements below lim that the mask selects; lim counts at width gw (R295, R296). -/
def Sys2Proof.Claims.act (s : State) (mk : MReg) (gw : Nat) (e : Nat) : Bool :=
  decide (e < min s.me.ch.vl (16384 / gw)) && (s.me.file.mask mk).getLsbD e

/-- The registers after: d's elements, the bits of m12, FPFLG; every other vector, mask and tile register and the mask stack
stand. -/
def Sys2Proof.Claims.Elems.after (p : Sys2Proof.Claims.Elems) (ent : Word) (f g : VFile) : Prop :=
  (∀ e < 16384 / p.w, Claims.lane p.w (g.vreg p.d) e =
    if p.act e then ((p.val ent e).setWidth p.w).setWidth 64 else Claims.lane p.w (f.vreg p.d) e) ∧
  (∀ v, v ≠ p.d → g.vreg v = f.vreg v) ∧ (∀ k, k ≠ 12 → g.mask k = f.mask k) ∧
  (∀ e, (g.mask 12).getLsbD e = ((f.mask 12).getLsbD e || (p.act e && p.sat ent e))) ∧
  (∀ n, g.fpflg.getLsbD n = true ↔ f.fpflg.getLsbD n = true ∨ ∃ e, p.act e = true ∧ ((p.fl ent e).setWidth 32).getLsbD n = true) ∧
  g.stack = f.stack ∧ g.t = f.t ∧ g.mflg = f.mflg

/-- A binary integer operation of R301 on w-bit elements: the result, and whether it saturated. -/
def Sys2Proof.Claims.vint (i : Bool) (k : IntOp) {w : Nat} (x y : BitVec w) : BitVec w × Bool :=
  match k with
  | .add => (x + y, false) | .sub => (x - y, false) | .mul => (x * y, false)
  | .mulh => (if i then (x.signExtend (2 * w) * y.signExtend (2 * w)).extractLsb' w w
      else (x.setWidth (2 * w) * y.setWidth (2 * w)).extractLsb' w w, false)
  | .min => (if (if i then y.slt x else y.ult x) then y else x, false)
  | .max => (if (if i then x.slt y else x.ult y) then y else x, false)
  | .and => (x &&& y, false) | .or => (x ||| y, false) | .xor => (x ^^^ y, false)
  | .shl => (x <<< (y.toNat % w), false) | .shr => (x >>> (y.toNat % w), false) | .sra => (x.sshiftRight (y.toNat % w), false)
  | .sadd =>
    if i then (if x.saddOverflow y then (if x.msb then BitVec.intMin w else BitVec.intMax w, true) else (x + y, false))
    else if x.uaddOverflow y then (BitVec.allOnes w, true) else (x + y, false)
  | .ssub =>
    if i then (if x.ssubOverflow y then (if x.msb then BitVec.intMin w else BitVec.intMax w, true) else (x - y, false))
    else if x.usubOverflow y then (0, true) else (x - y, false)

/-- The integer words of R301 and R311, alone and with chain bit 0. -/
def Sys2Proof.Claims.intWord (s : State) (i : Instr) : Option Sys2Proof.Claims.Elems :=
  let el := fun (t : VIntTy) v e => (Claims.lane (vintWidth t) (s.me.file.vreg v) e).setWidth (vintWidth t)
  let bin := fun mk t d a b k =>
    let r := fun ent e => Claims.vint (vintSigned t) k ((Claims.src s ent (vintWidth t) a e).setWidth (vintWidth t)) (el t b e)
    some (⟨Claims.act s mk (vintWidth t), vintWidth t, d, fun n e => (r n e).1.setWidth 64, fun n e => (r n e).2,
      fun _ _ => 0, a⟩ : Claims.Elems)
  match i with
  | .vadd false mk t d a b => bin mk t d a b .add | .vsub false mk t d a b => bin mk t d a b .sub
  | .vmul false mk t d a b => bin mk t d a b .mul | .vmulh false mk t d a b => bin mk t d a b .mulh
  | .vmin false mk t d a b => bin mk t d a b .min | .vmax false mk t d a b => bin mk t d a b .max
  | .vand false mk t d a b => bin mk t d a b .and | .vor false mk t d a b => bin mk t d a b .or
  | .vxor false mk t d a b => bin mk t d a b .xor | .vshl false mk t d a b => bin mk t d a b .shl
  | .vshr false mk t d a b => bin mk t d a b .shr | .vsra false mk t d a b => bin mk t d a b .sra
  | .vsadd false mk t d a b => bin mk t d a b .sadd | .vssub false mk t d a b => bin mk t d a b .ssub
  | .vabs false mk t d a =>
    some ⟨Claims.act s mk (vintWidth t), vintWidth t, d,
      fun _ e => let x := el t a e
        if vintSigned t && x.msb then (if x = BitVec.intMin _ then BitVec.intMax _ else -x).setWidth 64 else x.setWidth 64,
      fun _ e => vintSigned t && el t a e == BitVec.intMin _, fun _ _ => 0, .vec a⟩
  | .vcvt false mk t src d a =>
    let v := fun e => if vintSigned src then (el src a e).toInt else ((el src a e).toNat : Int)
    let lo : Int := if vintSigned t then -(2 ^ (vintWidth t - 1) : Nat) else 0
    let hi : Int := if vintSigned t then (2 ^ (vintWidth t - 1) : Nat) - 1 else (2 ^ vintWidth t : Nat) - 1
    let narrow := decide (vintWidth t < vintWidth src)
    some ⟨Claims.act s mk (max (vintWidth t) (vintWidth src)), vintWidth t, d,
      fun _ e => BitVec.ofInt 64 (if narrow then max lo (min hi (v e)) else v e),
      fun _ e => narrow && (decide (v e < lo) || decide (hi < v e)), fun _ _ => 0, .vec a⟩
  | _ => none

/-- VADD to VSSUB, VABS and VCVT alone: every active element below lim takes its result, m12 the bits of the elements that
saturated; inactive and tail elements and everything else stand; the word takes one entry of its feed queue where it names
one. -/
def Obligations.VectorIntegers : Prop :=
  ∀ (i : Instr) (s : State) (p : Claims.Elems) (ent : Word) (qs : Vector (List QEntry) 4), s.lone →
    Claims.intWord s i = some p → Claims.feed s p.a = some (ent, qs) →
    ∃ g : VFile, exec i s = .next (s.next.onMe fun k => ({ k with toVec := qs } : Strand).withFile g) ∧ p.after ent s.me.file g

/-- VMOV, VMERGE, VINS, VBCAST of a scalar, VRESENC, VRESDEC, VRESMAC, VRESADD and VRESMUL (R309, R313). -/
def Sys2Proof.Claims.moveWord (s : State) (i : Instr) : Option Sys2Proof.Claims.Elems :=
  let el := fun w v e => Claims.lane w (s.me.file.vreg v) e
  let res := fun mk d (f : Nat → Nat) =>
    some (⟨Claims.act s mk 32, 32, d, fun _ e => BitVec.ofNat 64 (f e), fun _ _ => false, fun _ _ => 0, .vec d⟩ : Claims.Elems)
  match i with
  | .vmov false mk t d a =>
    some ⟨Claims.act s mk (wtyWidth t), wtyWidth t, d, fun _ e => el (wtyWidth t) a e, fun _ _ => false, fun _ _ => 0, .vec a⟩
  | .vmerge false mk t d a b =>
    some ⟨Claims.act s 0 (wtyWidth t), wtyWidth t, d,
      fun _ e => if (s.me.file.mask mk).getLsbD e then el (wtyWidth t) a e else el (wtyWidth t) b e, fun _ _ => false, fun _ _ => 0,
      .vec a⟩
  | .vins false t d a b =>
    some ⟨fun e => decide (e = (s.sreg b).toNat) && decide (e < min s.me.ch.vl (16384 / wtyWidth t)), wtyWidth t, d,
      fun n e => Claims.src s n (wtyWidth t) a e, fun _ _ => false, fun _ _ => 0, a⟩
  | .vbcast false mk t d a => match a with
    | .vec _ => none
    | a => some ⟨Claims.act s mk (wtyWidth t), wtyWidth t, d, fun n e => Claims.src s n (wtyWidth t) a e, fun _ _ => false,
        fun _ _ => 0, a⟩
  | .vresenc false mk t d a =>
    let r := fun e => resEnc (vintVal t (el (vintWidth t) a e).toNat)
    some ⟨Claims.act s mk (max (vintWidth t) 32), 32, d, fun _ e => BitVec.ofNat 64 (r e).1, fun _ e => (r e).2, fun _ _ => 0, .vec a⟩
  | .vresdec false mk t d a =>
    let r := fun e => resDec (el 32 a e).toNat
    let lo := intLo (vintWidth t) (vintSigned t)
    let hi := intHi (vintWidth t) (vintSigned t)
    some ⟨Claims.act s mk (max (vintWidth t) 32), vintWidth t, d, fun _ e => BitVec.ofInt 64 (max lo (min hi (r e).1)),
      fun _ e => (r e).2 || decide ((r e).1 < lo) || decide (hi < (r e).1), fun _ _ => 0, .vec a⟩
  | .vresmac false mk d a b => res mk d fun e => resAdd (el 32 d e).toNat (resMul (el 32 a e).toNat (el 32 b e).toNat)
  | .vresadd false mk d a b => res mk d fun e => resAdd (el 32 a e).toNat (el 32 b e).toNat
  | .vresmul false mk d a b => res mk d fun e => resMul (el 32 a e).toNat (el 32 b e).toNat
  | _ => none

/-- The element-wise moves and residue words alone, likewise. -/
def Obligations.VectorMoves : Prop :=
  ∀ (i : Instr) (s : State) (p : Claims.Elems) (ent : Word) (qs : Vector (List QEntry) 4), s.lone →
    Claims.moveWord s i = some p → Claims.feed s p.a = some (ent, qs) →
    ∃ g : VFile, exec i s = .next (s.next.onMe fun k => ({ k with toVec := qs } : Strand).withFile g) ∧ p.after ent s.me.file g

/-- The floating-point words of R302, R304 and R312. -/
def Sys2Proof.Claims.vfpWord (s : State) (i : Instr) : Option Sys2Proof.Claims.Elems :=
  let el := fun w v e => (Claims.lane w (s.me.file.vreg v) e).toNat
  let m := fun rm => modeOf rm s.me.ch.fpctl
  let put := fun mk gw w d a (r : Word → Nat → FpRes) =>
    some (⟨Claims.act s mk gw, w, d, fun n e => BitVec.ofNat 64 (r n e).bits, fun n e => (r n e).sat, fun n e => (r n e).fl, a⟩ : Claims.Elems)
  let bin := fun mk t d a b (f : Fp → Fp → Fp → FpRes) =>
    put mk (fpWidth t) (fpWidth t) d a fun n e =>
      f (fpRead t (Claims.src s n (fpWidth t) a e).toNat) (fpRead t (el (fpWidth t) b e)) (fpRead t (el (fpWidth t) d e))
  let un := fun mk t d a (f : Nat → FpRes) => put mk (fpWidth t) (fpWidth t) d (.vec a) fun _ e => f (el (fpWidth t) a e)
  match i with
  | .vfadd false mk t rm d a b => bin mk t d a b fun x y _ => fpAdd t (m rm) x y
  | .vfsub false mk t rm d a b => bin mk t d a b fun x y _ => fpSub t (m rm) x y
  | .vfmul false mk t rm d a b => bin mk t d a b fun x y _ => fpMul t (m rm) x y
  | .vfdiv false mk t rm d a b => bin mk t d a b fun x y _ => fpDiv t (m rm) x y
  | .vfma false mk t rm d a b => bin mk t d a b fun x y z => addProd t (m rm) (fpProd x y) z
  | .vfms false mk t rm d a b => bin mk t d a b fun x y z => addProd t (m rm) (fpProd x y) z.negate
  | .vfnma false mk t rm d a b => bin mk t d a b fun x y z => addProd t (m rm) (fpProd x y).negate z
  | .vfmin false mk t d a b =>
    put mk (fpWidth t) (fpWidth t) d a fun n e => fpMinMax t false (Claims.src s n (fpWidth t) a e).toNat (el (fpWidth t) b e)
  | .vfmax false mk t d a b =>
    put mk (fpWidth t) (fpWidth t) d a fun n e => fpMinMax t true (Claims.src s n (fpWidth t) a e).toNat (el (fpWidth t) b e)
  | .vfsqrt false mk t rm d a => un mk t d a fun x => fpSqrt t (m rm) (fpRead t x)
  | .vfabs false mk t d a => un mk t d a fun x => ⟨x % 2 ^ (fpWidth t - 1), 0, false⟩
  | .vfneg false mk t d a => un mk t d a fun x => ⟨(x + 2 ^ (fpWidth t - 1)) % 2 ^ fpWidth t, 0, false⟩
  | .vfrsqe false mk t d a => un mk t d a fun x => fpRsqe t (fpRead t x)
  | .vfrcpe false mk t d a => un mk t d a fun x => fpRcpe t (fpRead t x)
  | .vfexp2 false mk t rm d a => un mk t d a fun x => fpExp2 t (m rm) (fpRead t x)
  | .vflog2 false mk t rm d a => un mk t d a fun x => fpLog2 t (m rm) (fpRead t x)
  | .vfclass false mk t d a => un mk t d a fun x => ⟨fpClass t x, 0, false⟩
  | .vfcvt false mk k rm d a =>
    let (wd, ws) := vcvtWidths k
    put mk (max wd ws) wd d (.vec a) fun _ e => let x := el ws a e
      match k with
      | .ff dst src => cvtFF dst src (m rm) x
      | .fi dst src => cvtFI (vintWidth dst) (vintSigned dst) src (m rm) x
      | .ofInt dst src => cvtIF dst (m rm) (vintVal src x)
  | _ => none

/-- The vector floating-point words alone, where no active element that m11 selects raises an exception that FPCTL enables: every
active element takes its result, FPFLG the exceptions of all of them (R191, R302). -/
def Obligations.VectorFloats : Prop :=
  ∀ (i : Instr) (s : State) (p : Claims.Elems) (ent : Word) (qs : Vector (List QEntry) 4), s.lone →
    Claims.vfpWord s i = some p → Claims.feed s p.a = some (ent, qs) →
    (∀ e, p.act e = true → (s.me.file.mask 11).getLsbD e = true → p.fl ent e &&& s.me.ch.fpctl.extractLsb' 8 5 = 0) →
    ∃ g : VFile, exec i s = .next (s.next.onMe fun k => ({ k with toVec := qs } : Strand).withFile g) ∧ p.after ent s.me.file g

/-- VCMP and VFCMP alone: each active element's bit of md takes its condition (a write to m0 is discarded), and the other bits and
masks, the vector registers, the tiles and the mask stack stand; FPFLG takes the exceptions of VFCMP, none of which traps. -/
def Obligations.VectorCompares : Prop :=
  ∀ (s : State) (mk md : MReg) (k : Cond) (a : Src) (b : VReg) (ent : Word) (qs : Vector (List QEntry) 4), s.lone →
    Claims.feed s a = some (ent, qs) → md ≠ 15 →
    let bits := fun (g : VFile) (act c : Nat → Bool) =>
      (md ≠ 0 → ∀ e, (g.mask md).getLsbD e = if act e then c e else (s.me.file.mask md).getLsbD e) ∧
      (∀ j, j ≠ md → g.mask j = s.me.file.mask j) ∧ g.v = s.me.v ∧ g.t = s.me.t ∧ g.stack = s.me.stack ∧ g.mflg = s.me.mflg
    (∀ t : VIntTy, ∃ g : VFile,
      exec (.vcmp false mk t k md a b) s = .next (s.next.onMe fun q => ({ q with toVec := qs } : Strand).withFile g) ∧
      g.fpflg = s.me.fpflg ∧ bits g (Claims.act s mk (vintWidth t)) (fun e =>
        condInt k (vintVal t (Claims.src s ent (vintWidth t) a e).toNat)
          (vintVal t (Claims.lane (vintWidth t) (s.me.file.vreg b) e).toNat))) ∧
    ∀ t : FpTy,
      let c := fun e => fpCmp k (fpRead t (Claims.src s ent (fpWidth t) a e).toNat)
        (fpRead t (Claims.lane (fpWidth t) (s.me.file.vreg b) e).toNat)
      (∀ e, Claims.act s mk (fpWidth t) e = true → (s.me.file.mask 11).getLsbD e = true →
        (c e).2 &&& s.me.ch.fpctl.extractLsb' 8 5 = 0) →
      ∃ g : VFile,
        exec (.vfcmp false mk t k md a b) s = .next (s.next.onMe fun q => ({ q with toVec := qs } : Strand).withFile g) ∧
        (∀ n, g.fpflg.getLsbD n = true ↔ s.me.fpflg.getLsbD n = true ∨
          ∃ e, Claims.act s mk (fpWidth t) e = true ∧ ((c e).2.setWidth 32).getLsbD n = true) ∧
        bits g (Claims.act s mk (fpWidth t)) (fun e => (c e).1)

/-! ### Masks, moves across elements, reductions (R305 to R310) -/

/-- The mask logic words and MTOP alone write all 1,024 bits of md, 1 to 14 (R305, R307). -/
def Sys2Proof.Claims.maskWord (s : State) (i : Instr) : Option (MReg × MaskReg) :=
  let m := s.me.file.mask
  match i with
  | .mand false md a b => some (md, m a &&& m b) | .mor false md a b => some (md, m a ||| m b)
  | .mxor false md a b => some (md, m a ^^^ m b) | .mandn false md a b => some (md, m a &&& ~~~(m b))
  | .mnot false md a => some (md, ~~~(m a)) | .mmov false md a => some (md, m a)
  | .mtop false md => some (md, stackTop s.me.stack)
  | _ => none

/-- MAND to MMOV and MTOP, MPUSH below depth 16, MINV and MPOP above depth 0 complete with their effect; a write to m0 is
discarded. -/
def Sys2Proof.Claims.MaskWords : Prop :=
  (∀ (i : Instr) (s : State) (md : MReg) (x : MaskReg), s.lone → Claims.maskWord s i = some (md, x) →
    (md = 0 → exec i s = .next s.next) ∧
    (md ≠ 0 → md ≠ 15 → exec i s = .next (s.next.onMe fun k => { k with m := k.m.set md.toNat x md.isLt }))) ∧
  (∀ (ma : MReg) (s : State), s.lone → s.me.stack.length < 16 →
    exec (.mpush false ma) s = .next (s.next.onMe fun k =>
      { k with stack := ⟨s.me.file.mask ma &&& stackTop k.stack, stackTop k.stack⟩ :: k.stack })) ∧
  ∀ (s : State) (e : MaskEntry) (l : List MaskEntry), s.lone → s.me.stack = e :: l →
    exec (.minv false) s = .next (s.next.onMe fun k => { k with stack := ⟨e.parent &&& ~~~e.active, e.parent⟩ :: l }) ∧
    exec (.mpop false) s = .next (s.next.onMe fun k => { k with stack := l })

/-- MPUSH at depth 16 traps MSTK with TINFO 1, MINV and MPOP at depth 0 with TINFO 0; the word is the precise point, and its
restart indices are all 256 (R170, R298, R307). -/
def Sys2Proof.Claims.MaskStackLimits : Prop :=
  ∀ (s : State) (i : Instr) (n : Word), s.lone →
    ((∃ ma, i = .mpush false ma) ∧ n = 1 ∧ 16 ≤ s.me.stack.length ∨ (i = .minv false ∨ i = .mpop false) ∧ n = 0 ∧ s.me.stack = []) →
    s.me.ch.tvec.extractLsb' 0 48 ≠ 0 → s.me.ch.tcause.getLsbD 31 = false →
    ∃ t, exec i s = .next t ∧ t.me.ch.tcause = 0x80000018 ∧ t.me.ch.tinfo = n ∧ t.me.ch.tpc = s.me.ch.pc.extractLsb' 0 48 ∧
      t.me.ch.pc = (s.me.ch.tvec.extractLsb' 0 48).setWidth 64 ∧ t.me.stack = s.me.stack ∧ t.me.m = s.me.m ∧
      ∀ c : Fin 8, field (t.me.ch.esv[c]).toNat 0 9 = 256

/-- The mask logic words, and MPUSH, MINV and MPOP with the limits of the mask stack. -/
def Obligations.MaskWordEffects : Prop := Claims.MaskWords ∧ Claims.MaskStackLimits

/-- VCOMPRESS, VIOTA, VPERM, VSLIDEUP, VSLIDEDN and VBCAST of an element: which elements they write, and with what (R308,
R309). -/
def Sys2Proof.Claims.crossWord (s : State) (i : Instr) : Option Sys2Proof.Claims.Elems :=
  let el := fun w v e => Claims.lane w (s.me.file.vreg v) e
  let lim := fun t => min s.me.ch.vl (16384 / wtyWidth t)
  let put := fun t d (act : Nat → Bool) (val : Nat → Word) =>
    some (⟨act, wtyWidth t, d, fun _ e => val e, fun _ _ => false, fun _ _ => 0, .vec d⟩ : Claims.Elems)
  match i with
  | .vcompress false mk t d a =>
    let l := (List.range (lim t)).filter fun e => (s.me.file.mask mk).getLsbD e
    put t d (fun e => decide (e < l.length)) fun e => el (wtyWidth t) a (l.getD e 0)
  | .viota false mk t d =>
    put t d (fun e => decide (e < lim t)) fun e => BitVec.ofNat 64 ((List.range e).countP fun n => (s.me.file.mask mk).getLsbD n)
  | .vperm false mk t d a b =>
    put t d (Claims.act s mk (wtyWidth t)) fun e =>
      let n := (el (wtyWidth t) b e).toNat
      if n < lim t then el (wtyWidth t) a n else 0
  | .vslideup false mk t d a b =>
    let n := (s.sreg b).toNat
    put t d (fun e => Claims.act s mk (wtyWidth t) e && decide (n ≤ e)) fun e => el (wtyWidth t) a (e - n)
  | .vslidedn false mk t d a b =>
    let n := (s.sreg b).toNat
    put t d (Claims.act s mk (wtyWidth t)) fun e => if e + n < lim t then el (wtyWidth t) a (e + n) else 0
  | .vbcast false mk t d a => match a with
    | .vec v => put t d (Claims.act s mk (wtyWidth t)) fun _ => el (wtyWidth t) v 0
    | _ => none
  | _ => none

/-- VCOMPRESS, VIOTA, VPERM, VSLIDEUP, VSLIDEDN and VBCAST of an element alone: the elements of d that the word names take their
values, its other elements and every other register stand. -/
def Obligations.CrossElements : Prop :=
  ∀ (i : Instr) (s : State) (p : Claims.Elems), s.lone → Claims.crossWord s i = some p →
    ∃ g : VFile, exec i s = .next (s.next.onMe fun k => k.withFile g) ∧ p.after 0 s.me.file g

/-- The tree of R204 over the 2^n leaves from `lo` on: its value, and the exceptions of its operations. -/
def Sys2Proof.Claims.tree (op : Nat → Nat → FpRes) (leaf : Nat → Option Nat) : Nat → Nat → Option Nat × Flags
  | 0, lo => (leaf lo, 0)
  | n + 1, lo =>
    let x := Claims.tree op leaf n lo
    let y := Claims.tree op leaf n (lo + 2 ^ n)
    match x.1, y.1 with
    | some u, some v => let r := op u v; (some r.bits, x.2 ||| y.2 ||| r.fl)
    | some u, none => (some u, x.2 ||| y.2)
    | none, v => (v, x.2 ||| y.2)

/-- What a reduction combines: the width, destination, result, the value a queue takes, and the exceptions (R204, R310). -/
def Sys2Proof.Claims.reduction (s : State) (i : Instr) : Option (Nat × RedDst × Word × Word × Flags) :=
  let vals := fun mk w a (st : Option VReg) =>
    (((List.range (16384 / w)).filter fun e => Claims.act s mk w e).map fun e => Claims.lane w (s.me.file.vreg a) e) ++
      st.toList.map fun b => Claims.lane w (s.me.file.vreg b) 0
  let num := fun (t : VIntTy) (x : Word) => if vintSigned t then (x.setWidth (vintWidth t)).toInt else (x.toNat : Int)
  let int := fun t d (z : Int) =>
    let x := BitVec.ofInt (vintWidth t) z
    some (vintWidth t, d, x.setWidth 64, if vintSigned t then x.signExtend 64 else x.setWidth 64, (0 : Flags))
  let fp := fun mk t d a (st : Option VReg) (op : Nat → Nat → FpRes) (none' : Nat) =>
    let w := fpWidth t
    let r := Claims.tree op (fun e => if Claims.act s mk w e then some (Claims.lane w (s.me.file.vreg a) e).toNat else none)
      (16384 / w).log2 0
    let b := st.map fun b => (Claims.lane w (s.me.file.vreg b) 0).toNat
    let z := match r.1, b with
      | some u, some v => let o := op u v; (o.bits, r.2 ||| o.fl)
      | some u, none => (u, r.2)
      | none, some v => (v, r.2)
      | none, none => (none', r.2)
    some (w, d, BitVec.ofNat 64 z.1, BitVec.ofNat 64 z.1, z.2)
  match i with
  | .vredsum false mk t d a st => int t d ((vals mk (vintWidth t) a st).map (num t)).sum
  | .vredmin false mk t d a st =>
    int t d (((vals mk (vintWidth t) a st).map (num t)).foldl min (intHi (vintWidth t) (vintSigned t)))
  | .vredmax false mk t d a st =>
    int t d (((vals mk (vintWidth t) a st).map (num t)).foldl max (intLo (vintWidth t) (vintSigned t)))
  | .vfredsum false mk t rm d a st => fp mk t d a st (fun x y => fpAdd t (modeOf rm s.me.ch.fpctl) (fpRead t x) (fpRead t y)) 0
  | .vfredmin false mk t d a st => fp mk t d a st (fpMinMax t false) (canonNaN t)
  | .vfredmax false mk t d a st => fp mk t d a st (fpMinMax t true) (canonNaN t)
  | _ => none

/-- A push of x into result queue q at the end of its convoy (R94). -/
def Sys2Proof.Claims.pushed (s : State) (q : QNum) (x : Word) (fl : Flags) : State :=
  s.next.onMe fun k => ({ k with fpflg := k.fpflg ||| fl.setWidth 32 } : Strand).setFromQ q (k.fromQ q ++ [⟨x, s.me.seq⟩])

/-- The reductions alone, with no exception enabled: the result goes to element 0 of d where lim > 0 and every other element stands,
or into the queue; FPFLG takes the exceptions. MPOPC, MFIRST and VEXTR push theirs. Each queue has room. -/
def Obligations.Reductions : Prop :=
  (∀ (i : Instr) (s : State) (w : Nat) (d : RedDst) (x y : Word) (fl : Flags), s.lone →
    Claims.reduction s i = some (w, d, x, y, fl) → s.me.ch.fpctl.extractLsb' 8 5 = 0 →
    (∀ q, d = .que q → (s.me.fromQ q).length < 16 → exec i s = .next (Claims.pushed s q y fl)) ∧
    ∀ v, d = .vec v → ∃ g : VFile, exec i s = .next (s.next.onMe fun k => k.withFile g) ∧
      (⟨fun e => decide (e = 0) && decide (0 < s.me.ch.vl), w, v, fun _ _ => x, fun _ _ => false,
        fun _ _ => fl, .vec v⟩ : Claims.Elems).after 0 s.me.file g) ∧
  ∀ (s : State) (mk ma : MReg) (q : QNum), s.lone → (s.me.fromQ q).length < 16 →
    let hit := (List.range (min s.me.ch.vl 1024)).filter fun e => (s.me.file.mask ma).getLsbD e && (s.me.file.mask mk).getLsbD e
    exec (.mpopc false mk q ma) s = .next (Claims.pushed s q (BitVec.ofNat 64 hit.length) 0) ∧
    exec (.mfirst false mk q ma) s = .next (Claims.pushed s q (BitVec.ofNat 64 (hit.headD (min s.me.ch.vl 1024))) 0) ∧
    ∀ (t : WTy) (a : VReg) (b : SReg),
      exec (.vextr false t q a b) s = .next (Claims.pushed s q
        (if (s.sreg b).toNat < min s.me.ch.vl (16384 / wtyWidth t) then Claims.lane (wtyWidth t) (s.me.file.vreg a) (s.sreg b).toNat else 0) 0)

/-! ### Convoys (R85, R89, R90) -/

/-- A vector or matrix word with chain bit 1. -/
def Sys2Proof.Claims.chained (i : Instr) : Bool :=
  match i with
  | .vadd true _ _ _ _ _ | .vsub true _ _ _ _ _ | .vmul true _ _ _ _ _ | .vmulh true _ _ _ _ _ | .vmin true _ _ _ _ _
  | .vmax true _ _ _ _ _ | .vand true _ _ _ _ _ | .vor true _ _ _ _ _ | .vxor true _ _ _ _ _ | .vshl true _ _ _ _ _
  | .vshr true _ _ _ _ _ | .vsra true _ _ _ _ _ | .vsadd true _ _ _ _ _ | .vssub true _ _ _ _ _ | .vabs true _ _ _ _
  | .vfadd true _ _ _ _ _ _ | .vfsub true _ _ _ _ _ _ | .vfmul true _ _ _ _ _ _ | .vfdiv true _ _ _ _ _ _
  | .vfsqrt true _ _ _ _ _ | .vfma true _ _ _ _ _ _ | .vfms true _ _ _ _ _ _ | .vfnma true _ _ _ _ _ _ | .vfmin true _ _ _ _ _
  | .vfmax true _ _ _ _ _ | .vfabs true _ _ _ _ | .vfneg true _ _ _ _ | .vfrsqe true _ _ _ _ | .vfrcpe true _ _ _ _
  | .vfexp2 true _ _ _ _ _ | .vflog2 true _ _ _ _ _ | .vcmp true _ _ _ _ _ _ | .vfcmp true _ _ _ _ _ _ | .vfclass true _ _ _ _
  | .mand true _ _ _ | .mor true _ _ _ | .mxor true _ _ _ | .mandn true _ _ _ | .mnot true _ _ | .mmov true _ _
  | .mpopc true _ _ _ | .mfirst true _ _ _ | .mpush true _ | .minv true | .mpop true | .mtop true _ | .vcompress true _ _ _ _
  | .viota true _ _ _ | .vperm true _ _ _ _ _ | .vslideup true _ _ _ _ _ | .vslidedn true _ _ _ _ _ | .vbcast true _ _ _ _
  | .vextr true _ _ _ _ | .vins true _ _ _ _ | .vmerge true _ _ _ _ _ | .vmov true _ _ _ _ | .vredsum true _ _ _ _ _
  | .vredmin true _ _ _ _ _ | .vredmax true _ _ _ _ _ | .vfredsum true _ _ _ _ _ _ | .vfredmin true _ _ _ _ _
  | .vfredmax true _ _ _ _ _ | .vcvt true _ _ _ _ _ | .vfcvt true _ _ _ _ _ | .vresenc true _ _ _ _ | .vresdec true _ _ _ _
  | .vresmac true _ _ _ _ | .vresadd true _ _ _ _ | .vresmul true _ _ _ _ | .mopa true _ _ _ _ _ _ | .mops true _ _ _ _ _ _
  | .mzero true _ | .mmerge true _ _ _ _ _ _ | .mrow true _ _ _ | .mwrow true _ _ _ | .mfold true _ _ _ _ _ _
  | .mcvt true _ _ _ _ _ _ => true
  | .vld v _ _ _ _ | .vlds v _ _ _ _ _ | .vldx v _ _ _ _ _ | .vldff v _ _ _ _ _ | .vldsc v _ _ _ _ | .vst v _ _ _ _
  | .vsts v _ _ _ _ _ | .vstx v _ _ _ _ _ | .vamo v _ _ _ _ _ _ _ | .mldt v _ _ _ _ _ | .mstt v _ _ _ _ _ => v.c
  | _ => false

/-- Words that must stand last in a convoy: indexed accesses (R90). -/
def Sys2Proof.Claims.indexed (i : Instr) : Bool :=
  match i with
  | .vldx _ _ _ _ _ _ | .vstx _ _ _ _ _ _ | .vamo _ _ _ _ _ _ _ _ => true
  | _ => false

/-- A word with chain bit 1 joins the convoy that the chanter is forming, which has room for it, and the chanter goes on to the
next word; nothing else of the machine changes. A fourth word with chain bit 1, a chained indexed word and a chained word at which a
loop ends trap CONVOY at the head of the convoy, with the word in TINFO (R90, R241). -/
def Obligations.ConvoyForms : Prop :=
  ∀ (i : Instr) (s : State), Claims.chained i = true →
    (Claims.indexed i = false → s.me.forming.length < 3 → (s.me.forming.filter fun x => x.op.memory).length < 2 →
      s.me.ch.loops.endingAt (s.me.ch.pc + 8) = [] →
      ∃ x : VWord, x.word = wordOf i ∧ exec i s = .next (s.onMe fun k =>
        { k with forming := k.forming ++ [x], formPc := k.headPc, formSnap := k.headSnap, ch := { k.ch with pc := k.ch.pc + 8 }, wait := .none })) ∧
    ((3 ≤ s.me.forming.length ∨ Claims.indexed i = true ∨ s.me.ch.loops.endingAt (s.me.ch.pc + 8) ≠ []) →
      exec i s = .next (s.raise (stopAt s.me.headPc .convoy (wordOf i))))

/-! ### Lengths (R299, R300) -/

/-- SETVL of a strand with nothing pending and no breakpoint due, on a CU where no SETVL waits for lanes: VL and d take the least of the request, VLMAX and the
ceiling of the width, STRIPN counts up, the next strip opens; a request of 0 leaves no lanes; the vector registers, masks and the
mask stack stand. -/
def Sys2Proof.Claims.SetvlGrants : Prop :=
  ∀ (t : WTy) (d a : SReg) (s : State), s.lone → s.me.cancelled = none → s.me.status = .running → s.me.muted = false →
    s.me.saved = false → (s.cu s.me.cu).fifo = [] →
    let w := wtyWidth t
    let n := min (min (s.sreg a).toNat (16384 / w)) (if w = 16 then field s.powceil 32 11 else if w = 32 then field s.powceil 16 10
      else field s.powceil 0 9)
    ∃ u, exec (.setvl t d a) s = .next u ∧ u.me.ch.vl = n ∧ u.me.ch.stripn = s.me.ch.stripn + 1 ∧
      (d ≠ 0 → u.sreg d = BitVec.ofNat 64 n) ∧ (∀ r, r ≠ d → u.sreg r = s.sreg r) ∧ u.me.strip = ⟨s.now, 0, 0, widthCode t, n, false⟩ ∧
      u.me.older = [] ∧ (n = 0 → u.me.grant = 0) ∧ u.me.ch.mvl = s.me.ch.mvl ∧ u.me.v = s.me.v ∧ u.me.m = s.me.m ∧ u.me.stack = s.me.stack ∧
      u.me.t = s.me.t ∧ u.me.fpflg = s.me.fpflg ∧ u.mem = s.mem

/-- MSETVL of such a strand: MVL and d take the largest of 64, 32, 16, 8 and 4 that is at most the request and the top of the
width, or 0; nothing else changes. -/
def Sys2Proof.Claims.MsetvlGrants : Prop :=
  ∀ (t : WTy) (d a : SReg) (s : State), s.lone →
    let top := match t with
      | .w16 | .res32 => 64
      | .w32 => 32
      | .w64 => 16
    let n := (([64, 32, 16, 8, 4] : List Nat).filter fun k => decide (k ≤ min (s.sreg a).toNat top)).headD 0
    exec (.msetvl t d a) s = .next (((s.onCh fun c => { c with mvl := n }).setSreg d (BitVec.ofNat 64 n)).next)

/-- SETVL and MSETVL: the lengths they grant, and all that they change. -/
def Obligations.LengthsGranted : Prop := Claims.SetvlGrants ∧ Claims.MsetvlGrants

/-! ### Vector memory words (R317 to R328) -/

/-- A vector memory word or a matrix memory word with chain bit 0, as its convoy holds it: its operands captured (R85). -/
def Sys2Proof.Claims.memWord (s : State) (i : Instr) : Option VWord :=
  match i with
  | .vld v d m ch x => some (s.vword i (.ld .unit v d m ch x) v.gov m.a 0)
  | .vlds v d m ch x b => some (s.vword i (.ld .stride v d m ch x) v.gov m.a b)
  | .vldx v d m ch x b => some (s.vword i (.ld (.index b) v d m ch x) v.gov m.a 0)
  | .vldff v d m ch x q => some (s.vword i (.ldff v d m ch x q) v.gov m.a 0)
  | .vldsc v d m ch off => some (s.vword i (.ldsc v d m ch off) v.gov m.a 0)
  | .vst v d m ch x => some (s.vword i (.st .unit v d m ch x) v.gov m.a 0)
  | .vsts v d m ch x b => some (s.vword i (.st .stride v d m ch x) v.gov m.a b)
  | .vstx v d m ch x b => some (s.vword i (.st (.index b) v d m ch x) v.gov m.a 0)
  | .vamo v op t ord d m off b => some (s.vword i (.amo v op t ord d m off b) v.gov m.a 0)
  | .mldt v td m ch x b => some (s.vword i (.mldt v td m ch x) v.gov m.a b)
  | .mstt v td m ch x b => some (s.vword i (.mstt v td m ch x) v.gov m.a b)
  | .mmerge _ mk t part td m off => some (s.vword i (.mmerge t part.isSome td m off) mk m.a (part.getD 0))
  | _ => none

/-- VLD, VLDS, VLDX, VLDFF, VLDSC, VST, VSTS, VSTX, VAMO, MLDT, MSTT and MMERGE alone, in every form: where the accesses of
the elements answer, with no stop and no wait, the word completes with what they gave: the strand takes the registers of the
run and its queue entry, the machine its memory and caches; the chanter moves to the next word, and of its strand's other
state only the descriptor cache, the share and the record of the strip's vector stores may change. -/
def Obligations.VectorAccesses : Prop :=
  ∀ (i : Instr) (s : State) (x : VWord) (r : Run), s.lone → Claims.chained i = false → Claims.memWord s i = some x →
    (∀ q : QNum, (s.me.fromQ q).length < 16) →
    Run.anyWord ⟨s.loneStart x [] s.me.toVec, s.me.file, s.me.file, [], none, []⟩ (s.loneHow 0) x = .ran r [] → r.ix = none →
    ∃ t, exec i s = .next t ∧ t.me.file = r.c ∧ t.mem = r.s.mem ∧ t.l2 = r.s.l2 ∧ t.cus = r.s.cus ∧ t.merges = r.s.merges ∧
      t.me.ch = s.next.me.ch ∧ t.me.share = r.s.me.share ∧ t.me.dcache = r.s.me.dcache ∧ t.me.toVec = s.me.toVec ∧
      (∀ q, t.me.fromQ q = s.me.fromQ q ++ (r.pushes.filter fun y => y.1 == q).map fun y => ⟨y.2, s.me.seq⟩) ∧
      t.me.pend = [] ∧ t.me.status = s.me.status ∧ t.me.grant = s.me.grant ∧ t.others = s.others

/-- Every vector store that the strip has made is ordered with an access of OE `oe`: both have OE = 1 (R141 rows 1x and 3). -/
abbrev Sys2Proof.Claims.inOrder (s : State) (oe : Bool) : Prop := s.me.older.all (fun o => oe && o.oe) = true

/-- VLD and VLDS alone in the strand's share, of a stored size, with no watch on and every active element aligned inside it, where
each vector store of the strip so far is ordered with them: each active element takes its bytes, widened, and nothing else changes
but the records of what the strip's loads have read and requested (R119, R141, R162, R317, R318, R325). -/
def Sys2Proof.Claims.ShareVectorLoads : Prop :=
  ∀ (v : VAcc) (t : MemTy) (d : VReg) (a b : SReg) (sc ch : BitVec 2) (off : BitVec 16) (s : State), s.lone → v.c = false →
    s.me.dbgctl.getLsbD 2 = false → Claims.inOrder s v.oe →
    let n := memBytes t
    let w := memWidth t
    let act := Claims.act s v.gov w
    let word := fun (i : Instr) (place : Nat → Int) =>
      (∀ e, act e = true → 0 ≤ place e ∧ place e + n ≤ 1024 * s.me.strshare ∧ place e % n = 0) →
      ∃ (g : VFile) (u : State), exec i s = .next u ∧
        u = { s.next.onMe (fun k => { k.withFile g with older := u.me.older }) with fresh := u.fresh, asked := u.asked } ∧
        (⟨act, w, d, fun _ e => BitVec.ofNat 64 (memElem t (ofLe ((List.range n).map fun j =>
            Assoc.get byteDefault ((place e).toNat + j) s.me.share))), fun _ _ => false, fun _ _ => 0, .vec d⟩ : Claims.Elems).after 0 s.me.file g
    word (.vld v d ⟨sc, 254, a⟩ ch (.bytes t off)) (fun e => (s.sreg a).toInt + off.toInt + (e * n : Nat)) ∧
    word (.vlds v d ⟨sc, 254, a⟩ ch (.bytes t off) b) (fun e => (s.sreg a).toInt + off.toInt + (e : Int) * (s.sreg b).toInt)

/-- VST alone in the strand's share, likewise, and VSTS, whose elements do not overlap: each active element's bytes are stored; every
other byte of the share, all of memory and every register stand (R119, R141, R325). -/
def Sys2Proof.Claims.ShareVectorStores : Prop :=
  ∀ (v : VAcc) (t : MemTy) (d : VReg) (a b : SReg) (sc ch : BitVec 2) (off : BitVec 16) (s : State), s.lone → v.c = false →
    s.me.dbgctl.getLsbD 2 = false → Memory.wf s.me.share = true → Claims.inOrder s v.oe →
    let n := memBytes t
    let w := memWidth t
    let act := Claims.act s v.gov w
    let word := fun (i : Instr) (place : Nat → Int) =>
      (∀ e, act e = true → 0 ≤ place e ∧ place e + n ≤ 1024 * s.me.strshare ∧ place e % n = 0) →
      (∀ e f, act e = true → act f = true → e < f → place e + n ≤ place f ∨ place f + n ≤ place e) →
      ∃ u, exec i s = .next u ∧ u.me.ch = s.next.me.ch ∧ u.me.file = s.me.file ∧ u.sameBytes s ∧
        (∀ e, act e = true → ∀ j < n, Assoc.get byteDefault ((place e).toNat + j) u.me.share =
          BitVec.ofNat 8 ((Claims.lane w (s.me.file.vreg d) e).toNat / 256 ^ j)) ∧
        ∀ o : Nat, (∀ e, act e = true → (o : Int) < place e ∨ place e + n ≤ o) →
          Assoc.get byteDefault o u.me.share = Assoc.get byteDefault o s.me.share
    word (.vst v d ⟨sc, 254, a⟩ ch (.bytes t off)) (fun e => (s.sreg a).toInt + off.toInt + (e * n : Nat)) ∧
    word (.vsts v d ⟨sc, 254, a⟩ ch (.bytes t off) b) (fun e => (s.sreg a).toInt + off.toInt + (e : Int) * (s.sreg b).toInt)

/-- VLD, VLDS, VST and VSTS of whole sizes in the strand's share. -/
def Obligations.ShareVectorAccesses : Prop := Claims.ShareVectorLoads ∧ Claims.ShareVectorStores

/-! ### Matrix words (R336 to R344) -/

/-- What a matrix word does to a tile: element size, the tile, the elements it acts on, their values. -/
structure Sys2Proof.Claims.Tiles where
  size : Nat
  td   : TReg
  act  : Nat → Nat → Bool
  val  : Nat → Nat → FpRes

/-- The words that compute tile elements (R338, R339, R343, R344), alone and with chain bit 0. -/
def Sys2Proof.Claims.tileWord (s : State) (i : Instr) : Option Sys2Proof.Claims.Tiles :=
  let f := s.me.file
  let on := fun (mk : MReg) top i => decide (i < min s.me.ch.mvl top) && (f.mask mk).getLsbD i
  let m := fun rm => modeOf rm s.me.ch.fpctl
  let el := fun w v e => (Claims.lane w (f.vreg v) e).toNat
  let outer := fun (neg : Bool) (mk : MReg) (k : MopTy) (mc : MReg) (td : TReg) (a b : VReg) =>
    match k with
    | .fp t rm =>
      let top := match t with
        | .f16 | .bf16 => 64
        | .f32 => 32
        | .f64 => 16
      let ft : FpTy := if t = .f64 then .f64 else .f32
      let sz := fpWidth ft / 8
      (⟨sz, td, fun i j => on mk top i && on mc top j, fun i j =>
        let p := fpProd (fpRead t (el (fpWidth t) a i)) (fpRead t (el (fpWidth t) b j))
        addProd ft (m rm) (if neg then p.negate else p) (fpRead ft (tileElem sz (f.tile td) i j))⟩ : Claims.Tiles)
    | .res => ⟨4, td, fun i j => on mk 64 i && on mc 64 j, fun i j =>
        let x := el 32 a i
        let y := el 32 b j
        let z := tileElem 4 (f.tile td) i j
        ⟨resAdd z (if neg then resNeg (resMul x y) else resMul x y), 0, resOor z || resOor x || resOor y⟩⟩
  match i with
  | .mopa false mk k mc td a b => some (outer false mk k mc td a b)
  | .mops false mk k mc td a b => some (outer true mk k mc td a b)
  | .mfold false mk rm td ts a b =>
    some ⟨4, td, fun i j => on mk 64 i && decide (j < min s.me.ch.mvl 64), fun i j =>
      mfoldElem (m rm) (tileElem 4 (f.tile td) i j) (el 16 a i) (el 16 b j) (tileElem 4 (f.tile ts) i j)⟩
  | .mcvt false mk t rm td ta src =>
    let top := if matSize t = 8 || mergeSize src = 8 then 16 else 64
    some ⟨matSize t, td, fun i j => on mk top i && decide (j < min s.me.ch.mvl top), fun i j =>
      mcvtElem t (m rm) src (tileElem (mergeSize src) (f.tile ta) i j)⟩
  | _ => none

/-- MOPA, MOPS, MFOLD and MCVT alone: each element that the masks select below MVL takes its value, MFLG the exceptions and SAT of
all of them; every other element and register stands (R191, R337 to R344). MZERO clears its tile; MROW and MWROW move a row of
2,048 bits, none where the index is 64 or more: MROW then reads zeros. -/
def Obligations.MatrixWords : Prop :=
  (∀ (i : Instr) (s : State) (p : Claims.Tiles), s.lone → Claims.tileWord s i = some p →
    ∃ g : VFile, exec i s = .next (s.next.onMe fun k => k.withFile g) ∧
      (∀ i < 64, ∀ j < 256 / p.size, tileElem p.size (g.tile p.td) i j =
        if p.act i j then (p.val i j).bits % 2 ^ (8 * p.size) else tileElem p.size (s.me.file.tile p.td) i j) ∧
      (∀ k, k ≠ p.td → g.tile k = s.me.file.tile k) ∧
      (∀ n, g.mflg.getLsbD n = true ↔ s.me.mflg.getLsbD n = true ∨ ∃ i j, p.act i j = true ∧
        (((p.val i j).fl.setWidth 32).getLsbD n = true ∨ (n = 5 ∧ (p.val i j).sat = true))) ∧
      g.v = s.me.v ∧ g.m = s.me.m ∧ g.stack = s.me.stack ∧ g.fpflg = s.me.fpflg) ∧
  ∀ (s : State) (d : VReg) (td : TReg) (b : SReg), s.lone →
    exec (.mzero false td) s = .next (s.next.onMe fun k => { k with t := k.t.set td.toNat 0 td.isLt }) ∧
    (∃ g : VFile, exec (.mrow false d td b) s = .next (s.next.onMe fun k => k.withFile g) ∧
      (⟨fun e => decide (e < 32), 64, d, fun _ e => if (s.sreg b).toNat < 64 then (s.me.file.tile td).extractLsb' (2048 * (s.sreg b).toNat + 64 * e) 64 else 0,
        fun _ _ => false, fun _ _ => 0, .vec d⟩ : Claims.Elems).after 0 s.me.file g) ∧
    (64 ≤ (s.sreg b).toNat → exec (.mwrow false td d b) s = .next s.next) ∧
    ((s.sreg b).toNat < 64 → ∃ x : Tile, exec (.mwrow false td d b) s = .next (s.next.onMe fun k => { k with t := k.t.set td.toNat x td.isLt }) ∧
      ∀ r < 64, x.extractLsb' (2048 * r) 2048 =
        if r = (s.sreg b).toNat then (s.me.file.vreg d).extractLsb' 0 2048 else (s.me.file.tile td).extractLsb' (2048 * r) 2048)

/-! ### Memory seen through one byte (R120, R121, R321, R323, R329) -/

/-- A load that answers changes no byte and no register but the cached descriptor. -/
def Sys2Proof.Claims.LoadFrame : Prop :=
  ∀ (s u : State) (r : Ref) (n : Nat) (fmt sup : Bool) (ch : BitVec 2) (x : List Byte × Desc),
    s.load r n fmt false sup ch = .ok u x →
    u.mem = s.mem ∧ u.sameBytes s ∧ u.me = { s.me with dcache := u.me.dcache } ∧ u.others = s.others ∧ u.counters = s.counters

/-- A store of 1, 2, 4 or 8 bytes that goes to memory at a, with nothing in the write-combining buffer: the strand then reads
those bytes of the value at a, every other byte as before, and the home slices hold what they held. -/
def Sys2Proof.Claims.StoreFrame : Prop :=
  ∀ (s s1 u : State) (r : Ref) (n a : Nat) (val : Word) (ch sc : BitVec 2) (sup : Bool) (d : Desc),
    n ∈ [1, 2, 4, 8] → Assoc.wf Cu.none s.cus = true → (s.cu s.me.cu).wcb = [] →
    s.probe wrOnly r n false false sup = .ok s1 (.mem a, d) → s.doStore r n false val ch sc false sup false = .ok u () →
    u.me = { s.me with dcache := u.me.dcache, older := u.me.older } ∧ u.others = s.others ∧ u.sameBytes s ∧
      (∀ i < n, u.viewByte s.me.cu s.me.slot (a + i) = BitVec.ofNat 8 (val.toNat / 256 ^ i)) ∧
      ∀ b, (b < a ∨ a + n ≤ b) → u.viewByte s.me.cu s.me.slot b = s.viewByte s.me.cu s.me.slot b

/-- An atomic at memory a, with nothing in the write-combining buffer and no order log: it answers the old bytes, the bytes take
the new value where there is one, and every other byte stands. -/
def Sys2Proof.Claims.AtomicFrame : Prop :=
  ∀ (s s1 u : State) (op : AmoOp) (t : AmoTy) (r : Ref) (a y c old : Nat) (sup : Bool) (d : Desc),
    s.memOk → (s.cu s.me.cu).wcb = [] → s.ckOn s.me.vd = false →
    s.probe rdWr r (amoBytes t) false false sup = .ok s1 (.mem a, d) → s.amo r op t false sup y c = .ok u old →
    let n := amoBytes t
    old = s.homeNat a n ∧ u.memOk ∧ u.me = { s.me with dcache := u.me.dcache } ∧
      (∀ i < n, u.homeByte (a + i) = BitVec.ofNat 8
        ((amoNew op t old (y % 2 ^ (8 * n)) (c % 2 ^ (8 * n))).getD old / 256 ^ i)) ∧
      ∀ b, (b < a ∨ a + n ≤ b) → u.homeByte b = s.homeByte b

/-- ZLINE at an aligned line of memory, with nothing in the write-combining buffer: its 128 bytes are 0, every other stands, and
the line is poisoned no more. -/
def Sys2Proof.Claims.ZlineFrame : Prop :=
  ∀ (s s1 u : State) (r : Ref) (a : Nat) (sup : Bool) (d : Desc), s.memOk → (s.cu s.me.cu).wcb = [] → a % 128 = 0 →
    s.probe wrOnly r 128 false false sup = .ok s1 (.mem a, d) → s.doZline r sup false = .ok u () →
    u.memOk ∧ u.me = { s.me with dcache := u.me.dcache, older := u.me.older } ∧ (∀ i < 128, u.homeByte (a + i) = 0) ∧
      (∀ b, (b < a ∨ a + 128 ≤ b) → u.homeByte b = s.homeByte b) ∧ u.poisoned (a / 128) = false

/-- What scalar accesses that answer leave of memory. The statements of LD, ST, AMO and ZLINE above carry it to exec. -/
def Obligations.MemoryFrames : Prop := Claims.LoadFrame ∧ Claims.StoreFrame ∧ Claims.AtomicFrame ∧ Claims.ZlineFrame

/-! ### The machine (log entries 1 and 13) -/

/-- Right after reset: no strand, memory in its form, and the registers that the spec gives a value. -/
def Obligations.ResetState : Prop :=
  let s := State.reset
  s.memOk ∧ s.regsOk ∧ s.me = Strand.none ∧ s.others = [] ∧
  (∀ k < 12, s.reg (0xF80000020020 + 0x100 * k) = 0x00646964) ∧ s.reg 0xF80000020028 = 0x14 ∧
  (∀ p < 16, s.reg (0xF80000070060 + 0x100 * p) = 0x0020040002000100) ∧ s.reg 0xF800000D0000 = 0x100000 ∧
  (∀ v < 64, s.reg (0xF80000160000 + 0x40 * v) = 0xA0000)

/-- Every step keeps memory in its canonical form. -/
def Obligations.StepKeepsMemory : Prop := ∀ s t : State, s.memOk → step s = .next t → t.memOk

/-- No instruction stops the machine: every one of them, and every step, answers a next state. -/
def Obligations.EveryStepAnswers : Prop :=
  (∀ (i : Instr) (s : State), ∃ t, exec i s = .next t) ∧ ∀ s : State, ∃ t, step s = .next t

/-- A step runs the decoded instruction: with nothing on the agenda and a strand that may take a word, the word that its fetch
answers and that decodes to i is run as exec i, noted as the word begun; then a strand that steps one word notes it, and muted strands look at what they
wait for. The fetch reads the eight bytes of slot 0 at PC, little-endian, and changes of
the strand only its cached descriptor. -/
def Obligations.StepRunsDecoded : Prop :=
  (∀ (s s' t : State) (w : Word) (i : Instr),
    s.agenda = [] → s.me.flows = true → s.me.wait = .none → s.dispatchable s.me.vd = true → s.me.squashing = none →
    s.me.pend = [] → s.me.early = [] → s.me.pops = [] → s.me.trap = none → s.me.vwait = none → s.me.stepping = false →
    s.me.ahead = false → s.me.async = [] → s.quiet false → (s.me.forming = [] ∨ joins i = true) →
    (s.me.skipBrk = true ∨ s.brkAt s.me.ch.pc = false) →
    s.fetchAt s.me.ch.pc = .ok s' w → decode w = .ok i → exec i (s'.beginWord w) = .next t → step s = .next (t.noteStep s'.me.seq).noteWatches) ∧
  ∀ (s s1 : State) (pc : Word) (a : Nat) (d : Desc),
    s.probe exOnly ⟨0, true, pc.toNat⟩ 8 false false true = .ok s1 (.mem a, d) →
    ∃ u, s.fetchAt pc = .ok u (BitVec.ofNat 64 (s.homeNat a 8)) ∧ u.mem = s.mem ∧ u.me = { s.me with dcache := u.me.dcache }

/-! ### Events. What the pins present stands in `pins` (log entry 1): which port, stack, device or entry, an address, a value -/

/-- Memory stacks, die links and the caches (R10, R14 to R22, R120, R124): flits, code words with one and two bad symbols,
evictions, temperature reports, self-refresh, THERMWAIT, and buffered lines that time out. -/
def Obligations.StackEvents : Prop :=
  ∀ s : State,
    let p := s.pins
    let k := p.port
    let stk := 0xF80000020000 + 0x100 * k
    (exec .dieLinkFlit s = .next (if p.ok then s.charge (.dieLink k) p.value 1 else s)) ∧
    (∀ c, s.pchOf p.addr = some c →
      let b := 0xF80000020000 + 0x100 * (c / 64)
      let meets := fun (i : Instr) =>
        (p.count = 0 → exec i s = .next s) ∧ (p.count = 1 → exec i s = .next (s.countReg (b + 8) 32)) ∧
        (p.count = 2 → exec i s = .next (((({ s with fresh := s.fresh + 1 } : State).setPoison (p.addr / 128) true).countReg (b + 0x10) 32).setReg
          (b + 0x18) (BitVec.ofNat 64 (128 * (p.addr / 128)))))
      meets .codeWordRead ∧
      (2080 ≤ s.now % 4096 → s.now % 4096 < 2112 → s.admits 71 (p.addr / 64 * 64) 64 false = true → meets .scrubRead)) ∧
    (∀ t, s.tagOf (p.addr / 128) = some t → s.pinned t = false →
      let goes := fun (i : Instr) =>
        ∃ u, exec i s = .next u ∧ u.tagOf t.line = none ∧ u.poisoned t.line = (t.poison && !t.zero) ∧ u.mem = s.mem ∧ u.me = s.me
      (t.poison = true → goes .poisonedLineEviction) ∧ (t.zero = true → goes .zeroLineEviction)) ∧
    (k < 12 → k ∉ s.excluded → field (s.regN stk) 0 3 ≠ 4 →
      let t := p.value % 4096
      let s0 := s.setRegField stk 20 12 t
      let lim := s0.regN (stk + 0x20)
      let warm := decide (8 * field lim 0 8 ≤ t)
      let cool := fun (u : State) =>
        let v := u.setRegField stk 0 3 (if warm then 1 else 0)
        if warm ∧ field (u.regN stk) 0 3 ≠ 1 then { v with out := .power k :: v.out } else v
      (k ∉ s.crit → t < 8 * field lim 8 8 → exec .stackTemperatureReport s = .next (cool s0)) ∧
      (k ∉ s.crit → 8 * field lim 8 8 ≤ t →
        exec .stackTemperatureReport s = .next (({ s0 with crit := k :: s0.crit } : State).setRegField stk 0 3 3)) ∧
      (k ∈ s.crit → 8 * field lim 16 8 < t → exec .stackTemperatureReport s = .next s0) ∧
      (k ∈ s.crit → t ≤ 8 * field lim 16 8 → exec .stackTemperatureReport s = .next (cool (s0.leaveCritical k)))) ∧
    (k < 12 → field (s.regN stk) 0 3 = 3 → exec .selfRefreshEntry s = .next (s.setRegField stk 0 3 2)) ∧
    (k < 12 → field p.value 16 8 ≤ field p.value 8 8 → field p.value 0 8 ≤ field p.value 8 8 →
      exec .stkthermWrite s = .next (s.setReg (stk + 0x20) (BitVec.ofNat 64 (p.value % 2 ^ 24)))) ∧
    (k < 12 → field p.value 8 8 < field p.value 16 8 ∨ field p.value 8 8 < field p.value 0 8 → exec .stkthermWrite s = .next s) ∧
    exec .thermwaitWrite s = .next (s.setReg 0xF80000020028 (BitVec.ofNat 64 (min 1000 (max 1 (p.value % 2 ^ 32))))) ∧
    (∀ w, s.replay[p.count]? = some w → s.heldByHeat w = true → s.regN 0xF80000020028 * 2000000 ≤ s.now - w.since →
      let t : State := { s with replay := s.replay.eraseIdx p.count }
      (∀ n, w.who.ask = .chanter n ∨ w.who.ask = .pending n → (s.me.is w.who.vd w.who.imgidx) = true → s.me.pend = [] →
        exec .thermwaitExpiry s = .next (t.raise { stopAt s.me.headPc .thermal (slotInfo w.slot w.off) with gen := w.gen })) ∧
      ∀ r, w.who.ask = .inbound r → r.m = 72 → exec .thermwaitExpiry s = .next { t with out := .errorResponse :: t.out }) ∧
    ∀ l, (s.cu k).wcb.find? (fun l => l.line == p.addr / 128) = some l → 64 ≤ s.now - l.born → s.stuck l = false →
      exec .wcbLineTimeout s = .next ((s.setCu k { s.cu k with wcb := (s.cu k).wcb.filter fun m => m.line != l.line }).writeBack l)

/-- Root ports and the CXL window, with nothing waiting and no stack critical (R15, R23 to R28, R131). A write carries `bytes`, a read
has none. -/
def Sys2Proof.Claims.RootPorts : Prop :=
  ∀ s : State, s.crit = [] → s.replay = [] →
    let p := s.pins
    let say := fun (s : State) m => ({ s with out := m :: s.out } : State)
    let wr := decide (p.bytes ≠ [])
    let n := if wr then p.bytes.length else p.count
    let far := s.listed p.addr = false ∨ s.listed (p.addr + n - 1) = false
    let here := s.inMap p.addr = true ∧ s.inMap (p.addr + n - 1) = true ∧ inHost s.roots p.addr = false ∧ 0 < n ∧ n ≤ if wr then 512 else 4096
    (p.value = 1 → exec .pcieInboundRequest s = .next (say s .unsupported)) ∧
    (far → exec .pcieInboundRequest s = .next (say s .unsupported)) ∧
    (p.value ≠ 1 → here → s.admits 73 p.addr n wr = false → exec .pcieInboundRequest s = .next (say s .unsupported)) ∧
    (p.value ≠ 1 → here → s.admits 73 p.addr n wr = true →
      (wr = false → ∃ u, exec .pcieInboundRequest s = .next u ∧ u.mem = s.mem ∧ u.me = s.me ∧
        u.out = .answer (s.homeBytes p.addr p.count) :: s.out) ∧
      (wr = true → exec .pcieInboundRequest s = .next (say (s.dmaWrite p.addr p.bytes false) .done))) ∧
    (p.value ≠ 1 → ¬ far → 0 < n → n ≤ (if wr then 512 else 4096) → inHost s.roots p.addr = true →
      exec .pcieInboundRequest s = .next (s.forward p.addr (if wr then .write p.bytes (2 ^ n - 1) else .read n))) ∧
    (wr = true → here → s.admits 73 p.addr n true = true → s.memOk →
      ∃ u, exec .downstreamDmaWrite s = .next u ∧ u.me = s.me ∧ u.memOk ∧ u.homeBytes p.addr p.bytes.length = p.bytes ∧
        (∀ a, a < p.addr ∨ p.addr + p.bytes.length ≤ a → u.homeByte a = s.homeByte a) ∧
        ∀ l, p.addr / 128 ≤ l → l ≤ (p.addr + p.bytes.length - 1) / 128 →
          (p.ok = false → u.poisoned l = true) ∧
          (p.ok = true → p.addr ≤ 128 * l → 128 * l + 128 ≤ p.addr + p.bytes.length → u.poisoned l = false)) ∧
    (inCxl s.roots p.addr = true → ∃ u, exec .cxlMemRead s = .next u ∧ u.mem = s.mem ∧ u.me = s.me ∧
      (p.ok = false → u.poisoned (p.addr / 128) = true))

/-- Requests of peers in range, with nothing waiting and no stack critical: what the access table admits performs, the rest is answered
with an error (R29, R31, R33, R131). -/
def Sys2Proof.Claims.PeerRequests : Prop :=
  ∀ s : State, s.crit = [] → s.replay = [] →
    let p := s.pins
    let say := fun (s : State) m => ({ s with out := m :: s.out } : State)
    let frame := fun (u : State) => u.me = s.me ∧ u.memOk ∧ ∀ a, a < p.addr ∨ p.addr + p.count ≤ a → u.homeByte a = s.homeByte a
    (0 < p.count → p.count ≤ 256 → s.inMap p.addr = true → s.inMap (p.addr + p.count - 1) = true →
      (s.admits 72 p.addr p.count false = false → exec .peerRead s = .next (say s .errorResponse)) ∧
      (s.admits 72 p.addr p.count false = true →
        (s.poisoned (p.addr / 128) = true → exec .peerRead s = .next (say s .dataError)) ∧
        ((∀ l, s.poisoned l = false) → ∃ u, exec .peerRead s = .next u ∧ u.mem = s.mem ∧ u.me = s.me ∧
          u.out = .answer (s.homeBytes p.addr p.count) :: s.out)) ∧
      (s.admits 72 p.addr p.count true = true → p.bytes.length = p.count → s.memOk → ∃ u, exec .peerWrite s = .next u ∧ frame u ∧
        u.out = .done :: s.out ∧
        ∀ i < p.count, u.homeByte (p.addr + i) = if p.value.testBit i then p.bytes.getD i 0 else s.homeByte (p.addr + i)) ∧
      ∀ op, s.admits 72 p.addr p.count true = true → amoOfCode p.value = some op → p.count = 4 ∨ p.count = 8 → p.addr % p.count = 0 →
        s.poisoned (p.addr / 128) = false → s.memOk → ∃ u, exec .peerAtomic s = .next u ∧ frame u ∧
          u.out = .answer (s.homeBytes p.addr p.count) :: s.out ∧
          u.homeBytes p.addr p.count = leBytes p.count ((amoNew op (if p.count = 4 then .i32 else .i64)
            (ofLe (s.homeBytes p.addr p.count)) (ofLe (p.bytes.take p.count)) (ofLe (p.bytes.drop p.count))).getD
            (ofLe (s.homeBytes p.addr p.count)))) ∧
    (p.port < 18 → exec .unknownPacket s = .next (say (s.countReg (0xF80000030008 + 0x1000 * p.port) 32) .errorResponse))

/-- Requests of the device to peers: with those of one device waiting, none of an old incarnation, the oldest goes out on its port,
whose arbiter charges its flits. Their responses: one to an older incarnation is dropped and counted, any other is there for its
requester (R30, R182). -/
def Sys2Proof.Claims.DeviceRequests : Prop :=
  ∀ s : State,
    let p := s.pins
    (∀ r l, s.sendq = r :: l → (∀ q ∈ s.sendq, q.who.vd = r.who.vd ∧ s.staleWho q.who = false) →
      portFor ((List.range 18).filter fun p => field (s.regN (0xF80000030000 + 0x1000 * p)) 0 3 == 2) (r.addr / 128) = some p.port →
      let t := ({ s with sendq := l, ports := Assoc.put [] p.port (Assoc.get [] p.port s.ports ++ [r]) s.ports } : State).charge
        (.ualink p.port) r.who.vd r.flits
      exec .ualinkRequestSend s = .next { t with out := .ualink p.port r :: t.out }) ∧
    ∀ r ans, (Assoc.get [] p.port s.ports)[p.count]? = some r → responseOf r.op p = some ans →
      let u : State := { s with ports := Assoc.put [] p.port ((Assoc.get [] p.port s.ports).eraseIdx p.count) s.ports }
      (s.staleWho r.who = true → exec .responseArrival s = .next (u.countReg 0xF80000090038 32)) ∧
      (s.staleWho r.who = false → (∀ k ∈ s.strands, k.muted = false) → s.awaited r = true →
        exec .responseArrival s = .next { u with peerIn := s.peerIn ++ [⟨r.who, r.entry, r.addr, r.op, ans⟩] })

/-- Lane repair, retraining, training and a port that goes down (R32 to R35). -/
def Sys2Proof.Claims.LinkRepair : Prop :=
  ∀ s : State, s.pins.port < 18 →
    let p := s.pins
    let link := 0xF80000030000 + 0x1000 * p.port
    let state := field (s.regN link) 0 3
    let width := field (s.regN link) 4 4
    let lanes := field (s.regN link) 8 4
    let sent := Assoc.get [] p.port s.ports
    let set := fun (s : State) st w l => s.setReg link (BitVec.ofNat 64 (st + 16 * w + 256 * l))
    (state = 2 → s.regN (link + 0x28) ≤ p.value → exec .laneRepairRequest s = .next (
      set (s.setReg (link + 0x10) (BitVec.ofNat 64 (min (s.regN (link + 0x10) + p.value) (2 ^ 32 - 1)))) 3 width lanes)) ∧
    (state = 3 → popNat 4 lanes = width → 1 < width → lanes.testBit p.count = true →
      exec .replayDrainEnd s = .next (set { s with ports := Assoc.put [] p.port (sent.map fun r => { r with acked := true }) s.ports }
        3 width (narrower lanes p.count))) ∧
    (state = 3 → popNat 4 lanes < width →
      exec .laneRepairDone s = .next ((set s 2 (popNat 4 lanes) lanes).countReg (link + 0x18) 16)) ∧
    (state = 3 → s.regN (link + 0x30) < p.value → exec .portRetrain s = .next ((set s 4 width lanes).countReg (link + 0x20) 16)) ∧
    (state = 1 → p.ok = true → popNat 4 p.value ∈ [1, 2, 4] →
      exec .trainingEnd s = .next (set s 2 (popNat 4 p.value) (p.value % 16))) ∧
    (state = 4 → p.ok = true → sent = [] → exec .trainingEnd s = .next (set s 2 width lanes)) ∧
    (state ≠ 0 → sent = [] → exec .portDown s = .next ({ set s 0 0 0 with ports := Assoc.put [] p.port [] s.ports }))

/-- Root ports, the CXL window and the UALink ports. -/
def Obligations.PortEvents : Prop := Claims.RootPorts ∧ Claims.PeerRequests ∧ Claims.DeviceRequests ∧ Claims.LinkRepair

/-- Bring-up and attestation (R36 to R43): the start, a step that passes, fails or times out, BOOTCTL, measurements, reports. -/
def Obligations.BootEvents : Prop :=
  ∀ s : State,
    let p := s.pins
    let boot := 0xF80000010000
    let ok := 0xF80000010130
    -- the first step, of the main method
    (s.boot = none → s.caps = none → s.halted = false → field (s.regN boot) 0 3 = 0 ∨ field (s.regN boot) 0 3 = 2 →
      exec .bootStart s = .next ({ (s.setReg (boot + 0x20) (BitVec.ofNat 64 ((s.regN (boot + 0x20) + 1) % 2 ^ 32))).setReg boot
        (BitVec.ofNat 64 (1 + 16 * field (s.regN boot) 4 2)) with boot := some (0, s.now) })) ∧
    -- R38: the method a step runs at the next start
    (∀ n b, field b 0 3 = 1 ∨ field b 0 3 = 3 →
      (n = 18 → field b 3 1 = 0 → stepAction n b = none) ∧
      (n ≠ 0 → n ≠ 1 → n ≠ 18 → field b 3 1 = 0 → stepAction n b = some (true, 0)) ∧
      (n = 0 ∨ n = 1 ∨ field b 3 1 = 1 → stepAction n b = some (field b 3 1 == 1, field b 4 2))) ∧
    (∀ n t, s.boot = some (n, t) →
      let b := field (s.regN (boot + n)) 0 6
      let alt := field b 3 1
      let f := min 3 (field b 4 2 + 1)
      let bad := s.setReg (boot + n) (BitVec.ofNat 64 (3 + 8 * alt + 16 * f))
      let halt := fun (u : State) c => ({ u with boot := none, halted := true } : State).setReg (boot + 0x28) (BitVec.ofNat 64 (256 * n + c))
      let next := fun (u : State) => (u.setReg (boot + n) (BitVec.ofNat 64 ((if alt = 1 then 5 else 2) + 8 * alt + 16 * field b 4 2))).beginStep 22 (n + 1)
      let late := stepLimit n * 2000000 ≤ s.now - t
      let down := n = 18 → s.upPorts = []
      (n < 2 → ¬ late → exec .bootStepPass s = .next (next s)) ∧
      (n = 2 → ¬ late → exec .bootStepPass s = .next (if blobOk p.bytes = true then next { s with
        measures := s.measures.set 0 (Keccak.shake256 p.bytes), serial := BitVec.ofNat 64 (ofLe ((p.bytes.drop 0x10).take 8)), split := Config.bifurcation ((p.bytes.drop 0x20).take (ofLe ((p.bytes.drop 0x18).take 4))) } else s)) ∧
      (n = 18 → s.upPorts ≠ [] → exec .bootStepPass s = .next (next s) ∧ exec .bootStepFail s = .next s) ∧
      (n = 20 → ¬ late → p.ok = true → exec .bootStepPass s = .next (next { s with measures := s.measures.set 1 (Keccak.shake256 p.bytes) })) ∧
      (n = 2 → alt = 1 → blobOk p.bytes = false → exec .bootStepFail s = .next (halt bad 3)) ∧
      (down → n ≠ 2 ∨ alt = 0 ∨ blobOk p.bytes = true → f = 3 → exec .bootStepFail s = .next (halt bad 1)) ∧
      (down → n ≠ 2 ∨ alt = 0 ∨ blobOk p.bytes = true → f ≠ 3 → exec .bootStepFail s = .next bad.packageReset) ∧
      (late → down → exec .bootStepTimeout s = .next (if f = 3 then halt bad 1 else bad.packageReset)) ∧
      (late → ¬ down → exec .bootStepTimeout s = .next (next s)) ∧
      (¬ late → exec .bootStepTimeout s = .next s)) ∧
    -- a package reset keeps the boot record and the report count alone; CLR clears the record first
    (s.regsOk →
      let resets := fun (i : Instr) (step : Nat → Word) => ∃ t, exec i s = .next t ∧ t.me = Strand.none ∧ t.others = [] ∧ t.caps = none ∧
        t.halted = false ∧ t.counters = [] ∧ t.launches = [] ∧ t.out = .packageReset :: s.out ∧
        (∀ a, a < boot ∨ boot + 0x30 ≤ a → a ≠ ok → t.reg a = regReset a) ∧
        t.regN ok = s.regN ok / 2 ^ 16 * 2 ^ 16 ∧ t.reg (boot + 0x20) = s.reg (boot + 0x20) ∧ ∀ n < 21, t.reg (boot + n) = step n
      resets .bootctlRst (fun n => s.reg (boot + n)) ∧ resets .bootctlClr fun _ => 0) ∧
    -- attestation
    (p.bytes.length = 64 → exec .measurementExtend s = .next { s with
      measures := s.measures.set 3 (Keccak.shake256 (leBytes 64 (s.measures[3]).toNat ++ p.bytes)) }) ∧
    (let dst := s.regN (boot + 0x120) % 2 ^ 48
     (s.attq.length < 4 → dst % 64 = 0 → dst + 1024 ≤ s.devTop → ∃ u, exec .attcmdGo s = .next u ∧ u.mem = s.mem ∧ u.me = s.me ∧
       u.attq = s.attq ++ [⟨(List.range 4).flatMap fun n => leBytes 8 (s.regN (boot + 0x100 + 8 * n)), dst⟩]) ∧
     (4 ≤ s.attq.length ∨ dst % 64 ≠ 0 ∨ s.devTop < dst + 1024 → exec .attcmdGo s = .next (s.setRegField ok 1 1 1))) ∧
    ∀ r l, s.attq = r :: l → s.memOk →
      let text := s.reportBody r ++ (List.range 114).map (Config.sign (s.reportBody r)) ++ List.replicate 510 0
      let w := s.ioWrite 255 r.dst text fun _ => true
      exec .attestationReportWrite s = .next ((({ w with attq := l } : State).setRegField ok 16 16 (field (w.regN ok) 16 16 + 1)).attPend) ∧
        w.homeBytes r.dst text.length = text ∧ w.me = s.me

/-- The registers that a partition, a device and the debugger write (R46 to R51, R55, R56, R80, R128, R132, R173, R181, R208, R211,
R217, R263). -/
def Obligations.RegisterEvents : Prop :=
  ∀ s : State,
    let p := s.pins
    let part := 0xF80000070000 + 0x100 * p.port
    let dev := 0xF80000080000 + 0x40 * p.port
    let val := BitVec.ofNat 64 p.value
    -- partitions: accepted while no device of theirs is enabled or resident
    (p.port < 16 → s.partIdle p.port = true →
      (p.count < 4 → (∀ c < 128, p.value.testBit c = true → 128 * p.count + c ∈ s.found.cus ∧ ∀ q < 16, q ≠ p.port → (s.pcumask q p.count).getLsbD c = false) →
        exec .pcumaskWrite s = .next (((s.setReg (part + 0x10 * p.count) val).setReg (part + 0x10 * p.count + 8)
          (BitVec.ofNat 64 (p.value / 2 ^ 64))).dropLatch p.port)) ∧
      ((∀ q < 16, q ≠ p.port → (s.regN (0xF80000070058 + 0x100 * q)).land (p.value % 2 ^ 64) = 0) →
        exec .plsportWrite s = .next ((s.setReg (part + 0x58) val).dropLatch p.port)) ∧
      (p.value < 2 ^ 48 → p.value % 0x60000000 = 0 → exec .pmbaseWrite s = .next ((s.setReg (part + 0x68) val).dropLatch p.port)) ∧
      (p.addr = 0x40 → p.value < 2 ^ 48 → exec .partitionRegisterWrite s = .next ((s.setReg (part + 0x40) val).dropLatch p.port)) ∧
      (p.addr = 0x48 → p.value ≤ 768 → exec .partitionRegisterWrite s = .next ((s.setReg (part + 0x48) val).dropLatch p.port)) ∧
      (p.addr = 0x50 → p.value < 64 → exec .partitionRegisterWrite s = .next ((s.setReg (part + 0x50) val).dropLatch p.port))) ∧
    (p.port < 16 → s.partIdle p.port = false → ∀ i ∈ [Instr.pcumaskWrite, .plsportWrite, .pmbaseWrite, .partitionRegisterWrite], exec i s = .next s) ∧
    (p.port < 16 →
      let lg := field p.value 48 6
      exec .powceilWrite s = .next (s.setReg (part + 0x60) (BitVec.ofNat 64 ((if lg = 0 ∨ 32 < lg then 32 else lg) * 2 ^ 48 +
        min 1024 (max 4 (field p.value 32 11)) * 2 ^ 32 + min 512 (max 2 (field p.value 16 10)) * 2 ^ 16 + min 256 (max 1 (field p.value 0 9)))))) ∧
    -- devices
    (p.port < 64 →
      (s.vdEn p.port = false → p.value.testBit 0 = true →
        let part := field p.value 16 4
        let put := fun (s : State) => (s.setReg dev (BitVec.ofNat 64 (field p.value 24 8 * 2 ^ 24 + part * 2 ^ 16 + 1))).dropQueues p.port
        (s.imgUnits p.port < s.imgNeed p.port → exec .vdctlEnSet s = .next s) ∧
        (s.imgNeed p.port ≤ s.imgUnits p.port →
          (s.firstOf p.port part = false → exec .vdctlEnSet s = .next (put s)) ∧
          (s.firstOf p.port part = true → s.readArray part = none → exec .vdctlEnSet s = .next s) ∧
          ∀ w, s.firstOf p.port part = true → s.readArray part = some w →
            exec .vdctlEnSet s = .next (put (s.remap fun s => { s with windows := Assoc.put none part (some w) s.windows })))) ∧
      (p.value.testBit 0 = false → exec .vdctlEnClear s = .next (s.setReg dev (BitVec.ofNat 64
        (field p.value 24 8 * 2 ^ 24 + (if s.vdEn p.port then s.vdPart p.port else field p.value 16 4) * 2 ^ 16)))) ∧
      (p.addr = 8 → p.value < 2 ^ 32 → exec .vdRegisterWrite s = .next (s.setReg (dev + 8) val)) ∧
      (s.vdEn p.port = true → p.addr = 0x18 ∨ p.addr = 0x28 ∨ p.addr = 0x30 ∨ p.addr = 0x38 → exec .vdRegisterWrite s = .next s) ∧
      (p.addr < 256 → exec .notifyWrite s = .next (s.notify p.port p.addr (BitVec.ofNat 32 p.value)))) ∧
    (∀ i, s.cntIndex p.port ((Assoc.get (0 : BitVec 16) p.port s.cntsel).toNat) = some i →
      exec .cntdataWrite s = .next { s with counters := Assoc.put Counter.zero i ⟨BitVec.ofNat 32 p.value, p.value.testBit 32⟩ s.counters }) ∧
    -- a register write anywhere, here of MRGTO; one below the register space
    (p.addr = 0xF800000D0000 → p.value < 2 ^ 32 → exec .registerWrite s = .next (s.setReg p.addr val)) ∧
    (p.addr < 0xF80000000000 → exec .registerWrite s = .next s) ∧
    (p.port < 74 → (p.addr = 0x10 ∧ p.value % 4096 = 0 ∧ p.value < 2 ^ 48 ∨ p.addr = 0 ∧ p.value < 2 ^ 16) →
      exec .accessTableWrite s = .next (s.setReg (0xF800000C0000 + 0x80 * p.port + p.addr) val)) ∧
    -- kills, invalidations, the debugger, the trace, fault results
    (let stat := 0xF80000090018
     let c := p.value % 8192
     (field (s.regN stat) 31 1 = 0 → s.killWraps c = false → exec .ctxkillWrite s = .next ((s.kill c).setReg stat (BitVec.ofNat 64 (2 ^ 31 + c)))) ∧
     (field (s.regN stat) 31 1 = 0 → s.killWraps c = true → exec .ctxkillWrite s = .next (s.setReg stat (BitVec.ofNat 64 (2 ^ 30 + c)))) ∧
     (field (s.regN stat) 31 1 = 1 → exec .ctxkillWrite s = .next s) ∧
     (field (s.regN stat) 31 1 = 1 → s.ports = [] → exec .killComplete s = .next (s.setRegField stat 31 1 0))) ∧
    (let cmd := 0xF80000090048
     let busy := (s.reg (cmd + 8)).getLsbD 0
     let x := s.reg cmd
     let names := fun c => x.getLsbD 63 || c == field x.toNat 32 13
     (busy = false → field p.value 0 8 ≤ field p.value 8 8 → exec .sinvcmdWrite s = .next ((s.setReg cmd val).setReg (cmd + 8) 1)) ∧
     (busy = true → exec .sinvcmdWrite s = .next s ∧ ((s.flushContexts names).usesVersion names = false →
       exec .sinvComplete s = .next (((s.flushContexts names).invalidate names (field x.toNat 0 8) (field x.toNat 8 8)).setReg (cmd + 8) 0)))) ∧
    (p.value.testBit 0 = true → exec .dbgrelWrite s = .next { s with
      launches := s.launches.map fun (l : Launch) => if l.vd = p.port then { l with held := false } else l }) ∧
    exec .trstatFlush s = .next ((if p.value.testBit 1 = true ∧ s.trace.cur ≠ [] then { s with trace := { s.trace with flush := true } } else s).setReg 0xF80000150030 (BitVec.ofNat 64 (p.value % 2))) ∧
    (p.value.testBit 0 = true → s.me.status = .parked ∨ s.me.status = .debug → s.me.ctx = field p.value 32 13 →
      s.me.imgidx = field p.value 16 12 → s.me.incn = s.curIncn s.me.ctx → s.me.skipBrk = false → (∀ st, s.me.keep = some st → st.cause ≠ .watch) →
      exec .fqresWrite s = .next (s.onMe fun k => { k with status := .running, resume := k.keep, keep := none }))

/-- The dealer (R55 to R64, R74 to R76, R376): the five levels of CANCELCMD, the entries it takes and retires, launches, strands, frames. -/
def Obligations.DealerEvents : Prop :=
  ∀ s : State,
    let p := s.pins
    let v := p.port
    let done := fun (t : State) (x : Queue) => (t.setQueue v p.addr { x with taken := none }).advanceHead v p.addr
    let cancels := fun (i : Instr) (n : Nat) (lv : Level) => field p.value 0 3 = n →
      (s.ctxOk v (field p.value 16 13) = true → exec i s = .next (s.cancel v lv (field p.value 16 13) (field p.value 32 32))) ∧
      (s.ctxOk v (field p.value 16 13) = false → exec i s = .next s)
    (cancels .cancelcmdStrand 0 .strand ∧ cancels .cancelcmdLaunch 1 .launch ∧ cancels .cancelcmdGraph 2 .graph ∧
      cancels .cancelcmdPhase 3 .phase ∧ cancels .cancelcmdJob 4 .job) ∧
    -- a well-formed entry that comes next is taken
    (∀ q x, s.nextTake v = some (q, x) →
      let a := entryAddr x x.head
      let f := fun o n => s.homeNat (a + o) n
      let c := (QLatch.of x).ctx
      let taken := ({ (s.openJob c).setQueue v q { x with taken := some ⟨f 0 1, f 1 1 == 1, f 2 2, BitVec.ofNat 32 (f 4 4), s.order, c⟩ } with
        order := s.order + 1 } : State)
      s.dealerReads v a 64 = true → (∀ i < 48, f (16 + i) 1 = 0) → (f 1 1 = 0 ∨ f 1 1 = 1 ∧ f 0 1 = 4) →
      (f 0 1 = 0 → s.ctxOk v c = true → exec .nopTake s = .next (s.advanceHead v q)) ∧
      (f 0 1 = 0 → s.ctxOk v c = false → exec .nopTake s = .next ((s.queueError v q x.head 4).advanceHead v q)) ∧
      (4 < f 0 1 → exec .nopTake s = .next ((s.queueError v q x.head 1).advanceHead v q)) ∧
      (f 0 1 = 1 → f 8 8 % 256 = 0 → s.dealerReads v (f 8 8) 256 = true →
        let card := s.readCard (f 8 8)
        let e := s.cardError v c (f 8 8)
        (e = 0 → exec .launchTake s = .next (({ s.openJob c with
          launches := s.launches ++ [⟨s.order, v, q, (QLatch.of x).prio, c, s.curIncn c, card, .pending, 0, 0, none, false, false⟩]
          order := s.order + 1 } : State).advanceHead v q)) ∧
        (e ≠ 0 → exec .launchTake s =
          .next (((s.queueError v q x.head e).advanceHead v q).addRel v card.donecnt (BitVec.ofNat 32 card.doneinc) true))) ∧
      (s.ctxOk v c = true →
        (f 2 2 = 0xFFFF ∨ f 2 2 < s.vdCntN v → (f 0 1 = 2 → exec .waitTake s = .next taken) ∧ (f 0 1 = 3 → exec .signalTake s = .next taken)) ∧
        (f 0 1 = 4 → exec .phaseTake s = .next taken))) ∧
    -- the taken entry of a queue retires
    (let x := s.queue v p.addr
     ∀ t, x.taken = some t → x.span = none → s.vdEn v = true →
      (t.kind = 2 → (s.depState v t.cnt t.val).1 = true → exec .waitRetire s = .next (done s x)) ∧
      (t.kind = 3 → (∀ l ∈ s.launches, l.vd = v → l.queue = p.addr → t.order ≤ l.key) →
        exec .signalRetire s = .next (done (s.addRel v t.cnt t.val false) x)) ∧
      (t.kind = 4 → (∀ l ∈ s.launches, l.ctx = t.ctx → t.order ≤ l.key) → Assoc.wf Queue.none s.queues = true →
        let l := s.level t.ctx
        let s1 := (s.setLevel t.ctx ⟨t.fin || l.ended, false, !t.fin && l.job⟩).addCtx t.ctx (s.ctxPhasecnt t.ctx) 1 false
        let s2 := if t.fin then s1.addCtx t.ctx (s1.ctxJobcnt t.ctx) 1 false else s1
        exec .phaseRetire s = .next ((done s2 x).takeCheckpoint v))) ∧
    -- launches and strands
    (∀ l, s.launchOf p.value = some l →
      (l.state ≠ .eligible → s.vdEn l.vd = true →
        (s.depsCan l = false → s.depsMet l = true → exec .launchEligible s = .next (s.setLaunch { l with state := .eligible })) ∧
        (s.depsCan l = true → exec .launchEligible s = .next (s.retireLaunch { l with cancelled := widerLevel l.cancelled .launch }))) ∧
      (s.launchDone l = true → exec .launchRetire s = .next (s.retireLaunch l))) ∧
    (∀ l cu u i, s.nextStart v = some (l, cu) → s.cuIndexFor l cu = some u → s.imgFree v = some i →
      ∃ t k, exec .strandStart s = .next t ∧ (t.me = k ∧ t.others = s.others ∨ t.me = s.me ∧ t.others = s.others ++ [k]) ∧
        t.launches = (s.setLaunch { l with started := l.started + 1 }).launches ∧ t.mem = s.mem ∧ k.status = .running ∧
        k.launch = l.key ∧ k.vd = l.vd ∧ k.ctx = l.ctx ∧ k.cu = cu ∧ k.imgidx = i ∧ k.ch.pc = BitVec.ofNat 64 l.card.entry ∧
        (∀ i < 6, k.ch.s.toList.getD (i + 1) 0 = l.card.args.toList.getD i 0) ∧ k.ch.s.toList.getD 7 0 = BitVec.ofNat 64 l.started ∧
        k.ch.s.toList.getD 8 0 = BitVec.ofNat 64 l.card.strands ∧
        k.ch.s.toList.getD 31 0 = BitVec.ofNat 64 (0xFE * 2 ^ 56 + l.card.strshare * 1024) ∧
        (∀ i, 9 ≤ i → i < 31 → k.ch.s.toList.getD i 0 = 0) ∧ k.ch.lc0 = l.card.trip1 ∧ k.ch.lc1 = l.card.trip2 ∧ k.ch.vl = 0 ∧
        k.ch.mvl = 0 ∧ k.grant = 0 ∧ k.stack = [] ∧ k.ch.tvec = 0 ∧ k.ch.tcause = 0) ∧
    (s.me.is v p.addr = true → s.me.status = .ending → s.me.muted = false → s.me.pend = [] → ∀ u, s.closing = .ok u () →
      (∀ k ∈ u.endStrand.others, k.is v p.addr = false) → u.endStrand.me = Strand.none → exec .strandEnd s = .next u.endStrand) ∧
    -- frames
    (s.now % 4096 = 0 → Assoc.wf Bucket.zero s.buckets = true → ∃ t, exec .frameStart s = .next t ∧ t.me = s.me ∧ t.mem = s.mem ∧
      ∀ n ∈ arbiterNums, ∀ u < 64, Assoc.get Bucket.zero (64 * n + u) t.buckets =
        let r := s.rateAt n u
        ⟨min ((Assoc.get Bucket.zero (64 * n + u) s.buckets).bal + r) (s.depth u * r), 0, r⟩) ∧
    (s.now % 4096 = 2048 → p.addr ∈ arbiterNums → Assoc.wf Bucket.zero s.buckets = true → ∃ t, exec .lendingPoint s = .next t ∧
      t = { s with buckets := t.buckets } ∧
      ∀ u < 64, Assoc.get Bucket.zero (64 * p.addr + u) t.buckets =
        let b := Assoc.get Bucket.zero (64 * p.addr + u) s.buckets
        if s.waitsAt p.addr u then b else { b with lent := min b.bal b.rate }) ∧
    (s.now % 16 = 0 → v < 64 → exec .dispatchBucketCharge s = .next (
      (List.range (s.strands.filter fun k => k.vd == v && k.onCu && !k.muted).length).foldl (fun t _ => t.charge .dispatch v 1) s))

/-- Strands (R70, R71, R87, R88, R95, R98, R113, R167, R173 to R182, R229, R284, R332, R353, R375), here the one whose turn it is. -/
def Obligations.StrandEvents : Prop :=
  ∀ s : State,
    let p := s.pins
    let k := s.me
    let mine := k.is p.port p.addr = true
    let flows := k.flows = true
    -- lanes
    (mine → flows → ∀ c, k.headConvoy = some c → c.isSetvl = true → c.started = false → s.vecTurn.me.is k.vd k.imgidx = true →
      exec .laneRenegotiation s = .next s.vecTurn) ∧
    ((s.cu p.port).fifo = [k.slot] → flows → k.cu = p.port →
      let gets := fun (r : State × Bool) (f : State → State) => let u := if r.2 then f r.1.leaveFifo else r.1
        u.me.is k.vd k.imgidx = true → exec .laneFifoService s = .next u
      (k.waitingSetvl = none → gets (s.renegotiate k.strip.vl (16 * 2 ^ k.strip.w.toNat)) fun u => u) ∧
      ∀ w vl, k.waitingSetvl = some (w, vl) → k.cancelled = none →
        gets (s.renegotiate vl (wtyWidth w)) fun u => u.onMe fun k => ({ k with pend := k.pend.tail } : Strand).settle) ∧
    -- convoys and held operations, at the head of the pending items
    (mine → flows → ∀ c, k.headConvoy = some c → c.isSetvl = false → c.started = false → s.dispatchable k.vd = true →
      (c.restart.isSome = true ∨ c.skip = true ∨ s.brkAt c.pc = false) → k.blocks c = none → (s.startHead c).me.is k.vd k.imgidx = true →
      exec .convoyStart s = .next (s.startHead c)) ∧
    (mine → flows → s.headStarted = true → s.vecTurn.me.is k.vd k.imgidx = true → exec .convoyRetire s = .next s.vecTurn) ∧
    (mine → flows → ∀ n snap pc h w l, k.pend = ⟨n, snap, .held pc h w⟩ :: l → (∀ d o f, h ≠ .word d o f) → s.quiet true →
      ∀ u, s.doHeld h false true = .ok u () → u.me.is k.vd k.imgidx = true →
      exec .heldOperationRelease s = .next (u.onMe fun k => ({ k with pend := k.pend.tail } : Strand).settle)) ∧
    -- squashes
    (let begun := s.onMe fun k => { k with squashing := some s.now }
     mine → k.squashing = none → s.maySquash = true →
      (s.headStarted = true → p.ok = false → exec .squash s = .next begun) ∧
      (s.headStarted = true → p.ok = true → begun.vecTurn.inFlight = false → begun.vecTurn.finishSquash.me.is k.vd k.imgidx = true →
        exec .squash s = .next begun.vecTurn.finishSquash) ∧
      (s.headStarted = false → begun.inFlight = false → begun.finishSquash.me.is k.vd k.imgidx = true →
        exec .squash s = .next begun.finishSquash)) ∧
    (mine → ∀ t, k.squashing = some t → t + 2048 ≤ s.now → s.inFlight = false → s.finishSquash.me.is k.vd k.imgidx = true →
      exec .squashDeadline s = .next s.finishSquash) ∧
    -- a queue that blocks for QTIMEO x 1,024 cycles
    (mine → flows → k.vwait = none → k.pend = [] → k.ch.qtimeo ≠ 0 → 1024 * k.ch.qtimeo.toNat ≤ s.now - k.since →
      ∀ q, k.wait = .queuePop q → k.fromQ q = [] → exec .qdeadTimeout s = .next (s.raise (stopAt k.ch.pc .qdead (BitVec.ofNat 64 q.toNat)))) ∧
    -- register lines, replay queues
    (mine → k.onCu = true → p.count ∈ k.absent → s.poison = [] → s.l2 = [] → s.crit = [] →
      let t := (s.fetched (s.imgAddr k.vd k.imgidx + lineOff p.count) 256).fillLine p.count
      t.me.is k.vd k.imgidx = true → exec .registerLineFill s = .next t) ∧
    (s.partq = [] → (∀ w ∈ s.replay, s.staleWho w.who = false ∧ ∀ r, w.who.ask ≠ .inbound r) →
      exec .replayRelease s = .next { s with
        replay := s.replay.map fun w => if homeSlice w.line == p.port && s.mayGo w then { w with go := true } else w }) ∧
    -- traps, fault records, asynchronous faults
    (mine → flows → k.pend = [] → ∀ st, k.trap = some st → exec .trapTaken s = .next (s.takeStop st (esvOutside k.grant))) ∧
    (∀ r l, s.posts = r :: l → r.vd = p.port → s.fqRoom p.port = true →
      exec .faultRecordPost s = .next (({ s with posts := l } : State).writeRecord r)) ∧
    (mine → flows → ∀ w l, k.async = w :: l → k.ch.tcause.getLsbD 31 = false → k.pend = [] → k.trap = none → k.resume = none → k.forming = [] →
      let info := if l = [] ∧ k.asyncOvf = true then w ||| 0x40000000 else w
      exec .asyncfaultDelivery s = .next ((s.onMe fun m => { m with async := l, asyncOvf := k.asyncOvf && !(l.isEmpty && k.asyncOvf) }).takeStop
        (stopAt k.ch.pc .asyncfault info) (esvOutside k.grant))) ∧
    -- saves and restores by the context copier
    (let a := s.imgAddr k.vd k.imgidx
     let slot := s.now % 1024 < 32 ∧ s.crit = []
     (mine → s.maySave k = true → s.copierMay a k.imgSpan true = true → slot →
      (p.ok = true → s.saveStrand.me.is k.vd k.imgidx = true → exec .contextSave s = .next s.saveStrand) ∧
      (p.ok = false → s.killWraps k.ctx = false → exec .contextSave s = .next ((s.kill k.ctx).makeFog a (a + k.imgSpan)))) ∧
     (∀ h, (s.idleShares p.port).find? (fun h => h.of p.value (some p.count)) = some h → slot →
      s.copierMay (s.cuImgAddr h.vd h.idx) (1024 * h.kib) true = true → exec .cuShareSave s = .next (s.saveCuShare p.port h)) ∧
     (∀ x m, s.xfers[p.count]? = some x → s.mutedOf x = some m → m.saved = false ∨ s.crit = [] → exec .divertedLanding s = .next (s.beat x)) ∧
     (mine → k.muted = true → k.amo = none → s.ckBusy k.vd = false →
      (k.saved = false → s.shareBack k k.cu = true → (s.unmute.leaveCkpt k).me.is k.vd k.imgidx = true →
        exec .restore s = .next (s.unmute.leaveCkpt k)) ∧
      ∀ l, k.saved = true → s.launchOf k.launch = some l → s.mayRestore k p.value l.card.split = true → slot →
        s.copierMay a k.imgSpan false = true → s.shareBack k p.value = true → s.badImage k p.value = false →
        let t := (s.restore p.value l.card.split).leaveCkpt k
        t.me.is k.vd k.imgidx = true → exec .restore s = .next t)) ∧
    -- a request of an incarnation that is no longer current
    (∀ w, s.replay[p.count]? = some w → s.staleWho w.who = true →
      let u := ({ s with replay := s.replay.eraseIdx p.count } : State)
      exec .requestAtTarget s = .next (if w.wr then u.countReg 0xF80000090030 32 else { u with out := .staleNack :: u.out })) ∧
    -- waits: what the strand stands on runs again
    (mine → flows → ∀ d a b c, s.wordHere = some (.cntwait d a b) → k.wait = .counter → k.pend = [] → k.cancelled = none → k.woken = none →
      ((s.sreg a).extractLsb' 0 16).toNat < k.cntn → c = s.counter (k.cntbase.toNat + ((s.sreg a).extractLsb' 0 16).toNat) →
      (c.reached ((s.sreg b).extractLsb' 0 32) = true → exec .cntwaitWake s = .next ((((s.acquire.wake).setSreg d c.word).next).noteStep k.seq)) ∧
      (c.reached ((s.sreg b).extractLsb' 0 32) = false → k.ch.wtimeo ≠ 0 → 1024 * k.ch.wtimeo.toNat ≤ s.now - k.since →
        exec .cntwaitTimeout s = .next ((((s.wake).setSreg d c.word).next).noteStep k.seq))) ∧
    (mine → flows → ∀ t d m off b u y l, s.wordHere = some (.waita t d m off b) → k.wait = .address → k.pend = [] → k.cancelled = none →
      k.woken = none → s.watchRead (refOf m.sl (s.sreg m.a) off.toInt) (amoBytes t) = .ok u (y, l) →
      let gives := fun (i : Instr) (t : State) => let r := t.noteStep k.seq; r.me.is k.vd k.imgidx = true → exec i s = .next r
      (ofLe y ≠ (s.sreg b).toNat % 2 ^ (8 * amoBytes t) → u.sreg b = s.sreg b → gives .waitaWake (u.waitaDone d (amoWiden t (ofLe y)))) ∧
      (ofLe y = (s.sreg b).toNat % 2 ^ (8 * amoBytes t) → u.sreg b = s.sreg b → s.timedOut .address = true → u.timedOut .address = true →
        gives .waitaTimeout ((u.wake.setSreg d (amoWiden t (ofLe y))).next))) ∧
    (mine → flows → ∀ d a, s.wordHere = some (.cpwait d a) → k.wait = .copyId ((s.sreg a).extractLsb' 0 16) → k.pend = [] → k.cancelled = none →
      k.woken = none →
      let status := fun done => cpStatus ((s.sreg a).extractLsb' 0 16) done ⟨0, false, false, false, 0⟩
      (s.outstanding ((s.sreg a).extractLsb' 0 16) = none → 
        exec .cpwaitEnd s = .next (((((s.orderLog (.copy ((s.sreg a).extractLsb' 0 16))).setSreg d (status true)).next).noteStep k.seq))) ∧
      (∀ x, s.outstanding ((s.sreg a).extractLsb' 0 16) = some x → k.ch.wtimeo ≠ 0 → 1024 * k.ch.wtimeo.toNat ≤ s.now - k.since →
        exec .cpwaitTimeout s = .next (((s.setSreg d (status false)).next).noteStep k.seq)))

/-- Migration engines, merges, leases and transfers (R114 to R116, R125 to R127, R133 to R136, R350 to R352, R153). -/
def Obligations.MemoryEvents : Prop :=
  ∀ s : State,
    let p := s.pins
    let say := fun (s : State) m => ({ s with out := m :: s.out } : State)
    -- migration engines
    (p.port < 4 →
      let mig := 0xF800000B0000 + 0x100 * p.port
      let stat := s.regN (mig + 0x20)
      (p.value % 4 = 1 → stat % 2 = 0 → exec .migctlGo s = .next ((({ s with migs := Assoc.put 0 p.port 0 s.migs } : State).setReg (mig + 0x18)
        (BitVec.ofNat 64 (p.value.land 0xFF04))).setReg (mig + 0x20) 1)) ∧
      (p.value % 4 = 1 → stat % 2 = 1 → exec .migctlGo s = .next s) ∧
      (p.value % 4 = 2 → stat.testBit 1 = true → stat.testBit 2 = false → s.partq = [] → (∀ w ∈ s.replay, ∀ r, w.who.ask ≠ .inbound r) →
        let inS := fun (w : Waiting) => s.migSrc p.port < 128 * w.line + 128 ∧ 128 * w.line < s.migSrc p.port + s.migLen p.port
        exec .migctlRel s = .next (({ s with replay := s.replay.map fun w => if inS w then { w with go := true } else w } : State).setReg (mig + 0x20) (BitVec.ofNat 64 stat ||| 4))) ∧
      (stat % 2 = 1 → s.migLen p.port % 128 ≠ 0 → exec .migrationCopyEnd s = .next (s.setRegField (mig + 0x20) 0 4 0xA)) ∧
      (stat % 2 = 1 → s.migLen p.port % 128 = 0 → s.migLsrc p.port = false →
        overlaps (s.migSrc p.port) (s.migLen p.port) (s.migDst p.port) (s.migLen p.port) = false → s.migLen p.port ≤ Assoc.get 0 p.port s.migs →
        exec .migrationCopyEnd s = .next (s.setRegField (mig + 0x20) 0 4 2)) ∧
      (stat % 2 = 1 → s.migLen p.port = 128 → Assoc.get 0 p.port s.migs = 0 → s.migLsrc p.port = false → p.count = 0 →
        overlaps (s.migSrc p.port) 128 (s.migDst p.port) 128 = false → s.engineMay (64 + p.port) (s.migSrc p.port) 128 false = true →
        s.engineMay (64 + p.port) (s.migDst p.port) 128 true = true → s.poisoned (s.migSrc p.port / 128) = false → s.memOk →
        s.crit = [] → s.replay = [] → s.sendq = [] → s.ports = [] →
        (∀ a ∈ [s.migSrc p.port, s.migSrc p.port + 127, s.migDst p.port, s.migDst p.port + 127], inHost s.roots a = false) →
        ∃ u, exec .migrationCopyEnd s = .next u ∧ u.me = s.me ∧ u.memOk ∧
          u.homeBytes (s.migDst p.port) 128 = s.homeBytes (s.migSrc p.port) 128 ∧
          ∀ a, a < s.migDst p.port ∨ s.migDst p.port + 128 ≤ a → u.homeByte a = s.homeByte a)) ∧
    -- merges
    (∀ w, s.partq = [w] → p.count = 0 → s.tagCurrent w.ctx w.incn = true → s.lineWaits w.vd w.line = false →
      (w.n = 0 → exec .unorderedMergeArrival s = .next { s.mergeNow w with partq := [] }) ∧
      (2 ≤ w.n → (∀ e ∈ s.merges, ¬ (e.ctx = w.ctx ∧ e.incn = w.incn ∧ e.line = w.line)) →
        (s.merges.filter fun e => homeSlice e.line == homeSlice w.line).length < 64 →
        exec .mergePartArrival s = .next { s with merges := s.merges ++ [⟨w.ctx, w.incn, w.vd, w.line, w.n, [w.part], s.now⟩], partq := [] })) ∧
    (∀ e, s.merges[p.count]? = some e → s.regN 0xF800000D0000 ≠ 0 → s.regN 0xF800000D0000 ≤ s.now - e.born →
      exec .mergeTimeout s = .next (((s.closeMerge e).countReg 0xF800000D0008 32).setReg 0xF800000D0010 (BitVec.ofNat 64 (128 * e.line)))) ∧
    -- leases
    (let lend := 0xF800000F0000 + 0x20 * p.port
     let borrow := 0xF800000E0000 + 0x20 * p.port
     (p.port < 256 → p.addr = 8 → p.value < 2 ^ 48 → exec .lenderEntryWrite s = .next (s.setReg (lend + 8) (BitVec.ofNat 64 p.value)) ∧
       exec .borrowerEntryWrite s = .next (s.setReg (borrow + 8) (BitVec.ofNat 64 p.value))) ∧
     (p.port < 256 → p.addr = 0 → Lease.state (s.lender p.port) ≠ 2 → field p.value 16 2 = 2 →
       ∃ u, exec .lenderEntryWrite s = .next u ∧ u.out = .lease 2 p.port (field p.value 48 8) (field p.value 32 16) :: s.out ∧
         (p.port, s.now) ∈ u.revoked ∧ u.mem = s.mem ∧ u.me = s.me) ∧
     (∀ t, s.revoked.find? (fun r => r.1 == p.port) = some (p.port, t) → Lease.revto (s.lender p.port) * 2000 ≤ s.now - t →
       exec .revtoExpiry s = .next { s.setRegField lend 16 2 0 with revoked := s.revoked.filter fun r => r.1 != p.port }) ∧
     (p.port ∈ s.borrowq → s.leaseBusy p.port = false →
       exec .revokeDrainDone s = .next { s with borrowq := s.borrowq.filter (fun j => j != p.port), out := .notice false p.port :: s.out })) ∧
    (p.bytes.length = 64 →
      let f := fun o n => ofLe ((p.bytes.drop o).take n)
      (f 0 1 = 1 → exec .leaseSetupMessage s = .next (say s (.setup (f 2 1) (f 3 1) (f 4 2)))) ∧
      (f 0 1 = 2 → Lease.state (s.borrower (f 3 1)) = 1 → Lease.idx (s.borrower (f 3 1)) = f 2 1 → Lease.lgen (s.borrower (f 3 1)) = f 4 2 →
        exec .leaseRevokeMessage s = .next { s.setRegField (0xF800000E0000 + 0x20 * f 3 1) 16 2 2 with borrowq := s.borrowq ++ [f 3 1] }) ∧
      (f 0 1 = 3 → Lease.state (s.lender (f 2 1)) = 2 → Lease.idx (s.lender (f 2 1)) = f 3 1 → Lease.lgen (s.lender (f 2 1)) = f 4 2 →
        exec .leaseDoneMessage s = .next (say { s.setRegField (0xF800000F0000 + 0x20 * f 2 1) 16 2 0 with
          revoked := s.revoked.filter fun r => r.1 != f 2 1 } (.notice true (f 2 1))))) ∧
    -- a leased read that the entry and the access table admit, one that the entry does not; an application core
    (p.value < 2 ^ 24 → p.bytes = [] → 0 < p.count → p.count ≤ 256 →
      let lease := s.leaseAdmits (field p.value 16 8) (field p.value 0 16) p.addr p.count true false
      (lease = false → exec .leasedAccessArrival s = .next (say s .errorResponse)) ∧
      (lease = true → s.inMap p.addr = true → s.inMap (p.addr + p.count - 1) = true → s.admits 72 p.addr p.count false = true →
        s.crit = [] → s.replay = [] → (∀ l, s.poisoned l = false) →
        ∃ u, exec .leasedAccessArrival s = .next u ∧ u.mem = s.mem ∧ u.me = s.me ∧ u.out = .answer (s.homeBytes p.addr p.count) :: s.out)) ∧
    (p.bytes = [] → 0xF80000000000 ≤ p.addr → 0 < p.count → s.inCaps p.addr = false →
      (privReg p.addr = true → p.ok = false → exec .applicationCoreAccess s = .next (say s .privTrap)) ∧
      (privReg p.addr = false ∨ p.ok = true →
        exec .applicationCoreAccess s = .next (say s (.answer (leBytes (min p.count 8) (s.readReg p.addr).toNat))))) ∧
    (p.value = 0 → p.addr < 0xF00000000000 → inHost s.roots p.addr = false → s.inMap p.addr = true → s.crit = [] → s.replay = [] →
      (∀ k ∈ s.strands, k.shows = false) →
      (p.bytes = [] → 0 < p.count → s.inMap (p.addr + p.count - 1) = true → (∀ l, s.poisoned l = false) →
        ∃ u, exec .applicationCoreAccess s = .next u ∧ u.mem = s.mem ∧ u.me = s.me ∧ u.out = .answer (s.homeBytes p.addr p.count) :: s.out) ∧
      (p.bytes ≠ [] → s.inMap (p.addr + p.bytes.length - 1) = true → s.memOk → ∃ u, exec .applicationCoreAccess s = .next u ∧ u.me = s.me ∧
        u.memOk ∧ u.homeBytes p.addr p.bytes.length = p.bytes ∧
        ∀ a, a < p.addr ∨ p.addr + p.bytes.length ≤ a → u.homeByte a = s.homeByte a)) ∧
    -- transfers
    ∀ x, s.xfers[p.count]? = some x →
      (x.regs.rsh = false → s.mutedOf x = none → exec .copyBeat s = .next (s.beat x)) ∧
      (x.regs.rsh = true → exec .remoteShareBeat s = .next (s.beat x)) ∧
      exec .chunkLanded s = .next (s.chunkLanded x) ∧
      (x.regs.flagen = false → x.regs.cmask = 0 → exec .transferComplete s = .next (s.completeXfer x))

/-- The trace writer and the checkpoints (R215 to R219): where SEGMENT_SEAL, SEGMENT_SEND, SEGMENT_WRITE_COMPLETION, CHECKPOINT_TIMER and
CHECKPOINT_COMPLETE complete, and with what. The writers act in their own cycles of a frame (R74). -/
def Obligations.TraceEvents : Prop :=
  ∀ s : State,
    let p := s.pins
    let trace := 0xF80000150000
    let ck := 0xF80000160000 + 0x40 * p.port
    let slot := 1056 ≤ s.now % 4096 ∧ s.now % 4096 < 1088
    -- a segment that is full, or that FLUSH asks for, is sealed into its slot of the ring
    (slot → s.trace.flush = true ∨ 32766 ≤ s.trace.cur.length → s.trace.cur ≠ [] → 2 ≤ s.trNseg → s.trNseg ≤ 1024 →
      s.trace.segs.length < s.trNseg → s.crit = [] →
      let a := s.trBase + 0x100000 * (s.trace.seq % s.trNseg)
      s.inMap a = true → s.inMap (a + 0xFFFFF) = true → s.admits 70 a 0x100000 true = true → s.memOk →
      ∃ u, exec .segmentSeal s = .next u ∧ u.trace = { s.trace with
          cur := [], seq := s.trace.seq + 1, segs := s.trace.segs ++ [⟨s.trace.seq, s.trace.seq % s.trNseg, false⟩], flush := false } ∧
        u.me = s.me ∧ let b := segmentBytes s.trace.seq s.trace.start s.trace.cur; u.homeBytes a b.length = b) ∧
    (let qp := s.regN (trace + 0x10)
     let blocks := s.regN (trace + 0x18)
     slot → s.tracing = true → field blocks 32 32 ≠ 0 → (s.roots.any fun r => r.num == field qp 0 4) = true →
      ∀ x, s.trace.segs.find? (fun x => !x.sent) = some x →
      exec .segmentSend s = .next { s with
        trace := { s.trace with segs := s.trace.segs.map fun (y : Segment) => if y.seq = x.seq then { y with sent := true } else y }
        out := .segment (field qp 16 16) (field qp 0 4) x.seq (field blocks 0 32 + x.seq % field blocks 32 32) :: s.out }) ∧
    exec .segmentWriteCompletion s = .next { s with
      trace := { s.trace with segs := s.trace.segs.filter fun x => !(x.sent && x.seq == p.value) } } ∧
    -- a checkpoint of a device with no resident strand
    ((s.reg ck).getLsbD 0 = true → (s.reg (ck + 0x20)).getLsbD 0 = false → (∀ k ∈ s.strands, k.vd ≠ p.port) →
      s.ckPeriod p.port ≤ s.now - (s.ckpt p.port).last →
      exec .checkpointTimer s = .next { s.setReg (ck + 0x20) (s.reg (ck + 0x20) ||| 1) with
        ckpts := Assoc.put ⟨0, []⟩ p.port ⟨s.now, []⟩ s.ckpts, ologs := Assoc.put [] p.port [] s.ologs }) ∧
    ((s.reg (ck + 0x20)).getLsbD 0 = true → s.ckSaved p.port = true → 32 ≤ s.now % 4096 → s.now % 4096 < 96 → s.crit = [] →
      let a := s.regN (ck + 8) % 2 ^ 48
      let n := s.ckBytes p.port
      let num := BitVec.ofNat 64 ((field (s.regN (ck + 0x20)) 32 32 + 1) % 2 ^ 32 * 2 ^ 32)
      (s.ckMay a n = false → exec .checkpointComplete s = .next (s.setReg (ck + 0x20) num)) ∧
      (s.ckMay a n = true → ∃ t : State, exec .checkpointComplete s = .next (t.setReg (ck + 0x20) num) ∧ t.me = s.me ∧ t.adie = s.adie ∧
        ∀ b, b < a ∨ a + n ≤ b → t.homeByte b = s.homeByte b))

/-! ### Indexed, fault-first, tile, scale and merge words (R326 to R328, R341, R345, R346) -/

/-- The places of the active elements lie in the strand's share, aligned to n bytes. -/
def Sys2Proof.Claims.inShare (s : State) (act : Nat → Bool) (n : Nat) (place : Nat → Int) : Prop :=
  ∀ e, act e = true → 0 ≤ place e ∧ place e + n ≤ 1024 * s.me.strshare ∧ place e % n = 0

/-- No two active elements share a byte. -/
def Sys2Proof.Claims.disjoint (act : Nat → Bool) (n : Nat) (place : Nat → Int) : Prop :=
  ∀ e f, act e = true → act f = true → e < f → place e + n ≤ place f ∨ place f + n ≤ place e

/-- The number that n bytes of the share hold. -/
def Sys2Proof.Claims.shareNat (s : State) (at' : Int) (n : Nat) : Nat :=
  ofLe ((List.range n).map fun j => Assoc.get byteDefault (at'.toNat + j) s.me.share)

/-- After u the active elements' bytes hold `val`, and every other byte of the share stands. -/
def Sys2Proof.Claims.stored (s u : State) (act : Nat → Bool) (n : Nat) (place : Nat → Int) (val : Nat → Nat) : Prop :=
  (∀ e, act e = true → ∀ j < n, Assoc.get byteDefault ((place e).toNat + j) u.me.share = BitVec.ofNat 8 (val e / 256 ^ j)) ∧
  ∀ o : Nat, (∀ e, act e = true → (o : Int) < place e ∨ place e + n ≤ o) →
    Assoc.get byteDefault o u.me.share = Assoc.get byteDefault o s.me.share

/-- An indexed word none of whose elements can miss scope clears m13 below VL (R149). -/
def Sys2Proof.Claims.m13Cleared (s : State) (g : VFile) : Prop :=
  ∀ e, (g.mask 13).getLsbD e = (decide (s.me.ch.vl ≤ e) && (s.me.file.mask 13).getLsbD e)

/-- The place of element e of an indexed access: base and offset, and the index as a signed number of stored elements (R317). -/
def Sys2Proof.Claims.indexPlace (s : State) (a : SReg) (off : Int) (b : VReg) (n w e : Nat) : Int :=
  (s.sreg a).toInt + off + ((s.me.file.vreg b).extractLsb' (w * e) w).toInt * n

/-- VLDX, VSTX and VAMO alone in the strand's share, with no watch on and every active element aligned inside it, where each vector
store of the strip so far is ordered with them, and for VSTX and VAMO no two active elements share a byte: VLDX takes each element,
VSTX stores it, VAMO returns the old value and stores the new one; m13 is cleared below VL; nothing else changes but the record of the
strip's accesses and what an ORD other than 0 does to the caches. A release finds no merge part of the strand waiting (R119, R142, R149, R151, R317, R325, R328). -/
def Sys2Proof.Claims.ShareIndexed : Prop :=
  ∀ (v : VAcc) (d b : VReg) (a : SReg) (sc ch : BitVec 2) (s : State), s.lone → v.c = false →
    s.me.dbgctl.getLsbD 2 = false → Memory.wf s.me.share = true → Claims.inOrder s v.oe →
    (∀ (t : MemTy) (off : BitVec 16),
      let n := memBytes t
      let w := memWidth t
      let act := Claims.act s v.gov w
      let place := Claims.indexPlace s a off.toInt b n w
      Claims.inShare s act n place →
      (∃ (g : VFile) (u : State), exec (.vldx v d ⟨sc, 254, a⟩ ch (.bytes t off) b) s = .next u ∧
        u = { s.next.onMe (fun k => { k.withFile g with older := u.me.older }) with fresh := u.fresh, asked := u.asked } ∧ Claims.m13Cleared s g ∧
        (⟨act, w, d, fun _ e => BitVec.ofNat 64 (memElem t (Claims.shareNat s (place e) n)), fun _ _ => false, fun _ _ => 0,
          .vec d⟩ : Claims.Elems).after 0 s.me.file (g.setM 13 (s.me.file.mask 13))) ∧
      (Claims.disjoint act n place →
        ∃ u, exec (.vstx v d ⟨sc, 254, a⟩ ch (.bytes t off) b) s = .next u ∧ u.me.ch = s.next.me.ch ∧ u.sameBytes s ∧
          Claims.m13Cleared s u.me.file ∧ u.me.file.setM 13 (s.me.file.mask 13) = s.me.file.setM 13 (s.me.file.mask 13) ∧
          Claims.stored s u act n place fun e => (Claims.lane w (s.me.file.vreg d) e).toNat)) ∧
    ∀ (op : AmoOp) (t : AmoTy) (ord : BitVec 2) (off : BitVec 12),
      let n := amoBytes t
      let w := 8 * n
      let act := Claims.act s v.gov w
      let place := Claims.indexPlace s a off.toInt b n w
      let old := fun e => Claims.shareNat s (place e) n
      Claims.inShare s act n place → Claims.disjoint act n place → (ord.getLsbD 1 = true → s.partsWait = false) →
      ∃ u, exec (.vamo v op t ord d ⟨sc, 254, a⟩ off b) s = .next u ∧ u.me.ch = s.next.me.ch ∧ (ord = 0 → u.sameBytes s) ∧
        Claims.m13Cleared s u.me.file ∧
        (⟨act, w, d, fun _ e => BitVec.ofNat 64 (old e), fun _ _ => false, fun _ _ => 0, .vec d⟩ : Claims.Elems).after 0 s.me.file
          (u.me.file.setM 13 (s.me.file.mask 13)) ∧
        Claims.stored s u act n place fun e =>
          (amoNew op t (old e) (Claims.lane w (s.me.file.vreg d) e).toNat 0).getD (old e)

/-- VLDFF alone in the strand's share, with its base aligned and not below 0: with k the least active element that does not fit, or
lim where all do, and some active element below k or none that does not fit, elements below k are loaded, those from k on stand, and
k goes into queue q (R172, R326). -/
def Sys2Proof.Claims.ShareFaultFirst : Prop :=
  ∀ (v : VAcc) (t : MemTy) (d : VReg) (a : SReg) (sc ch : BitVec 2) (off : BitVec 16) (q : QNum) (s : State), s.lone → v.c = false →
    s.me.dbgctl.getLsbD 2 = false → Claims.inOrder s v.oe → (s.me.fromQ q).length < 16 →
    let n := memBytes t
    let w := memWidth t
    let act := Claims.act s v.gov w
    let base := (s.sreg a).toInt + off.toInt
    let fits := fun e : Nat => decide (base + (e * n : Nat) + n ≤ 1024 * s.me.strshare)
    let k := ((List.range (min s.me.ch.vl (16384 / w))).find? fun e => act e && !fits e).getD (min s.me.ch.vl (16384 / w))
    0 ≤ base → base % n = 0 → (k = min s.me.ch.vl (16384 / w) ∨ ∃ e < k, act e = true) →
    ∃ (g : VFile) (u : State), exec (.vldff v d ⟨sc, 254, a⟩ ch (.bytes t off) q) s = .next u ∧
      u = { (s.next.onMe fun m => { m.withFile g with older := u.me.older }).onMe fun m =>
        m.setFromQ q (m.fromQ q ++ [⟨BitVec.ofNat 64 k, s.me.seq⟩]) with fresh := u.fresh, asked := u.asked } ∧
      (⟨fun e => act e && decide (e < k), w, d, fun _ e => BitVec.ofNat 64 (memElem t (Claims.shareNat s (base + (e * n : Nat)) n)),
        fun _ _ => false, fun _ _ => 0, .vec d⟩ : Claims.Elems).after 0 s.me.file g

/-- MLDT and MSTT alone in the strand's share, of a stored size, with no watch on and every element of the rows that the mask selects
below MVL aligned inside it: MLDT takes those elements and every other element stands; MSTT, where no two of them share a byte, stores
them; nothing else changes (R341). -/
def Sys2Proof.Claims.ShareTiles : Prop :=
  ∀ (v : VAcc) (t : TileTy) (td : TReg) (a b : SReg) (sc ch : BitVec 2) (s : State), s.lone → v.c = false →
    s.me.dbgctl.getLsbD 2 = false → Memory.wf s.me.share = true → Claims.inOrder s v.oe →
    let n := tileTyBytes t
    let lim := min s.me.ch.mvl (if n = 8 then 16 else 64)
    let on := fun e => decide (e < lim * lim) && (s.me.file.mask v.gov).getLsbD (e / lim)
    ∀ off : BitVec 16,
      let place := fun e : Nat => (s.sreg a).toInt + off.toInt + (e / lim : Nat) * (s.sreg b).toInt + (e % lim * n : Nat)
      Claims.inShare s on n place →
      (∃ (g : VFile) (u : State), exec (.mldt v td ⟨sc, 254, a⟩ ch (.bytes t off) b) s = .next u ∧
        u = { s.next.onMe (fun k => { k.withFile g with older := u.me.older }) with fresh := u.fresh, asked := u.asked } ∧
        (∀ i < 64, ∀ j < 256 / n, tileElem n (g.tile td) i j =
          if j < lim && on (i * lim + j) then Claims.shareNat s (place (i * lim + j)) n else tileElem n (s.me.file.tile td) i j) ∧
        (∀ k, k ≠ td → g.tile k = s.me.file.tile k) ∧ g.v = s.me.v ∧ g.m = s.me.m ∧ g.stack = s.me.stack ∧ g.fpflg = s.me.fpflg ∧
        g.mflg = s.me.mflg) ∧
      (Claims.disjoint on n place →
        ∃ u, exec (.mstt v td ⟨sc, 254, a⟩ ch (.bytes t off) b) s = .next u ∧ u.me.ch = s.next.me.ch ∧ u.sameBytes s ∧
          u.me.file = s.me.file ∧
          Claims.stored s u on n place fun e => tileElem n (s.me.file.tile td) (e / lim) (e % lim))

/-- VLDX, VSTX, VAMO, VLDFF, MLDT and MSTT in the strand's share. -/
def Obligations.ShareIndexedAccesses : Prop := Claims.ShareIndexed ∧ Claims.ShareFaultFirst ∧ Claims.ShareTiles

/-- The slot's descriptor is cached and names device memory; no stack is critical and no watch is on. -/
def Sys2Proof.Claims.slotReady (s : State) (slot : Nat) (ds : Desc) : Prop :=
  slot < 252 ∧ (s.me.dcache.find? fun d => d.slot == slot) = some ds ∧ ds.bad = false ∧ ds.state ≠ 3 ∧ s.crit = [] ∧
  s.me.dbgctl.getLsbD 2 = false ∧ Assoc.wf Cu.none s.cus = true

/-- VLDSC alone through such a slot with blocks, where each active element's two scale bytes can be read in memory, nothing is
poisoned and the L1 holds no line: element e takes the two bytes at SCOFF + 2 x (b div BLKLEN + e), and no byte changes (R327). -/
def Sys2Proof.Claims.ScaleLoads : Prop :=
  ∀ (v : VAcc) (d : VReg) (a : SReg) (sc ch : BitVec 2) (sl : BitVec 8) (off : BitVec 14) (s : State) (ds : Desc),
    s.lone → v.c = false → Claims.inOrder s v.oe →
    let r := refOf sl (s.sreg a) off.toInt
    let act := Claims.act s v.gov 16
    let place := fun e : Nat => ({ r with off := ds.scoff + 2 * (r.off / ds.blk + e) } : Ref)
    let at' := fun e : Nat => ((ds.base : Int) + (place e).off).toNat
    Claims.slotReady s r.slot ds → ds.kind ≠ 0 → s.poison = [] → (s.l2.all fun t => !t.poison) = true → (s.cu s.me.cu).l1 = [] →
    (∀ e, act e = true → s.probe rdOnly (place e) 2 false true false = .ok s (.mem (at' e), ds)) →
    ∃ u, exec (.vldsc v d ⟨sc, sl, a⟩ ch off) s = .next u ∧ u.me.ch = s.next.me.ch ∧ u.sameBytes s ∧
      (⟨act, 16, d, fun _ e => BitVec.ofNat 64 (ofLe ((List.range 2).map fun j => s.viewByte s.me.cu s.me.slot (at' e + j))),
        fun _ _ => false, fun _ _ => 0, .vec d⟩ : Claims.Elems).after 0 s.me.file u.me.file

/-- MMERGE alone through such a slot, where every element of the region can be written, in memory that lies as the elements do:
unordered, with no part waiting, no store buffered, no order log, and a context of the current incarnation whose record the region leaves
alone, each element of a row that the mask selects takes the sum with the tile's, rounded once, and every other byte stands; ordered, with a legal
part number, it sends its parts and goes on (R125, R127, R345, R346). -/
def Sys2Proof.Claims.MergeWords : Prop :=
  ∀ (mk : MReg) (t : MergeTy) (td : TReg) (a : SReg) (sc : BitVec 2) (sl : BitVec 8) (off : BitVec 16) (s : State) (ds : Desc),
    s.lone → s.memOk →
    let r := refOf sl (s.sreg a) off.toInt
    let sz := mergeSize t
    let lim := min s.me.ch.mvl (mergeTop t)
    let on := fun e => decide (e < lim * lim) && (s.me.file.mask mk).getLsbD (e / lim)
    let base := ((ds.base : Int) + r.off).toNat
    let ctxRec := s.regN Reg.ctxtb + 32 * s.me.ctx
    Claims.slotReady s r.slot ds → r.off % sz = 0 → base % sz = 0 →
    (∀ e < lim * lim, ∀ sup, s.probe wrOnly { r with off := r.off + (e * sz : Nat) } sz false true sup = .ok s (.mem (base + e * sz), ds)) →
    (s.partq = [] → (s.cu s.me.cu).wcb = [] → s.ckOn s.me.vd = false → s.curIncn s.me.ctx = s.me.incn →
      (ctxRec + 32 ≤ base ∨ base + lim * lim * sz ≤ ctxRec) →
      ∃ u, exec (.mmerge false mk t none td ⟨sc, sl, a⟩ off) s = .next u ∧ u.me.ch = s.next.me.ch ∧ u.me.file = s.me.file ∧
        (∀ e, on e = true → u.homeNat (base + e * sz) sz =
          mergeElem (mergeKindOf t) (s.homeNat (base + e * sz) sz) (tileElem sz (s.me.file.tile td) (e / lim) (e % lim)) % 2 ^ (8 * sz)) ∧
        ∀ x, (∀ e, on e = true → x < base + e * sz ∨ base + e * sz + sz ≤ x) → u.homeByte x = s.homeByte x) ∧
    ∀ b : SReg, field (s.sreg b).toNat 0 8 < field (s.sreg b).toNat 8 8 → field (s.sreg b).toNat 8 8 ≤ 16 →
      ∃ u, exec (.mmerge false mk t (some b) td ⟨sc, sl, a⟩ off) s = .next u ∧ u.me.ch = s.next.me.ch ∧ u.me.file = s.me.file

/-- VLDSC and MMERGE through a slot. -/
def Obligations.ScaleAndMergeWords : Prop := Claims.ScaleLoads ∧ Claims.MergeWords
end

