-- ==== Sys2Proof/Laws/Assoc.lean ====
section
/-! SUPPORT. Laws of the sparse tables: reads after writes, and the canonical form. -/

namespace Sys2Proof.Machine.Assoc

@[simp] theorem get_nil (d : α) (k : Nat) : get d k [] = d := rfl

theorem wfFrom_mono [DecidableEq α] {d : α} {a b : Nat} (h : a ≤ b) :
    ∀ {l : List (Nat × α)}, wfFrom d b l = true → wfFrom d a l = true
  | [], _ => rfl
  | (j, v) :: l, hw => by
    simp only [wfFrom, Bool.and_eq_true, decide_eq_true_eq] at hw ⊢
    exact ⟨⟨by omega, hw.1.2⟩, hw.2⟩

/-- Keys below the first one read as the default. -/
theorem get_below [DecidableEq α] {d : α} {k lo : Nat} (h : k < lo) :
    ∀ {l : List (Nat × α)}, wfFrom d lo l = true → get d k l = d
  | [], _ => rfl
  | (j, v) :: l, hw => by
    simp only [wfFrom, Bool.and_eq_true, decide_eq_true_eq] at hw
    simp only [get]
    rw [if_neg (by omega), if_pos (by omega)]

theorem get_put_self [DecidableEq α] (d v : α) (k : Nat) :
    ∀ {l : List (Nat × α)} {lo : Nat}, wfFrom d lo l = true → get d k (put d k v l) = v
  | [], _, _ => by
    by_cases h : v = d <;> simp [put, get, h]
  | (j, w) :: l, lo, hw => by
    simp only [wfFrom, Bool.and_eq_true, decide_eq_true_eq] at hw
    by_cases h1 : j < k
    · simp [put, get, h1, show j ≠ k by omega, show ¬ k < j by omega, get_put_self d v k hw.2]
    · by_cases h2 : j = k
      · by_cases h : v = d
        · simp only [put, h2, h, if_true]
          simpa using get_below (by omega : k < j + 1) hw.2
        · subst h2; simp [put, get, h]
      · by_cases h : v = d
        · simp [put, get, h1, h2, h, show k < j by omega]
        · simp [put, get, h1, h2, h]

theorem get_put_other [DecidableEq α] (d v : α) {k i : Nat} (hi : i ≠ k) :
    ∀ {l : List (Nat × α)} {lo : Nat}, wfFrom d lo l = true → get d i (put d k v l) = get d i l
  | [], _, _ => by
    by_cases h : v = d
    · simp [put, get, h]
    · simp only [put, h, if_false, get]
      rw [if_neg (fun e => hi e.symm)]
      split <;> rfl
  | (j, w) :: l, lo, hw => by
    simp only [wfFrom, Bool.and_eq_true, decide_eq_true_eq] at hw
    by_cases h1 : j < k
    · simp only [put, h1, if_true, get]
      rw [get_put_other d v hi hw.2]
    · by_cases h2 : j = k
      · by_cases h : v = d
        · subst h2
          simp only [put, h, if_true, get, Nat.lt_irrefl, if_false]
          rw [if_neg (fun e => hi e.symm)]
          split
          · rename_i h3; exact get_below (by omega : i < j + 1) hw.2
          · rfl
        · subst h2
          simp only [put, h, if_true, get, Nat.lt_irrefl, if_false]
          have hj : ¬ j = i := fun e => hi e.symm
          simp [hj]
      · by_cases h : v = d
        · simp [put, h1, h2, h]
        · simp only [put, h1, h2, h, if_false, get]
          rw [if_neg (fun e => hi e.symm)]
          by_cases h3 : i < k
          · rw [if_pos h3, if_neg (by omega), if_pos (by omega)]
          · rw [if_neg h3]

/-- A write keeps the canonical form. -/
theorem wfFrom_put [DecidableEq α] (d v : α) {k : Nat} :
    ∀ {l : List (Nat × α)} {lo : Nat}, lo ≤ k → wfFrom d lo l = true → wfFrom d lo (put d k v l) = true
  | [], lo, hk, _ => by
    by_cases h : v = d <;> simp [put, wfFrom, h, hk]
  | (j, w) :: l, lo, hk, hw => by
    simp only [wfFrom, Bool.and_eq_true, decide_eq_true_eq] at hw
    by_cases h1 : j < k
    · have := wfFrom_put d v (show j + 1 ≤ k by omega) hw.2
      simp [put, wfFrom, h1, hw.1.1, hw.1.2, this]
    · by_cases h2 : j = k
      · subst h2
        by_cases h : v = d
        · simpa [put, h] using wfFrom_mono (show lo ≤ j + 1 by omega) hw.2
        · simp [put, wfFrom, h, hk, hw.2]
      · by_cases h : v = d
        · simp [put, wfFrom, h1, h2, h, hw.1.1, hw.1.2, hw.2]
        · have : k + 1 ≤ j := by omega
          simp [put, wfFrom, h1, h2, h, hk, hw.1.2, hw.2, this]

theorem wf_put [DecidableEq α] (d v : α) (k : Nat) {l : List (Nat × α)} (h : wf d l = true) :
    wf d (put d k v l) = true := wfFrom_put d v (Nat.zero_le k) h

/-- Leaving entries out keeps the canonical form. -/
theorem wfFrom_filter [DecidableEq α] (d : α) (p : Nat × α → Bool) :
    ∀ {l : List (Nat × α)} {lo : Nat}, wfFrom d lo l = true → wfFrom d lo (l.filter p) = true
  | [], _, _ => rfl
  | (j, v) :: l, lo, hw => by
    simp only [wfFrom, Bool.and_eq_true, decide_eq_true_eq] at hw
    rw [List.filter_cons]
    split
    · simp [wfFrom, hw.1.1, hw.1.2, wfFrom_filter d p hw.2]
    · exact wfFrom_mono (show lo ≤ j + 1 by omega) (wfFrom_filter d p hw.2)

theorem wf_filter [DecidableEq α] (d : α) (p : Nat × α → Bool) {l : List (Nat × α)} (h : wf d l = true) :
    wf d (l.filter p) = true := wfFrom_filter d p h

end Sys2Proof.Machine.Assoc
end

