-- ==== Sys2Proof/Laws/State.lean ====
section
/-! SUPPORT. What each named update of the state leaves in each field. -/

namespace Sys2Proof.Machine

/-! ### onMe -/

@[simp] theorem State.onMe_me (s : State) (f : Strand → Strand) : (s.onMe f).me = f s.me := rfl
@[simp] theorem State.onMe_others (s : State) (f : Strand → Strand) : (s.onMe f).others = s.others := rfl
@[simp] theorem State.onMe_agenda (s : State) (f : Strand → Strand) : (s.onMe f).agenda = s.agenda := rfl
@[simp] theorem State.onMe_pins (s : State) (f : Strand → Strand) : (s.onMe f).pins = s.pins := rfl
@[simp] theorem State.onMe_now (s : State) (f : Strand → Strand) : (s.onMe f).now = s.now := rfl
@[simp] theorem State.onMe_fresh (s : State) (f : Strand → Strand) : (s.onMe f).fresh = s.fresh := rfl
@[simp] theorem State.onMe_mem (s : State) (f : Strand → Strand) : (s.onMe f).mem = s.mem := rfl
@[simp] theorem State.onMe_poison (s : State) (f : Strand → Strand) : (s.onMe f).poison = s.poison := rfl
@[simp] theorem State.onMe_fog (s : State) (f : Strand → Strand) : (s.onMe f).fog = s.fog := rfl
@[simp] theorem State.onMe_fogged (s : State) (f : Strand → Strand) : (s.onMe f).fogged = s.fogged := rfl
@[simp] theorem State.onMe_adie (s : State) (f : Strand → Strand) : (s.onMe f).adie = s.adie := rfl
@[simp] theorem State.onMe_cus (s : State) (f : Strand → Strand) : (s.onMe f).cus = s.cus := rfl
@[simp] theorem State.onMe_l2 (s : State) (f : Strand → Strand) : (s.onMe f).l2 = s.l2 := rfl
@[simp] theorem State.onMe_replay (s : State) (f : Strand → Strand) : (s.onMe f).replay = s.replay := rfl
@[simp] theorem State.onMe_merges (s : State) (f : Strand → Strand) : (s.onMe f).merges = s.merges := rfl
@[simp] theorem State.onMe_partq (s : State) (f : Strand → Strand) : (s.onMe f).partq = s.partq := rfl
@[simp] theorem State.onMe_xfers (s : State) (f : Strand → Strand) : (s.onMe f).xfers = s.xfers := rfl
@[simp] theorem State.onMe_counters (s : State) (f : Strand → Strand) : (s.onMe f).counters = s.counters := rfl
@[simp] theorem State.onMe_launches (s : State) (f : Strand → Strand) : (s.onMe f).launches = s.launches := rfl
@[simp] theorem State.onMe_queues (s : State) (f : Strand → Strand) : (s.onMe f).queues = s.queues := rfl
@[simp] theorem State.onMe_levels (s : State) (f : Strand → Strand) : (s.onMe f).levels = s.levels := rfl
@[simp] theorem State.onMe_order (s : State) (f : Strand → Strand) : (s.onMe f).order = s.order := rfl
@[simp] theorem State.onMe_buckets (s : State) (f : Strand → Strand) : (s.onMe f).buckets = s.buckets := rfl
@[simp] theorem State.onMe_last (s : State) (f : Strand → Strand) : (s.onMe f).last = s.last := rfl
@[simp] theorem State.onMe_windows (s : State) (f : Strand → Strand) : (s.onMe f).windows = s.windows := rfl
@[simp] theorem State.onMe_drains (s : State) (f : Strand → Strand) : (s.onMe f).drains = s.drains := rfl
@[simp] theorem State.onMe_excluded (s : State) (f : Strand → Strand) : (s.onMe f).excluded = s.excluded := rfl
@[simp] theorem State.onMe_roots (s : State) (f : Strand → Strand) : (s.onMe f).roots = s.roots := rfl
@[simp] theorem State.onMe_out (s : State) (f : Strand → Strand) : (s.onMe f).out = s.out := rfl
@[simp] theorem State.onMe_crit (s : State) (f : Strand → Strand) : (s.onMe f).crit = s.crit := rfl
@[simp] theorem State.onMe_posts (s : State) (f : Strand → Strand) : (s.onMe f).posts = s.posts := rfl
@[simp] theorem State.onMe_trace (s : State) (f : Strand → Strand) : (s.onMe f).trace = s.trace := rfl
@[simp] theorem State.onMe_asked (s : State) (f : Strand → Strand) : (s.onMe f).asked = s.asked := rfl
@[simp] theorem State.onMe_sendq (s : State) (f : Strand → Strand) : (s.onMe f).sendq = s.sendq := rfl
@[simp] theorem State.onMe_ports (s : State) (f : Strand → Strand) : (s.onMe f).ports = s.ports := rfl
@[simp] theorem State.onMe_peerIn (s : State) (f : Strand → Strand) : (s.onMe f).peerIn = s.peerIn := rfl
@[simp] theorem State.onMe_borrowq (s : State) (f : Strand → Strand) : (s.onMe f).borrowq = s.borrowq := rfl
@[simp] theorem State.onMe_revoked (s : State) (f : Strand → Strand) : (s.onMe f).revoked = s.revoked := rfl
@[simp] theorem State.onMe_migs (s : State) (f : Strand → Strand) : (s.onMe f).migs = s.migs := rfl
@[simp] theorem State.onMe_boot (s : State) (f : Strand → Strand) : (s.onMe f).boot = s.boot := rfl
@[simp] theorem State.onMe_halted (s : State) (f : Strand → Strand) : (s.onMe f).halted = s.halted := rfl
@[simp] theorem State.onMe_serial (s : State) (f : Strand → Strand) : (s.onMe f).serial = s.serial := rfl
@[simp] theorem State.onMe_split (s : State) (f : Strand → Strand) : (s.onMe f).split = s.split := rfl
@[simp] theorem State.onMe_found (s : State) (f : Strand → Strand) : (s.onMe f).found = s.found := rfl
@[simp] theorem State.onMe_caps (s : State) (f : Strand → Strand) : (s.onMe f).caps = s.caps := rfl
@[simp] theorem State.onMe_measures (s : State) (f : Strand → Strand) : (s.onMe f).measures = s.measures := rfl
@[simp] theorem State.onMe_attq (s : State) (f : Strand → Strand) : (s.onMe f).attq = s.attq := rfl
@[simp] theorem State.onMe_cntsel (s : State) (f : Strand → Strand) : (s.onMe f).cntsel = s.cntsel := rfl
@[simp] theorem State.onMe_ologs (s : State) (f : Strand → Strand) : (s.onMe f).ologs = s.ologs := rfl
@[simp] theorem State.onMe_ckpts (s : State) (f : Strand → Strand) : (s.onMe f).ckpts = s.ckpts := rfl

/-! ### onCh -/

@[simp] theorem State.onCh_me (s : State) (f : Chanter → Chanter) : (s.onCh f).me = { s.me with ch := f s.me.ch } := rfl
@[simp] theorem State.onCh_others (s : State) (f : Chanter → Chanter) : (s.onCh f).others = s.others := rfl
@[simp] theorem State.onCh_agenda (s : State) (f : Chanter → Chanter) : (s.onCh f).agenda = s.agenda := rfl
@[simp] theorem State.onCh_pins (s : State) (f : Chanter → Chanter) : (s.onCh f).pins = s.pins := rfl
@[simp] theorem State.onCh_now (s : State) (f : Chanter → Chanter) : (s.onCh f).now = s.now := rfl
@[simp] theorem State.onCh_fresh (s : State) (f : Chanter → Chanter) : (s.onCh f).fresh = s.fresh := rfl
@[simp] theorem State.onCh_mem (s : State) (f : Chanter → Chanter) : (s.onCh f).mem = s.mem := rfl
@[simp] theorem State.onCh_poison (s : State) (f : Chanter → Chanter) : (s.onCh f).poison = s.poison := rfl
@[simp] theorem State.onCh_fog (s : State) (f : Chanter → Chanter) : (s.onCh f).fog = s.fog := rfl
@[simp] theorem State.onCh_fogged (s : State) (f : Chanter → Chanter) : (s.onCh f).fogged = s.fogged := rfl
@[simp] theorem State.onCh_adie (s : State) (f : Chanter → Chanter) : (s.onCh f).adie = s.adie := rfl
@[simp] theorem State.onCh_cus (s : State) (f : Chanter → Chanter) : (s.onCh f).cus = s.cus := rfl
@[simp] theorem State.onCh_l2 (s : State) (f : Chanter → Chanter) : (s.onCh f).l2 = s.l2 := rfl
@[simp] theorem State.onCh_replay (s : State) (f : Chanter → Chanter) : (s.onCh f).replay = s.replay := rfl
@[simp] theorem State.onCh_merges (s : State) (f : Chanter → Chanter) : (s.onCh f).merges = s.merges := rfl
@[simp] theorem State.onCh_partq (s : State) (f : Chanter → Chanter) : (s.onCh f).partq = s.partq := rfl
@[simp] theorem State.onCh_xfers (s : State) (f : Chanter → Chanter) : (s.onCh f).xfers = s.xfers := rfl
@[simp] theorem State.onCh_counters (s : State) (f : Chanter → Chanter) : (s.onCh f).counters = s.counters := rfl
@[simp] theorem State.onCh_launches (s : State) (f : Chanter → Chanter) : (s.onCh f).launches = s.launches := rfl
@[simp] theorem State.onCh_queues (s : State) (f : Chanter → Chanter) : (s.onCh f).queues = s.queues := rfl
@[simp] theorem State.onCh_levels (s : State) (f : Chanter → Chanter) : (s.onCh f).levels = s.levels := rfl
@[simp] theorem State.onCh_order (s : State) (f : Chanter → Chanter) : (s.onCh f).order = s.order := rfl
@[simp] theorem State.onCh_buckets (s : State) (f : Chanter → Chanter) : (s.onCh f).buckets = s.buckets := rfl
@[simp] theorem State.onCh_last (s : State) (f : Chanter → Chanter) : (s.onCh f).last = s.last := rfl
@[simp] theorem State.onCh_windows (s : State) (f : Chanter → Chanter) : (s.onCh f).windows = s.windows := rfl
@[simp] theorem State.onCh_drains (s : State) (f : Chanter → Chanter) : (s.onCh f).drains = s.drains := rfl
@[simp] theorem State.onCh_excluded (s : State) (f : Chanter → Chanter) : (s.onCh f).excluded = s.excluded := rfl
@[simp] theorem State.onCh_roots (s : State) (f : Chanter → Chanter) : (s.onCh f).roots = s.roots := rfl
@[simp] theorem State.onCh_out (s : State) (f : Chanter → Chanter) : (s.onCh f).out = s.out := rfl
@[simp] theorem State.onCh_crit (s : State) (f : Chanter → Chanter) : (s.onCh f).crit = s.crit := rfl
@[simp] theorem State.onCh_posts (s : State) (f : Chanter → Chanter) : (s.onCh f).posts = s.posts := rfl
@[simp] theorem State.onCh_trace (s : State) (f : Chanter → Chanter) : (s.onCh f).trace = s.trace := rfl
@[simp] theorem State.onCh_asked (s : State) (f : Chanter → Chanter) : (s.onCh f).asked = s.asked := rfl
@[simp] theorem State.onCh_sendq (s : State) (f : Chanter → Chanter) : (s.onCh f).sendq = s.sendq := rfl
@[simp] theorem State.onCh_ports (s : State) (f : Chanter → Chanter) : (s.onCh f).ports = s.ports := rfl
@[simp] theorem State.onCh_peerIn (s : State) (f : Chanter → Chanter) : (s.onCh f).peerIn = s.peerIn := rfl
@[simp] theorem State.onCh_borrowq (s : State) (f : Chanter → Chanter) : (s.onCh f).borrowq = s.borrowq := rfl
@[simp] theorem State.onCh_revoked (s : State) (f : Chanter → Chanter) : (s.onCh f).revoked = s.revoked := rfl
@[simp] theorem State.onCh_migs (s : State) (f : Chanter → Chanter) : (s.onCh f).migs = s.migs := rfl
@[simp] theorem State.onCh_boot (s : State) (f : Chanter → Chanter) : (s.onCh f).boot = s.boot := rfl
@[simp] theorem State.onCh_halted (s : State) (f : Chanter → Chanter) : (s.onCh f).halted = s.halted := rfl
@[simp] theorem State.onCh_serial (s : State) (f : Chanter → Chanter) : (s.onCh f).serial = s.serial := rfl
@[simp] theorem State.onCh_split (s : State) (f : Chanter → Chanter) : (s.onCh f).split = s.split := rfl
@[simp] theorem State.onCh_found (s : State) (f : Chanter → Chanter) : (s.onCh f).found = s.found := rfl
@[simp] theorem State.onCh_caps (s : State) (f : Chanter → Chanter) : (s.onCh f).caps = s.caps := rfl
@[simp] theorem State.onCh_measures (s : State) (f : Chanter → Chanter) : (s.onCh f).measures = s.measures := rfl
@[simp] theorem State.onCh_attq (s : State) (f : Chanter → Chanter) : (s.onCh f).attq = s.attq := rfl
@[simp] theorem State.onCh_cntsel (s : State) (f : Chanter → Chanter) : (s.onCh f).cntsel = s.cntsel := rfl
@[simp] theorem State.onCh_ologs (s : State) (f : Chanter → Chanter) : (s.onCh f).ologs = s.ologs := rfl
@[simp] theorem State.onCh_ckpts (s : State) (f : Chanter → Chanter) : (s.onCh f).ckpts = s.ckpts := rfl

/-! ### setSreg -/

@[simp] theorem State.setSreg_me (s : State) (r : SReg) (x : Word) : (s.setSreg r x).me = { s.me with ch := s.me.ch.setSreg r x } := rfl
@[simp] theorem State.setSreg_others (s : State) (r : SReg) (x : Word) : (s.setSreg r x).others = s.others := rfl
@[simp] theorem State.setSreg_agenda (s : State) (r : SReg) (x : Word) : (s.setSreg r x).agenda = s.agenda := rfl
@[simp] theorem State.setSreg_pins (s : State) (r : SReg) (x : Word) : (s.setSreg r x).pins = s.pins := rfl
@[simp] theorem State.setSreg_now (s : State) (r : SReg) (x : Word) : (s.setSreg r x).now = s.now := rfl
@[simp] theorem State.setSreg_fresh (s : State) (r : SReg) (x : Word) : (s.setSreg r x).fresh = s.fresh := rfl
@[simp] theorem State.setSreg_mem (s : State) (r : SReg) (x : Word) : (s.setSreg r x).mem = s.mem := rfl
@[simp] theorem State.setSreg_poison (s : State) (r : SReg) (x : Word) : (s.setSreg r x).poison = s.poison := rfl
@[simp] theorem State.setSreg_fog (s : State) (r : SReg) (x : Word) : (s.setSreg r x).fog = s.fog := rfl
@[simp] theorem State.setSreg_fogged (s : State) (r : SReg) (x : Word) : (s.setSreg r x).fogged = s.fogged := rfl
@[simp] theorem State.setSreg_adie (s : State) (r : SReg) (x : Word) : (s.setSreg r x).adie = s.adie := rfl
@[simp] theorem State.setSreg_cus (s : State) (r : SReg) (x : Word) : (s.setSreg r x).cus = s.cus := rfl
@[simp] theorem State.setSreg_l2 (s : State) (r : SReg) (x : Word) : (s.setSreg r x).l2 = s.l2 := rfl
@[simp] theorem State.setSreg_replay (s : State) (r : SReg) (x : Word) : (s.setSreg r x).replay = s.replay := rfl
@[simp] theorem State.setSreg_merges (s : State) (r : SReg) (x : Word) : (s.setSreg r x).merges = s.merges := rfl
@[simp] theorem State.setSreg_partq (s : State) (r : SReg) (x : Word) : (s.setSreg r x).partq = s.partq := rfl
@[simp] theorem State.setSreg_xfers (s : State) (r : SReg) (x : Word) : (s.setSreg r x).xfers = s.xfers := rfl
@[simp] theorem State.setSreg_counters (s : State) (r : SReg) (x : Word) : (s.setSreg r x).counters = s.counters := rfl
@[simp] theorem State.setSreg_launches (s : State) (r : SReg) (x : Word) : (s.setSreg r x).launches = s.launches := rfl
@[simp] theorem State.setSreg_queues (s : State) (r : SReg) (x : Word) : (s.setSreg r x).queues = s.queues := rfl
@[simp] theorem State.setSreg_levels (s : State) (r : SReg) (x : Word) : (s.setSreg r x).levels = s.levels := rfl
@[simp] theorem State.setSreg_order (s : State) (r : SReg) (x : Word) : (s.setSreg r x).order = s.order := rfl
@[simp] theorem State.setSreg_buckets (s : State) (r : SReg) (x : Word) : (s.setSreg r x).buckets = s.buckets := rfl
@[simp] theorem State.setSreg_last (s : State) (r : SReg) (x : Word) : (s.setSreg r x).last = s.last := rfl
@[simp] theorem State.setSreg_windows (s : State) (r : SReg) (x : Word) : (s.setSreg r x).windows = s.windows := rfl
@[simp] theorem State.setSreg_drains (s : State) (r : SReg) (x : Word) : (s.setSreg r x).drains = s.drains := rfl
@[simp] theorem State.setSreg_excluded (s : State) (r : SReg) (x : Word) : (s.setSreg r x).excluded = s.excluded := rfl
@[simp] theorem State.setSreg_roots (s : State) (r : SReg) (x : Word) : (s.setSreg r x).roots = s.roots := rfl
@[simp] theorem State.setSreg_out (s : State) (r : SReg) (x : Word) : (s.setSreg r x).out = s.out := rfl
@[simp] theorem State.setSreg_crit (s : State) (r : SReg) (x : Word) : (s.setSreg r x).crit = s.crit := rfl
@[simp] theorem State.setSreg_posts (s : State) (r : SReg) (x : Word) : (s.setSreg r x).posts = s.posts := rfl
@[simp] theorem State.setSreg_trace (s : State) (r : SReg) (x : Word) : (s.setSreg r x).trace = s.trace := rfl
@[simp] theorem State.setSreg_asked (s : State) (r : SReg) (x : Word) : (s.setSreg r x).asked = s.asked := rfl
@[simp] theorem State.setSreg_sendq (s : State) (r : SReg) (x : Word) : (s.setSreg r x).sendq = s.sendq := rfl
@[simp] theorem State.setSreg_ports (s : State) (r : SReg) (x : Word) : (s.setSreg r x).ports = s.ports := rfl
@[simp] theorem State.setSreg_peerIn (s : State) (r : SReg) (x : Word) : (s.setSreg r x).peerIn = s.peerIn := rfl
@[simp] theorem State.setSreg_borrowq (s : State) (r : SReg) (x : Word) : (s.setSreg r x).borrowq = s.borrowq := rfl
@[simp] theorem State.setSreg_revoked (s : State) (r : SReg) (x : Word) : (s.setSreg r x).revoked = s.revoked := rfl
@[simp] theorem State.setSreg_migs (s : State) (r : SReg) (x : Word) : (s.setSreg r x).migs = s.migs := rfl
@[simp] theorem State.setSreg_boot (s : State) (r : SReg) (x : Word) : (s.setSreg r x).boot = s.boot := rfl
@[simp] theorem State.setSreg_halted (s : State) (r : SReg) (x : Word) : (s.setSreg r x).halted = s.halted := rfl
@[simp] theorem State.setSreg_serial (s : State) (r : SReg) (x : Word) : (s.setSreg r x).serial = s.serial := rfl
@[simp] theorem State.setSreg_split (s : State) (r : SReg) (x : Word) : (s.setSreg r x).split = s.split := rfl
@[simp] theorem State.setSreg_found (s : State) (r : SReg) (x : Word) : (s.setSreg r x).found = s.found := rfl
@[simp] theorem State.setSreg_caps (s : State) (r : SReg) (x : Word) : (s.setSreg r x).caps = s.caps := rfl
@[simp] theorem State.setSreg_measures (s : State) (r : SReg) (x : Word) : (s.setSreg r x).measures = s.measures := rfl
@[simp] theorem State.setSreg_attq (s : State) (r : SReg) (x : Word) : (s.setSreg r x).attq = s.attq := rfl
@[simp] theorem State.setSreg_cntsel (s : State) (r : SReg) (x : Word) : (s.setSreg r x).cntsel = s.cntsel := rfl
@[simp] theorem State.setSreg_ologs (s : State) (r : SReg) (x : Word) : (s.setSreg r x).ologs = s.ologs := rfl
@[simp] theorem State.setSreg_ckpts (s : State) (r : SReg) (x : Word) : (s.setSreg r x).ckpts = s.ckpts := rfl

/-! ### await -/

@[simp] theorem State.await_me (s : State) (w : Wait) : (s.await w).me = { s.me with wait := w, since := if s.me.wait = w then s.me.since else s.now } := rfl
@[simp] theorem State.await_others (s : State) (w : Wait) : (s.await w).others = s.others := rfl
@[simp] theorem State.await_agenda (s : State) (w : Wait) : (s.await w).agenda = s.agenda := rfl
@[simp] theorem State.await_pins (s : State) (w : Wait) : (s.await w).pins = s.pins := rfl
@[simp] theorem State.await_now (s : State) (w : Wait) : (s.await w).now = s.now := rfl
@[simp] theorem State.await_fresh (s : State) (w : Wait) : (s.await w).fresh = s.fresh := rfl
@[simp] theorem State.await_mem (s : State) (w : Wait) : (s.await w).mem = s.mem := rfl
@[simp] theorem State.await_poison (s : State) (w : Wait) : (s.await w).poison = s.poison := rfl
@[simp] theorem State.await_fog (s : State) (w : Wait) : (s.await w).fog = s.fog := rfl
@[simp] theorem State.await_fogged (s : State) (w : Wait) : (s.await w).fogged = s.fogged := rfl
@[simp] theorem State.await_adie (s : State) (w : Wait) : (s.await w).adie = s.adie := rfl
@[simp] theorem State.await_cus (s : State) (w : Wait) : (s.await w).cus = s.cus := rfl
@[simp] theorem State.await_l2 (s : State) (w : Wait) : (s.await w).l2 = s.l2 := rfl
@[simp] theorem State.await_replay (s : State) (w : Wait) : (s.await w).replay = s.replay := rfl
@[simp] theorem State.await_merges (s : State) (w : Wait) : (s.await w).merges = s.merges := rfl
@[simp] theorem State.await_partq (s : State) (w : Wait) : (s.await w).partq = s.partq := rfl
@[simp] theorem State.await_xfers (s : State) (w : Wait) : (s.await w).xfers = s.xfers := rfl
@[simp] theorem State.await_counters (s : State) (w : Wait) : (s.await w).counters = s.counters := rfl
@[simp] theorem State.await_launches (s : State) (w : Wait) : (s.await w).launches = s.launches := rfl
@[simp] theorem State.await_queues (s : State) (w : Wait) : (s.await w).queues = s.queues := rfl
@[simp] theorem State.await_levels (s : State) (w : Wait) : (s.await w).levels = s.levels := rfl
@[simp] theorem State.await_order (s : State) (w : Wait) : (s.await w).order = s.order := rfl
@[simp] theorem State.await_buckets (s : State) (w : Wait) : (s.await w).buckets = s.buckets := rfl
@[simp] theorem State.await_last (s : State) (w : Wait) : (s.await w).last = s.last := rfl
@[simp] theorem State.await_windows (s : State) (w : Wait) : (s.await w).windows = s.windows := rfl
@[simp] theorem State.await_drains (s : State) (w : Wait) : (s.await w).drains = s.drains := rfl
@[simp] theorem State.await_excluded (s : State) (w : Wait) : (s.await w).excluded = s.excluded := rfl
@[simp] theorem State.await_roots (s : State) (w : Wait) : (s.await w).roots = s.roots := rfl
@[simp] theorem State.await_out (s : State) (w : Wait) : (s.await w).out = s.out := rfl
@[simp] theorem State.await_crit (s : State) (w : Wait) : (s.await w).crit = s.crit := rfl
@[simp] theorem State.await_posts (s : State) (w : Wait) : (s.await w).posts = s.posts := rfl
@[simp] theorem State.await_trace (s : State) (w : Wait) : (s.await w).trace = s.trace := rfl
@[simp] theorem State.await_asked (s : State) (w : Wait) : (s.await w).asked = s.asked := rfl
@[simp] theorem State.await_sendq (s : State) (w : Wait) : (s.await w).sendq = s.sendq := rfl
@[simp] theorem State.await_ports (s : State) (w : Wait) : (s.await w).ports = s.ports := rfl
@[simp] theorem State.await_peerIn (s : State) (w : Wait) : (s.await w).peerIn = s.peerIn := rfl
@[simp] theorem State.await_borrowq (s : State) (w : Wait) : (s.await w).borrowq = s.borrowq := rfl
@[simp] theorem State.await_revoked (s : State) (w : Wait) : (s.await w).revoked = s.revoked := rfl
@[simp] theorem State.await_migs (s : State) (w : Wait) : (s.await w).migs = s.migs := rfl
@[simp] theorem State.await_boot (s : State) (w : Wait) : (s.await w).boot = s.boot := rfl
@[simp] theorem State.await_halted (s : State) (w : Wait) : (s.await w).halted = s.halted := rfl
@[simp] theorem State.await_serial (s : State) (w : Wait) : (s.await w).serial = s.serial := rfl
@[simp] theorem State.await_split (s : State) (w : Wait) : (s.await w).split = s.split := rfl
@[simp] theorem State.await_found (s : State) (w : Wait) : (s.await w).found = s.found := rfl
@[simp] theorem State.await_caps (s : State) (w : Wait) : (s.await w).caps = s.caps := rfl
@[simp] theorem State.await_measures (s : State) (w : Wait) : (s.await w).measures = s.measures := rfl
@[simp] theorem State.await_attq (s : State) (w : Wait) : (s.await w).attq = s.attq := rfl
@[simp] theorem State.await_cntsel (s : State) (w : Wait) : (s.await w).cntsel = s.cntsel := rfl
@[simp] theorem State.await_ologs (s : State) (w : Wait) : (s.await w).ologs = s.ologs := rfl
@[simp] theorem State.await_ckpts (s : State) (w : Wait) : (s.await w).ckpts = s.ckpts := rfl

/-! ### next -/

@[simp] theorem State.next_me (s : State) : (s.next).me = { s.me with ch := s.me.ch.fallTo (s.me.ch.pc + 8), wait := .none, seq := s.me.seq + 1, skipBrk := false, resume := none } := rfl
@[simp] theorem State.next_others (s : State) : (s.next).others = s.others := rfl
@[simp] theorem State.next_agenda (s : State) : (s.next).agenda = s.agenda := rfl
@[simp] theorem State.next_pins (s : State) : (s.next).pins = s.pins := rfl
@[simp] theorem State.next_now (s : State) : (s.next).now = s.now := rfl
@[simp] theorem State.next_fresh (s : State) : (s.next).fresh = s.fresh := rfl
@[simp] theorem State.next_mem (s : State) : (s.next).mem = s.mem := rfl
@[simp] theorem State.next_poison (s : State) : (s.next).poison = s.poison := rfl
@[simp] theorem State.next_fog (s : State) : (s.next).fog = s.fog := rfl
@[simp] theorem State.next_fogged (s : State) : (s.next).fogged = s.fogged := rfl
@[simp] theorem State.next_adie (s : State) : (s.next).adie = s.adie := rfl
@[simp] theorem State.next_cus (s : State) : (s.next).cus = s.cus := rfl
@[simp] theorem State.next_l2 (s : State) : (s.next).l2 = s.l2 := rfl
@[simp] theorem State.next_replay (s : State) : (s.next).replay = s.replay := rfl
@[simp] theorem State.next_merges (s : State) : (s.next).merges = s.merges := rfl
@[simp] theorem State.next_partq (s : State) : (s.next).partq = s.partq := rfl
@[simp] theorem State.next_xfers (s : State) : (s.next).xfers = s.xfers := rfl
@[simp] theorem State.next_counters (s : State) : (s.next).counters = s.counters := rfl
@[simp] theorem State.next_launches (s : State) : (s.next).launches = s.launches := rfl
@[simp] theorem State.next_queues (s : State) : (s.next).queues = s.queues := rfl
@[simp] theorem State.next_levels (s : State) : (s.next).levels = s.levels := rfl
@[simp] theorem State.next_order (s : State) : (s.next).order = s.order := rfl
@[simp] theorem State.next_buckets (s : State) : (s.next).buckets = s.buckets := rfl
@[simp] theorem State.next_last (s : State) : (s.next).last = s.last := rfl
@[simp] theorem State.next_windows (s : State) : (s.next).windows = s.windows := rfl
@[simp] theorem State.next_drains (s : State) : (s.next).drains = s.drains := rfl
@[simp] theorem State.next_excluded (s : State) : (s.next).excluded = s.excluded := rfl
@[simp] theorem State.next_roots (s : State) : (s.next).roots = s.roots := rfl
@[simp] theorem State.next_out (s : State) : (s.next).out = s.out := rfl
@[simp] theorem State.next_crit (s : State) : (s.next).crit = s.crit := rfl
@[simp] theorem State.next_posts (s : State) : (s.next).posts = s.posts := rfl
@[simp] theorem State.next_trace (s : State) : (s.next).trace = s.trace := rfl
@[simp] theorem State.next_asked (s : State) : (s.next).asked = s.asked := rfl
@[simp] theorem State.next_sendq (s : State) : (s.next).sendq = s.sendq := rfl
@[simp] theorem State.next_ports (s : State) : (s.next).ports = s.ports := rfl
@[simp] theorem State.next_peerIn (s : State) : (s.next).peerIn = s.peerIn := rfl
@[simp] theorem State.next_borrowq (s : State) : (s.next).borrowq = s.borrowq := rfl
@[simp] theorem State.next_revoked (s : State) : (s.next).revoked = s.revoked := rfl
@[simp] theorem State.next_migs (s : State) : (s.next).migs = s.migs := rfl
@[simp] theorem State.next_boot (s : State) : (s.next).boot = s.boot := rfl
@[simp] theorem State.next_halted (s : State) : (s.next).halted = s.halted := rfl
@[simp] theorem State.next_serial (s : State) : (s.next).serial = s.serial := rfl
@[simp] theorem State.next_split (s : State) : (s.next).split = s.split := rfl
@[simp] theorem State.next_found (s : State) : (s.next).found = s.found := rfl
@[simp] theorem State.next_caps (s : State) : (s.next).caps = s.caps := rfl
@[simp] theorem State.next_measures (s : State) : (s.next).measures = s.measures := rfl
@[simp] theorem State.next_attq (s : State) : (s.next).attq = s.attq := rfl
@[simp] theorem State.next_cntsel (s : State) : (s.next).cntsel = s.cntsel := rfl
@[simp] theorem State.next_ologs (s : State) : (s.next).ologs = s.ologs := rfl
@[simp] theorem State.next_ckpts (s : State) : (s.next).ckpts = s.ckpts := rfl

/-! ### jump -/

@[simp] theorem State.jump_me (s : State) (t : Word) : (s.jump t).me = { s.me with ch := s.me.ch.jumpTo t, wait := .none, seq := s.me.seq + 1, skipBrk := false, resume := none } := rfl
@[simp] theorem State.jump_others (s : State) (t : Word) : (s.jump t).others = s.others := rfl
@[simp] theorem State.jump_agenda (s : State) (t : Word) : (s.jump t).agenda = s.agenda := rfl
@[simp] theorem State.jump_pins (s : State) (t : Word) : (s.jump t).pins = s.pins := rfl
@[simp] theorem State.jump_now (s : State) (t : Word) : (s.jump t).now = s.now := rfl
@[simp] theorem State.jump_fresh (s : State) (t : Word) : (s.jump t).fresh = s.fresh := rfl
@[simp] theorem State.jump_mem (s : State) (t : Word) : (s.jump t).mem = s.mem := rfl
@[simp] theorem State.jump_poison (s : State) (t : Word) : (s.jump t).poison = s.poison := rfl
@[simp] theorem State.jump_fog (s : State) (t : Word) : (s.jump t).fog = s.fog := rfl
@[simp] theorem State.jump_fogged (s : State) (t : Word) : (s.jump t).fogged = s.fogged := rfl
@[simp] theorem State.jump_adie (s : State) (t : Word) : (s.jump t).adie = s.adie := rfl
@[simp] theorem State.jump_cus (s : State) (t : Word) : (s.jump t).cus = s.cus := rfl
@[simp] theorem State.jump_l2 (s : State) (t : Word) : (s.jump t).l2 = s.l2 := rfl
@[simp] theorem State.jump_replay (s : State) (t : Word) : (s.jump t).replay = s.replay := rfl
@[simp] theorem State.jump_merges (s : State) (t : Word) : (s.jump t).merges = s.merges := rfl
@[simp] theorem State.jump_partq (s : State) (t : Word) : (s.jump t).partq = s.partq := rfl
@[simp] theorem State.jump_xfers (s : State) (t : Word) : (s.jump t).xfers = s.xfers := rfl
@[simp] theorem State.jump_counters (s : State) (t : Word) : (s.jump t).counters = s.counters := rfl
@[simp] theorem State.jump_launches (s : State) (t : Word) : (s.jump t).launches = s.launches := rfl
@[simp] theorem State.jump_queues (s : State) (t : Word) : (s.jump t).queues = s.queues := rfl
@[simp] theorem State.jump_levels (s : State) (t : Word) : (s.jump t).levels = s.levels := rfl
@[simp] theorem State.jump_order (s : State) (t : Word) : (s.jump t).order = s.order := rfl
@[simp] theorem State.jump_buckets (s : State) (t : Word) : (s.jump t).buckets = s.buckets := rfl
@[simp] theorem State.jump_last (s : State) (t : Word) : (s.jump t).last = s.last := rfl
@[simp] theorem State.jump_windows (s : State) (t : Word) : (s.jump t).windows = s.windows := rfl
@[simp] theorem State.jump_drains (s : State) (t : Word) : (s.jump t).drains = s.drains := rfl
@[simp] theorem State.jump_excluded (s : State) (t : Word) : (s.jump t).excluded = s.excluded := rfl
@[simp] theorem State.jump_roots (s : State) (t : Word) : (s.jump t).roots = s.roots := rfl
@[simp] theorem State.jump_out (s : State) (t : Word) : (s.jump t).out = s.out := rfl
@[simp] theorem State.jump_crit (s : State) (t : Word) : (s.jump t).crit = s.crit := rfl
@[simp] theorem State.jump_posts (s : State) (t : Word) : (s.jump t).posts = s.posts := rfl
@[simp] theorem State.jump_trace (s : State) (t : Word) : (s.jump t).trace = s.trace := rfl
@[simp] theorem State.jump_asked (s : State) (t : Word) : (s.jump t).asked = s.asked := rfl
@[simp] theorem State.jump_sendq (s : State) (t : Word) : (s.jump t).sendq = s.sendq := rfl
@[simp] theorem State.jump_ports (s : State) (t : Word) : (s.jump t).ports = s.ports := rfl
@[simp] theorem State.jump_peerIn (s : State) (t : Word) : (s.jump t).peerIn = s.peerIn := rfl
@[simp] theorem State.jump_borrowq (s : State) (t : Word) : (s.jump t).borrowq = s.borrowq := rfl
@[simp] theorem State.jump_revoked (s : State) (t : Word) : (s.jump t).revoked = s.revoked := rfl
@[simp] theorem State.jump_migs (s : State) (t : Word) : (s.jump t).migs = s.migs := rfl
@[simp] theorem State.jump_boot (s : State) (t : Word) : (s.jump t).boot = s.boot := rfl
@[simp] theorem State.jump_halted (s : State) (t : Word) : (s.jump t).halted = s.halted := rfl
@[simp] theorem State.jump_serial (s : State) (t : Word) : (s.jump t).serial = s.serial := rfl
@[simp] theorem State.jump_split (s : State) (t : Word) : (s.jump t).split = s.split := rfl
@[simp] theorem State.jump_found (s : State) (t : Word) : (s.jump t).found = s.found := rfl
@[simp] theorem State.jump_caps (s : State) (t : Word) : (s.jump t).caps = s.caps := rfl
@[simp] theorem State.jump_measures (s : State) (t : Word) : (s.jump t).measures = s.measures := rfl
@[simp] theorem State.jump_attq (s : State) (t : Word) : (s.jump t).attq = s.attq := rfl
@[simp] theorem State.jump_cntsel (s : State) (t : Word) : (s.jump t).cntsel = s.cntsel := rfl
@[simp] theorem State.jump_ologs (s : State) (t : Word) : (s.jump t).ologs = s.ologs := rfl
@[simp] theorem State.jump_ckpts (s : State) (t : Word) : (s.jump t).ckpts = s.ckpts := rfl

/-! ### setReg -/

@[simp] theorem State.setReg_me (s : State) (a : Nat) (v : Word) : (s.setReg a v).me = s.me := rfl
@[simp] theorem State.setReg_others (s : State) (a : Nat) (v : Word) : (s.setReg a v).others = s.others := rfl
@[simp] theorem State.setReg_agenda (s : State) (a : Nat) (v : Word) : (s.setReg a v).agenda = s.agenda := rfl
@[simp] theorem State.setReg_pins (s : State) (a : Nat) (v : Word) : (s.setReg a v).pins = s.pins := rfl
@[simp] theorem State.setReg_now (s : State) (a : Nat) (v : Word) : (s.setReg a v).now = s.now := rfl
@[simp] theorem State.setReg_fresh (s : State) (a : Nat) (v : Word) : (s.setReg a v).fresh = s.fresh := rfl
@[simp] theorem State.setReg_mem (s : State) (a : Nat) (v : Word) : (s.setReg a v).mem = s.mem := rfl
@[simp] theorem State.setReg_poison (s : State) (a : Nat) (v : Word) : (s.setReg a v).poison = s.poison := rfl
@[simp] theorem State.setReg_fog (s : State) (a : Nat) (v : Word) : (s.setReg a v).fog = s.fog := rfl
@[simp] theorem State.setReg_fogged (s : State) (a : Nat) (v : Word) : (s.setReg a v).fogged = s.fogged := rfl
@[simp] theorem State.setReg_adie (s : State) (a : Nat) (v : Word) : (s.setReg a v).adie = putReg a v s.adie := rfl
@[simp] theorem State.setReg_cus (s : State) (a : Nat) (v : Word) : (s.setReg a v).cus = s.cus := rfl
@[simp] theorem State.setReg_l2 (s : State) (a : Nat) (v : Word) : (s.setReg a v).l2 = s.l2 := rfl
@[simp] theorem State.setReg_replay (s : State) (a : Nat) (v : Word) : (s.setReg a v).replay = s.replay := rfl
@[simp] theorem State.setReg_merges (s : State) (a : Nat) (v : Word) : (s.setReg a v).merges = s.merges := rfl
@[simp] theorem State.setReg_partq (s : State) (a : Nat) (v : Word) : (s.setReg a v).partq = s.partq := rfl
@[simp] theorem State.setReg_xfers (s : State) (a : Nat) (v : Word) : (s.setReg a v).xfers = s.xfers := rfl
@[simp] theorem State.setReg_counters (s : State) (a : Nat) (v : Word) : (s.setReg a v).counters = s.counters := rfl
@[simp] theorem State.setReg_launches (s : State) (a : Nat) (v : Word) : (s.setReg a v).launches = s.launches := rfl
@[simp] theorem State.setReg_queues (s : State) (a : Nat) (v : Word) : (s.setReg a v).queues = s.queues := rfl
@[simp] theorem State.setReg_levels (s : State) (a : Nat) (v : Word) : (s.setReg a v).levels = s.levels := rfl
@[simp] theorem State.setReg_order (s : State) (a : Nat) (v : Word) : (s.setReg a v).order = s.order := rfl
@[simp] theorem State.setReg_buckets (s : State) (a : Nat) (v : Word) : (s.setReg a v).buckets = s.buckets := rfl
@[simp] theorem State.setReg_last (s : State) (a : Nat) (v : Word) : (s.setReg a v).last = s.last := rfl
@[simp] theorem State.setReg_windows (s : State) (a : Nat) (v : Word) : (s.setReg a v).windows = s.windows := rfl
@[simp] theorem State.setReg_drains (s : State) (a : Nat) (v : Word) : (s.setReg a v).drains = s.drains := rfl
@[simp] theorem State.setReg_excluded (s : State) (a : Nat) (v : Word) : (s.setReg a v).excluded = s.excluded := rfl
@[simp] theorem State.setReg_roots (s : State) (a : Nat) (v : Word) : (s.setReg a v).roots = s.roots := rfl
@[simp] theorem State.setReg_out (s : State) (a : Nat) (v : Word) : (s.setReg a v).out = s.out := rfl
@[simp] theorem State.setReg_crit (s : State) (a : Nat) (v : Word) : (s.setReg a v).crit = s.crit := rfl
@[simp] theorem State.setReg_posts (s : State) (a : Nat) (v : Word) : (s.setReg a v).posts = s.posts := rfl
@[simp] theorem State.setReg_trace (s : State) (a : Nat) (v : Word) : (s.setReg a v).trace = s.trace := rfl
@[simp] theorem State.setReg_asked (s : State) (a : Nat) (v : Word) : (s.setReg a v).asked = s.asked := rfl
@[simp] theorem State.setReg_sendq (s : State) (a : Nat) (v : Word) : (s.setReg a v).sendq = s.sendq := rfl
@[simp] theorem State.setReg_ports (s : State) (a : Nat) (v : Word) : (s.setReg a v).ports = s.ports := rfl
@[simp] theorem State.setReg_peerIn (s : State) (a : Nat) (v : Word) : (s.setReg a v).peerIn = s.peerIn := rfl
@[simp] theorem State.setReg_borrowq (s : State) (a : Nat) (v : Word) : (s.setReg a v).borrowq = s.borrowq := rfl
@[simp] theorem State.setReg_revoked (s : State) (a : Nat) (v : Word) : (s.setReg a v).revoked = s.revoked := rfl
@[simp] theorem State.setReg_migs (s : State) (a : Nat) (v : Word) : (s.setReg a v).migs = s.migs := rfl
@[simp] theorem State.setReg_boot (s : State) (a : Nat) (v : Word) : (s.setReg a v).boot = s.boot := rfl
@[simp] theorem State.setReg_halted (s : State) (a : Nat) (v : Word) : (s.setReg a v).halted = s.halted := rfl
@[simp] theorem State.setReg_serial (s : State) (a : Nat) (v : Word) : (s.setReg a v).serial = s.serial := rfl
@[simp] theorem State.setReg_split (s : State) (a : Nat) (v : Word) : (s.setReg a v).split = s.split := rfl
@[simp] theorem State.setReg_found (s : State) (a : Nat) (v : Word) : (s.setReg a v).found = s.found := rfl
@[simp] theorem State.setReg_caps (s : State) (a : Nat) (v : Word) : (s.setReg a v).caps = s.caps := rfl
@[simp] theorem State.setReg_measures (s : State) (a : Nat) (v : Word) : (s.setReg a v).measures = s.measures := rfl
@[simp] theorem State.setReg_attq (s : State) (a : Nat) (v : Word) : (s.setReg a v).attq = s.attq := rfl
@[simp] theorem State.setReg_cntsel (s : State) (a : Nat) (v : Word) : (s.setReg a v).cntsel = s.cntsel := rfl
@[simp] theorem State.setReg_ologs (s : State) (a : Nat) (v : Word) : (s.setReg a v).ologs = s.ologs := rfl
@[simp] theorem State.setReg_ckpts (s : State) (a : Nat) (v : Word) : (s.setReg a v).ckpts = s.ckpts := rfl

/-! ### setHomeByte -/

@[simp] theorem State.setHomeByte_me (s : State) (a : Nat) (b : Byte) : (s.setHomeByte a b).me = s.me := rfl
@[simp] theorem State.setHomeByte_others (s : State) (a : Nat) (b : Byte) : (s.setHomeByte a b).others = s.others := rfl
@[simp] theorem State.setHomeByte_agenda (s : State) (a : Nat) (b : Byte) : (s.setHomeByte a b).agenda = s.agenda := rfl
@[simp] theorem State.setHomeByte_pins (s : State) (a : Nat) (b : Byte) : (s.setHomeByte a b).pins = s.pins := rfl
@[simp] theorem State.setHomeByte_now (s : State) (a : Nat) (b : Byte) : (s.setHomeByte a b).now = s.now := rfl
@[simp] theorem State.setHomeByte_fresh (s : State) (a : Nat) (b : Byte) : (s.setHomeByte a b).fresh = s.fresh := rfl
@[simp] theorem State.setHomeByte_mem (s : State) (a : Nat) (b : Byte) : (s.setHomeByte a b).mem = Assoc.put byteDefault a b s.mem := rfl
@[simp] theorem State.setHomeByte_poison (s : State) (a : Nat) (b : Byte) : (s.setHomeByte a b).poison = s.poison := rfl
@[simp] theorem State.setHomeByte_fog (s : State) (a : Nat) (b : Byte) : (s.setHomeByte a b).fog = s.fog := rfl
@[simp] theorem State.setHomeByte_adie (s : State) (a : Nat) (b : Byte) : (s.setHomeByte a b).adie = s.adie := rfl
@[simp] theorem State.setHomeByte_cus (s : State) (a : Nat) (b : Byte) : (s.setHomeByte a b).cus = s.cus := rfl
@[simp] theorem State.setHomeByte_l2 (s : State) (a : Nat) (b : Byte) : (s.setHomeByte a b).l2 = s.l2 := rfl
@[simp] theorem State.setHomeByte_replay (s : State) (a : Nat) (b : Byte) : (s.setHomeByte a b).replay = s.replay := rfl
@[simp] theorem State.setHomeByte_merges (s : State) (a : Nat) (b : Byte) : (s.setHomeByte a b).merges = s.merges := rfl
@[simp] theorem State.setHomeByte_partq (s : State) (a : Nat) (b : Byte) : (s.setHomeByte a b).partq = s.partq := rfl
@[simp] theorem State.setHomeByte_xfers (s : State) (a : Nat) (b : Byte) : (s.setHomeByte a b).xfers = s.xfers := rfl
@[simp] theorem State.setHomeByte_counters (s : State) (a : Nat) (b : Byte) : (s.setHomeByte a b).counters = s.counters := rfl
@[simp] theorem State.setHomeByte_launches (s : State) (a : Nat) (b : Byte) : (s.setHomeByte a b).launches = s.launches := rfl
@[simp] theorem State.setHomeByte_queues (s : State) (a : Nat) (b : Byte) : (s.setHomeByte a b).queues = s.queues := rfl
@[simp] theorem State.setHomeByte_levels (s : State) (a : Nat) (b : Byte) : (s.setHomeByte a b).levels = s.levels := rfl
@[simp] theorem State.setHomeByte_order (s : State) (a : Nat) (b : Byte) : (s.setHomeByte a b).order = s.order := rfl
@[simp] theorem State.setHomeByte_buckets (s : State) (a : Nat) (b : Byte) : (s.setHomeByte a b).buckets = s.buckets := rfl
@[simp] theorem State.setHomeByte_last (s : State) (a : Nat) (b : Byte) : (s.setHomeByte a b).last = s.last := rfl
@[simp] theorem State.setHomeByte_windows (s : State) (a : Nat) (b : Byte) : (s.setHomeByte a b).windows = s.windows := rfl
@[simp] theorem State.setHomeByte_drains (s : State) (a : Nat) (b : Byte) : (s.setHomeByte a b).drains = s.drains := rfl
@[simp] theorem State.setHomeByte_excluded (s : State) (a : Nat) (b : Byte) : (s.setHomeByte a b).excluded = s.excluded := rfl
@[simp] theorem State.setHomeByte_roots (s : State) (a : Nat) (b : Byte) : (s.setHomeByte a b).roots = s.roots := rfl
@[simp] theorem State.setHomeByte_out (s : State) (a : Nat) (b : Byte) : (s.setHomeByte a b).out = s.out := rfl
@[simp] theorem State.setHomeByte_crit (s : State) (a : Nat) (b : Byte) : (s.setHomeByte a b).crit = s.crit := rfl
@[simp] theorem State.setHomeByte_posts (s : State) (a : Nat) (b : Byte) : (s.setHomeByte a b).posts = s.posts := rfl
@[simp] theorem State.setHomeByte_trace (s : State) (a : Nat) (b : Byte) : (s.setHomeByte a b).trace = s.trace := rfl
@[simp] theorem State.setHomeByte_asked (s : State) (a : Nat) (b : Byte) : (s.setHomeByte a b).asked = s.asked := rfl
@[simp] theorem State.setHomeByte_sendq (s : State) (a : Nat) (b : Byte) : (s.setHomeByte a b).sendq = s.sendq := rfl
@[simp] theorem State.setHomeByte_ports (s : State) (a : Nat) (b : Byte) : (s.setHomeByte a b).ports = s.ports := rfl
@[simp] theorem State.setHomeByte_peerIn (s : State) (a : Nat) (b : Byte) : (s.setHomeByte a b).peerIn = s.peerIn := rfl
@[simp] theorem State.setHomeByte_borrowq (s : State) (a : Nat) (b : Byte) : (s.setHomeByte a b).borrowq = s.borrowq := rfl
@[simp] theorem State.setHomeByte_revoked (s : State) (a : Nat) (b : Byte) : (s.setHomeByte a b).revoked = s.revoked := rfl
@[simp] theorem State.setHomeByte_migs (s : State) (a : Nat) (b : Byte) : (s.setHomeByte a b).migs = s.migs := rfl
@[simp] theorem State.setHomeByte_boot (s : State) (a : Nat) (b : Byte) : (s.setHomeByte a b).boot = s.boot := rfl
@[simp] theorem State.setHomeByte_halted (s : State) (a : Nat) (b : Byte) : (s.setHomeByte a b).halted = s.halted := rfl
@[simp] theorem State.setHomeByte_serial (s : State) (a : Nat) (b : Byte) : (s.setHomeByte a b).serial = s.serial := rfl
@[simp] theorem State.setHomeByte_split (s : State) (a : Nat) (b : Byte) : (s.setHomeByte a b).split = s.split := rfl
@[simp] theorem State.setHomeByte_found (s : State) (a : Nat) (b : Byte) : (s.setHomeByte a b).found = s.found := rfl
@[simp] theorem State.setHomeByte_caps (s : State) (a : Nat) (b : Byte) : (s.setHomeByte a b).caps = s.caps := rfl
@[simp] theorem State.setHomeByte_measures (s : State) (a : Nat) (b : Byte) : (s.setHomeByte a b).measures = s.measures := rfl
@[simp] theorem State.setHomeByte_attq (s : State) (a : Nat) (b : Byte) : (s.setHomeByte a b).attq = s.attq := rfl
@[simp] theorem State.setHomeByte_cntsel (s : State) (a : Nat) (b : Byte) : (s.setHomeByte a b).cntsel = s.cntsel := rfl
@[simp] theorem State.setHomeByte_ologs (s : State) (a : Nat) (b : Byte) : (s.setHomeByte a b).ologs = s.ologs := rfl
@[simp] theorem State.setHomeByte_ckpts (s : State) (a : Nat) (b : Byte) : (s.setHomeByte a b).ckpts = s.ckpts := rfl

/-! ### makeFog -/

@[simp] theorem State.makeFog_me (s : State) (lo hi : Nat) : (s.makeFog lo hi).me = s.me := rfl
@[simp] theorem State.makeFog_others (s : State) (lo hi : Nat) : (s.makeFog lo hi).others = s.others := rfl
@[simp] theorem State.makeFog_agenda (s : State) (lo hi : Nat) : (s.makeFog lo hi).agenda = s.agenda := rfl
@[simp] theorem State.makeFog_pins (s : State) (lo hi : Nat) : (s.makeFog lo hi).pins = s.pins := rfl
@[simp] theorem State.makeFog_now (s : State) (lo hi : Nat) : (s.makeFog lo hi).now = s.now := rfl
@[simp] theorem State.makeFog_fresh (s : State) (lo hi : Nat) : (s.makeFog lo hi).fresh = s.fresh + 1 := rfl
@[simp] theorem State.makeFog_mem (s : State) (lo hi : Nat) : (s.makeFog lo hi).mem = s.mem.filter fun c => !(lo ≤ c.1 && c.1 < hi) := rfl
@[simp] theorem State.makeFog_poison (s : State) (lo hi : Nat) : (s.makeFog lo hi).poison = s.poison := rfl
@[simp] theorem State.makeFog_fog (s : State) (lo hi : Nat) : (s.makeFog lo hi).fog = ⟨lo, hi, s.fresh⟩ :: s.fog := rfl
@[simp] theorem State.makeFog_fogged (s : State) (lo hi : Nat) : (s.makeFog lo hi).fogged = s.fogged.filter fun a => !(lo ≤ a && a < hi) := rfl
@[simp] theorem State.makeFog_adie (s : State) (lo hi : Nat) : (s.makeFog lo hi).adie = s.adie := rfl
@[simp] theorem State.makeFog_cus (s : State) (lo hi : Nat) : (s.makeFog lo hi).cus = s.cus := rfl
@[simp] theorem State.makeFog_l2 (s : State) (lo hi : Nat) : (s.makeFog lo hi).l2 = s.l2 := rfl
@[simp] theorem State.makeFog_replay (s : State) (lo hi : Nat) : (s.makeFog lo hi).replay = s.replay := rfl
@[simp] theorem State.makeFog_merges (s : State) (lo hi : Nat) : (s.makeFog lo hi).merges = s.merges := rfl
@[simp] theorem State.makeFog_partq (s : State) (lo hi : Nat) : (s.makeFog lo hi).partq = s.partq := rfl
@[simp] theorem State.makeFog_xfers (s : State) (lo hi : Nat) : (s.makeFog lo hi).xfers = s.xfers := rfl
@[simp] theorem State.makeFog_counters (s : State) (lo hi : Nat) : (s.makeFog lo hi).counters = s.counters := rfl
@[simp] theorem State.makeFog_launches (s : State) (lo hi : Nat) : (s.makeFog lo hi).launches = s.launches := rfl
@[simp] theorem State.makeFog_queues (s : State) (lo hi : Nat) : (s.makeFog lo hi).queues = s.queues := rfl
@[simp] theorem State.makeFog_levels (s : State) (lo hi : Nat) : (s.makeFog lo hi).levels = s.levels := rfl
@[simp] theorem State.makeFog_order (s : State) (lo hi : Nat) : (s.makeFog lo hi).order = s.order := rfl
@[simp] theorem State.makeFog_buckets (s : State) (lo hi : Nat) : (s.makeFog lo hi).buckets = s.buckets := rfl
@[simp] theorem State.makeFog_last (s : State) (lo hi : Nat) : (s.makeFog lo hi).last = s.last := rfl
@[simp] theorem State.makeFog_windows (s : State) (lo hi : Nat) : (s.makeFog lo hi).windows = s.windows := rfl
@[simp] theorem State.makeFog_drains (s : State) (lo hi : Nat) : (s.makeFog lo hi).drains = s.drains := rfl
@[simp] theorem State.makeFog_excluded (s : State) (lo hi : Nat) : (s.makeFog lo hi).excluded = s.excluded := rfl
@[simp] theorem State.makeFog_roots (s : State) (lo hi : Nat) : (s.makeFog lo hi).roots = s.roots := rfl
@[simp] theorem State.makeFog_out (s : State) (lo hi : Nat) : (s.makeFog lo hi).out = s.out := rfl
@[simp] theorem State.makeFog_crit (s : State) (lo hi : Nat) : (s.makeFog lo hi).crit = s.crit := rfl
@[simp] theorem State.makeFog_posts (s : State) (lo hi : Nat) : (s.makeFog lo hi).posts = s.posts := rfl
@[simp] theorem State.makeFog_trace (s : State) (lo hi : Nat) : (s.makeFog lo hi).trace = s.trace := rfl
@[simp] theorem State.makeFog_asked (s : State) (lo hi : Nat) : (s.makeFog lo hi).asked = s.asked := rfl
@[simp] theorem State.makeFog_sendq (s : State) (lo hi : Nat) : (s.makeFog lo hi).sendq = s.sendq := rfl
@[simp] theorem State.makeFog_ports (s : State) (lo hi : Nat) : (s.makeFog lo hi).ports = s.ports := rfl
@[simp] theorem State.makeFog_peerIn (s : State) (lo hi : Nat) : (s.makeFog lo hi).peerIn = s.peerIn := rfl
@[simp] theorem State.makeFog_borrowq (s : State) (lo hi : Nat) : (s.makeFog lo hi).borrowq = s.borrowq := rfl
@[simp] theorem State.makeFog_revoked (s : State) (lo hi : Nat) : (s.makeFog lo hi).revoked = s.revoked := rfl
@[simp] theorem State.makeFog_migs (s : State) (lo hi : Nat) : (s.makeFog lo hi).migs = s.migs := rfl
@[simp] theorem State.makeFog_boot (s : State) (lo hi : Nat) : (s.makeFog lo hi).boot = s.boot := rfl
@[simp] theorem State.makeFog_halted (s : State) (lo hi : Nat) : (s.makeFog lo hi).halted = s.halted := rfl
@[simp] theorem State.makeFog_serial (s : State) (lo hi : Nat) : (s.makeFog lo hi).serial = s.serial := rfl
@[simp] theorem State.makeFog_split (s : State) (lo hi : Nat) : (s.makeFog lo hi).split = s.split := rfl
@[simp] theorem State.makeFog_found (s : State) (lo hi : Nat) : (s.makeFog lo hi).found = s.found := rfl
@[simp] theorem State.makeFog_caps (s : State) (lo hi : Nat) : (s.makeFog lo hi).caps = s.caps := rfl
@[simp] theorem State.makeFog_measures (s : State) (lo hi : Nat) : (s.makeFog lo hi).measures = s.measures := rfl
@[simp] theorem State.makeFog_attq (s : State) (lo hi : Nat) : (s.makeFog lo hi).attq = s.attq := rfl
@[simp] theorem State.makeFog_cntsel (s : State) (lo hi : Nat) : (s.makeFog lo hi).cntsel = s.cntsel := rfl
@[simp] theorem State.makeFog_ologs (s : State) (lo hi : Nat) : (s.makeFog lo hi).ologs = s.ologs := rfl
@[simp] theorem State.makeFog_ckpts (s : State) (lo hi : Nat) : (s.makeFog lo hi).ckpts = s.ckpts := rfl

/-! ### setCu -/

@[simp] theorem State.setCu_me (s : State) (k : Nat) (c : Cu) : (s.setCu k c).me = s.me := rfl
@[simp] theorem State.setCu_others (s : State) (k : Nat) (c : Cu) : (s.setCu k c).others = s.others := rfl
@[simp] theorem State.setCu_agenda (s : State) (k : Nat) (c : Cu) : (s.setCu k c).agenda = s.agenda := rfl
@[simp] theorem State.setCu_pins (s : State) (k : Nat) (c : Cu) : (s.setCu k c).pins = s.pins := rfl
@[simp] theorem State.setCu_now (s : State) (k : Nat) (c : Cu) : (s.setCu k c).now = s.now := rfl
@[simp] theorem State.setCu_fresh (s : State) (k : Nat) (c : Cu) : (s.setCu k c).fresh = s.fresh := rfl
@[simp] theorem State.setCu_mem (s : State) (k : Nat) (c : Cu) : (s.setCu k c).mem = s.mem := rfl
@[simp] theorem State.setCu_poison (s : State) (k : Nat) (c : Cu) : (s.setCu k c).poison = s.poison := rfl
@[simp] theorem State.setCu_fog (s : State) (k : Nat) (c : Cu) : (s.setCu k c).fog = s.fog := rfl
@[simp] theorem State.setCu_fogged (s : State) (k : Nat) (c : Cu) : (s.setCu k c).fogged = s.fogged := rfl
@[simp] theorem State.setCu_adie (s : State) (k : Nat) (c : Cu) : (s.setCu k c).adie = s.adie := rfl
@[simp] theorem State.setCu_cus (s : State) (k : Nat) (c : Cu) : (s.setCu k c).cus = Assoc.put Cu.none k c s.cus := rfl
@[simp] theorem State.setCu_l2 (s : State) (k : Nat) (c : Cu) : (s.setCu k c).l2 = s.l2 := rfl
@[simp] theorem State.setCu_replay (s : State) (k : Nat) (c : Cu) : (s.setCu k c).replay = s.replay := rfl
@[simp] theorem State.setCu_merges (s : State) (k : Nat) (c : Cu) : (s.setCu k c).merges = s.merges := rfl
@[simp] theorem State.setCu_partq (s : State) (k : Nat) (c : Cu) : (s.setCu k c).partq = s.partq := rfl
@[simp] theorem State.setCu_xfers (s : State) (k : Nat) (c : Cu) : (s.setCu k c).xfers = s.xfers := rfl
@[simp] theorem State.setCu_counters (s : State) (k : Nat) (c : Cu) : (s.setCu k c).counters = s.counters := rfl
@[simp] theorem State.setCu_launches (s : State) (k : Nat) (c : Cu) : (s.setCu k c).launches = s.launches := rfl
@[simp] theorem State.setCu_queues (s : State) (k : Nat) (c : Cu) : (s.setCu k c).queues = s.queues := rfl
@[simp] theorem State.setCu_levels (s : State) (k : Nat) (c : Cu) : (s.setCu k c).levels = s.levels := rfl
@[simp] theorem State.setCu_order (s : State) (k : Nat) (c : Cu) : (s.setCu k c).order = s.order := rfl
@[simp] theorem State.setCu_buckets (s : State) (k : Nat) (c : Cu) : (s.setCu k c).buckets = s.buckets := rfl
@[simp] theorem State.setCu_last (s : State) (k : Nat) (c : Cu) : (s.setCu k c).last = s.last := rfl
@[simp] theorem State.setCu_windows (s : State) (k : Nat) (c : Cu) : (s.setCu k c).windows = s.windows := rfl
@[simp] theorem State.setCu_drains (s : State) (k : Nat) (c : Cu) : (s.setCu k c).drains = s.drains := rfl
@[simp] theorem State.setCu_excluded (s : State) (k : Nat) (c : Cu) : (s.setCu k c).excluded = s.excluded := rfl
@[simp] theorem State.setCu_roots (s : State) (k : Nat) (c : Cu) : (s.setCu k c).roots = s.roots := rfl
@[simp] theorem State.setCu_out (s : State) (k : Nat) (c : Cu) : (s.setCu k c).out = s.out := rfl
@[simp] theorem State.setCu_crit (s : State) (k : Nat) (c : Cu) : (s.setCu k c).crit = s.crit := rfl
@[simp] theorem State.setCu_posts (s : State) (k : Nat) (c : Cu) : (s.setCu k c).posts = s.posts := rfl
@[simp] theorem State.setCu_trace (s : State) (k : Nat) (c : Cu) : (s.setCu k c).trace = s.trace := rfl
@[simp] theorem State.setCu_asked (s : State) (k : Nat) (c : Cu) : (s.setCu k c).asked = s.asked := rfl
@[simp] theorem State.setCu_sendq (s : State) (k : Nat) (c : Cu) : (s.setCu k c).sendq = s.sendq := rfl
@[simp] theorem State.setCu_ports (s : State) (k : Nat) (c : Cu) : (s.setCu k c).ports = s.ports := rfl
@[simp] theorem State.setCu_peerIn (s : State) (k : Nat) (c : Cu) : (s.setCu k c).peerIn = s.peerIn := rfl
@[simp] theorem State.setCu_borrowq (s : State) (k : Nat) (c : Cu) : (s.setCu k c).borrowq = s.borrowq := rfl
@[simp] theorem State.setCu_revoked (s : State) (k : Nat) (c : Cu) : (s.setCu k c).revoked = s.revoked := rfl
@[simp] theorem State.setCu_migs (s : State) (k : Nat) (c : Cu) : (s.setCu k c).migs = s.migs := rfl
@[simp] theorem State.setCu_boot (s : State) (k : Nat) (c : Cu) : (s.setCu k c).boot = s.boot := rfl
@[simp] theorem State.setCu_halted (s : State) (k : Nat) (c : Cu) : (s.setCu k c).halted = s.halted := rfl
@[simp] theorem State.setCu_serial (s : State) (k : Nat) (c : Cu) : (s.setCu k c).serial = s.serial := rfl
@[simp] theorem State.setCu_split (s : State) (k : Nat) (c : Cu) : (s.setCu k c).split = s.split := rfl
@[simp] theorem State.setCu_found (s : State) (k : Nat) (c : Cu) : (s.setCu k c).found = s.found := rfl
@[simp] theorem State.setCu_caps (s : State) (k : Nat) (c : Cu) : (s.setCu k c).caps = s.caps := rfl
@[simp] theorem State.setCu_measures (s : State) (k : Nat) (c : Cu) : (s.setCu k c).measures = s.measures := rfl
@[simp] theorem State.setCu_attq (s : State) (k : Nat) (c : Cu) : (s.setCu k c).attq = s.attq := rfl
@[simp] theorem State.setCu_cntsel (s : State) (k : Nat) (c : Cu) : (s.setCu k c).cntsel = s.cntsel := rfl
@[simp] theorem State.setCu_ologs (s : State) (k : Nat) (c : Cu) : (s.setCu k c).ologs = s.ologs := rfl
@[simp] theorem State.setCu_ckpts (s : State) (k : Nat) (c : Cu) : (s.setCu k c).ckpts = s.ckpts := rfl

/-! ### setBucket -/

@[simp] theorem State.setBucket_me (s : State) (a : Arbiter) (v : Nat) (b : Bucket) : (s.setBucket a v b).me = s.me := rfl
@[simp] theorem State.setBucket_others (s : State) (a : Arbiter) (v : Nat) (b : Bucket) : (s.setBucket a v b).others = s.others := rfl
@[simp] theorem State.setBucket_agenda (s : State) (a : Arbiter) (v : Nat) (b : Bucket) : (s.setBucket a v b).agenda = s.agenda := rfl
@[simp] theorem State.setBucket_pins (s : State) (a : Arbiter) (v : Nat) (b : Bucket) : (s.setBucket a v b).pins = s.pins := rfl
@[simp] theorem State.setBucket_now (s : State) (a : Arbiter) (v : Nat) (b : Bucket) : (s.setBucket a v b).now = s.now := rfl
@[simp] theorem State.setBucket_fresh (s : State) (a : Arbiter) (v : Nat) (b : Bucket) : (s.setBucket a v b).fresh = s.fresh := rfl
@[simp] theorem State.setBucket_mem (s : State) (a : Arbiter) (v : Nat) (b : Bucket) : (s.setBucket a v b).mem = s.mem := rfl
@[simp] theorem State.setBucket_poison (s : State) (a : Arbiter) (v : Nat) (b : Bucket) : (s.setBucket a v b).poison = s.poison := rfl
@[simp] theorem State.setBucket_fog (s : State) (a : Arbiter) (v : Nat) (b : Bucket) : (s.setBucket a v b).fog = s.fog := rfl
@[simp] theorem State.setBucket_fogged (s : State) (a : Arbiter) (v : Nat) (b : Bucket) : (s.setBucket a v b).fogged = s.fogged := rfl
@[simp] theorem State.setBucket_adie (s : State) (a : Arbiter) (v : Nat) (b : Bucket) : (s.setBucket a v b).adie = s.adie := rfl
@[simp] theorem State.setBucket_cus (s : State) (a : Arbiter) (v : Nat) (b : Bucket) : (s.setBucket a v b).cus = s.cus := rfl
@[simp] theorem State.setBucket_l2 (s : State) (a : Arbiter) (v : Nat) (b : Bucket) : (s.setBucket a v b).l2 = s.l2 := rfl
@[simp] theorem State.setBucket_replay (s : State) (a : Arbiter) (v : Nat) (b : Bucket) : (s.setBucket a v b).replay = s.replay := rfl
@[simp] theorem State.setBucket_merges (s : State) (a : Arbiter) (v : Nat) (b : Bucket) : (s.setBucket a v b).merges = s.merges := rfl
@[simp] theorem State.setBucket_partq (s : State) (a : Arbiter) (v : Nat) (b : Bucket) : (s.setBucket a v b).partq = s.partq := rfl
@[simp] theorem State.setBucket_xfers (s : State) (a : Arbiter) (v : Nat) (b : Bucket) : (s.setBucket a v b).xfers = s.xfers := rfl
@[simp] theorem State.setBucket_counters (s : State) (a : Arbiter) (v : Nat) (b : Bucket) : (s.setBucket a v b).counters = s.counters := rfl
@[simp] theorem State.setBucket_launches (s : State) (a : Arbiter) (v : Nat) (b : Bucket) : (s.setBucket a v b).launches = s.launches := rfl
@[simp] theorem State.setBucket_queues (s : State) (a : Arbiter) (v : Nat) (b : Bucket) : (s.setBucket a v b).queues = s.queues := rfl
@[simp] theorem State.setBucket_levels (s : State) (a : Arbiter) (v : Nat) (b : Bucket) : (s.setBucket a v b).levels = s.levels := rfl
@[simp] theorem State.setBucket_order (s : State) (a : Arbiter) (v : Nat) (b : Bucket) : (s.setBucket a v b).order = s.order := rfl
@[simp] theorem State.setBucket_buckets (s : State) (a : Arbiter) (v : Nat) (b : Bucket) : (s.setBucket a v b).buckets = Assoc.put Bucket.zero (a.key v) b s.buckets := rfl
@[simp] theorem State.setBucket_last (s : State) (a : Arbiter) (v : Nat) (b : Bucket) : (s.setBucket a v b).last = s.last := rfl
@[simp] theorem State.setBucket_windows (s : State) (a : Arbiter) (v : Nat) (b : Bucket) : (s.setBucket a v b).windows = s.windows := rfl
@[simp] theorem State.setBucket_drains (s : State) (a : Arbiter) (v : Nat) (b : Bucket) : (s.setBucket a v b).drains = s.drains := rfl
@[simp] theorem State.setBucket_excluded (s : State) (a : Arbiter) (v : Nat) (b : Bucket) : (s.setBucket a v b).excluded = s.excluded := rfl
@[simp] theorem State.setBucket_roots (s : State) (a : Arbiter) (v : Nat) (b : Bucket) : (s.setBucket a v b).roots = s.roots := rfl
@[simp] theorem State.setBucket_out (s : State) (a : Arbiter) (v : Nat) (b : Bucket) : (s.setBucket a v b).out = s.out := rfl
@[simp] theorem State.setBucket_crit (s : State) (a : Arbiter) (v : Nat) (b : Bucket) : (s.setBucket a v b).crit = s.crit := rfl
@[simp] theorem State.setBucket_posts (s : State) (a : Arbiter) (v : Nat) (b : Bucket) : (s.setBucket a v b).posts = s.posts := rfl
@[simp] theorem State.setBucket_trace (s : State) (a : Arbiter) (v : Nat) (b : Bucket) : (s.setBucket a v b).trace = s.trace := rfl
@[simp] theorem State.setBucket_asked (s : State) (a : Arbiter) (v : Nat) (b : Bucket) : (s.setBucket a v b).asked = s.asked := rfl
@[simp] theorem State.setBucket_sendq (s : State) (a : Arbiter) (v : Nat) (b : Bucket) : (s.setBucket a v b).sendq = s.sendq := rfl
@[simp] theorem State.setBucket_ports (s : State) (a : Arbiter) (v : Nat) (b : Bucket) : (s.setBucket a v b).ports = s.ports := rfl
@[simp] theorem State.setBucket_peerIn (s : State) (a : Arbiter) (v : Nat) (b : Bucket) : (s.setBucket a v b).peerIn = s.peerIn := rfl
@[simp] theorem State.setBucket_borrowq (s : State) (a : Arbiter) (v : Nat) (b : Bucket) : (s.setBucket a v b).borrowq = s.borrowq := rfl
@[simp] theorem State.setBucket_revoked (s : State) (a : Arbiter) (v : Nat) (b : Bucket) : (s.setBucket a v b).revoked = s.revoked := rfl
@[simp] theorem State.setBucket_migs (s : State) (a : Arbiter) (v : Nat) (b : Bucket) : (s.setBucket a v b).migs = s.migs := rfl
@[simp] theorem State.setBucket_boot (s : State) (a : Arbiter) (v : Nat) (b : Bucket) : (s.setBucket a v b).boot = s.boot := rfl
@[simp] theorem State.setBucket_halted (s : State) (a : Arbiter) (v : Nat) (b : Bucket) : (s.setBucket a v b).halted = s.halted := rfl
@[simp] theorem State.setBucket_serial (s : State) (a : Arbiter) (v : Nat) (b : Bucket) : (s.setBucket a v b).serial = s.serial := rfl
@[simp] theorem State.setBucket_split (s : State) (a : Arbiter) (v : Nat) (b : Bucket) : (s.setBucket a v b).split = s.split := rfl
@[simp] theorem State.setBucket_found (s : State) (a : Arbiter) (v : Nat) (b : Bucket) : (s.setBucket a v b).found = s.found := rfl
@[simp] theorem State.setBucket_caps (s : State) (a : Arbiter) (v : Nat) (b : Bucket) : (s.setBucket a v b).caps = s.caps := rfl
@[simp] theorem State.setBucket_measures (s : State) (a : Arbiter) (v : Nat) (b : Bucket) : (s.setBucket a v b).measures = s.measures := rfl
@[simp] theorem State.setBucket_attq (s : State) (a : Arbiter) (v : Nat) (b : Bucket) : (s.setBucket a v b).attq = s.attq := rfl
@[simp] theorem State.setBucket_cntsel (s : State) (a : Arbiter) (v : Nat) (b : Bucket) : (s.setBucket a v b).cntsel = s.cntsel := rfl
@[simp] theorem State.setBucket_ologs (s : State) (a : Arbiter) (v : Nat) (b : Bucket) : (s.setBucket a v b).ologs = s.ologs := rfl
@[simp] theorem State.setBucket_ckpts (s : State) (a : Arbiter) (v : Nat) (b : Bucket) : (s.setBucket a v b).ckpts = s.ckpts := rfl

/-! ### setCounter -/

@[simp] theorem State.setCounter_me (s : State) (i : Nat) (c : Counter) : (s.setCounter i c).me = s.me := rfl
@[simp] theorem State.setCounter_others (s : State) (i : Nat) (c : Counter) : (s.setCounter i c).others = s.others := rfl
@[simp] theorem State.setCounter_agenda (s : State) (i : Nat) (c : Counter) : (s.setCounter i c).agenda = s.agenda := rfl
@[simp] theorem State.setCounter_pins (s : State) (i : Nat) (c : Counter) : (s.setCounter i c).pins = s.pins := rfl
@[simp] theorem State.setCounter_now (s : State) (i : Nat) (c : Counter) : (s.setCounter i c).now = s.now := rfl
@[simp] theorem State.setCounter_fresh (s : State) (i : Nat) (c : Counter) : (s.setCounter i c).fresh = s.fresh := rfl
@[simp] theorem State.setCounter_mem (s : State) (i : Nat) (c : Counter) : (s.setCounter i c).mem = s.mem := rfl
@[simp] theorem State.setCounter_poison (s : State) (i : Nat) (c : Counter) : (s.setCounter i c).poison = s.poison := rfl
@[simp] theorem State.setCounter_fog (s : State) (i : Nat) (c : Counter) : (s.setCounter i c).fog = s.fog := rfl
@[simp] theorem State.setCounter_fogged (s : State) (i : Nat) (c : Counter) : (s.setCounter i c).fogged = s.fogged := rfl
@[simp] theorem State.setCounter_adie (s : State) (i : Nat) (c : Counter) : (s.setCounter i c).adie = s.adie := rfl
@[simp] theorem State.setCounter_cus (s : State) (i : Nat) (c : Counter) : (s.setCounter i c).cus = s.cus := rfl
@[simp] theorem State.setCounter_l2 (s : State) (i : Nat) (c : Counter) : (s.setCounter i c).l2 = s.l2 := rfl
@[simp] theorem State.setCounter_replay (s : State) (i : Nat) (c : Counter) : (s.setCounter i c).replay = s.replay := rfl
@[simp] theorem State.setCounter_merges (s : State) (i : Nat) (c : Counter) : (s.setCounter i c).merges = s.merges := rfl
@[simp] theorem State.setCounter_partq (s : State) (i : Nat) (c : Counter) : (s.setCounter i c).partq = s.partq := rfl
@[simp] theorem State.setCounter_xfers (s : State) (i : Nat) (c : Counter) : (s.setCounter i c).xfers = s.xfers := rfl
@[simp] theorem State.setCounter_counters (s : State) (i : Nat) (c : Counter) : (s.setCounter i c).counters = Assoc.put Counter.zero i c s.counters := rfl
@[simp] theorem State.setCounter_launches (s : State) (i : Nat) (c : Counter) : (s.setCounter i c).launches = s.launches := rfl
@[simp] theorem State.setCounter_queues (s : State) (i : Nat) (c : Counter) : (s.setCounter i c).queues = s.queues := rfl
@[simp] theorem State.setCounter_levels (s : State) (i : Nat) (c : Counter) : (s.setCounter i c).levels = s.levels := rfl
@[simp] theorem State.setCounter_order (s : State) (i : Nat) (c : Counter) : (s.setCounter i c).order = s.order := rfl
@[simp] theorem State.setCounter_buckets (s : State) (i : Nat) (c : Counter) : (s.setCounter i c).buckets = s.buckets := rfl
@[simp] theorem State.setCounter_last (s : State) (i : Nat) (c : Counter) : (s.setCounter i c).last = s.last := rfl
@[simp] theorem State.setCounter_windows (s : State) (i : Nat) (c : Counter) : (s.setCounter i c).windows = s.windows := rfl
@[simp] theorem State.setCounter_drains (s : State) (i : Nat) (c : Counter) : (s.setCounter i c).drains = s.drains := rfl
@[simp] theorem State.setCounter_excluded (s : State) (i : Nat) (c : Counter) : (s.setCounter i c).excluded = s.excluded := rfl
@[simp] theorem State.setCounter_roots (s : State) (i : Nat) (c : Counter) : (s.setCounter i c).roots = s.roots := rfl
@[simp] theorem State.setCounter_out (s : State) (i : Nat) (c : Counter) : (s.setCounter i c).out = s.out := rfl
@[simp] theorem State.setCounter_crit (s : State) (i : Nat) (c : Counter) : (s.setCounter i c).crit = s.crit := rfl
@[simp] theorem State.setCounter_posts (s : State) (i : Nat) (c : Counter) : (s.setCounter i c).posts = s.posts := rfl
@[simp] theorem State.setCounter_trace (s : State) (i : Nat) (c : Counter) : (s.setCounter i c).trace = s.trace := rfl
@[simp] theorem State.setCounter_asked (s : State) (i : Nat) (c : Counter) : (s.setCounter i c).asked = s.asked := rfl
@[simp] theorem State.setCounter_sendq (s : State) (i : Nat) (c : Counter) : (s.setCounter i c).sendq = s.sendq := rfl
@[simp] theorem State.setCounter_ports (s : State) (i : Nat) (c : Counter) : (s.setCounter i c).ports = s.ports := rfl
@[simp] theorem State.setCounter_peerIn (s : State) (i : Nat) (c : Counter) : (s.setCounter i c).peerIn = s.peerIn := rfl
@[simp] theorem State.setCounter_borrowq (s : State) (i : Nat) (c : Counter) : (s.setCounter i c).borrowq = s.borrowq := rfl
@[simp] theorem State.setCounter_revoked (s : State) (i : Nat) (c : Counter) : (s.setCounter i c).revoked = s.revoked := rfl
@[simp] theorem State.setCounter_migs (s : State) (i : Nat) (c : Counter) : (s.setCounter i c).migs = s.migs := rfl
@[simp] theorem State.setCounter_boot (s : State) (i : Nat) (c : Counter) : (s.setCounter i c).boot = s.boot := rfl
@[simp] theorem State.setCounter_halted (s : State) (i : Nat) (c : Counter) : (s.setCounter i c).halted = s.halted := rfl
@[simp] theorem State.setCounter_serial (s : State) (i : Nat) (c : Counter) : (s.setCounter i c).serial = s.serial := rfl
@[simp] theorem State.setCounter_split (s : State) (i : Nat) (c : Counter) : (s.setCounter i c).split = s.split := rfl
@[simp] theorem State.setCounter_found (s : State) (i : Nat) (c : Counter) : (s.setCounter i c).found = s.found := rfl
@[simp] theorem State.setCounter_caps (s : State) (i : Nat) (c : Counter) : (s.setCounter i c).caps = s.caps := rfl
@[simp] theorem State.setCounter_measures (s : State) (i : Nat) (c : Counter) : (s.setCounter i c).measures = s.measures := rfl
@[simp] theorem State.setCounter_attq (s : State) (i : Nat) (c : Counter) : (s.setCounter i c).attq = s.attq := rfl
@[simp] theorem State.setCounter_cntsel (s : State) (i : Nat) (c : Counter) : (s.setCounter i c).cntsel = s.cntsel := rfl
@[simp] theorem State.setCounter_ologs (s : State) (i : Nat) (c : Counter) : (s.setCounter i c).ologs = s.ologs := rfl
@[simp] theorem State.setCounter_ckpts (s : State) (i : Nat) (c : Counter) : (s.setCounter i c).ckpts = s.ckpts := rfl

/-! ### setQueue -/

@[simp] theorem State.setQueue_me (s : State) (v q : Nat) (x : Queue) : (s.setQueue v q x).me = s.me := rfl
@[simp] theorem State.setQueue_others (s : State) (v q : Nat) (x : Queue) : (s.setQueue v q x).others = s.others := rfl
@[simp] theorem State.setQueue_agenda (s : State) (v q : Nat) (x : Queue) : (s.setQueue v q x).agenda = s.agenda := rfl
@[simp] theorem State.setQueue_pins (s : State) (v q : Nat) (x : Queue) : (s.setQueue v q x).pins = s.pins := rfl
@[simp] theorem State.setQueue_now (s : State) (v q : Nat) (x : Queue) : (s.setQueue v q x).now = s.now := rfl
@[simp] theorem State.setQueue_fresh (s : State) (v q : Nat) (x : Queue) : (s.setQueue v q x).fresh = s.fresh := rfl
@[simp] theorem State.setQueue_mem (s : State) (v q : Nat) (x : Queue) : (s.setQueue v q x).mem = s.mem := rfl
@[simp] theorem State.setQueue_poison (s : State) (v q : Nat) (x : Queue) : (s.setQueue v q x).poison = s.poison := rfl
@[simp] theorem State.setQueue_fog (s : State) (v q : Nat) (x : Queue) : (s.setQueue v q x).fog = s.fog := rfl
@[simp] theorem State.setQueue_fogged (s : State) (v q : Nat) (x : Queue) : (s.setQueue v q x).fogged = s.fogged := rfl
@[simp] theorem State.setQueue_adie (s : State) (v q : Nat) (x : Queue) : (s.setQueue v q x).adie = s.adie := rfl
@[simp] theorem State.setQueue_cus (s : State) (v q : Nat) (x : Queue) : (s.setQueue v q x).cus = s.cus := rfl
@[simp] theorem State.setQueue_l2 (s : State) (v q : Nat) (x : Queue) : (s.setQueue v q x).l2 = s.l2 := rfl
@[simp] theorem State.setQueue_replay (s : State) (v q : Nat) (x : Queue) : (s.setQueue v q x).replay = s.replay := rfl
@[simp] theorem State.setQueue_merges (s : State) (v q : Nat) (x : Queue) : (s.setQueue v q x).merges = s.merges := rfl
@[simp] theorem State.setQueue_partq (s : State) (v q : Nat) (x : Queue) : (s.setQueue v q x).partq = s.partq := rfl
@[simp] theorem State.setQueue_xfers (s : State) (v q : Nat) (x : Queue) : (s.setQueue v q x).xfers = s.xfers := rfl
@[simp] theorem State.setQueue_counters (s : State) (v q : Nat) (x : Queue) : (s.setQueue v q x).counters = s.counters := rfl
@[simp] theorem State.setQueue_launches (s : State) (v q : Nat) (x : Queue) : (s.setQueue v q x).launches = s.launches := rfl
@[simp] theorem State.setQueue_queues (s : State) (v q : Nat) (x : Queue) : (s.setQueue v q x).queues = Assoc.put Queue.none (qkey v q) x s.queues := rfl
@[simp] theorem State.setQueue_levels (s : State) (v q : Nat) (x : Queue) : (s.setQueue v q x).levels = s.levels := rfl
@[simp] theorem State.setQueue_order (s : State) (v q : Nat) (x : Queue) : (s.setQueue v q x).order = s.order := rfl
@[simp] theorem State.setQueue_buckets (s : State) (v q : Nat) (x : Queue) : (s.setQueue v q x).buckets = s.buckets := rfl
@[simp] theorem State.setQueue_last (s : State) (v q : Nat) (x : Queue) : (s.setQueue v q x).last = s.last := rfl
@[simp] theorem State.setQueue_windows (s : State) (v q : Nat) (x : Queue) : (s.setQueue v q x).windows = s.windows := rfl
@[simp] theorem State.setQueue_drains (s : State) (v q : Nat) (x : Queue) : (s.setQueue v q x).drains = s.drains := rfl
@[simp] theorem State.setQueue_excluded (s : State) (v q : Nat) (x : Queue) : (s.setQueue v q x).excluded = s.excluded := rfl
@[simp] theorem State.setQueue_roots (s : State) (v q : Nat) (x : Queue) : (s.setQueue v q x).roots = s.roots := rfl
@[simp] theorem State.setQueue_out (s : State) (v q : Nat) (x : Queue) : (s.setQueue v q x).out = s.out := rfl
@[simp] theorem State.setQueue_crit (s : State) (v q : Nat) (x : Queue) : (s.setQueue v q x).crit = s.crit := rfl
@[simp] theorem State.setQueue_posts (s : State) (v q : Nat) (x : Queue) : (s.setQueue v q x).posts = s.posts := rfl
@[simp] theorem State.setQueue_trace (s : State) (v q : Nat) (x : Queue) : (s.setQueue v q x).trace = s.trace := rfl
@[simp] theorem State.setQueue_asked (s : State) (v q : Nat) (x : Queue) : (s.setQueue v q x).asked = s.asked := rfl
@[simp] theorem State.setQueue_sendq (s : State) (v q : Nat) (x : Queue) : (s.setQueue v q x).sendq = s.sendq := rfl
@[simp] theorem State.setQueue_ports (s : State) (v q : Nat) (x : Queue) : (s.setQueue v q x).ports = s.ports := rfl
@[simp] theorem State.setQueue_peerIn (s : State) (v q : Nat) (x : Queue) : (s.setQueue v q x).peerIn = s.peerIn := rfl
@[simp] theorem State.setQueue_borrowq (s : State) (v q : Nat) (x : Queue) : (s.setQueue v q x).borrowq = s.borrowq := rfl
@[simp] theorem State.setQueue_revoked (s : State) (v q : Nat) (x : Queue) : (s.setQueue v q x).revoked = s.revoked := rfl
@[simp] theorem State.setQueue_migs (s : State) (v q : Nat) (x : Queue) : (s.setQueue v q x).migs = s.migs := rfl
@[simp] theorem State.setQueue_boot (s : State) (v q : Nat) (x : Queue) : (s.setQueue v q x).boot = s.boot := rfl
@[simp] theorem State.setQueue_halted (s : State) (v q : Nat) (x : Queue) : (s.setQueue v q x).halted = s.halted := rfl
@[simp] theorem State.setQueue_serial (s : State) (v q : Nat) (x : Queue) : (s.setQueue v q x).serial = s.serial := rfl
@[simp] theorem State.setQueue_split (s : State) (v q : Nat) (x : Queue) : (s.setQueue v q x).split = s.split := rfl
@[simp] theorem State.setQueue_found (s : State) (v q : Nat) (x : Queue) : (s.setQueue v q x).found = s.found := rfl
@[simp] theorem State.setQueue_caps (s : State) (v q : Nat) (x : Queue) : (s.setQueue v q x).caps = s.caps := rfl
@[simp] theorem State.setQueue_measures (s : State) (v q : Nat) (x : Queue) : (s.setQueue v q x).measures = s.measures := rfl
@[simp] theorem State.setQueue_attq (s : State) (v q : Nat) (x : Queue) : (s.setQueue v q x).attq = s.attq := rfl
@[simp] theorem State.setQueue_cntsel (s : State) (v q : Nat) (x : Queue) : (s.setQueue v q x).cntsel = s.cntsel := rfl
@[simp] theorem State.setQueue_ologs (s : State) (v q : Nat) (x : Queue) : (s.setQueue v q x).ologs = s.ologs := rfl
@[simp] theorem State.setQueue_ckpts (s : State) (v q : Nat) (x : Queue) : (s.setQueue v q x).ckpts = s.ckpts := rfl

/-! ### setWindow -/

@[simp] theorem State.setWindow_me (s : State) (p : Nat) (w : Option Window) : (s.setWindow p w).me = s.me := rfl
@[simp] theorem State.setWindow_others (s : State) (p : Nat) (w : Option Window) : (s.setWindow p w).others = s.others := rfl
@[simp] theorem State.setWindow_agenda (s : State) (p : Nat) (w : Option Window) : (s.setWindow p w).agenda = s.agenda := rfl
@[simp] theorem State.setWindow_pins (s : State) (p : Nat) (w : Option Window) : (s.setWindow p w).pins = s.pins := rfl
@[simp] theorem State.setWindow_now (s : State) (p : Nat) (w : Option Window) : (s.setWindow p w).now = s.now := rfl
@[simp] theorem State.setWindow_fresh (s : State) (p : Nat) (w : Option Window) : (s.setWindow p w).fresh = s.fresh := rfl
@[simp] theorem State.setWindow_mem (s : State) (p : Nat) (w : Option Window) : (s.setWindow p w).mem = s.mem := rfl
@[simp] theorem State.setWindow_poison (s : State) (p : Nat) (w : Option Window) : (s.setWindow p w).poison = s.poison := rfl
@[simp] theorem State.setWindow_fog (s : State) (p : Nat) (w : Option Window) : (s.setWindow p w).fog = s.fog := rfl
@[simp] theorem State.setWindow_fogged (s : State) (p : Nat) (w : Option Window) : (s.setWindow p w).fogged = s.fogged := rfl
@[simp] theorem State.setWindow_adie (s : State) (p : Nat) (w : Option Window) : (s.setWindow p w).adie = s.adie := rfl
@[simp] theorem State.setWindow_cus (s : State) (p : Nat) (w : Option Window) : (s.setWindow p w).cus = s.cus := rfl
@[simp] theorem State.setWindow_l2 (s : State) (p : Nat) (w : Option Window) : (s.setWindow p w).l2 = s.l2 := rfl
@[simp] theorem State.setWindow_replay (s : State) (p : Nat) (w : Option Window) : (s.setWindow p w).replay = s.replay := rfl
@[simp] theorem State.setWindow_merges (s : State) (p : Nat) (w : Option Window) : (s.setWindow p w).merges = s.merges := rfl
@[simp] theorem State.setWindow_partq (s : State) (p : Nat) (w : Option Window) : (s.setWindow p w).partq = s.partq := rfl
@[simp] theorem State.setWindow_xfers (s : State) (p : Nat) (w : Option Window) : (s.setWindow p w).xfers = s.xfers := rfl
@[simp] theorem State.setWindow_counters (s : State) (p : Nat) (w : Option Window) : (s.setWindow p w).counters = s.counters := rfl
@[simp] theorem State.setWindow_launches (s : State) (p : Nat) (w : Option Window) : (s.setWindow p w).launches = s.launches := rfl
@[simp] theorem State.setWindow_queues (s : State) (p : Nat) (w : Option Window) : (s.setWindow p w).queues = s.queues := rfl
@[simp] theorem State.setWindow_levels (s : State) (p : Nat) (w : Option Window) : (s.setWindow p w).levels = s.levels := rfl
@[simp] theorem State.setWindow_order (s : State) (p : Nat) (w : Option Window) : (s.setWindow p w).order = s.order := rfl
@[simp] theorem State.setWindow_buckets (s : State) (p : Nat) (w : Option Window) : (s.setWindow p w).buckets = s.buckets := rfl
@[simp] theorem State.setWindow_last (s : State) (p : Nat) (w : Option Window) : (s.setWindow p w).last = s.last := rfl
@[simp] theorem State.setWindow_windows (s : State) (p : Nat) (w : Option Window) : (s.setWindow p w).windows = Assoc.put none p w s.windows := rfl
@[simp] theorem State.setWindow_drains (s : State) (p : Nat) (w : Option Window) : (s.setWindow p w).drains = s.drains := rfl
@[simp] theorem State.setWindow_excluded (s : State) (p : Nat) (w : Option Window) : (s.setWindow p w).excluded = s.excluded := rfl
@[simp] theorem State.setWindow_roots (s : State) (p : Nat) (w : Option Window) : (s.setWindow p w).roots = s.roots := rfl
@[simp] theorem State.setWindow_out (s : State) (p : Nat) (w : Option Window) : (s.setWindow p w).out = s.out := rfl
@[simp] theorem State.setWindow_crit (s : State) (p : Nat) (w : Option Window) : (s.setWindow p w).crit = s.crit := rfl
@[simp] theorem State.setWindow_posts (s : State) (p : Nat) (w : Option Window) : (s.setWindow p w).posts = s.posts := rfl
@[simp] theorem State.setWindow_trace (s : State) (p : Nat) (w : Option Window) : (s.setWindow p w).trace = s.trace := rfl
@[simp] theorem State.setWindow_asked (s : State) (p : Nat) (w : Option Window) : (s.setWindow p w).asked = s.asked := rfl
@[simp] theorem State.setWindow_sendq (s : State) (p : Nat) (w : Option Window) : (s.setWindow p w).sendq = s.sendq := rfl
@[simp] theorem State.setWindow_ports (s : State) (p : Nat) (w : Option Window) : (s.setWindow p w).ports = s.ports := rfl
@[simp] theorem State.setWindow_peerIn (s : State) (p : Nat) (w : Option Window) : (s.setWindow p w).peerIn = s.peerIn := rfl
@[simp] theorem State.setWindow_borrowq (s : State) (p : Nat) (w : Option Window) : (s.setWindow p w).borrowq = s.borrowq := rfl
@[simp] theorem State.setWindow_revoked (s : State) (p : Nat) (w : Option Window) : (s.setWindow p w).revoked = s.revoked := rfl
@[simp] theorem State.setWindow_migs (s : State) (p : Nat) (w : Option Window) : (s.setWindow p w).migs = s.migs := rfl
@[simp] theorem State.setWindow_boot (s : State) (p : Nat) (w : Option Window) : (s.setWindow p w).boot = s.boot := rfl
@[simp] theorem State.setWindow_halted (s : State) (p : Nat) (w : Option Window) : (s.setWindow p w).halted = s.halted := rfl
@[simp] theorem State.setWindow_serial (s : State) (p : Nat) (w : Option Window) : (s.setWindow p w).serial = s.serial := rfl
@[simp] theorem State.setWindow_split (s : State) (p : Nat) (w : Option Window) : (s.setWindow p w).split = s.split := rfl
@[simp] theorem State.setWindow_found (s : State) (p : Nat) (w : Option Window) : (s.setWindow p w).found = s.found := rfl
@[simp] theorem State.setWindow_caps (s : State) (p : Nat) (w : Option Window) : (s.setWindow p w).caps = s.caps := rfl
@[simp] theorem State.setWindow_measures (s : State) (p : Nat) (w : Option Window) : (s.setWindow p w).measures = s.measures := rfl
@[simp] theorem State.setWindow_attq (s : State) (p : Nat) (w : Option Window) : (s.setWindow p w).attq = s.attq := rfl
@[simp] theorem State.setWindow_cntsel (s : State) (p : Nat) (w : Option Window) : (s.setWindow p w).cntsel = s.cntsel := rfl
@[simp] theorem State.setWindow_ologs (s : State) (p : Nat) (w : Option Window) : (s.setWindow p w).ologs = s.ologs := rfl
@[simp] theorem State.setWindow_ckpts (s : State) (p : Nat) (w : Option Window) : (s.setWindow p w).ckpts = s.ckpts := rfl

/-! ### setTag -/

@[simp] theorem State.setTag_me (s : State) (t : L2Tag) : (s.setTag t).me = s.me := rfl
@[simp] theorem State.setTag_others (s : State) (t : L2Tag) : (s.setTag t).others = s.others := rfl
@[simp] theorem State.setTag_agenda (s : State) (t : L2Tag) : (s.setTag t).agenda = s.agenda := rfl
@[simp] theorem State.setTag_pins (s : State) (t : L2Tag) : (s.setTag t).pins = s.pins := rfl
@[simp] theorem State.setTag_now (s : State) (t : L2Tag) : (s.setTag t).now = s.now := rfl
@[simp] theorem State.setTag_fresh (s : State) (t : L2Tag) : (s.setTag t).fresh = s.fresh := rfl
@[simp] theorem State.setTag_mem (s : State) (t : L2Tag) : (s.setTag t).mem = s.mem := rfl
@[simp] theorem State.setTag_poison (s : State) (t : L2Tag) : (s.setTag t).poison = s.poison := rfl
@[simp] theorem State.setTag_fog (s : State) (t : L2Tag) : (s.setTag t).fog = s.fog := rfl
@[simp] theorem State.setTag_fogged (s : State) (t : L2Tag) : (s.setTag t).fogged = s.fogged := rfl
@[simp] theorem State.setTag_adie (s : State) (t : L2Tag) : (s.setTag t).adie = s.adie := rfl
@[simp] theorem State.setTag_cus (s : State) (t : L2Tag) : (s.setTag t).cus = s.cus := rfl
@[simp] theorem State.setTag_l2 (s : State) (t : L2Tag) : (s.setTag t).l2 = s.l2.map fun u => if u.line = t.line then t else u := rfl
@[simp] theorem State.setTag_replay (s : State) (t : L2Tag) : (s.setTag t).replay = s.replay := rfl
@[simp] theorem State.setTag_merges (s : State) (t : L2Tag) : (s.setTag t).merges = s.merges := rfl
@[simp] theorem State.setTag_partq (s : State) (t : L2Tag) : (s.setTag t).partq = s.partq := rfl
@[simp] theorem State.setTag_xfers (s : State) (t : L2Tag) : (s.setTag t).xfers = s.xfers := rfl
@[simp] theorem State.setTag_counters (s : State) (t : L2Tag) : (s.setTag t).counters = s.counters := rfl
@[simp] theorem State.setTag_launches (s : State) (t : L2Tag) : (s.setTag t).launches = s.launches := rfl
@[simp] theorem State.setTag_queues (s : State) (t : L2Tag) : (s.setTag t).queues = s.queues := rfl
@[simp] theorem State.setTag_levels (s : State) (t : L2Tag) : (s.setTag t).levels = s.levels := rfl
@[simp] theorem State.setTag_order (s : State) (t : L2Tag) : (s.setTag t).order = s.order := rfl
@[simp] theorem State.setTag_buckets (s : State) (t : L2Tag) : (s.setTag t).buckets = s.buckets := rfl
@[simp] theorem State.setTag_last (s : State) (t : L2Tag) : (s.setTag t).last = s.last := rfl
@[simp] theorem State.setTag_windows (s : State) (t : L2Tag) : (s.setTag t).windows = s.windows := rfl
@[simp] theorem State.setTag_drains (s : State) (t : L2Tag) : (s.setTag t).drains = s.drains := rfl
@[simp] theorem State.setTag_excluded (s : State) (t : L2Tag) : (s.setTag t).excluded = s.excluded := rfl
@[simp] theorem State.setTag_roots (s : State) (t : L2Tag) : (s.setTag t).roots = s.roots := rfl
@[simp] theorem State.setTag_out (s : State) (t : L2Tag) : (s.setTag t).out = s.out := rfl
@[simp] theorem State.setTag_crit (s : State) (t : L2Tag) : (s.setTag t).crit = s.crit := rfl
@[simp] theorem State.setTag_posts (s : State) (t : L2Tag) : (s.setTag t).posts = s.posts := rfl
@[simp] theorem State.setTag_trace (s : State) (t : L2Tag) : (s.setTag t).trace = s.trace := rfl
@[simp] theorem State.setTag_asked (s : State) (t : L2Tag) : (s.setTag t).asked = s.asked := rfl
@[simp] theorem State.setTag_sendq (s : State) (t : L2Tag) : (s.setTag t).sendq = s.sendq := rfl
@[simp] theorem State.setTag_ports (s : State) (t : L2Tag) : (s.setTag t).ports = s.ports := rfl
@[simp] theorem State.setTag_peerIn (s : State) (t : L2Tag) : (s.setTag t).peerIn = s.peerIn := rfl
@[simp] theorem State.setTag_borrowq (s : State) (t : L2Tag) : (s.setTag t).borrowq = s.borrowq := rfl
@[simp] theorem State.setTag_revoked (s : State) (t : L2Tag) : (s.setTag t).revoked = s.revoked := rfl
@[simp] theorem State.setTag_migs (s : State) (t : L2Tag) : (s.setTag t).migs = s.migs := rfl
@[simp] theorem State.setTag_boot (s : State) (t : L2Tag) : (s.setTag t).boot = s.boot := rfl
@[simp] theorem State.setTag_halted (s : State) (t : L2Tag) : (s.setTag t).halted = s.halted := rfl
@[simp] theorem State.setTag_serial (s : State) (t : L2Tag) : (s.setTag t).serial = s.serial := rfl
@[simp] theorem State.setTag_split (s : State) (t : L2Tag) : (s.setTag t).split = s.split := rfl
@[simp] theorem State.setTag_found (s : State) (t : L2Tag) : (s.setTag t).found = s.found := rfl
@[simp] theorem State.setTag_caps (s : State) (t : L2Tag) : (s.setTag t).caps = s.caps := rfl
@[simp] theorem State.setTag_measures (s : State) (t : L2Tag) : (s.setTag t).measures = s.measures := rfl
@[simp] theorem State.setTag_attq (s : State) (t : L2Tag) : (s.setTag t).attq = s.attq := rfl
@[simp] theorem State.setTag_cntsel (s : State) (t : L2Tag) : (s.setTag t).cntsel = s.cntsel := rfl
@[simp] theorem State.setTag_ologs (s : State) (t : L2Tag) : (s.setTag t).ologs = s.ologs := rfl
@[simp] theorem State.setTag_ckpts (s : State) (t : L2Tag) : (s.setTag t).ckpts = s.ckpts := rfl

/-! ### say -/

@[simp] theorem State.say_me (s : State) (m : Msg) : (s.say m).me = s.me := rfl
@[simp] theorem State.say_others (s : State) (m : Msg) : (s.say m).others = s.others := rfl
@[simp] theorem State.say_agenda (s : State) (m : Msg) : (s.say m).agenda = s.agenda := rfl
@[simp] theorem State.say_pins (s : State) (m : Msg) : (s.say m).pins = s.pins := rfl
@[simp] theorem State.say_now (s : State) (m : Msg) : (s.say m).now = s.now := rfl
@[simp] theorem State.say_fresh (s : State) (m : Msg) : (s.say m).fresh = s.fresh := rfl
@[simp] theorem State.say_mem (s : State) (m : Msg) : (s.say m).mem = s.mem := rfl
@[simp] theorem State.say_poison (s : State) (m : Msg) : (s.say m).poison = s.poison := rfl
@[simp] theorem State.say_fog (s : State) (m : Msg) : (s.say m).fog = s.fog := rfl
@[simp] theorem State.say_fogged (s : State) (m : Msg) : (s.say m).fogged = s.fogged := rfl
@[simp] theorem State.say_adie (s : State) (m : Msg) : (s.say m).adie = s.adie := rfl
@[simp] theorem State.say_cus (s : State) (m : Msg) : (s.say m).cus = s.cus := rfl
@[simp] theorem State.say_l2 (s : State) (m : Msg) : (s.say m).l2 = s.l2 := rfl
@[simp] theorem State.say_replay (s : State) (m : Msg) : (s.say m).replay = s.replay := rfl
@[simp] theorem State.say_merges (s : State) (m : Msg) : (s.say m).merges = s.merges := rfl
@[simp] theorem State.say_partq (s : State) (m : Msg) : (s.say m).partq = s.partq := rfl
@[simp] theorem State.say_xfers (s : State) (m : Msg) : (s.say m).xfers = s.xfers := rfl
@[simp] theorem State.say_counters (s : State) (m : Msg) : (s.say m).counters = s.counters := rfl
@[simp] theorem State.say_launches (s : State) (m : Msg) : (s.say m).launches = s.launches := rfl
@[simp] theorem State.say_queues (s : State) (m : Msg) : (s.say m).queues = s.queues := rfl
@[simp] theorem State.say_levels (s : State) (m : Msg) : (s.say m).levels = s.levels := rfl
@[simp] theorem State.say_order (s : State) (m : Msg) : (s.say m).order = s.order := rfl
@[simp] theorem State.say_buckets (s : State) (m : Msg) : (s.say m).buckets = s.buckets := rfl
@[simp] theorem State.say_last (s : State) (m : Msg) : (s.say m).last = s.last := rfl
@[simp] theorem State.say_windows (s : State) (m : Msg) : (s.say m).windows = s.windows := rfl
@[simp] theorem State.say_drains (s : State) (m : Msg) : (s.say m).drains = s.drains := rfl
@[simp] theorem State.say_excluded (s : State) (m : Msg) : (s.say m).excluded = s.excluded := rfl
@[simp] theorem State.say_roots (s : State) (m : Msg) : (s.say m).roots = s.roots := rfl
@[simp] theorem State.say_out (s : State) (m : Msg) : (s.say m).out = m :: s.out := rfl
@[simp] theorem State.say_crit (s : State) (m : Msg) : (s.say m).crit = s.crit := rfl
@[simp] theorem State.say_posts (s : State) (m : Msg) : (s.say m).posts = s.posts := rfl
@[simp] theorem State.say_trace (s : State) (m : Msg) : (s.say m).trace = s.trace := rfl
@[simp] theorem State.say_asked (s : State) (m : Msg) : (s.say m).asked = s.asked := rfl
@[simp] theorem State.say_sendq (s : State) (m : Msg) : (s.say m).sendq = s.sendq := rfl
@[simp] theorem State.say_ports (s : State) (m : Msg) : (s.say m).ports = s.ports := rfl
@[simp] theorem State.say_peerIn (s : State) (m : Msg) : (s.say m).peerIn = s.peerIn := rfl
@[simp] theorem State.say_borrowq (s : State) (m : Msg) : (s.say m).borrowq = s.borrowq := rfl
@[simp] theorem State.say_revoked (s : State) (m : Msg) : (s.say m).revoked = s.revoked := rfl
@[simp] theorem State.say_migs (s : State) (m : Msg) : (s.say m).migs = s.migs := rfl
@[simp] theorem State.say_boot (s : State) (m : Msg) : (s.say m).boot = s.boot := rfl
@[simp] theorem State.say_halted (s : State) (m : Msg) : (s.say m).halted = s.halted := rfl
@[simp] theorem State.say_serial (s : State) (m : Msg) : (s.say m).serial = s.serial := rfl
@[simp] theorem State.say_split (s : State) (m : Msg) : (s.say m).split = s.split := rfl
@[simp] theorem State.say_found (s : State) (m : Msg) : (s.say m).found = s.found := rfl
@[simp] theorem State.say_caps (s : State) (m : Msg) : (s.say m).caps = s.caps := rfl
@[simp] theorem State.say_measures (s : State) (m : Msg) : (s.say m).measures = s.measures := rfl
@[simp] theorem State.say_attq (s : State) (m : Msg) : (s.say m).attq = s.attq := rfl
@[simp] theorem State.say_cntsel (s : State) (m : Msg) : (s.say m).cntsel = s.cntsel := rfl
@[simp] theorem State.say_ologs (s : State) (m : Msg) : (s.say m).ologs = s.ologs := rfl
@[simp] theorem State.say_ckpts (s : State) (m : Msg) : (s.say m).ckpts = s.ckpts := rfl

/-! ### setSent -/

@[simp] theorem State.setSent_me (s : State) (p : Nat) (l : List PeerReq) : (s.setSent p l).me = s.me := rfl
@[simp] theorem State.setSent_others (s : State) (p : Nat) (l : List PeerReq) : (s.setSent p l).others = s.others := rfl
@[simp] theorem State.setSent_agenda (s : State) (p : Nat) (l : List PeerReq) : (s.setSent p l).agenda = s.agenda := rfl
@[simp] theorem State.setSent_pins (s : State) (p : Nat) (l : List PeerReq) : (s.setSent p l).pins = s.pins := rfl
@[simp] theorem State.setSent_now (s : State) (p : Nat) (l : List PeerReq) : (s.setSent p l).now = s.now := rfl
@[simp] theorem State.setSent_fresh (s : State) (p : Nat) (l : List PeerReq) : (s.setSent p l).fresh = s.fresh := rfl
@[simp] theorem State.setSent_mem (s : State) (p : Nat) (l : List PeerReq) : (s.setSent p l).mem = s.mem := rfl
@[simp] theorem State.setSent_poison (s : State) (p : Nat) (l : List PeerReq) : (s.setSent p l).poison = s.poison := rfl
@[simp] theorem State.setSent_fog (s : State) (p : Nat) (l : List PeerReq) : (s.setSent p l).fog = s.fog := rfl
@[simp] theorem State.setSent_fogged (s : State) (p : Nat) (l : List PeerReq) : (s.setSent p l).fogged = s.fogged := rfl
@[simp] theorem State.setSent_adie (s : State) (p : Nat) (l : List PeerReq) : (s.setSent p l).adie = s.adie := rfl
@[simp] theorem State.setSent_cus (s : State) (p : Nat) (l : List PeerReq) : (s.setSent p l).cus = s.cus := rfl
@[simp] theorem State.setSent_l2 (s : State) (p : Nat) (l : List PeerReq) : (s.setSent p l).l2 = s.l2 := rfl
@[simp] theorem State.setSent_replay (s : State) (p : Nat) (l : List PeerReq) : (s.setSent p l).replay = s.replay := rfl
@[simp] theorem State.setSent_merges (s : State) (p : Nat) (l : List PeerReq) : (s.setSent p l).merges = s.merges := rfl
@[simp] theorem State.setSent_partq (s : State) (p : Nat) (l : List PeerReq) : (s.setSent p l).partq = s.partq := rfl
@[simp] theorem State.setSent_xfers (s : State) (p : Nat) (l : List PeerReq) : (s.setSent p l).xfers = s.xfers := rfl
@[simp] theorem State.setSent_counters (s : State) (p : Nat) (l : List PeerReq) : (s.setSent p l).counters = s.counters := rfl
@[simp] theorem State.setSent_launches (s : State) (p : Nat) (l : List PeerReq) : (s.setSent p l).launches = s.launches := rfl
@[simp] theorem State.setSent_queues (s : State) (p : Nat) (l : List PeerReq) : (s.setSent p l).queues = s.queues := rfl
@[simp] theorem State.setSent_levels (s : State) (p : Nat) (l : List PeerReq) : (s.setSent p l).levels = s.levels := rfl
@[simp] theorem State.setSent_order (s : State) (p : Nat) (l : List PeerReq) : (s.setSent p l).order = s.order := rfl
@[simp] theorem State.setSent_buckets (s : State) (p : Nat) (l : List PeerReq) : (s.setSent p l).buckets = s.buckets := rfl
@[simp] theorem State.setSent_last (s : State) (p : Nat) (l : List PeerReq) : (s.setSent p l).last = s.last := rfl
@[simp] theorem State.setSent_windows (s : State) (p : Nat) (l : List PeerReq) : (s.setSent p l).windows = s.windows := rfl
@[simp] theorem State.setSent_drains (s : State) (p : Nat) (l : List PeerReq) : (s.setSent p l).drains = s.drains := rfl
@[simp] theorem State.setSent_excluded (s : State) (p : Nat) (l : List PeerReq) : (s.setSent p l).excluded = s.excluded := rfl
@[simp] theorem State.setSent_roots (s : State) (p : Nat) (l : List PeerReq) : (s.setSent p l).roots = s.roots := rfl
@[simp] theorem State.setSent_out (s : State) (p : Nat) (l : List PeerReq) : (s.setSent p l).out = s.out := rfl
@[simp] theorem State.setSent_crit (s : State) (p : Nat) (l : List PeerReq) : (s.setSent p l).crit = s.crit := rfl
@[simp] theorem State.setSent_posts (s : State) (p : Nat) (l : List PeerReq) : (s.setSent p l).posts = s.posts := rfl
@[simp] theorem State.setSent_trace (s : State) (p : Nat) (l : List PeerReq) : (s.setSent p l).trace = s.trace := rfl
@[simp] theorem State.setSent_asked (s : State) (p : Nat) (l : List PeerReq) : (s.setSent p l).asked = s.asked := rfl
@[simp] theorem State.setSent_sendq (s : State) (p : Nat) (l : List PeerReq) : (s.setSent p l).sendq = s.sendq := rfl
@[simp] theorem State.setSent_ports (s : State) (p : Nat) (l : List PeerReq) : (s.setSent p l).ports = Assoc.put [] p l s.ports := rfl
@[simp] theorem State.setSent_peerIn (s : State) (p : Nat) (l : List PeerReq) : (s.setSent p l).peerIn = s.peerIn := rfl
@[simp] theorem State.setSent_borrowq (s : State) (p : Nat) (l : List PeerReq) : (s.setSent p l).borrowq = s.borrowq := rfl
@[simp] theorem State.setSent_revoked (s : State) (p : Nat) (l : List PeerReq) : (s.setSent p l).revoked = s.revoked := rfl
@[simp] theorem State.setSent_migs (s : State) (p : Nat) (l : List PeerReq) : (s.setSent p l).migs = s.migs := rfl
@[simp] theorem State.setSent_boot (s : State) (p : Nat) (l : List PeerReq) : (s.setSent p l).boot = s.boot := rfl
@[simp] theorem State.setSent_halted (s : State) (p : Nat) (l : List PeerReq) : (s.setSent p l).halted = s.halted := rfl
@[simp] theorem State.setSent_serial (s : State) (p : Nat) (l : List PeerReq) : (s.setSent p l).serial = s.serial := rfl
@[simp] theorem State.setSent_split (s : State) (p : Nat) (l : List PeerReq) : (s.setSent p l).split = s.split := rfl
@[simp] theorem State.setSent_found (s : State) (p : Nat) (l : List PeerReq) : (s.setSent p l).found = s.found := rfl
@[simp] theorem State.setSent_caps (s : State) (p : Nat) (l : List PeerReq) : (s.setSent p l).caps = s.caps := rfl
@[simp] theorem State.setSent_measures (s : State) (p : Nat) (l : List PeerReq) : (s.setSent p l).measures = s.measures := rfl
@[simp] theorem State.setSent_attq (s : State) (p : Nat) (l : List PeerReq) : (s.setSent p l).attq = s.attq := rfl
@[simp] theorem State.setSent_cntsel (s : State) (p : Nat) (l : List PeerReq) : (s.setSent p l).cntsel = s.cntsel := rfl
@[simp] theorem State.setSent_ologs (s : State) (p : Nat) (l : List PeerReq) : (s.setSent p l).ologs = s.ologs := rfl
@[simp] theorem State.setSent_ckpts (s : State) (p : Nat) (l : List PeerReq) : (s.setSent p l).ckpts = s.ckpts := rfl

end Sys2Proof.Machine
end

