-- ==== Sys2Proof/Laws/Memory.lean ====
section
/-! SUPPORT. Laws of memory: the canonical form, and reads after writes at the home slices. -/

namespace Sys2Proof.Machine

/-! ### The canonical form -/

theorem State.setHomeByte_memOk {s : State} (h : s.memOk) (a : Nat) (b : Byte) : (s.setHomeByte a b).memOk :=
  Assoc.wf_put byteDefault b a h

theorem State.setHomeBytes_memOk : ∀ (l : List Byte) {s : State} (_ : s.memOk) (a : Nat), (s.setHomeBytes a l).memOk
  | [], _, h, _ => h
  | b :: l, _, h, a => State.setHomeBytes_memOk l (State.setHomeByte_memOk h a b) (a + 1)

theorem State.makeFog_memOk {s : State} (h : s.memOk) (lo hi : Nat) : (s.makeFog lo hi).memOk :=
  Assoc.wf_filter byteDefault _ h

/-- An update that leaves the list of memory keeps its form. -/
theorem State.memOk_of_mem {s t : State} (h : s.memOk) (e : t.mem = s.mem) : t.memOk := by
  unfold State.memOk at *; rw [e]; exact h

/-! ### Bytes written in a row -/

/-- What a write of bytes leaves alone: every field but `mem` and `fogged`. -/
theorem State.setHomeBytes_frame : ∀ (l : List Byte) (s : State) (a : Nat),
    s.setHomeBytes a l = { s with mem := (s.setHomeBytes a l).mem, fogged := (s.setHomeBytes a l).fogged }
  | [], _, _ => rfl
  | b :: l, s, a => by
    rw [State.setHomeBytes, State.setHomeBytes_frame l (s.setHomeByte a b) (a + 1)]
    rfl

@[simp] theorem State.setHomeBytes_me (s : State) (a : Nat) (l : List Byte) : (s.setHomeBytes a l).me = s.me := by
  rw [State.setHomeBytes_frame]
@[simp] theorem State.setHomeBytes_adie (s : State) (a : Nat) (l : List Byte) : (s.setHomeBytes a l).adie = s.adie := by
  rw [State.setHomeBytes_frame]
@[simp] theorem State.setHomeBytes_l2 (s : State) (a : Nat) (l : List Byte) : (s.setHomeBytes a l).l2 = s.l2 := by
  rw [State.setHomeBytes_frame]
@[simp] theorem State.setHomeBytes_cus (s : State) (a : Nat) (l : List Byte) : (s.setHomeBytes a l).cus = s.cus := by
  rw [State.setHomeBytes_frame]
@[simp] theorem State.setHomeBytes_fog (s : State) (a : Nat) (l : List Byte) : (s.setHomeBytes a l).fog = s.fog := by
  rw [State.setHomeBytes_frame]

/-! ### Reads after writes -/

theorem State.homeByte_setHomeByte_self {s : State} (h : s.memOk) (a : Nat) (b : Byte) :
    (s.setHomeByte a b).homeByte a = b := by
  have g : Assoc.get byteDefault a (Assoc.put byteDefault a b s.mem) = b := Assoc.get_put_self byteDefault b a h
  unfold State.homeByte
  simp only [State.setHomeByte_fog, State.setHomeByte_mem, g]
  cases e : s.fog.find? fun f => decide (f.lo ≤ a) && decide (a < f.hi) with
  | none => rfl
  | some f =>
    have hany : (s.fog.any fun f => decide (f.lo ≤ a) && decide (a < f.hi)) = true := by
      rw [List.any_eq_true]
      exact ⟨f, List.mem_of_find?_eq_some e, by simpa using List.find?_some e⟩
    have : (s.setHomeByte a b).fogged.contains a = true := by
      unfold State.setHomeByte
      simp only [hany, Bool.true_and]
      cases hc : s.fogged.contains a <;> simp at hc ⊢; exact hc
    rw [this]; rfl

theorem State.homeByte_setHomeByte_other {s : State} (h : s.memOk) {a i : Nat} (b : Byte) (hi : i ≠ a) :
    (s.setHomeByte a b).homeByte i = s.homeByte i := by
  have g : Assoc.get byteDefault i (Assoc.put byteDefault a b s.mem) = Assoc.get byteDefault i s.mem :=
    Assoc.get_put_other byteDefault b hi h
  have f : (s.setHomeByte a b).fogged.contains i = s.fogged.contains i := by
    unfold State.setHomeByte
    dsimp only
    split
    · simp [hi]
    · rfl
  unfold State.homeByte
  simp only [State.setHomeByte_fog, State.setHomeByte_mem, g, f]

/-- A write of bytes leaves every other byte as it was. -/
theorem State.homeByte_setHomeBytes_other : ∀ (l : List Byte) {s : State} (_ : s.memOk) (a : Nat) {i : Nat}
    (_ : i < a ∨ a + l.length ≤ i), (s.setHomeBytes a l).homeByte i = s.homeByte i
  | [], _, _, _, _, _ => rfl
  | b :: l, s, h, a, i, hi => by
    simp only [List.length_cons] at hi
    rw [State.setHomeBytes, State.homeByte_setHomeBytes_other l (State.setHomeByte_memOk h a b) (a + 1) (by omega),
      State.homeByte_setHomeByte_other h b (by omega)]

/-- What was written is what is read. -/
theorem State.homeByte_setHomeBytes (l : List Byte) : ∀ {s : State} (_ : s.memOk) (a i : Nat) (hi : i < l.length),
    (s.setHomeBytes a l).homeByte (a + i) = l[i] := by
  induction l with
  | nil => intro s _ a i hi; exact absurd hi (Nat.not_lt_zero i)
  | cons b l ih =>
    intro s h a i hi
    rw [State.setHomeBytes]
    cases i with
    | zero =>
      rw [State.homeByte_setHomeBytes_other l (State.setHomeByte_memOk h a b) (a + 1) (by omega)]
      exact State.homeByte_setHomeByte_self h a b
    | succ i =>
      have := ih (State.setHomeByte_memOk h a b) (a + 1) i (by simpa using hi)
      rw [show a + (i + 1) = a + 1 + i by omega, this]
      rfl

theorem State.homeBytes_setHomeBytes (l : List Byte) {s : State} (h : s.memOk) (a : Nat) :
    (s.setHomeBytes a l).homeBytes a l.length = l := by
  apply List.ext_getElem
  · simp [State.homeBytes]
  · intro i h1 h2
    simp only [State.homeBytes, List.getElem_map, List.getElem_range]
    exact State.homeByte_setHomeBytes l h a i h2

/-! ### Registers of the A-die -/

theorem lookup_putReg_other {a b : Nat} (v : Word) (h : b ≠ a) :
    ∀ l : List (Nat × Word), (putReg a v l).lookup b = l.lookup b
  | [] => by
    have h' : (b == a) = false := by simpa using h
    unfold putReg; split
    · rfl
    · simp [List.lookup, h']
  | (c, w) :: l => by
    have h' : (b == a) = false := by simpa using h
    unfold putReg
    split
    · simp only [List.lookup]; split
      · rfl
      · exact lookup_putReg_other v h l
    · split
      · rename_i e; subst e
        split <;> simp [List.lookup, h']
      · split <;> simp [List.lookup, h']

/-- A register write leaves every other register as it was. -/
theorem State.reg_setReg_other (s : State) {a b : Nat} (v : Word) (h : b ≠ a) : (s.setReg a v).reg b = s.reg b := by
  unfold State.reg
  rw [State.setReg_adie, lookup_putReg_other v h]

theorem lookup_above {b : Nat} : ∀ {l : List (Nat × Word)} {lo : Nat}, Regs.wfFrom lo l = true → b < lo → l.lookup b = none
  | [], _, _, _ => rfl
  | (c, w) :: l, lo, hw, h => by
    simp only [Regs.wfFrom, Bool.and_eq_true, decide_eq_true_eq] at hw
    have : (b == c) = false := by simp; omega
    simp [List.lookup, this, lookup_above hw.2 (show b < c + 1 by omega)]

theorem lookup_putReg_self {a : Nat} (v : Word) : ∀ {l : List (Nat × Word)} {lo : Nat}, Regs.wfFrom lo l = true →
    ((putReg a v l).lookup a).getD (regReset a) = v
  | [], _, _ => by
    unfold putReg; split
    · rename_i e; simp [List.lookup, e]
    · simp [List.lookup]
  | (c, w) :: l, lo, hw => by
    simp only [Regs.wfFrom, Bool.and_eq_true, decide_eq_true_eq] at hw
    unfold putReg
    split
    · have : (a == c) = false := by simp; omega
      simp [List.lookup, this, lookup_putReg_self v hw.2]
    · split
      · rename_i e; subst e
        split
        · rename_i e; simp [lookup_above hw.2 (show c < c + 1 by omega), e]
        · simp [List.lookup]
      · split
        · rename_i e
          have : (a == c) = false := by simp; omega
          simp [List.lookup, this, lookup_above hw.2 (show a < c + 1 by omega), e]
        · simp [List.lookup]

/-- A register write is read back, where the register list stands in its canonical form. -/
theorem State.reg_setReg_self {s : State} (h : s.regsOk) (a : Nat) (v : Word) : (s.setReg a v).reg a = v := by
  unfold State.reg
  rw [State.setReg_adie]
  exact lookup_putReg_self v h

theorem Regs.wfFrom_mono {a b : Nat} (h : a ≤ b) : ∀ {l : List (Nat × Word)}, Regs.wfFrom b l = true → Regs.wfFrom a l = true
  | [], _ => rfl
  | (j, v) :: l, hw => by
    simp only [Regs.wfFrom, Bool.and_eq_true, decide_eq_true_eq] at hw ⊢
    exact ⟨⟨by omega, hw.1.2⟩, hw.2⟩

theorem Regs.wfFrom_put {a : Nat} (v : Word) : ∀ {l : List (Nat × Word)} {lo : Nat}, lo ≤ a → Regs.wfFrom lo l = true →
    Regs.wfFrom lo (putReg a v l) = true
  | [], lo, hk, _ => by
    by_cases h : v = regReset a <;> simp [putReg, Regs.wfFrom, h, hk]
  | (j, w) :: l, lo, hk, hw => by
    simp only [Regs.wfFrom, Bool.and_eq_true, decide_eq_true_eq] at hw
    by_cases h1 : j < a
    · have := Regs.wfFrom_put v (show j + 1 ≤ a by omega) hw.2
      simp [putReg, Regs.wfFrom, h1, hw.1.1, hw.1.2, this]
    · by_cases h2 : j = a
      · subst h2
        by_cases h : v = regReset j
        · simpa [putReg, h] using Regs.wfFrom_mono (show lo ≤ j + 1 by omega) hw.2
        · simp [putReg, Regs.wfFrom, h, hk, hw.2]
      · by_cases h : v = regReset a
        · simp [putReg, Regs.wfFrom, h1, h2, h, hw.1.1, hw.1.2, hw.2]
        · have : a + 1 ≤ j := by omega
          simp [putReg, Regs.wfFrom, h1, h2, h, hk, hw.1.2, hw.2, this]

theorem State.setReg_regsOk {s : State} (h : s.regsOk) (a : Nat) (v : Word) : (s.setReg a v).regsOk :=
  Regs.wfFrom_put v (Nat.zero_le a) h

end Sys2Proof.Machine
end

