-- ==== Sys2Proof/Laws/Strand.lean ====
section
/-! SUPPORT. What an access of memory leaves of the strand: everything but its descriptor cache, its share and its record of
vector stores. -/

namespace Sys2Proof.Machine

@[simp] theorem State.charge_me (s : State) (a : Arbiter) (v n : Nat) : (s.charge a v n).me = s.me := by
  unfold State.charge; dsimp only; (repeat' split) <;> simp

@[simp] theorem State.countReg_me (s : State) (a w : Nat) : (s.countReg a w).me = s.me := by
  unfold State.countReg; (repeat' split) <;> simp

@[simp] theorem State.countPch_me (s : State) (m line : Nat) (wr : Bool) : (s.countPch m line wr).me = s.me := by
  unfold State.countPch; dsimp only; (repeat' split) <;> simp

@[simp] theorem State.setPoison_me (s : State) (l : Nat) (b : Bool) : (s.setPoison l b).me = s.me := by
  unfold State.setPoison; (repeat' split) <;> simp

@[simp] theorem State.evict_me (s : State) (t : L2Tag) : (s.evict t).me = s.me := by
  unfold State.evict; dsimp only; (repeat' split) <;> simp

@[simp] theorem State.takeWay_me (s : State) (n : Nat) (l : List Nat) : (s.takeWay n l).1.me = s.me := by
  unfold State.takeWay; dsimp only; (repeat' split) <;> simp

@[simp] theorem State.pushTag_me (s : State) (t : L2Tag) (c : Nat) : (s.pushTag t c).me = s.me := by
  rfl

@[simp] theorem State.touchL2_me (s : State) (m line : Nat) (wr : Bool) (cp : Nat) : (s.touchL2 m line wr cp).me = s.me := by
  unfold State.touchL2; dsimp only; (repeat' split) <;> simp

@[simp] theorem State.fixZero_me (s : State) (m line : Nat) : (s.fixZero m line).me = s.me := by
  unfold State.fixZero; dsimp only; (repeat' split) <;> simp

@[simp] theorem State.homeWrite_me (s : State) (m a : Nat) (l : List Byte) (cp : Nat) : (s.homeWrite m a l cp).me = s.me := by
  unfold State.homeWrite; dsimp only; (repeat' split) <;> simp

@[simp] theorem State.homeRead_me (s : State) (m a n cp : Nat) : (s.homeRead m a n cp).1.me = s.me := by
  unfold State.homeRead; dsimp only; (repeat' split) <;> simp

@[simp] theorem State.zeroLine_me (s : State) (m line : Nat) : (s.zeroLine m line).me = s.me := by
  unfold State.zeroLine; dsimp only; (repeat' split) <;> simp

theorem foldl_me {α : Type} (f : State → α → State) (hf : ∀ s x, (f s x).me = s.me) (l : List α) (s : State) :
    (l.foldl f s).me = s.me := by
  induction l generalizing s with
  | nil => rfl
  | cons x l ih => rw [List.foldl_cons, ih, hf]

@[simp] theorem State.writeBack_me (s : State) (l : WLine) : (s.writeBack l).me = s.me := by
  unfold State.writeBack; split
  · simp
  · rw [State.fixZero_me]; exact (foldl_me (fun s (c : Nat × Byte) => s.setHomeByte c.1 c.2) (fun _ _ => rfl) _ _).trans (State.touchL2_me _ _ _ _ _)

@[simp] theorem State.drainWcb_me (s : State) (k : Nat) : (s.drainWcb k).me = s.me := by
  unfold State.drainWcb; rw [foldl_me _ State.writeBack_me]; rfl

@[simp] theorem State.fillL1_me (s : State) (k slot line : Nat) : (s.fillL1 k slot line).me = s.me := by
  unfold State.fillL1; dsimp only; (repeat' split) <;> simp

@[simp] theorem State.cuRead_me (s : State) (m k slot a n cp : Nat) (y o : Bool) : (s.cuRead m k slot a n cp y o).1.me = s.me := by
  unfold State.cuRead; dsimp only; (repeat' split) <;> simp

@[simp] theorem State.cuWrite_me (s : State) (m ctx incn k a cp : Nat) (l : List Byte) : (s.cuWrite m ctx incn k a cp l).me = s.me := by
  unfold State.cuWrite; dsimp only; (repeat' split) <;> simp

theorem State.enterWcb_me (x : State × List WLine) (l : WLine) : (State.enterWcb x l).1.me = x.1.me := by
  unfold State.enterWcb; dsimp only; (repeat' split) <;> simp_all

@[simp] theorem State.settleWcb_me (s : State) (k : Nat) : (s.settleWcb k).me = s.me := by
  have h : ∀ (l : List WLine) (x : State × List WLine), (l.foldl State.enterWcb x).1.me = x.1.me := by
    intro l
    induction l with
    | nil => exact fun _ => rfl
    | cons w l ih => exact fun x => (ih _).trans (State.enterWcb_me x w)
  exact h _ _

@[simp] theorem State.flushLine_me (s : State) (k line : Nat) : (s.flushLine k line).me = s.me := by
  unfold State.flushLine; dsimp only; (repeat' split) <;> simp

@[simp] theorem State.patchL1_me (s : State) (k a : Nat) (l : List Byte) : (s.patchL1 k a l).me = s.me := by
  rfl

@[simp] theorem State.setCuShare_me (s : State) (f : List Host.Cell → List Host.Cell) : (s.setCuShare f).me = s.me := by
  rfl

@[simp] theorem State.askPeer_me (s : State) (w : Who) (i a : Nat) (op : MemOp) : (s.askPeer w i a op).1.me = s.me := by
  unfold State.askPeer; (repeat' split) <;> rfl

@[simp] theorem State.homeLoc_me (s : State) (l : Loc) (n cp : Nat) : (s.homeLoc l n cp).1.me = s.me := by
  unfold State.homeLoc; dsimp only; (repeat' split) <;> simp

@[simp] theorem State.orderLogOf_me (s : State) (v i : Nat) (n : Word) (x : LogData) : (s.orderLogOf v i n x).me = s.me := by
  unfold State.orderLogOf; dsimp only; (repeat' split) <;> simp

@[simp] theorem State.orderLog_me (s : State) (x : LogData) : (s.orderLog x).me = s.me := by
  unfold State.orderLog; simp

@[simp] theorem State.logAtomic_me (s : State) (l : Loc) (d : Desc) : (s.logAtomic l d).me = s.me := by
  unfold State.logAtomic; (repeat' split) <;> simp

@[simp] theorem State.enqueue_me (s : State) (w : Waiting) : (s.enqueue w).me = s.me := by
  unfold State.enqueue; split <;> rfl

@[simp] theorem State.waitFor_me (s : State) (w : WaitWhy) (line lease slot : Nat) (g : BitVec 16) (o : Int) (v wr : Bool) :
    (s.waitFor w line lease slot g o v wr).me = s.me := State.enqueue_me _ _

@[simp] theorem State.markWait_me (s : State) (f : Waiting → Waiting) : (s.markWait f).me = s.me := by
  rfl

@[simp] theorem State.dropCopies_me (s : State) (c i line : Nat) : (s.dropCopies c i line).me = s.me := by
  unfold State.dropCopies; rw [foldl_me]; intro s k; rfl

@[simp] theorem State.writeMerged_me (s : State) (vd c i line : Nat) (v : BitVec 1024) : (s.writeMerged vd c i line v).me = s.me := by
  unfold State.writeMerged; dsimp only; split <;> simp

@[simp] theorem State.mergeNow_me (s : State) (w : PartWait) : (s.mergeNow w).me = s.me := by
  unfold State.mergeNow; simp

@[simp] theorem State.closeMerge_me (s : State) (e : Merge) : (s.closeMerge e).me = s.me := by
  unfold State.closeMerge; dsimp only; rw [State.writeMerged_me]

@[simp] theorem State.mergePart_me (s : State) (c i vd line n : Nat) (p : Part) : (s.mergePart c i vd line n p).1.me = s.me := by
  unfold State.mergePart; dsimp only; (repeat' split) <;> simp

@[simp] theorem State.arrive_me (s : State) (w : PartWait) : (s.arrive w).1.me = s.me := by
  unfold State.arrive; (repeat' split) <;> simp

@[simp] theorem State.retryPart_me (s : State) (w : PartWait) : (s.retryPart w).me = s.me := by
  unfold State.retryPart; dsimp only; (repeat' split) <;> simp

@[simp] theorem State.retryParts_me (s : State) : s.retryParts.me = s.me := by
  unfold State.retryParts; rw [foldl_me _ State.retryPart_me]

@[simp] theorem State.sendPart_me (s : State) (slot : Nat) (d : Desc) (line n : Nat) (p : Part) :
    (s.sendPart slot d line n p).me = s.me := by
  unfold State.sendPart; dsimp only; (repeat' split) <;> simp

@[simp] theorem State.performOrder_me (s : State) (oe : Bool) (ref : Nat → Ref) (n : Nat) (l : List Nat) : (performOrder s oe ref n l).2.me = s.me := by
  unfold performOrder; (repeat' split) <;> simp

@[simp] theorem State.coverLines_me (s : State) (n : Nat) (l : List Loc) : (s.coverLines n l).me = s.me := by
  unfold State.coverLines; rw [foldl_me]; intro s x; split <;> simp

/-- The strand as before, but for its descriptor cache, its share and its record of vector stores. -/
def State.keepsMe (s t : State) : Prop := t.me = { s.me with dcache := t.me.dcache, share := t.me.share, older := t.me.older }

theorem State.keepsMe_of_me {s t : State} (h : t.me = s.me) : s.keepsMe t := by unfold State.keepsMe; rw [h]

theorem State.keepsMe_refl (s : State) : s.keepsMe s := rfl

theorem State.keepsMe_trans {s t u : State} (h : s.keepsMe t) (g : t.keepsMe u) : s.keepsMe u := by
  unfold State.keepsMe at *; rw [g, h]

theorem State.keepsMe_then {s t u : State} (h : s.keepsMe t) (g : u.me = t.me) : s.keepsMe u :=
  State.keepsMe_trans h (State.keepsMe_of_me g)

/-- An answer leaves the strand but for its descriptor cache, its share and its record of vector stores. -/
def Ans.keepsMe (s : State) : Ans α → Prop
  | .ok t _ => s.keepsMe t
  | .fault t _ => s.keepsMe t
  | .wait t => s.keepsMe t

theorem Ans.keepsMe_trans {s t : State} {x : Ans α} (h : s.keepsMe t) (g : x.keepsMe t) : x.keepsMe s := by
  cases x <;> exact State.keepsMe_trans h g

theorem State.desc_keepsMe (s : State) (k : Nat) : s.keepsMe (s.desc k).1 := by
  unfold State.desc State.keepsMe
  split
  · rfl
  · simp

theorem State.descFor_keepsMe (s : State) (k : Nat) : s.keepsMe (s.descFor k).1 := by
  unfold State.descFor
  split
  · rfl
  · exact s.desc_keepsMe k

theorem State.acquire_keepsMe (s : State) : s.keepsMe s.acquire := rfl

theorem State.release_keepsMe (s : State) (n : Nat) (v : Bool) : (s.release n v).keepsMe s := by
  have h : s.keepsMe (if n = 0 then s else s.drainWcb s.me.cu) := State.keepsMe_of_me (by split <;> simp)
  unfold State.release
  split
  · exact s.keepsMe_refl
  · dsimp only
    split
    · exact State.keepsMe_then h (by simp)
    · exact State.keepsMe_trans h rfl

theorem State.releaseFor_keepsMe (s : State) (r : Ref) (sc : BitVec 2) (v : Bool) : (s.releaseFor r sc v).keepsMe s := by
  unfold State.releaseFor
  split
  · exact State.keepsMe_of_me (by simp)
  · exact Ans.keepsMe_trans (s.descFor_keepsMe r.slot) (State.release_keepsMe _ _ _)

theorem State.callPeer_keepsMe (s : State) (vec : Bool) (i a : Nat) (op : MemOp) (r : Ref) (d : Desc) (fmt : Bool) :
    (s.callPeer vec i a op r d fmt).keepsMe s := by
  have h : s.keepsMe (s.askPeer (s.me.who vec) i a op).1 := State.keepsMe_of_me (by simp)
  unfold State.callPeer
  split
  · next e => rw [e] at h; exact h
  · next e => rw [e] at h; split <;> exact h

theorem State.probe_keepsMe (s : State) (rt : Rights) (r : Ref) (n : Nat) (fmt vec sup : Bool) :
    (s.probe rt r n fmt vec sup).keepsMe s := by
  have h := s.descFor_keepsMe r.slot
  unfold State.probe
  split
  · exact State.keepsMe_of_me (by simp)
  · dsimp only
    repeat' (first | exact h | exact State.keepsMe_then h (by simp) | split)

theorem State.readLoc_keepsMe (s : State) (l : Loc) (r : Ref) (d : Desc) (n : Nat) (fmt vec : Bool) (ch : BitVec 2) :
    (s.readLoc l r d n fmt vec ch).keepsMe s := by
  unfold State.readLoc
  split
  · exact s.keepsMe_refl
  · exact s.keepsMe_refl
  · dsimp only; split <;> exact State.keepsMe_of_me (by simp)
  · exact State.callPeer_keepsMe _ _ _ _ _ _ _ _

theorem State.writeLoc_keepsMe (s : State) (l : Loc) (cp : Nat) (b : List Byte) : s.keepsMe (s.writeLoc l cp b) := by
  unfold State.writeLoc
  split
  · rfl
  · exact State.keepsMe_of_me (by simp)
  · dsimp only; split <;> exact State.keepsMe_of_me (by simp)
  · exact s.keepsMe_refl

theorem State.storeLoc_keepsMe (s : State) (l : Loc) (r : Ref) (d : Desc) (cp : Nat) (fmt vec : Bool) (b : List Byte) :
    (s.storeLoc l r d cp fmt vec b).keepsMe s := by
  unfold State.storeLoc
  split
  · next i a =>
    have h := s.callPeer_keepsMe vec i a (.write b (2 ^ b.length - 1)) r d fmt
    revert h
    cases s.callPeer vec i a (.write b (2 ^ b.length - 1)) r d fmt <;> exact id
  · split
    · exact State.keepsMe_of_me (by simp)
    · exact State.writeLoc_keepsMe _ _ _ _
  · exact State.writeLoc_keepsMe _ _ _ _

theorem State.setHomeLoc_keepsMe (s : State) (l : Loc) (cp : Nat) (b : List Byte) : s.keepsMe (s.setHomeLoc l cp b) := by
  unfold State.setHomeLoc
  split
  · exact State.keepsMe_of_me (by simp)
  · rfl
  · exact State.keepsMe_of_me (by simp)
  · rfl

theorem State.peerNibble_keepsMe (vec : Bool) (i a : Nat) (put : Byte → Byte) (r : Ref) (d : Desc) :
    ∀ (n : Nat) (s : State) (old : Nat), (s.peerNibble vec i a put r d n old).keepsMe s
  | 0, s, _ => s.keepsMe_refl
  | n + 1, s, old => by
    unfold State.peerNibble
    dsimp only
    generalize MemOp.atomic _ _ _ _ = o
    have h := s.callPeer_keepsMe vec i (a - a % 4) o r d true
    revert h
    cases s.callPeer vec i (a - a % 4) o r d true with
    | ok t b =>
      exact fun h => iteInduction (motive := Ans.keepsMe s) (fun _ => h)
        (fun _ => Ans.keepsMe_trans h (State.peerNibble_keepsMe vec i a put r d n t _))
    | fault t e => exact id
    | wait t => exact id

theorem State.nibbleLoc_keepsMe (s : State) (l : Loc) (r : Ref) (d : Desc) (cp : Nat) (vec : Bool) (put : Byte → Byte) :
    (s.nibbleLoc l r d cp vec put).keepsMe s := by
  unfold State.nibbleLoc
  split
  · next i a =>
    have h := s.callPeer_keepsMe vec i (a - a % 4) (.read 4) r d true
    revert h
    cases s.callPeer vec i (a - a % 4) (.read 4) r d true with
    | ok t b => exact fun h => Ans.keepsMe_trans h (State.peerNibble_keepsMe _ _ _ _ _ _ _ _ _)
    | fault t e => exact id
    | wait t => exact id
  · exact State.keepsMe_trans (State.keepsMe_of_me (State.homeLoc_me _ _ _ _)) (State.setHomeLoc_keepsMe _ _ _ _)

theorem State.load_keepsMe (s : State) (r : Ref) (n : Nat) (fmt vec sup : Bool) (ch : BitVec 2) :
    (s.load r n fmt vec sup ch).keepsMe s := by
  have h := s.probe_keepsMe rdOnly r n fmt vec sup
  unfold State.load
  revert h
  cases s.probe rdOnly r n fmt vec sup with
  | ok t x =>
    obtain ⟨l, d⟩ := x
    have g := t.readLoc_keepsMe l r d (if fmt then 1 else n) fmt vec ch
    revert g
    dsimp only
    cases t.readLoc l r d (if fmt then 1 else n) fmt vec ch <;> exact fun g h => State.keepsMe_trans h g
  | fault t e => exact id
  | wait t => exact id

theorem State.storeWith_keepsMe (s : State) (r : Ref) (n : Nat) (fmt vec sup : Bool) (ch : BitVec 2) (v : Nat) (m : Option Nat) :
    (s.storeWith r n fmt vec sup ch v m).keepsMe s := by
  have h := s.probe_keepsMe wrOnly r n fmt vec sup
  unfold State.storeWith
  revert h
  cases s.probe wrOnly r n fmt vec sup with
  | ok t x =>
    obtain ⟨l, d⟩ := x
    dsimp only
    generalize hy : (if (!fmt) = true then _ else _ : Ans Unit) = y
    have g : y.keepsMe t := by
      subst hy
      refine iteInduction (motive := Ans.keepsMe t) (fun _ => State.storeLoc_keepsMe _ _ _ _ _ _ _ _) fun _ => ?_
      refine iteInduction (motive := Ans.keepsMe t) (fun _ => State.storeLoc_keepsMe _ _ _ _ _ _ _ _) fun _ => ?_
      cases m
      · exact State.nibbleLoc_keepsMe _ _ _ _ _ _ _
      · exact State.storeLoc_keepsMe _ _ _ _ _ _ _ _
    revert g
    cases y <;> exact fun g h => State.keepsMe_trans h g
  | fault t e => exact id
  | wait t => exact id

theorem State.store_keepsMe (s : State) (r : Ref) (n : Nat) (fmt vec sup : Bool) (ch : BitVec 2) (v : Nat) :
    (s.store r n fmt vec sup ch v).keepsMe s := by
  have h := s.storeWith_keepsMe r n fmt vec sup ch v none
  unfold State.store
  revert h
  cases s.storeWith r n fmt vec sup ch v none with
  | ok t x => exact fun h => State.keepsMe_then h (by split <;> simp)
  | fault t e => exact id
  | wait t => exact id

theorem State.amo_keepsMe (s : State) (r : Ref) (op : AmoOp) (t : AmoTy) (vec sup : Bool) (y c : Nat) :
    (s.amo r op t vec sup y c).keepsMe s := by
  have h := s.probe_keepsMe rdWr r (amoBytes t) false vec sup
  unfold State.amo
  revert h
  cases s.probe rdWr r (amoBytes t) false vec sup with
  | ok u x =>
    obtain ⟨l, d⟩ := x
    intro h
    dsimp only
    split
    · next i a =>
      generalize MemOp.atomic _ _ _ _ = o
      have g := u.callPeer_keepsMe vec i a o r d false
      revert g
      cases u.callPeer vec i a o r d false <;> exact fun g => State.keepsMe_trans h g
    · split
      · exact State.keepsMe_trans h (State.keepsMe_then
          (State.keepsMe_trans (State.keepsMe_of_me (State.homeLoc_me _ _ _ _)) (State.setHomeLoc_keepsMe _ _ _ _)) (State.logAtomic_me _ _ _))
      · exact State.keepsMe_then h (by simp)
  | fault t e => exact id
  | wait t => exact id

theorem State.loadPast_keepsMe (s : State) (oe : Bool) (r : Ref) (n : Nat) (fmt : Bool) (b : List Byte) :
    s.keepsMe (s.loadPast oe r n fmt b).1 := by
  unfold State.loadPast
  split
  · exact s.keepsMe_refl
  · dsimp only; split
    · exact s.keepsMe_refl
    · rfl

theorem State.noteStore_keepsMe (s : State) (oe low : Bool) (l : Loc) (cp : Nat) (old : List Byte) :
    s.keepsMe (s.noteStore oe low l cp old) := by
  unfold State.noteStore
  refine iteInduction (motive := s.keepsMe) (fun _ => s.keepsMe_refl) (fun _ => ?_)
  dsimp only
  generalize (if (low && _) = true then _ else _ : List Older × List Older) = ab
  generalize (low && _ : Bool) = near
  generalize slideUnder _ _ = sl
  have h : ∀ w : List Older, s.keepsMe (if near = true then
      { s.onMe fun m => { m with older := w } with fresh := (s.onMe fun m => { m with older := w }).fresh + 1 }
      else s.onMe fun m => { m with older := w }) := fun w => by cases near <;> rfl
  exact iteInduction (motive := s.keepsMe) (fun _ => h _) (fun _ => State.keepsMe_trans (h _) (State.writeLoc_keepsMe _ _ _ _))

theorem State.vecLoad_keepsMe (s : State) (oe : Bool) (r : Ref) (n : Nat) (fmt sup : Bool) (ch : BitVec 2) :
    (s.vecLoad oe r n fmt sup ch).keepsMe s := by
  have h := s.load_keepsMe r n fmt true sup ch
  unfold State.vecLoad
  revert h
  cases s.load r n fmt true sup ch with
  | ok t x => exact fun h => State.keepsMe_trans h (State.loadPast_keepsMe _ _ _ _ _ _)
  | fault t e => exact id
  | wait t => exact id

theorem State.vecStore_keepsMe (s : State) (oe : Bool) (r : Ref) (n : Nat) (fmt sup : Bool) (ch : BitVec 2) (v : Nat) (m : Option Nat) :
    (s.vecStore oe r n fmt sup ch v m).keepsMe s := by
  have h := s.storeWith_keepsMe r n fmt true sup ch v m
  unfold State.vecStore
  revert h
  cases s.storeWith r n fmt true sup ch v m with
  | ok t x => exact fun h => State.keepsMe_trans h (State.noteStore_keepsMe _ _ _ _ _ _)
  | fault t e => exact id
  | wait t => exact id

theorem State.vecAmo_keepsMe (s : State) (oe : Bool) (r : Ref) (op : AmoOp) (t : AmoTy) (sup : Bool) (y : Nat) :
    (s.vecAmo oe r op t sup y).keepsMe s := by
  have h := s.amo_keepsMe r op t true sup y 0
  unfold State.vecAmo
  revert h
  cases s.amo r op t true sup y 0 with
  | ok u old =>
    dsimp only
    split
    · exact fun h => State.keepsMe_trans h (State.noteStore_keepsMe _ _ _ _ _ _)
    · exact id
  | fault t e => exact id
  | wait t => exact id

theorem eachElem_keepsMe {β : Type} (s0 : State) (acc : State → Nat → Ans β) (w : Nat)
    (ha : ∀ s e, (acc s e).keepsMe s) :
    ∀ (l : List Nat) (s : State) (out : List (Nat × β)) (st : List ElemStop), s0.keepsMe s →
      match eachElem s acc w l out st with
      | .ok (t, _, _) => s0.keepsMe t
      | .error t => s0.keepsMe t
  | [], s, out, st, h => h
  | e :: l, s, out, st, h => by
    have g := ha s e
    cases q : acc s e with
    | ok s' b =>
      rw [q] at g
      simpa only [eachElem, q] using eachElem_keepsMe s0 acc w ha l _ _ _ (State.keepsMe_trans h g)
    | fault s' t =>
      rw [q] at g
      simpa only [eachElem, q] using eachElem_keepsMe s0 acc w ha l _ _ _ (State.keepsMe_trans h g)
    | wait s' =>
      rw [q] at g
      simpa only [eachElem, q] using State.keepsMe_then (State.keepsMe_trans h g) (State.markWait_me _ _)

theorem eachElem_of {β : Type} {acc : State → Nat → Ans β} {w : Nat} {l : List Nat} {s t : State} {out : List (Nat × β)}
    {st : List ElemStop} (q : eachElem s acc w l [] [] = .ok (t, out, st)) (ha : ∀ s e, (acc s e).keepsMe s) : s.keepsMe t := by
  have g := eachElem_keepsMe s acc w ha l s [] [] s.keepsMe_refl
  rw [q] at g
  exact g

theorem indexedElems_of {β : Type} {acc : Bool → State → Nat → Ans β} {w : Nat} {l : List Nat} {s t : State} {out : List (Nat × β)}
    {st hits : List ElemStop} (q : indexedElems s acc w l = .ok (t, out, st, hits)) (ha : ∀ b s e, (acc b s e).keepsMe s) :
    s.keepsMe t := by
  unfold indexedElems at q
  split at q
  · nomatch q
  · next q1 =>
    dsimp only at q
    split at q
    · nomatch q
    · next q2 =>
      simp only [Except.ok.injEq, Prod.mk.injEq] at q
      obtain ⟨rfl, -⟩ := q
      exact State.keepsMe_trans (eachElem_of q1 (ha false)) (eachElem_of q2 (ha true))

/-! ### Words of a convoy -/

@[simp] theorem Run.write_s (r : Run) (h : How) (w gw : Nat) (d : VReg) (l : List ElemOut) : (r.write h w gw d l).s = r.s := rfl
@[simp] theorem Run.writeMask_s (r : Run) (h : How) (gw : Nat) (md : MReg) (l : List (Nat × Bool)) (fl : List (Nat × Flags)) :
    (r.writeMask h gw md l fl).s = r.s := rfl
@[simp] theorem Run.both_s (r : Run) (f : VFile → VFile) : (r.both f).s = r.s := rfl
@[simp] theorem Run.push_s (r : Run) (q : QNum) (x : Word) : (r.push q x).s = r.s := rfl
@[simp] theorem Run.satBits_s (r : Run) (h : How) (w : Nat) (l : List Nat) : (r.satBits h w l).s = r.s := rfl
@[simp] theorem Run.indexed_s (r : Run) (h : How) (w : Nat) (l : List Nat) (st : List ElemStop) : (r.indexed h w l st).s = r.s := by
  unfold Run.indexed; cases h.whole <;> cases st <;> rfl
@[simp] theorem Run.redResult_s (r : Run) (h : How) (w : Nat) (d : RedDst) (x : Nat) (y : Word) : (r.redResult h w d x y).s = r.s := by
  unfold Run.redResult; (repeat' split) <;> rfl

/-- A word leaves the strand's state but for its descriptor cache, its share and its record of vector stores: its registers are those of the run. -/
def Out.keepsMe (s : State) : Out → Prop
  | .ran r _ => s.keepsMe r.s
  | .wait _ => True

theorem State.keepsMe_begin (s : State) {t : State} (h : s.beginReads.keepsMe t) : s.keepsMe t := h

theorem State.cover_me (s : State) (n : Nat) (l : List Loc) : ((s.coverLines n l).endWrites l).me = s.me := by
  rw [← s.coverLines_me n l]; unfold State.endWrites; split <;> simp

theorem Run.load_keepsMe (r : Run) (h : How) (x : VWord) (p : VMode) (v : VAcc) (d : VReg) (m : Addr) (ch : BitVec 2) (f : LdForm) :
    (r.load h x p v d m ch f).keepsMe r.s := by
  have acc : ∀ (ref : Nat → Ref) (n w : Nat) (fmt b : Bool) (s : State) (e : Nat),
      (s.vecLoad v.oe (ref e) n fmt (b || h.sup (groupOf w e)) ch).keepsMe s := fun _ _ _ _ _ s _ => s.vecLoad_keepsMe _ _ _ _ _ _
  unfold Run.load
  cases p <;> simp only [if_true, Bool.false_eq_true, if_false] <;> split
  · trivial
  · next q => simpa [Out.keepsMe] using r.s.keepsMe_begin (eachElem_of q (acc _ _ _ _ _))
  · trivial
  · next q => simpa [Out.keepsMe] using r.s.keepsMe_begin (eachElem_of q (acc _ _ _ _ _))
  · trivial
  · next q => simpa [Out.keepsMe] using r.s.keepsMe_begin (indexedElems_of q (acc _ _ _ _))

theorem Run.loadFF_keepsMe (r : Run) (h : How) (x : VWord) (v : VAcc) (d : VReg) (m : Addr) (ch : BitVec 2) (f : LdForm) (q : QNum) :
    (r.loadFF h x v d m ch f q).keepsMe r.s := by
  unfold Run.loadFF
  dsimp only
  split
  · trivial
  · next q =>
    have g := r.s.keepsMe_begin (eachElem_of q (fun s e => s.vecLoad_keepsMe _ _ _ _ _ _))
    exact iteInduction (motive := Out.keepsMe r.s) (fun _ => g) (fun _ => by simpa [Out.keepsMe] using g)

theorem Run.loadSc_keepsMe (r : Run) (h : How) (x : VWord) (v : VAcc) (d : VReg) (m : Addr) (ch : BitVec 2) (off : BitVec 14) :
    (r.loadSc h x v d m ch off).keepsMe r.s := by
  unfold Run.loadSc
  dsimp only
  split
  · trivial
  · next q =>
    have g := eachElem_of q (fun s e => by
      have k := s.descFor_keepsMe (refOf m.sl x.sA off.toInt).slot
      exact iteInduction (motive := Ans.keepsMe s) (fun _ => k) (fun _ => Ans.keepsMe_trans k (State.vecLoad_keepsMe _ _ _ _ _ _ _)))
    exact r.s.keepsMe_begin g

/-- An access that only checks. -/
theorem probe_only_keepsMe {β : Type} (s : State) (rt : Rights) (r : Ref) (n : Nat) (fmt vec sup : Bool) (f : Loc → Desc → β) :
    (match s.probe rt r n fmt vec sup with
      | .ok s (l, d) => Ans.ok s (f l d)
      | .fault s t => .fault s t
      | .wait s => .wait s).keepsMe s := by
  have h := s.probe_keepsMe rt r n fmt vec sup
  revert h
  cases s.probe rt r n fmt vec sup <;> exact id

theorem probe_check_keepsMe {β : Type} (s : State) (rt : Rights) (r : Ref) (n : Nat) (fmt vec sup : Bool) (b : β) :
    (match s.probe rt r n fmt vec sup with
      | .ok s _ => Ans.ok s b
      | .fault s t => .fault s t
      | .wait s => .wait s).keepsMe s := by
  have h := s.probe_keepsMe rt r n fmt vec sup
  revert h
  cases s.probe rt r n fmt vec sup <;> exact id

theorem Run.store_keepsMe (r : Run) (h : How) (x : VWord) (p : VMode) (v : VAcc) (d : VReg) (m : Addr) (ch : BitVec 2) (f : StForm) :
    (r.store h x p v d m ch f).keepsMe r.s := by
  have one : ∀ (c : Bool) (s : State) (ref : Ref) (n : Nat) (fmt sup : Bool) (y : Nat) (mate : Option Nat) (f : Loc → Desc → Bool × Loc),
      Ans.keepsMe s (if c = true then s.vecStore v.oe ref n fmt sup ch y mate else
        match s.probe wrOnly ref n fmt true sup with
        | .ok s (l, d) => .ok s (f l d)
        | .fault s t => .fault s t
        | .wait s => .wait s) := fun c s ref n fmt sup y mate f =>
    iteInduction (motive := Ans.keepsMe s) (fun _ => State.vecStore_keepsMe _ _ _ _ _ _ _ _ _)
      (fun _ => probe_only_keepsMe s _ _ _ _ _ _ f)
  have done : ∀ {t : State} (u : State), u.keepsMe t → u.me = r.s.me → r.s.keepsMe t := fun u g e =>
    State.keepsMe_trans (State.keepsMe_of_me e) g
  unfold Run.store
  generalize nibbles = nib
  cases p <;> simp only [if_true, Bool.false_eq_true, if_false] <;> split
  · trivial
  · next q =>
    exact State.keepsMe_then (done _ (eachElem_of q fun s e => one _ s _ _ _ _ _ _ _) (State.performOrder_me _ _ _ _ _))
      (by rw [Run.satBits_s]; exact State.cover_me _ _ _)
  · trivial
  · next q =>
    exact State.keepsMe_then (done _ (eachElem_of q fun s e => one _ s _ _ _ _ _ _ _) (State.performOrder_me _ _ _ _ _))
      (by rw [Run.satBits_s]; exact State.cover_me _ _ _)
  · trivial
  · next q =>
    exact State.keepsMe_then (done _ (indexedElems_of q fun b s e => one _ s _ _ _ _ _ _ _) (State.performOrder_me _ _ _ _ _))
      (by rw [Run.indexed_s, Run.satBits_s]; exact State.cover_me _ _ _)

theorem Run.amo_keepsMe (r : Run) (h : How) (x : VWord) (v : VAcc) (op : AmoOp) (t : AmoTy) (ord : BitVec 2) (d : VReg) (m : Addr)
    (off : BitVec 12) (b : VReg) : (r.amo h x v op t ord d m off b).keepsMe r.s := by
  have perform : ∀ (s : State) (ref : Ref) (sup : Bool) (y : Nat), (match s.vecAmo v.oe ref op t sup y with
      | .ok s old => Ans.ok (if ord.getLsbD 0 then s.acquire else s) old
      | .fault s t => .fault s t
      | .wait s => .wait s).keepsMe s := by
    intro s ref sup y
    have k := s.vecAmo_keepsMe v.oe ref op t sup y
    revert k
    cases s.vecAmo v.oe ref op t sup y with
    | ok u old => exact fun k => iteInduction (motive := s.keepsMe) (fun _ => State.keepsMe_trans k u.acquire_keepsMe) (fun _ => k)
    | fault u e => exact id
    | wait u => exact id
  unfold Run.amo
  dsimp only
  split
  · trivial
  · next q =>
    have g := indexedElems_of q (fun b s e => probe_check_keepsMe s _ _ _ _ _ _ _)
    have g := State.keepsMe_trans (State.keepsMe_of_me (State.performOrder_me r.s v.oe _ _ _)) g
    refine iteInduction (motive := Out.keepsMe r.s) (fun _ => State.keepsMe_then g (by rw [Run.indexed_s])) (fun _ => ?_)
    split
    · trivial
    · next q2 =>
      have g2 := indexedElems_of q2 (fun b s e => by
        refine iteInduction (motive := Ans.keepsMe s) (fun _ => probe_check_keepsMe s _ _ _ _ _ _ _) fun _ => ?_
        refine iteInduction (motive := Ans.keepsMe s) (fun _ => perform s _ _ _) fun _ => ?_
        generalize elemRef _ _ _ _ _ _ _ _ = ref
        have k := s.releaseFor_keepsMe ref m.sc true
        revert k
        cases s.releaseFor ref m.sc true with
        | ok u _ => exact fun k => Ans.keepsMe_trans k (perform u _ _ _)
        | fault u e => exact id
        | wait u => exact id)
      exact State.keepsMe_trans g (State.keepsMe_then g2 (by rw [Run.indexed_s, Run.write_s]))

theorem Run.tileLoad_keepsMe (r : Run) (h : How) (x : VWord) (v : VAcc) (td : TReg) (m : Addr) (ch : BitVec 2) (f : TileLd) :
    (r.tileLoad h x v td m ch f).keepsMe r.s := by
  unfold Run.tileLoad
  dsimp only
  split
  · trivial
  · next q => exact r.s.keepsMe_begin (eachElem_of q (fun s e => s.vecLoad_keepsMe _ _ _ _ _ _))

theorem Run.tileStore_keepsMe (r : Run) (h : How) (x : VWord) (v : VAcc) (td : TReg) (m : Addr) (ch : BitVec 2) (f : TileSt) :
    (r.tileStore h x v td m ch f).keepsMe r.s := by
  unfold Run.tileStore
  dsimp only
  split
  · trivial
  · next q =>
    have g := eachElem_of q (fun s e => probe_check_keepsMe s _ _ _ _ _ _ ())
    refine iteInduction (motive := Out.keepsMe r.s) (fun _ => g) (fun _ => ?_)
    split
    · trivial
    · next q2 =>
      have g2 := eachElem_of q2 (fun s e => by
        refine Ans.keepsMe_trans (s.descFor_keepsMe (tileRef x m (tileStShape f).2.2.2.1 (tileStShape f).1
          (e / h.mlim (tileStShape f).2.2.1) (e % h.mlim (tileStShape f).2.2.1)).slot) ?_
        exact iteInduction (motive := Ans.keepsMe _) (fun _ => State.vecStore_keepsMe _ _ _ _ _ _ _ _ _)
          (fun _ => probe_only_keepsMe _ _ _ _ _ _ _ _))
      exact State.keepsMe_then (State.keepsMe_trans (State.keepsMe_then g (State.performOrder_me _ _ _ _ _)) g2)
        (State.cover_me _ _ _)

theorem Run.merge_keepsMe (r : Run) (h : How) (x : VWord) (t : MergeTy) (ord : Bool) (td : TReg) (m : Addr) (off : BitVec 16) :
    (r.merge h x t ord td m off).keepsMe r.s := by
  have k := r.s.descFor_keepsMe (refOf m.sl x.sA off.toInt).slot
  unfold Run.merge
  dsimp only
  refine iteInduction (motive := Out.keepsMe r.s) (fun _ => r.s.keepsMe_refl) (fun _ => ?_)
  refine iteInduction (motive := Out.keepsMe r.s) (fun _ => r.s.keepsMe_refl) (fun _ => ?_)
  refine iteInduction (motive := Out.keepsMe r.s) (fun _ => k) (fun _ => ?_)
  split
  · trivial
  · next q =>
    have g := eachElem_of q (fun s e => by
      generalize (h.sup 256 || _ : Bool) = sup
      generalize ({ refOf m.sl x.sA off.toInt with off := _ } : Ref) = ref
      have h := s.probe_keepsMe wrOnly ref (mergeSize t) false true sup
      revert h
      split <;> (next q => rw [q]; exact id))
    have g := State.keepsMe_trans k g
    refine iteInduction (motive := Out.keepsMe r.s) (fun _ => g) (fun _ => ?_)
    refine iteInduction (motive := Out.keepsMe r.s) (fun _ => g) (fun _ => ?_)
    exact State.keepsMe_then g (foldl_me _ (fun s line => by split <;> simp) _ _)

theorem Run.ewise_keepsMe (r : Run) (h : How) (mk : MReg) (w gw : Nat) (d : VReg) (op : Nat → FpRes) :
    (r.ewise h mk w gw d op).keepsMe r.s := r.s.keepsMe_refl

theorem Run.ewiseMask_keepsMe (r : Run) (h : How) (mk : MReg) (gw : Nat) (md : MReg) (op : Nat → Bool × Flags) :
    (r.ewiseMask h mk gw md op).keepsMe r.s := r.s.keepsMe_refl

theorem Run.stackWord_keepsMe (r : Run) (f : List MaskEntry → List MaskEntry) (full : Bool) : (r.stackWord f full).keepsMe r.s := by
  unfold Run.stackWord
  dsimp only
  refine iteInduction (motive := Out.keepsMe r.s) (fun _ => r.s.keepsMe_refl) (fun _ => ?_)
  exact iteInduction (motive := Out.keepsMe r.s) (fun _ => r.s.keepsMe_refl) (fun _ => r.s.keepsMe_refl)

theorem Run.vecWord_keepsMe (r : Run) (h : How) (x : VWord) : (r.vecWord h x).keepsMe r.s := by
  obtain ⟨op, gov, sA, sB, word⟩ := x
  cases op
  case ld => exact r.load_keepsMe ..
  case ldff => exact r.loadFF_keepsMe ..
  case ldsc => exact r.loadSc_keepsMe ..
  case st => exact r.store_keepsMe ..
  case amo => exact r.amo_keepsMe ..
  case mpush => unfold Run.vecWord; exact r.stackWord_keepsMe ..
  case minv => unfold Run.vecWord; exact r.stackWord_keepsMe ..
  case mpop => unfold Run.vecWord; exact r.stackWord_keepsMe ..
  case bcast w d a => cases a <;> exact r.s.keepsMe_refl
  case ins => exact iteInduction (motive := Out.keepsMe r.s) (fun _ => r.s.keepsMe_refl) (fun _ => r.s.keepsMe_refl)
  case red => exact State.keepsMe_of_me (by rw [Run.redResult_s])
  case fred => exact State.keepsMe_of_me (by rw [Run.redResult_s]; rfl)
  all_goals exact r.s.keepsMe_refl

/-- Whatever a word of a convoy does, of the strand it changes only the descriptor cache, the share and the
record of vector stores. -/
theorem Run.anyWord_keepsMe (r : Run) (h : How) (x : VWord) : (r.anyWord h x).keepsMe r.s := by
  have k := r.vecWord_keepsMe h x
  obtain ⟨op, gov, sA, sB, word⟩ := x
  cases op
  case mldt => exact r.tileLoad_keepsMe ..
  case mstt => exact r.tileStore_keepsMe ..
  case mmerge => exact r.merge_keepsMe ..
  case mwrow td a => exact State.keepsMe_of_me (by split <;> rfl)
  case mopa => exact r.s.keepsMe_refl
  case mzero => exact r.s.keepsMe_refl
  case mrow => exact r.s.keepsMe_refl
  case mfold => exact r.s.keepsMe_refl
  case mcvt => exact r.s.keepsMe_refl
  all_goals exact k

end Sys2Proof.Machine
end

