-- ==== Sys2Proof/Laws/Convoy.lean ====
section
/-! SUPPORT. What a vector word that stands alone does: from the chanter's taking it to the results of its convoy. -/

namespace Sys2Proof.Machine

/-- A word that is no SETVL. -/
def VOp.plain : VOp → Bool
  | .setvl _ _ => false
  | _ => true

/-- How the word of a lone convoy runs. -/
def Convoy.loneHow (c : Convoy) (x : VWord) : How :=
  { vl := c.vl, mvl := c.mvl, fpctl := c.fpctl, sel := fun _ => true, keep := fun _ => true,
    sup := fun _ => false, supTrap := fun _ => false, ent := entryOf [x] c.took 0, ixr := false, early := fun _ _ => false, whole := true,
    dry := false }

theorem Convoy.selects_none {c : Convoy} (h : c.restart = none) (cl : Nat → Nat) : c.selects cl = fun _ => true := by
  funext j; simp [Convoy.selects, h]

theorem Convoy.suppresses_none {c : Convoy} (h : c.restart = none) (cl : Nat → Nat) (m w : Bool) :
    c.suppresses cl m w = fun _ => false := by
  funext j; simp [Convoy.suppresses, h]

theorem Convoy.suppressesTail_none {c : Convoy} (h : c.restart = none) (w : Bool) (i : Nat) : c.suppressesTail w i = false := by
  simp [Convoy.suppressesTail, h]

/-- A fresh convoy of one word ends with what the word leaves; a word of the head part has committed all its groups. -/
theorem runConvoy_lone {s : State} {c : Convoy} {x : VWord} {r : Run} (hw : c.words = [x]) (hr : c.restart = none)
    (ha : Run.anyWord ⟨s, s.me.file, s.me.file, [], none, []⟩ (c.loneHow x) x = .ran r []) :
    s.runConvoy c = .done (if x.op.cross then r else { r with w := r.c }) := by
  have hp : c.parts = (if x.op.cross then [] else [(0, x)], if x.op.cross then [(0, x)] else []) := by
    cases h : x.op.cross <;> simp [Convoy.parts, hw, hr, h]
  have hrun : c.running = [x] := by simp [Convoy.running, hr, hw]
  simp only [Convoy.loneHow] at ha
  unfold State.runConvoy
  simp only [hp, hrun, hr, Convoy.selects_none hr, Convoy.suppresses_none hr, Convoy.suppressesTail_none hr]
  cases h : x.op.cross
  · simp [runWords, ha, earliest]
  · simp [runWords, ha, earliest]

/-- The results of a convoy do not depend on what its words saw last. -/
theorem Run.commit_seen (r : Run) (f : VFile) (p : Pend) (c : Convoy) : ({ r with w := f } : Run).commit p c = r.commit p c := rfl

/-- The state with its convoy pushed. -/
def State.lonePushed (s : State) (x : VWord) : State :=
  s.next.onMe fun k => { k with pend := [⟨s.me.seq, s.me.ch, .convoy { s.loneConvoy x [] with started := false }⟩], forming := [] }

/-- A requester of which nothing waits is not held up. -/
theorem State.quiet_held {s : State} {vec : Bool} (h : s.quiet vec) : s.replayHeld vec = false := by
  have h1 : ∀ w ∈ s.replay, (w.who == s.me.who vec) = false := by simpa using h.1
  have h2 : (s.replay.any fun w => w.who == s.me.who vec && !s.ready w) = false := by
    rw [List.any_eq_false]; intro w hw; simp [h1 w hw]
  simp [State.replayHeld, State.heldBy, h2, h.2]

/-- A requester of which nothing waits leaves the replay queues as they are. -/
theorem State.quiet_retry {s : State} {vec : Bool} (h : s.quiet vec) : s.retrying vec = s := by
  have h1 : ∀ w ∈ s.replay, (w.who == s.me.who vec) = false := by simpa using h.1
  have h2 : (s.replay.filter fun w => !(w.who == s.me.who vec)) = s.replay := by
    rw [List.filter_eq_self]; intro w hw; simp [h1 w hw]
  simp [State.retrying, State.retryBy, h2]

theorem State.lonePushed_quiet {s : State} {x : VWord} (hp : s.me.pend = []) (h : s.quiet true) : (s.lonePushed x).quiet true := by
  have e : (s.lonePushed x).me.who true = s.me.who true := by
    simp [Strand.who, hp, State.lonePushed, State.onMe, State.next]
  unfold State.quiet
  rw [e]
  exact h

theorem takeVector_pushed {s : State} {x : VWord} (h : s.lone) : s.takeVector false x = (s.lonePushed x).drainFor 2 := by
  obtain ⟨hp, hf, he, ho, ha, hr, ht, hv, hab, hg, hb, hq⟩ := h
  have h1 : ([x].filter fun y => y.op.memory).length ≤ 2 := Nat.le_trans (List.length_filter_le _ _) (by simp)
  have hc : s.me.convoys = 0 := by simp [Strand.convoys, hp]
  have hd : (s.lonePushed x).drain = (s.lonePushed x).drainFor 2 := by simp [State.drain, State.lonePushed, ha]
  rw [← hd]
  have e1 : s.me.headPc = s.me.ch.pc := by simp [Strand.headPc, hf]
  have e2 : s.me.capture s.me.ch.pc [x] = { s.loneConvoy x [] with started := false } := by
    simp [Strand.capture, Strand.restartOf, hr, State.loneConvoy]
  simp only [State.takeVector, hf, List.nil_append, List.length_singleton, Nat.reduceLT, if_false, Nat.not_lt.2 h1,
    Bool.false_and, Bool.false_eq_true, State.pushConvoy, hc, Nat.reduceLeDiff, e1, e2, Strand.headSnap]
  simp [State.lonePushed, State.loneConvoy, State.onMe, State.next, hp]

/-- The convoy of a lone word starts at once. -/
theorem vecTurn_pushed {s : State} {x : VWord} {took : List (QNum × QEntry)} {qs : Vector (List QEntry) 4} (h : s.lone)
    (hx : x.op.plain = true) (ht : takeEntries [x] s.me.toVec = .ok (took, qs)) (hl : lacksRoom [x] s.me = .none) :
    (s.lonePushed x).vecTurn = (s.loneStart x took qs).runHead (s.loneItem x took) (s.loneConvoy x took) := by
  obtain ⟨hp, hf, he, ho, ha, hr, htr, hv, hab, hg, hb, hq⟩ := h
  have q0 := State.lonePushed_quiet (x := x) hp hq
  have q1 := State.quiet_held q0
  have q2 := State.quiet_retry q0
  have c0 : ({ s.loneConvoy x [] with started := false } : Convoy).isSetvl = false := by
    cases hop : x.op <;> simp [Convoy.isSetvl, State.loneConvoy, hop, VOp.plain] at hx ⊢
  have c1 : (s.lonePushed x).me.blocks { s.loneConvoy x [] with started := false } = none := by
    have l1 : (s.lonePushed x).me.lacks { s.loneConvoy x [] with started := false } = false := by
      simp [Strand.lacks, State.lonePushed, Convoy.running, State.loneConvoy, hab]
    have l2 : lacksRoom [x] (s.lonePushed x).me = none := hl
    have l3 : (s.lonePushed x).me.toVec = s.me.toVec := rfl
    have l4 : (s.lonePushed x).me.grant = s.me.grant := rfl
    have l5 : Convoy.running { s.loneConvoy x [] with started := false } = [x] := rfl
    have l6 : ({ s.loneConvoy x [] with started := false } : Convoy).vl = s.me.ch.vl := rfl
    unfold Strand.blocks
    rw [c0, l1, l3, l4, l5, l6, ht, l2]
    rcases hg with hg | hg
    · have : ¬ s.me.grant = 0#32 := hg
      simp [this]
    · simp [hg]
  have c2 : (!s.me.skipBrk && (s.lonePushed x).brkAt s.me.ch.pc) = false := by
    rcases hb with hb | hb
    · simp [hb]
    · have : (s.lonePushed x).brkAt s.me.ch.pc = s.brkAt s.me.ch.pc := rfl
      simp [this, hb]
  have c3 : (s.lonePushed x).startHead { s.loneConvoy x [] with started := false } = s.loneStart x took qs := by
    simp [State.startHead, Convoy.running, State.loneConvoy, State.lonePushed, ht, State.loneStart, State.onMe, Strand.setHead,
      State.loneItem]
  unfold State.vecTurn
  dsimp only
  rw [q1, q2]
  have hm : (s.lonePushed x).me.pend = [⟨s.me.seq, s.me.ch, .convoy { s.loneConvoy x [] with started := false }⟩] := rfl
  rw [hm]
  simp only [Bool.false_eq_true, if_false]
  rw [c1]
  simp only [State.loneConvoy] at c2 c3 ⊢
  rw [c3]
  simp only [Option.isNone_none, Bool.not_false, Bool.and_true, Bool.true_and, c2, Bool.false_eq_true, if_false]
  have hm' : (s.loneStart x took qs).me.pend = [s.loneItem x took] := rfl
  obtain ⟨op, gov, sA, sB, word⟩ := x
  cases op <;> first | rfl | (simp [VOp.plain] at hx)

/-- A vector word that stands alone: its convoy runs at once, and the word takes effect as `Run.commit` gives. -/
theorem lone_word {s : State} {x : VWord} {took : List (QNum × QEntry)} {qs : Vector (List QEntry) 4} {r : Run} (h : s.lone)
    (hx : x.op.plain = true) (ht : takeEntries [x] s.me.toVec = .ok (took, qs)) (hl : lacksRoom [x] s.me = .none)
    (ha : Run.anyWord ⟨s.loneStart x took qs, s.me.file, s.me.file, [], none, []⟩ (s.loneHow (entryOf [x] took 0)) x = .ran r [])
    (hi : r.ix = none) :
    s.takeVector false x = (r.commit (s.loneItem x took) (s.loneConvoy x took)).onMe Strand.settle := by
  have hk : (s.loneStart x took qs).keepsMe r.s := by
    have := Run.anyWord_keepsMe ⟨s.loneStart x took qs, s.me.file, s.me.file, [], none, []⟩ (s.loneHow (entryOf [x] took 0)) x
    rw [ha] at this
    exact this
  have hq : r.s.me.pend = [s.loneItem x took] := by rw [hk]; rfl
  have hr : r.s.me.trap = none := by rw [hk]; exact h.2.2.2.2.2.2.1
  rw [takeVector_pushed h]
  have hm : (s.lonePushed x).me.pend = [⟨s.me.seq, s.me.ch, .convoy { s.loneConvoy x [] with started := false }⟩] := rfl
  have e1 : (s.loneStart x took qs).runHead (s.loneItem x took) (s.loneConvoy x took) =
      (r.commit (s.loneItem x took) (s.loneConvoy x took)).onMe Strand.settle := by
    have := runConvoy_lone (s := s.loneStart x took qs) (c := s.loneConvoy x took) (x := x) (r := r) rfl rfl ha
    unfold State.runHead
    rw [this]
    cases x.op.cross
    · simp only [Bool.false_eq_true, if_false, hi]; rfl
    · simp only [if_true, hi]
  have push : ∀ (l : List (QNum × Word)) (n : Nat) (k : Strand),
      (l.foldl (fun (k : Strand) y => k.setFromQ y.1 (k.fromQ y.1 ++ [⟨y.2, n⟩])) k).pend = k.pend ∧
      (l.foldl (fun (k : Strand) y => k.setFromQ y.1 (k.fromQ y.1 ++ [⟨y.2, n⟩])) k).trap = k.trap := by
    intro l n
    induction l with
    | nil => intro k; exact ⟨rfl, rfl⟩
    | cons y l ih => intro k; exact ih _
  have e2 : ((r.commit (s.loneItem x took) (s.loneConvoy x took)).onMe Strand.settle).me.pend = [] := by
    simp [Run.commit, State.onMe, Strand.settle, push, Strand.withFile, hq]
  have e3 : ((r.commit (s.loneItem x took) (s.loneConvoy x took)).onMe Strand.settle).me.trap = none := by
    simp [Run.commit, State.onMe, Strand.settle, push, Strand.withFile, hq, hr]
  simp only [State.drainFor, hm, vecTurn_pushed h hx ht hl, e1, e2, e3, List.length_nil, Nat.le_refl, if_true]
  simp [Run.commit, State.onMe, Strand.settle, push, Strand.withFile, hq]

end Sys2Proof.Machine
end

