-- ==== Sys2Proof/Laws/Encoding.lean ====
section
/-! SUPPORT. The fields of a word and the codes of an operand type read back as they were written. -/

namespace Sys2Proof

theorem extract_low {m n k w : Nat} (x : BitVec m) (y : BitVec n) (h : k + w ≤ n) :
    (x ++ y).extractLsb' k w = y.extractLsb' k w := by
  ext i hi; simp [BitVec.getLsbD_append]; omega

theorem extract_high {m n k w : Nat} (x : BitVec m) (y : BitVec n) (h : n ≤ k) :
    (x ++ y).extractLsb' k w = x.extractLsb' (k - n) w := by
  ext i hi; simp [BitVec.getLsbD_append, show ¬ k + i < n by omega, show k + i - n = k - n + i by omega]

/-- Two neighbouring fields are one. -/
theorem extract_join {n k u v : Nat} (x : BitVec n) :
    x.extractLsb' (k + v) u ++ x.extractLsb' k v = x.extractLsb' k (u + v) := by
  ext i hi
  simp only [BitVec.getElem_append, BitVec.getElem_extractLsb']
  split
  · rfl
  · congr 1; omega

@[simp] theorem FR.ofWord_toWord (f : FR) : FR.ofWord f.toWord = f := by
  cases f
  simp only [FR.ofWord, FR.toWord, FR.mk.injEq]
  refine ⟨?_, ?_, ?_, ?_, ?_, ?_, ?_, ?_, ?_, ?_, ?_⟩ <;>
    · repeat (first | refine (extract_low _ _ (by decide)).trans ?_ | refine (extract_high _ _ (by decide)).trans ?_)
      exact BitVec.extractLsb'_eq_self

theorem FR.toWord_op (f : FR) : f.toWord.extractLsb' 52 10 = f.op := congrArg FR.op (ofWord_toWord f)

theorem FR.toWord_63 (f : FR) : f.toWord.getLsbD 63 = false := by
  have h : f.toWord.extractLsb' 63 1 = 0#1 := by
    unfold FR.toWord
    repeat (first | refine (extract_low _ _ (by decide)).trans ?_ | refine (extract_high _ _ (by decide)).trans ?_)
    exact BitVec.extractLsb'_eq_self
  simpa using congrArg (fun x : BitVec 1 => x.getLsbD 0) h

/-- A word whose bit 63 is zero is its fields. -/
theorem FR.toWord_ofWord {w : Word} (h : w.getLsbD 63 = false) : (FR.ofWord w).toWord = w := by
  have h0 : (0#1 : BitVec 1) = w.extractLsb' 63 1 := by
    ext i hi
    obtain rfl : i = 0 := by omega
    simp [← BitVec.getLsbD_eq_getElem, h]
  simp only [FR.ofWord, FR.toWord, h0]
  rw [show w.extractLsb' 63 1 ++ w.extractLsb' 62 1 = w.extractLsb' 62 2 from extract_join (k := 62) w]
  rw [show w.extractLsb' 62 2 ++ w.extractLsb' 52 10 = w.extractLsb' 52 12 from extract_join (k := 52) w]
  rw [show w.extractLsb' 52 12 ++ w.extractLsb' 47 5 = w.extractLsb' 47 17 from extract_join (k := 47) w]
  rw [show w.extractLsb' 47 17 ++ w.extractLsb' 42 5 = w.extractLsb' 42 22 from extract_join (k := 42) w]
  rw [show w.extractLsb' 42 22 ++ w.extractLsb' 37 5 = w.extractLsb' 37 27 from extract_join (k := 37) w]
  rw [show w.extractLsb' 37 27 ++ w.extractLsb' 33 4 = w.extractLsb' 33 31 from extract_join (k := 33) w]
  rw [show w.extractLsb' 33 31 ++ w.extractLsb' 30 3 = w.extractLsb' 30 34 from extract_join (k := 30) w]
  rw [show w.extractLsb' 30 34 ++ w.extractLsb' 27 3 = w.extractLsb' 27 37 from extract_join (k := 27) w]
  rw [show w.extractLsb' 27 37 ++ w.extractLsb' 25 2 = w.extractLsb' 25 39 from extract_join (k := 25) w]
  rw [show w.extractLsb' 25 39 ++ w.extractLsb' 21 4 = w.extractLsb' 21 43 from extract_join (k := 21) w]
  rw [show w.extractLsb' 21 43 ++ w.extractLsb' 0 21 = w.extractLsb' 0 64 from extract_join (k := 0) w]
  exact BitVec.extractLsb'_eq_self

@[simp] theorem FI.ofWord_toWord (f : FI) : FI.ofWord f.toWord = f := by
  cases f
  simp only [FI.ofWord, FI.toWord, FI.mk.injEq]
  refine ⟨?_, ?_, ?_, ?_, ?_, ?_, ?_, ?_⟩ <;>
    · repeat (first | refine (extract_low _ _ (by decide)).trans ?_ | refine (extract_high _ _ (by decide)).trans ?_)
      exact BitVec.extractLsb'_eq_self

theorem FI.toWord_op (f : FI) : f.toWord.extractLsb' 52 10 = f.op := congrArg FI.op (ofWord_toWord f)

theorem FI.toWord_63 (f : FI) : f.toWord.getLsbD 63 = false := by
  have h : f.toWord.extractLsb' 63 1 = 0#1 := by
    unfold FI.toWord
    repeat (first | refine (extract_low _ _ (by decide)).trans ?_ | refine (extract_high _ _ (by decide)).trans ?_)
    exact BitVec.extractLsb'_eq_self
  simpa using congrArg (fun x : BitVec 1 => x.getLsbD 0) h

/-- A word whose bit 63 is zero is its fields. -/
theorem FI.toWord_ofWord {w : Word} (h : w.getLsbD 63 = false) : (FI.ofWord w).toWord = w := by
  have h0 : (0#1 : BitVec 1) = w.extractLsb' 63 1 := by
    ext i hi
    obtain rfl : i = 0 := by omega
    simp [← BitVec.getLsbD_eq_getElem, h]
  simp only [FI.ofWord, FI.toWord, h0]
  rw [show w.extractLsb' 63 1 ++ w.extractLsb' 62 1 = w.extractLsb' 62 2 from extract_join (k := 62) w]
  rw [show w.extractLsb' 62 2 ++ w.extractLsb' 52 10 = w.extractLsb' 52 12 from extract_join (k := 52) w]
  rw [show w.extractLsb' 52 12 ++ w.extractLsb' 47 5 = w.extractLsb' 47 17 from extract_join (k := 47) w]
  rw [show w.extractLsb' 47 17 ++ w.extractLsb' 42 5 = w.extractLsb' 42 22 from extract_join (k := 42) w]
  rw [show w.extractLsb' 42 22 ++ w.extractLsb' 38 4 = w.extractLsb' 38 26 from extract_join (k := 38) w]
  rw [show w.extractLsb' 38 26 ++ w.extractLsb' 35 3 = w.extractLsb' 35 29 from extract_join (k := 35) w]
  rw [show w.extractLsb' 35 29 ++ w.extractLsb' 32 3 = w.extractLsb' 32 32 from extract_join (k := 32) w]
  rw [show w.extractLsb' 32 32 ++ w.extractLsb' 0 32 = w.extractLsb' 0 64 from extract_join (k := 0) w]
  exact BitVec.extractLsb'_eq_self

@[simp] theorem FM.ofWord_toWord (f : FM) : FM.ofWord f.toWord = f := by
  cases f
  simp only [FM.ofWord, FM.toWord, FM.mk.injEq]
  refine ⟨?_, ?_, ?_, ?_, ?_, ?_, ?_, ?_, ?_, ?_, ?_, ?_, ?_⟩ <;>
    · repeat (first | refine (extract_low _ _ (by decide)).trans ?_ | refine (extract_high _ _ (by decide)).trans ?_)
      exact BitVec.extractLsb'_eq_self

theorem FM.toWord_op (f : FM) : f.toWord.extractLsb' 52 10 = f.op := congrArg FM.op (ofWord_toWord f)

theorem FM.toWord_63 (f : FM) : f.toWord.getLsbD 63 = false := by
  have h : f.toWord.extractLsb' 63 1 = 0#1 := by
    unfold FM.toWord
    repeat (first | refine (extract_low _ _ (by decide)).trans ?_ | refine (extract_high _ _ (by decide)).trans ?_)
    exact BitVec.extractLsb'_eq_self
  simpa using congrArg (fun x : BitVec 1 => x.getLsbD 0) h

/-- A word whose bit 63 is zero is its fields. -/
theorem FM.toWord_ofWord {w : Word} (h : w.getLsbD 63 = false) : (FM.ofWord w).toWord = w := by
  have h0 : (0#1 : BitVec 1) = w.extractLsb' 63 1 := by
    ext i hi
    obtain rfl : i = 0 := by omega
    simp [← BitVec.getLsbD_eq_getElem, h]
  simp only [FM.ofWord, FM.toWord, h0]
  rw [show w.extractLsb' 63 1 ++ w.extractLsb' 62 1 = w.extractLsb' 62 2 from extract_join (k := 62) w]
  rw [show w.extractLsb' 62 2 ++ w.extractLsb' 52 10 = w.extractLsb' 52 12 from extract_join (k := 52) w]
  rw [show w.extractLsb' 52 12 ++ w.extractLsb' 47 5 = w.extractLsb' 47 17 from extract_join (k := 47) w]
  rw [show w.extractLsb' 47 17 ++ w.extractLsb' 42 5 = w.extractLsb' 42 22 from extract_join (k := 42) w]
  rw [show w.extractLsb' 42 22 ++ w.extractLsb' 37 5 = w.extractLsb' 37 27 from extract_join (k := 37) w]
  rw [show w.extractLsb' 37 27 ++ w.extractLsb' 33 4 = w.extractLsb' 33 31 from extract_join (k := 33) w]
  rw [show w.extractLsb' 33 31 ++ w.extractLsb' 30 3 = w.extractLsb' 30 34 from extract_join (k := 30) w]
  rw [show w.extractLsb' 30 34 ++ w.extractLsb' 29 1 = w.extractLsb' 29 35 from extract_join (k := 29) w]
  rw [show w.extractLsb' 29 35 ++ w.extractLsb' 28 1 = w.extractLsb' 28 36 from extract_join (k := 28) w]
  rw [show w.extractLsb' 28 36 ++ w.extractLsb' 26 2 = w.extractLsb' 26 38 from extract_join (k := 26) w]
  rw [show w.extractLsb' 26 38 ++ w.extractLsb' 24 2 = w.extractLsb' 24 40 from extract_join (k := 24) w]
  rw [show w.extractLsb' 24 40 ++ w.extractLsb' 16 8 = w.extractLsb' 16 48 from extract_join (k := 16) w]
  rw [show w.extractLsb' 16 48 ++ w.extractLsb' 0 16 = w.extractLsb' 0 64 from extract_join (k := 0) w]
  exact BitVec.extractLsb'_eq_self

@[simp] theorem FB.ofWord_toWord (f : FB) : FB.ofWord f.toWord = f := by
  cases f
  simp only [FB.ofWord, FB.toWord, FB.mk.injEq]
  refine ⟨?_, ?_, ?_, ?_, ?_, ?_, ?_⟩ <;>
    · repeat (first | refine (extract_low _ _ (by decide)).trans ?_ | refine (extract_high _ _ (by decide)).trans ?_)
      exact BitVec.extractLsb'_eq_self

theorem FB.toWord_op (f : FB) : f.toWord.extractLsb' 52 10 = f.op := congrArg FB.op (ofWord_toWord f)

theorem FB.toWord_63 (f : FB) : f.toWord.getLsbD 63 = false := by
  have h : f.toWord.extractLsb' 63 1 = 0#1 := by
    unfold FB.toWord
    repeat (first | refine (extract_low _ _ (by decide)).trans ?_ | refine (extract_high _ _ (by decide)).trans ?_)
    exact BitVec.extractLsb'_eq_self
  simpa using congrArg (fun x : BitVec 1 => x.getLsbD 0) h

/-- A word whose bit 63 is zero is its fields. -/
theorem FB.toWord_ofWord {w : Word} (h : w.getLsbD 63 = false) : (FB.ofWord w).toWord = w := by
  have h0 : (0#1 : BitVec 1) = w.extractLsb' 63 1 := by
    ext i hi
    obtain rfl : i = 0 := by omega
    simp [← BitVec.getLsbD_eq_getElem, h]
  simp only [FB.ofWord, FB.toWord, h0]
  rw [show w.extractLsb' 63 1 ++ w.extractLsb' 62 1 = w.extractLsb' 62 2 from extract_join (k := 62) w]
  rw [show w.extractLsb' 62 2 ++ w.extractLsb' 52 10 = w.extractLsb' 52 12 from extract_join (k := 52) w]
  rw [show w.extractLsb' 52 12 ++ w.extractLsb' 47 5 = w.extractLsb' 47 17 from extract_join (k := 47) w]
  rw [show w.extractLsb' 47 17 ++ w.extractLsb' 42 5 = w.extractLsb' 42 22 from extract_join (k := 42) w]
  rw [show w.extractLsb' 42 22 ++ w.extractLsb' 37 5 = w.extractLsb' 37 27 from extract_join (k := 37) w]
  rw [show w.extractLsb' 37 27 ++ w.extractLsb' 32 5 = w.extractLsb' 32 32 from extract_join (k := 32) w]
  rw [show w.extractLsb' 32 32 ++ w.extractLsb' 0 32 = w.extractLsb' 0 64 from extract_join (k := 0) w]
  exact BitVec.extractLsb'_eq_self

@[simp] theorem HF.ofBits_toBits (f : HF) : HF.ofBits f.toBits = f := by
  cases f
  simp only [HF.ofBits, HF.toBits, HF.mk.injEq]
  refine ⟨?_, ?_, ?_, ?_⟩ <;>
    · repeat (first | refine (extract_low _ _ (by decide)).trans ?_ | refine (extract_high _ _ (by decide)).trans ?_)
      exact BitVec.extractLsb'_eq_self

@[simp] theorem HF.toBits_ofBits (h : BitVec 31) : (HF.ofBits h).toBits = h := by
  simp only [HF.ofBits, HF.toBits]
  rw [show h.extractLsb' 24 7 ++ h.extractLsb' 19 5 = h.extractLsb' 19 12 from extract_join (k := 19) h]
  rw [show h.extractLsb' 19 12 ++ h.extractLsb' 14 5 = h.extractLsb' 14 17 from extract_join (k := 14) h]
  rw [show h.extractLsb' 14 17 ++ h.extractLsb' 0 14 = h.extractLsb' 0 31 from extract_join (k := 0) h]
  exact BitVec.extractLsb'_eq_self

@[simp] theorem pairWord_slot0 (h0 h1 : BitVec 31) : (pairWord h0 h1).extractLsb' 31 31 = h0 := by
  unfold pairWord
  repeat (first | refine (extract_low _ _ (by decide)).trans ?_ | refine (extract_high _ _ (by decide)).trans ?_)
  exact BitVec.extractLsb'_eq_self

@[simp] theorem pairWord_slot1 (h0 h1 : BitVec 31) : (pairWord h0 h1).extractLsb' 0 31 = h1 := by
  unfold pairWord
  refine (extract_low _ _ (by decide)).trans ?_
  exact BitVec.extractLsb'_eq_self

theorem pairWord_top (h0 h1 : BitVec 31) : (pairWord h0 h1).extractLsb' 62 2 = 2#2 := by
  unfold pairWord
  repeat (first | refine (extract_low _ _ (by decide)).trans ?_ | refine (extract_high _ _ (by decide)).trans ?_)
  exact BitVec.extractLsb'_eq_self

@[simp] theorem pairWord_63 (h0 h1 : BitVec 31) : (pairWord h0 h1).getLsbD 63 = true := by
  simpa using congrArg (fun x : BitVec 2 => x.getLsbD 1) (pairWord_top h0 h1)

@[simp] theorem pairWord_62 (h0 h1 : BitVec 31) : (pairWord h0 h1).getLsbD 62 = false := by
  simpa using congrArg (fun x : BitVec 2 => x.getLsbD 0) (pairWord_top h0 h1)

/-! ### Codes -/

@[simp] theorem IntTy.ofCode_code (t : IntTy) : IntTy.ofCode t.code = some t := by cases t <;> rfl
theorem IntTy.code_of {x : BitVec 3} {t : IntTy} (h : IntTy.ofCode x = some t) : t.code = x := by
  revert x
  cases t <;> decide

@[simp] theorem VIntTy.ofCode_code (t : VIntTy) : VIntTy.ofCode t.code = some t := by cases t <;> rfl
theorem VIntTy.code_of {x : BitVec 3} {t : VIntTy} (h : VIntTy.ofCode x = some t) : t.code = x := by
  revert x
  cases t <;> decide

@[simp] theorem FpTy.ofCode_code (t : FpTy) : FpTy.ofCode t.code = some t := by cases t <;> rfl
theorem FpTy.code_of {x : BitVec 3} {t : FpTy} (h : FpTy.ofCode x = some t) : t.code = x := by
  revert x
  cases t <;> decide

@[simp] theorem MatTy.ofCode_code (t : MatTy) : MatTy.ofCode t.code = some t := by rcases t with (_ | _ | _ | _) | _ <;> rfl
theorem MatTy.code_of {x : BitVec 3} {t : MatTy} (h : MatTy.ofCode x = some t) : t.code = x := by
  revert x
  rcases t with (_ | _ | _ | _) | _ <;> decide

@[simp] theorem MergeTy.ofCode_code (t : MergeTy) : MergeTy.ofCode t.code = some t := by cases t <;> rfl
theorem MergeTy.code_of {x : BitVec 3} {t : MergeTy} (h : MergeTy.ofCode x = some t) : t.code = x := by
  revert x
  cases t <;> decide

@[simp] theorem WTy.ofCode_code (t : WTy) : WTy.ofCode t.code = some t := by cases t <;> rfl
theorem WTy.code_of {x : BitVec 3} {t : WTy} (h : WTy.ofCode x = some t) : t.code = x := by
  revert x
  cases t <;> decide

@[simp] theorem MemTy.ofCode_code (t : MemTy) : MemTy.ofCode t.code = some t := by cases t <;> rfl
theorem MemTy.code_of {x : BitVec 3} {t : MemTy} (h : MemTy.ofCode x = some t) : t.code = x := by
  revert x
  cases t <;> decide

@[simp] theorem AmoTy.ofCode_code (t : AmoTy) : AmoTy.ofCode t.code = some t := by cases t <;> rfl
theorem AmoTy.code_of {x : BitVec 3} {t : AmoTy} (h : AmoTy.ofCode x = some t) : t.code = x := by
  revert x
  cases t <;> decide

@[simp] theorem TileTy.ofCode_code (t : TileTy) : TileTy.ofCode t.code = some t := by cases t <;> rfl
theorem TileTy.code_of {x : BitVec 3} {t : TileTy} (h : TileTy.ofCode x = some t) : t.code = x := by
  revert x
  cases t <;> decide

@[simp] theorem Rm.ofCode_code (t : Rm) : Rm.ofCode t.code = some t := by cases t <;> rfl
theorem Rm.code_of {x : BitVec 3} {t : Rm} (h : Rm.ofCode x = some t) : t.code = x := by
  revert x
  cases t <;> decide

@[simp] theorem Cond.ofCode_code (t : Cond) : Cond.ofCode t.code = some t := by cases t <;> rfl
theorem Cond.code_of {x : BitVec 4} {t : Cond} (h : Cond.ofCode x = some t) : t.code = x := by
  revert x
  cases t <;> decide

@[simp] theorem AmoOp.ofCode_code (t : AmoOp) : AmoOp.ofCode t.code = some t := by cases t <;> rfl
theorem AmoOp.code_of {x : BitVec 4} {t : AmoOp} (h : AmoOp.ofCode x = some t) : t.code = x := by
  revert x
  cases t <;> decide

@[simp] theorem Level.ofCode_code (t : Level) : Level.ofCode t.code = some t := by cases t <;> rfl
theorem Level.code_of {x : BitVec 3} {t : Level} (h : Level.ofCode x = some t) : t.code = x := by
  revert x
  cases t <;> decide

@[simp] theorem FenceKind.ofCode_code (k : FenceKind) : FenceKind.ofCode k.code = k := by cases k <;> rfl
theorem FenceKind.code_ofCode (x : BitVec 2) : (FenceKind.ofCode x).code = x := by revert x; decide

@[simp] theorem CReg.ofNumber_number (r : CReg) : CReg.ofNumber r.number = some r := by
  cases r <;> first | rfl | (rename_i c; revert c; decide)
theorem CReg.number_of {x : BitVec 12} {r : CReg} (h : CReg.ofNumber x = some r) : r.number = x := by
  revert x r; decide +kernel

@[simp] theorem low2_up5 (x : BitVec 2) : low2 (up5 x) = some x := by revert x; decide
@[simp] theorem feedQ_feed5 (q : QNum) : feedQ (feed5 q) = some q := by revert q; decide
@[simp] theorem readMask_up5 (m : MReg) : readMask (up5 m) = some m := by revert m; decide
theorem writeMask_up5 {m : MReg} (h : m.writable = true) : writeMask (up5 m) = some m := by revert m; decide
theorem up5_of_low2 {x : BitVec 5} {y : BitVec 2} (h : low2 x = some y) : up5 y = x := by revert x y; decide
theorem feed5_of {x : BitVec 5} {q : QNum} (h : feedQ x = some q) : feed5 q = x := by revert x q; decide
theorem up5_of_readMask {x : BitVec 5} {m : MReg} (h : readMask x = some m) : up5 m = x := by revert x m; decide
theorem up5_of_writeMask {x : BitVec 5} {m : MReg} (h : writeMask x = some m) : up5 m = x ∧ m.writable = true := by
  revert x m; decide

@[simp] theorem Src.ofFields_fields (a : Src) : Src.ofFields a.osel a.field = some a := by
  cases a <;> simp [Src.ofFields, Src.osel, Src.field]
@[simp] theorem RedDst.ofFields_fields (d : RedDst) : RedDst.ofFields d.osel d.field = some d := by
  cases d <;> simp [RedDst.ofFields, RedDst.osel, RedDst.field]
@[simp] theorem stvOf_fields (s : Option VReg) : stvOf (stvFn s) (stvB s) = some s := by
  cases s <;> simp [stvOf, stvFn, stvB]
@[simp] theorem partOf_fields (p : Option SReg) : partOf (partOe p) (partB p) = some p := by
  cases p <;> simp [partOf, partOe, partB]

end Sys2Proof
end

