-- ==== Sys2Proof/Laws/PerInstr.lean ====
section
/-! SUPPORT. One fact per instruction: the rows of the opcode table that are words have an encoding, the events have none. -/

open Sys2Proof.Machine

namespace Sys2Proof.Laws.Words

/-- An instruction has a word exactly if it is no event. -/
def Statement (i : Instr) : Prop := (encode i).isNone = isEvent i

theorem dieLinkFlit : Statement (.dieLinkFlit) := rfl
theorem codeWordRead : Statement (.codeWordRead) := rfl
theorem poisonedLineEviction : Statement (.poisonedLineEviction) := rfl
theorem scrubRead : Statement (.scrubRead) := rfl
theorem stackTemperatureReport : Statement (.stackTemperatureReport) := rfl
theorem selfRefreshEntry : Statement (.selfRefreshEntry) := rfl
theorem thermwaitExpiry : Statement (.thermwaitExpiry) := rfl
theorem stkthermWrite : Statement (.stkthermWrite) := rfl
theorem thermwaitWrite : Statement (.thermwaitWrite) := rfl
theorem pcieInboundRequest : Statement (.pcieInboundRequest) := rfl
theorem downstreamDmaWrite : Statement (.downstreamDmaWrite) := rfl
theorem cxlMemRead : Statement (.cxlMemRead) := rfl
theorem ualinkRequestSend : Statement (.ualinkRequestSend) := rfl
theorem peerRead : Statement (.peerRead) := rfl
theorem peerWrite : Statement (.peerWrite) := rfl
theorem peerAtomic : Statement (.peerAtomic) := rfl
theorem unknownPacket : Statement (.unknownPacket) := rfl
theorem responseArrival : Statement (.responseArrival) := rfl
theorem laneRepairRequest : Statement (.laneRepairRequest) := rfl
theorem replayDrainEnd : Statement (.replayDrainEnd) := rfl
theorem laneRepairDone : Statement (.laneRepairDone) := rfl
theorem portRetrain : Statement (.portRetrain) := rfl
theorem trainingEnd : Statement (.trainingEnd) := rfl
theorem portDown : Statement (.portDown) := rfl
theorem bootStart : Statement (.bootStart) := rfl
theorem bootStepPass : Statement (.bootStepPass) := rfl
theorem bootStepFail : Statement (.bootStepFail) := rfl
theorem bootStepTimeout : Statement (.bootStepTimeout) := rfl
theorem bootctlClr : Statement (.bootctlClr) := rfl
theorem bootctlRst : Statement (.bootctlRst) := rfl
theorem measurementExtend : Statement (.measurementExtend) := rfl
theorem attcmdGo : Statement (.attcmdGo) := rfl
theorem attestationReportWrite : Statement (.attestationReportWrite) := rfl
theorem pcumaskWrite : Statement (.pcumaskWrite) := rfl
theorem plsportWrite : Statement (.plsportWrite) := rfl
theorem pmbaseWrite : Statement (.pmbaseWrite) := rfl
theorem partitionRegisterWrite : Statement (.partitionRegisterWrite) := rfl
theorem powceilWrite : Statement (.powceilWrite) := rfl
theorem vdctlEnSet : Statement (.vdctlEnSet) := rfl
theorem vdctlEnClear : Statement (.vdctlEnClear) := rfl
theorem vdRegisterWrite : Statement (.vdRegisterWrite) := rfl
theorem notifyWrite : Statement (.notifyWrite) := rfl
theorem cntdataWrite : Statement (.cntdataWrite) := rfl
theorem cancelcmdStrand : Statement (.cancelcmdStrand) := rfl
theorem cancelcmdLaunch : Statement (.cancelcmdLaunch) := rfl
theorem cancelcmdGraph : Statement (.cancelcmdGraph) := rfl
theorem cancelcmdPhase : Statement (.cancelcmdPhase) := rfl
theorem cancelcmdJob : Statement (.cancelcmdJob) := rfl
theorem nopTake : Statement (.nopTake) := rfl
theorem launchTake : Statement (.launchTake) := rfl
theorem waitTake : Statement (.waitTake) := rfl
theorem signalTake : Statement (.signalTake) := rfl
theorem phaseTake : Statement (.phaseTake) := rfl
theorem waitRetire : Statement (.waitRetire) := rfl
theorem signalRetire : Statement (.signalRetire) := rfl
theorem phaseRetire : Statement (.phaseRetire) := rfl
theorem launchEligible : Statement (.launchEligible) := rfl
theorem strandStart : Statement (.strandStart) := rfl
theorem launchRetire : Statement (.launchRetire) := rfl
theorem strandEnd : Statement (.strandEnd) := rfl
theorem frameStart : Statement (.frameStart) := rfl
theorem lendingPoint : Statement (.lendingPoint) := rfl
theorem laneRenegotiation : Statement (.laneRenegotiation) := rfl
theorem laneFifoService : Statement (.laneFifoService) := rfl
theorem convoyStart : Statement (.convoyStart) := rfl
theorem convoyRetire : Statement (.convoyRetire) := rfl
theorem heldOperationRelease : Statement (.heldOperationRelease) := rfl
theorem squash : Statement (.squash) := rfl
theorem squashDeadline : Statement (.squashDeadline) := rfl
theorem qdeadTimeout : Statement (.qdeadTimeout) := rfl
theorem registerLineFill : Statement (.registerLineFill) := rfl
theorem replayRelease : Statement (.replayRelease) := rfl
theorem migctlGo : Statement (.migctlGo) := rfl
theorem migrationCopyEnd : Statement (.migrationCopyEnd) := rfl
theorem migctlRel : Statement (.migctlRel) := rfl
theorem wcbLineTimeout : Statement (.wcbLineTimeout) := rfl
theorem zeroLineEviction : Statement (.zeroLineEviction) := rfl
theorem mergePartArrival : Statement (.mergePartArrival) := rfl
theorem mergeTimeout : Statement (.mergeTimeout) := rfl
theorem unorderedMergeArrival : Statement (.unorderedMergeArrival) := rfl
theorem accessTableWrite : Statement (.accessTableWrite) := rfl
theorem leasedAccessArrival : Statement (.leasedAccessArrival) := rfl
theorem lenderEntryWrite : Statement (.lenderEntryWrite) := rfl
theorem leaseSetupMessage : Statement (.leaseSetupMessage) := rfl
theorem leaseRevokeMessage : Statement (.leaseRevokeMessage) := rfl
theorem revokeDrainDone : Statement (.revokeDrainDone) := rfl
theorem borrowerEntryWrite : Statement (.borrowerEntryWrite) := rfl
theorem leaseDoneMessage : Statement (.leaseDoneMessage) := rfl
theorem revtoExpiry : Statement (.revtoExpiry) := rfl
theorem trapTaken : Statement (.trapTaken) := rfl
theorem faultRecordPost : Statement (.faultRecordPost) := rfl
theorem fqresWrite : Statement (.fqresWrite) := rfl
theorem contextSave : Statement (.contextSave) := rfl
theorem cuShareSave : Statement (.cuShareSave) := rfl
theorem divertedLanding : Statement (.divertedLanding) := rfl
theorem restore : Statement (.restore) := rfl
theorem asyncfaultDelivery : Statement (.asyncfaultDelivery) := rfl
theorem ctxkillWrite : Statement (.ctxkillWrite) := rfl
theorem killComplete : Statement (.killComplete) := rfl
theorem requestAtTarget : Statement (.requestAtTarget) := rfl
theorem dbgrelWrite : Statement (.dbgrelWrite) := rfl
theorem trstatFlush : Statement (.trstatFlush) := rfl
theorem segmentSeal : Statement (.segmentSeal) := rfl
theorem segmentSend : Statement (.segmentSend) := rfl
theorem checkpointTimer : Statement (.checkpointTimer) := rfl
theorem sinvcmdWrite : Statement (.sinvcmdWrite) := rfl
theorem sinvComplete : Statement (.sinvComplete) := rfl
theorem copyBeat : Statement (.copyBeat) := rfl
theorem remoteShareBeat : Statement (.remoteShareBeat) := rfl
theorem chunkLanded : Statement (.chunkLanded) := rfl
theorem transferComplete : Statement (.transferComplete) := rfl
theorem cntwaitWake : Statement (.cntwaitWake) := rfl
theorem cntwaitTimeout : Statement (.cntwaitTimeout) := rfl
theorem waitaWake : Statement (.waitaWake) := rfl
theorem waitaTimeout : Statement (.waitaTimeout) := rfl
theorem cpwaitEnd : Statement (.cpwaitEnd) := rfl
theorem cpwaitTimeout : Statement (.cpwaitTimeout) := rfl
theorem registerWrite : Statement (.registerWrite) := rfl
theorem add (t : IntTy) (d : SReg) (a : SReg) (b : SReg) : Statement (.add t d a b) := rfl
theorem sub (t : IntTy) (d : SReg) (a : SReg) (b : SReg) : Statement (.sub t d a b) := rfl
theorem mul (t : IntTy) (d : SReg) (a : SReg) (b : SReg) : Statement (.mul t d a b) := rfl
theorem mulh (t : IntTy) (d : SReg) (a : SReg) (b : SReg) : Statement (.mulh t d a b) := rfl
theorem mulhn (t : IntTy) (d : SReg) (a : SReg) (b : SReg) : Statement (.mulhn t d a b) := rfl
theorem div (t : IntTy) (d : SReg) (a : SReg) (b : SReg) : Statement (.div t d a b) := rfl
theorem divn (t : IntTy) (d : SReg) (a : SReg) (b : SReg) : Statement (.divn t d a b) := rfl
theorem rem (t : IntTy) (d : SReg) (a : SReg) (b : SReg) : Statement (.rem t d a b) := rfl
theorem remn (t : IntTy) (d : SReg) (a : SReg) (b : SReg) : Statement (.remn t d a b) := rfl
theorem and (t : IntTy) (d : SReg) (a : SReg) (b : SReg) : Statement (.and t d a b) := rfl
theorem or (t : IntTy) (d : SReg) (a : SReg) (b : SReg) : Statement (.or t d a b) := rfl
theorem xor (t : IntTy) (d : SReg) (a : SReg) (b : SReg) : Statement (.xor t d a b) := rfl
theorem andn (t : IntTy) (d : SReg) (a : SReg) (b : SReg) : Statement (.andn t d a b) := rfl
theorem shl (t : IntTy) (d : SReg) (a : SReg) (b : SReg) : Statement (.shl t d a b) := rfl
theorem shr (t : IntTy) (d : SReg) (a : SReg) (b : SReg) : Statement (.shr t d a b) := rfl
theorem sra (t : IntTy) (d : SReg) (a : SReg) (b : SReg) : Statement (.sra t d a b) := rfl
theorem rotr (t : IntTy) (d : SReg) (a : SReg) (b : SReg) : Statement (.rotr t d a b) := rfl
theorem clz (t : IntTy) (d : SReg) (a : SReg) : Statement (.clz t d a) := rfl
theorem ctz (t : IntTy) (d : SReg) (a : SReg) : Statement (.ctz t d a) := rfl
theorem popc (t : IntTy) (d : SReg) (a : SReg) : Statement (.popc t d a) := rfl
theorem min (t : IntTy) (d : SReg) (a : SReg) (b : SReg) : Statement (.min t d a b) := rfl
theorem max (t : IntTy) (d : SReg) (a : SReg) (b : SReg) : Statement (.max t d a b) := rfl
theorem minn (t : IntTy) (d : SReg) (a : SReg) (b : SReg) : Statement (.minn t d a b) := rfl
theorem maxn (t : IntTy) (d : SReg) (a : SReg) (b : SReg) : Statement (.maxn t d a b) := rfl
theorem slt (t : IntTy) (d : SReg) (a : SReg) (b : SReg) : Statement (.slt t d a b) := rfl
theorem sltn (t : IntTy) (d : SReg) (a : SReg) (b : SReg) : Statement (.sltn t d a b) := rfl
theorem seq (t : IntTy) (d : SReg) (a : SReg) (b : SReg) : Statement (.seq t d a b) := rfl
theorem csel (d : SReg) (a : SReg) (b : SReg) : Statement (.csel d a b) := rfl
theorem addi (t : IntTy) (d : SReg) (a : SReg) (imm : BitVec 32) : Statement (.addi t d a imm) := rfl
theorem andi (t : IntTy) (d : SReg) (a : SReg) (imm : BitVec 32) : Statement (.andi t d a imm) := rfl
theorem ori (t : IntTy) (d : SReg) (a : SReg) (imm : BitVec 32) : Statement (.ori t d a imm) := rfl
theorem xori (t : IntTy) (d : SReg) (a : SReg) (imm : BitVec 32) : Statement (.xori t d a imm) := rfl
theorem shli (t : IntTy) (d : SReg) (a : SReg) (n : BitVec 6) : Statement (.shli t d a n) := rfl
theorem shri (t : IntTy) (d : SReg) (a : SReg) (n : BitVec 6) : Statement (.shri t d a n) := rfl
theorem srai (t : IntTy) (d : SReg) (a : SReg) (n : BitVec 6) : Statement (.srai t d a n) := rfl
theorem slti (t : IntTy) (d : SReg) (a : SReg) (imm : BitVec 32) : Statement (.slti t d a imm) := rfl
theorem movi (d : SReg) (imm : BitVec 32) : Statement (.movi d imm) := rfl
theorem movhi (d : SReg) (imm : BitVec 32) : Statement (.movhi d imm) := rfl
theorem fadd (t : FpTy) (rm : Rm) (d : SReg) (a : SReg) (b : SReg) : Statement (.fadd t rm d a b) := rfl
theorem fsub (t : FpTy) (rm : Rm) (d : SReg) (a : SReg) (b : SReg) : Statement (.fsub t rm d a b) := rfl
theorem fmul (t : FpTy) (rm : Rm) (d : SReg) (a : SReg) (b : SReg) : Statement (.fmul t rm d a b) := rfl
theorem fdiv (t : FpTy) (rm : Rm) (d : SReg) (a : SReg) (b : SReg) : Statement (.fdiv t rm d a b) := rfl
theorem fsqrt (t : FpTy) (rm : Rm) (d : SReg) (a : SReg) : Statement (.fsqrt t rm d a) := rfl
theorem fma (t : FpTy) (rm : Rm) (d : SReg) (a : SReg) (b : SReg) : Statement (.fma t rm d a b) := rfl
theorem fmin (t : FpTy) (d : SReg) (a : SReg) (b : SReg) : Statement (.fmin t d a b) := rfl
theorem fmax (t : FpTy) (d : SReg) (a : SReg) (b : SReg) : Statement (.fmax t d a b) := rfl
theorem fcmp (t : FpTy) (k : Cond) (d : SReg) (a : SReg) (b : SReg) : Statement (.fcmp t k d a b) := rfl
theorem fcvt (k : Cvt) (rm : Rm) (d : SReg) (a : SReg) : Statement (.fcvt k rm d a) := rfl
theorem fclass (t : FpTy) (d : SReg) (a : SReg) : Statement (.fclass t d a) := rfl
theorem beq (a : SReg) (b : SReg) (disp : BitVec 32) : Statement (.beq a b disp) := rfl
theorem bne (a : SReg) (b : SReg) (disp : BitVec 32) : Statement (.bne a b disp) := rfl
theorem blt (a : SReg) (b : SReg) (disp : BitVec 32) : Statement (.blt a b disp) := rfl
theorem bge (a : SReg) (b : SReg) (disp : BitVec 32) : Statement (.bge a b disp) := rfl
theorem bltn (a : SReg) (b : SReg) (disp : BitVec 32) : Statement (.bltn a b disp) := rfl
theorem bgen (a : SReg) (b : SReg) (disp : BitVec 32) : Statement (.bgen a b disp) := rfl
theorem j (disp : BitVec 32) : Statement (.j disp) := rfl
theorem jal (d : SReg) (disp : BitVec 32) : Statement (.jal d disp) := rfl
theorem jr (a : SReg) : Statement (.jr a) := rfl
theorem jalr (d : SReg) (a : SReg) : Statement (.jalr d a) := rfl
theorem loop (lv : BitVec 1) (a : SReg) (disp : BitVec 32) : Statement (.loop lv a disp) := rfl
theorem loopi (lv : BitVec 1) (n : BitVec 15) (disp : BitVec 32) : Statement (.loopi lv n disp) := rfl
theorem bmz (disp : BitVec 32) : Statement (.bmz disp) := rfl
theorem bmnz (disp : BitVec 32) : Statement (.bmnz disp) := rfl
theorem trap (imm : BitVec 32) : Statement (.trap imm) := rfl
theorem brk (imm : BitVec 32) : Statement (.brk imm) := rfl
theorem eret : Statement (.eret) := rfl
theorem getc (d : SReg) (r : CReg) : Statement (.getc d r) := rfl
theorem copyLaunch (d : SReg) (ch : BitVec 2) : Statement (.copyLaunch d ch) := rfl
theorem setc (r : CReg) (a : SReg) : Statement (.setc r a) := rfl
theorem setci (r : CReg) (imm : BitVec 20) : Statement (.setci r imm) := rfl
theorem deal (d : SReg) (a : SReg) : Statement (.deal d a) := rfl
theorem exit : Statement (.exit) := rfl
theorem yield : Statement (.yield) := rfl
theorem cntinc (a : SReg) (imm : BitVec 32) : Statement (.cntinc a imm) := rfl
theorem cntwait (d : SReg) (a : SReg) (b : SReg) : Statement (.cntwait d a b) := rfl
theorem cancel (lv : Level) (a : SReg) : Statement (.cancel lv a) := rfl
theorem qpush (q : QNum) (a : SReg) : Statement (.qpush q a) := rfl
theorem qpop (d : SReg) (q : QNum) : Statement (.qpop d q) := rfl
theorem sptr (d : SReg) (k : BitVec 8) (a : SReg) : Statement (.sptr d k a) := rfl
theorem slotq (d : SReg) (k : BitVec 8) : Statement (.slotq d k) := rfl
theorem slotsync (k : BitVec 8) : Statement (.slotsync k) := rfl
theorem slotset (a : SReg) (b : SReg) : Statement (.slotset a b) := rfl
theorem slotinv (a : SReg) (b : SReg) : Statement (.slotinv a b) := rfl
theorem incfence (a : SReg) : Statement (.incfence a) := rfl
theorem mark (a : SReg) : Statement (.mark a) := rfl
theorem setvl (t : WTy) (d : SReg) (a : SReg) : Statement (.setvl t d a) := rfl
theorem msetvl (t : WTy) (d : SReg) (a : SReg) : Statement (.msetvl t d a) := rfl
theorem vadd (c : Bool) (mk : MReg) (t : VIntTy) (d : VReg) (a : Src) (b : VReg) : Statement (.vadd c mk t d a b) := rfl
theorem vsub (c : Bool) (mk : MReg) (t : VIntTy) (d : VReg) (a : Src) (b : VReg) : Statement (.vsub c mk t d a b) := rfl
theorem vmul (c : Bool) (mk : MReg) (t : VIntTy) (d : VReg) (a : Src) (b : VReg) : Statement (.vmul c mk t d a b) := rfl
theorem vmulh (c : Bool) (mk : MReg) (t : VIntTy) (d : VReg) (a : Src) (b : VReg) : Statement (.vmulh c mk t d a b) := rfl
theorem vmin (c : Bool) (mk : MReg) (t : VIntTy) (d : VReg) (a : Src) (b : VReg) : Statement (.vmin c mk t d a b) := rfl
theorem vmax (c : Bool) (mk : MReg) (t : VIntTy) (d : VReg) (a : Src) (b : VReg) : Statement (.vmax c mk t d a b) := rfl
theorem vand (c : Bool) (mk : MReg) (t : VIntTy) (d : VReg) (a : Src) (b : VReg) : Statement (.vand c mk t d a b) := rfl
theorem vor (c : Bool) (mk : MReg) (t : VIntTy) (d : VReg) (a : Src) (b : VReg) : Statement (.vor c mk t d a b) := rfl
theorem vxor (c : Bool) (mk : MReg) (t : VIntTy) (d : VReg) (a : Src) (b : VReg) : Statement (.vxor c mk t d a b) := rfl
theorem vshl (c : Bool) (mk : MReg) (t : VIntTy) (d : VReg) (a : Src) (b : VReg) : Statement (.vshl c mk t d a b) := rfl
theorem vshr (c : Bool) (mk : MReg) (t : VIntTy) (d : VReg) (a : Src) (b : VReg) : Statement (.vshr c mk t d a b) := rfl
theorem vsra (c : Bool) (mk : MReg) (t : VIntTy) (d : VReg) (a : Src) (b : VReg) : Statement (.vsra c mk t d a b) := rfl
theorem vsadd (c : Bool) (mk : MReg) (t : VIntTy) (d : VReg) (a : Src) (b : VReg) : Statement (.vsadd c mk t d a b) := rfl
theorem vssub (c : Bool) (mk : MReg) (t : VIntTy) (d : VReg) (a : Src) (b : VReg) : Statement (.vssub c mk t d a b) := rfl
theorem vabs (c : Bool) (mk : MReg) (t : VIntTy) (d : VReg) (a : VReg) : Statement (.vabs c mk t d a) := rfl
theorem vfadd (c : Bool) (mk : MReg) (t : FpTy) (rm : Rm) (d : VReg) (a : Src) (b : VReg) : Statement (.vfadd c mk t rm d a b) := rfl
theorem vfsub (c : Bool) (mk : MReg) (t : FpTy) (rm : Rm) (d : VReg) (a : Src) (b : VReg) : Statement (.vfsub c mk t rm d a b) := rfl
theorem vfmul (c : Bool) (mk : MReg) (t : FpTy) (rm : Rm) (d : VReg) (a : Src) (b : VReg) : Statement (.vfmul c mk t rm d a b) := rfl
theorem vfdiv (c : Bool) (mk : MReg) (t : FpTy) (rm : Rm) (d : VReg) (a : Src) (b : VReg) : Statement (.vfdiv c mk t rm d a b) := rfl
theorem vfsqrt (c : Bool) (mk : MReg) (t : FpTy) (rm : Rm) (d : VReg) (a : VReg) : Statement (.vfsqrt c mk t rm d a) := rfl
theorem vfma (c : Bool) (mk : MReg) (t : FpTy) (rm : Rm) (d : VReg) (a : Src) (b : VReg) : Statement (.vfma c mk t rm d a b) := rfl
theorem vfms (c : Bool) (mk : MReg) (t : FpTy) (rm : Rm) (d : VReg) (a : Src) (b : VReg) : Statement (.vfms c mk t rm d a b) := rfl
theorem vfnma (c : Bool) (mk : MReg) (t : FpTy) (rm : Rm) (d : VReg) (a : Src) (b : VReg) : Statement (.vfnma c mk t rm d a b) := rfl
theorem vfmin (c : Bool) (mk : MReg) (t : FpTy) (d : VReg) (a : Src) (b : VReg) : Statement (.vfmin c mk t d a b) := rfl
theorem vfmax (c : Bool) (mk : MReg) (t : FpTy) (d : VReg) (a : Src) (b : VReg) : Statement (.vfmax c mk t d a b) := rfl
theorem vfabs (c : Bool) (mk : MReg) (t : FpTy) (d : VReg) (a : VReg) : Statement (.vfabs c mk t d a) := rfl
theorem vfneg (c : Bool) (mk : MReg) (t : FpTy) (d : VReg) (a : VReg) : Statement (.vfneg c mk t d a) := rfl
theorem vfrsqe (c : Bool) (mk : MReg) (t : FpTy) (d : VReg) (a : VReg) : Statement (.vfrsqe c mk t d a) := rfl
theorem vfrcpe (c : Bool) (mk : MReg) (t : FpTy) (d : VReg) (a : VReg) : Statement (.vfrcpe c mk t d a) := rfl
theorem vfexp2 (c : Bool) (mk : MReg) (t : FpTy) (rm : Rm) (d : VReg) (a : VReg) : Statement (.vfexp2 c mk t rm d a) := rfl
theorem vflog2 (c : Bool) (mk : MReg) (t : FpTy) (rm : Rm) (d : VReg) (a : VReg) : Statement (.vflog2 c mk t rm d a) := rfl
theorem vcmp (c : Bool) (mk : MReg) (t : VIntTy) (k : Cond) (md : MReg) (a : Src) (b : VReg) : Statement (.vcmp c mk t k md a b) := rfl
theorem vfcmp (c : Bool) (mk : MReg) (t : FpTy) (k : Cond) (md : MReg) (a : Src) (b : VReg) : Statement (.vfcmp c mk t k md a b) := rfl
theorem vfclass (c : Bool) (mk : MReg) (t : FpTy) (d : VReg) (a : VReg) : Statement (.vfclass c mk t d a) := rfl
theorem mand (c : Bool) (md : MReg) (ma : MReg) (mb : MReg) : Statement (.mand c md ma mb) := rfl
theorem mor (c : Bool) (md : MReg) (ma : MReg) (mb : MReg) : Statement (.mor c md ma mb) := rfl
theorem mxor (c : Bool) (md : MReg) (ma : MReg) (mb : MReg) : Statement (.mxor c md ma mb) := rfl
theorem mandn (c : Bool) (md : MReg) (ma : MReg) (mb : MReg) : Statement (.mandn c md ma mb) := rfl
theorem mnot (c : Bool) (md : MReg) (ma : MReg) : Statement (.mnot c md ma) := rfl
theorem mmov (c : Bool) (md : MReg) (ma : MReg) : Statement (.mmov c md ma) := rfl
theorem mpopc (c : Bool) (mk : MReg) (q : QNum) (ma : MReg) : Statement (.mpopc c mk q ma) := rfl
theorem mfirst (c : Bool) (mk : MReg) (q : QNum) (ma : MReg) : Statement (.mfirst c mk q ma) := rfl
theorem mpush (c : Bool) (ma : MReg) : Statement (.mpush c ma) := rfl
theorem minv (c : Bool) : Statement (.minv c) := rfl
theorem mpop (c : Bool) : Statement (.mpop c) := rfl
theorem mtop (c : Bool) (md : MReg) : Statement (.mtop c md) := rfl
theorem vcompress (c : Bool) (mk : MReg) (t : WTy) (d : VReg) (a : VReg) : Statement (.vcompress c mk t d a) := rfl
theorem viota (c : Bool) (mk : MReg) (t : WTy) (d : VReg) : Statement (.viota c mk t d) := rfl
theorem vperm (c : Bool) (mk : MReg) (t : WTy) (d : VReg) (a : VReg) (b : VReg) : Statement (.vperm c mk t d a b) := rfl
theorem vslideup (c : Bool) (mk : MReg) (t : WTy) (d : VReg) (a : VReg) (b : SReg) : Statement (.vslideup c mk t d a b) := rfl
theorem vslidedn (c : Bool) (mk : MReg) (t : WTy) (d : VReg) (a : VReg) (b : SReg) : Statement (.vslidedn c mk t d a b) := rfl
theorem vbcast (c : Bool) (mk : MReg) (t : WTy) (d : VReg) (a : Src) : Statement (.vbcast c mk t d a) := rfl
theorem vextr (c : Bool) (t : WTy) (q : QNum) (a : VReg) (b : SReg) : Statement (.vextr c t q a b) := rfl
theorem vins (c : Bool) (t : WTy) (d : VReg) (a : Src) (b : SReg) : Statement (.vins c t d a b) := rfl
theorem vmerge (c : Bool) (mk : MReg) (t : WTy) (d : VReg) (a : VReg) (b : VReg) : Statement (.vmerge c mk t d a b) := rfl
theorem vmov (c : Bool) (mk : MReg) (t : WTy) (d : VReg) (a : VReg) : Statement (.vmov c mk t d a) := rfl
theorem vredsum (c : Bool) (mk : MReg) (t : VIntTy) (d : RedDst) (a : VReg) (st : Option VReg) : Statement (.vredsum c mk t d a st) := rfl
theorem vredmin (c : Bool) (mk : MReg) (t : VIntTy) (d : RedDst) (a : VReg) (st : Option VReg) : Statement (.vredmin c mk t d a st) := rfl
theorem vredmax (c : Bool) (mk : MReg) (t : VIntTy) (d : RedDst) (a : VReg) (st : Option VReg) : Statement (.vredmax c mk t d a st) := rfl
theorem vfredsum (c : Bool) (mk : MReg) (t : FpTy) (rm : Rm) (d : RedDst) (a : VReg) (st : Option VReg) : Statement (.vfredsum c mk t rm d a st) := rfl
theorem vfredmin (c : Bool) (mk : MReg) (t : FpTy) (d : RedDst) (a : VReg) (st : Option VReg) : Statement (.vfredmin c mk t d a st) := rfl
theorem vfredmax (c : Bool) (mk : MReg) (t : FpTy) (d : RedDst) (a : VReg) (st : Option VReg) : Statement (.vfredmax c mk t d a st) := rfl
theorem vcvt (c : Bool) (mk : MReg) (t : VIntTy) (src : VIntTy) (d : VReg) (a : VReg) : Statement (.vcvt c mk t src d a) := rfl
theorem vfcvt (c : Bool) (mk : MReg) (k : VCvt) (rm : Rm) (d : VReg) (a : VReg) : Statement (.vfcvt c mk k rm d a) := rfl
theorem vresenc (c : Bool) (mk : MReg) (t : VIntTy) (d : VReg) (a : VReg) : Statement (.vresenc c mk t d a) := rfl
theorem vresdec (c : Bool) (mk : MReg) (t : VIntTy) (d : VReg) (a : VReg) : Statement (.vresdec c mk t d a) := rfl
theorem vresmac (c : Bool) (mk : MReg) (d : VReg) (a : VReg) (b : VReg) : Statement (.vresmac c mk d a b) := rfl
theorem vresadd (c : Bool) (mk : MReg) (d : VReg) (a : VReg) (b : VReg) : Statement (.vresadd c mk d a b) := rfl
theorem vresmul (c : Bool) (mk : MReg) (d : VReg) (a : VReg) (b : VReg) : Statement (.vresmul c mk d a b) := rfl
theorem ld (d : SReg) (m : Addr) (ch : BitVec 2) (x : LdForm) : Statement (.ld d m ch x) := rfl
theorem st (d : SReg) (m : Addr) (ch : BitVec 2) (x : StForm) : Statement (.st d m ch x) := rfl
theorem ldacq (t : MemTy) (d : SReg) (m : Addr) (off : BitVec 16) : Statement (.ldacq t d m off) := rfl
theorem strel (t : MemTy) (d : SReg) (m : Addr) (off : BitVec 16) : Statement (.strel t d m off) := rfl
theorem amo (op : AmoOp) (t : AmoTy) (ord : BitVec 2) (d : SReg) (m : Addr) (off : BitVec 12) (b : SReg) : Statement (.amo op t ord d m off b) := rfl
theorem vld (v : VAcc) (d : VReg) (m : Addr) (ch : BitVec 2) (x : LdForm) : Statement (.vld v d m ch x) := rfl
theorem vlds (v : VAcc) (d : VReg) (m : Addr) (ch : BitVec 2) (x : LdForm) (b : SReg) : Statement (.vlds v d m ch x b) := rfl
theorem vldx (v : VAcc) (d : VReg) (m : Addr) (ch : BitVec 2) (x : LdForm) (b : VReg) : Statement (.vldx v d m ch x b) := rfl
theorem vldff (v : VAcc) (d : VReg) (m : Addr) (ch : BitVec 2) (x : LdForm) (q : QNum) : Statement (.vldff v d m ch x q) := rfl
theorem vldsc (v : VAcc) (d : VReg) (m : Addr) (ch : BitVec 2) (off : BitVec 14) : Statement (.vldsc v d m ch off) := rfl
theorem vst (v : VAcc) (d : VReg) (m : Addr) (ch : BitVec 2) (x : StForm) : Statement (.vst v d m ch x) := rfl
theorem vsts (v : VAcc) (d : VReg) (m : Addr) (ch : BitVec 2) (x : StForm) (b : SReg) : Statement (.vsts v d m ch x b) := rfl
theorem vstx (v : VAcc) (d : VReg) (m : Addr) (ch : BitVec 2) (x : StForm) (b : VReg) : Statement (.vstx v d m ch x b) := rfl
theorem vamo (v : VAcc) (op : AmoOp) (t : AmoTy) (ord : BitVec 2) (d : VReg) (m : Addr) (off : BitVec 12) (b : VReg) : Statement (.vamo v op t ord d m off b) := rfl
theorem zline (m : Addr) (off : BitVec 16) : Statement (.zline m off) := rfl
theorem fence (k : FenceKind) (sc : BitVec 2) : Statement (.fence k sc) := rfl
theorem waita (t : AmoTy) (d : SReg) (m : Addr) (off : BitVec 16) (b : SReg) : Statement (.waita t d m off b) := rfl
theorem pref (m : Addr) (ch : BitVec 2) (off : BitVec 16) : Statement (.pref m ch off) := rfl
theorem mopa (c : Bool) (mk : MReg) (k : MopTy) (mc : MReg) (td : TReg) (a : VReg) (b : VReg) : Statement (.mopa c mk k mc td a b) := rfl
theorem mops (c : Bool) (mk : MReg) (k : MopTy) (mc : MReg) (td : TReg) (a : VReg) (b : VReg) : Statement (.mops c mk k mc td a b) := rfl
theorem mzero (c : Bool) (td : TReg) : Statement (.mzero c td) := rfl
theorem mldt (v : VAcc) (td : TReg) (m : Addr) (ch : BitVec 2) (x : TileLd) (b : SReg) : Statement (.mldt v td m ch x b) := rfl
theorem mstt (v : VAcc) (td : TReg) (m : Addr) (ch : BitVec 2) (x : TileSt) (b : SReg) : Statement (.mstt v td m ch x b) := rfl
theorem mmerge (c : Bool) (mk : MReg) (t : MergeTy) (part : Option SReg) (td : TReg) (m : Addr) (off : BitVec 16) : Statement (.mmerge c mk t part td m off) := rfl
theorem mrow (c : Bool) (d : VReg) (ta : TReg) (b : SReg) : Statement (.mrow c d ta b) := rfl
theorem mwrow (c : Bool) (td : TReg) (a : VReg) (b : SReg) : Statement (.mwrow c td a b) := rfl
theorem mfold (c : Bool) (mk : MReg) (rm : Rm) (td : TReg) (ts : TReg) (a : VReg) (b : VReg) : Statement (.mfold c mk rm td ts a b) := rfl
theorem mcvt (c : Bool) (mk : MReg) (t : MatTy) (rm : Rm) (td : TReg) (ta : TReg) (src : MergeTy) : Statement (.mcvt c mk t rm td ta src) := rfl
theorem cpwait (d : SReg) (a : SReg) : Statement (.cpwait d a) := rfl
theorem cpcancel (a : SReg) : Statement (.cpcancel a) := rfl
theorem halfNop : Statement (.halfNop) := rfl
theorem halfMov (d : SReg) (a : SReg) (mate : Option Half) : Statement (.halfMov d a mate) := rfl
theorem halfAdd (d : SReg) (a : SReg) (mate : Option Half) : Statement (.halfAdd d a mate) := rfl
theorem halfSub (d : SReg) (a : SReg) (mate : Option Half) : Statement (.halfSub d a mate) := rfl
theorem halfAnd (d : SReg) (a : SReg) (mate : Option Half) : Statement (.halfAnd d a mate) := rfl
theorem halfOr (d : SReg) (a : SReg) (mate : Option Half) : Statement (.halfOr d a mate) := rfl
theorem halfXor (d : SReg) (a : SReg) (mate : Option Half) : Statement (.halfXor d a mate) := rfl
theorem halfShl (d : SReg) (a : SReg) (mate : Option Half) : Statement (.halfShl d a mate) := rfl
theorem halfShr (d : SReg) (a : SReg) (mate : Option Half) : Statement (.halfShr d a mate) := rfl
theorem halfSra (d : SReg) (a : SReg) (mate : Option Half) : Statement (.halfSra d a mate) := rfl
theorem halfAddi (d : SReg) (a : SReg) (imm : BitVec 14) (mate : Option Half) : Statement (.halfAddi d a imm mate) := rfl
theorem halfAndi (d : SReg) (a : SReg) (imm : BitVec 14) (mate : Option Half) : Statement (.halfAndi d a imm mate) := rfl
theorem halfShli (d : SReg) (a : SReg) (n : BitVec 6) (mate : Option Half) : Statement (.halfShli d a n mate) := rfl
theorem halfShri (d : SReg) (a : SReg) (n : BitVec 6) (mate : Option Half) : Statement (.halfShri d a n mate) := rfl
theorem halfSrai (d : SReg) (a : SReg) (n : BitVec 6) (mate : Option Half) : Statement (.halfSrai d a n mate) := rfl
theorem halfSlti (d : SReg) (a : SReg) (imm : BitVec 14) (mate : Option Half) : Statement (.halfSlti d a imm mate) := rfl
theorem halfMovi (d : SReg) (imm : BitVec 14) (mate : Option Half) : Statement (.halfMovi d imm mate) := rfl
theorem halfLdD (d : SReg) (a : SReg) (imm : BitVec 14) : Statement (.halfLdD d a imm) := rfl
theorem halfLdW (d : SReg) (a : SReg) (imm : BitVec 14) : Statement (.halfLdW d a imm) := rfl
theorem halfStD (d : SReg) (a : SReg) (imm : BitVec 14) : Statement (.halfStD d a imm) := rfl
theorem halfStW (d : SReg) (a : SReg) (imm : BitVec 14) : Statement (.halfStW d a imm) := rfl
theorem halfBz (a : SReg) (imm : BitVec 14) : Statement (.halfBz a imm) := rfl
theorem halfBnz (a : SReg) (imm : BitVec 14) : Statement (.halfBnz a imm) := rfl
theorem halfQpush (q : QNum) (a : SReg) (mate : Option Half) : Statement (.halfQpush q a mate) := rfl
theorem halfQpop (d : SReg) (q : QNum) (mate : Option Half) : Statement (.halfQpop d q mate) := rfl
theorem applicationCoreAccess : Statement (.applicationCoreAccess) := rfl
theorem dispatchBucketCharge : Statement (.dispatchBucketCharge) := rfl
theorem segmentWriteCompletion : Statement (.segmentWriteCompletion) := rfl
theorem checkpointComplete : Statement (.checkpointComplete) := rfl

end Sys2Proof.Laws.Words
end

