-- ==== Sys2Proof/Laws/Preempt.lean ====
section
/-! SUPPORT. A save by the copier writes memory and leaves the strand's registers. -/

namespace Sys2Proof.Machine

/-- Writing the bytes of every item of a list leaves the strand. -/
theorem foldl_home_me {α : Type} (f : State → α → Nat) (g : State → α → List Byte) (l : List α) (s : State) :
    (l.foldl (fun s x => s.setHomeBytes (f s x) (g s x)) s).me = s.me :=
  foldl_me _ (fun _ _ => State.setHomeBytes_me _ _ _) _ _

@[simp] theorem State.saveQueue_me (s : State) (a : Nat) (l : List Word) (n : Nat) : (s.saveQueue a l n).me = s.me := by
  simp [State.saveQueue, foldl_me]

-- The lists of indexes become variables before the rewriting: no byte of a tile is ever computed.
@[simp] theorem State.saveRegLines_me (s : State) (a i : Nat) (b : List Byte) : (s.saveRegLines a i b).me = s.me := by
  simp only [State.saveRegLines]
  split
  · exact State.setHomeBytes_me _ _ _
  · exact foldl_home_me _ _ _ _

@[simp] theorem State.saveLines_me (s : State) (a : Nat) : (s.saveLines a).me = s.me := by
  rw [State.saveLines]
  generalize List.range 4 = l
  generalize List.range 32 = l'
  rw [foldl_me _ fun _ _ => State.saveRegLines_me _ _ _ _, foldl_me _ fun _ _ => State.saveRegLines_me _ _ _ _]

@[simp] theorem State.saveEager_me (s : State) (a : Nat) : (s.saveEager a).me = s.me := by
  rw [State.saveEager]
  generalize List.range 4 = l
  generalize List.range 32 = l'
  generalize List.range 14 = l''
  have h : ∀ (l : List Nat) (s : State) (k : Strand), (l.foldl (fun s n =>
      (s.saveQueue (a + 0x20400 + 0x100 * n) ((k.fromQ (BitVec.ofNat 2 n)).map fun e => e.val) 0).saveQueue
        (a + 0x20800 + 0x100 * n) ((k.toQ (BitVec.ofNat 2 n)).map fun e => e.val) (k.skipOf (BitVec.ofNat 2 n))) s).me = s.me :=
    fun l s k => foldl_me _ (fun _ _ => (State.saveQueue_me _ _ _ _).trans (State.saveQueue_me _ _ _ _)) _ _
  simp only [foldl_home_me, State.setHomeBytes_me, h]

@[simp] theorem State.saveShare_me (s : State) (a : Nat) : (s.saveShare a).me = s.me := by
  rw [State.saveShare, State.setHomeBytes_me]

@[simp] theorem State.freeSplit_me (s : State) (cu : Nat) : (s.freeSplit cu).me = s.me := by
  unfold State.freeSplit; split <;> rfl

@[simp] theorem State.forward_me (s : State) (a : Nat) (op : MemOp) : (s.forward a op).me = s.me := by
  unfold State.forward; split <;> rfl

@[simp] theorem State.hostPut_me (s : State) (a n : Nat) : (s.hostPut a n).me = s.me := by
  unfold State.hostPut
  split
  · rfl
  · rw [foldl_me]; intro s i; rw [State.forward_me]

@[simp] theorem State.copied_me (s : State) (a n : Nat) : (s.copied a n).me = s.me := by
  unfold State.copied
  rw [State.hostPut_me, foldl_me]
  intro s l
  simp

/-- What a save leaves of the strand. -/
theorem State.saveStrand_me (s : State) : s.saveStrand.me = { s.me with saved := true, share := [], async := [] } := by
  rw [State.saveStrand, State.freeSplit_me]
  have g : ∀ (s : State) (n : Nat) (c : Cu),
      ((s.setCu n c).onMe fun k => { k with saved := true, share := [], async := [] }).me =
        (fun k : Strand => { k with saved := true, share := [], async := [] }) s.me := fun _ _ _ => rfl
  rw [g, foldl_me _ fun _ _ => State.setPoison_me _ _ _, State.copied_me, State.saveShare_me, State.saveEager_me, State.saveLines_me]

end Sys2Proof.Machine
end

