-- ==== Sys2Proof/Tests/Slice0.lean ====
section
/-! SUPPORT. Tests: words written out from the encodings of spec 12, ill-formed terms, one step on small states, and for each
statement with hypotheses a state and operands that meet them. -/

open Sys2Proof Sys2Proof.Machine

namespace Sys2Proof.Tests

set_option Elab.async false

/-! ### Decoding (R234 to R251): every constructor that has a word -/

theorem test_decode_integer_registers : ([
    0x0000FC0000000000, 0x0011782040000000, 0x0021F44080000000, 0x00327060C0000000, 0x0042EC8100000000,
    0x005368A140000000, 0x0063E4C180000000, 0x007460E1C0000000, 0x0084DD0000000000, 0x0095592040000000,
    0x00A5D54080000000, 0x00B65160C0000000, 0x00C6CD8100000000, 0x00D749A140000000, 0x00E7C5C180000000,
    0x00F841E1C0000000, 0x0108BE0000000000, 0x01493A2040000000, 0x0159B64080000000, 0x016A3260C0000000,
    0x017AAE8100000000, 0x018B2AA140000000, 0x019BA6C180000000, 0x01AC22E1C0000000, 0x0112440080000000,
    0x01224800C0000000, 0x01324C0100000000, 0x01BF060000000000] : List Word).map (fun w => (decode w).toOption) =
    [some (.add .i8 1 31 0),
     some (.sub .i16 2 30 1),
     some (.mul .i32 3 29 2),
     some (.mulh .i64 4 28 3),
     some (.mulhn .n8 5 27 4),
     some (.div .n16 6 26 5),
     some (.divn .n32 7 25 6),
     some (.rem .n64 8 24 7),
     some (.remn .i8 9 23 8),
     some (.and .i16 10 22 9),
     some (.or .i32 11 21 10),
     some (.xor .i64 12 20 11),
     some (.andn .n8 13 19 12),
     some (.shl .n16 14 18 13),
     some (.shr .n32 15 17 14),
     some (.sra .n64 16 16 15),
     some (.rotr .i8 17 15 16),
     some (.min .i16 18 14 17),
     some (.max .i32 19 13 18),
     some (.minn .i64 20 12 19),
     some (.maxn .n8 21 11 20),
     some (.slt .n16 22 10 21),
     some (.sltn .n32 23 9 22),
     some (.seq .n64 24 8 23),
     some (.clz .i32 4 17),
     some (.ctz .i64 4 18),
     some (.popc .n8 4 19),
     some (.csel 30 1 16)] := by decide +kernel

theorem test_decode_integer_immediates : ([
    0x01C1D038FFFFFF00, 0x01D1D030FFFFFF01, 0x01E1D028FFFFFF02, 0x01F1D020FFFFFF03, 0x0231D018FFFFFF04,
    0x0204A0180000003F, 0x0214A0200000003E, 0x0224A0280000003D, 0x02478000FF800000, 0x0258000012345678] : List Word).map (fun w => (decode w).toOption) =
    [some (.addi .n64 3 20 0xffffff00),
     some (.andi .n32 3 20 0xffffff01),
     some (.ori .n16 3 20 0xffffff02),
     some (.xori .n8 3 20 0xffffff03),
     some (.slti .i64 3 20 0xffffff04),
     some (.shli .i64 9 8 63),
     some (.shri .n8 9 8 62),
     some (.srai .n16 9 8 61),
     some (.movi 15 0xFF800000),
     some (.movhi 16 0x12345678)] := by decide +kernel

theorem test_decode_floating_point : ([
    0x026298E038000000, 0x027298E048000000, 0x028298E090000000, 0x029298E0D8000000, 0x02B298E0A0000000,
    0x02A29800F8000000, 0x02C0886040000000, 0x02D0886080000000, 0x02E08860C0A00000, 0x02F0880009400000,
    0x02F0880088800000, 0x02F088019B600000, 0x0300880040000000] : List Word).map (fun w => (decode w).toOption) =
    [some (.fadd .f16 .dyn 5 6 7),
     some (.fsub .bf16 .rtz 5 6 7),
     some (.fmul .f32 .rdn 5 6 7),
     some (.fdiv .f64 .rup 5 6 7),
     some (.fma .f32 .rna 5 6 7),
     some (.fsqrt .f64 .dyn 5 6),
     some (.fmin .bf16 1 2 3),
     some (.fmax .f32 1 2 3),
     some (.fcmp .f64 .ge 1 2 3),
     some (.fcvt (.ff .f16 .f32) .rtz 1 2),
     some (.fcvt (.ofInt .f32 .n8) .rtz 1 2),
     some (.fcvt (.fi .n32 .f64) .rup 1 2),
     some (.fclass .bf16 1 2)] := by decide +kernel

theorem test_decode_branches : ([
    0x08001300FFFFFFF0, 0x081016E0FFFFFFF1, 0x08201AC0FFFFFFF2, 0x08301EA0FFFFFFF3, 0x08402280FFFFFFF4,
    0x08502660FFFFFFF5, 0x0860000080000000, 0x087F80007FFFFFFF, 0x0880740000000000, 0x0890F40000000000,
    0x08A0A40000000002, 0x08B0FBDE00000003, 0x08C0000000000011, 0x08D00000FFFFFFFF, 0x08E00000DEADBEEF,
    0x08F0000000000001, 0x0900000000000000] : List Word).map (fun w => (decode w).toOption) =
    [some (.beq 4 24 0xfffffff0),
     some (.bne 5 23 0xfffffff1),
     some (.blt 6 22 0xfffffff2),
     some (.bge 7 21 0xfffffff3),
     some (.bltn 8 20 0xfffffff4),
     some (.bgen 9 19 0xfffffff5),
     some (.j 0x80000000),
     some (.jal 31 0x7FFFFFFF),
     some (.jr 29),
     some (.jalr 1 29),
     some (.loop 1 9 2),
     some (.loopi 1 0x7BDE 3),
     some (.bmz 17),
     some (.bmnz 0xFFFFFFFF),
     some (.trap 0xDEADBEEF),
     some (.brk 1),
     some (.eret)] := by decide +kernel

theorem test_decode_control : ([
    0x091100000000001F, 0x091700000000004E, 0x09200C0000000035, 0x093000008000F010, 0x0940880000000000,
    0x0950000000000000, 0x0960000000000000, 0x0970040080000001, 0x0987044000000000, 0x0990180000000004,
    0x09A31C0000000000, 0x09B38C0000000000, 0x09CA2800000000FE, 0x09DA00000000007F, 0x09E0000000000003,
    0x09F0212000000000, 0x0A00212000000000, 0x0A10200000000000, 0x0A202C0000000000] : List Word).map (fun w => (decode w).toOption) =
    [some (.getc 2 (.esv 7)),
     some (.copyLaunch 14 3),
     some (.setc (.cpflag 0) 3),
     some (.setci .tvec 0x8000F),
     some (.deal 1 2),
     some (.exit),
     some (.yield),
     some (.cntinc 1 0x80000001),
     some (.cntwait 14 1 2),
     some (.cancel .job 6),
     some (.qpush 2 7),
     some (.qpop 7 3),
     some (.sptr 20 0xFE 10),
     some (.slotq 20 0x7F),
     some (.slotsync 3),
     some (.slotset 8 9),
     some (.slotinv 8 9),
     some (.incfence 8),
     some (.mark 11)] := by decide +kernel

theorem test_decode_vector_integer : ([
    0x1005840080000000, 0x1016040100000000, 0x1020D3C040000000, 0x503157A282000000, 0x10419B84C4000000,
    0x50525F6740000000, 0x1062D74982000000, 0x5073172BC4000000, 0x1083DB0C40000000, 0x509456EE82000000,
    0x10A492D0C4000000, 0x50B556B340000000, 0x10C5D69582000000, 0x50D61E77C4000000, 0x10E6D25840000000,
    0x50F7563A82000000, 0x1101901E80000000] : List Word).map (fun w => (decode w).toOption) =
    [some (.setvl .w32 11 1),
     some (.msetvl .res32 12 1),
     some (.vadd false 0 .i16 1 (.vec 20) 30),
     some (.vsub true 1 .i32 2 (.scl 21) 29),
     some (.vmul false 2 .i64 3 (.que 2) 28),
     some (.vmulh true 3 .n16 4 (.vec 23) 27),
     some (.vmin false 4 .n32 5 (.scl 21) 26),
     some (.vmax true 5 .n64 6 (.que 1) 25),
     some (.vand false 6 .i16 7 (.vec 22) 24),
     some (.vor true 7 .i32 8 (.scl 21) 23),
     some (.vxor false 8 .i64 9 (.que 0) 22),
     some (.vshl true 9 .n16 10 (.vec 21) 21),
     some (.vshr false 10 .n32 11 (.scl 21) 20),
     some (.vsra true 11 .n64 12 (.que 3) 19),
     some (.vsadd false 12 .i16 13 (.vec 20) 18),
     some (.vssub true 13 .i32 14 (.scl 21) 17),
     some (.vabs false 15 .i32 3 4)] := by decide +kernel

theorem test_decode_vector_float : ([
    0x1111247C00000000, 0x1121287A4A000000, 0x1131147894000000, 0x11412476D8000000, 0x1161287422000000,
    0x117114727C000000, 0x1181247080000000, 0x11912062C2000000, 0x11A12062C2000000, 0x51B1200200000000,
    0x51C1240240000000, 0x51D1280280000000, 0x51E12C02C0000000, 0x5231300200000000, 0x1151200448000000,
    0x11F1240490000000, 0x12012804D8000000, 0x1222044080800000, 0x1217044142200000, 0x13F0880640E00000,
    0x14008806B9600000, 0x1400880789C00000, 0x14008806C0A00000] : List Word).map (fun w => (decode w).toOption) =
    [some (.vfadd false 14 .f16 .rne 2 (.vec 9) 3),
     some (.vfsub false 13 .bf16 .rtz 2 (.scl 10) 3),
     some (.vfmul false 12 .f32 .rdn 2 (.que 1) 3),
     some (.vfdiv false 11 .f64 .rup 2 (.vec 9) 3),
     some (.vfma false 10 .f16 .rna 2 (.scl 10) 3),
     some (.vfms false 9 .bf16 .dyn 2 (.que 1) 3),
     some (.vfnma false 8 .f32 .rne 2 (.vec 9) 3),
     some (.vfmin false 1 .f64 2 (.scl 8) 3),
     some (.vfmax false 1 .f64 2 (.scl 8) 3),
     some (.vfabs true 1 .f16 2 8),
     some (.vfneg true 1 .bf16 2 9),
     some (.vfrsqe true 1 .f32 2 10),
     some (.vfrcpe true 1 .f64 2 11),
     some (.vfclass true 1 .f16 2 12),
     some (.vfsqrt false 2 .bf16 .rtz 2 8),
     some (.vfexp2 false 2 .f32 .rdn 2 9),
     some (.vflog2 false 2 .f64 .rup 2 10),
     some (.vfcmp false 0 .f32 .gt 4 (.vec 1) 2),
     some (.vcmp false 0 .n16 .ne 14 (.scl 1) 2),
     some (.vcvt false 3 .i16 .n64 1 2),
     some (.vfcvt false 3 (.ff .f32 .f64) .dyn 1 2),
     some (.vfcvt false 3 (.fi .n32 .f32) .rtz 1 2),
     some (.vfcvt false 3 (.ofInt .f64 .n16) .rne 1 2)] := by decide +kernel

theorem test_decode_masks_and_moves : ([
    0x1240BC0000000000, 0x5251382000000000, 0x1261B44000000000, 0x5272306000000000, 0x12810C0000000000,
    0x12973C0000000000, 0x12A1940C06000000, 0x12B0940006000000, 0x12C0100000000000, 0x12D0000000000000,
    0x52E0000000000000, 0x12F3800000000000, 0x1300880700000000, 0x13108006C0000000, 0x1320888640000000,
    0x1330888680000000, 0x1340888680000000, 0x5351880082000000, 0x1361140086000000, 0x13709920C4000000,
    0x1380889E80000000, 0x1460880840000000, 0x1390886841000000, 0x13A0880080000000, 0x13B18921C7000000,
    0x13C004003E000000, 0x13D40400C0000000, 0x13E4044081000000, 0x14108800C0000000, 0x1420880140000000,
    0x1430886500000000, 0x1440886100000000, 0x1450886100000000] : List Word).map (fun w => (decode w).toOption) =
    [some (.mand false 1 15 0),
     some (.mor true 2 14 1),
     some (.mxor false 3 13 2),
     some (.mandn true 4 12 3),
     some (.mnot false 2 3),
     some (.mmov false 14 15),
     some (.mpopc false 6 3 5),
     some (.mfirst false 0 1 5),
     some (.mpush false 4),
     some (.minv false),
     some (.mpop true),
     some (.mtop false 7),
     some (.vcompress false 3 .res32 1 2),
     some (.viota false 3 .w64 1),
     some (.vperm false 3 .w16 1 2 4),
     some (.vslideup false 3 .w32 1 2 4),
     some (.vslidedn false 3 .w32 1 2 4),
     some (.vbcast true 0 .w32 3 (.scl 2)),
     some (.vextr false .w32 2 5 0),
     some (.vins false .w64 1 (.que 2) 9),
     some (.vmerge false 15 .w32 1 2 4),
     some (.vmov false 4 .w16 1 2),
     some (.vredsum false 4 .i16 (.vec 1) 2 (some 3)),
     some (.vredmin false 0 .i32 (.vec 1) 2 none),
     some (.vredmax false 0 .n64 (.que 3) 2 (some 9)),
     some (.vfredsum false 0 .f16 .dyn (.que 0) 1 none),
     some (.vfredmin false 0 .f64 (.vec 8) 1 none),
     some (.vfredmax false 0 .f32 (.vec 8) 1 (some 2)),
     some (.vresenc false 0 .i64 1 2),
     some (.vresdec false 0 .n16 1 2),
     some (.vresmac false 2 1 2 3),
     some (.vresadd false 0 1 2 3),
     some (.vresmul false 0 1 2 3)] := by decide +kernel

theorem test_decode_memory : ([
    0x200314008B888010, 0x20031401CB886001, 0x2013140149887FFE, 0x20131401C9883FFE, 0x20231400C9880008,
    0x20331400CA880008, 0x204314E0C9889800, 0x6053141219880001, 0x60631513D9880001, 0x6073151399880001,
    0x6083145319880001, 0x60931413D8883FFF, 0x60A3141259880001, 0x60B31512D9880001, 0x60C31513D9880001,
    0x60D315129A88A004, 0x20E0140008880080, 0x20F000000000000B, 0x2103150188880004, 0x211014000A880004] : List Word).map (fun w => (decode w).toOption) =
    [some (.ld 6 ⟨2, 0x88, 5⟩ 3 (.bytes .i32 0x8010)),
     some (.ld 6 ⟨2, 0x88, 5⟩ 3 (.fmt true 0x2001)),
     some (.st 6 ⟨2, 0x88, 5⟩ 1 (.bytes .n16 0x7FFE)),
     some (.st 6 ⟨2, 0x88, 5⟩ 1 (.fmt 0x3FFE)),
     some (.ldacq .i64 6 ⟨2, 0x88, 5⟩ 8),
     some (.strel .i64 6 ⟨2, 0x88, 5⟩ 8),
     some (.amo .cas .i64 1 6 ⟨2, 0x88, 5⟩ 0x800 7),
     some (.vld ⟨true, 9, false, true⟩ 6 ⟨2, 0x88, 5⟩ 1 (.bytes .i8 1)),
     some (.vlds ⟨true, 9, false, true⟩ 6 ⟨2, 0x88, 5⟩ 1 (.fmt false 1) 8),
     some (.vldx ⟨true, 9, false, true⟩ 6 ⟨2, 0x88, 5⟩ 1 (.bytes .n32 1) 8),
     some (.vldff ⟨true, 9, false, true⟩ 6 ⟨2, 0x88, 5⟩ 1 (.bytes .n8 1) 2),
     some (.vldsc ⟨true, 9, false, true⟩ 6 ⟨2, 0x88, 5⟩ 0 0x3FFF),
     some (.vst ⟨true, 9, false, true⟩ 6 ⟨2, 0x88, 5⟩ 1 (.bytes .i16 1)),
     some (.vsts ⟨true, 9, false, true⟩ 6 ⟨2, 0x88, 5⟩ 1 (.bytes .i64 1) 8),
     some (.vstx ⟨true, 9, false, true⟩ 6 ⟨2, 0x88, 5⟩ 1 (.fmt 1) 8),
     some (.vamo ⟨true, 9, false, true⟩ .fadd .i32 2 6 ⟨2, 0x88, 5⟩ 4 8),
     some (.zline ⟨2, 0x88, 5⟩ 0x80),
     some (.fence .all 2),
     some (.waita .n32 6 ⟨2, 0x88, 5⟩ 4 8),
     some (.pref ⟨2, 0x88, 5⟩ 2 4)] := by decide +kernel

theorem test_decode_matrix_and_bellows : ([
    0x2801844878A00000, 0x6811844900A00000, 0x2821000000000000, 0x28319513E9884001, 0x28419512E9880040,
    0x28519512E8880040, 0x2851941288880040, 0x2863892000000000, 0x28711D2000000000, 0x288094C638400000,
    0x28908C0608800000, 0x2C0A380000000000, 0x2C10380000000000] : List Word).map (fun w => (decode w).toOption) =
    [some (.mopa false 4 (.fp .bf16 .dyn) 5 3 1 2),
     some (.mops true 4 .res 5 3 1 2),
     some (.mzero false 2),
     some (.mldt ⟨false, 9, true, false⟩ 3 ⟨2, 0x88, 5⟩ 1 (.fmt true 1) 8),
     some (.mstt ⟨false, 9, true, false⟩ 3 ⟨2, 0x88, 5⟩ 1 (.bytes .i64 0x40) 8),
     some (.mmerge false 9 .f64 (some 8) 3 ⟨2, 0x88, 5⟩ 0x40),
     some (.mmerge false 9 .f32 none 3 ⟨2, 0x88, 5⟩ 0x40),
     some (.mrow false 7 2 9),
     some (.mwrow false 2 7 9),
     some (.mfold false 3 .dyn 1 2 5 6),
     some (.mcvt false 3 (.fp .f16) .rtz 1 3 .res),
     some (.cpwait 20 14),
     some (.cpcancel 14)] := by decide +kernel

theorem test_decode_pairs : ([
    0x8000000000000000, 0x8094C0001501FFFF, 0x8114C00001424000, 0x8194C00001424000, 0x8214C00001424000,
    0x8294C00001424000, 0x8314C00001424000, 0x8394C00001424000, 0x8414C00001424000, 0x8494C00001424000,
    0x8514D00080000000, 0x8594D00080000000, 0x8614C01F80000000, 0x8694C01F80000000, 0x8714C01F80000000,
    0x8794DFFF80000000, 0x88140FFF9120C008, 0x800000001129BFF8, 0x800000001229BFF8, 0x800000001329BFF8,
    0x800000001429BFF8, 0x800000001501A000, 0x800000001601A000, 0x8B94C0001830C000, 0x800000001830C000] : List Word).map (fun w => (decode w).toOption) =
    [some (.halfNop),
     some (.halfMov 5 6 (some (.bz 7 0x3FFF))),
     some (.halfAdd 5 6 (some (.mov 8 9))),
     some (.halfSub 5 6 (some (.mov 8 9))),
     some (.halfAnd 5 6 (some (.mov 8 9))),
     some (.halfOr 5 6 (some (.mov 8 9))),
     some (.halfXor 5 6 (some (.mov 8 9))),
     some (.halfShl 5 6 (some (.mov 8 9))),
     some (.halfShr 5 6 (some (.mov 8 9))),
     some (.halfSra 5 6 (some (.mov 8 9))),
     some (.halfAddi 5 6 0x2001 (some .nop)),
     some (.halfAndi 5 6 0x2001 (some .nop)),
     some (.halfShli 5 6 63 (some .nop)),
     some (.halfShri 5 6 63 (some .nop)),
     some (.halfSrai 5 6 63 (some .nop)),
     some (.halfSlti 5 6 0x3FFF (some .nop)),
     some (.halfMovi 5 0x1FFF (some (.ldD 4 3 8))),
     some (.halfLdD 5 6 0x3FF8),
     some (.halfLdW 5 6 0x3FF8),
     some (.halfStD 5 6 0x3FF8),
     some (.halfStW 5 6 0x3FF8),
     some (.halfBz 6 0x2000),
     some (.halfBnz 6 0x2000),
     some (.halfQpush 1 6 (some (.qpop 6 3))),
     some (.halfQpop 6 3 none)] := by decide +kernel

/-! ### Ill-formed terms, and words that decode to nothing (R242) -/

theorem test_ill_formed_control : (Instr.loop 0 1 1).wf = false ∧ (Instr.loopi 1 0 0xFFFFFFFF).wf = false ∧ (Instr.getc 1 (.cpgo 2)).wf = false ∧
    (Instr.deal 3 3).wf = false ∧ (Instr.deal 0 3).wf = false ∧ (Instr.deal 3 0).wf = false ∧
    (Instr.sptr 1 255 2).wf = false ∧ (Instr.slotq 1 255).wf = false ∧ (Instr.slotsync 255).wf = false := by decide +kernel

theorem test_ill_formed_vector : (Instr.vcmp false 0 .i32 .eq 15 (.vec 1) 2).wf = false ∧ (Instr.vfcmp false 0 .f32 .eq 15 (.vec 1) 2).wf = false ∧
    (Instr.mand false 15 1 2).wf = false ∧ (Instr.mor false 15 1 2).wf = false ∧ (Instr.mxor false 15 1 2).wf = false ∧
    (Instr.mandn false 15 1 2).wf = false ∧ (Instr.mnot false 15 1).wf = false ∧ (Instr.mmov false 15 1).wf = false ∧
    (Instr.mtop false 15).wf = false ∧ (Instr.viota false 0 .res32 1).wf = false ∧ (Instr.vins false .w32 1 (.vec 2) 3).wf = false := by decide +kernel

theorem test_ill_formed_atomics : (Instr.amo .fadd .n32 0 1 ⟨0, 0, 2⟩ 0 3).wf = false ∧ (Instr.amo .fadd .n64 0 1 ⟨0, 0, 2⟩ 0 3).wf = false ∧
    (Instr.vamo ⟨false, 0, false, false⟩ .cas .i32 0 1 ⟨0, 0, 2⟩ 0 3).wf = false ∧
    (Instr.vamo ⟨false, 0, false, false⟩ .fadd .n64 0 1 ⟨0, 0, 2⟩ 0 3).wf = false := by decide +kernel

/-- The pairing rules of R240, one after the other; the last term meets them all. -/
theorem test_ill_formed_pairs : (Instr.halfMov 5 6 (some (.mov 7 8))).wf = false ∧ (Instr.halfAdd 4 6 (some (.add 5 8))).wf = false ∧
    (Instr.halfAddi 5 6 1 (some (.qpop 3 0))).wf = false ∧ (Instr.halfAdd 4 6 (some (.mov 5 7))).wf = true := by decide +kernel

/-- RESFIELD: a reserved bit; T of a vector word 0; RM 5; RM of a word that does not round; AMO op 11; ORD of LDACQ 0; DK 2; a shift
count of 64; slot 255; C on a chanter word; tile 4; mask 15 written; bit 62 of a pair. -/
theorem test_reserved_fields : ([0x0000FC0000000001, 0x1020880000000000, 0x02608800A8000000, 0x0000FC0008000000,
    0x20431400C088B000, 0x20231400C0880008, 0x20031401C0888000, 0x0204A01800000040, 0x09CA2800000000FF,
    0x4000FC0000000000, 0x2822000000000000, 0x1247844000000000, 0xC000000000000000] : List Word).all (fun w => decide (decode w = .error .resfield)) = true := by decide +kernel

/-- ILLOP: 0x031, 0x0A3, 0x147, 0x212, 0x28A, 0x2C2, 0x3FF, a GETC of no register, half opcode 0x19 in slot 0 and in slot 1. -/
theorem test_unknown_opcodes : ([0x0310_0000_0000_0000, 0x0A30_0000_0000_0000, 0x1470_0000_0000_0000, 0x2120_0000_0000_0000,
    0x28A0_0000_0000_0000, 0x2C20_0000_0000_0000, 0x3FF0_0000_0000_0000, 0x0910_0000_0000_0004, 0x8C80_0000_0000_0000,
    0x8000_0000_1900_0000] : List Word).all (fun w => decide (decode w = .error .illop)) = true := by decide +kernel

/-- PAIR: two writes of one bank; a memory half in slot 0 (R240). -/
theorem test_pair_rules : decode 0x8094C000013A0000 = .error .pair ∧ decode 0x8894C00000000000 = .error .pair := by decide +kernel

/-! ### One step -/

/-- What `f` reads of a next state. -/
def sees {α : Type} (f : State → α) (o : Host.Outcome State Fault Refusal) : Option α :=
  match o with
  | .next s => some (f s)
  | _ => none

/-- A running strand with s1 = x and s2 = y. -/
def two (x y : Word) : State :=
  ((State.reset.onMe fun k => { k with status := .running }).setSreg 1 x).setSreg 2 y

/-- R265: a sum wraps at the width of its type and i types extend by sign. -/
theorem test_add_wraps : sees (·.sreg 3) (exec (.add .i8 3 1 2) (two 0x7F 1)) = some 0xFFFFFFFFFFFFFF80 := by decide +kernel
theorem test_add_n8 : sees (·.sreg 3) (exec (.add .n8 3 1 2) (two 0xFF 2)) = some 1 := by decide +kernel

/-- R265: a division by zero gives −1 for DIV and 2^w − 1 for DIVN; REM gives x. -/
theorem test_div_zero : sees (·.sreg 3) (exec (.div .i32 3 1 2) (two 7 0)) = some 0xFFFFFFFFFFFFFFFF ∧
    sees (·.sreg 3) (exec (.divn .n16 3 1 2) (two 7 0)) = some 0xFFFF ∧
    sees (·.sreg 3) (exec (.rem .i64 3 1 2) (two 7 0)) = some 7 := by decide +kernel

/-- R265: −7 / 2 rounds to zero, and the remainder has the sign of the dividend. -/
theorem test_div_signs : sees (·.sreg 3) (exec (.div .i64 3 1 2) (two (-7) 2)) = some (-3) ∧
    sees (·.sreg 3) (exec (.rem .i64 3 1 2) (two (-7) 2)) = some (-1) := by decide +kernel

/-- A source that is also the destination, and s0, which ignores a write. -/
theorem test_same_register : sees (·.sreg 1) (exec (.sub .i64 1 2 1) (two 5 3)) = some (-2) ∧
    sees (·.sreg 0) (exec (.movi 0 5) (two 5 3)) = some 0 := by decide +kernel

/-- R266: the step of a fetched word: s15 takes the sign-extended immediate and PC moves to the next word. -/
theorem test_step_movi : sees (fun s => (s.sreg 15, s.me.ch.pc)) (step (State.reset.withFetchWord 64 0x02478000FF800000)) =
    some (0xFFFFFFFFFF800000, 8) := by decide +kernel

/-- R271: a taken branch of −3 words from 0x18 goes to 0. -/
theorem test_branch_back : sees (·.me.ch.pc) (exec (.bne 1 2 0xFFFFFFFD) ((two 1 2).onCh fun c => { c with pc := 0x18 })) = some 0 := by
  decide +kernel

/-- R187: 1.0 + 2^-24 in f32 is a tie, which goes to even under RNE and up under RUP; both are inexact. -/
theorem test_fadd_tie : sees (fun s => (s.sreg 3, s.me.fpflg)) (exec (.fadd .f32 .rne 3 1 2) (two 0x3F800000 0x33800000)) = some (0x3F800000, 1) ∧
    sees (·.sreg 3) (exec (.fadd .f32 .rup 3 1 2) (two 0x3F800000 0x33800000)) = some 0x3F800001 := by decide +kernel

/-- R267: FMA rounds once: (1 + 2^-23)(1 − 2^-23) − 1 is −2^-46. -/
theorem test_fma_once : sees (·.sreg 3) (exec (.fma .f32 .rne 3 1 2) ((two 0x3F800001 0x3F7FFFFE).setSreg 3 0xBF800000)) =
    some 0xA8800000 := by decide +kernel

/-- R276: TRAP 7 at 0x40 with a handler at 0x1000. -/
theorem test_trap : sees (fun s => (s.me.ch.pc, s.me.ch.tcause, s.me.ch.tpc, s.me.ch.tinfo))
    (exec (.trap 7) ((two 0 0).onCh fun c => { c with pc := 0x40, tvec := 0x1000 })) = some (0x1000, 0x80000039, 0x40, 7) := by decide +kernel

/-- R272, R307: with the top of the mask stack clear below VL, BMZ is taken. -/
theorem test_bmz : sees (·.me.ch.pc) (exec (.bmz 5) ((two 0 0).onMe fun k => { k with stack := [⟨4, 7⟩], ch := { k.ch with vl := 2 } })) = some 40 ∧
    sees (·.me.ch.pc) (exec (.bmz 5) ((two 0 0).onMe fun k => { k with stack := [⟨4, 7⟩], ch := { k.ch with vl := 3 } })) = some 8 := by decide +kernel

/-- R102, R321: a stored word reads back in little-endian order, sign-extended. -/
theorem test_share_bytes : sees (·.me.share) (exec (.st 1 ⟨0, 254, 0⟩ 0 (.bytes .i16 4)) ((two 0xFE34 0).onMe fun k => { k with strshare := 1 })) =
      some [(4, 0x34), (5, 0xFE)] ∧
    sees (·.sreg 3) (exec (.ld 3 ⟨0, 254, 0⟩ 0 (.bytes .i16 4)) ((two 0 0).onMe fun k => { k with strshare := 1, share := [(4, 0x34), (5, 0xFE)] })) =
      some 0xFFFFFFFFFFFFFE34 := by decide +kernel

/-- R286: the oldest entry of a queue is taken first. -/
theorem test_qpop_oldest : sees (·.sreg 3) (exec (.qpop 3 1) ((two 0 0).onMe fun k => { k with fromVec := k.fromVec.set 1 [⟨7, 0⟩, ⟨9, 1⟩] })) = some 7 := by
  decide +kernel

/-- R295, R301: elements at and above VL keep their values. -/
theorem test_vadd_tail : sees (fun s => (s.me.v.toList.getD 3 0).extractLsb' 0 64)
    (exec (.vadd false 0 .i16 3 (.scl 1) 2) ((two 1 0).onMe fun k => { k with 
      grant := 1
      ch := { k.ch with vl := 2 }
      v := (k.v.set 2 0x000A000AFFFF0005).set 3 0x0007000700070007 })) = some 0x0007_0007_0000_0006 := by decide +kernel

/-- R89: a chained word only joins the convoy. -/
theorem test_chained : sees (fun s => (s.me.forming.length, s.me.ch.pc, s.me.t.toList.getD 2 0)) (exec (.mzero true 2) ((two 0 0).onMe fun k => { k with t := k.t.set 2 5 })) =
    some (1, 8, 5) := by decide +kernel

/-- A strand of one lane group at VL 1 whose share holds 1 at 0, stored by VST over 0 with `oe`. -/
def stored (oe : Bool) : Option State := sees id (exec (.vst ⟨false, 0, oe, false⟩ 2 ⟨0, 254, 0⟩ 0 (.bytes .i32 0)) ((two 0 0).onMe fun k =>
  { k with v := k.v.set 2 1, strshare := 1, grant := 1, ch := { k.ch with vl := 1 } }))

/-- R162: with OE = 1 on both, VLD reads what the strip's VST stored; without it, the value from before or the one stored. -/
theorem test_strip_order :
    ((stored true).map fun s => sees (fun t => (t.me.v.toList.getD 3 0).extractLsb' 0 32)
      (exec (.vld ⟨false, 0, true, false⟩ 3 ⟨0, 254, 0⟩ 0 (.bytes .i32 0)) s)) = some (some 1) ∧
    ((stored false).map fun s => [true, false].map fun b => (passStores false (fun _ => b) (2 ^ 48) 4 s.me.older [] s.seeKey).1 (2 ^ 48)) =
      some [0, 1] := by decide +kernel

/-! ### Witnesses: states and operands that meet the hypotheses of the statements -/

def ansOk {α : Type} (r : Ans α) (p : State → α → Bool) : Bool :=
  match r with
  | .ok s x => p s x
  | _ => false

def effOk (r : Ans Unit) : Bool := ansOk r fun _ _ => true

/-- The base state: a running strand, s1 = 5, s2 = 7. -/
def base : State := two 5 7

/-- The word at 0 is a chained VBCAST: 8 lies inside a convoy, 0x10 does not. -/
def inConvoy : State := (State.reset.withFetchWord 64 0x5351880082000000).setSreg 1 8

theorem test_witness_DecodeOfEncode : (Instr.loopi 1 0 2).wf = true ∧ encode (.loopi 1 0 2) = some 0x08B0800000000002 ∧
    (Instr.halfMov 5 6 (some (.bz 7 0))).wf = true ∧ (encode (.halfMov 5 6 (some (.bz 7 0)))).isSome = true := by decide +kernel

theorem test_witness_EncodeOfDecode : decode 0x00F841E1C0000000 = .ok (.sra .n64 16 16 15) := by decide +kernel

theorem test_witness_WordsThatDecodeToNothing :
    (0x0310000000000000 : Word).getLsbD 63 = false ∧ opKnown ((0x0310000000000000 : Word).extractLsb' 52 10).toNat = false ∧
    (0x3FF0000000000000 : Word).getLsbD 63 = false ∧ opKnown ((0x3FF0000000000000 : Word).extractLsb' 52 10).toNat = false ∧
    (0xC000000000000000 : Word).getLsbD 63 = true ∧ (0xC000000000000000 : Word).getLsbD 62 = true := by decide +kernel

theorem test_witness_ScalarRegisters : (31 : SReg) ≠ 0 ∧ (0 : SReg) ≠ 31 := by decide

/-- FADD exact, with every exception enabled; FDIV by zero, enabled and not. -/
theorem test_witness_FpScalarWords :
    let s := (two 0x3F800000 0x3F800000).onCh fun c => { c with fpctl := 0x1F00 }
    (Claims.fpWord s (.fadd .f32 .rne 3 1 2)).map (fun x => x.2.2 &&& s.me.ch.fpctl.extractLsb' 8 5) = some 0 ∧
    (Claims.fpWord s (.fdiv .f32 .rne 3 1 4)).map (fun x => fpCause (x.2.2 &&& s.me.ch.fpctl.extractLsb' 8 5)) = some (some .fpdz) ∧
    (Claims.fpWord base (.fdiv .f32 .rne 3 1 4)).map (fun x => x.2.2 &&& base.me.ch.fpctl.extractLsb' 8 5) = some 0 ∧ s.me.pend = [] := by
  decide +kernel

theorem test_witness_NaNOperands : (fpRead .f32 0x7F800001) = .nan true ∧ (fpRead .f16 0x7E00).isNaN = true := by decide +kernel

/-- Taken and not, and a target inside a convoy; a register target that is aligned, that is not. -/
theorem test_witness_BranchWords : base.sreg 1 ≠ base.sreg 2 ∧ base.sreg 1 = base.sreg 1 ∧ base.insideConvoy (base.me.ch.pc + 8 * 2) = false ∧
    inConvoy.insideConvoy (inConvoy.me.ch.pc + 8 * 1) = true ∧ inConvoy.insideConvoy (inConvoy.me.ch.pc + 8 * 2) = false ∧
    inConvoy.insideConvoy (inConvoy.sreg 1) = true ∧ (inConvoy.sreg 1).extractLsb' 0 3 = 0 ∧ inConvoy.insideConvoy (inConvoy.sreg 0) = false ∧
    (base.sreg 2).extractLsb' 0 3 ≠ 0 := by decide +kernel

/-- A level that is active, one that is not, with count 0 and 1. -/
theorem test_witness_LoopWords : ((base.onCh fun c => c.openLoop 1 2 8 16).me.ch.loops.active 1) = true ∧
    (base.onCh fun c => c.openLoop 1 2 8 16).me.ch.loops.active 0 = false ∧ (base.sreg 0).extractLsb' 0 32 = 0 ∧
    (base.sreg 1).extractLsb' 0 32 ≠ 0 ∧ (1 : BitVec 15).setWidth 32 ≠ (0 : BitVec 32) := by decide +kernel

/-- One level ends at the next word, with 1 and with 2 rounds left; both end there. -/
theorem test_witness_LoopBackTests :
    let one := fun n => (base.onCh fun c => c.openLoop 0 n 0 8).me.ch
    let both := fun n => (base.onCh fun c => (c.openLoop 0 n 0 8).openLoop 1 n 0 8).me.ch
    (one 1).loops.act0 = true ∧ (one 1).loops.e0 = (one 1).pc + 8 ∧ (one 1).loops.act1 = false ∧ (one 1).lc0.toNat ≤ 1 ∧ 1 < (one 2).lc0.toNat ∧
    (both 2).loops.act0 = true ∧ (both 2).loops.e0 = (both 2).pc + 8 ∧ (both 2).loops.act1 = true ∧ (both 2).loops.e1 = (both 2).pc + 8 ∧
    (both 2).loops.later = true ∧ 1 < (both 2).lc1.toNat ∧ (both 1).lc0.toNat ≤ 1 ∧ (both 1).lc1.toNat ≤ 1 := by decide +kernel

/-- A pending convoy that pushes a mask; none, with a set top bit below VL and with none. -/
theorem test_witness_MaskBranches :
    let s := (two 0 0).onMe fun k => { k with stack := [⟨4, 7⟩], ch := { k.ch with vl := 3 } }
    let p := s.onMe fun k => { k with pend := [⟨0, k.ch, .convoy ⟨0, [s.vword (.mpush false 1) (.mpush 1) 0 0 0], 3, 0, 0, none, false, [], false⟩⟩] }
    p.me.stackPending = true ∧ s.me.stackPending = false ∧ 2 < s.me.ch.vl ∧ (stackTop s.me.stack).getLsbD 2 = true ∧
    (stackTop s.me.stack).getLsbD 0 = false ∧ (stackTop s.me.stack).getLsbD 1 = false := by decide +kernel

/-- A handler named in TVEC; none; one that is active. -/
theorem test_witness_TrapTaken :
    let s := base.onCh fun c => { c with tvec := 8 }
    let a := s.onCh fun c => { c with tcause := 0x80000039 }
    s.me.pend = [] ∧ s.me.ch.tvec.extractLsb' 0 48 ≠ 0 ∧ s.me.ch.tcause.getLsbD 31 = false ∧ base.me.ch.tvec.extractLsb' 0 48 = 0 ∧
    a.me.ch.tcause.getLsbD 31 = true := by decide +kernel

/-- ACT = 1 with TPC outside a convoy and inside one; ACT = 0. -/
theorem test_witness_EretReturns :
    let a := fun t => inConvoy.onCh fun c => { c with tcause := 0x80000039, tpc := t }
    (a 0x10).me.ch.tcause.getLsbD 31 = true ∧ (a 0x10).insideConvoy ((a 0x10).me.ch.tpc.setWidth 64) = false ∧
    (a 8).insideConvoy ((a 8).me.ch.tpc.setWidth 64) = true ∧ base.me.ch.tcause.getLsbD 31 = false := by decide +kernel

/-- A privileged strand and one that is not, nothing pending, no SETVL on its way. -/
theorem test_witness_GetcReads : (base.onMe fun k => { k with priv := true }).me.priv = true ∧ base.me.priv = false ∧ base.me.pend = [] ∧
    base.me.setvlPending = false ∧ cregWaits .fpflg = true ∧ cregWaits .vl = false := by decide +kernel

theorem test_witness_ControlRegisterWrites : cregReadOnly .vl = true ∧ cregReadOnly .tvec = false ∧ base.me.pend = [] ∧ base.me.priv = false ∧
    (base.onMe fun k => { k with priv := true }).me.priv = true := by decide +kernel

def card : Card := ⟨false, 0, 0, 0, 0, 100, 3, 4, 8, 4, 2, 0, 0, 0, 0xFFFF, 0, 0xFFFF, 0xFFFF, 0xFFFF, 0xFFFF, 0, 0, 0, Vector.replicate 6 0⟩

def launch : Launch := ⟨0, 0, 0, 0, 0, 0, card, .eligible, 0, 0, none, false, false⟩

/-- A launch with iterations left, one at its end, a cancelled one; a strand that was answered empty. -/
theorem test_witness_DealChunks :
    let s := fun (l : Launch) => ({ base with launches := [l] } : State)
    (s launch).launchOf base.me.launch = some launch ∧ (s launch).ckOn 0 = false ∧ base.me.pend = [] ∧ base.me.cancelled = none ∧
    base.me.emptied = false ∧ launch.card.trip0 - launch.nxt ≠ 0 ∧ card.trip0 - ({ launch with nxt := 100 } : Launch).nxt = 0 ∧
    (s { launch with nxt := 100 }).launchOf 0 = some { launch with nxt := 100 } ∧ (1 : SReg) ≠ 2 := by decide +kernel

theorem test_witness_ExitEnds : base.me.pend = [] ∧ base.boundXfers = false ∧ base.partsWait = false ∧ base.crit = [] ∧ effOk base.closing = true := by decide +kernel

/-- Device 0 owns CU 0 of partition 0, and a saved strand of it waits for a slot there. -/
def crowded : State :=
  let s := ((base.setReg 0xF80000070000 1).setReg 0xF80000070058 1).setCu 0 { Cu.none with split := some 0 }
  { s with others := [{ base.me with imgidx := 1, saved := true, muted := true }] }

theorem test_witness_YieldSquashes : base.yields = false ∧ crowded.yields = true ∧ crowded.maySquash = true ∧ crowded.me.status = .running ∧
    crowded.me.forming = [] ∧ crowded.me.pend = [] ∧ crowded.me.amo = none ∧ crowded.ports = [] := by decide +kernel

/-- Counters 0 and 4 of 5 are in range for s0 and s3 = 4, s1 = 5 is not. -/
def counted : State := (base.onMe fun k => { k with cntn := 5 }).setSreg 3 4

theorem test_witness_CounterWords : ((counted.sreg 3).extractLsb' 0 16).toNat < counted.me.cntn ∧ counted.me.pend = [] ∧
    counted.partsWait = false ∧ counted.crit = [] ∧ Assoc.wf Counter.zero counted.counters = true ∧ counted.me.cntn ≤ ((counted.sreg 1).extractLsb' 0 16).toNat := by
  decide +kernel

/-- A threshold that is met by value, at the edge of the wrapped compare, and one met by CAN; CANCEL of the strand's own context and
of another by a privileged strand; MARK with the trace on and off. -/
theorem test_witness_HeldDealerWords :
    let s := fun c => ({ counted with counters := [(4, c)] } : State)
    let c := fun v b => (s ⟨v, b⟩).counter 4
    ((c 7 false).val - (counted.sreg 2).extractLsb' 0 32).toNat < 2 ^ 31 ∧ ((c 0x80000006 false).val - (counted.sreg 2).extractLsb' 0 32).toNat < 2 ^ 31 ∧
    (c 0 true).can = true ∧ counted.me.cancelled = none ∧ counted.me.woken = none ∧
    field (counted.sreg 0).toNat 0 13 = counted.me.ctx ∧ field (counted.sreg 1).toNat 0 13 ≠ counted.me.ctx ∧
    (counted.onMe fun k => { k with priv := true }).me.priv = true ∧ counted.me.ch.trctl.getLsbD 2 = false ∧
    (counted.onCh fun c => { c with trctl := 4 }).me.ch.trctl.getLsbD 2 = true := by decide +kernel

/-- A feed queue with 15 entries, a result queue with one. -/
theorem test_witness_QueueMoves :
    let s := base.onMe fun k => { k with toVec := k.toVec.set 3 (List.replicate 15 ⟨1, 0⟩), fromVec := k.fromVec.set 2 [⟨9, 0⟩] }
    (s.me.toQ 3).length < 16 ∧ s.me.skipOf 3 = 0 ∧ s.me.fromQ 2 = [⟨9, 0⟩] ∧ s.me.pend = [] ∧ s.me.trap = none := by decide +kernel

/-- Slot 0 has a descriptor; slot 3 of an empty table is bad. -/
theorem test_witness_SlotWords : (inConvoy.desc 0).2.bad = false ∧ inConvoy.descWaits 0 = none ∧ (0 : BitVec 8) ≠ 254 ∧ (0 : BitVec 8) ≠ 253 ∧ inConvoy.me.pend = [] := by
  decide +kernel

/-- A privileged strand; the record of context 0, whose table is at 0x20000, VALID and not; ranges that are empty and not. -/
theorem test_witness_PrivilegedSlotWords :
    let p := (base.onMe fun k => { k with priv := true })
    let s := (p.setReg 0xF80000090000 0x20000).setHomeBytes 0x20000 [1]
    Claims.privileged (.incfence 1) = true ∧ base.me.priv = false ∧ s.me.priv = true ∧ s.me.pend = [] ∧ s.partsWait = false ∧
    s.homeNat (s.ctxRec (field (s.sreg 1).toNat 8 13)) 1 % 2 = 1 ∧ field (s.sreg 1).toNat 0 8 ≤ 251 ∧
    ¬ (p.homeNat (p.ctxRec 0) 1 % 2 = 1) ∧ field (0x0003 : Nat) 8 8 < field (0x0003 : Nat) 0 8 ∧ field (s.sreg 0).toNat 0 8 ≤ field (s.sreg 0).toNat 8 8 ∧
    s.crit = [] ∧ effOk (s.release 2 false) = true ∧ (s.flushContexts fun _ => true).usesVersion (fun _ => true) = false ∧ s.outstandingOld (field (s.sreg 1).toNat 0 13) = 0 := by decide +kernel

/-- A share of 1 KiB with two bytes in it, s3 = its end, s4 = 0xFE00 in bits 63 to 48. -/
def shared : State :=
  ((base.onMe fun k => { k with strshare := 1, share := [(4, 0x34), (5, 0xFE)] }).setSreg 3 0x400).setSreg 4 0xFE00000000000000

theorem test_witness_ScalarLoads :
    let r := refOf 254 (shared.sreg 0) 4
    shared.loadWaits r 2 false = false ∧ shared.acquire.loadWaits r 2 false = false ∧
    ansOk (shared.load r 2 false false shared.supWatch 0) (fun _ x => x.1 == [0x34, 0xFE]) = true ∧
    ansOk (shared.acquire.load r 2 false false shared.acquire.supWatch 0) (fun _ x => x.1 == [0x34, 0xFE]) = true := by decide +kernel

/-- The last 8 bytes of the share (−8 from its end), one byte past them, a misaligned offset, a negative one. -/
theorem test_witness_ShareAccesses :
    let off := fun (r : SReg) (o : BitVec 16) => (shared.sreg r).toInt + o.toInt
    shared.me.pend = [] ∧ shared.me.dbgctl.getLsbD 2 = false ∧ Memory.wf shared.me.share = true ∧
    (0 ≤ off 3 (-8) ∧ off 3 (-8) + memBytes .i64 ≤ 1024 * shared.me.strshare ∧ off 3 (-8) % memBytes .i64 = 0) ∧
    (off 3 0 % memBytes .i64 = 0 ∧ 1024 * (shared.me.strshare : Int) < off 3 0 + memBytes .i64) ∧
    off 3 4 % memBytes .i64 ≠ 0 ∧ (off 0 (-8) % memBytes .i64 = 0 ∧ off 0 (-8) < 0) := by decide +kernel

/-- Slot 0 is a window of memory at 0x10000 that device 0 may read and write. -/
def windowed : State :=
  ((State.reset.withFetchWord 64 0).onMe fun k => { k with dcache := [⟨0, 0x10000, 0x10000, 0x2700000000000000, 0, false⟩] }).setReg
    0xF800000C0018 0xC000000000010000

theorem test_witness_ScalarStores : shared.me.pend = [] ∧
    effOk (shared.doStore (refOf 254 (shared.sreg 0) 4) 2 false 5 0 0 false shared.supWatch false) = true ∧
    effOk (shared.doStore (refOf 254 (shared.sreg 0) 4) 2 false 5 0 0 true shared.supWatch false) = true ∧
    effOk (windowed.doZline (refOf 0 0 0x80) false false) = true := by decide +kernel

theorem test_witness_AtomicWords : (∃ u, shared.amo (refOf 254 (shared.sreg 0) 4) .add .i32 false shared.supWatch 1 0 = .ok u 0xFE34) ∧
    effOk (shared.releaseFor (refOf 254 (shared.sreg 0) 4) 0 false) = true ∧ 0 ≤ (shared.sreg 3).toInt + (-8 : BitVec 12).toInt ∧
    (shared.sreg 3).toInt + (-8 : BitVec 12).toInt + amoBytes .i64 ≤ 1024 * shared.me.strshare ∧
    ((shared.sreg 3).toInt + (-8 : BitVec 12).toInt) % amoBytes .i64 = 0 := ⟨⟨_, rfl⟩, by decide +kernel⟩

theorem test_witness_SyncWords : shared.me.pend = [] ∧ shared.anyXfer = false ∧ shared.partsWait = false ∧ shared.crit = [] ∧ effOk (shared.release 3 false) = true ∧ shared.me.cancelled = none ∧
    shared.me.woken = none ∧ shared.outstanding ((shared.sreg 1).extractLsb' 0 16) = none ∧
    ansOk (shared.watchRead (refOf 254 (shared.sreg 0) 4) (amoBytes .i32)) (fun u x =>
      decide (ofLe x.1 ≠ (u.sreg 1).toNat % 2 ^ (8 * amoBytes .i32))) = true := by decide +kernel

/-- Channel 0 of reset passes the checks; CW 3 does not. -/
theorem test_witness_CopyLaunches : base.outOf base.me 0 < 4 ∧ base.partsWait = false ∧ base.me.pend = [] ∧ base.badLaunch 0 = false ∧ base.crit = [] ∧ base.me.dbgctl.getLsbD 2 = false ∧
    (base.onCh fun c => c.setChannel 0 { c.channel 0 with len := 0xFFFFFF0000000000 }).badLaunch 0 = true := by decide +kernel

/-- A plain half beside a plain half; a branch, taken into a convoy and not; each access at the edge of the share. -/
theorem test_witness_pairReady : Claims.pairReady base (.mov 5 6) (.qpush 0 1) ∧ Claims.pairReady shared (.mov 5 6) .nop := by
  unfold Claims.pairReady; decide +kernel

theorem test_witness_Pairs :
    (Instr.halfMov 5 6 (some (.addi 4 3 1))).halves = some (.mov 5 6, .addi 4 3 1) ∧ Claims.plainHalf (.mov 5 6) = true ∧
    Claims.plainHalf (.addi 4 3 1) = true ∧ 
    (Instr.halfMov 5 6 (some (.bz 7 1))).halves = some (.mov 5 6, .bz 7 1) ∧ inConvoy.sreg 7 = 0 ∧ inConvoy.sreg 1 ≠ 0 ∧
    inConvoy.insideConvoy (inConvoy.me.ch.pc + 8 * (1 : BitVec 14).signExtend 64) = true ∧
    inConvoy.insideConvoy (inConvoy.me.ch.pc + 8 * (2 : BitVec 14).signExtend 64) = false := by decide +kernel

theorem test_witness_PairsWithAccesses :
    let at' : Int := ((shared.sreg 4).toNat % 2 ^ 48 : Nat) + (0x3F8 : BitVec 14).toInt
    shared.me.dbgctl.getLsbD 2 = false ∧ (shared.sreg 4).extractLsb' 48 16 = 0xFE00 ∧
    (Instr.halfMov 5 6 (some (.ldD 2 4 0x3F8))).halves = some (.mov 5 6, .ldD 2 4 0x3F8) ∧
    (Instr.halfLdW 5 4 0x3F8).halves = some (.nop, .ldW 5 4 0x3F8) ∧ (Instr.halfStD 5 4 0x3F8).halves = some (.nop, .stD 5 4 0x3F8) ∧
    (Instr.halfStW 5 4 0x3F8).halves = some (.nop, .stW 5 4 0x3F8) ∧ 0 ≤ at' ∧ at' + 8 ≤ 1024 * shared.me.strshare ∧ at' % 8 = 0 := by
  decide +kernel

/-! ### Vector and matrix words -/

/-- A strand with lanes, VL 4, MVL 8, a share of 1 KiB, entries in q4, and an index vector v2 of 0, 8, 16, 24. -/
def laned : State :=
  (base.setSreg 5 64).onMe fun k => { k with
    grant := 1
    strshare := 1
    ch := { k.ch with vl := 4, mvl := 8 }
    v := (k.v.set 1 0x3F8000003F8000003F8000003F800000).set 2 0x00000018000000100000000800000000
    toVec := k.toVec.set 0 [⟨9, 0⟩] }

theorem test_witness_lone : laned.lone ∧ (laned.onMe fun k => { k with grant := 0, ch := { k.ch with vl := 0 } }).lone := by
  unfold State.lone; decide +kernel

/-- Each source of operand A: a vector, a scalar, a feed queue with an entry. -/
theorem test_witness_VectorWords :
    (Claims.intWord laned (.vadd false 0 .i32 3 (.vec 1) 2)).isSome = true ∧ (Claims.intWord laned (.vcvt false 0 .i16 .i32 3 2)).isSome = true ∧
    (Claims.moveWord laned (.vins false .w32 3 (.que 0) 1)).isSome = true ∧ (Claims.vfpWord laned (.vfma false 0 .f32 .dyn 3 (.scl 1) 1)).isSome = true ∧
    Claims.feed laned (.vec 1) = some (0, laned.me.toVec) ∧ Claims.feed laned (.scl 1) = some (0, laned.me.toVec) ∧
    Claims.feed laned (.que 0) = some (9, laned.me.toVec.set 0 []) ∧ Claims.feed laned (.que 1) = none := by decide +kernel

/-- Every exception enabled, and an exact sum of the active elements. -/
theorem test_witness_VectorFloats :
    let s := laned.onCh fun c => { c with fpctl := 0x1F00 }
    (Claims.vfpWord s (.vfadd false 0 .f32 .rne 3 (.vec 1) 1)).all (fun p =>
      (List.range 512).all fun e => !p.act e || (p.fl 0 e &&& s.me.ch.fpctl.extractLsb' 8 5) == 0) = true ∧
    (Claims.vfpWord s (.vfadd false 0 .f32 .rne 3 (.vec 1) 1)).isSome = true := by decide +kernel

/-- A mask stack of depth 0, 15 and 16; a write to m0 and to m14. -/
theorem test_witness_MaskWordEffects :
    let s := fun n => laned.onMe fun k => { k with stack := List.replicate n ⟨1, 3⟩, ch := { k.ch with tvec := 8 } }
    (Claims.maskWord laned (.mand false 0 1 2)).isSome = true ∧ (Claims.maskWord laned (.mtop false 14)).isSome = true ∧
    (s 15).me.stack.length < 16 ∧ 16 ≤ (s 16).me.stack.length ∧ (s 1).me.stack = ⟨1, 3⟩ :: [] ∧ (s 0).me.stack = [] ∧
    (s 0).me.ch.tvec.extractLsb' 0 48 ≠ 0 ∧ (s 0).me.ch.tcause.getLsbD 31 = false := by decide +kernel

theorem test_witness_CrossElements : (Claims.crossWord laned (.vperm false 0 .w32 3 1 2)).isSome = true ∧
    (Claims.crossWord laned (.vbcast false 0 .w32 3 (.vec 1))).isSome = true := by decide +kernel

/-- Into a vector register and into a queue with 15 entries. -/
theorem test_witness_Reductions :
    let s := laned.onMe fun k => { k with fromVec := k.fromVec.set 1 (List.replicate 15 ⟨0, 0⟩) }
    (Claims.reduction s (.vredmin false 0 .n32 (.que 1) 2 none)).map (fun r => r.2.1) = some (.que 1) ∧
    (Claims.reduction s (.vredsum false 0 .i32 (.vec 5) 2 (some 1))).map (fun r => r.2.1) = some (.vec 5) ∧
    s.me.ch.fpctl.extractLsb' 8 5 = 0 ∧ (s.me.fromQ 1).length < 16 := by decide +kernel

/-- A convoy of two words, one of three, an indexed word, a loop that ends at the chained word. -/
theorem test_witness_ConvoyForms :
    let w := laned.vword (.mzero true 0) (.mzero 0) 0 0 0
    let s := fun n => laned.onMe fun k => { k with forming := List.replicate n w }
    Claims.chained (.mzero true 1) = true ∧ Claims.indexed (.mzero true 1) = false ∧ (s 2).me.forming.length < 3 ∧
    ((s 2).me.forming.filter fun x => x.op.memory).length < 2 ∧ (s 2).me.ch.loops.endingAt ((s 2).me.ch.pc + 8) = [] ∧
    3 ≤ (s 3).me.forming.length ∧ Claims.indexed (.vldx ⟨true, 0, false, false⟩ 1 ⟨0, 254, 0⟩ 0 (.bytes .i32 0) 2) = true ∧
    (laned.onCh fun c => c.openLoop 0 2 0 8).me.ch.loops.endingAt (laned.me.ch.pc + 8) ≠ [] := by decide +kernel

theorem test_witness_LengthsGranted : laned.me.cancelled = none ∧ laned.me.status = .running ∧ laned.me.muted = false ∧ laned.me.saved = false ∧
    (laned.cu laned.me.cu).fifo = [] ∧ (laned.sreg 0).toNat = 0 ∧ (laned.sreg 1).toNat = 5 := by decide +kernel

/-- Slot 0 a window of memory, and slot 1 one of blocks of 16 elements of 8 bits with scales at 0x100. -/
def mapped : State :=
  windowed.onMe fun k => { laned.me with
    ch := { laned.me.ch with pc := 0 }
    skipBrk := true
    dcache := k.dcache ++ [⟨1, 0x10000, 0x10000, 0x2700000000000001, 0x100, false⟩] }

def runsWhole (s : State) (i : Instr) : Bool :=
  !Claims.chained i && (Claims.memWord s i).any fun x =>
    match Run.anyWord ⟨s.loneStart x [] s.me.toVec, s.me.file, s.me.file, [], none, []⟩ (s.loneHow 0) x with
    | .ran r l => l.isEmpty && r.ix.isNone
    | _ => false

/-- Each vector memory word in the share, an element at a time in memory, a scale, a part of a merge. -/
theorem test_witness_VectorAccesses :
    let v : VAcc := ⟨false, 0, false, false⟩
    let m : Addr := ⟨0, 254, 0⟩
    ([.vld v 3 m 0 (.bytes .i32 0), .vlds v 3 m 0 (.bytes .i32 0) 5, .vldx v 3 m 0 (.bytes .i32 0) 2, .vldff v 3 m 0 (.bytes .i32 0) 1,
      .vst v 2 m 0 (.bytes .i32 0), .vsts v 2 m 0 (.bytes .i32 0) 5, .vstx v 2 m 0 (.bytes .i32 0) 2, .vamo v .add .i32 0 3 m 0 2,
      .mldt v 1 m 0 (.bytes .i32 0) 5, .mstt v 1 m 0 (.bytes .i32 0) 5] : List Instr).all (runsWhole laned) = true ∧
    ([.vld v 3 ⟨0, 0, 0⟩ 0 (.bytes .i32 0), .vldsc v 3 ⟨0, 1, 0⟩ 0 0, .mmerge false 0 .f32 none 1 ⟨0, 0, 0⟩ 0] : List Instr).all (runsWhole mapped) = true := by
  decide +kernel

theorem test_witness_mapped : mapped.lone := by unfold State.lone; decide +kernel

/-- Two elements of 8 bytes at the end of the share, and a stride of −8 from there. -/
theorem test_witness_ShareVectorAccesses :
    let s := laned.onCh fun c => { c with vl := 2 }
    let place := fun e : Nat => ((s.setSreg 3 0x3F0).sreg 3).toInt + (0 : BitVec 16).toInt + (e * memBytes .i64 : Nat)
    let strided := fun e : Nat => ((s.setSreg 3 0x3F8).sreg 3).toInt + (0 : BitVec 16).toInt + (e : Int) * (-8 : Word).toInt
    s.me.dbgctl.getLsbD 2 = false ∧ Claims.inOrder s false ∧
    (let o : Older := ⟨2 ^ 48, [0], [1], 0, true, true, [], [], [], false⟩
     let t := s.onMe fun k => { k with older := [o] }
     Claims.inOrder t true ∧ ¬ Claims.inOrder t false) ∧
    Memory.wf s.me.share = true ∧ Claims.act s 0 64 1 = true ∧ Claims.act s 0 64 2 = false ∧
    (∀ e < 2, 0 ≤ place e ∧ place e + memBytes .i64 ≤ 1024 * s.me.strshare ∧ place e % memBytes .i64 = 0) ∧
    (∀ e < 2, 0 ≤ strided e ∧ strided e + memBytes .i64 ≤ 1024 * s.me.strshare ∧ strided e % memBytes .i64 = 0) ∧
    strided 1 + memBytes .i64 ≤ strided 0 := by decide +kernel

/-- A row index of 63 and of 64; each tile word. -/
theorem test_witness_MatrixWords :
    (Claims.tileWord laned (.mopa false 0 (.fp .bf16 .dyn) 0 1 1 2)).isSome = true ∧ (Claims.tileWord laned (.mops false 0 .res 0 1 1 2)).isSome = true ∧
    (Claims.tileWord laned (.mfold false 0 .rne 1 2 1 2)).isSome = true ∧ (Claims.tileWord laned (.mcvt false 0 .res .rne 1 2 .f64)).isSome = true ∧
    ((laned.setSreg 3 63).sreg 3).toNat < 64 ∧ 64 ≤ ((laned.setSreg 3 64).sreg 3).toNat := by decide +kernel

/-! ### Memory and the machine -/

/-- A load, a store, an atomic and a ZLINE that answer, in the first lines of the window. -/
theorem test_witness_MemoryFrames :
    let at0 := fun r : Ans (Loc × Desc) => ansOk r fun _ x => decide (x.1 = .mem 0x10000)
    let r := refOf 0 0 0
    ansOk (windowed.load r 4 false false false 0) (fun _ _ => true) = true ∧ Assoc.wf Cu.none windowed.cus = true ∧
    (windowed.cu windowed.me.cu).wcb = [] ∧ windowed.memOk ∧ windowed.ckOn windowed.me.vd = false ∧
    at0 ((windowed.descFor 0).1.probe wrOnly r 8 false false false) = true ∧ effOk (windowed.doStore r 8 false 1 0 0 false false false) = true ∧
    at0 (windowed.probe rdWr r 4 false false false) = true ∧ at0 (windowed.probe wrOnly r 128 false false false) = true ∧
    effOk (windowed.doZline r false false) = true ∧ 0x10000 % 128 = 0 := by decide +kernel

theorem test_witness_AtomicFrame : (match windowed.amo (refOf 0 0 0) .add .i32 false false 1 0 with
    | .ok _ x => x == 0
    | _ => false) = true := by decide +kernel

theorem test_witness_StepKeepsMemory : State.reset.memOk ∧ (sees (·.memOk) (step (State.reset.withFetchWord 64 0x02478000FF800000))).isSome = true := by
  decide +kernel

/-- The state that `withFetchWord` gives meets the hypotheses of both halves. -/
theorem test_witness_StepRunsDecoded :
    let s := State.reset.withFetchWord 64 0x02478000FF800000
    s.agenda = [] ∧ s.me.flows = true ∧ s.me.wait = .none ∧ s.dispatchable s.me.vd = true ∧ s.me.squashing = none ∧ s.me.pend = [] ∧
    s.me.early = [] ∧ s.me.pops = [] ∧ s.me.trap = none ∧ s.me.vwait = none ∧ s.me.stepping = false ∧ s.me.ahead = false ∧ s.me.async = [] ∧ s.quiet false ∧
    s.me.forming = [] ∧ s.me.skipBrk = true ∧ ansOk (s.fetchAt s.me.ch.pc) (fun _ w => decide (w = 0x02478000FF800000)) = true ∧
    decode 0x02478000FF800000 = .ok (.movi 15 0xFF800000) ∧
    ansOk (s.probe exOnly ⟨0, true, s.me.ch.pc.toNat⟩ 8 false false true) (fun _ x => decide (x.1 = .mem 0x10000)) = true := by decide +kernel

/-! ### Witnesses of the event statements: for each clause, in its order, the pins and the state that meet it -/

/-- Reset with these pins: port, address, value, count, `ok`. -/
def pins (port addr value count : Nat) (ok : Bool) : State := { State.reset with pins := ⟨port, addr, value, count, ok, []⟩ }

/-- The same with bytes on the pins. -/
def pinsBytes (port addr value count : Nat) (ok : Bool) (bytes : List Byte) : State :=
  { State.reset with pins := ⟨port, addr, value, count, ok, bytes⟩ }

/-- A request of the running strand of `base` in a replay queue, on line 5 in stack 0. -/
def waiter (why : WaitWhy) (ask : Asker) : Waiting := ⟨5, why, ⟨ask, 0, 0, 0, 0⟩, 0, 0, 0, 0, 0, false, false, 0, 0⟩

/-- A request of that strand's word to a peer. -/
def request : PeerReq := ⟨⟨.chanter 0, 0, 0, 0, 0⟩, 0, 0, 0, 0, 0x280, .read 4, false, false⟩

theorem test_witness_StackEvents :
    (pins 0 0x280 0 2 true).pchOf 0x280 = some 0 ∧ (2080 ≤ 2111 ∧ 2111 < 2112) ∧
    (State.reset.setReg 0xF800000C2398 0x4000000000010000).admits 71 (0x280 / 64 * 64) 64 false = true ∧
    ({ State.reset with l2 := [⟨5, 0, 0, false, false, true⟩] } : State).tagOf 5 = some ⟨5, 0, 0, false, false, true⟩ ∧
    ({ State.reset with l2 := [⟨5, 0, 0, true, true, false⟩] } : State).pinned ⟨5, 0, 0, true, true, false⟩ = false ∧
    field (State.reset.regN 0xF80000020000) 0 3 ≠ 4 ∧ field (State.reset.regN 0xF80000020020) 8 8 = 0x69 ∧
    field (State.reset.regN 0xF80000020020) 16 8 = 0x64 ∧ (8 * 0x69 - 1 < 8 * 0x69 ∧ 8 * 0x69 ≤ 8 * 0x69) ∧ (8 * 0x64 < 8 * 0x64 + 1 ∧ 8 * 0x64 ≤ 8 * 0x64) ∧
    field ((State.reset.setReg 0xF80000020000 3).regN 0xF80000020000) 0 3 = 3 ∧
    (field 0x646964 16 8 ≤ field 0x646964 8 8 ∧ field 0x646964 0 8 ≤ field 0x646964 8 8) ∧ field 0x696864 8 8 < field 0x696864 16 8 ∧
    (let s := { base with crit := [0], now := 0x14 * 2000000 }
     base.me.is 0 0 = true ∧ base.me.pend = [] ∧ s.heldByHeat (waiter .critical (.chanter 0)) = true ∧
     s.heldByHeat (waiter .critical (.inbound ⟨72, 0, 0x280, .read 4, false, none⟩)) = true ∧ s.regN 0xF80000020028 * 2000000 ≤ s.now - 0) ∧
    (let l : WLine := ⟨5, 1, 7, 0, 0, 0, 0, 0⟩
     let s := (pins 0 0x280 0 0 true).setCu 0 { Cu.none with wcb := [l] }
     (s.cu 0).wcb.find? (fun l => l.line == s.pins.addr / 128) = some l ∧ 64 ≤ ({ s with now := 64 } : State).now - l.born ∧
     s.stuck l = false) := by decide +kernel

/-- Master m may read and write the first 64 KiB. -/
def admitted (m : Nat) (s : State) : State := s.setReg (0xF800000C0018 + 0x80 * m) 0xC000000000010000

theorem test_witness_PortEvents :
    (let s := pins 0 0x100 0 16 true
     inHost s.roots 0x100 = false ∧ s.listed 0x100 = true ∧ s.listed 0x10F = true ∧ s.admits 73 0x100 16 false = false ∧
     (admitted 73 s).admits 73 0x100 16 false = true ∧ (admitted 73 s).admits 73 0x100 16 true = true ∧ s.inMap 0x10F = true ∧ s.memOk) ∧
    inCxl [⟨0, 16⟩] 0x400000000000 = true ∧ inHost [⟨0, 16⟩] 0x800000000000 = true ∧
    (State.reset.critLine 2 = false ∧ State.reset.admits 72 0x100 16 false = false ∧ (admitted 72 State.reset).admits 72 0x100 256 false = true ∧
     (admitted 72 State.reset).admits 72 0x100 8 true = true ∧ amoOfCode 0 = some .add ∧ 0x100 % 8 = 0 ∧ State.reset.poisoned 2 = false) ∧
    ((Assoc.get [] 0 ({ base with ports := [(0, [request])] } : State).ports)[0]? = some request ∧
     responseOf request.op ⟨0, 0, 0, 0, true, [1, 2, 3, 4]⟩ = some (.data [1, 2, 3, 4]) ∧ base.staleWho request.who = false ∧
     base.awaited request = true ∧ base.me.muted = false ∧ base.staleWho { request.who with incn := 1 } = true) ∧
    (let up := fun st => State.reset.setReg 0xF80000030000 (BitVec.ofNat 64 (st + 16 * 4 + 256 * 15))
     let st := fun (s : State) => (field (s.regN 0xF80000030000) 0 3, field (s.regN 0xF80000030000) 4 4, field (s.regN 0xF80000030000) 8 4)
     st (up 2) = (2, 4, 15) ∧ (up 2).regN 0xF80000030028 ≤ 0x1000000 ∧ st (up 3) = (3, 4, 15) ∧ Assoc.get [] 0 (up 3).ports = [] ∧
     popNat 4 15 = 4 ∧ Nat.testBit 15 3 = true ∧ popNat 4 7 < 4 ∧ (up 3).regN 0xF80000030030 < 0x1000000 ∧ st (up 1) = (1, 4, 15) ∧ popNat 4 3 ∈ [1, 2, 4]) := by
  decide +kernel

/-- A request that waits, and one port up. -/
theorem test_witness_ualinkRequestSend : ∃ q, portFor ((List.range 18).filter fun p =>
    field ((State.reset.setReg 0xF80000031000 2).regN (0xF80000030000 + 0x1000 * p)) 0 3 == 2) (request.addr / 128) = some q := by
  rw [show ((List.range 18).filter fun p => field ((State.reset.setReg 0xF80000031000 2).regN (0xF80000030000 + 0x1000 * p)) 0 3 == 2) = [1] by decide +kernel]
  exact ⟨_, rfl⟩

/-- Device register `a` reads n. -/
def regIs (a n : Nat) : State := State.reset.setReg a (BitVec.ofNat 64 n)

theorem test_witness_BootEvents :
    (State.reset.boot = none ∧ State.reset.caps = none ∧ State.reset.halted = false ∧ field (State.reset.regN 0xF80000010000) 0 3 = 0 ∧
     field ((regIs 0xF80000010000 2).regN 0xF80000010000) 0 3 = 2) ∧
    (field 3 0 3 = 3 ∧ field 3 3 1 = 0 ∧ field 0xB 0 3 = 3 ∧ field 0xB 3 1 = 1 ∧ field 1 0 3 = 1) ∧
    (let s := { regIs 0xF80000010002 0x2B with boot := some (2, 0) }
     let b := field (s.regN 0xF80000010002) 0 6
     field b 3 1 = 1 ∧ min 3 (field b 4 2 + 1) = 3 ∧ blobOk s.pins.bytes = false ∧ min 3 (field 0 4 2 + 1) ≠ 3) ∧
    stepLimit 5 * 2000000 ≤ stepLimit 5 * 2000000 ∧ 0 < stepLimit 5 * 2000000 ∧ State.reset.regsOk ∧ (List.replicate 64 (0 : Byte)).length = 64 ∧
    (State.reset.attq.length < 4 ∧ (State.reset.regN 0xF80000010120 % 2 ^ 48) % 64 = 0 ∧ State.reset.regN 0xF80000010120 % 2 ^ 48 + 1024 ≤ State.reset.devTop) ∧
    State.reset.upPorts = [] ∧ (regIs 0xF80000030000 2).upPorts ≠ [] ∧
    ((regIs 0xF80000010120 0x20).regN 0xF80000010120 % 2 ^ 48) % 64 ≠ 0 ∧
    ({ State.reset with attq := [⟨[], 0⟩] } : State).memOk := by decide +kernel

/-- Device 0 enabled, in partition 0. -/
def enabled : State := regIs 0xF80000080000 1

theorem test_witness_RegisterEvents :
    (State.reset.partIdle 15 = true ∧ State.reset.partIdle 0 = true ∧ enabled.partIdle 0 = false ∧
     ({ State.reset with found := ⟨[0], [], false, false⟩ } : State).found.cus = [0] ∧ Nat.testBit 1 0 = true ∧
     (State.reset.pcumask 1 0).getLsbD 0 = false ∧ (State.reset.regN 0xF80000070158).land (1 % 2 ^ 64) = 0 ∧ 0x60000000 < 2 ^ 48 ∧ 0x60000000 % 0x60000000 = 0 ∧
     768 ≤ 768 ∧ 63 < 64) ∧
    (State.reset.vdEn 63 = false ∧ enabled.vdEn 0 = true ∧ State.reset.imgNeed 0 ≤ State.reset.imgUnits 0 ∧
     (let s := (regIs 0xF80000080030 0x1FFF).setReg 0xF80000080028 0x0004000000000000
      s.imgUnits 0 < s.imgNeed 0) ∧
     State.reset.firstOf 0 0 = true ∧ enabled.firstOf 1 0 = false ∧ (State.reset.readArray 0).isSome = true ∧
     ((regIs 0xF80000070048 1).setReg 0xF80000070040 0x012000000000).readArray 0 = none) ∧
    ((regIs 0xF80000080018 0x30002).cntIndex 0 2 = some 4) ∧
    (field (State.reset.regN 0xF80000090018) 31 1 = 0 ∧ State.reset.killWraps 0 = false ∧ field ((regIs 0xF80000090018 0x80000000).regN 0xF80000090018) 31 1 = 1) ∧
    (State.reset.reg 0xF80000090050).getLsbD 0 = false ∧ ((regIs 0xF80000090050 1).reg 0xF80000090050).getLsbD 0 = true ∧
    (State.reset.flushContexts fun _ => true).usesVersion (fun _ => true) = false ∧ State.reset.ports = [] ∧ (field 0x0000 0 8 ≤ field 0x0000 8 8) ∧
    (let s := base.onMe fun k => { k with status := .parked, keep := some (stopAt 8 .priv 0) }
     s.me.status = .parked ∧ s.me.ctx = field 1 32 13 ∧ s.me.imgidx = field 1 16 12 ∧ s.me.incn = s.curIncn s.me.ctx ∧ s.me.skipBrk = false ∧
     ∀ st, s.me.keep = some st → st.cause ≠ .watch) := by decide +kernel

/-- A context whose running incarnation would wrap over one that still has a request. -/
theorem test_witness_killWraps :
    let s : State := { State.reset with sendq := [{ request with who := { request.who with incn := 1 } }], drains := [(0, ⟨1, true⟩)] }
    s.killWraps 0 = true := by decide +kernel

/-- Device 0 is enabled, may read the first 64 KiB, has 5 counters and 1 context, whose record at 0x2000 is VALID; queue 0 of it has a
ring of 16 entries at 0x1000 with one visible entry, which starts with these bytes; a card that passes stands at 0x3000. -/
def queued (entry : List Byte) : State :=
  let s := ((((enabled.setReg 0xF800000C0018 0x4000000000010000).setReg 0xF80000080018 0x50000).setReg 0xF80000080038 0x2000).setReg 0xF80000090000 0x2000)
  let s := (s.setHomeBytes 0x2000 [1]).setHomeBytes 0x1000 entry
  let s := (s.setHomeBytes 0x3000 (leBytes 4 0x4A43424E ++ [1, 0, 0, 0, 0, 0, 3])).setHomeBytes 0x3030 [1]
  let s := s.setHomeBytes 0x3038 [0xFF, 0xFF, 0, 0, 0xFF, 0xFF, 0xFF, 0xFF, 0xFF, 0xFF, 0xFF, 0xFF]
  { s with queues := [(0, ⟨some ⟨0x1000, 16, 0, 0⟩, false, some 1, 0, none, [(1, 0)], none⟩)] }

/-- The first 16 bytes of the entry that comes next: KIND, flags, counter, and what the card's check answers. -/
def nextEntry (s : State) : Option (Nat × Nat × Nat × Nat) :=
  (s.nextTake 0).bind fun (_, x) =>
    let a := entryAddr x x.head
    if s.dealerReads 0 a 64 && (List.range 48).all (fun i => s.homeNat (a + (16 + i)) 1 == 0) then
      some (s.homeNat a 1, s.homeNat (a + 1) 1, s.homeNat (a + 2) 2, s.cardError 0 (QLatch.of x).ctx (s.homeNat (a + 8) 8))
    else none

theorem test_witness_nextTake :
    (nextEntry (queued [0])).map (·.1) = some 0 ∧ (nextEntry (queued [5])).map (·.1) = some 5 ∧
    nextEntry (queued [1, 0, 0, 0, 0, 0, 0, 0, 0, 0x30]) = some (1, 0, 0, 0) ∧ (queued []).dealerReads 0 0x3000 256 = true ∧ 0x3000 % 256 = 0 ∧
    nextEntry (queued [1]) = some (1, 0, 0, 2) ∧ (queued []).dealerReads 0 0 256 = true ∧
    (nextEntry (queued [2, 0, 4])).map (fun x => (x.1, x.2.1, x.2.2.1)) = some (2, 0, 4) ∧ (queued []).vdCntN 0 = 5 ∧
    (nextEntry (queued [3, 0, 0xFF, 0xFF])).map (fun x => (x.1, x.2.1, x.2.2.1)) = some (3, 0, 0xFFFF) ∧
    (nextEntry (queued [4, 1])).map (fun x => (x.1, x.2.1)) = some (4, 1) ∧ (queued []).ctxOk 0 0 = true ∧ (queued []).ctxOk 0 1 = false := by
  decide +kernel

/-- A taken entry of each kind, a launch at each turn, a strand that may start on CU 0, one that may end. -/
theorem test_witness_DealerEvents :
    (let x : Queue := ⟨some ⟨0x1000, 16, 0, 0⟩, false, some 1, 0, some ⟨2, false, 0xFFFF, 0, 3, 0⟩, [(1, 0)], none⟩
     let s : State := { enabled with queues := [(0, x)] }
     s.queue 0 0 = x ∧ x.span = none ∧ s.vdEn 0 = true ∧ (s.depState 0 0xFFFF 0).1 = true ∧ Assoc.wf Queue.none s.queues = true ∧ s.launches = []) ∧
    (let l := { launch with state := .pending }
     ({ enabled with launches := [l] } : State).launchOf 0 = some l ∧ l.state ≠ .eligible ∧ enabled.depsMet l = true ∧ enabled.depsCan l = false) ∧
    (let s := { queued [] with counters := [(0, ⟨0, true⟩)] }
     s.depsCan { launch with card := { card with dep0 := 0 } } = true) ∧
    (let l := { launch with cancelled := some .launch }
     ({ enabled with launches := [l] } : State).launchDone l = true) ∧
    (let s := (((enabled.setReg 0xF80000070000 1).setReg 0xF80000070058 1).setReg 0xF80000080030 0x0001000000000001).setBucket .dispatch 0 ⟨1, 0, 0⟩
     let s : State := { s with launches := [launch] }
     s.nextStart 0 = some (launch, 0) ∧ s.cuIndexFor launch 0 = some none ∧ s.imgFree 0 = some 0) ∧
    (let s := base.onMe fun k => { k with status := .ending }
     s.me.is 0 0 = true ∧ s.me.status = .ending ∧ s.me.muted = false ∧ s.me.pend = [] ∧
     ansOk s.closing (fun u _ => decide (u.endStrand.others = [] ∧ u.endStrand.me = Strand.none)) = true) ∧
    (4096 % 4096 = 0 ∧ 2048 % 4096 = 2048 ∧ 0 ∈ arbiterNums ∧ 5137 ∈ arbiterNums ∧ Assoc.wf Bucket.zero State.reset.buckets = true) := by decide +kernel

/-- A convoy of one word at PC 0. -/
def pending (x : VWord) (started : Bool) : Pend := ⟨0, base.me.ch, .convoy ⟨0, [x], 0, 0, 0, none, started, [], false⟩⟩

/-- The running strand with these items pending, and a dispatch token. -/
def withPend (l : List Pend) : State := (base.onMe fun k => { k with pend := l }).setBucket .dispatch 0 ⟨1, 0, 0⟩

theorem test_witness_StrandConvoys :
    let clear := base.vword (.mzero false 0) (.mzero 0) 0 0 0
    let lanes := base.vword (.setvl .w32 1 0) (.setvl .w32 0) 0 0 0
    (let s := withPend [pending lanes false]
     s.me.is 0 0 = true ∧ s.me.flows = true ∧ s.me.headConvoy.any (fun c => c.isSetvl && !c.started) = true ∧ s.vecTurn.me.is 0 0 = true) ∧
    (let s := base.setCu 0 { Cu.none with fifo := [0] }
     (s.cu 0).fifo = [s.me.slot] ∧ s.me.cu = 0 ∧ s.me.waitingSetvl = none ∧ (s.renegotiate 0 16).1.me.is 0 0 = true ∧
     (s.renegotiate 0 16).1.leaveFifo.me.is 0 0 = true) ∧
    (let s := (withPend [pending lanes true]).setCu 0 { Cu.none with fifo := [0] }
     s.me.waitingSetvl = some (.w32, 0) ∧ s.me.cancelled = none ∧
     ((s.renegotiate 0 32).1.leaveFifo.onMe fun k => ({ k with pend := k.pend.tail } : Strand).settle).me.is 0 0 = true) ∧
    (let s := withPend [pending clear false]
     s.dispatchable 0 = true ∧ s.me.headConvoy.any (fun c => !c.isSetvl && !c.started && !s.brkAt c.pc && (s.me.blocks c).isNone &&
       (s.startHead c).me.is 0 0) = true) ∧
    (let s := withPend [pending clear true]
     let b := s.onMe fun k => { k with squashing := some s.now }
     s.headStarted = true ∧ s.vecTurn.me.is 0 0 = true ∧ s.me.squashing = none ∧ s.maySquash = true ∧ b.vecTurn.inFlight = false ∧
     b.vecTurn.finishSquash.me.is 0 0 = true) ∧
    (let h : Held := .cpcancel 1
     let s := withPend [⟨0, base.me.ch, .held 0 h 0⟩]
     s.quiet true ∧ ansOk (s.doHeld h false true) (fun u _ => u.me.is 0 0) = true) ∧
    (let b := base.onMe fun k => { k with squashing := some base.now }
     base.headStarted = false ∧ base.me.squashing = none ∧ b.inFlight = false ∧ b.finishSquash.me.is 0 0 = true) ∧
    (let s := { base.onMe fun k => { k with squashing := some 0 } with now := 2048 }
     s.me.squashing = some 0 ∧ 0 + 2048 ≤ s.now ∧ s.inFlight = false ∧ s.finishSquash.me.is 0 0 = true) := by decide +kernel

/-- A word of these bits at PC, in the state `mapped`'s window gives. -/
def atWord (w : Nat) (f : Strand → Strand) : State := ((State.reset.withFetchWord 64 w).onMe f)

theorem test_witness_StrandWaits :
    (let s := { base.onMe fun k => { k with wait := .queuePop 1 } with now := 1024 * 0x4000 }
     s.me.flows = true ∧ s.me.vwait = none ∧ s.me.pend = [] ∧ s.me.ch.qtimeo ≠ 0 ∧ 1024 * s.me.ch.qtimeo.toNat ≤ s.now - s.me.since ∧ s.me.wait = .queuePop 1 ∧ s.me.fromQ 1 = []) ∧
    (let s := base.onMe fun k => { k with absent := [3] }
     s.me.onCu = true ∧ 3 ∈ s.me.absent ∧ s.poison = [] ∧ s.l2 = [] ∧ s.crit = [] ∧ s.partq = [] ∧
     ((s.fetched (s.imgAddr 0 0 + lineOff 3) 256).fillLine 3).me.is 0 0 = true) ∧
    (let s := base.onMe fun k => { k with trap := some (stopAt 0 .priv 0) }
     s.me.flows = true ∧ s.me.pend = [] ∧ s.me.trap = some (stopAt 0 .priv 0)) ∧
    (let r : FaultRec := ⟨0, .priv, false, false, false, 0, 0, 0, 0, 0, 0, 0, 0, 0⟩
     let s : State := { regIs 0xF80000180008 16 with posts := [r] }
     s.posts = r :: [] ∧ r.vd = 0 ∧ s.fqRoom 0 = true) ∧
    (let s := base.onMe fun k => { k with async := [7], asyncOvf := true }
     s.me.async = 7 :: [] ∧ s.me.ch.tcause.getLsbD 31 = false ∧ s.me.resume = none ∧ s.me.forming = []) ∧
    (let w := fun i => decode i
     w 0x0987044000000000 = .ok (.cntwait 14 1 2) ∧ (atWord 0x0987044000000000 id).wordHere = some (.cntwait 14 1 2) ∧
     (atWord 0x2107B400C8FF0000 id).wordHere = some (.waita .i64 15 ⟨2, 255, 13⟩ 0 0) ∧ (atWord 0x2C0A380000000000 id).wordHere = some (.cpwait 20 14)) := by
  decide +kernel

/-- CNTWAIT met and not; WAITA of a changed and an unchanged word of the share; CPWAIT with its transfer outstanding and not. -/
theorem test_witness_waits :
    (let s := { atWord 0x0987044000000000 fun k => { k with wait := .counter, cntn := 1 } with now := 1024 * 0x4000 }
     s.me.flows = true ∧ s.me.wait = .counter ∧ s.me.pend = [] ∧ s.me.cancelled = none ∧ s.me.woken = none ∧
     ((s.sreg 1).extractLsb' 0 16).toNat < s.me.cntn ∧ (s.counter 0).reached ((s.sreg 2).extractLsb' 0 32) = true ∧
     (s.counter 0).reached (((s.setSreg 2 1).sreg 2).extractLsb' 0 32) = false ∧ s.me.ch.wtimeo ≠ 0 ∧ 1024 * s.me.ch.wtimeo.toNat ≤ s.now - s.me.since) ∧
    (let s := { (atWord 0x2107B400C8FF0000 fun k => { k with wait := .address, strshare := 1 }).setSreg 13 0xFE00000000000000 with now := 1024 * 0x4000 }
     let done := fun (u : State) => ((u.waitaDone 15 1).noteStep s.me.seq).me.is 0 0 && u.sreg 0 == s.sreg 0
     s.me.wait = .address ∧ s.timedOut .address = true ∧
     ansOk (s.watchRead (refOf 255 (s.sreg 13) 0) 8) (fun u x => ofLe x.1 == (s.sreg 0).toNat && u.timedOut .address && done u) = true ∧
     ansOk ((s.onMe fun k => { k with share := [(0, 1)] }).watchRead (refOf 255 (s.sreg 13) 0) 8) (fun u x => ofLe x.1 != (s.sreg 0).toNat && done u) = true) ∧
    (let s := atWord 0x2C0A380000000000 fun k => { k with wait := .copyId 0 }
     s.me.wait = .copyId ((s.sreg 14).extractLsb' 0 16) ∧ s.outstanding 0 = none) := by decide +kernel

/-- A transfer of 8 bytes within the share of the strand at CU 0. -/
def transfer : Xfer := ⟨0, 0, 0, 0, 0, 0, 0, 0, 0, 0, ⟨0xFE00000000000000, 0xFE00000000000100, 8, 0, 0, 0⟩, 0, 0, false, .none, 0, false, [], [], false, 0, 1, 0, none⟩

theorem test_witness_StrandSaves :
    let muted := fun saved => (base.onMe fun k => { k with muted := true, saved := saved }).setReg 0xF800000C2218 0xC000000000100000
    (let s := muted false
     s.maySave s.me = true ∧ s.copierMay (s.imgAddr 0 0) s.me.imgSpan true = true ∧ s.now % 1024 < 32 ∧ s.crit = [] ∧ s.killWraps 0 = false ∧
     s.me.amo = none ∧ s.ckBusy 0 = false ∧ s.shareBack s.me s.me.cu = true ∧ (s.unmute.leaveCkpt s.me).me.is 0 0 = true) ∧
    (let h : CuShare := ⟨0, 0, 0, 1, [], true⟩
     let s := (muted false).setCu 0 { Cu.none with shares := [h] }
     (s.idleShares 0).find? (fun h => h.of 0 (some 0)) = some h ∧ s.copierMay (s.cuImgAddr 0 0) 1024 true = true) ∧
    (let s : State := { muted false with xfers := [transfer] }
     s.xfers[0]? = some transfer ∧ s.mutedOf transfer = some s.me ∧ ({ base with xfers := [transfer] } : State).mutedOf transfer = none ∧
     ({ base with xfers := [transfer] } : State).outstanding 0 = some transfer) ∧
    (let s : State := { ((muted true).setReg 0xF80000070000 1).setReg 0xF80000070058 1 with launches := [launch] }
     s.launchOf s.me.launch = some launch ∧ s.mayRestore s.me 0 0 = true ∧
     s.copierMay (s.imgAddr 0 0) s.me.imgSpan false = true ∧ s.shareBack s.me 0 = true ∧ s.badImage s.me 0 = false ∧
     ((s.restore 0 0).leaveCkpt s.me).me.is 0 0 = true) ∧
    State.reset.staleWho ⟨.chanter 0, 0, 0, 1, 0⟩ = true := by decide +kernel

theorem test_witness_saveStrand : (base.onMe fun k => { k with muted := true }).saveStrand.me.is 0 0 = true := by
  rw [State.saveStrand_me]; decide +kernel

/-- Engine 0 runs: 128 bytes from 0x1000 to 0x2000, and it may read and write the first 64 KiB. -/
def moving : State :=
  (((regIs 0xF800000B0000 0x1000).setReg 0xF800000B0008 0x2000).setReg 0xF800000B0010 128).setReg 0xF800000B0020 1 |> admitted 64

theorem test_witness_migration :
    (1 % 4 = 1 ∧ State.reset.regN 0xF800000B0020 % 2 = 0 ∧ moving.regN 0xF800000B0020 % 2 = 1 ∧ 2 % 4 = 2 ∧
     Nat.testBit ((regIs 0xF800000B0020 2).regN 0xF800000B0020) 1 = true ∧ Nat.testBit ((regIs 0xF800000B0020 2).regN 0xF800000B0020) 2 = false) ∧
    ((moving.setReg 0xF800000B0010 129).migLen 0 % 128 ≠ 0 ∧ moving.migLen 0 % 128 = 0 ∧ moving.migLsrc 0 = false ∧
     overlaps (moving.migSrc 0) (moving.migLen 0) (moving.migDst 0) (moving.migLen 0) = false ∧
     moving.migLen 0 ≤ Assoc.get 0 0 ({ moving with migs := [(0, 128)] } : State).migs ∧ moving.migLen 0 = 128 ∧ Assoc.get 0 0 moving.migs = 0 ∧
     moving.engineMay 64 (moving.migSrc 0) 128 false = true ∧ moving.engineMay 64 (moving.migDst 0) 128 true = true ∧
     moving.poisoned (moving.migSrc 0 / 128) = false ∧ moving.memOk ∧
     (∀ a ∈ [moving.migSrc 0, moving.migSrc 0 + 127, moving.migDst 0, moving.migDst 0 + 127], inHost moving.roots a = false)) := by decide +kernel

/-- A part that waits, unordered and of two; an entry that timed out. -/
theorem test_witness_merges :
    let w : Nat → PartWait := fun n => ⟨0, 0, 0, 5, 0, 0, 0, n, 0, 0, 0, .way, ⟨0, .f32, 0xF, 0⟩⟩
    let s : State := { State.reset with partq := [w 2] }
    s.partq = [w 2] ∧ s.tagCurrent 0 0 = true ∧ s.lineWaits 0 5 = false ∧ (w 0).n = 0 ∧ 2 ≤ (w 2).n ∧ s.merges = [] ∧
    (let e : Merge := ⟨0, 0, 0, 5, 2, [⟨0, .f32, 0xF, 0⟩], 0⟩
     let t : State := { State.reset with merges := [e], now := 0x100000 }
     t.merges[0]? = some e ∧ t.regN 0xF800000D0000 ≠ 0 ∧ t.regN 0xF800000D0000 ≤ t.now - e.born) := by decide +kernel

/-- Lease entries: one that is not revoked, one that waits for DONE, one whose REVOKE waits; the words of the messages. -/
theorem test_witness_leases :
    (Lease.state (State.reset.lender 0) ≠ 2 ∧ field 0x20000 16 2 = 2 ∧ 255 < 256) ∧
    (let s : State := { State.reset with revoked := [(0, 0)], borrowq := [0] }
     s.revoked.find? (fun r => r.1 == 0) = some (0, 0) ∧ Lease.revto (s.lender 0) * 2000 ≤ s.now - 0 ∧
     0 ∈ s.borrowq ∧ s.leaseBusy 0 = false) ∧
    (let s := regIs 0xF800000E0000 0x10000
     Lease.state (s.borrower 0) = 1 ∧ Lease.idx (s.borrower 0) = 0 ∧ Lease.lgen (s.borrower 0) = 0) ∧
    (let s := (regIs 0xF800000F0000 0x20000)
     Lease.state (s.lender 0) = 2 ∧ Lease.idx (s.lender 0) = 0 ∧ Lease.lgen (s.lender 0) = 0) ∧
    ((2 : Byte) :: List.replicate 63 0).length = 64 := by decide +kernel

/-- A lender entry of 64 KiB that may be read, at its last byte and one past it; an application core; a transfer. -/
theorem test_witness_accesses :
    (let s := admitted 72 (((regIs 0xF800000F0000 0x1010000).setReg 0xF800000F0008 0).setReg 0xF800000F0010 0x10000)
     s.leaseAdmits 0 0 0xFF00 256 true false = true ∧ s.leaseAdmits 0 0 0xFF00 257 true false = false ∧ s.inMap 0xFF00 = true ∧ s.inMap 0xFFFF = true ∧
     s.admits 72 0xFF00 256 false = true ∧ s.crit = [] ∧ (∀ l, s.poisoned l = false) ∧ s.memOk) ∧
    (inHost State.reset.roots 0x100 = false ∧ State.reset.inMap 0x100 = true ∧ State.reset.inMap 0x10F = true ∧ (∀ k ∈ State.reset.strands, k.shows = false) ∧
     privReg 0xF80000010000 = true ∧ privReg 0xF80000100000 = false ∧ State.reset.inCaps 0xF80000010000 = false) ∧
    (let s : State := { base with xfers := [transfer] }
     s.xfers[0]? = some transfer ∧ transfer.regs.rsh = false ∧ s.mutedOf transfer = none ∧ transfer.regs.flagen = false ∧ transfer.regs.cmask = 0 ∧
     ({ transfer with regs := { transfer.regs with ctl := 0x1000000000 } } : Xfer).regs.rsh = true) := by
  refine ⟨⟨by decide +kernel, by decide +kernel, by decide +kernel, by decide +kernel, by decide +kernel, by decide +kernel, fun _ => rfl, by decide +kernel⟩, ?_, ?_⟩ <;>
    decide +kernel

theorem test_witness_full_segment : 32766 ≤ (List.replicate 32766 (0 : BitVec 256)).length := Nat.le_of_eq List.length_replicate.symm

/-- The writer on, with a ring of 2 slots and one in use, and one sealed segment to send; a device with a checkpoint period of 10 ms. -/
theorem test_witness_TraceEvents :
    (let s := (regIs 0xF80000150030 1).setReg 0xF80000150008 2
     s.tracing = true ∧ 1 < s.trNseg ∧ (1056 ≤ 1087 % 4096 ∧ 1087 % 4096 < 1088) ∧ s.inMap 0x100000 = true ∧ s.inMap 0x1FFFFF = true ∧
     (s.setReg 0xF800000C2318 0xC000000000200000).admits 70 0x100000 0x100000 true = true ∧
     field ((s.setReg 0xF80000150018 0x100000000).regN 0xF80000150018) 32 32 ≠ 0 ∧ (([⟨0, 16⟩] : List Root).any fun r => r.num == field (s.regN 0xF80000150010) 0 4) = true ∧
     ({ s with trace := ⟨[], [], 0, 1, [⟨0, 0, false⟩], false⟩ } : State).trace.segs.find? (fun x => !x.sent) = some ⟨0, 0, false⟩) ∧
    (let s := { regIs 0xF80000160000 0xA0001 with now := 20000000 }
     (s.reg 0xF80000160000).getLsbD 0 = true ∧ (s.reg 0xF80000160020).getLsbD 0 = false ∧ (∀ k ∈ s.strands, k.vd ≠ 0) ∧
     s.ckPeriod 0 ≤ s.now - (s.ckpt 0).last) ∧
    (let s := regIs 0xF80000160020 1
     (s.reg 0xF80000160020).getLsbD 0 = true ∧ s.ckSaved 0 = true ∧ (32 ≤ 95 % 4096 ∧ 95 % 4096 < 96) ∧ s.crit = [] ∧
     s.ckMay (s.regN 0xF80000160008 % 2 ^ 48) (s.ckBytes 0) = false ∧
     (s.setReg 0xF800000C2298 0xC000000080000000).ckMay (s.regN 0xF80000160008 % 2 ^ 48) (s.ckBytes 0) = true) := by
  decide +kernel


/-! ### Indexed, fault-first, tile, scale and merge words -/

theorem act_below {s : State} {mk : MReg} {w e : Nat} (h : Claims.act s mk w e = true) : e < s.me.ch.vl := by
  simp only [Claims.act, Bool.and_eq_true, decide_eq_true_eq] at h; omega

theorem inShare_below {s : State} {act : Nat → Bool} {n : Nat} {place : Nat → Int} (N : Nat) (hb : ∀ e, act e = true → e < N)
    (h : ∀ e < N, 0 ≤ place e ∧ place e + n ≤ 1024 * s.me.strshare ∧ place e % n = 0) : Claims.inShare s act n place :=
  fun e he => h e (hb e he)

theorem disjoint_below {act : Nat → Bool} {n : Nat} {place : Nat → Int} (N : Nat) (hb : ∀ e, act e = true → e < N)
    (h : ∀ e < N, ∀ f < N, e < f → place e + n ≤ place f ∨ place f + n ≤ place e) : Claims.disjoint act n place :=
  fun e f he hf => h e (hb e he) f (hb f hf)

/-- Indices 0, 8, 16 and −1 from 4 and from the last places of the share: VL 4. -/
def indexing : State := (laned.setSreg 3 4).onMe fun k => { k with v := k.v.set 2 0xFFFFFFFF000000100000000800000000 }

theorem test_witness_ShareIndexed :
    indexing.lone ∧ indexing.me.dbgctl.getLsbD 2 = false ∧ indexing.partsWait = false ∧ Memory.wf indexing.me.share = true ∧ Claims.inOrder indexing false ∧
    Claims.inShare indexing (Claims.act indexing 0 32) 4 (Claims.indexPlace indexing 3 0 2 4 32) ∧
    Claims.disjoint (Claims.act indexing 0 32) 4 (Claims.indexPlace indexing 3 0 2 4 32) ∧
    Claims.indexPlace indexing 3 0 2 4 32 3 = 0 ∧
    Claims.indexPlace indexing 3 (0x3B8 : BitVec 16).toInt 2 4 32 2 + 4 = 1024 * indexing.me.strshare := by
  refine ⟨by unfold State.lone; decide +kernel, by decide +kernel, by decide +kernel, by decide +kernel, by decide +kernel,
    inShare_below 4 (fun e h => act_below h) (by decide +kernel), disjoint_below 4 (fun e h => act_below h) (by decide +kernel),
    by decide +kernel, by decide +kernel⟩

/-- All of four elements fit; two of them do. -/
theorem test_witness_ShareFaultFirst :
    let k := fun (s : State) => ((List.range (min s.me.ch.vl (16384 / 32))).find? fun e =>
      Claims.act s 0 32 e && !decide ((s.sreg 3).toInt + (e * 4 : Nat) + 4 ≤ 1024 * (s.me.strshare : Int))).getD (min s.me.ch.vl (16384 / 32))
    k (laned.setSreg 3 0x3F0) = 4 ∧ k (laned.setSreg 3 0x3F8) = 2 ∧ (laned.me.fromQ 1).length < 16 ∧ Claims.act laned 0 32 0 = true := by
  decide +kernel

/-- Rows of 32 bytes 64 apart, the last one at the end of the share, and a tile of 16 columns of 8 bytes. -/
theorem test_witness_ShareTiles :
    let on := fun e : Nat => decide (e < 64) && (laned.me.file.mask 0).getLsbD (e / 8)
    let place := fun e : Nat => ((laned.setSreg 3 0x220).sreg 3).toInt + (0x0 : BitVec 16).toInt + (e / 8 : Nat) * (laned.sreg 5).toInt + (e % 8 * 4 : Nat)
    laned.me.ch.mvl = 8 ∧ (laned.sreg 5).toInt = 64 ∧ Claims.inShare laned on 4 place ∧ Claims.disjoint on 4 place ∧
      place 63 + 4 = 1024 * laned.me.strshare := by
  refine ⟨by decide +kernel, by decide +kernel, inShare_below 64 ?_ (by decide +kernel), disjoint_below 64 ?_ (by decide +kernel), by decide +kernel⟩ <;>
    (intro e h; simp only [Bool.and_eq_true, decide_eq_true_eq] at h; exact h.1)

/-- VL 4 and MVL 4 behind slot 0, a window of memory, and slot 1, blocks with scales. -/
def scaled : State := mapped.onMe fun k => { k with ch := { k.ch with mvl := 4 } }

theorem test_witness_ScaleAndMergeWords :
    let cached := fun k => scaled.me.dcache.find? fun d => d.slot == k
    let ok := fun (k : Nat) (n : Nat) (rt : Rights) (sup : Bool) (off a : Nat) => (cached k).any fun ds =>
      !ds.bad && ds.state != 3 && (match scaled.probe rt ⟨k, true, off⟩ n false true sup with
        | .ok u x => x == (.mem a, ds) && u == scaled
        | _ => false)
    scaled.crit = [] ∧ scaled.poison = [] ∧ scaled.me.dbgctl.getLsbD 2 = false ∧ Assoc.wf Cu.none scaled.cus = true ∧
    (scaled.cu scaled.me.cu).l1 = [] ∧ (scaled.l2.all fun t => !t.poison) = true ∧
    ((cached 1).map fun d => (d.kind, d.blk, d.scoff, d.base)) = some (1, 16, 0x100, 0x10000) ∧
    ((List.range 4).all fun e => ok 1 2 rdOnly false (0x100 + 2 * e) (0x10100 + 2 * e)) = true ∧
    ((List.range 16).all fun e => [true, false].all fun sup => ok 0 4 wrOnly sup (4 * e) (0x10000 + 4 * e)) = true ∧ (scaled.cu scaled.me.cu).wcb = [] ∧
    scaled.partq = [] ∧ scaled.ckOn scaled.me.vd = false ∧ scaled.curIncn scaled.me.ctx = scaled.me.incn ∧
    scaled.regN Reg.ctxtb + 32 * scaled.me.ctx + 32 ≤ 0x10000 ∧
    field ((scaled.setSreg 6 0x0201).sreg 6).toNat 0 8 = 1 ∧ field ((scaled.setSreg 6 0x100F).sreg 6).toNat 8 8 = 16 := by
  decide +kernel

/-- Two elements of one vector load word in one line ask for it once; a scalar load keeps no record (R370). -/
theorem test_one_read_request :
    let s := (State.reset.cuRead 0 0 0 128 8 3 false true).1
    s.asked = [1] ∧ (s.cuRead 0 0 0 136 8 3 false true).1.asked = [1] ∧
    (State.reset.cuRead 0 0 0 128 8 3 false false).1.asked = [] := by
  decide +kernel

/-- A word's bytes in 17 lines: the oldest line leaves the write-combining buffer (R120, R370). -/
theorem test_seventeenth_line :
    let s := ((List.range 17).foldl (fun s i => s.cuWrite 0 0 0 0 (128 * i) 0 [7]) State.reset).settleWcb 0
    ((s.cu 0).wcb.map fun l => l.line) = (List.range 16).map (fun i => i + 1) ∧ s.homeByte 0 = 7 ∧ s.homeByte 128 = 0 := by
  decide +kernel

end Sys2Proof.Tests
end

section
/-! PROOFS. What metering and the caches leave alone; tags and poison of the L2. -/

namespace Sys2Proof.Machine

/-! ### What metering and the caches leave alone -/

/-- Between two states only what metering changes differs: the registers, with their counters, and the token buckets. -/
def State.sameButMeters (s t : State) : Prop := t = { s with adie := t.adie, buckets := t.buckets, last := t.last }

/-- Only that and what the caches hold differs: the tags of the L2 and the lines that are poisoned in memory. -/
def State.sameButCaches (s t : State) : Prop :=
  t = { s with adie := t.adie, buckets := t.buckets, last := t.last, l2 := t.l2, poison := t.poison }

namespace State.sameButMeters
variable {s t u : State}

theorem trans (h : s.sameButMeters t) (g : t.sameButMeters u) : s.sameButMeters u := by
  unfold State.sameButMeters at *; rw [g, h]

theorem eq (h : s.sameButMeters t) : t = { s with adie := t.adie, buckets := t.buckets, last := t.last } := h
theorem l2 (h : s.sameButMeters t) : t.l2 = s.l2 := by rw [h.eq]
theorem poison (h : s.sameButMeters t) : t.poison = s.poison := by rw [h.eq]

theorem caches (h : s.sameButMeters t) : s.sameButCaches t := by
  unfold State.sameButMeters at h; unfold State.sameButCaches; rw [h]

end State.sameButMeters

namespace State.sameButCaches
variable {s t u : State}

theorem refl (s : State) : s.sameButCaches s := rfl

theorem trans (h : s.sameButCaches t) (g : t.sameButCaches u) : s.sameButCaches u := by
  unfold State.sameButCaches at *; rw [g, h]

theorem eq (h : s.sameButCaches t) :
    t = { s with adie := t.adie, buckets := t.buckets, last := t.last, l2 := t.l2, poison := t.poison } := h
theorem me (h : s.sameButCaches t) : t.me = s.me := by rw [h.eq]
theorem pins (h : s.sameButCaches t) : t.pins = s.pins := by rw [h.eq]
theorem mem (h : s.sameButCaches t) : t.mem = s.mem := by rw [h.eq]
theorem fog (h : s.sameButCaches t) : t.fog = s.fog := by rw [h.eq]
theorem fogged (h : s.sameButCaches t) : t.fogged = s.fogged := by rw [h.eq]
theorem out (h : s.sameButCaches t) : t.out = s.out := by rw [h.eq]

theorem homeByte (h : s.sameButCaches t) (a : Nat) : t.homeByte a = s.homeByte a := by
  unfold State.homeByte; rw [h.mem, h.fog, h.fogged]

/-- A sequence of such updates is one. -/
theorem foldl {α : Type} {f : State → α → State} (hf : ∀ (s : State) x, s.sameButCaches (f s x)) :
    ∀ (l : List α) (s : State), s.sameButCaches (l.foldl f s)
  | [], s => refl s
  | x :: l, s => (hf s x).trans (foldl hf l (f s x))

end State.sameButCaches

theorem State.countReg_meters (s : State) (a w : Nat) : s.sameButMeters (s.countReg a w) := by
  unfold State.countReg; split <;> rfl

theorem State.charge_meters (s : State) (a : Arbiter) (v n : Nat) : s.sameButMeters (s.charge a v n) := by
  unfold State.charge; dsimp only; (repeat' split) <;> rfl

theorem State.countPch_meters (s : State) (m line : Nat) (wr : Bool) : s.sameButMeters (s.countPch m line wr) := by
  unfold State.countPch
  split
  · rfl
  · cases s.pchOf (128 * line) with
    | none => rfl
    | some c =>
      dsimp only
      generalize Reg.pch c + (if wr = true then 8 else 0) = a
      refine (s.countReg_meters a 32).trans ?_
      split
      · exact State.charge_meters _ _ _ _
      · rfl

theorem State.setPoison_caches (s : State) (line : Nat) (b : Bool) : s.sameButCaches (s.setPoison line b) := by
  unfold State.setPoison; split <;> rfl

theorem State.evict_caches (s : State) (t : L2Tag) : s.sameButCaches (s.evict t) := by
  refine State.sameButCaches.trans
    (t := { s with l2 := s.l2.filter fun u => u.line != t.line, poison := setMember s.poison t.line (t.poison && !t.zero) }) rfl ?_
  unfold State.evict; dsimp only
  split
  · exact (State.countPch_meters _ _ _ _).caches
  · rfl

theorem State.takeWay_caches (s : State) (line : Nat) (ways : List Nat) : s.sameButCaches (s.takeWay line ways).1 := by
  unfold State.takeWay; dsimp only
  split
  · rfl
  · split
    · exact s.evict_caches _
    · rfl

theorem State.pushTag_caches (s : State) (t : L2Tag) (cp : Nat) : s.sameButCaches (s.pushTag t cp) := rfl

theorem State.touchL2_caches (s : State) (m line : Nat) (wr : Bool) (cp : Nat) : s.sameButCaches (s.touchL2 m line wr cp) := by
  unfold State.touchL2
  refine (s.charge_meters (.slice (homeSlice line)) m 1).caches.trans ?_
  generalize s.charge (.slice (homeSlice line)) m 1 = u
  dsimp only
  split
  · split <;> rfl
  · split
    · exact (u.countPch_meters _ _ _).caches
    · refine (u.countPch_meters m line false).caches.trans ?_
      generalize u.countPch m line false = v
      refine (v.takeWay_caches line (u.vdWays m)).trans ?_
      split
      · exact State.pushTag_caches _ _ _
      · rfl

theorem State.fixZero_caches (s : State) (m line : Nat) : s.sameButCaches (s.fixZero m line) := by
  unfold State.fixZero
  dsimp only
  split
  · split
    · refine State.sameButCaches.trans (t := { s with l2 := s.l2.filter fun u => u.line != line }) rfl ?_
      generalize ({ s with l2 := s.l2.filter fun u => u.line != line } : State) = v
      split
      · exact (v.countPch_meters m line true).caches.trans rfl
      · refine (v.takeWay_caches line (s.vdWays m)).trans ?_
        split
        · exact State.pushTag_caches _ _ _
        · rfl
    · rfl
  · rfl

/-! ### Tags and poison -/

theorem State.tagOf_line {s : State} {line : Nat} {t : L2Tag} (h : s.tagOf line = some t) : t.line = line := by
  simpa using List.find?_some h

theorem State.tagOf_setTag_self {s : State} {t u : L2Tag} (h : s.tagOf t.line = some u) : (s.setTag t).tagOf t.line = some t := by
  have hu := State.tagOf_line h
  have hp : ((fun v : L2Tag => v.line == t.line) ∘ fun v => if v.line = t.line then t else v) = fun v => v.line == t.line := by
    funext v; by_cases e : v.line = t.line <;> simp [e]
  unfold State.tagOf at *
  rw [State.setTag_l2, List.find?_map, hp, h]
  simp [hu]

theorem State.tagOf_setTag_other (s : State) {t : L2Tag} {line : Nat} (h : line ≠ t.line) :
    (s.setTag t).tagOf line = s.tagOf line := by
  have hp : ((fun v : L2Tag => v.line == line) ∘ fun v => if v.line = t.line then t else v) = fun v => v.line == line := by
    funext v; by_cases e : v.line = t.line <;> simp [e]
  have hf : ∀ v, s.tagOf line = some v → v.line = line := fun _ => State.tagOf_line
  unfold State.tagOf at *
  rw [State.setTag_l2, List.find?_map, hp]
  cases e : s.l2.find? fun v => v.line == line with
  | none => rfl
  | some v => simp [hf v e, h]

theorem contains_setMember_self (l : List Nat) (x : Nat) (b : Bool) : (setMember l x b).contains x = b := by
  cases b with
  | true => by_cases e : x ∈ l <;> simp [setMember, e]
  | false => simp [setMember]

theorem contains_setMember_other (l : List Nat) {x y : Nat} (h : y ≠ x) (b : Bool) :
    (setMember l x b).contains y = l.contains y := by
  cases b with
  | true => by_cases e : x ∈ l <;> simp [setMember, e, h]
  | false => simp [setMember, h]

theorem State.poisoned_of_tag {s : State} {line : Nat} {t : L2Tag} (h : s.tagOf line = some t) : s.poisoned line = t.poison := by
  unfold State.poisoned; rw [h]

theorem State.poisoned_of_no_tag {s : State} {line : Nat} (h : s.tagOf line = none) : s.poisoned line = s.poison.contains line := by
  unfold State.poisoned; rw [h]

/-- Where a poison bit stands: in the line's tag, else with memory. -/
theorem State.setPoison_of_tag {s : State} {line : Nat} {t : L2Tag} (h : s.tagOf line = some t) (b : Bool) :
    s.setPoison line b = s.setTag { t with poison := b, dirty := true } := by
  unfold State.setPoison; rw [h]

theorem State.setPoison_of_no_tag {s : State} {line : Nat} (h : s.tagOf line = none) (b : Bool) :
    s.setPoison line b = { s with poison := setMember s.poison line b } := by
  unfold State.setPoison; rw [h]

theorem State.poisoned_setPoison_self (s : State) (line : Nat) (b : Bool) : (s.setPoison line b).poisoned line = b := by
  cases h : s.tagOf line with
  | some t =>
    obtain rfl := State.tagOf_line h
    have g := State.tagOf_setTag_self (t := { t with poison := b, dirty := true }) h
    rw [State.setPoison_of_tag h, State.poisoned_of_tag g]
  | none =>
    rw [State.setPoison_of_no_tag h]
    exact (State.poisoned_of_no_tag (s := { s with poison := setMember s.poison line b }) h).trans (contains_setMember_self _ _ _)

theorem State.poisoned_setPoison_other (s : State) {line l : Nat} (h : l ≠ line) (b : Bool) :
    (s.setPoison line b).poisoned l = s.poisoned l := by
  cases e : s.tagOf line with
  | some t =>
    obtain rfl := State.tagOf_line e
    have g := s.tagOf_setTag_other (t := { t with poison := b, dirty := true }) h
    rw [State.setPoison_of_tag e]
    cases el : s.tagOf l with
    | some u => rw [State.poisoned_of_tag el, State.poisoned_of_tag (g.trans el)]
    | none => rw [State.poisoned_of_no_tag el, State.poisoned_of_no_tag (g.trans el), State.setTag_poison]
  | none =>
    rw [State.setPoison_of_no_tag e]
    cases el : s.tagOf l with
    | some u => rw [State.poisoned_of_tag el]; exact State.poisoned_of_tag el
    | none =>
      rw [State.poisoned_of_no_tag el]
      exact (State.poisoned_of_no_tag (s := { s with poison := setMember s.poison line b }) el).trans (contains_setMember_other _ h _)

/-- Poisoning a line leaves no line clean that was poisoned, cleaning one poisons none. -/
theorem State.setPoison_keeps {s : State} {l : Nat} {b : Bool} (h : s.poisoned l = b) (line : Nat) :
    (s.setPoison line b).poisoned l = b := by
  by_cases e : l = line
  · rw [e, State.poisoned_setPoison_self]
  · rw [State.poisoned_setPoison_other s e, h]

theorem State.tagOf_evict (s : State) (t : L2Tag) : (s.evict t).tagOf t.line = none := by
  have h : (s.evict t).l2 = s.l2.filter fun u => u.line != t.line := by
    unfold State.evict; dsimp only; split
    · exact (State.countPch_meters _ _ _ _).l2
    · rfl
  unfold State.tagOf
  rw [h, List.find?_eq_none]
  simp

theorem State.poisoned_evict (s : State) (t : L2Tag) : (s.evict t).poisoned t.line = (t.poison && !t.zero) := by
  have h : (s.evict t).poison = setMember s.poison t.line (t.poison && !t.zero) := by
    unfold State.evict; dsimp only; split
    · exact (State.countPch_meters _ _ _ _).poison
    · rfl
  rw [State.poisoned_of_no_tag (s.tagOf_evict t), h, contains_setMember_self]

end Sys2Proof.Machine
end

section
/-! PROOFS. Events of the memory stacks, die links and caches (spec 01, R10 to R22; R120, R124): the statement O51. -/

namespace Sys2Proof.Machine

/-! ### A strand acts in its turn, and stops -/

theorem Strand.is_self {k : Strand} {vd img : Nat} (h : k.is vd img = true) : k.is k.vd k.imgidx = true := by
  simp only [Strand.is, Bool.and_eq_true] at h
  simp [Strand.is, h.1.1]

theorem State.focus_me {s : State} {p : Strand → Bool} (he : (s.me.status != .empty) = true) (hp : p s.me = true) :
    s.focus p = some s := by
  unfold State.focus
  rw [he, hp]
  rfl

/-- What acts as the strand whose turn it is acts on the state itself, where it leaves that strand in place. -/
theorem State.asStrand_me {s t : State} {vd img : Nat} {f : State → State} (h : s.me.is vd img = true) (hf : f s = t)
    (ht : t.me.is s.me.vd s.me.imgidx = true) : s.asStrand (fun k => k.is vd img) f = t := by
  have present : ∀ {k : Strand} {v i : Nat}, k.is v i = true → (k.status != .empty) = true := fun hk => by
    simp only [Strand.is, Bool.and_eq_true] at hk; exact hk.1.1
  unfold State.asStrand
  rw [State.focus_me (present h) h]
  dsimp only
  rw [hf, State.focus_me (present ht) ht]
  rfl

@[simp] theorem State.emitStop_me (s : State) (st : Stop) : (s.emitStop st).me = s.me := by
  unfold State.emitStop
  split
  · unfold State.emit; dsimp only; split
    · exact State.countReg_me _ _ _
    · rfl
  · rfl

@[simp] theorem State.writeRecord_me (s : State) (r : FaultRec) : (s.writeRecord r).me = s.me := by
  simp [State.writeRecord]

@[simp] theorem State.postRecord_me (s : State) (r : FaultRec) : (s.postRecord r).me = s.me := by
  unfold State.postRecord
  split
  · exact s.writeRecord_me r
  · rfl

theorem State.park_me (s : State) (st : Stop) (esc : Bool) (dest : Status) :
    (s.park st esc dest).me = { s.me with status := dest, keep := some st } := State.postRecord_me _ _

theorem State.park_me_is {s : State} {vd img : Nat} (h : s.me.is vd img = true) (st : Stop) (esc : Bool) {dest : Status}
    (hd : dest ≠ .empty) : (s.park st esc dest).me.is vd img = true := by
  simp only [Strand.is, Bool.and_eq_true, State.park_me] at h ⊢
  exact ⟨⟨bne_iff_ne.mpr hd, h.1.2⟩, h.2⟩

/-- A stop leaves the strand in the machine, under its name. -/
theorem State.takeStop_me_is {s : State} {vd img : Nat} (h : s.me.is vd img = true) (st : Stop) (esv : Vector Word 8) :
    (s.takeStop st esv).me.is vd img = true := by
  unfold State.takeStop
  dsimp only
  generalize hu : (State.dropWaits _).emitStop st = u
  have g : u.me.is vd img = true := by rw [← hu, State.emitStop_me]; exact h
  cases st.cause.delivery with
  | handler =>
    dsimp only
    split
    · exact g
    · exact State.park_me_is g st true (by decide)
  | park => exact State.park_me_is g st false (by decide)
  | debug => exact State.park_me_is g st false (by decide)

theorem State.raise_of_pend_nil {s : State} (h : s.me.pend = []) (st : Stop) : s.raise st = s.takeStop st (esvOutside s.me.grant) := by
  unfold State.raise; rw [h]; rfl

/-! ### Events of the memory stacks (R14 to R22) -/

theorem State.readCodeWord_clean {s : State} {a c : Nat} (h : s.pchOf a = some c) : s.readCodeWord a 0 = s := by
  unfold State.readCodeWord; rw [h]; rfl

theorem State.readCodeWord_one {s : State} {a c : Nat} (h : s.pchOf a = some c) :
    s.readCodeWord a 1 = s.countReg (Reg.stack (c / 64) + 0x08) 32 := by
  unfold State.readCodeWord; rw [h]; rfl

theorem State.readCodeWord_two {s : State} {a c : Nat} (h : s.pchOf a = some c) :
    s.readCodeWord a 2 = ({ s with fresh := s.fresh + 1 } : State).uncorrectable (c / 64) (a / 128) := by
  unfold State.readCodeWord; rw [h]; rfl

theorem State.inSlot_scrubber {s : State} (h1 : 2080 ≤ s.now % 4096) (h2 : s.now % 4096 < 2112) : s.inSlot .scrubber = true := by
  have h : maintAt s.now = some .scrubber := by
    unfold maintAt
    dsimp only
    rw [if_neg (by omega), if_neg (by omega), if_neg (by simp; omega), if_pos (by simp; omega)]
  unfold State.inSlot; rw [h]; rfl

/-- What a scrub in its cycles and within its access table reads is what any read of the code word meets (R16). -/
theorem exec_scrubRead {s : State} (h1 : 2080 ≤ s.now % 4096) (h2 : s.now % 4096 < 2112)
    (h : s.admits 71 (s.pins.addr / 64 * 64) 64 false = true) : exec .scrubRead s = exec .codeWordRead s := by
  change execScrubRead s = execCodeWordRead s
  unfold execScrubRead execCodeWordRead
  rw [State.inSlot_scrubber h1 h2, h]
  rfl

theorem exec_poisonedLineEviction {s : State} {t : L2Tag} (h : s.tagOf (s.pins.addr / 128) = some t) (hp : s.pinned t = false)
    (ht : t.poison = true) : exec .poisonedLineEviction s = .next (s.evict t) := by
  change execPoisonedLineEviction s = _
  unfold execPoisonedLineEviction
  simp [h, hp, ht]

theorem exec_zeroLineEviction {s : State} {t : L2Tag} (h : s.tagOf (s.pins.addr / 128) = some t) (hp : s.pinned t = false)
    (ht : t.zero = true) : exec .zeroLineEviction s = .next (s.evict t) := by
  change execZeroLineEviction s = _
  unfold execZeroLineEviction
  simp [h, hp, ht]

/-- An evicted line leaves its tag; memory keeps its poison, but of a zero line (R15, R124). -/
theorem State.evict_effect (s : State) (t : L2Tag) :
    (s.evict t).tagOf t.line = none ∧ (s.evict t).poisoned t.line = (t.poison && !t.zero) ∧ (s.evict t).mem = s.mem ∧
      (s.evict t).me = s.me :=
  ⟨s.tagOf_evict t, s.poisoned_evict t, (s.evict_caches t).mem, (s.evict_caches t).me⟩

/-- A report of a stack that is present and not shut down, by what the stack does with it (R17, R19). -/
theorem exec_stackTemperatureReport {s : State} (hk : s.pins.port < 12) (hx : s.pins.port ∉ s.excluded)
    (h4 : s.stackState s.pins.port ≠ 4) :
    exec .stackTemperatureReport s = .next (
      let k := s.pins.port
      let t := s.pins.value % 4096
      let u := s.setRegField (Reg.stack k) 20 12 t
      let lim := u.regN (Reg.stack k + 0x20)
      let warm := decide (8 * field lim 0 8 ≤ t)
      if k ∈ s.crit then if t ≤ 8 * field lim 16 8 then (u.leaveCritical k).coolState k warm else u
      else if 8 * field lim 8 8 ≤ t then ({ u with crit := k :: u.crit } : State).setStackState k 3
      else u.coolState k warm) := by
  have hg : (12 ≤ s.pins.port || s.excluded.contains s.pins.port || decide (s.stackState s.pins.port = 4)) = false := by
    simp [hk, hx, h4]
  change execStackTemperatureReport s = _
  unfold execStackTemperatureReport
  dsimp only
  rw [hg]
  simp only [List.contains_iff_mem]
  rfl

theorem State.coolState_eq (s : State) (k : Nat) (warm : Bool) :
    s.coolState k warm = if warm ∧ s.stackState k ≠ 1 then (s.setStackState k (if warm then 1 else 0)).say (.power k)
      else s.setStackState k (if warm then 1 else 0) := by
  unfold State.coolState
  simp only [Bool.and_eq_true, decide_eq_true_eq]

theorem State.writeStktherm_ordered {s : State} {k x : Nat} (hk : k < 12) (he : field x 16 8 ≤ field x 8 8)
    (hw : field x 0 8 ≤ field x 8 8) : s.writeStktherm k x = s.setReg (Reg.stack k + 0x20) (BitVec.ofNat 64 (x % 2 ^ 24)) := by
  unfold State.writeStktherm
  simp [hk, he, hw]

theorem State.writeStktherm_disordered {s : State} {k x : Nat} (h : field x 8 8 < field x 16 8 ∨ field x 8 8 < field x 0 8) :
    s.writeStktherm k x = s := by
  unfold State.writeStktherm
  refine if_neg ?_
  simp only [Bool.and_eq_true, decide_eq_true_eq]
  omega

section
variable {s : State} {w : Waiting}

/-- A strand's request has stood for THERMWAIT in a critical stack: the strand stops (R19). -/
theorem exec_thermwaitExpiry_strand (hw : s.replay[s.pins.count]? = some w) (hh : s.heldByHeat w = true)
    (ht : s.regN Reg.thermwait * msCycles ≤ s.now - w.since) {n : Nat} (ha : w.who.ask = .chanter n ∨ w.who.ask = .pending n) :
    exec .thermwaitExpiry s = .next (({ s with replay := s.replay.eraseIdx s.pins.count } : State).thermalStop w) := by
  change execThermwaitExpiry s = _
  unfold execThermwaitExpiry
  rw [hw]
  dsimp only
  rw [hh, decide_eq_true ht]
  rcases ha with ha | ha <;> rw [ha] <;> rfl

/-- A peer's request is answered with an error (R19). -/
theorem exec_thermwaitExpiry_peer (hw : s.replay[s.pins.count]? = some w) (hh : s.heldByHeat w = true)
    (ht : s.regN Reg.thermwait * msCycles ≤ s.now - w.since) {r : InReq} (ha : w.who.ask = .inbound r) (hm : r.m = 72) :
    exec .thermwaitExpiry s = .next (({ s with replay := s.replay.eraseIdx s.pins.count } : State).say .errorResponse) := by
  change execThermwaitExpiry s = _
  unfold execThermwaitExpiry
  rw [hw]
  dsimp only
  rw [hh, decide_eq_true ht, ha]
  exact congrArg _ (if_pos hm)

end

/-- With nothing older pending the strand that has waited stops at the head of what it has fetched (R19, R167). -/
theorem State.thermalStop_lone {s : State} {w : Waiting} (h : s.me.is w.who.vd w.who.imgidx = true) (hp : s.me.pend = []) :
    s.thermalStop w = s.raise { stopAt s.me.headPc .thermal (slotInfo w.slot w.off) with gen := w.gen } := by
  have hr : ∀ st, (s.raise st).me.is s.me.vd s.me.imgidx = true := fun st => by
    rw [State.raise_of_pend_nil hp]
    exact State.takeStop_me_is (Strand.is_self h) _ _
  unfold State.thermalStop
  refine State.asStrand_me h ?_ (hr _)
  dsimp only
  rw [hp]
  cases w.who.ask <;> rfl

theorem exec_wcbLineTimeout {s : State} {l : WLine} (h : (s.cu s.pins.port).wcb.find? (fun l => l.line == s.pins.addr / 128) = some l)
    (hb : 64 ≤ s.now - l.born) (hs : s.stuck l = false) : exec .wcbLineTimeout s = .next (s.flushLine s.pins.port l.line) := by
  change execWcbLineTimeout s = _
  unfold execWcbLineTimeout
  rw [h]
  simp [hb, hs]

theorem State.flushLine_of_find {s : State} {k : Nat} {l : WLine} (h : (s.cu k).wcb.find? (fun m => m.line == l.line) = some l) :
    s.flushLine k l.line = (s.setCu k { s.cu k with wcb := (s.cu k).wcb.filter fun m => m.line != l.line }).writeBack l := by
  unfold State.flushLine
  dsimp only
  rw [h]

/-- Settles O51, event by event, from the equation of each. -/
theorem stackEvents : Obligations.StackEvents := by
  unfold Obligations.StackEvents
  intro s p k stk
  refine ⟨rfl, ?codeWords, ?evictions, ?reports, ?selfRefresh, ?stktherm, ?stkthermIgnored, rfl, ?thermwait, ?timeout⟩
  case codeWords =>
    intro c hc b meets
    have read : meets .codeWordRead := by
      have e : exec .codeWordRead s = .next (s.readCodeWord p.addr p.count) := rfl
      refine ⟨fun h => ?_, fun h => ?_, fun h => ?_⟩ <;> rw [e, h]
      · rw [State.readCodeWord_clean hc]
      · rw [State.readCodeWord_one hc]; rfl
      · rw [State.readCodeWord_two hc]; rfl
    refine ⟨read, fun h1 h2 ha => ?_⟩
    have e := exec_scrubRead h1 h2 ha
    simpa only [meets, e] using read
  case evictions =>
    intro t ht hp goes
    obtain ⟨hout, hpoison, hmem, hme⟩ := s.evict_effect t
    exact ⟨fun h => ⟨_, exec_poisonedLineEviction ht hp h, hout, hpoison, hmem, hme⟩,
      fun h => ⟨_, exec_zeroLineEviction ht hp h, hout, hpoison, hmem, hme⟩⟩
  case reports =>
    intro hk hx h4 t s0 lim warm cool
    have hc : ∀ u : State, cool u = u.coolState k warm := fun u => (u.coolState_eq k warm).symm
    have e := exec_stackTemperatureReport hk hx h4
    refine ⟨fun hn ht => ?_, fun hn ht => ?_, fun hm ht => ?_, fun hm ht => ?_⟩ <;> rw [e]
    · rw [hc]; exact congrArg _ ((if_neg hn).trans (if_neg (Nat.not_le.mpr ht)))
    · exact congrArg _ ((if_neg hn).trans (if_pos ht))
    · exact congrArg _ ((if_pos hm).trans (if_neg (Nat.not_le.mpr ht)))
    · rw [hc]; exact congrArg _ ((if_pos hm).trans (if_pos ht))
  case selfRefresh =>
    intro hk h3
    exact congrArg _ (if_pos (Bool.and_eq_true_iff.mpr ⟨decide_eq_true hk, decide_eq_true h3⟩))
  case stktherm => exact fun hk he hw => congrArg _ (State.writeStktherm_ordered hk he hw)
  case stkthermIgnored => exact fun _ h => congrArg _ (State.writeStktherm_disordered h)
  case thermwait =>
    intro w hw hh ht t
    refine ⟨fun n hn hi hp => ?_, fun r hr hm => exec_thermwaitExpiry_peer hw hh ht hr hm⟩
    rw [exec_thermwaitExpiry_strand hw hh ht hn]
    exact congrArg _ (State.thermalStop_lone (s := t) hi hp)
  case timeout =>
    intro l hl hb hs
    have line : l.line = p.addr / 128 := by simpa using List.find?_some hl
    rw [exec_wcbLineTimeout hl hb hs, State.flushLine_of_find (by rw [line]; exact hl)]

end Sys2Proof.Machine
end

section
/-! PROOFS. Bytes at the home slices as masters from outside the compute units read and write them (R26, R131). -/

namespace Sys2Proof.Machine

/-! ### Bytes and lines -/

theorem mem_linesAt {a n l : Nat} (h : 0 < n) : l ∈ linesAt a n ↔ a / 128 ≤ l ∧ l ≤ (a + n - 1) / 128 := by
  unfold linesAt
  rw [List.mem_map]
  constructor
  · rintro ⟨i, hi, rfl⟩
    rw [List.mem_range] at hi
    omega
  · rintro ⟨h1, h2⟩
    exact ⟨l - a / 128, List.mem_range.mpr (by omega), by omega⟩

/-- An aligned access of 4 or 8 bytes touches the line of its address alone. -/
theorem linesAt_aligned {a n : Nat} (hn : n = 4 ∨ n = 8) (ha : a % n = 0) : linesAt a n = [a / 128] := by
  have h : (a + n + 127) / 128 - a / 128 = 1 := by
    rcases hn with rfl | rfl <;> omega
  unfold linesAt
  rw [h]
  rfl

@[simp] theorem length_leBytes : ∀ n v, (leBytes n v).length = n
  | 0, _ => rfl
  | n + 1, v => by rw [leBytes, List.length_cons, length_leBytes n]

theorem leBytes_ofLe : ∀ l : List Byte, leBytes l.length (ofLe l) = l
  | [] => rfl
  | b :: l => by
    have hb : b.toNat < 256 := b.isLt
    have hd : (b.toNat + 256 * ofLe l) / 256 = ofLe l := by omega
    have hm : BitVec.ofNat 8 (b.toNat + 256 * ofLe l) = b := by
      apply BitVec.eq_of_toNat_eq
      rw [BitVec.toNat_ofNat]
      omega
    rw [ofLe, List.length_cons, leBytes, hd, hm, leBytes_ofLe l]

@[simp] theorem State.length_homeBytes (s : State) (a n : Nat) : (s.homeBytes a n).length = n := by simp [State.homeBytes]

/-! ### Reads and writes at the home slices by masters that are no device (R26, R131) -/

/-- The bytes of a write that its mask enables, the first of `l` at `a + k`, put at the home slices. -/
def State.putEnabled (s : State) (a : Nat) (en : Nat → Bool) (k : Nat) (l : List Byte) : State :=
  (l.zipIdx k).foldl (fun s y => if en y.2 then s.setHomeByte (a + y.2) y.1 else s) s

theorem State.putEnabled_cons (s : State) (a : Nat) (en : Nat → Bool) (k : Nat) (b : Byte) (l : List Byte) :
    s.putEnabled a en k (b :: l) = (if en k then s.setHomeByte (a + k) b else s).putEnabled a en (k + 1) l := rfl

theorem State.putEnabled_frame (a : Nat) (en : Nat → Bool) : ∀ (l : List Byte) (k : Nat) (s : State),
    s.putEnabled a en k l = { s with mem := (s.putEnabled a en k l).mem, fogged := (s.putEnabled a en k l).fogged }
  | [], _, _ => rfl
  | b :: l, k, s => by
    rw [State.putEnabled_cons, State.putEnabled_frame a en l (k + 1)]
    split <;> rfl

theorem State.putEnabled_memOk (a : Nat) (en : Nat → Bool) : ∀ (l : List Byte) (k : Nat) {s : State} (_ : s.memOk),
    (s.putEnabled a en k l).memOk
  | [], _, _, h => h
  | b :: l, k, s, h => by
    rw [State.putEnabled_cons]
    refine State.putEnabled_memOk a en l (k + 1) ?_
    split
    · exact State.setHomeByte_memOk h _ _
    · exact h

/-- Each byte reads as the write left it: the enabled ones as written, every other one as before. -/
theorem State.homeByte_putEnabled (a : Nat) (en : Nat → Bool) : ∀ (l : List Byte) (k : Nat) {s : State} (_ : s.memOk) (x : Nat),
    (s.putEnabled a en k l).homeByte x =
      if a + k ≤ x ∧ x < a + k + l.length ∧ en (x - a) = true then l.getD (x - a - k) 0 else s.homeByte x
  | [], k, s, _, x => by
    rw [if_neg (by simp only [List.length_nil]; omega)]
    rfl
  | b :: l, k, s, h, x => by
    have hs : (if en k then s.setHomeByte (a + k) b else s).memOk := by
      split
      · exact State.setHomeByte_memOk h _ _
      · exact h
    rw [State.putEnabled_cons, State.homeByte_putEnabled a en l (k + 1) hs x, List.length_cons]
    by_cases hx : x = a + k
    · subst hx
      rw [if_neg (by omega), show a + k - a = k by omega]
      cases he : en k with
      | true => simp [State.homeByte_setHomeByte_self h]
      | false => simp
    · have head : (if en k then s.setHomeByte (a + k) b else s).homeByte x = s.homeByte x := by
        split
        · exact State.homeByte_setHomeByte_other h b hx
        · rfl
      rw [head]
      by_cases hr : a + (k + 1) ≤ x ∧ x < a + (k + 1) + l.length ∧ en (x - a) = true
      · obtain ⟨h1, h2, h3⟩ := hr
        rw [if_pos ⟨h1, h2, h3⟩, if_pos ⟨by omega, by omega, h3⟩, show x - a - k = x - a - (k + 1) + 1 by omega,
          List.getD_cons_succ]
      · rw [if_neg hr, if_neg fun ⟨h1, h2, h3⟩ => hr ⟨by omega, by omega, h3⟩]

/-- A write from outside is its enabled bytes put, between two passes over the tags of its lines. -/
theorem State.ioWrite_passes (s : State) (m a : Nat) (l : List Byte) (en : Nat → Bool) :
    ∃ t, s.sameButCaches t ∧ (t.putEnabled a en 0 l).sameButCaches (s.ioWrite m a l en) :=
  ⟨_, State.sameButCaches.foldl (fun _ _ => State.touchL2_caches _ _ _ _ _) _ _,
    State.sameButCaches.foldl (fun _ _ => State.fixZero_caches _ _ _) _ _⟩

theorem State.ioWrite_frame (s : State) (m a : Nat) (l : List Byte) (en : Nat → Bool) :
    (s.ioWrite m a l en).me = s.me ∧ (s.ioWrite m a l en).out = s.out := by
  obtain ⟨t, ht, hu⟩ := s.ioWrite_passes m a l en
  rw [hu.me, hu.out, State.putEnabled_frame, ← ht.me, ← ht.out]
  exact ⟨rfl, rfl⟩

theorem State.ioWrite_memOk {s : State} (h : s.memOk) (m a : Nat) (l : List Byte) (en : Nat → Bool) : (s.ioWrite m a l en).memOk := by
  obtain ⟨t, ht, hu⟩ := s.ioWrite_passes m a l en
  exact State.memOk_of_mem (State.putEnabled_memOk a en l 0 (State.memOk_of_mem h ht.mem)) hu.mem

theorem State.homeByte_ioWrite {s : State} (h : s.memOk) (m a : Nat) (l : List Byte) (en : Nat → Bool) (x : Nat) :
    (s.ioWrite m a l en).homeByte x =
      if a ≤ x ∧ x < a + l.length ∧ en (x - a) = true then l.getD (x - a) 0 else s.homeByte x := by
  obtain ⟨t, ht, hu⟩ := s.ioWrite_passes m a l en
  rw [hu.homeByte, State.homeByte_putEnabled a en l 0 (State.memOk_of_mem h ht.mem), ht.homeByte]
  rfl

theorem State.homeByte_ioWrite_other {s : State} (h : s.memOk) {m a : Nat} {l : List Byte} {en : Nat → Bool} {x : Nat}
    (hx : x < a ∨ a + l.length ≤ x) : (s.ioWrite m a l en).homeByte x = s.homeByte x := by
  rw [State.homeByte_ioWrite h, if_neg (by omega)]

/-- A write of all its bytes is read back. -/
theorem State.homeBytes_ioWrite {s : State} (h : s.memOk) (m a : Nat) (l : List Byte) :
    (s.ioWrite m a l fun _ => true).homeBytes a l.length = l := by
  apply List.ext_getElem
  · simp
  · intro i _ hi
    simp only [State.homeBytes, List.getElem_map, List.getElem_range]
    rw [State.homeByte_ioWrite h, if_pos ⟨by omega, by omega, rfl⟩, show a + i - a = i by omega, List.getD_eq_getElem _ _ hi]

theorem State.ioRead_fst (s : State) (m a n : Nat) : s.sameButCaches (s.ioRead m a n).1 :=
  State.sameButCaches.foldl (fun _ _ => State.touchL2_caches _ _ _ _ _) _ _

/-! ### DMA writes (R15, R26) -/

/-- What a DMA write does to the poison of one of its lines. -/
def State.dmaPoison (a n : Nat) (ep : Bool) (s : State) (line : Nat) : State :=
  if ep then s.setPoison line true
  else if a ≤ 128 * line && 128 * line + 128 ≤ a + n then s.setPoison line false
  else s

theorem State.dmaWrite_eq (s : State) (a : Nat) (l : List Byte) (ep : Bool) :
    s.dmaWrite a l ep = (linesAt a l.length).foldl (State.dmaPoison a l.length ep) (s.ioWrite 73 a l fun _ => true) := rfl

theorem State.dmaPoison_caches (a n : Nat) (ep : Bool) (s : State) (line : Nat) : s.sameButCaches (State.dmaPoison a n ep s line) := by
  unfold State.dmaPoison
  split
  · exact s.setPoison_caches _ _
  · split
    · exact s.setPoison_caches _ _
    · rfl

theorem State.dmaPoison_keeps {s : State} {a n : Nat} {ep : Bool} {l : Nat} (h : s.poisoned l = ep) (line : Nat) :
    (State.dmaPoison a n ep s line).poisoned l = ep := by
  unfold State.dmaPoison
  cases ep with
  | true => exact State.setPoison_keeps h line
  | false =>
    rw [if_neg (by simp)]
    split
    · exact State.setPoison_keeps h line
    · exact h

theorem State.dmaWrite_passes (s : State) (a : Nat) (l : List Byte) (ep : Bool) :
    (s.ioWrite 73 a l fun _ => true).sameButCaches (s.dmaWrite a l ep) :=
  State.sameButCaches.foldl (State.dmaPoison_caches a l.length ep) _ _

/-- An update that sets the poison of line l, and others that keep what is set, leave it set. -/
theorem foldl_poisoned {f : State → Nat → State} {l : Nat} {b : Bool} (set : ∀ s, (f s l).poisoned l = b)
    (keep : ∀ (s : State) x, s.poisoned l = b → (f s x).poisoned l = b) :
    ∀ {lines : List Nat} (s : State), l ∈ lines ∨ s.poisoned l = b → (lines.foldl f s).poisoned l = b
  | [], s, h => h.resolve_left (by simp)
  | x :: lines, s, h => by
    refine foldl_poisoned set keep (lines := lines) (f s x) ?_
    rcases h with h | h
    · rcases List.mem_cons.mp h with rfl | h
      · exact .inr (set s)
      · exact .inl h
    · exact .inr (keep s x h)

/-- With the EP bit each line of a DMA write is poisoned, without it each line that the write covers is clean. -/
theorem State.poisoned_dmaWrite (s : State) {a : Nat} {l : List Byte} {ep : Bool} {line : Nat} (hl : line ∈ linesAt a l.length)
    (h : ep = true ∨ a ≤ 128 * line ∧ 128 * line + 128 ≤ a + l.length) : (s.dmaWrite a l ep).poisoned line = ep := by
  rw [State.dmaWrite_eq]
  refine foldl_poisoned (fun u => ?_) (fun u x hu => State.dmaPoison_keeps hu x) _ (.inl hl)
  cases ep with
  | true => exact u.poisoned_setPoison_self line true
  | false =>
    have hc := h.resolve_left (by simp)
    unfold State.dmaPoison
    rw [if_neg (by simp), if_pos (by simp [hc])]
    exact u.poisoned_setPoison_self line false

/-! ### Requests from outside (R131) -/

/-- With no stack critical no line waits (R18). -/
theorem State.lineWaits_of_cool {s : State} (h : s.crit = []) (m line : Nat) : s.lineWaits m line = false := by
  have hc : s.critLine line = false := by unfold State.critLine; rw [h]; split <;> rfl
  have hn : s.noWay m line = false := by unfold State.noWay; rw [h]; rfl
  unfold State.lineWaits
  rw [hc, hn]
  exact Bool.and_false _

/-- With nothing waiting and no stack critical a request that is admitted performs. -/
theorem State.inbound_performs {s : State} {r : InReq} (hc : s.crit = []) (hr : s.replay = []) (h : s.inboundOk r = true)
    (hm : r.m ≠ 255) : s.inbound r = s.perform r := by
  have hot : s.inboundHot r = none := by
    unfold State.inboundHot
    rw [List.find?_eq_none]
    intro line _
    rw [State.lineWaits_of_cool hc]
    decide
  have last : behind s.replay r = none := by
    unfold behind
    rw [hr, List.find?_eq_none]
    intro line _
    simp
  unfold State.inbound
  rw [h, hot, last]
  exact if_neg hm

theorem State.inbound_refused {s : State} {r : InReq} (h : s.inboundOk r = false) : s.inbound r = s.refuse r.m := by
  unfold State.inbound
  rw [h]
  rfl

/-- Whether a request in range through no lease is admitted is what the access table of its master says. -/
theorem State.inboundOk_eq_admits {s : State} {m port a : Nat} {op : MemOp} {ep : Bool} (hm : m ≠ 255) (h1 : s.inMap a = true)
    (h2 : s.inMap (a + op.size - 1) = true) : s.inboundOk ⟨m, port, a, op, ep, none⟩ = s.admits m a op.size op.writes := by
  have hm' : (m == 255) = false := by simpa using hm
  unfold State.inboundOk
  dsimp only
  rw [hm', h1, h2]
  simp

theorem State.listed_of_inMap {s : State} {a : Nat} (h : s.inMap a = true) : s.listed a = true := by
  unfold State.listed; rw [h]; rfl

/-- The most bytes that a root port's request may carry (R25). -/
def MemOp.rootMax (op : MemOp) : Nat := if op.writes then 512 else 4096

theorem State.rootRequest_unlisted {s : State} {r : InReq} (h : s.listed r.addr = false ∨ s.listed (r.addr + r.op.size - 1) = false) :
    s.rootRequest r = s.say .unsupported := by
  unfold State.rootRequest
  rcases h with h | h <;> simp [h]

theorem State.rootRequest_listed {s : State} {r : InReq} (h1 : s.listed r.addr = true) (h2 : s.listed (r.addr + r.op.size - 1) = true)
    (hn : 0 < r.op.size) (hx : r.op.size ≤ r.op.rootMax) :
    s.rootRequest r = if inHost s.roots r.addr then s.forward r.addr r.op else s.inbound r := by
  unfold State.rootRequest
  refine if_neg ?_
  unfold MemOp.rootMax at hx
  simp only [h1, h2, Bool.or_eq_true, decide_eq_true_eq, Bool.not_true]
  simp only [Bool.false_eq_true, or_false]
  omega

/-! ### What an admitted request does -/

/-- From s to u the strand stands, memory stays canonical, and no byte but the n at a reads otherwise. -/
def State.writesOnly (s u : State) (a n : Nat) : Prop :=
  u.me = s.me ∧ u.memOk ∧ ∀ x, x < a ∨ a + n ≤ x → u.homeByte x = s.homeByte x

theorem State.ioWrite_writesOnly {s : State} (h : s.memOk) (m a : Nat) (l : List Byte) (en : Nat → Bool) :
    s.writesOnly (s.ioWrite m a l en) a l.length :=
  ⟨(s.ioWrite_frame m a l en).1, State.ioWrite_memOk h m a l en, fun _ hx => State.homeByte_ioWrite_other h hx⟩

/-- u has answered a read of s: nothing in memory or of the strand moves, the bytes go out. -/
def State.answersRead (s u : State) (a n : Nat) : Prop :=
  u.mem = s.mem ∧ u.me = s.me ∧ u.out = .answer (s.homeBytes a n) :: s.out

theorem State.ioRead_answers (s : State) (m a n : Nat) : s.answersRead ((s.ioRead m a n).1.say (.answer (s.ioRead m a n).2)) a n := by
  have h := s.ioRead_fst m a n
  exact ⟨h.mem, h.me, congrArg _ h.out⟩

/-- A root port reads poison as it stands (R15). -/
theorem State.perform_rootRead (s : State) (port a n : Nat) :
    s.perform ⟨73, port, a, .read n, false, none⟩ = (s.ioRead 73 a n).1.say (.answer (s.ioRead 73 a n).2) := by
  unfold State.perform
  exact if_neg (by simp)

theorem State.perform_read_clean {s : State} (h : ∀ l, s.poisoned l = false) (m port a n : Nat) :
    s.perform ⟨m, port, a, .read n, false, none⟩ = (s.ioRead m a n).1.say (.answer (s.ioRead m a n).2) := by
  unfold State.perform
  exact if_neg (by simp [h])

theorem State.perform_read_poisoned {s : State} {a n : Nat} (hn : 0 < n) (h : s.poisoned (a / 128) = true) {m : Nat} (hm : m ≠ 73)
    (port : Nat) : s.perform ⟨m, port, a, .read n, false, none⟩ = s.say .dataError := by
  have bad : ((linesAt a n).any fun line => s.poisoned line) = true :=
    List.any_eq_true.mpr ⟨a / 128, (mem_linesAt hn).mpr ⟨Nat.le_refl _, by omega⟩, h⟩
  unfold State.perform
  exact if_pos (Bool.and_eq_true_iff.mpr ⟨bad, decide_eq_true hm⟩)

/-- Where the operation gives no new value the old one is what stands. -/
theorem State.ioAtomic_effect {s : State} (h : s.memOk) (m a : Nat) (op : AmoOp) (t : AmoTy) (y c : Nat) :
    let n := amoBytes t
    let old := s.homeBytes a n
    let u := (s.ioAtomic m a op t y c).1
    s.writesOnly u a n ∧ u.out = s.out ∧ (s.ioAtomic m a op t y c).2 = old ∧
      u.homeBytes a n = leBytes n ((amoNew op t (ofLe old) y c).getD (ofLe old)) := by
  intro n old u
  have hr := s.ioRead_fst m a n
  have hm : (s.ioRead m a n).1.memOk := State.memOk_of_mem h hr.mem
  have e : s.ioAtomic m a op t y c = match amoNew op t (ofLe old) y c with
      | some x => ((s.ioRead m a n).1.ioWrite m a (leBytes n x) fun _ => true, old)
      | none => ((s.ioRead m a n).1, old) := rfl
  revert u
  rw [e]
  cases amoNew op t (ofLe old) y c with
  | none =>
    have back := leBytes_ofLe old
    rw [State.length_homeBytes] at back
    refine ⟨⟨hr.me, hm, fun x _ => hr.homeByte x⟩, hr.out, rfl, ?_⟩
    exact (List.map_congr_left fun i _ => hr.homeByte (a + i)).trans back.symm
  | some x =>
    obtain ⟨hme, hok, hother⟩ := State.ioWrite_writesOnly hm m a (leBytes n x) fun _ => true
    have hb := State.homeBytes_ioWrite hm m a (leBytes n x)
    rw [length_leBytes] at hother hb
    exact ⟨⟨hme.trans hr.me, hok, fun x hx => (hother x hx).trans (hr.homeByte x)⟩,
      (State.ioWrite_frame _ _ _ _ _).2.trans hr.out, rfl, hb⟩

theorem State.perform_atomic_clean {s : State} {m port a : Nat} {op : AmoOp} {t : AmoTy} {y c : Nat}
    (h : ∀ l ∈ linesAt a (amoBytes t), s.poisoned l = false) : s.perform ⟨m, port, a, .atomic op t y c, false, none⟩ =
      (s.ioAtomic m a op t y c).1.say (.answer (s.ioAtomic m a op t y c).2) := by
  unfold State.perform
  refine if_neg ?_
  rw [Bool.not_eq_true, List.any_eq_false]
  exact fun l hl => by simp [h l hl]

end Sys2Proof.Machine
end

section
/-! PROOFS. Requests of root ports and of peers (spec 01, R23 to R31). -/

namespace Sys2Proof.Machine

/-! ### Root ports and the CXL window (R23 to R28) -/

/-- The operation that the pins of an inbound request ask for. -/
def Pins.rootOp (p : Pins) : MemOp := if p.bytes.isEmpty then .read p.count else wholeWrite p.bytes

theorem Pins.rootOp_read {p : Pins} (h : decide (p.bytes ≠ []) = false) : p.rootOp = .read p.count := by
  have : p.bytes = [] := by simpa using h
  unfold Pins.rootOp; rw [this]; rfl

theorem Pins.rootOp_write {p : Pins} (h : decide (p.bytes ≠ []) = true) : p.rootOp = wholeWrite p.bytes := by
  unfold Pins.rootOp
  exact if_neg (by simpa using h)

theorem exec_pcieInboundRequest_ats {s : State} (h : s.pins.value = 1) : exec .pcieInboundRequest s = .next (s.say .unsupported) :=
  congrArg _ (if_pos h)

theorem exec_pcieInboundRequest {s : State} (h : s.pins.value ≠ 1) :
    exec .pcieInboundRequest s = .next (s.rootRequest ⟨73, s.pins.port, s.pins.addr, s.pins.rootOp, false, none⟩) :=
  congrArg _ (if_neg h)

theorem exec_downstreamDmaWrite (s : State) : exec .downstreamDmaWrite s =
    .next (s.rootRequest ⟨73, s.pins.port, s.pins.addr, wholeWrite s.pins.bytes, !s.pins.ok, none⟩) := rfl

section
variable {s : State} {port a : Nat} {op : MemOp} {ep : Bool}

/-- A root port's request in range for its size, to memory of the device or a CXL window, is one of master 73 at the target. -/
theorem State.rootRequest_here (h1 : s.inMap a = true) (h2 : s.inMap (a + op.size - 1) = true) (hh : inHost s.roots a = false)
    (hn : 0 < op.size) (hx : op.size ≤ op.rootMax) :
    s.rootRequest ⟨73, port, a, op, ep, none⟩ = s.inbound ⟨73, port, a, op, ep, none⟩ := by
  rw [State.rootRequest_listed (State.listed_of_inMap h1) (State.listed_of_inMap h2) hn hx, hh]
  rfl

theorem State.rootRequest_refused (h1 : s.inMap a = true) (h2 : s.inMap (a + op.size - 1) = true) (hh : inHost s.roots a = false)
    (hn : 0 < op.size) (hx : op.size ≤ op.rootMax) (ha : s.admits 73 a op.size op.writes = false) :
    s.rootRequest ⟨73, port, a, op, ep, none⟩ = s.say .unsupported := by
  rw [State.rootRequest_here h1 h2 hh hn hx, State.inbound_refused ((State.inboundOk_eq_admits (by decide) h1 h2).trans ha)]
  rfl

theorem State.rootRequest_performs (hc : s.crit = []) (hr : s.replay = []) (h1 : s.inMap a = true)
    (h2 : s.inMap (a + op.size - 1) = true) (hh : inHost s.roots a = false) (hn : 0 < op.size) (hx : op.size ≤ op.rootMax)
    (ha : s.admits 73 a op.size op.writes = true) :
    s.rootRequest ⟨73, port, a, op, ep, none⟩ = s.perform ⟨73, port, a, op, ep, none⟩ := by
  rw [State.rootRequest_here h1 h2 hh hn hx]
  exact State.inbound_performs hc hr ((State.inboundOk_eq_admits (by decide) h1 h2).trans ha) (by decide : (73 : Nat) ≠ 255)

end

/-- The effect of a DMA write: its bytes, the rest of memory, and the poison of its lines (R15, R26). -/
theorem State.dmaWrite_effect {s : State} (h : s.memOk) {a : Nat} {l : List Byte} (hl : 0 < l.length) (ep : Bool) :
    s.writesOnly (s.dmaWrite a l ep) a l.length ∧ (s.dmaWrite a l ep).homeBytes a l.length = l ∧
      ∀ line, a / 128 ≤ line → line ≤ (a + l.length - 1) / 128 →
        ep = true ∨ a ≤ 128 * line ∧ 128 * line + 128 ≤ a + l.length → (s.dmaWrite a l ep).poisoned line = ep := by
  have hp := s.dmaWrite_passes a l ep
  obtain ⟨hme, hok, hother⟩ := State.ioWrite_writesOnly h 73 a l fun _ => true
  refine ⟨⟨hp.me.trans hme, State.memOk_of_mem hok hp.mem, fun x hx => (hp.homeByte x).trans (hother x hx)⟩, ?_, ?_⟩
  · exact (List.map_congr_left fun i _ => hp.homeByte (a + i)).trans (State.homeBytes_ioWrite h 73 a l)
  · exact fun line h1 h2 hc => s.poisoned_dmaWrite ((mem_linesAt hl).mpr ⟨h1, h2⟩) hc

theorem exec_cxlMemRead {s : State} (h : inCxl s.roots s.pins.addr = true) : ∃ t, s.sameButCaches t ∧
    exec .cxlMemRead s = .next (if s.pins.ok then t else t.setPoison (s.pins.addr / 128) true) := by
  have ht := s.touchL2_caches s.pins.value (s.pins.addr / 128) false 0
  refine ⟨_, ht, ?_⟩
  change execCxlMemRead s = _
  unfold execCxlMemRead
  dsimp only
  rw [h, ht.pins]
  rfl

theorem rootPorts : Claims.RootPorts := by
  intro s hc hr p say wr n far here
  have op_eq : p.rootOp = if wr then .write p.bytes (2 ^ n - 1) else .read n := by
    cases h : wr with
    | false => simp [Pins.rootOp_read h, n, h]
    | true => simp [Pins.rootOp_write h, wholeWrite, n, h]
  have op_size : p.rootOp.size = n := by
    rw [op_eq]
    cases h : wr <;> simp [n, h, MemOp.size]
  have op_writes : p.rootOp.writes = wr := by
    rw [op_eq]
    cases h : wr <;> rfl
  have op_max : p.rootOp.rootMax = if wr then 512 else 4096 := by rw [MemOp.rootMax, op_writes]
  refine ⟨exec_pcieInboundRequest_ats, ?unlisted, ?refused, ?performs, ?host, ?dma, ?cxl⟩
  case unlisted =>
    intro h
    by_cases hv : p.value = 1
    · exact exec_pcieInboundRequest_ats hv
    · rw [exec_pcieInboundRequest hv, State.rootRequest_unlisted (by rw [op_size]; exact h)]
      rfl
  case refused =>
    rintro hv ⟨h1, h2, hh, hn, hx⟩ ha
    rw [← op_size] at h2 hn hx ha
    rw [← op_writes] at ha
    rw [← op_max] at hx
    rw [exec_pcieInboundRequest hv, State.rootRequest_refused h1 h2 hh hn hx ha]
    rfl
  case performs =>
    rintro hv ⟨h1, h2, hh, hn, hx⟩ ha
    rw [← op_size] at h2 hn hx ha
    rw [← op_writes] at ha
    rw [← op_max] at hx
    have e := exec_pcieInboundRequest hv
    rw [State.rootRequest_performs hc hr h1 h2 hh hn hx ha] at e
    refine ⟨fun h => ?_, fun h => ?_⟩
    · rw [Pins.rootOp_read h, State.perform_rootRead] at e
      exact ⟨_, e, s.ioRead_answers 73 p.addr p.count⟩
    · rw [Pins.rootOp_write h] at e
      exact e
  case host =>
    intro hv hf hn hx hh
    have hl : s.listed p.addr = true ∧ s.listed (p.addr + n - 1) = true := by simpa [far] using hf
    rw [← op_size] at hl hn hx
    rw [← op_max] at hx
    rw [exec_pcieInboundRequest hv, State.rootRequest_listed hl.1 hl.2 hn hx, hh, ← op_eq]
    rfl
  case dma =>
    rintro h ⟨h1, h2, hh, hn, hx⟩ ha hm
    have hb : n = p.bytes.length := by simp [n, h]
    rw [hb] at h2 hn ha
    rw [hb, h] at hx
    obtain ⟨⟨hme, hok, hother⟩, hbytes, hpoison⟩ := State.dmaWrite_effect hm hn (a := p.addr) !p.ok
    refine ⟨(s.dmaWrite p.addr p.bytes !p.ok).say .done, ?_, hme, hok, hbytes, hother,
      fun l hl1 hl2 => ⟨fun ho => ?_, fun ho h3 h4 => ?_⟩⟩
    · rw [exec_downstreamDmaWrite, State.rootRequest_performs (op := wholeWrite p.bytes) hc hr h1 h2 hh hn hx ha]
      rfl
    · rw [ho] at hpoison ⊢
      exact hpoison l hl1 hl2 (.inl rfl)
    · rw [ho] at hpoison ⊢
      exact hpoison l hl1 hl2 (.inr ⟨h3, h4⟩)
  case cxl =>
    intro h
    obtain ⟨t, ht, e⟩ := exec_cxlMemRead h
    cases ho : p.ok with
    | true =>
      rw [ho] at e
      exact ⟨t, e, ht.mem, ht.me, by simp⟩
    | false =>
      rw [ho] at e
      have hp := ht.trans (t.setPoison_caches (p.addr / 128) true)
      exact ⟨_, e, hp.mem, hp.me, fun _ => t.poisoned_setPoison_self _ _⟩

/-! ### Requests of peers (R29, R31, R33, R131) -/

section
variable {s : State} {a : Nat} {op : MemOp}

theorem State.forPeer_refused (hn : 0 < op.size) (hx : op.size ≤ 256) (h1 : s.inMap a = true)
    (h2 : s.inMap (a + op.size - 1) = true) (ha : s.admits 72 a op.size op.writes = false) :
    s.forPeer a op none = s.say .errorResponse := by
  have hs : ¬ (op.size = 0 || 256 < op.size) = true := by simp; omega
  unfold State.forPeer
  rw [if_neg hs, State.inbound_refused ((State.inboundOk_eq_admits (by decide) h1 h2).trans ha)]
  rfl

theorem State.forPeer_performs (hc : s.crit = []) (hr : s.replay = []) (hn : 0 < op.size) (hx : op.size ≤ 256)
    (h1 : s.inMap a = true) (h2 : s.inMap (a + op.size - 1) = true) (ha : s.admits 72 a op.size op.writes = true) :
    s.forPeer a op none = s.perform ⟨72, s.pins.port, a, op, false, none⟩ := by
  have hs : ¬ (op.size = 0 || 256 < op.size) = true := by simp; omega
  unfold State.forPeer
  rw [if_neg hs]
  exact State.inbound_performs hc hr ((State.inboundOk_eq_admits (by decide) h1 h2).trans ha) (by decide : (72 : Nat) ≠ 255)

end

theorem exec_peerAtomic {s : State} {op : MemOp}
    (h : atomicOf s.pins.value s.pins.count s.pins.addr s.pins.bytes = some op) :
    exec .peerAtomic s = .next (s.forPeer s.pins.addr op none) := by
  change execPeerAtomic s = _
  unfold execPeerAtomic
  dsimp only
  rw [h]

/-- The operand type of a peer's atomic on n bytes. -/
def atomicTy (n : Nat) : AmoTy := if n = 4 then .i32 else .i64

theorem amoBytes_atomicTy {n : Nat} (h : n = 4 ∨ n = 8) : amoBytes (atomicTy n) = n := by
  rcases h with rfl | rfl <;> rfl

theorem atomicOf_aligned {code n a : Nat} {op : AmoOp} (b : List Byte) (hn : n = 4 ∨ n = 8) (ha : a % n = 0)
    (ho : amoOfCode code = some op) :
    atomicOf code n a b = some (.atomic op (atomicTy n) (ofLe (b.take n)) (ofLe (b.drop n))) := by
  unfold atomicOf
  rw [if_pos (by simpa using ⟨hn, ha⟩), ho]
  rfl

theorem peerRequests : Claims.PeerRequests := by
  intro s hc hr p say frame
  refine ⟨fun hn hx h1 h2 => ⟨?readRefused, ?read, ?write, ?atomic⟩, ?unknown⟩
  case readRefused =>
    exact fun ha => congrArg _ (State.forPeer_refused (op := .read p.count) hn hx h1 h2 ha)
  case read =>
    intro ha
    have e : exec .peerRead s = .next (s.perform ⟨72, p.port, p.addr, .read p.count, false, none⟩) :=
      congrArg _ (State.forPeer_performs (op := .read p.count) hc hr hn hx h1 h2 ha)
    refine ⟨fun hp => ?_, fun hp => ⟨_, ?_, s.ioRead_answers 72 p.addr p.count⟩⟩
    · rw [e, State.perform_read_poisoned hn hp (by decide)]
      rfl
    · rw [e, State.perform_read_clean hp]
  case write =>
    intro ha hb hm
    rw [← hb] at hn hx h2 ha
    have e : exec .peerWrite s = .next ((s.ioWrite 72 p.addr p.bytes fun i => p.value.testBit i).say .done) :=
      congrArg _ (State.forPeer_performs (op := .write p.bytes p.value) hc hr hn hx h1 h2 ha)
    have hw := State.ioWrite_writesOnly hm 72 p.addr p.bytes fun i => p.value.testBit i
    rw [hb] at hw
    refine ⟨_, e, hw, congrArg _ (s.ioWrite_frame _ _ _ _).2, fun i hi => ?_⟩
    have hbyte := State.homeByte_ioWrite hm 72 p.addr p.bytes (fun i => p.value.testBit i) (p.addr + i)
    rw [Nat.add_sub_cancel_left] at hbyte
    refine hbyte.trans (if_congr ?_ rfl rfl)
    exact ⟨fun h => h.2.2, fun h => ⟨by omega, by omega, h⟩⟩
  case atomic =>
    intro op ha ho hc4 hal hp hm
    have hs := amoBytes_atomicTy hc4
    have clean : ∀ l ∈ linesAt p.addr (amoBytes (atomicTy p.count)), s.poisoned l = false := by
      rw [hs, linesAt_aligned hc4 hal]
      simpa using hp
    have he := State.ioAtomic_effect hm 72 p.addr op (atomicTy p.count) (ofLe (p.bytes.take p.count)) (ofLe (p.bytes.drop p.count))
    have e := exec_peerAtomic (atomicOf_aligned p.bytes hc4 hal ho)
    rw [← hs] at hn hx h2 ha
    rw [State.forPeer_performs (op := .atomic op (atomicTy p.count) _ _) hc hr hn hx h1 h2 ha,
      State.perform_atomic_clean clean] at e
    rw [hs] at he
    obtain ⟨hw, hout, hold, hnew⟩ := he
    rw [hold] at e
    exact ⟨_, e, hw, congrArg _ hout, hnew⟩
  case unknown =>
    intro hp
    have hreg : Reg.link p.port + 0x08 = 0xF80000030008 + 0x1000 * p.port := by unfold Reg.link; omega
    have e : exec .unknownPacket s = .next ((s.countReg (Reg.link p.port + 0x08) 32).say .errorResponse) :=
      congrArg _ (if_neg (Nat.not_le.mpr hp))
    rw [e, hreg]
    rfl

end Sys2Proof.Machine
end

section
/-! PROOFS. Requests of the device, and the links (spec 01, R30 to R35): the statement O52. -/

namespace Sys2Proof.Machine

/-! ### Requests of the device (R30, R76, R182) -/

theorem bestBy_mem {key : Nat → Nat} {l : List Nat} {x : Nat} (h : bestBy key l = some x) : x ∈ l := by
  have best : ∀ (l : List Nat) (b : Option Nat), l.foldl (fun b x => match b with
      | none => some x
      | some y => if key x < key y then some x else some y) b = some x → b = some x ∨ x ∈ l := by
    intro l
    induction l with
    | nil => exact fun b h => .inl h
    | cons y l ih =>
      intro b h
      rcases ih _ h with h | h
      · cases b with
        | none => exact .inr (List.mem_cons.mpr (.inl (Option.some.inj h).symm))
        | some z =>
          dsimp only at h
          split at h
          · exact .inr (List.mem_cons.mpr (.inl (Option.some.inj h).symm))
          · exact .inl h
      · exact .inr (List.mem_cons_of_mem y h)
  exact (best l none h).resolve_left (by simp)

/-- An arbiter at which one device alone asks grants that device (R76). -/
theorem State.grantNext_one (s : State) (a : Arbiter) {l : List (Nat × Nat)} {v : Nat} (hl : l ≠ []) (h : ∀ x ∈ l, x.1 = v) :
    s.grantNext a l = some v := by
  have own : ∀ (key : Nat → Nat) (p : Nat × Nat → Bool) {x : Nat},
      bestBy key ((l.filter p).map fun x => x.1) = some x → x = v := by
    intro key p x hx
    obtain ⟨y, hy, rfl⟩ := List.mem_map.mp (bestBy_mem hx)
    exact h y (List.mem_filter.mp hy).1
  have head : (l.head?).map (fun x => x.1) = some v := by
    cases l with
    | nil => exact absurd rfl hl
    | cons x l => exact congrArg some (h x (List.mem_cons_self ..))
  unfold State.grantNext
  dsimp only
  rw [head]
  generalize hA : bestBy _ ((l.filter _).map _) = A
  generalize hB : bestBy _ ((l.filter _).map _) = B
  cases A with
  | some x => exact congrArg some (own _ _ hA)
  | none =>
    cases B with
    | some x => exact congrArg some (own _ _ hB)
    | none => rfl

/-- Of the requests of one device, all of its current incarnation, the oldest goes out where it hashes to the port (R30). -/
theorem exec_ualinkRequestSend {s : State} {r : PeerReq} {l : List PeerReq} (hq : s.sendq = r :: l)
    (h : ∀ q ∈ s.sendq, q.who.vd = r.who.vd ∧ s.staleWho q.who = false)
    (hp : portFor s.upPorts (r.addr / 128) = some s.pins.port) :
    exec .ualinkRequestSend s = .next
      ((({ s with sendq := l } : State).setSent s.pins.port (s.sent s.pins.port ++ [r])).transmit s.pins.port r) := by
  have none_old : (s.sendq.filter fun r => s.staleWho r.who) = [] :=
    List.filter_eq_nil_iff.mpr fun q hm => by simp [(h q hm).2]
  have all_current : (s.sendq.filter fun r => !s.staleWho r.who) = s.sendq :=
    List.filter_eq_self.mpr fun q hm => by simp [(h q hm).2]
  have kept : (s.sendq.filter fun r => s.staleWho r.who).foldl (fun s r => s.dropStale r.op.writes)
      { s with sendq := s.sendq.filter fun r => !s.staleWho r.who } = s := by
    rw [none_old, all_current]
    rfl
  have mine : (s.sendq.filter fun q => portFor s.upPorts (q.addr / 128) == some s.pins.port) =
      r :: l.filter fun q => portFor s.upPorts (q.addr / 128) == some s.pins.port := by
    rw [hq, List.filter_cons_of_pos (by simp [hp])]
  have granted : s.grantNext (.ualink s.pins.port)
      ((s.sendq.filter fun q => portFor s.upPorts (q.addr / 128) == some s.pins.port).map fun q => (q.who.vd, q.flits)) =
      some r.who.vd := by
    refine s.grantNext_one _ (by simp [mine]) fun x hx => ?_
    obtain ⟨q, hm, rfl⟩ := List.mem_map.mp hx
    exact (h q (List.mem_filter.mp hm).1).1
  change execUalinkRequestSend s = _
  unfold execUalinkRequestSend
  dsimp only
  rw [kept, granted, mine, hq]
  simp

theorem exec_responseArrival {s : State} {r : PeerReq} {ans : PeerAns} (hr : (s.sent s.pins.port)[s.pins.count]? = some r)
    (ha : responseOf r.op s.pins = some ans) : exec .responseArrival s =
      .next ((s.setSent s.pins.port ((s.sent s.pins.port).eraseIdx s.pins.count)).answer r ans) := by
  change execResponseArrival s = _
  unfold execResponseArrival
  dsimp only
  rw [hr]
  dsimp only
  rw [ha]

theorem State.answer_stale {s : State} {r : PeerReq} (h : s.staleWho r.who = true) (ans : PeerAns) :
    s.answer r ans = s.countReg Reg.orphcnt 32 := by
  unfold State.answer
  exact if_pos h

/-- With no strand squashed an answer is there for the requester that waits for it. -/
theorem State.answer_awaited {s : State} {r : PeerReq} (h : s.staleWho r.who = false) (hm : ∀ k ∈ s.strands, k.muted = false)
    (ha : s.awaited r = true) (ans : PeerAns) :
    s.answer r ans = { s with peerIn := s.peerIn ++ [⟨r.who, r.entry, r.addr, r.op, ans⟩] } := by
  unfold State.answer
  dsimp only
  rw [if_neg (by simp [h]), if_neg ?_, if_pos ha]
  rw [Bool.not_eq_true, List.any_eq_false]
  exact fun k hk => by simp [hm k hk]

theorem deviceRequests : Claims.DeviceRequests := by
  intro s p
  refine ⟨fun r l hq h hp => exec_ualinkRequestSend hq h hp, ?_⟩
  intro r ans hr ha u
  have e := exec_responseArrival hr ha
  refine ⟨fun h => ?_, fun h hm hw => ?_⟩ <;> rw [e]
  · rw [State.answer_stale (s := s.setSent _ _) h]
    rfl
  · rw [State.answer_awaited (s := s.setSent _ _) h hm hw]
    rfl

/-! ### Lane repair, training, and a port that goes down (R32 to R35) -/

theorem exec_laneRepairRequest {s : State} (hp : s.pins.port < 18) (h2 : s.linkState s.pins.port = 2)
    (hn : s.regN (Reg.link s.pins.port + 0x28) ≤ s.pins.value) : exec .laneRepairRequest s =
      .next ((s.addReg (Reg.link s.pins.port + 0x10) 32 s.pins.value).setLink s.pins.port 3 (s.linkWidth s.pins.port)
        (s.laneOk s.pins.port)) :=
  congrArg _ (if_neg (by simp [h2]; omega))

theorem exec_replayDrainEnd {s : State} (hp : s.pins.port < 18) (h3 : s.linkState s.pins.port = 3)
    (hw : popNat 4 (s.laneOk s.pins.port) = s.linkWidth s.pins.port) (h1 : 1 < s.linkWidth s.pins.port)
    (hl : (s.laneOk s.pins.port).testBit s.pins.count = true) : exec .replayDrainEnd s =
      .next ((s.setSent s.pins.port ((s.sent s.pins.port).map fun r => { r with acked := true })).setLink s.pins.port 3
        (s.linkWidth s.pins.port) (narrower (s.laneOk s.pins.port) s.pins.count)) :=
  congrArg _ (if_pos (by simp [hp, h3, hw, h1, hl]))

theorem exec_laneRepairDone {s : State} (hp : s.pins.port < 18) (h3 : s.linkState s.pins.port = 3)
    (hw : popNat 4 (s.laneOk s.pins.port) < s.linkWidth s.pins.port) : exec .laneRepairDone s =
      .next ((s.setLink s.pins.port 2 (popNat 4 (s.laneOk s.pins.port)) (s.laneOk s.pins.port)).countReg
        (Reg.link s.pins.port + 0x18) 16) :=
  congrArg _ (if_pos (by simp [hp, h3, hw]))

theorem exec_portRetrain {s : State} (hp : s.pins.port < 18) (h3 : s.linkState s.pins.port = 3)
    (hn : s.regN (Reg.link s.pins.port + 0x30) < s.pins.value) : exec .portRetrain s =
      .next ((s.setLink s.pins.port 4 (s.linkWidth s.pins.port) (s.laneOk s.pins.port)).countReg
        (Reg.link s.pins.port + 0x20) 16) :=
  congrArg _ (if_pos (by simp [hp, h3, hn]))

theorem exec_trainingEnd_first {s : State} (hp : s.pins.port < 18) (h1 : s.linkState s.pins.port = 1) (hok : s.pins.ok = true)
    (hn : popNat 4 s.pins.value ∈ [1, 2, 4]) : exec .trainingEnd s =
      .next (s.setLink s.pins.port 2 (popNat 4 s.pins.value) (s.pins.value % 16)) := by
  change execTrainingEnd s = _
  unfold execTrainingEnd
  dsimp only
  rw [if_neg (Nat.not_le.mpr hp), if_pos h1, if_pos (by simpa [hok, or_assoc] using hn)]

theorem exec_trainingEnd_again {s : State} (hp : s.pins.port < 18) (h4 : s.linkState s.pins.port = 4) (hok : s.pins.ok = true)
    (hs : s.sent s.pins.port = []) : exec .trainingEnd s =
      .next (s.setLink s.pins.port 2 (s.linkWidth s.pins.port) (s.laneOk s.pins.port)) := by
  change execTrainingEnd s = _
  unfold execTrainingEnd
  dsimp only
  rw [if_neg (Nat.not_le.mpr hp), if_neg (by rw [h4]; decide), if_pos h4, if_pos hok, hs]
  rfl

theorem exec_portDown {s : State} (hp : s.pins.port < 18) (h0 : s.linkState s.pins.port ≠ 0) :
    exec .portDown s = .next (s.goDown s.pins.port) :=
  congrArg _ (if_pos (by simp [hp, h0]))

/-- With nothing sent and unanswered a port that goes down takes nothing with it. -/
theorem State.goDown_idle {s : State} {p : Nat} (h : s.sent p = []) : s.goDown p = (s.setLink p 0 0 0).setSent p [] := by
  unfold State.goDown
  rw [h]
  rfl

theorem linkRepair : Claims.LinkRepair := by
  intro s hp p link state width lanes sent set
  exact ⟨exec_laneRepairRequest hp, exec_replayDrainEnd hp, exec_laneRepairDone hp, exec_portRetrain hp,
    exec_trainingEnd_first hp, exec_trainingEnd_again hp,
    fun h0 hs => (exec_portDown hp h0).trans (congrArg _ (State.goDown_idle hs))⟩

/-- Settles O52: its four parts. -/
theorem portEvents : Obligations.PortEvents := ⟨rootPorts, peerRequests, deviceRequests, linkRepair⟩

end Sys2Proof.Machine
end

section
/-! PROOFS. Bring-up (spec 02, R36 to R40): the boot record, the steps, the package resets. -/

namespace Sys2Proof.Machine

/-! ### The boot record (R37, R38) -/

/-- A field that lies within the low bits of a number is read from them. -/
theorem field_field_low {x m lo w : Nat} (h : lo + w ≤ m) : field (field x 0 m) lo w = field x lo w := by
  unfold field
  apply Nat.eq_of_testBit_eq
  intro i
  simp only [Nat.testBit_mod_two_pow, Nat.testBit_shiftRight, Nat.zero_add]
  by_cases hi : i < w
  · simp [hi, show lo + i < m by omega]
  · simp [hi]

theorem stepStatus_stepByte (s : State) (n : Nat) : stepStatus (s.stepByte n) = field (s.regN (Reg.bootstep n)) 0 3 :=
  field_field_low (by decide)

theorem stepFails_stepByte (s : State) (n : Nat) : stepFails (s.stepByte n) = field (s.regN (Reg.bootstep n)) 4 2 :=
  field_field_low (by decide)

theorem State.stepByte_setReg_other (s : State) {a n : Nat} (v : Word) (h : Reg.bootstep n ≠ a) :
    (s.setReg a v).stepByte n = s.stepByte n := by
  unfold State.stepByte State.regN
  rw [State.reg_setReg_other s v h]

/-- A step that has not run, or passed with its main method, runs that method (R38). -/
theorem stepAction_main {n b : Nat} (h : stepStatus b = 0 ∨ stepStatus b = 2) : stepAction n b = some (false, stepFails b) := by
  unfold stepAction
  rcases h with h | h <;> simp [h]

/-- A step that was running or has failed: the optional one is left out, a main method with an alternate gives way to it, any
other method runs again (R38). -/
theorem stepAction_failed {n b : Nat} (h : stepStatus b = 1 ∨ stepStatus b = 3) : stepAction n b =
    if stepOptional n && !(stepAlt b == 1) then none
    else if stepHasAlt n && !(stepAlt b == 1) then some (true, 0)
    else some (stepAlt b == 1, stepFails b) := by
  unfold stepAction
  rcases h with h | h <;> simp [h]

theorem stepAction_optional {b : Nat} (h : stepStatus b = 1 ∨ stepStatus b = 3) (ha : stepAlt b = 0) : stepAction 18 b = none := by
  rw [stepAction_failed h, ha]
  rfl

theorem stepAction_alternate {n b : Nat} (h : stepStatus b = 1 ∨ stepStatus b = 3) (ha : stepAlt b = 0) (h0 : n ≠ 0) (h1 : n ≠ 1)
    (h18 : n ≠ 18) : stepAction n b = some (true, 0) := by
  rw [stepAction_failed h]
  simp [ha, stepOptional, stepHasAlt, h0, h1, h18]

theorem stepAction_again {n b : Nat} (h : stepStatus b = 1 ∨ stepStatus b = 3) (hn : n = 0 ∨ n = 1 ∨ stepAlt b = 1) :
    stepAction n b = some (stepAlt b == 1, stepFails b) := by
  rw [stepAction_failed h]
  rcases hn with rfl | rfl | ha
  · rfl
  · rfl
  · simp [ha]

/-! ### The start (R36, R38) -/

/-- The first step begins with its main method where the record does not hold a failure of it. -/
theorem State.beginStep_first {s : State} (h : stepStatus (s.stepByte 0) = 0 ∨ stepStatus (s.stepByte 0) = 2) (k : Nat) :
    s.beginStep (k + 1) 0 = { s.setStep 0 1 0 (stepFails (s.stepByte 0)) with boot := some (0, s.now) } := by
  unfold State.beginStep
  rw [if_neg (by decide), if_neg (by decide)]
  dsimp only
  rw [stepAction_main h]
  rfl

theorem exec_bootStart {s : State} (hb : s.boot = none) (hc : s.caps = none) (hh : s.halted = false) : exec .bootStart s =
    .next ((s.setReg Reg.bootstart (BitVec.ofNat 64 ((s.regN Reg.bootstart + 1) % 2 ^ 32))).beginStep 22 0) :=
  congrArg _ (if_neg (by simp [hb, hc, hh]))

theorem exec_bootStart_main {s : State} (hb : s.boot = none) (hc : s.caps = none) (hh : s.halted = false)
    (h : field (s.regN Reg.boot) 0 3 = 0 ∨ field (s.regN Reg.boot) 0 3 = 2) : exec .bootStart s =
    .next { (s.setReg Reg.bootstart (BitVec.ofNat 64 ((s.regN Reg.bootstart + 1) % 2 ^ 32))).setStep 0 1 0
      (field (s.regN Reg.boot) 4 2) with boot := some (0, s.now) } := by
  have hrec := s.stepByte_setReg_other (a := Reg.bootstart) (n := 0)
    (BitVec.ofNat 64 ((s.regN Reg.bootstart + 1) % 2 ^ 32)) (by decide)
  have hstatus : stepStatus (s.stepByte 0) = 0 ∨ stepStatus (s.stepByte 0) = 2 := by rwa [stepStatus_stepByte]
  rw [exec_bootStart hb hc hh, State.beginStep_first (by rwa [hrec]), hrec, stepFails_stepByte]
  rfl

/-! ### A step passes (R36, R41, R42) -/

/-- The step records its pass, with the method and the failures that its byte has, and the next one begins. -/
def State.goOn (s : State) (n b : Nat) : State :=
  (s.setStep n (if stepAlt b = 1 then 5 else 2) (stepAlt b) (stepFails b)).beginStep 22 (n + 1)

theorem State.passStep_goOn {s u : State} {n : Nat} (h : s.stepDone n (stepAlt (s.stepByte n) == 1) = (u, 0)) :
    s.passStep n = u.goOn n (s.stepByte n) := by
  unfold State.passStep
  dsimp only
  rw [h]
  simp only [beq_iff_eq]
  rfl

section
variable {s : State} {n t : Nat}

theorem exec_bootStepPass (hb : s.boot = some (n, t)) :
    exec .bootStepPass s = .next (if s.mayPass n t then s.passStep n else s) := by
  change execBootStepPass s = _
  unfold execBootStepPass
  rw [hb]

theorem State.stepLate_iff : s.stepLate n t = true ↔ stepLimit n * 2000000 ≤ s.now - t := decide_eq_true_iff

theorem State.mayPass_ualink : s.mayPass 18 t = !s.upPorts.isEmpty := rfl

/-- What a step but UALink's finds decides whether it may pass within its limit. -/
theorem State.mayPass_inTime (h18 : n ≠ 18) (hl : s.stepLate n t = false) :
    s.mayPass n t = if n = 2 then blobOk s.pins.bytes else if n = 20 then s.pins.ok else true := by
  unfold State.mayPass
  rw [if_neg h18, hl]
  rfl

/-- Rails and PLLs have nothing to leave but their pass. -/
theorem exec_bootStepPass_power (hb : s.boot = some (n, t)) (hn : n < 2) (hl : s.stepLate n t = false) :
    exec .bootStepPass s = .next (s.goOn n (s.stepByte n)) := by
  have hm : s.mayPass n t = true := by
    rw [State.mayPass_inTime (by omega) hl, if_neg (by omega), if_neg (by omega)]
  have hd : s.stepDone n (stepAlt (s.stepByte n) == 1) = (s, 0) := by
    have : n = 0 ∨ n = 1 := by omega
    rcases this with rfl | rfl <;> rfl
  rw [exec_bootStepPass hb, if_pos hm, State.passStep_goOn hd]

/-- What step 2 takes from a blob that verifies. -/
def State.takeBlob (s : State) : State :=
  { s with
    measures := s.measures.set 0 (Keccak.shake256 s.pins.bytes)
    serial := BitVec.ofNat 64 (ofLe ((s.pins.bytes.drop 0x10).take 8))
    split := Config.bifurcation ((s.pins.bytes.drop 0x20).take (ofLe ((s.pins.bytes.drop 0x18).take 4))) }

theorem exec_bootStepPass_blob (hb : s.boot = some (2, t)) (hl : s.stepLate 2 t = false) :
    exec .bootStepPass s = .next (if blobOk s.pins.bytes = true then s.takeBlob.goOn 2 (s.stepByte 2) else s) := by
  have hd : s.stepDone 2 (stepAlt (s.stepByte 2) == 1) = (s.takeBlob, 0) := rfl
  rw [exec_bootStepPass hb, State.mayPass_inTime (by decide) hl, if_pos rfl, State.passStep_goOn hd]

theorem State.passStep_ualink (s : State) : s.passStep 18 = s.goOn 18 (s.stepByte 18) := State.passStep_goOn rfl

theorem exec_bootStepPass_ualink (hb : s.boot = some (18, t)) (hu : s.upPorts ≠ []) :
    exec .bootStepPass s = .next (s.goOn 18 (s.stepByte 18)) := by
  rw [exec_bootStepPass hb, State.mayPass_ualink, if_pos (by simpa using hu), State.passStep_ualink]

theorem exec_bootStepPass_image (hb : s.boot = some (20, t)) (hl : s.stepLate 20 t = false) (hok : s.pins.ok = true) :
    exec .bootStepPass s =
      .next (({ s with measures := s.measures.set 1 (Keccak.shake256 s.pins.bytes) } : State).goOn 20 (s.stepByte 20)) := by
  have hd : s.stepDone 20 (stepAlt (s.stepByte 20) == 1) =
      ({ s with measures := s.measures.set 1 (Keccak.shake256 s.pins.bytes) }, 0) := rfl
  have hm : s.mayPass 20 t = true := (State.mayPass_inTime (by decide) hl).trans hok
  rw [exec_bootStepPass hb, if_pos hm, State.passStep_goOn hd]

/-! ### A step fails or reaches its limit (R36, R38, R39) -/

/-- The failures that the record holds once the step has failed again. -/
def State.failsNow (s : State) (n : Nat) : Nat := min 3 (stepFails (s.stepByte n) + 1)

/-- The step records its failure. -/
def State.failed (s : State) (n : Nat) : State := s.setStep n 3 (stepAlt (s.stepByte n)) (s.failsNow n)

/-- The third failure of a method halts the package, an earlier one resets it. -/
def State.haltOrReset (s : State) (n : Nat) : State :=
  if s.failsNow n = 3 then (s.failed n).haltBoot n 1 else (s.failed n).packageReset

theorem State.failStep_up (hb : s.boot = some (18, t)) (hu : s.upPorts ≠ []) (noBlob : Bool) : s.failStep noBlob = s := by
  unfold State.failStep
  rw [hb]
  exact if_pos (by simpa using hu)

theorem State.failStep_noBlob (hb : s.boot = some (2, t)) (ha : stepAlt (s.stepByte 2) = 1) :
    s.failStep true = (s.failed 2).haltBoot 2 3 := by
  unfold State.failStep
  rw [hb]
  dsimp only
  rw [if_neg (by simp), if_pos (by simp [ha])]
  rfl

theorem State.failStep_down (hb : s.boot = some (n, t)) (hd : n = 18 → s.upPorts = []) {noBlob : Bool}
    (h : ¬ (n = 2 ∧ stepAlt (s.stepByte n) = 1 ∧ noBlob = true)) : s.failStep noBlob = s.haltOrReset n := by
  unfold State.failStep
  rw [hb]
  dsimp only
  rw [if_neg (by simpa using hd), if_neg (by simpa using h)]
  rfl

theorem exec_bootStepFail (s : State) : exec .bootStepFail s = .next (s.failStep (!blobOk s.pins.bytes)) := rfl

theorem exec_bootStepFail_up (hb : s.boot = some (18, t)) (hu : s.upPorts ≠ []) : exec .bootStepFail s = .next s := by
  rw [exec_bootStepFail, State.failStep_up hb hu]

theorem exec_bootStepFail_noBlob (hb : s.boot = some (2, t)) (ha : stepAlt (s.stepByte 2) = 1)
    (hbad : blobOk s.pins.bytes = false) : exec .bootStepFail s = .next ((s.failed 2).haltBoot 2 3) := by
  rw [exec_bootStepFail, hbad, Bool.not_false, State.failStep_noBlob hb ha]

/-- Any failure but that of the second copy of the blob counts for its method. -/
theorem exec_bootStepFail_down (hb : s.boot = some (n, t)) (hd : n = 18 → s.upPorts = [])
    (h : n ≠ 2 ∨ stepAlt (s.stepByte n) = 0 ∨ blobOk s.pins.bytes = true) : exec .bootStepFail s = .next (s.haltOrReset n) := by
  rw [exec_bootStepFail, State.failStep_down hb hd]
  rintro ⟨h2, ha, hbad⟩
  rcases h with h | h | h
  · exact h h2
  · exact absurd (h.symm.trans ha) (by decide)
  · simp [h] at hbad

theorem exec_bootStepTimeout (hb : s.boot = some (n, t)) : exec .bootStepTimeout s =
    .next (if !s.stepLate n t then s else if n = 18 && !s.upPorts.isEmpty then s.passStep n else s.failStep false) := by
  change execBootStepTimeout s = _
  unfold execBootStepTimeout
  rw [hb]

theorem exec_bootStepTimeout_down (hb : s.boot = some (n, t)) (hl : s.stepLate n t = true) (hd : n = 18 → s.upPorts = []) :
    exec .bootStepTimeout s = .next (s.haltOrReset n) := by
  rw [exec_bootStepTimeout hb, if_neg (by simp [hl]), if_neg (by simpa using hd), State.failStep_down hb hd (by simp)]

/-- UALink's step passes at its limit with a port up. -/
theorem exec_bootStepTimeout_up (hb : s.boot = some (18, t)) (hl : s.stepLate 18 t = true) (hu : s.upPorts ≠ []) :
    exec .bootStepTimeout s = .next (s.goOn 18 (s.stepByte 18)) := by
  rw [exec_bootStepTimeout hb, if_neg (by simp [hl]), if_pos (by simpa using hu), State.passStep_ualink]

theorem exec_bootStepTimeout_early (hb : s.boot = some (n, t)) (hl : s.stepLate n t = false) :
    exec .bootStepTimeout s = .next s := by
  rw [exec_bootStepTimeout hb, hl]
  rfl

end

/-! ### The package resets (R38, R40) -/

theorem lookup_filter_key (p : Nat → Bool) (a : Nat) : ∀ l : List (Nat × Word),
    (l.filter fun x => p x.1).lookup a = if p a then l.lookup a else none
  | [] => by simp
  | (b, w) :: l => by
    have ih := lookup_filter_key p a l
    by_cases hab : a = b
    · subst hab
      cases hp : p a <;> simp [List.lookup, hp, ih]
    · have hb : (a == b) = false := by simpa using hab
      cases hp : p b <;> simp [List.lookup, hp, hb, ih]

theorem Regs.wfFrom_filter (p : Nat × Word → Bool) : ∀ {l : List (Nat × Word)} {lo : Nat}, Regs.wfFrom lo l = true →
    Regs.wfFrom lo (l.filter p) = true
  | [], _, _ => rfl
  | (a, v) :: l, lo, h => by
    simp only [Regs.wfFrom, Bool.and_eq_true, decide_eq_true_eq] at h
    obtain ⟨⟨hlo, hv⟩, hl⟩ := h
    rw [List.filter_cons]
    split
    · simp [Regs.wfFrom, hlo, hv, Regs.wfFrom_filter p hl]
    · exact Regs.wfFrom_mono (by omega) (Regs.wfFrom_filter p hl)

/-- The registers that a package reset keeps as they are: the boot record. -/
def Reg.inRecord (a : Nat) : Bool := Reg.boot ≤ a && a < Reg.boot + 0x30

/-- The state after reset with the boot record of `s`. -/
def State.recordOnly (s : State) : State :=
  { State.reset with
    adie := s.adie.filter fun x => Reg.inRecord x.1
    fresh := s.fresh + 1
    fog := [⟨0, 2 ^ 48, s.fresh⟩]
    agenda := s.agenda
    pins := s.pins
    out := .packageReset :: s.out }

theorem State.packageReset_eq (s : State) : s.packageReset =
    s.recordOnly.setReg (Reg.att + 0x30) (BitVec.ofNat 64 (s.regN (Reg.att + 0x30) / 2 ^ 16 * 2 ^ 16)) := rfl

theorem State.recordOnly_regsOk {s : State} (h : s.regsOk) : s.recordOnly.regsOk := Regs.wfFrom_filter _ h

theorem State.reg_recordOnly (s : State) (a : Nat) :
    s.recordOnly.reg a = if Reg.inRecord a then s.reg a else regReset a := by
  unfold State.reg
  rw [show s.recordOnly.adie = s.adie.filter fun x => Reg.inRecord x.1 from rfl, lookup_filter_key Reg.inRecord]
  split <;> rfl

theorem State.reg_packageReset (s : State) {a : Nat} (h : a ≠ Reg.att + 0x30) :
    s.packageReset.reg a = if Reg.inRecord a then s.reg a else regReset a := by
  rw [State.packageReset_eq, State.reg_setReg_other _ _ h, State.reg_recordOnly]

theorem State.reg_packageReset_record (s : State) {a : Nat} (h1 : Reg.boot ≤ a) (h2 : a < Reg.boot + 0x30) :
    s.packageReset.reg a = s.reg a := by
  have hk : Reg.inRecord a = true := by simp [Reg.inRecord, h1, h2]
  rw [State.reg_packageReset s (by unfold Reg.att; unfold Reg.boot at h2; omega), if_pos hk]

theorem State.regN_packageReset_attstat {s : State} (h : s.regsOk) :
    s.packageReset.regN (Reg.att + 0x30) = s.regN (Reg.att + 0x30) / 2 ^ 16 * 2 ^ 16 := by
  have hlt : s.regN (Reg.att + 0x30) < 2 ^ 64 := (s.reg (Reg.att + 0x30)).isLt
  unfold State.regN at hlt ⊢
  rw [State.packageReset_eq, State.reg_setReg_self (State.recordOnly_regsOk h), BitVec.toNat_ofNat]
  exact Nat.mod_eq_of_lt (lt_of_le_of_lt (Nat.div_mul_le_self _ _) hlt)

/-- `t` is what a package reset of `s` leaves: nothing of the machine but the boot record, its steps as in `step`, and the count
of reports. -/
def State.resetLeaves (s t : State) (step : Nat → Word) : Prop :=
  t.me = Strand.none ∧ t.others = [] ∧ t.caps = none ∧ t.halted = false ∧ t.counters = [] ∧ t.launches = [] ∧
  t.out = .packageReset :: s.out ∧
  (∀ a, a < Reg.boot ∨ Reg.boot + 0x30 ≤ a → a ≠ Reg.att + 0x30 → t.reg a = regReset a) ∧
  t.regN (Reg.att + 0x30) = s.regN (Reg.att + 0x30) / 2 ^ 16 * 2 ^ 16 ∧ t.reg Reg.bootstart = s.reg Reg.bootstart ∧
  ∀ n < 21, t.reg (Reg.bootstep n) = step n

theorem State.packageReset_leaves {s : State} (h : s.regsOk) : s.resetLeaves s.packageReset fun n => s.reg (Reg.bootstep n) := by
  refine ⟨rfl, rfl, rfl, rfl, rfl, rfl, rfl, ?outside, State.regN_packageReset_attstat h, ?start, ?steps⟩
  case outside =>
    intro a ha hatt
    have hk : Reg.inRecord a = false := by
      rw [← Bool.not_eq_true]
      simp only [Reg.inRecord, Bool.and_eq_true, decide_eq_true_eq]
      omega
    rw [State.reg_packageReset s hatt, hk]
    rfl
  case start => exact s.reg_packageReset_record (by decide) (by decide)
  case steps =>
    intro n hn
    exact s.reg_packageReset_record (Nat.le_add_right _ _) (by unfold Reg.bootstep; omega)

/-! ### CLR (R40) -/

/-- The record of the steps `l` cleared. -/
def State.clearSteps (s : State) (l : List Nat) : State := l.foldl (fun s n => s.setReg (Reg.bootstep n) 0) s

theorem State.clearBoot_eq (s : State) : s.clearBoot = ((s.clearSteps (List.range 21)).setReg Reg.boothalt 0).packageReset := rfl

theorem State.clearSteps_out : ∀ (l : List Nat) (s : State), (s.clearSteps l).out = s.out
  | [], _ => rfl
  | n :: l, s => State.clearSteps_out l (s.setReg (Reg.bootstep n) 0)

theorem State.clearSteps_regsOk : ∀ (l : List Nat) {s : State}, s.regsOk → (s.clearSteps l).regsOk
  | [], _, h => h
  | n :: l, _, h => State.clearSteps_regsOk l (State.setReg_regsOk h (Reg.bootstep n) 0)

theorem State.reg_clearSteps_other {a : Nat} : ∀ (l : List Nat) (s : State), (∀ n ∈ l, a ≠ Reg.bootstep n) →
    (s.clearSteps l).reg a = s.reg a
  | [], _, _ => rfl
  | n :: l, s, h => by
    obtain ⟨hn, hl⟩ := List.forall_mem_cons.mp h
    exact (State.reg_clearSteps_other l (s.setReg (Reg.bootstep n) 0) hl).trans (State.reg_setReg_other s 0 hn)

theorem State.reg_clearSteps {n : Nat} {l : List Nat} (hn : n ∈ l) {s : State} (h : s.regsOk) :
    (s.clearSteps l).reg (Reg.bootstep n) = 0 := by
  induction l generalizing s with
  | nil => exact absurd hn List.not_mem_nil
  | cons m l ih =>
    by_cases hl : n ∈ l
    · exact ih hl (State.setReg_regsOk h (Reg.bootstep m) 0)
    · obtain rfl : n = m := (List.mem_cons.mp hn).resolve_right hl
      have hother : ∀ k ∈ l, Reg.bootstep n ≠ Reg.bootstep k := fun k hk e => hl (by rwa [Nat.add_left_cancel e])
      exact (State.reg_clearSteps_other l _ hother).trans (State.reg_setReg_self h _ 0)

theorem State.clearBoot_leaves {s : State} (h : s.regsOk) : s.resetLeaves s.clearBoot fun _ => 0 := by
  rw [State.clearBoot_eq]
  have hcleared := State.clearSteps_regsOk (List.range 21) h
  have hkept : ∀ a, (∀ n < 21, a ≠ Reg.bootstep n) → a ≠ Reg.boothalt →
      ((s.clearSteps (List.range 21)).setReg Reg.boothalt 0).reg a = s.reg a := fun a ha hh =>
    (State.reg_setReg_other _ 0 hh).trans (State.reg_clearSteps_other _ s fun n hn => ha n (List.mem_range.mp hn))
  obtain ⟨hme, hothers, hcaps, hhalted, hcounters, hlaunches, hout, houtside, hatt, hstart, hsteps⟩ :=
    State.packageReset_leaves (State.setReg_regsOk hcleared Reg.boothalt 0)
  refine ⟨hme, hothers, hcaps, hhalted, hcounters, hlaunches, ?out, houtside, ?att, ?start, ?steps⟩
  case out => rw [hout, State.setReg_out, State.clearSteps_out]
  case att =>
    rw [hatt]
    unfold State.regN
    rw [hkept _ (fun n hn => by unfold Reg.att Reg.bootstep Reg.boot; omega) (by decide)]
  case start => rw [hstart, hkept _ (fun n hn => by unfold Reg.bootstart Reg.bootstep; omega) (by decide)]
  case steps =>
    intro n hn
    have hne : Reg.bootstep n ≠ Reg.boothalt := by unfold Reg.boothalt Reg.bootstep; omega
    exact (hsteps n hn).trans ((State.reg_setReg_other _ 0 hne).trans (State.reg_clearSteps (List.mem_range.mpr hn) h))

end Sys2Proof.Machine
end

section
/-! PROOFS. Attestation (spec 02, R42, R43), and the statement O53. -/

namespace Sys2Proof.Machine

/-! ### Measurements and reports (R42, R43) -/

theorem exec_measurementExtend {s : State} (h : s.pins.bytes.length = 64) : exec .measurementExtend s = .next { s with
    measures := s.measures.set 3 (Keccak.shake256 (leBytes 64 (s.measures[3]).toNat ++ s.pins.bytes)) } :=
  congrArg _ (if_neg (not_not.mpr h))

/-- The nonce that ATTNONCE0 to ATTNONCE3 hold. -/
def State.attNonce (s : State) : List Byte := (List.range 4).flatMap fun n => leBytes 8 (s.regN (Reg.att + 8 * n))

theorem exec_attcmdGo_taken {s : State} (hq : s.attq.length < 4) (ha : s.regN (Reg.att + 0x20) % 2 ^ 48 % 64 = 0)
    (ht : s.regN (Reg.att + 0x20) % 2 ^ 48 + 1024 ≤ s.devTop) : exec .attcmdGo s =
      .next ((({ s with attq := s.attq ++ [⟨s.attNonce, s.regN (Reg.att + 0x20) % 2 ^ 48⟩] } : State).setRegField
        (Reg.att + 0x30) 1 1 0)).attPend := by
  refine congrArg _ (if_neg ?_)
  simp only [Bool.or_eq_true, decide_eq_true_eq]
  unfold field
  rw [Nat.shiftRight_zero]
  omega

theorem exec_attcmdGo_refused {s : State} (h : 4 ≤ s.attq.length ∨ s.regN (Reg.att + 0x20) % 2 ^ 48 % 64 ≠ 0 ∨
    s.devTop < s.regN (Reg.att + 0x20) % 2 ^ 48 + 1024) : exec .attcmdGo s = .next (s.setRegField (Reg.att + 0x30) 1 1 1) := by
  refine congrArg _ (if_pos ?_)
  simp only [Bool.or_eq_true, decide_eq_true_eq]
  unfold field
  rw [Nat.shiftRight_zero]
  omega

/-- The bytes of the report that answers a request: body, signature and zeros. -/
def State.report (s : State) (r : AttReq) : List Byte :=
  s.reportBody r ++ (List.range 114).map (Config.sign (s.reportBody r)) ++ List.replicate 510 0

theorem exec_attestationReportWrite {s : State} {r : AttReq} {l : List AttReq} (h : s.attq = r :: l) :
    let w := s.ioWrite 255 r.dst (s.report r) fun _ => true
    exec .attestationReportWrite s = .next ((({ w with attq := l } : State).setRegField (Reg.att + 0x30) 16 16
      (field (w.regN (Reg.att + 0x30)) 16 16 + 1)).attPend) := by
  change execAttestationReportWrite s = _
  unfold execAttestationReportWrite
  rw [h]
  rfl

/-- Settles O53: the start, the method of each step, steps that pass, fail or reach their limit, the package resets,
attestation. -/
theorem bootEvents : Obligations.BootEvents := by
  intro s p boot ok
  refine ⟨exec_bootStart_main, ?method, ?steps, ?resets, exec_measurementExtend, ⟨?taken, exec_attcmdGo_refused⟩, ?report⟩
  case method =>
    intro n b h
    exact ⟨fun h18 ha => h18 ▸ stepAction_optional h ha, fun h0 h1 h18 ha => stepAction_alternate h ha h0 h1 h18,
      stepAction_again h⟩
  case steps =>
    intro n t hb b alt f bad halt next late down
    have early : ¬ late → s.stepLate n t = false := fun h => by rwa [← Bool.not_eq_true, State.stepLate_iff]
    refine ⟨?power, ?blob, ?ualink, ?image, ?noBlob, ?third, ?again, ?limit, ?limitUp, ?inTime⟩
    case power => exact fun hn hl => exec_bootStepPass_power hb hn (early hl)
    case blob => rintro rfl hl; exact exec_bootStepPass_blob hb (early hl)
    case ualink => rintro rfl hu; exact ⟨exec_bootStepPass_ualink hb hu, exec_bootStepFail_up hb hu⟩
    case image => rintro rfl hl hok; exact exec_bootStepPass_image hb (early hl) hok
    case noBlob => rintro rfl ha hbad; exact exec_bootStepFail_noBlob hb ha hbad
    case third => exact fun hd h hf => (exec_bootStepFail_down hb hd h).trans (congrArg _ (if_pos hf))
    case again => exact fun hd h hf => (exec_bootStepFail_down hb hd h).trans (congrArg _ (if_neg hf))
    case limit => exact fun hl hd => exec_bootStepTimeout_down hb (State.stepLate_iff.mpr hl) hd
    case limitUp =>
      intro hl hd
      obtain ⟨rfl, hu⟩ := Classical.not_imp.mp hd
      exact exec_bootStepTimeout_up hb (State.stepLate_iff.mpr hl) hu
    case inTime => exact fun hl => exec_bootStepTimeout_early hb (early hl)
  case resets => exact fun h => ⟨⟨_, rfl, State.packageReset_leaves h⟩, ⟨_, rfl, State.clearBoot_leaves h⟩⟩
  case taken => exact fun hq ha ht => ⟨_, exec_attcmdGo_taken hq ha ht, rfl, rfl, rfl⟩
  case report =>
    intro r l hr hm text w
    exact ⟨exec_attestationReportWrite hr, State.homeBytes_ioWrite hm 255 r.dst text, (s.ioWrite_frame _ _ _ _).1⟩

end Sys2Proof.Machine
end

section
/-! PROOFS. Registers that the kernel, the guests and the debugger write (spec 02, 03, 06, 08, 10): the statement O54. -/

namespace Sys2Proof.Machine

/-! ### Partitions (R46 to R48, R80, R128) -/

section
variable {s : State} {p : Nat}

theorem extract_high_ofNat (x : Nat) : (BitVec.ofNat 128 x).extractLsb' 64 64 = BitVec.ofNat 64 (x / 2 ^ 64) := by
  apply BitVec.eq_of_toNat_eq
  rw [BitVec.extractLsb'_toNat, BitVec.toNat_ofNat, BitVec.toNat_ofNat, Nat.shiftRight_eq_div_pow]
  omega

theorem State.writePcumask_accepted {d x : Nat} (hp : p < 16) (hi : s.partIdle p = true) (hd : d < 4)
    (h : ∀ c < 128, x.testBit c = true → 128 * d + c ∈ s.found.cus ∧ ∀ q < 16, q ≠ p → (s.pcumask q d).getLsbD c = false) :
    s.writePcumask p d (BitVec.ofNat 128 x) = ((s.setReg (Reg.part p + 0x10 * d) (BitVec.ofNat 64 x)).setReg
      (Reg.part p + 0x10 * d + 8) (BitVec.ofNat 64 (x / 2 ^ 64))).dropLatch p := by
  have good : ∀ c < 128, (BitVec.ofNat 128 x).getLsbD c = true →
      128 * d + c ∈ s.found.cus ∧ ∀ q < 16, q ≠ p → (s.pcumask q d).getLsbD c = false := by
    intro c hc hb
    rw [BitVec.getLsbD_ofNat, Bool.and_eq_true] at hb
    exact h c hc hb.2
  rw [← extract_high_ofNat, ← BitVec.setWidth_ofNat_of_le (show 64 ≤ 128 by decide)]
  exact if_neg (by simpa [hi, Nat.not_le.mpr hp, Nat.not_le.mpr hd] using good)

theorem Reg.part_plsport (q : Nat) : Reg.part q + 0x58 = 0xF80000070058 + 0x100 * q := by unfold Reg.part; omega

theorem State.writePlsport_accepted {x : Nat} (hp : p < 16) (hi : s.partIdle p = true)
    (h : ∀ q < 16, q ≠ p → (s.regN (0xF80000070058 + 0x100 * q)).land (x % 2 ^ 64) = 0) :
    s.writePlsport p (x % 2 ^ 64) = (s.setReg (Reg.part p + 0x58) (BitVec.ofNat 64 x)).dropLatch p := by
  have word : BitVec.ofNat 64 (x % 2 ^ 64) = BitVec.ofNat 64 x := BitVec.eq_of_toNat_eq (by simp)
  rw [← word]
  exact if_neg (by simpa [hi, Nat.not_le.mpr hp, Reg.part_plsport] using h)

theorem State.writePmbase_accepted {x : Nat} (hp : p < 16) (hi : s.partIdle p = true) (hx : x < 2 ^ 48) (h : x % 0x60000000 = 0) :
    s.writePmbase p (x % 2 ^ 48) = (s.setReg (Reg.part p + 0x68) (BitVec.ofNat 64 x)).dropLatch p := by
  rw [Nat.mod_eq_of_lt hx]
  exact if_neg (by simp [hi, Nat.not_le.mpr hp, granule, h])

theorem State.writePart_list {x : Nat} (hp : p < 16) (hi : s.partIdle p = true) (h : x < 2 ^ 48) :
    s.writePart p 0x40 x = (s.setReg (Reg.part p + 0x40) (BitVec.ofNat 64 x)).dropLatch p := by
  conv_rhs => rw [← Nat.mod_eq_of_lt h]
  exact if_neg (by simp [hi, Nat.not_le.mpr hp])

theorem State.writePart_length {x : Nat} (hp : p < 16) (hi : s.partIdle p = true) (h : x ≤ 768) :
    s.writePart p 0x48 x = (s.setReg (Reg.part p + 0x48) (BitVec.ofNat 64 x)).dropLatch p := by
  conv_rhs => rw [← Nat.mod_eq_of_lt (show x < 2 ^ 16 by omega)]
  exact if_neg (by simp [hi, Nat.not_le.mpr hp]; omega)

theorem State.writePart_hash {x : Nat} (hp : p < 16) (hi : s.partIdle p = true) (h : x < 64) :
    s.writePart p 0x50 x = (s.setReg (Reg.part p + 0x50) (BitVec.ofNat 64 x)).dropLatch p := by
  conv_rhs => rw [← Nat.mod_eq_of_lt (show x < 2 ^ 6 by omega)]
  exact if_neg (by simp [hi, Nat.not_le.mpr hp])

theorem exec_partitionRegisterWrite {o : Nat} (h : s.pins.addr = o) :
    exec .partitionRegisterWrite s = .next (s.writePart s.pins.port o s.pins.value) := by
  rw [← h]
  rfl

/-- While a device of the partition is enabled, or has a strand resident, its registers ignore writes. -/
theorem exec_partitionWrites_ignored (hi : s.partIdle s.pins.port = false) :
    ∀ i ∈ [Instr.pcumaskWrite, .plsportWrite, .pmbaseWrite, .partitionRegisterWrite], exec i s = .next s := by
  simp only [List.forall_mem_cons, List.not_mem_nil, false_implies, implies_true, and_true]
  exact ⟨congrArg _ (if_pos (by simp [hi])), congrArg _ (if_pos (by simp [hi])), congrArg _ (if_pos (by simp [hi])),
    congrArg _ (if_pos (by simp [hi]))⟩

theorem State.writePowceil_clamps {x : Nat} (hp : p < 16) :
    s.writePowceil p x = s.setReg (Reg.part p + 0x60) (BitVec.ofNat 64
      ((if field x 48 6 = 0 ∨ 32 < field x 48 6 then 32 else field x 48 6) * 2 ^ 48 +
        min 1024 (max 4 (field x 32 11)) * 2 ^ 32 + min 512 (max 2 (field x 16 10)) * 2 ^ 16 + min 256 (max 1 (field x 0 9)))) := by
  unfold State.writePowceil
  simp only [Bool.or_eq_true, decide_eq_true_eq]
  rw [if_neg (Nat.not_le.mpr hp)]

end

/-! ### Virtual devices (R49 to R51, R55, R56) -/

section
variable {s : State} {v x : Nat}

/-- The device is enabled with the WEIGHT and PART of x; its queues are latched anew. -/
def State.enableVd (s : State) (v x : Nat) : State :=
  (s.setReg (Reg.vdev v) (BitVec.ofNat 64 (field x 24 8 * 2 ^ 24 + field x 16 4 * 2 ^ 16 + 1))).dropQueues v

theorem State.writeVdctl_noRoom (hv : v < 64) (he : s.vdEn v = false) (hx : x.testBit 0 = true) (hn : s.imgUnits v < s.imgNeed v) :
    s.writeVdctl v x = s := by
  unfold State.writeVdctl
  dsimp only
  rw [if_neg (Nat.not_le.mpr hv), if_pos (by simp [he, hx]), if_pos hn]

/-- A write that sets EN, where the image region is large enough: the first device of its partition latches the array. -/
theorem State.writeVdctl_enables (hv : v < 64) (he : s.vdEn v = false) (hx : x.testBit 0 = true)
    (hn : s.imgNeed v ≤ s.imgUnits v) : s.writeVdctl v x =
      if s.firstOf v (field x 16 4) then
        (s.readArray (field x 16 4)).elim s fun w => (s.remap fun s => s.setWindow (field x 16 4) (some w)).enableVd v x
      else s.enableVd v x := by
  have odd : x % 2 = 1 := by simpa [Nat.testBit_zero] using hx
  unfold State.writeVdctl
  simp only [he, Bool.false_eq_true, if_false, odd]
  rw [if_neg (Nat.not_le.mpr hv), if_pos (by simp [hx]), if_neg (Nat.not_lt.mpr hn)]
  cases s.readArray (field x 16 4) <;> rfl

theorem State.writeVdctl_disables (hv : v < 64) (hx : x.testBit 0 = false) : s.writeVdctl v x =
    s.setReg (Reg.vdev v) (BitVec.ofNat 64
      (field x 24 8 * 2 ^ 24 + (if s.vdEn v then s.vdPart v else field x 16 4) * 2 ^ 16)) := by
  have even : x % 2 = 0 := by simpa [Nat.testBit_zero] using hx
  unfold State.writeVdctl
  dsimp only
  rw [if_neg (Nat.not_le.mpr hv), if_neg (by simp [hx]), even, Nat.add_zero]

theorem State.writeVd_budget (hv : v < 64) (hx : x < 2 ^ 32) : s.writeVd v 8 x = s.setReg (Reg.vdev v + 8) (BitVec.ofNat 64 x) := by
  conv_rhs => rw [← Nat.and_two_pow_sub_one_of_lt_two_pow hx]
  exact if_neg (Nat.not_le.mpr hv)

/-- The resources of a device stand while it is enabled. -/
theorem State.writeVd_enabled (he : s.vdEn v = true) {o : Nat} (ho : o = 0x18 ∨ o = 0x28 ∨ o = 0x30 ∨ o = 0x38) :
    s.writeVd v o x = s := by
  unfold State.writeVd
  rcases ho with rfl | rfl | rfl | rfl <;> simp [he]

theorem State.writeCntdata_selected {i : Nat} (h : s.cntIndex v ((Assoc.get (0 : BitVec 16) v s.cntsel).toNat) = some i) :
    s.writeCntdata v x = s.setCounter i ⟨BitVec.ofNat 32 x, x.testBit 32⟩ := by
  unfold State.writeCntdata
  rw [h]

end

/-! ### Register space and access tables (R5, R132) -/

/-- A page address fits the mask of the registers that hold one. -/
theorem land_page {x : Nat} (h0 : x % 4096 = 0) (h : x < 2 ^ 48) : x.land 0xFFFFFFFFF000 = x := by
  have hx : x = (x / 4096) <<< 12 := by rw [Nat.shiftLeft_eq]; omega
  have hm : (0xFFFFFFFFF000 : Nat) = (2 ^ 36 - 1) <<< 12 := rfl
  change x &&& 0xFFFFFFFFF000 = x
  rw [hx, hm, ← Nat.shiftLeft_and_distrib, Nat.and_two_pow_sub_one_of_lt_two_pow (by omega)]

theorem State.writeReg_mrgto (s : State) {x : Nat} (h : x < 2 ^ 32) :
    s.writeReg 0xF800000D0000 (x % 2 ^ 64) = s.setReg 0xF800000D0000 (BitVec.ofNat 64 x) := by
  rw [Nat.mod_eq_of_lt (show x < 2 ^ 64 by omega)]
  conv_rhs => rw [← Nat.and_two_pow_sub_one_of_lt_two_pow h]
  rfl

theorem State.writeReg_below (s : State) {a : Nat} (h : a < 0xF80000000000) (x : Nat) : s.writeReg a x = s := if_pos h

theorem State.writeAccess_range (s : State) {m x : Nat} (hm : m < 74) (h0 : x % 4096 = 0) (hx : x < 2 ^ 48) :
    s.writeAccess m 0x10 x = s.setReg (Reg.access m + 0x10) (BitVec.ofNat 64 x) := by
  conv_rhs => rw [← land_page h0 hx]
  exact if_neg (Nat.not_le.mpr hm)

theorem State.writeAccess_parts (s : State) {m x : Nat} (hm : m < 74) (hx : x < 2 ^ 16) :
    s.writeAccess m 0 x = s.setReg (Reg.access m) (BitVec.ofNat 64 x) := by
  conv_rhs => rw [← Nat.mod_eq_of_lt hx]
  exact if_neg (Nat.not_le.mpr hm)

/-! ### Kills and invalidations (R111, R181, R263) -/

theorem field_one (x : Word) (i : Nat) : field x.toNat i 1 = (x.getLsbD i).toNat := by
  rw [field, Nat.shiftRight_eq_div_pow]
  exact (Nat.toNat_testBit x.toNat i).symm

theorem field_one_eq_zero {x : Word} {i : Nat} : field x.toNat i 1 = 0 ↔ x.getLsbD i = false := by
  rw [field_one]; cases x.getLsbD i <;> simp

theorem field_one_eq_one {x : Word} {i : Nat} : field x.toNat i 1 = 1 ↔ x.getLsbD i = true := by
  rw [field_one]; cases x.getLsbD i <;> simp

section
variable {s : State}

theorem State.writeCtxkill_begins {c : Nat} (hb : field (s.regN Reg.killstat) 31 1 = 0) (hw : s.killWraps c = false) :
    s.writeCtxkill c = (s.kill c).setReg Reg.killstat (BitVec.ofNat 64 (2 ^ 31 + c)) := by
  unfold State.writeCtxkill
  rw [if_neg (by rw [field_one_eq_zero.mp hb]; decide), if_neg (by simp [hw])]

theorem State.writeCtxkill_wraps {c : Nat} (hb : field (s.regN Reg.killstat) 31 1 = 0) (hw : s.killWraps c = true) :
    s.writeCtxkill c = s.setReg Reg.killstat (BitVec.ofNat 64 (2 ^ 30 + c)) := by
  unfold State.writeCtxkill
  rw [if_neg (by rw [field_one_eq_zero.mp hb]; decide), if_pos hw]

theorem State.writeCtxkill_busy (hb : field (s.regN Reg.killstat) 31 1 = 1) (c : Nat) : s.writeCtxkill c = s :=
  if_pos (field_one_eq_one.mp hb)

/-- With nothing sent to a lender no answer is waited for. -/
theorem exec_killComplete (hb : field (s.regN Reg.killstat) 31 1 = 1) (hp : s.ports = []) :
    exec .killComplete s = .next (s.setRegField Reg.killstat 31 1 0) :=
  congrArg _ (if_pos (by simp [field_one_eq_one.mp hb, hp]))

theorem State.writeSinvcmd_begins {x : Nat} (hb : (s.reg Reg.sinvstat).getLsbD 0 = false) (hx : field x 0 8 ≤ field x 8 8) :
    s.writeSinvcmd x = (s.setReg Reg.sinvcmd (BitVec.ofNat 64 x)).setReg Reg.sinvstat 1 :=
  if_neg (by rw [hb]; simpa using hx)

theorem State.writeSinvcmd_busy (hb : (s.reg Reg.sinvstat).getLsbD 0 = true) (x : Nat) : s.writeSinvcmd x = s :=
  if_pos (by rw [hb]; rfl)

theorem exec_sinvComplete (hb : (s.reg Reg.sinvstat).getLsbD 0 = true)
    (hu : (s.flushContexts (sinvNames (s.reg Reg.sinvcmd))).usesVersion (sinvNames (s.reg Reg.sinvcmd)) = false) :
    exec .sinvComplete s = .next (((s.flushContexts (sinvNames (s.reg Reg.sinvcmd))).invalidate (sinvNames (s.reg Reg.sinvcmd))
      (field (s.reg Reg.sinvcmd).toNat 0 8) (field (s.reg Reg.sinvcmd).toNat 8 8)).setReg Reg.sinvstat 0) :=
  congrArg _ ((if_pos hb).trans (if_neg (by simp [hu])))

/-! ### The debugger, the trace, fault results (R173, R211, R217) -/

theorem State.writeTrstat_eq (s : State) (x : Nat) : s.writeTrstat x =
    (if x.testBit 1 = true ∧ s.trace.cur ≠ [] then { s with trace := { s.trace with flush := true } } else s).setReg Reg.trstat
      (BitVec.ofNat 64 (x % 2)) := by
  unfold State.writeTrstat
  simp

/-- What acts as one of certain strands acts on the state itself, where the one whose turn it is is one of them and stays. -/
theorem State.asStrand_here {t : State} {p : Strand → Bool} {f : State → State} (he : s.me.status ≠ .empty) (hp : p s.me = true)
    (hf : f s = t) (ht : t.me.is s.me.vd s.me.imgidx = true) : s.asStrand p f = t := by
  have present : (t.me.status != .empty) = true := by
    simp only [Strand.is, Bool.and_eq_true] at ht
    exact ht.1.1
  unfold State.asStrand
  rw [State.focus_me (by simpa using he) hp]
  dsimp only
  rw [hf, State.focus_me present ht]
  rfl

/-- A strand that has parked, or stands for the debugger, with no watchpoint or breakpoint to pass goes on where it stands. -/
theorem State.writeFqres_resumes {x : Nat} (hx : x.testBit 0 = true) (hs : s.me.status = .parked ∨ s.me.status = .debug)
    (hc : s.me.ctx = field x 32 13) (hi : s.me.imgidx = field x 16 12) (hn : s.me.incn = s.curIncn s.me.ctx)
    (hb : s.me.skipBrk = false) (hk : ∀ st, s.me.keep = some st → st.cause ≠ .watch) :
    s.writeFqres x = s.onMe fun k => { k with status := .running, resume := k.keep, keep := none } := by
  have present : s.me.status ≠ .empty := by rcases hs with h | h <;> simp [h]
  have named : (s.me.ctx == field x 32 13 && s.me.imgidx == field x 16 12 && s.me.incn == s.curIncn (field x 32 13) &&
      (s.me.status == .parked || s.me.status == .debug)) = true := by
    rw [← hc, ← hi, ← hn]
    simpa using hs
  unfold State.writeFqres
  dsimp only
  rw [if_neg (by simp [hx])]
  refine State.asStrand_here present named ?_ (by simp [Strand.is])
  unfold State.onMe
  dsimp only
  rw [hb]
  cases h : s.me.keep with
  | none => rfl
  | some st => simp [hk st h]

end

/-- Settles O54, register by register, from the law of each write. -/
theorem registerEvents : Obligations.RegisterEvents := by
  intro s p part dev val
  refine ⟨?partitions, fun _ => exec_partitionWrites_ignored, fun hp => congrArg _ (State.writePowceil_clamps hp), ?devices,
    fun i h => congrArg _ (State.writeCntdata_selected h), ?mrgto, fun h => congrArg _ (s.writeReg_below h _), ?access, ?kill, ?sinv,
    fun h => congrArg _ (if_pos h), congrArg _ (s.writeTrstat_eq p.value),
    fun hx hs hc hi hn hb hk => congrArg _ (State.writeFqres_resumes hx hs hc hi hn hb hk)⟩
  case partitions =>
    intro hp hi
    refine ⟨fun hd h => congrArg _ (State.writePcumask_accepted hp hi hd h), fun h => congrArg _ (State.writePlsport_accepted hp hi h),
      fun hx h => congrArg _ (State.writePmbase_accepted hp hi hx h), fun ha hx => ?list, fun ha hx => ?length, fun ha hx => ?hash⟩
    case list => exact (exec_partitionRegisterWrite ha).trans (congrArg _ (State.writePart_list hp hi hx))
    case length => exact (exec_partitionRegisterWrite ha).trans (congrArg _ (State.writePart_length hp hi hx))
    case hash => exact (exec_partitionRegisterWrite ha).trans (congrArg _ (State.writePart_hash hp hi hx))
  case devices =>
    intro hv
    refine ⟨fun he hx => ?enable, fun hx => ?disable, fun ha hx => ?budget, fun he ho => congrArg _ (State.writeVd_enabled he ho),
      fun hq => congrArg _ (if_pos (by simp [p, hv, hq]))⟩
    case enable =>
      intro part put
      have set : exec .vdctlEnSet s = .next (s.writeVdctl p.port p.value) := congrArg _ (if_pos hx)
      refine ⟨fun hn => set.trans (congrArg _ (State.writeVdctl_noRoom hv he hx hn)), fun hn => ?_⟩
      rw [set, State.writeVdctl_enables hv he hx hn]
      refine ⟨fun hf => ?_, fun hf hr => ?_, fun w hf hr => ?_⟩
      · rw [if_neg (by simp [part, hf])]
        rfl
      · rw [if_pos hf, hr]
        rfl
      · rw [if_pos hf, hr]
        rfl
    case disable =>
      have clear : exec .vdctlEnClear s = .next (s.writeVdctl p.port p.value) := congrArg _ (if_neg (by simp [p, hx]))
      exact clear.trans (congrArg _ (State.writeVdctl_disables hv hx))
    case budget =>
      have e : exec .vdRegisterWrite s = .next (s.writeVd p.port p.addr p.value) := rfl
      rw [e, ha, State.writeVd_budget hv hx]
      rfl
  case mrgto =>
    intro ha hx
    have e : exec .registerWrite s = .next (s.writeReg p.addr (p.value % 2 ^ 64)) := rfl
    rw [e, ha, s.writeReg_mrgto hx]
  case access =>
    intro hm h
    have e : exec .accessTableWrite s = .next (s.writeAccess p.port p.addr p.value) := rfl
    rw [e]
    rcases h with ⟨ha, h0, hx⟩ | ⟨ha, hx⟩
    · rw [ha, s.writeAccess_range hm h0 hx]
      rfl
    · rw [ha, s.writeAccess_parts hm hx]
      rfl
  case kill =>
    exact ⟨fun hb hw => congrArg _ (State.writeCtxkill_begins hb hw), fun hb hw => congrArg _ (State.writeCtxkill_wraps hb hw),
      fun hb => congrArg _ (State.writeCtxkill_busy hb _), exec_killComplete⟩
  case sinv =>
    exact ⟨fun hb hx => congrArg _ (State.writeSinvcmd_begins hb hx),
      fun hb => ⟨congrArg _ (State.writeSinvcmd_busy hb _), exec_sinvComplete hb⟩⟩

end Sys2Proof.Machine
end

section
/-! PROOFS. The dealer takes entries (spec 03, R55 to R61). -/

namespace Sys2Proof.Machine

/-! ### The entry at a queue's head (R57 to R59) -/

/-- Field `o` of n bytes of the entry at a queue's head (R57). -/
def State.headField (s : State) (x : Queue) (o n : Nat) : Nat := s.homeNat (entryAddr x x.head + o) n

/-- The head entry can be read, its reserved bytes are 0, and only a PHASE carries a flag (R57). -/
structure State.formed (s : State) (v : Nat) (x : Queue) : Prop where
  reads : s.dealerReads v (entryAddr x x.head) 64 = true
  zeros : ∀ i < 48, s.headField x (16 + i) 1 = 0
  flags : s.headField x 1 1 = 0 ∨ s.headField x 1 1 = 1 ∧ s.headField x 0 1 = 4

/-- An entry fails by its own form: KIND, flags, reserved bytes, or the address of a LAUNCH's card (R57, R59). -/
def State.malformed (s : State) (x : Queue) : Bool :=
  4 < s.headField x 0 1 || 2 ≤ s.headField x 1 1 || (s.headField x 1 1 = 1 && s.headField x 0 1 ≠ 4) ||
    (List.range 48).any (fun i => s.headField x (16 + i) 1 ≠ 0) || (s.headField x 0 1 = 1 && s.headField x 8 8 % 256 ≠ 0)

/-- The queue holds its head entry as taken, and the job of its context is under way (R58, R65). -/
def State.holdHead (s : State) (v q : Nat) (x : Queue) : State :=
  let c := (QLatch.of x).ctx
  let t : Taken := ⟨s.headField x 0 1, s.headField x 1 1 == 1, s.headField x 2 2, BitVec.ofNat 32 (s.headField x 4 4), s.order, c⟩
  { (s.openJob c).setQueue v q { x with taken := some t } with order := s.order + 1 }

section
variable {s : State} {v q : Nat} {x : Queue}

theorem State.malformed_of_kind (h : 4 < s.headField x 0 1) : s.malformed x = true := by
  simp [State.malformed, h]

theorem State.formed.wellFormed (hf : s.formed v x) (hk : s.headField x 0 1 ≤ 4)
    (hc : s.headField x 0 1 = 1 → s.headField x 8 8 % 256 = 0) : s.malformed x = false := by
  have flags := hf.flags
  have zeros : ((List.range 48).any fun i => s.headField x (16 + i) 1 ≠ 0) = false := by
    rw [List.any_eq_false]
    exact fun i hi => by simp [hf.zeros i (List.mem_range.mp hi)]
  unfold State.malformed
  rw [zeros]
  simp only [Bool.or_false, Bool.or_eq_false_iff, Bool.and_eq_false_iff, decide_eq_false_iff_not]
  omega

/-- What is taken of an entry that can be read. -/
theorem State.takeEntry_readable (h : s.dealerReads v (entryAddr x x.head) 64 = true) : s.takeEntry v q x =
    if s.malformed x then
      s.failEntry v q x 0x01 (if s.headField x 0 1 = 1 then s.cardCounter v (s.headField x 8 8) else none)
    else if s.headField x 0 1 = 1 then s.takeLaunch v q x (s.headField x 8 8)
    else if !s.ctxOk v (QLatch.of x).ctx then s.failEntry v q x 0x04 none
    else if s.headField x 0 1 = 0 then s.advanceHead v q
    else if (s.headField x 0 1 = 2 || s.headField x 0 1 = 3) && s.headField x 2 2 ≠ 0xFFFF && s.vdCntN v ≤ s.headField x 2 2 then
      s.failEntry v q x 0x06 none
    else s.holdHead v q x := by
  unfold State.takeEntry
  dsimp only
  rw [h]
  rfl

/-- A KIND that is not defined is malformed (R59). -/
theorem State.takeEntry_undefined (hf : s.formed v x) (hk : 4 < s.headField x 0 1) :
    s.takeEntry v q x = (s.queueError v q x.head 1).advanceHead v q := by
  rw [State.takeEntry_readable hf.reads, State.malformed_of_kind hk, if_pos rfl, if_neg (by omega)]
  rfl

theorem State.takeEntry_nop (hf : s.formed v x) (hk : s.headField x 0 1 = 0) : s.takeEntry v q x =
    if s.ctxOk v (QLatch.of x).ctx then s.advanceHead v q else (s.queueError v q x.head 4).advanceHead v q := by
  have good := hf.wellFormed (by omega) (by omega)
  rw [State.takeEntry_readable hf.reads, good, hk]
  cases s.ctxOk v (QLatch.of x).ctx <;> simp [State.failEntry]

theorem State.takeEntry_launch (hf : s.formed v x) (hk : s.headField x 0 1 = 1) (hc : s.headField x 8 8 % 256 = 0) :
    s.takeEntry v q x = s.takeLaunch v q x (s.headField x 8 8) := by
  have good := hf.wellFormed (by omega) fun _ => hc
  rw [State.takeEntry_readable hf.reads, good, hk]
  rfl

/-- A WAIT, SIGNAL or PHASE stays at the head as taken, where the context is valid and the counter one of the device. -/
theorem State.takeEntry_holds (hf : s.formed v x) (hx : s.ctxOk v (QLatch.of x).ctx = true)
    (hk : s.headField x 0 1 = 4 ∨ (s.headField x 0 1 = 2 ∨ s.headField x 0 1 = 3) ∧
      (s.headField x 2 2 = 0xFFFF ∨ s.headField x 2 2 < s.vdCntN v)) : s.takeEntry v q x = s.holdHead v q x := by
  have good := hf.wellFormed (by omega) (by omega)
  rw [State.takeEntry_readable hf.reads, good, hx, if_neg (by decide), if_neg (by omega), if_neg (by decide), if_neg (by omega),
    if_neg (by simp; omega)]

/-! ### The card of a LAUNCH (R58, R59) -/

theorem State.takeLaunch_passes {a : Nat} (hr : s.dealerReads v a 256 = true) (he : s.cardError v (QLatch.of x).ctx a = 0) :
    s.takeLaunch v q x a = ({ s.openJob (QLatch.of x).ctx with
      launches := s.launches ++ [⟨s.order, v, q, (QLatch.of x).prio, (QLatch.of x).ctx, s.curIncn (QLatch.of x).ctx, s.readCard a,
        .pending, 0, 0, none, false, false⟩]
      order := s.order + 1 } : State).advanceHead v q := by
  unfold State.takeLaunch
  dsimp only
  rw [hr, he]
  rfl

theorem State.takeLaunch_fails {a : Nat} (hr : s.dealerReads v a 256 = true) (he : s.cardError v (QLatch.of x).ctx a ≠ 0) :
    s.takeLaunch v q x a = ((s.queueError v q x.head (s.cardError v (QLatch.of x).ctx a)).advanceHead v q).addRel v
      (s.readCard a).donecnt (BitVec.ofNat 32 (s.readCard a).doneinc) true := by
  unfold State.takeLaunch
  dsimp only
  rw [hr, if_neg (by decide), if_pos he]
  rfl

/-! ### The entry that comes next (R60) -/

theorem State.formed.kind (hf : s.formed v x) : s.headKind v x = s.headField x 0 1 := if_pos hf.reads

theorem State.take_next {k : Nat} (hn : s.nextTake v = some (q, x)) (hf : s.formed v x) (hk : s.headField x 0 1 = k) :
    s.take v [k] = s.takeEntry v q x := by
  unfold State.take
  rw [hn]
  exact if_pos (by rw [hf.kind, hk]; simp)

theorem exec_nopTake (hn : s.nextTake s.pins.port = some (q, x)) (hf : s.formed s.pins.port x)
    (hk : s.headField x 0 1 = 0 ∨ 4 < s.headField x 0 1) : exec .nopTake s = .next (s.takeEntry s.pins.port q x) := by
  change execNopTake s = _
  unfold execNopTake
  rw [hn]
  exact congrArg _ (if_pos (by rw [hf.kind]; simpa using hk))

end
end Sys2Proof.Machine
end

section
/-! PROOFS. The dealer retires entries, takes cancels, and settles launches (spec 03, R58, R60 to R65, R376). -/

namespace Sys2Proof.Machine

/-! ### Cancels (R64) -/

theorem State.cancelcmd_effect {s : State} {n : Nat} {lv : Level} (hn : levelOfCode n = some lv) (h : field s.pins.value 0 3 = n) :
    s.cancelcmd n = if s.ctxOk s.pins.port (field s.pins.value 16 13) then
      s.cancel s.pins.port lv (field s.pins.value 16 13) (field s.pins.value 32 32) else s := by
  unfold State.cancelcmd State.writeCancelcmd
  rw [if_pos h, h, hn]

/-! ### Queues and their entries (R56, R58) -/

@[simp] theorem State.setHomeBytes_queues (s : State) (a : Nat) (l : List Byte) : (s.setHomeBytes a l).queues = s.queues := by
  rw [State.setHomeBytes_frame]

@[simp] theorem State.addRel_queues (s : State) (v r : Nat) (n : BitVec 32) (can : Bool) : (s.addRel v r n can).queues = s.queues := by
  unfold State.addRel
  cases s.cntIndex v r <;> rfl

@[simp] theorem State.addCtx_queues (s : State) (c r : Nat) (n : BitVec 32) (can : Bool) : (s.addCtx c r n can).queues = s.queues :=
  s.addRel_queues _ _ _ _

theorem State.queue_setQueue_self {s : State} (h : Assoc.wf Queue.none s.queues = true) (v q : Nat) (x : Queue) :
    (s.setQueue v q x).queue v q = x := Assoc.get_put_self _ _ _ h

theorem State.queue_advanceHead {s : State} (h : Assoc.wf Queue.none s.queues = true) (v q : Nat) :
    (s.advanceHead v q).queue v q = { s.queue v q with head := (s.queue v q).head + 1 } := by
  unfold State.advanceHead
  dsimp only
  rw [State.queue, State.setHomeBytes_queues]
  exact State.queue_setQueue_self h v q _

/-- The head entry leaves the queue. -/
def State.dropTaken (s : State) (v q : Nat) (x : Queue) : State := (s.setQueue v q { x with taken := none }).advanceHead v q

theorem State.taken_dropTaken {s : State} (h : Assoc.wf Queue.none s.queues = true) (v q : Nat) (x : Queue) :
    ((s.dropTaken v q x).queue v q).taken = none := by
  unfold State.dropTaken
  rw [State.queue_advanceHead (Assoc.wf_put _ _ _ h), State.queue_setQueue_self h]

/-! ### The taken entry retires (R58, R65, R376) -/

section
variable {s : State} {v q : Nat} {t : Taken}

theorem State.retire_taken (ht : (s.queue v q).taken = some t) (hs : (s.queue v q).span = none) (hv : s.vdEn v = true)
    (hm : s.mayRetire v q t = true) : s.retire v q t.kind = (s.applyEntry v t none).dropTaken v q (s.queue v q) := by
  unfold State.retire State.retireTaken
  dsimp only
  rw [ht]
  dsimp only
  rw [if_neg (fun h => h rfl), if_neg (by simp [hs]), if_pos (by simp [hv, hm])]
  rfl

theorem State.mayRetire_wait (hk : t.kind = 2) : s.mayRetire v q t = (s.depState v t.cnt t.val).1 := if_pos hk

theorem State.mayRetire_signal (hk : t.kind = 3) (h : ∀ l ∈ s.launches, l.vd = v → l.queue = q → t.order ≤ l.key) :
    s.mayRetire v q t = true := by
  unfold State.mayRetire
  rw [hk]
  simpa using h

theorem State.mayRetire_phase (hk : t.kind = 4) (h : ∀ l ∈ s.launches, l.ctx = t.ctx → t.order ≤ l.key) :
    s.mayRetire v q t = true := by
  unfold State.mayRetire
  rw [hk]
  simpa using h

theorem State.applyEntry_wait (hk : t.kind = 2) : s.applyEntry v t none = s := by
  unfold State.applyEntry
  rw [hk]
  rfl

theorem State.applyEntry_signal (hk : t.kind = 3) : s.applyEntry v t none = s.addRel v t.cnt t.val false := if_pos hk

/-- The phase of the context has ended, and with END its job (R65). -/
def State.endPhase (s : State) (t : Taken) : State :=
  let l := s.level t.ctx
  let s1 := (s.setLevel t.ctx ⟨t.fin || l.ended, false, !t.fin && l.job⟩).addCtx t.ctx (s.ctxPhasecnt t.ctx) 1 false
  if t.fin then s1.addCtx t.ctx (s1.ctxJobcnt t.ctx) 1 false else s1

theorem State.applyEntry_phase (hk : t.kind = 4) : s.applyEntry v t none = s.endPhase t := by
  unfold State.applyEntry
  rw [hk]
  rfl

@[simp] theorem State.endPhase_queues (s : State) (t : Taken) : (s.endPhase t).queues = s.queues := by
  unfold State.endPhase
  dsimp only
  split <;> simp [State.setLevel]

theorem exec_waitRetire (ht : (s.queue s.pins.port s.pins.addr).taken = some t) (hs : (s.queue s.pins.port s.pins.addr).span = none)
    (hv : s.vdEn s.pins.port = true) (hk : t.kind = 2) (hd : (s.depState s.pins.port t.cnt t.val).1 = true) :
    exec .waitRetire s = .next (s.dropTaken s.pins.port s.pins.addr (s.queue s.pins.port s.pins.addr)) := by
  have e := State.retire_taken ht hs hv ((State.mayRetire_wait hk).trans hd)
  rw [hk, State.applyEntry_wait hk] at e
  exact congrArg _ e

theorem exec_signalRetire (ht : (s.queue s.pins.port s.pins.addr).taken = some t) (hs : (s.queue s.pins.port s.pins.addr).span = none)
    (hv : s.vdEn s.pins.port = true) (hk : t.kind = 3)
    (hl : ∀ l ∈ s.launches, l.vd = s.pins.port → l.queue = s.pins.addr → t.order ≤ l.key) :
    exec .signalRetire s = .next ((s.addRel s.pins.port t.cnt t.val false).dropTaken s.pins.port s.pins.addr
      (s.queue s.pins.port s.pins.addr)) := by
  have e := State.retire_taken ht hs hv (State.mayRetire_signal hk hl)
  rw [hk, State.applyEntry_signal hk] at e
  exact congrArg _ e

/-- A PHASE that has left its queue is the occasion of a checkpoint (R219). -/
theorem exec_phaseRetire (ht : (s.queue s.pins.port s.pins.addr).taken = some t) (hs : (s.queue s.pins.port s.pins.addr).span = none)
    (hv : s.vdEn s.pins.port = true) (hk : t.kind = 4) (hl : ∀ l ∈ s.launches, l.ctx = t.ctx → t.order ≤ l.key)
    (hw : Assoc.wf Queue.none s.queues = true) :
    exec .phaseRetire s = .next (((s.endPhase t).dropTaken s.pins.port s.pins.addr
      (s.queue s.pins.port s.pins.addr)).takeCheckpoint s.pins.port) := by
  have e := State.retire_taken ht hs hv (State.mayRetire_phase hk hl)
  rw [hk, State.applyEntry_phase hk] at e
  have gone := State.taken_dropTaken (s := s.endPhase t) (by rwa [State.endPhase_queues]) s.pins.port s.pins.addr
    (s.queue s.pins.port s.pins.addr)
  change execPhaseRetire s = _
  unfold execPhaseRetire
  dsimp only
  rw [e, ht, gone]
  rfl

end

/-! ### Launches (R60, R63) -/

section
variable {s : State} {l : Launch}

theorem exec_launchEligible (hl : s.launchOf s.pins.value = some l) (hs : l.state ≠ .eligible) (hv : s.vdEn l.vd = true) :
    exec .launchEligible s = .next (
      if s.depsCan l then s.retireLaunch { l with cancelled := widerLevel l.cancelled .launch }
      else if s.depsMet l then s.setLaunch { l with state := .eligible } else s) := by
  change Host.Outcome.next (s.launchEligible s.pins.value) = _
  unfold State.launchEligible
  rw [hl]
  exact congrArg _ (if_neg (by simp [hs, hv]))

theorem exec_launchRetire (hl : s.launchOf s.pins.value = some l) (hd : s.launchDone l = true) :
    exec .launchRetire s = .next (s.retireLaunch l) := by
  change execLaunchRetire s = _
  unfold execLaunchRetire
  rw [hl]
  exact congrArg _ (if_pos hd)

end
end Sys2Proof.Machine
end

section
/-! PROOFS. Strands start and end (spec 03, R62, R68, R75, R76; spec 13, R281). -/

namespace Sys2Proof.Machine

/-! ### The registers of a starting strand (R62) -/

theorem startRegs_toList (l : Launch) : (startRegs l).toList =
    (0 :: ((List.range 6).map fun i => l.card.args.toList.getD i 0) ++ [BitVec.ofNat 64 l.started, BitVec.ofNat 64 l.card.strands]) ++
      (List.replicate 22 0 ++ [BitVec.ofNat 64 (0xFE * 2 ^ 56 + l.card.strshare * 1024)]) := by
  rfl

theorem startRegs_arg (l : Launch) {i : Nat} (h : i < 6) :
    (startRegs l).toList.getD (i + 1) 0 = l.card.args.toList.getD i 0 := by
  rw [startRegs_toList]
  simp [h, List.getElem?_append]

theorem startRegs_started (l : Launch) : (startRegs l).toList.getD 7 0 = BitVec.ofNat 64 l.started := by
  rw [startRegs_toList]
  rfl

theorem startRegs_strands (l : Launch) : (startRegs l).toList.getD 8 0 = BitVec.ofNat 64 l.card.strands := by
  rw [startRegs_toList]
  rfl

theorem startRegs_share (l : Launch) :
    (startRegs l).toList.getD 31 0 = BitVec.ofNat 64 (0xFE * 2 ^ 56 + l.card.strshare * 1024) := by
  rw [startRegs_toList]
  rfl

theorem startRegs_zero (l : Launch) {i : Nat} (h1 : 9 ≤ i) (h2 : i < 31) : (startRegs l).toList.getD i 0 = 0 := by
  rw [startRegs_toList, List.getD_append_right _ _ _ _ (by simpa using h1), List.getD_append _ _ _ _ (by simp; omega)]
  exact List.getD_replicate _ (by simp; omega)

/-! ### The strand that starts next (R62, R68) -/

section
variable {s : State} {v cu i : Nat} {l : Launch} {u : Option Nat}

/-- The least slot of a CU that no strand holds. -/
def State.freeSlot (s : State) (cu : Nat) : Nat :=
  ((List.range 8).find? fun i => !((s.onCu cu).any fun k => k.slot == i)).getD 0

theorem State.freeSlot_lt (s : State) (cu : Nat) : s.freeSlot cu < 8 := by
  unfold State.freeSlot
  cases h : (List.range 8).find? fun i => !((s.onCu cu).any fun k => k.slot == i) with
  | none => decide
  | some i => exact List.mem_range.mp (List.mem_of_find?_eq_some h)

theorem State.startState_cu (s : State) (l : Launch) (cu img : Nat) (u : Option Nat) :
    (s.startState l cu (s.freeSlot cu) img u).cu = cu := by
  have := s.freeSlot_lt cu
  change (8 * cu + s.freeSlot cu) / 8 = cu
  omega

/-- A strand that joins takes the turn where none has it, else it comes last. -/
theorem State.addStrand_joins (s : State) (k : Strand) :
    (s.addStrand k).me = k ∧ (s.addStrand k).others = s.others ∨
      (s.addStrand k).me = s.me ∧ (s.addStrand k).others = s.others ++ [k] := by
  unfold State.addStrand
  split
  · exact .inl ⟨rfl, rfl⟩
  · exact .inr ⟨rfl, rfl⟩

theorem State.addStrand_mem (s : State) (k : Strand) : (s.addStrand k).mem = s.mem := by
  unfold State.addStrand
  split <;> rfl

theorem State.addStrand_launches (s : State) (k : Strand) : (s.addStrand k).launches = s.launches := by
  unfold State.addStrand
  split <;> rfl

theorem exec_strandStart (hn : s.nextStart s.pins.port = some (l, cu)) (hu : s.cuIndexFor l cu = some u)
    (hi : s.imgFree s.pins.port = some i) : ∃ c, exec .strandStart s = .next
      (((s.setCu cu c).addStrand (s.startState l cu (s.freeSlot cu) i u)).setLaunch { l with started := l.started + 1 }) := by
  change ∃ c, Host.Outcome.next (s.startStrand s.pins.port) = _
  unfold State.startStrand
  rw [hn]
  dsimp only
  rw [hi, hu]
  exact ⟨_, rfl⟩

end

/-! ### A strand ends (R281) -/

theorem pull_none {α : Type} {p : α → Bool} : ∀ {l : List α}, (∀ x ∈ l, p x = false) → pull p l = none
  | [], _ => rfl
  | x :: l, h => by
    rw [pull, h x (List.mem_cons_self ..), pull_none fun y hy => h y (List.mem_cons_of_mem x hy)]
    rfl

theorem State.focus_none {s : State} {p : Strand → Bool} (hm : s.me = Strand.none) (ho : ∀ k ∈ s.others, p k = false) :
    s.focus p = none := by
  unfold State.focus
  rw [hm, pull_none fun k hk => by rw [ho k hk, Bool.and_false]]
  rfl

/-- The strand whose turn it is, with nothing older to complete, ends where its stores have performed. -/
theorem exec_strandEnd {s u : State} (hi : s.me.is s.pins.port s.pins.addr = true) (hs : s.me.status = .ending)
    (hm : s.me.muted = false) (hp : s.me.pend = []) (hc : s.closing = .ok u ())
    (ho : ∀ k ∈ u.endStrand.others, k.is s.pins.port s.pins.addr = false) (hn : u.endStrand.me = Strand.none) :
    exec .strandEnd s = .next u.endStrand := by
  have ends : s.tryEnd = u.endStrand := by
    unfold State.tryEnd
    rw [hc]
  have names : s.me.vd = s.pins.port ∧ s.me.imgidx = s.pins.addr := by
    simp only [Strand.is, Bool.and_eq_true, beq_iff_eq] at hi
    exact ⟨hi.1.2, hi.2⟩
  have gone : u.endStrand.focus (fun k => k.is s.me.vd s.me.imgidx) = none :=
    State.focus_none hn fun k hk => by rw [names.1, names.2]; exact ho k hk
  change execStrandEnd s = _
  unfold execStrandEnd State.asStrand
  rw [State.focus_me (by simp [hs]) (by simp [hi, hs, hm, hp])]
  dsimp only
  rw [ends, gone]
  rfl

/-! ### Frames (R75, R76, R78) -/

section
variable {α β : Type} [DecidableEq α] {d : α} {k : Nat}

theorem Assoc.wf_upd (f : α → α) {m : List (Nat × α)} (h : Assoc.wf d m = true) : Assoc.wf d (Assoc.upd d k f m) = true :=
  Assoc.wf_put d _ k h

theorem Assoc.get_upd_self (f : α → α) {m : List (Nat × α)} (h : Assoc.wf d m = true) :
    Assoc.get d k (Assoc.upd d k f m) = f (Assoc.get d k m) := Assoc.get_put_self d _ k h

theorem Assoc.get_upd_other (f : α → α) {i : Nat} (hi : i ≠ k) {m : List (Nat × α)} (h : Assoc.wf d m = true) :
    Assoc.get d i (Assoc.upd d k f m) = Assoc.get d i m := Assoc.get_put_other d _ hi h

variable {key : β → Nat} {g : β → α → α}

theorem Assoc.get_foldl_upd_other : ∀ {l : List β} {m : List (Nat × α)}, k ∉ l.map key → Assoc.wf d m = true →
    Assoc.get d k (l.foldl (fun m x => Assoc.upd d (key x) (g x) m) m) = Assoc.get d k m
  | [], _, _, _ => rfl
  | x :: l, m, hk, hm => by
    obtain ⟨hx, hl⟩ := not_or.mp (mt List.mem_cons.mpr hk)
    rw [List.foldl_cons, Assoc.get_foldl_upd_other hl (Assoc.wf_upd _ hm)]
    exact Assoc.get_upd_other _ hx hm

/-- A run over distinct keys changes the value of each of them once. -/
theorem Assoc.get_foldl_upd {x : β} : ∀ {l : List β} {m : List (Nat × α)}, (l.map key).Nodup → x ∈ l → Assoc.wf d m = true →
    Assoc.get d (key x) (l.foldl (fun m x => Assoc.upd d (key x) (g x) m) m) = g x (Assoc.get d (key x) m)
  | y :: l, m, hl, hx, hm => by
    obtain ⟨hy, hl⟩ := List.nodup_cons.mp hl
    rw [List.foldl_cons]
    rcases List.mem_cons.mp hx with rfl | hx
    · rw [Assoc.get_foldl_upd_other hy (Assoc.wf_upd _ hm)]
      exact Assoc.get_upd_self _ hm
    · have hne : key x ≠ key y := fun e => hy (e ▸ List.mem_map_of_mem hx)
      rw [Assoc.get_foldl_upd hl hx (Assoc.wf_upd _ hm)]
      exact congrArg (g x) (Assoc.get_upd_other _ hne hm)

end

/-- A run of steps, each of which changes the buckets alone and looks at them and at the rest of the first state. -/
theorem State.foldl_buckets {β : Type} {f : State → β → State} {g : List (Nat × Bucket) → β → List (Nat × Bucket)} {s : State}
    (hf : ∀ b x, f { s with buckets := b } x = { s with buckets := g b x }) (l : List β) :
    l.foldl f s = { s with buckets := l.foldl g s.buckets } := by
  suffices ∀ b, l.foldl f { s with buckets := b } = { s with buckets := l.foldl g b } from this s.buckets
  induction l with
  | nil => exact fun _ => rfl
  | cons x l ih =>
    intro b
    rw [List.foldl_cons, hf, ih]
    rfl

/-- The arbiters have numbers of their own. -/
theorem nodup_arbiterNums : arbiterNums.Nodup := by
  have block : ∀ a n, ((List.range n).map fun i => a + i).Nodup := fun a n => List.nodup_range.map (add_right_injective a)
  unfold arbiterNums
  simp only [List.nodup_append, List.nodup_singleton, block, true_and, List.mem_append, or_imp, forall_and, List.forall_mem_map,
    List.mem_range, List.mem_singleton, forall_eq, ne_eq]
  and_intros <;> omega

/-- The buckets, by arbiter and device. -/
def bucketKeys : List (Nat × Nat) := arbiterNums ×ˢ List.range 64

theorem nodup_bucketKeys : (bucketKeys.map fun x => 64 * x.1 + x.2).Nodup := by
  refine List.Nodup.map_on ?_ (nodup_arbiterNums.product List.nodup_range)
  rintro ⟨n, u⟩ hx ⟨m, w⟩ hy h
  have hu := List.mem_range.mp (List.mem_product.mp hx).2
  have hw := List.mem_range.mp (List.mem_product.mp hy).2
  dsimp only at h hu hw
  ext <;> dsimp only <;> omega

/-- What a bucket holds after its refill. -/
def State.refilled (s : State) (num v : Nat) (b : Bucket) : Bucket :=
  ⟨min (b.bal + s.rateAt num v) (s.depth v * s.rateAt num v), 0, s.rateAt num v⟩

/-- The buckets after a refill at every arbiter. -/
def State.refilledBuckets (s : State) : List (Nat × Bucket) :=
  bucketKeys.foldl (fun b x => Assoc.upd Bucket.zero (64 * x.1 + x.2) (s.refilled x.1 x.2) b) s.buckets

theorem State.foldl_refill (s : State) : arbiterNums.foldl (fun s n => (List.range 64).foldl (fun s v => s.refill n v) s) s =
    { s with buckets := s.refilledBuckets } := by
  have runs : arbiterNums.foldl (fun s n => (List.range 64).foldl (fun s v => s.refill n v) s) s =
      bucketKeys.foldl (fun s x => s.refill x.1 x.2) s := by
    simp [bucketKeys, List.product, SProd.sprod, List.foldl_flatMap, List.foldl_map]
  exact runs.trans (State.foldl_buckets (fun _ _ => rfl) _)

theorem State.get_refilledBuckets {s : State} (hw : Assoc.wf Bucket.zero s.buckets = true) {n u : Nat} (hn : n ∈ arbiterNums)
    (hu : u < 64) : Assoc.get Bucket.zero (64 * n + u) s.refilledBuckets =
      s.refilled n u (Assoc.get Bucket.zero (64 * n + u) s.buckets) := by
  have mem : (n, u) ∈ bucketKeys := List.mem_product.mpr ⟨hn, List.mem_range.mpr hu⟩
  have e := Assoc.get_foldl_upd (g := fun x => s.refilled x.1 x.2) nodup_bucketKeys mem hw
  dsimp only at e
  rw [State.refilledBuckets, e]

theorem State.collectTrace_frame (s : State) : s.collectTrace = { s with trace := s.collectTrace.trace } := by
  unfold State.collectTrace
  dsimp only
  split <;> rfl

@[simp] theorem State.collectTrace_me (s : State) : s.collectTrace.me = s.me := by rw [State.collectTrace_frame]
@[simp] theorem State.collectTrace_mem (s : State) : s.collectTrace.mem = s.mem := by rw [State.collectTrace_frame]
@[simp] theorem State.collectTrace_buckets (s : State) : s.collectTrace.buckets = s.buckets := by rw [State.collectTrace_frame]

theorem exec_frameStart {s : State} (h : s.now % 4096 = 0) :
    exec .frameStart s = .next ({ s with buckets := s.refilledBuckets } : State).collectTrace := by
  change execFrameStart s = _
  unfold execFrameStart
  rw [if_neg (not_not_intro h), State.foldl_refill]

/-- What a bucket holds after the lending point, where its device has no request waiting. -/
def Bucket.lend (b : Bucket) : Bucket := { b with lent := min b.bal b.rate }

/-- The devices without a request waiting at an arbiter. -/
def State.lenders (s : State) (num : Nat) : List Nat := (List.range 64).filter fun u => !s.waitsAt num u

/-- The buckets after the lending point of an arbiter. -/
def State.lentBuckets (s : State) (num : Nat) : List (Nat × Bucket) :=
  (s.lenders num).foldl (fun b u => Assoc.upd Bucket.zero (64 * num + u) Bucket.lend b) s.buckets

theorem State.get_lentBuckets {s : State} (hw : Assoc.wf Bucket.zero s.buckets = true) (num : Nat) {u : Nat} (hu : u < 64) :
    Assoc.get Bucket.zero (64 * num + u) (s.lentBuckets num) =
      if s.waitsAt num u then Assoc.get Bucket.zero (64 * num + u) s.buckets
      else (Assoc.get Bucket.zero (64 * num + u) s.buckets).lend := by
  have distinct : ((s.lenders num).map fun u => 64 * num + u).Nodup :=
    (List.nodup_range.filter _).map (add_right_injective _)
  cases h : s.waitsAt num u with
  | true => exact Assoc.get_foldl_upd_other (by simp [State.lenders, h]) hw
  | false => exact Assoc.get_foldl_upd distinct (List.mem_filter.mpr ⟨List.mem_range.mpr hu, by simp [h]⟩) hw

theorem exec_lendingPoint {s : State} (h : s.now % 4096 = 2048) (ha : s.pins.addr ∈ arbiterNums) :
    exec .lendingPoint s = .next { s with buckets := s.lentBuckets s.pins.addr } := by
  have buckets : (List.range 64).foldl (fun b u => if s.waitsAt s.pins.addr u then b
      else Assoc.upd Bucket.zero (64 * s.pins.addr + u) Bucket.lend b) s.buckets = s.lentBuckets s.pins.addr := by
    rw [State.lentBuckets, State.lenders, List.foldl_filter]
    congr 1
    funext b u
    cases s.waitsAt s.pins.addr u <;> rfl
  change execLendingPoint s = _
  unfold execLendingPoint
  dsimp only
  rw [if_neg (by simp [h, ha]), ← buckets]
  refine congrArg _ (State.foldl_buckets (fun b u => ?_) _)
  cases hw : s.waitsAt s.pins.addr u with
  | true => exact (if_pos hw).trans rfl
  | false => exact (if_neg (by rw [Bool.not_eq_true]; exact hw)).trans rfl

end Sys2Proof.Machine
end

section
/-! PROOFS. The dealer (spec 03, R55 to R64, R74 to R76, R376): the statement O55. -/

namespace Sys2Proof.Machine

/-- Settles O55: cancels, entries taken and retired, launches, strands that start and end, frames. -/
theorem dealerEvents : Obligations.DealerEvents := by
  intro s p v done cancels
  refine ⟨?cancels, ?takes, ?retires, ?launches, ?starts,
    fun hi hs hm hp u hc ho hn => exec_strandEnd hi hs hm hp hc ho hn, ?frame, ?lending, ?charge⟩
  case cancels =>
    have level : ∀ {i : Instr} {n : Nat} {lv : Level}, exec i s = .next (s.cancelcmd n) → levelOfCode n = some lv →
        cancels i n lv := by
      intro i n lv hi hn h
      rw [hi, State.cancelcmd_effect hn h]
      exact ⟨fun hc => congrArg _ (if_pos hc), fun hc => congrArg _ (if_neg (by rw [Bool.not_eq_true]; exact hc))⟩
    exact ⟨level rfl rfl, level rfl rfl, level rfl rfl, level rfl rfl, level rfl rfl⟩
  case takes =>
    intro q x hn a f c taken hr hz hfl
    have hf : s.formed v x := ⟨hr, hz, hfl⟩
    refine ⟨fun hk hc => ?nop, fun hk hc => ?noContext, fun hk => ?undefined, fun hk ha hcr => ?launch, fun hc => ⟨?counter, ?phase⟩⟩
    case nop =>
      rw [exec_nopTake hn hf (.inl hk), State.takeEntry_nop hf hk]
      exact congrArg _ (if_pos hc)
    case noContext =>
      rw [exec_nopTake hn hf (.inl hk), State.takeEntry_nop hf hk]
      exact congrArg _ (if_neg (by rw [Bool.not_eq_true]; exact hc))
    case undefined => rw [exec_nopTake hn hf (.inr hk), State.takeEntry_undefined hf hk]
    case launch =>
      have e : exec .launchTake s = .next (s.takeLaunch v q x (f 8 8)) :=
        congrArg _ ((State.take_next hn hf hk).trans (State.takeEntry_launch hf hk ha))
      exact ⟨fun he => e.trans (congrArg _ (State.takeLaunch_passes hcr he)),
        fun he => e.trans (congrArg _ (State.takeLaunch_fails hcr he))⟩
    case counter =>
      intro hcnt
      exact ⟨fun hk => congrArg _ ((State.take_next hn hf hk).trans (State.takeEntry_holds hf hc (.inr ⟨.inl hk, hcnt⟩))),
        fun hk => congrArg _ ((State.take_next hn hf hk).trans (State.takeEntry_holds hf hc (.inr ⟨.inr hk, hcnt⟩)))⟩
    case phase =>
      exact fun hk => congrArg _ ((State.take_next hn hf hk).trans (State.takeEntry_holds hf hc (.inl hk)))
  case retires =>
    exact fun t ht hs hv => ⟨exec_waitRetire ht hs hv, exec_signalRetire ht hs hv, exec_phaseRetire ht hs hv⟩
  case launches =>
    refine fun l hl => ⟨fun hs hv => ⟨fun hc hm => ?eligible, fun hc => ?cancelled⟩, exec_launchRetire hl⟩
    case eligible => rw [exec_launchEligible hl hs hv, if_neg (by simp [hc]), if_pos hm]
    case cancelled => rw [exec_launchEligible hl hs hv, if_pos hc]
  case starts =>
    intro l cu u i hn hu hi
    obtain ⟨c, e⟩ := exec_strandStart hn hu hi
    have launches : (((s.setCu cu c).addStrand (s.startState l cu (s.freeSlot cu) i u)).setLaunch
        { l with started := l.started + 1 }).launches = (s.setLaunch { l with started := l.started + 1 }).launches := by
      unfold State.setLaunch
      rw [State.addStrand_launches]
      rfl
    exact ⟨_, s.startState l cu (s.freeSlot cu) i u, e, (s.setCu cu c).addStrand_joins _, launches, (s.setCu cu c).addStrand_mem _,
      rfl, rfl, rfl, rfl, s.startState_cu l cu i u, rfl, rfl, fun i hi => startRegs_arg l hi, startRegs_started l,
      startRegs_strands l, startRegs_share l, fun i h1 h2 => startRegs_zero l h1 h2, rfl, rfl, rfl, rfl, rfl, rfl, rfl, rfl⟩
  case frame =>
    intro h hw
    refine ⟨_, exec_frameStart h, State.collectTrace_me _, State.collectTrace_mem _, fun n hn u hu => ?_⟩
    rw [State.collectTrace_buckets, State.get_refilledBuckets hw hn hu]
    rfl
  case lending => exact fun h ha hw => ⟨_, exec_lendingPoint h ha, rfl, fun u hu => State.get_lentBuckets hw p.addr hu⟩
  case charge => exact fun h hv => congrArg _ (if_neg (by simp [h]; exact hv))

end Sys2Proof.Machine
end

section
/-! PROOFS. DEAL takes the next chunk (spec 04, R66; spec 13, R280): the statement O18. -/

namespace Sys2Proof.Machine

/-! ### Words with nothing older pending (R87) -/

section
variable {s : State}

theorem State.heldWord_idle (hp : s.me.pend = []) (word : Word) (dst : List SReg) (orders : Bool) (foot : Option (Ref × Nat))
    (f : State → State) : s.heldWord word dst orders foot f = f s := if_pos (by simp [State.idle, hp])

theorem State.unlessCancelled_live (hc : s.me.cancelled = none) (f : State → State) : s.unlessCancelled f = f s :=
  if_neg (by simp [hc])

/-- A device with no checkpoint log records nothing (R220). -/
theorem State.orderLog_off (hk : s.ckOn s.me.vd = false) (x : LogData) : s.orderLog x = s := by
  unfold State.orderLog State.orderLogOf
  exact if_neg (by simp [hk])

/-! ### The dealer's answer (R66) -/

/-- Where the next chunk of a launch ends. -/
def State.chunkEnd (s : State) (l : Launch) : Nat :=
  let a := max 1 ((s.strands.filter fun k => k.launch == l.key && !k.emptied).length)
  let c := max (max l.card.minch 1) (ceilDiv (l.card.trip0 - l.nxt) (2 * a))
  let g := max l.card.gran 1
  min (l.nxt + ceilDiv c g * g) l.card.trip0

variable {l : Launch}

theorem State.dealAnswer_chunk (hl : s.launchOf s.me.launch = some l) (hr : l.card.trip0 - l.nxt ≠ 0) (hc : l.cancelled = none)
    (hs : s.me.cancelled = none) (he : s.me.emptied = false) :
    s.dealAnswer = (s.setLaunch { l with nxt := s.chunkEnd l }, l.nxt, s.chunkEnd l) := by
  unfold State.dealAnswer
  rw [hl]
  exact if_neg (by simp [hr, hc, hs, he])

theorem State.dealAnswer_empty (hl : s.launchOf s.me.launch = some l)
    (h : l.card.trip0 - l.nxt = 0 ∨ l.cancelled ≠ none ∨ s.me.emptied = true) :
    s.dealAnswer = (s.onMe fun k => { k with emptied := true }, l.nxt, l.nxt) := by
  unfold State.dealAnswer
  rw [hl]
  refine if_pos ?_
  rcases h with h | h | h
  · simp [h]
  · simp [Option.isSome_iff_ne_none.mpr h]
  · simp [h]

theorem exec_deal {t : State} {lo hi : Nat} (hp : s.me.pend = []) (hc : s.me.cancelled = none) (ha : s.dealAnswer = (t, lo, hi))
    (hk : t.ckOn t.me.vd = false) (d a : SReg) :
    exec (.deal d a) s = .next ((t.setSreg d (BitVec.ofNat 64 lo)).setSreg a (BitVec.ofNat 64 hi)).next := by
  change execDeal d a s = _
  unfold execDeal
  rw [State.unlessCancelled_live hc, State.heldWord_idle hp]
  dsimp only
  rw [ha]
  dsimp only
  rw [State.orderLog_off hk]

end

/-- Settles O18, by the dealer's two answers. -/
theorem dealChunks : Obligations.DealChunks := by
  intro d a s l _ _ _ hp hs hl hk
  exact ⟨fun hr hc he => exec_deal hp hs (State.dealAnswer_chunk hl hr hc hs he) hk d a,
    fun h => exec_deal hp hs (State.dealAnswer_empty hl h) hk d a⟩

end Sys2Proof.Machine
end

section
/-! PROOFS. Lanes, convoys, squashes and blocked queues (spec 04, R70, R71; spec 05, R87, R88, R95; spec 08, R174). -/

namespace Sys2Proof.Machine

/-! ### The strand that the pins name is the one whose turn it is -/

section
variable {s t : State}

theorem Strand.status_of_is {k : Strand} {vd img : Nat} (h : k.is vd img = true) : k.status ≠ .empty := by
  simp only [Strand.is, Bool.and_eq_true, bne_iff_ne] at h
  exact h.1.1

@[simp] theorem Strand.settle_is (k : Strand) (vd img : Nat) : k.settle.is vd img = k.is vd img := by
  unfold Strand.settle
  split <;> rfl

theorem State.atStrand_here {p : Strand → Bool} {f : State → State} (hi : s.me.is s.pins.port s.pins.addr = true)
    (hp : p s.me = true) (hf : f s = t) (ht : t.me.is s.me.vd s.me.imgidx = true) : s.atStrand p f = t :=
  State.asStrand_here (Strand.status_of_is hi) (by simp [hi, hp]) hf ht

theorem Strand.flows_onCu {k : Strand} (h : k.flows = true) : k.onCu = true := by
  simp only [Strand.flows, Bool.and_eq_true] at h
  exact h.2

theorem Strand.flows_unmuted {k : Strand} (h : k.flows = true) : k.muted = false := by
  simp only [Strand.flows, Strand.runs, Bool.and_eq_true, Bool.not_eq_true'] at h
  exact h.1.2

/-! ### Lanes (R70, R71) -/

/-- The slot that stands alone in the lane FIFO of a CU is served. -/
theorem State.serveFifo_alone {cu slot : Nat} (hq : (s.cu cu).fifo = [slot])
    (ht : s.asStrand (fun k => k.onCu && !k.muted && k.cu == cu && k.slot == slot) State.serveMine = t) (n : Nat) :
    s.serveFifo cu (n + 2) = t := by
  rw [State.serveFifo, hq]
  dsimp only
  rw [ht]
  split
  next h => rw [State.serveFifo, h]
  next => rfl

theorem State.serveMine_strip (h : s.me.waitingSetvl = none) : s.serveMine =
    let r := s.renegotiate s.me.strip.vl (16 * 2 ^ s.me.strip.w.toNat)
    if r.2 then r.1.leaveFifo else r.1 := by
  unfold State.serveMine
  rw [h]

theorem State.serveMine_setvl {w : WTy} {vl : Nat} (h : s.me.waitingSetvl = some (w, vl)) (hc : s.me.cancelled = none) :
    s.serveMine =
      let r := s.renegotiate vl (wtyWidth w)
      if r.2 then r.1.leaveFifo.onMe fun k => ({ k with pend := k.pend.tail } : Strand).settle else r.1 := by
  unfold State.serveMine
  rw [h]
  exact if_neg (by simp [hc])

theorem exec_laneFifoService (hq : (s.cu s.pins.port).fifo = [s.me.slot]) (hf : s.me.flows = true) (hc : s.me.cu = s.pins.port)
    (ht : s.serveMine = t) (hi : t.me.is s.me.vd s.me.imgidx = true) : exec .laneFifoService s = .next t := by
  have there := Strand.flows_onCu hf
  have present : s.me.status ≠ .empty := by
    simp only [Strand.onCu, Bool.and_eq_true, bne_iff_ne] at there
    exact there.1
  exact congrArg _ (State.serveFifo_alone hq (State.asStrand_here present (by simp [there, Strand.flows_unmuted hf, hc]) ht hi) 6)

/-! ### The head of the pending items (R87, R89) -/

/-- A held operation that takes effect leaves the buffer. -/
theorem State.vecTurn_held {u : State} {n : Nat} {snap : Chanter} {pc w : Word} {h : Held} {l : List Pend}
    (hp : s.me.pend = ⟨n, snap, .held pc h w⟩ :: l) (hw : ∀ d o f, h ≠ .word d o f) (hq : s.quiet true)
    (hd : s.doHeld h false true = .ok u ()) :
    s.vecTurn = u.onMe fun k => ({ k with pend := k.pend.tail } : Strand).settle := by
  unfold State.vecTurn
  rw [hp]
  dsimp only
  rw [if_neg (by simp [State.quiet_held hq]), State.quiet_retry hq]
  cases h with
  | word d o f => exact absurd rfl (hw d o f)
  | _ => simp only [hd]

section
variable (hi : s.me.is s.pins.port s.pins.addr = true) (hf : s.me.flows = true)
include hi hf

theorem exec_laneRenegotiation {c : Convoy} (hc : s.me.headConvoy = some c) (hv : c.isSetvl = true) (hs : c.started = false)
    (ht : s.vecTurn.me.is s.me.vd s.me.imgidx = true) : exec .laneRenegotiation s = .next s.vecTurn := by
  refine congrArg _ (State.atStrand_here hi hf ?_ ht)
  rw [hc]
  exact if_pos (by simp [hv, hs])

theorem exec_convoyStart {c : Convoy} (hc : s.me.headConvoy = some c) (hv : c.isSetvl = false) (hs : c.started = false)
    (hd : s.dispatchable s.me.vd = true) (hb : c.restart.isSome = true ∨ c.skip = true ∨ s.brkAt c.pc = false)
    (hn : s.me.blocks c = none) (ht : (s.startHead c).me.is s.me.vd s.me.imgidx = true) :
    exec .convoyStart s = .next (s.startHead c) := by
  refine congrArg _ (State.atStrand_here hi hf ?_ ht)
  have passes : (c.restart.isNone && !c.skip && s.brkAt c.pc) = false := by
    rcases hb with h | h | h
    · simp [Option.isSome_iff_ne_none.mp h]
    · simp [h]
    · simp [h]
  rw [hc]
  dsimp only
  rw [if_neg (by simp [hv, hs, hd]), if_neg (by simp [passes]), if_pos (by simp [hn])]

theorem exec_convoyRetire (hs : s.headStarted = true) (ht : s.vecTurn.me.is s.me.vd s.me.imgidx = true) :
    exec .convoyRetire s = .next s.vecTurn := by
  refine congrArg _ (State.atStrand_here hi hf ?_ ht)
  exact if_pos hs

theorem exec_heldOperationRelease {u : State} {n : Nat} {snap : Chanter} {pc w : Word} {h : Held} {l : List Pend}
    (hp : s.me.pend = ⟨n, snap, .held pc h w⟩ :: l) (hw : ∀ d o f, h ≠ .word d o f) (hq : s.quiet true)
    (hd : s.doHeld h false true = .ok u ()) (ht : u.me.is s.me.vd s.me.imgidx = true) :
    exec .heldOperationRelease s = .next (u.onMe fun k => ({ k with pend := k.pend.tail } : Strand).settle) := by
  refine congrArg _ (State.atStrand_here hi hf ?_ ?_)
  · have noConvoy : s.me.headConvoy = none := by unfold Strand.headConvoy; rw [hp]
    exact (if_pos (by simp [noConvoy])).trans (State.vecTurn_held hp hw hq hd)
  · rw [State.onMe_me, Strand.settle_is]
    exact ht

/-! ### A queue that blocks the chanter (R95) -/

theorem exec_qdeadTimeout {q : QNum} (hv : s.me.vwait = none) (hp : s.me.pend = []) (hq : s.me.ch.qtimeo ≠ 0)
    (hn : 1024 * s.me.ch.qtimeo.toNat ≤ s.now - s.me.since) (hw : s.me.wait = .queuePop q) (he : s.me.fromQ q = []) :
    exec .qdeadTimeout s = .next (s.raise (stopAt s.me.ch.pc .qdead (BitVec.ofNat 64 q.toNat))) := by
  refine congrArg _ (State.atStrand_here hi hf ?_ ?_)
  · have fresh : s.vectorExpired = false := by unfold State.vectorExpired; rw [hv]
    have blocked : s.me.chanterBlockedOn = some q.toNat := by unfold Strand.chanterBlockedOn; rw [hw]; exact if_pos (by simp [he])
    unfold State.queueDead
    rw [if_neg (by simp [fresh]), blocked]
    refine if_pos ?_
    simp only [State.qDead, Bool.and_eq_true, bne_iff_ne, decide_eq_true_eq]
    exact ⟨hq, hn⟩
  · rw [State.raise_of_pend_nil hp]
    exact State.takeStop_me_is (Strand.is_self hi) _ _

end

/-! ### Squashes (R88, R174) -/

theorem State.squash_eq (s : State) (now : Bool) : s.squash now =
    let b := s.onMe fun k => { k with squashing := some s.now }
    if now || !s.headStarted then b.squashTurn else b := rfl

theorem State.squashTurn_started (hs : s.headStarted = true) (h : s.vecTurn.inFlight = false) :
    s.squashTurn = s.vecTurn.finishSquash := by
  simp [State.squashTurn, hs, h]

theorem State.squashTurn_idle (hs : s.headStarted = false) (h : s.inFlight = false) : s.squashTurn = s.finishSquash := by
  simp [State.squashTurn, hs, h]

section
variable (hi : s.me.is s.pins.port s.pins.addr = true)
include hi

theorem exec_squash (hq : s.me.squashing = none) (hm : s.maySquash = true) (hs : s.squash s.pins.ok = t)
    (ht : t.me.is s.me.vd s.me.imgidx = true) : exec .squash s = .next t := by
  refine congrArg _ (State.atStrand_here hi ?_ ?_ ht)
  · simp [hq]
  · exact (if_pos hm).trans hs

theorem exec_squashDeadline {n : Nat} (hq : s.me.squashing = some n) (hn : n + 2048 ≤ s.now) (hl : s.inFlight = false)
    (ht : s.finishSquash.me.is s.me.vd s.me.imgidx = true) : exec .squashDeadline s = .next s.finishSquash := by
  refine congrArg _ (State.atStrand_here hi ?_ ?_ ht)
  · simp [hq]
  · exact if_pos (by simp [hq, hn, hl])

end

end

end Sys2Proof.Machine
end

section
/-! PROOFS. Register lines, replay queues, traps and their records; saves, landings and restores (spec 05, R98; spec 06, R113;
spec 08, R167, R173 to R182, R375). -/

namespace Sys2Proof.Machine

section
variable {s t : State}

/-! ### Register lines (R98) -/

theorem State.poisoned_of_clean (hp : s.poison = []) (hl : s.l2 = []) (line : Nat) : s.poisoned line = false := by
  unfold State.poisoned State.tagOf
  rw [hl, hp]
  rfl

/-- The strand whose turn it is comes first among the strands. -/
theorem State.find_strands_me {p : Strand → Bool} (he : s.me.status ≠ .empty) (hp : p s.me = true) :
    s.strands.find? p = some s.me := by
  unfold State.strands
  rw [List.filter_cons_of_pos (by simpa using he), List.find?_cons_of_pos hp]

theorem exec_registerLineFill (hi : s.me.is s.pins.port s.pins.addr = true) (hu : s.me.onCu = true) (ha : s.pins.count ∈ s.me.absent)
    (hp : s.poison = []) (hl : s.l2 = []) (hc : s.crit = [])
    (ht : ((s.fetched (s.imgAddr s.me.vd s.me.imgidx + lineOff s.pins.count) 256).fillLine s.pins.count).me.is
      s.me.vd s.me.imgidx = true) :
    exec .registerLineFill s =
      .next ((s.fetched (s.imgAddr s.me.vd s.me.imgidx + lineOff s.pins.count) 256).fillLine s.pins.count) := by
  change execRegisterLineFill s = _
  unfold execRegisterLineFill
  dsimp only
  rw [State.find_strands_me (Strand.status_of_is hi) (by simp [hi, hu, ha])]
  dsimp only
  rw [if_neg (by simp [State.lineWaits_of_cool hc]), if_neg (by simp [State.poisoned_of_clean hp hl])]
  exact congrArg _ (State.atStrand_here hi hu rfl ht)

/-! ### Replay queues (R113) -/

/-- No request of an old incarnation waits: none is dropped. -/
theorem State.dropStaleWaits_current (h : ∀ w ∈ s.replay, s.staleWho w.who = false) (p : Waiting → Bool) : s.dropStaleWaits p = s := by
  have none_old : s.replay.filter (fun w => p w && s.staleWho w.who) = [] :=
    List.filter_eq_nil_iff.mpr fun w hw => by simp [h w hw]
  have all_stay : s.replay.filter (fun w => !(p w && s.staleWho w.who)) = s.replay :=
    List.filter_eq_self.mpr fun w hw => by simp [h w hw]
  unfold State.dropStaleWaits
  dsimp only
  rw [none_old, all_stay]
  rfl

theorem State.nextInbound_none (h : ∀ w ∈ s.replay, ∀ r, w.who.ask ≠ .inbound r) : s.nextInbound = none :=
  List.findSome?_eq_none_iff.mpr fun w hw => by
    split
    next r hr => exact absurd hr (h w hw r)
    next => rfl

theorem State.serveInbound_none (h : s.nextInbound = none) : ∀ n, s.serveInbound n = s
  | 0 => rfl
  | _ + 1 => by rw [State.serveInbound, h]

/-- With no request from outside among them, the released requests wait for their requesters. -/
theorem State.letGo_own (h : ∀ w ∈ s.replay, ∀ r, w.who.ask ≠ .inbound r) (p : Waiting → Bool) :
    s.letGo p = { s with replay := s.replay.map fun w => if p w then { w with go := true } else w } := by
  refine State.serveInbound_none (State.nextInbound_none fun w hw r => ?_) _
  obtain ⟨o, ho, rfl⟩ := List.mem_map.mp hw
  split
  · exact h o ho r
  · exact h o ho r

theorem exec_replayRelease (hq : s.partq = []) (h : ∀ w ∈ s.replay, s.staleWho w.who = false ∧ ∀ r, w.who.ask ≠ .inbound r) :
    exec .replayRelease s = .next { s with
      replay := s.replay.map fun w => if homeSlice w.line == s.pins.port && s.mayGo w then { w with go := true } else w } := by
  change execReplayRelease s = _
  unfold execReplayRelease
  dsimp only
  rw [State.dropStaleWaits_current fun w hw => (h w hw).1, State.letGo_own fun w hw => (h w hw).2]
  dsimp only
  rw [hq]
  rfl

/-- A request of an old incarnation meets its target: it is counted, or a read of it nacked (R182). -/
theorem exec_requestAtTarget {w : Waiting} (hw : s.replay[s.pins.count]? = some w) (h : s.staleWho w.who = true) :
    exec .requestAtTarget s =
      let u := ({ s with replay := s.replay.eraseIdx s.pins.count } : State)
      .next (if w.wr then u.countReg Reg.stalecnt 32 else u.say .staleNack) := by
  change execRequestAtTarget s = _
  unfold execRequestAtTarget
  rw [hw]
  exact congrArg _ (if_pos h)

/-! ### Traps, fault records and asynchronous faults (R167, R173, R180) -/

section
variable (hi : s.me.is s.pins.port s.pins.addr = true) (hf : s.me.flows = true)
include hi hf

theorem exec_trapTaken {st : Stop} (hp : s.me.pend = []) (hs : s.me.trap = some st) :
    exec .trapTaken s = .next (s.takeStop st (esvOutside s.me.grant)) := by
  refine congrArg _ (State.atStrand_here hi hf ?_ (State.takeStop_me_is (Strand.is_self hi) _ _))
  rw [hp, hs]

theorem exec_asyncfaultDelivery {w : Word} {l : List Word} (ha : s.me.async = w :: l) (hc : s.me.ch.tcause.getLsbD 31 = false)
    (hp : s.me.pend = []) (ht : s.me.trap = none) (hr : s.me.resume = none) (hm : s.me.forming = []) :
    exec .asyncfaultDelivery s =
      let info := if l = [] ∧ s.me.asyncOvf = true then w ||| 0x40000000 else w
      .next ((s.onMe fun m => { m with async := l, asyncOvf := s.me.asyncOvf && !(l.isEmpty && s.me.asyncOvf) }).takeStop
        (stopAt s.me.ch.pc .asyncfault info) (esvOutside s.me.grant)) := by
  have ready : s.asyncReady = true := by simp only [State.asyncReady, ha, hc, hp, ht]; rfl
  have here : s.me.headPc = s.me.ch.pc := if_pos (by simp [hm])
  have named := Strand.is_self hi
  refine congrArg Host.Outcome.next (State.atStrand_here hi hf ?_ ?_)
  · refine (if_pos ready).trans ?_
    unfold State.deliverAsync
    rw [ha, here]
    simp only [State.onMe_me, hr, List.isEmpty_iff, Bool.and_eq_true]
    rfl
  · refine State.takeStop_me_is ?_ _ _
    exact named

end

theorem exec_faultRecordPost {r : FaultRec} {l : List FaultRec} (hr : s.posts = r :: l) (hv : r.vd = s.pins.port)
    (hq : s.fqRoom s.pins.port = true) : exec .faultRecordPost s = .next (({ s with posts := l } : State).writeRecord r) := by
  change execFaultRecordPost s = _
  unfold execFaultRecordPost
  dsimp only
  rw [hr, pull, if_pos (by simp [hv])]
  exact congrArg _ (if_pos hq)

/-! ### Saves, landings and restores (R175 to R179, R375) -/

theorem State.inSlot_copier (h : s.now % 1024 < 32) : s.inSlot .copier = true := by
  have turn : maintAt s.now = some .copier := if_pos (by omega)
  unfold State.inSlot
  rw [turn]
  rfl

/-- In its own cycles, with no stack critical, the copier waits for nothing. -/
theorem State.copierWaits_not (h : s.now % 1024 < 32) (hc : s.crit = []) (a n : Nat) : s.copierWaits a n = false := by
  simp [State.copierWaits, State.inSlot_copier h, State.lineWaits_of_cool hc]

section
variable (hi : s.me.is s.pins.port s.pins.addr = true)
include hi

/-- The copier may save the strand: what becomes of it depends on the error that it meets or does not meet (R176). -/
theorem exec_contextSave (hm : s.maySave s.me = true)
    (ha : s.copierMay (s.imgAddr s.me.vd s.me.imgidx) s.me.imgSpan true = true) (hn : s.now % 1024 < 32) (hc : s.crit = []) :
    exec .contextSave s =
      let a := s.imgAddr s.me.vd s.me.imgidx
      .next (if s.pins.ok then s.atStrand (fun _ => true) State.saveStrand
        else if s.killWraps s.me.ctx then s.killFor s.me.ctx
        else (s.killFor s.me.ctx).makeFog a (a + s.me.imgSpan)) := by
  change execContextSave s = _
  unfold execContextSave
  rw [State.find_strands_me (Strand.status_of_is hi) hi]
  exact congrArg _ (if_neg (by simp [hm, ha, State.copierWaits_not hn hc]))

theorem exec_contextSave_done (hm : s.maySave s.me = true)
    (ha : s.copierMay (s.imgAddr s.me.vd s.me.imgidx) s.me.imgSpan true = true) (hn : s.now % 1024 < 32) (hc : s.crit = [])
    (ho : s.pins.ok = true) (ht : s.saveStrand.me.is s.me.vd s.me.imgidx = true) : exec .contextSave s = .next s.saveStrand := by
  rw [exec_contextSave hi hm ha hn hc]
  exact congrArg _ ((if_pos ho).trans (State.atStrand_here hi rfl rfl ht))

theorem exec_contextSave_fails (hm : s.maySave s.me = true)
    (ha : s.copierMay (s.imgAddr s.me.vd s.me.imgidx) s.me.imgSpan true = true) (hn : s.now % 1024 < 32) (hc : s.crit = [])
    (ho : s.pins.ok = false) (hw : s.killWraps s.me.ctx = false) :
    exec .contextSave s = .next ((s.kill s.me.ctx).makeFog (s.imgAddr s.me.vd s.me.imgidx) (s.imgAddr s.me.vd s.me.imgidx + s.me.imgSpan)) := by
  have kills : s.killFor s.me.ctx = s.kill s.me.ctx := if_neg (by simp [hw])
  rw [exec_contextSave hi hm ha hn hc]
  dsimp only
  rw [if_neg (by simp [ho]), if_neg (by simp [hw]), kills]

/-- A squash that came before the save is undone (R179). -/
theorem exec_restore_unmutes (hm : s.me.muted = true) (ha : s.me.amo = none) (hk : s.ckBusy s.me.vd = false)
    (hs : s.me.saved = false) (hb : s.shareBack s.me s.me.cu = true)
    (ht : (s.unmute.leaveCkpt s.me).me.is s.me.vd s.me.imgidx = true) : exec .restore s = .next (s.unmute.leaveCkpt s.me) := by
  refine congrArg _ (State.atStrand_here hi ?_ ?_ ht)
  · simp [hm, ha, hk]
  · exact (if_pos (by simp [hs])).trans (if_pos hb)

/-- A saved strand comes back on the CU that the dealer has chosen (R179). -/
theorem exec_restore_saved {l : Launch} (hm : s.me.muted = true) (ha : s.me.amo = none) (hk : s.ckBusy s.me.vd = false)
    (hs : s.me.saved = true) (hl : s.launchOf s.me.launch = some l) (hr : s.mayRestore s.me s.pins.value l.card.split = true)
    (hn : s.now % 1024 < 32) (hc : s.crit = []) (hp : s.copierMay (s.imgAddr s.me.vd s.me.imgidx) s.me.imgSpan false = true)
    (hb : s.shareBack s.me s.pins.value = true) (hg : s.badImage s.me s.pins.value = false)
    (ht : ((s.restore s.pins.value l.card.split).leaveCkpt s.me).me.is s.me.vd s.me.imgidx = true) :
    exec .restore s = .next ((s.restore s.pins.value l.card.split).leaveCkpt s.me) := by
  refine congrArg _ (State.atStrand_here hi ?_ ?_ ht)
  · simp [hm, ha, hk]
  · dsimp only
    rw [if_neg (by simp [hs]), hl]
    dsimp only
    rw [if_pos (by simp [hr, hp, State.copierWaits_not hn hc, hb]), if_neg (by simp [hg])]

end

theorem exec_cuShareSave {h : CuShare} (hh : (s.idleShares s.pins.port).find? (fun h => h.of s.pins.value (some s.pins.count)) = some h)
    (hn : s.now % 1024 < 32) (hc : s.crit = []) (ha : s.copierMay (s.cuImgAddr h.vd h.idx) (1024 * h.kib) true = true) :
    exec .cuShareSave s = .next (s.saveCuShare s.pins.port h) := by
  change execCuShareSave s = _
  unfold execCuShareSave
  rw [hh]
  exact congrArg _ (if_pos (by simp [ha, State.copierWaits_not hn hc]))

theorem exec_divertedLanding {x : Xfer} {m : Strand} (hx : s.xfers[s.pins.count]? = some x) (hm : s.mutedOf x = some m)
    (hc : m.saved = false ∨ s.crit = []) : exec .divertedLanding s = .next (s.beat x) := by
  change execDivertedLanding s = _
  unfold execDivertedLanding
  rw [hx]
  dsimp only
  rw [hm]
  exact congrArg _ (if_neg (by rcases hc with h | h <;> simp [h]))

end

end Sys2Proof.Machine
end

section
/-! PROOFS. Waits that end (spec 10, R229; spec 13, R284; spec 15, R332, R333; spec 16, R353), and the statement O56. -/

namespace Sys2Proof.Machine

/-! ### The word that a strand waits at is tried again -/

theorem State.noteStep_me_is {s : State} {vd img : Nat} (h : s.me.is vd img = true) (n : Nat) : (s.noteStep n).me.is vd img = true := by
  unfold State.noteStep
  split
  · exact h
  · exact h

/-- A word that answers in a register leaves its strand in the machine, under its name; so does an acquire, and the end of a wait. -/
theorem State.answered_is (s : State) (d : SReg) (x : Word) (vd img : Nat) :
    (s.setSreg d x).next.me.is vd img = s.me.is vd img := rfl

theorem State.wake_is (s : State) (vd img : Nat) : s.wake.me.is vd img = s.me.is vd img := rfl

theorem State.acquire_is (s : State) (vd img : Nat) : s.acquire.me.is vd img = s.me.is vd img := rfl

theorem Strand.wokenHere_none {k : Strand} (h : k.woken = .none) : k.wokenHere = .none := by
  unfold Strand.wokenHere
  rw [h]
  rfl

theorem State.timedOut_of {s : State} {w : Wait} (hw : s.me.wait = w) (hn : s.me.ch.wtimeo ≠ 0)
    (h : 1024 * s.me.ch.wtimeo.toNat ≤ s.now - s.me.since) : s.timedOut w = true := by
  have some_time : s.me.ch.wtimeo.toNat ≠ 0 := fun e => hn (BitVec.eq_of_toNat_eq e)
  simp [State.timedOut, hw, some_time, h]

section
variable {s : State} (hp : s.me.pend = []) (hc : s.me.cancelled = none) (hw : s.me.woken = none)
include hp hc hw

/-! ### CNTWAIT (R229, R284) -/

section
variable {a b : SReg} (hn : ((s.sreg a).extractLsb' 0 16).toNat < s.me.cntn)
include hn

theorem execCntwait_again (d : SReg) : execCntwait d a b s =
    let n := s.me.cntbase.toNat + ((s.sreg a).extractLsb' 0 16).toNat
    let c := s.counter n
    .next (if c.reached ((s.sreg b).extractLsb' 0 32) then (((s.acquire).wake).setSreg d c.word).next
      else if s.timedOut .counter then ((s.wake).setSreg d c.word).next
      else s.watch (.counter n ((s.sreg b).extractLsb' 0 32)) .counter) := by
  unfold execCntwait
  dsimp only
  rw [if_neg (by omega), State.unlessCancelled_live hc, State.heldWord_idle hp, Strand.wokenHere_none hw]

section
variable (hi : s.me.is s.pins.port s.pins.addr = true) (hf : s.me.flows = true) (hk : s.me.wait = .counter)
  {d : SReg} (hx : s.wordHere = some (.cntwait d a b)) {c : Counter}
  (hv : c = s.counter (s.me.cntbase.toNat + ((s.sreg a).extractLsb' 0 16).toNat))
include hi hf hk hx hv

theorem exec_cntwaitWake (hr : c.reached ((s.sreg b).extractLsb' 0 32) = true) :
    exec .cntwaitWake s = .next ((((s.acquire.wake).setSreg d c.word).next).noteStep s.me.seq) := by
  subst hv
  refine congrArg _ (State.atStrand_here hi ?_ ?_ (State.noteStep_me_is ?_ _))
  · simp [hf, hk]
  · rw [hx]
    dsimp only
    rw [if_pos hr, execCntwait_again hp hc hw hn]
    exact congrArg (State.noteStep s.me.seq) (if_pos hr)
  · rw [State.answered_is, State.wake_is, State.acquire_is]
    exact Strand.is_self hi

theorem exec_cntwaitTimeout (hr : c.reached ((s.sreg b).extractLsb' 0 32) = false) (ht : s.me.ch.wtimeo ≠ 0)
    (hl : 1024 * s.me.ch.wtimeo.toNat ≤ s.now - s.me.since) :
    exec .cntwaitTimeout s = .next ((((s.wake).setSreg d c.word).next).noteStep s.me.seq) := by
  subst hv
  have late : s.timedOut .counter = true := State.timedOut_of hk ht hl
  refine congrArg _ (State.atStrand_here hi ?_ ?_ (State.noteStep_me_is ?_ _))
  · simp [hf, hk]
  · rw [hx]
    dsimp only
    rw [if_pos late, execCntwait_again hp hc hw hn]
    exact congrArg (State.noteStep s.me.seq) ((if_neg (Bool.eq_false_iff.mp hr)).trans (if_pos late))
  · rw [State.answered_is, State.wake_is]
    exact Strand.is_self hi

end

end

/-! ### WAITA (R332, R333) -/

section
variable {u : State} {t : AmoTy} {d b : SReg} {m : Addr} {off : BitVec 16} {y : List Byte} {l : Loc}
  (hr : s.watchRead (refOf m.sl (s.sreg m.a) off.toInt) (amoBytes t) = .ok u (y, l)) (hb : u.sreg b = s.sreg b)
include hr hb

theorem execWaita_again : execWaita t d m off b s =
    .next (if ofLe y ≠ (s.sreg b).toNat % 2 ^ (8 * amoBytes t) then u.waitaDone d (amoWiden t (ofLe y))
      else if u.timedOut .address then ((u.wake).setSreg d (amoWiden t (ofLe y))).next
      else u.watch (.address l t (s.sreg b)) .address) := by
  unfold execWaita
  dsimp only
  rw [State.unlessCancelled_live hc, State.heldWord_idle hp]
  unfold State.waita
  rw [Strand.wokenHere_none hw]
  dsimp only
  rw [hr]
  dsimp only
  rw [hb]

section
variable (hi : s.me.is s.pins.port s.pins.addr = true) (hf : s.me.flows = true) (hk : s.me.wait = .address)
  (hx : s.wordHere = some (.waita t d m off b))
include hi hf hk hx

theorem exec_waitaWake (hv : ofLe y ≠ (s.sreg b).toNat % 2 ^ (8 * amoBytes t))
    (ht : ((u.waitaDone d (amoWiden t (ofLe y))).noteStep s.me.seq).me.is s.me.vd s.me.imgidx = true) :
    exec .waitaWake s = .next ((u.waitaDone d (amoWiden t (ofLe y))).noteStep s.me.seq) := by
  refine congrArg _ (State.atStrand_here hi ?_ ?_ ht)
  · simp [hf, hk]
  · rw [hx]
    dsimp only
    rw [hr]
    dsimp only
    rw [if_pos hv, execWaita_again hp hc hw hr hb]
    exact congrArg (State.noteStep s.me.seq) (if_pos hv)

theorem exec_waitaTimeout (hv : ofLe y = (s.sreg b).toNat % 2 ^ (8 * amoBytes t)) (hs : s.timedOut .address = true)
    (hu : u.timedOut .address = true)
    (ht : (((u.wake.setSreg d (amoWiden t (ofLe y))).next).noteStep s.me.seq).me.is s.me.vd s.me.imgidx = true) :
    exec .waitaTimeout s = .next (((u.wake.setSreg d (amoWiden t (ofLe y))).next).noteStep s.me.seq) := by
  refine congrArg _ (State.atStrand_here hi ?_ ?_ ht)
  · simp [hf, hk]
  · rw [hx]
    dsimp only
    rw [if_pos hs, execWaita_again hp hc hw hr hb]
    exact congrArg (State.noteStep s.me.seq) ((if_neg (not_not_intro hv)).trans (if_pos hu))

end

end

/-! ### CPWAIT (R353) -/

theorem execCpwait_again (d a : SReg) : execCpwait d a s =
    let id := (s.sreg a).extractLsb' 0 16
    .next (if (s.outstanding id).isNone then ((s.orderLog (.copy id)).setSreg d (cpStatus id true CpDone.none)).next
      else if s.timedOut (.copyId id) then (s.setSreg d (cpStatus id false CpDone.none)).next
      else s.await (.copyId id)) := by
  unfold execCpwait
  rw [State.unlessCancelled_live hc, State.heldWord_idle hp]
  unfold State.cpwait
  rw [Strand.wokenHere_none hw]

section
variable (hi : s.me.is s.pins.port s.pins.addr = true) (hf : s.me.flows = true)
  {d a : SReg} (hk : s.me.wait = .copyId ((s.sreg a).extractLsb' 0 16)) (hx : s.wordHere = some (.cpwait d a))
include hi hf hk hx

theorem exec_cpwaitEnd (ho : s.outstanding ((s.sreg a).extractLsb' 0 16) = none) :
    exec .cpwaitEnd s = .next (((((s.orderLog (.copy ((s.sreg a).extractLsb' 0 16))).setSreg d
      (cpStatus ((s.sreg a).extractLsb' 0 16) true CpDone.none)).next).noteStep s.me.seq)) := by
  have awaited : s.me.copyWait = some ((s.sreg a).extractLsb' 0 16) := by unfold Strand.copyWait; rw [hk]
  refine congrArg _ (State.atStrand_here hi ?_ ?_ (State.noteStep_me_is ?_ _))
  · simp [hf, awaited]
  · rw [hx, awaited]
    dsimp only [Option.getD_some]
    rw [if_pos (by simp [ho]), execCpwait_again hp hc hw]
    exact congrArg (State.noteStep s.me.seq) (if_pos (by simp [ho]))
  · rw [State.answered_is, State.orderLog_me]
    exact Strand.is_self hi

theorem exec_cpwaitTimeout {x : Xfer} (ho : s.outstanding ((s.sreg a).extractLsb' 0 16) = some x) (ht : s.me.ch.wtimeo ≠ 0)
    (hl : 1024 * s.me.ch.wtimeo.toNat ≤ s.now - s.me.since) :
    exec .cpwaitTimeout s = .next (((s.setSreg d (cpStatus ((s.sreg a).extractLsb' 0 16) false CpDone.none)).next).noteStep s.me.seq) := by
  have awaited : s.me.copyWait = some ((s.sreg a).extractLsb' 0 16) := by unfold Strand.copyWait; rw [hk]
  have late := State.timedOut_of hk ht hl
  refine congrArg _ (State.atStrand_here hi ?_ ?_ (State.noteStep_me_is ?_ _))
  · simp [hf, awaited]
  · rw [hx, awaited]
    dsimp only [Option.getD_some]
    rw [if_pos late, execCpwait_again hp hc hw]
    exact congrArg (State.noteStep s.me.seq) ((if_neg (by simp [ho])).trans (if_pos late))
  · rw [State.answered_is]
    exact Strand.is_self hi

end

end

/-! ### The statement -/

/-- Settles O56, event by event, from the law of each event of the strand whose turn it is. -/
theorem strandEvents : Obligations.StrandEvents := by
  intro s p k mine flows
  refine ⟨?lanes, ?fifo, ?starts, ?retires, ?released, ?squash, ?deadline, ?qdead, ?line, ?replay, ?trap, ?post, ?async, ?copier,
    ?stale, ?cntwait, ?waita, ?cpwait⟩
  case lanes => exact fun hi hf c hc hv hs ht => exec_laneRenegotiation hi hf hc hv hs ht
  case fifo =>
    exact fun hq hf hc => ⟨fun hw ht => exec_laneFifoService hq hf hc (State.serveMine_strip hw) ht,
      fun w vl hw hx ht => exec_laneFifoService hq hf hc (State.serveMine_setvl hw hx) ht⟩
  case starts => exact fun hi hf c hc hv hs hd hb hn ht => exec_convoyStart hi hf hc hv hs hd hb hn ht
  case retires => exact fun hi hf hs ht => exec_convoyRetire hi hf hs ht
  case released => exact fun hi hf n snap pc h w l hp hw hq u hd ht => exec_heldOperationRelease hi hf hp hw hq hd ht
  case squash =>
    intro begun hi hq hm
    refine ⟨fun hs ho => exec_squash hi hq hm ?_ (Strand.is_self hi), fun hs ho hl ht => exec_squash hi hq hm ?_ ht,
      fun hs hl ht => exec_squash hi hq hm ?_ ht⟩
    · rw [State.squash_eq]
      exact if_neg (by simp [p, ho, hs])
    · rw [State.squash_eq]
      exact (if_pos (by simp [p, ho])).trans (State.squashTurn_started hs hl)
    · rw [State.squash_eq]
      exact (if_pos (by simp [hs])).trans (State.squashTurn_idle hs hl)
  case deadline => exact fun hi t hq hn hl ht => exec_squashDeadline hi hq hn hl ht
  case qdead => exact fun hi hf hv hp hq hn q hw he => exec_qdeadTimeout hi hf hv hp hq hn hw he
  case line => exact fun hi hu ha hp hl hc ht => exec_registerLineFill hi hu ha hp hl hc ht
  case replay => exact exec_replayRelease
  case trap => exact fun hi hf hp st hs => exec_trapTaken hi hf hp hs
  case post => exact fun r l hr hv hq => exec_faultRecordPost hr hv hq
  case async => exact fun hi hf w l ha hc hp ht hr hm => exec_asyncfaultDelivery hi hf ha hc hp ht hr hm
  case copier =>
    refine ⟨fun hi hm ha hs => ⟨fun ho ht => exec_contextSave_done hi hm ha hs.1 hs.2 ho ht,
      fun ho hw => exec_contextSave_fails hi hm ha hs.1 hs.2 ho hw⟩, fun h hh hs ha => exec_cuShareSave hh hs.1 hs.2 ha,
      fun x m hx hm hc => exec_divertedLanding hx hm hc, fun hi hm ha hk => ⟨fun hs hb ht => exec_restore_unmutes hi hm ha hk hs hb ht,
      fun l hs hl hr hn hp hb hg ht => exec_restore_saved hi hm ha hk hs hl hr hn.1 hn.2 hp hb hg ht⟩⟩
  case stale => exact fun w hw h => exec_requestAtTarget hw h
  case cntwait =>
    exact fun hi hf d a b c hx hk hp hc hw hn hv => ⟨fun hr => exec_cntwaitWake hp hc hw hn hi hf hk hx hv hr,
      fun hr ht hl => exec_cntwaitTimeout hp hc hw hn hi hf hk hx hv hr ht hl⟩
  case waita =>
    exact fun hi hf t d m off b u y l hx hk hp hc hw hr => ⟨fun hv hb ht => exec_waitaWake hp hc hw hr hb hi hf hk hx hv ht,
      fun hv hb hs hu ht => exec_waitaTimeout hp hc hw hr hb hi hf hk hx hv hs hu ht⟩
  case cpwait =>
    exact fun hi hf d a hx hk hp hc hw => ⟨fun ho => exec_cpwaitEnd hp hc hw hi hf hk hx ho,
      fun x ho ht hl => exec_cpwaitTimeout hp hc hw hi hf hk hx ho ht hl⟩

end Sys2Proof.Machine
end

section
/-! PROOFS. Branches, jumps and links, with the traps of their targets (spec 13, R90, R271). -/

namespace Sys2Proof.Machine

theorem State.branch_untaken (s : State) (disp : BitVec 32) : s.branch false disp = s.next := rfl
theorem State.branch_taken (s : State) (disp : BitVec 32) :
    s.branch true disp = s.transfer (s.me.ch.pc + 8 * disp.signExtend 64) fun u => u.jump (s.me.ch.pc + 8 * disp.signExtend 64) := rfl

section
variable {s : State} {t : Word} {f : State → State}

theorem State.transfer_outside (h : s.insideConvoy t = false) : s.transfer t f = f s := by
  simp [State.transfer, h]

theorem State.transfer_inside (h : s.insideConvoy t = true) : s.transfer t f = s.raise (stopAt s.me.ch.pc .badtarget t) :=
  if_pos h

theorem State.jumpReg_aligned (h : t.extractLsb' 0 3 = 0) : s.jumpReg t f = s.transfer t f :=
  if_neg (not_not_intro h)

theorem State.jumpReg_misaligned (h : t.extractLsb' 0 3 ≠ 0) :
    s.jumpReg t f = s.raise (stopAt s.me.ch.pc .align (slotInfo 0 t.toInt)) :=
  if_pos h

end

/-- The six conditional branches are `State.branch` on their conditions. -/
theorem exec_branches {f : (SReg → SReg → BitVec 32 → Instr) × (Word → Word → Prop)} (hf : f ∈ Claims.branches)
    (a b : SReg) (disp : BitVec 32) (s : State) :
    ∃ taken : Bool, exec (f.1 a b disp) s = .next (s.branch taken disp) ∧ (taken = true ↔ f.2 (s.sreg a) (s.sreg b)) := by
  simp only [Claims.branches, List.mem_cons, List.not_mem_nil, or_false] at hf
  obtain rfl | rfl | rfl | rfl | rfl | rfl := hf
  · exact ⟨_, rfl, beq_iff_eq⟩
  · exact ⟨_, rfl, bne_iff_ne⟩
  · exact ⟨_, rfl, BitVec.slt_iff_toInt_lt⟩
  · exact ⟨_, rfl, by simp [BitVec.slt]⟩
  · exact ⟨_, rfl, by simp [BitVec.ult]⟩
  · exact ⟨_, rfl, by simp [BitVec.ult]⟩

theorem conditionalBranches : Claims.ConditionalBranches := by
  intro f hf a b disp s
  obtain ⟨taken, he, ht⟩ := exec_branches hf a b disp s
  refine ⟨fun hn => ?_, fun hc ho => ?_, fun hc hi => ?_⟩
  · rw [he, Bool.eq_false_iff.2 (mt ht.1 hn), State.branch_untaken]
  · rw [he, ht.2 hc, State.branch_taken, State.transfer_outside ho]
  · rw [he, ht.2 hc, State.branch_taken, State.transfer_inside hi]

theorem exec_j (disp : BitVec 32) (s : State) : exec (.j disp) s =
    .next (s.transfer (s.me.ch.pc + 8 * disp.signExtend 64) fun u => u.jump (s.me.ch.pc + 8 * disp.signExtend 64)) := rfl

theorem exec_jal (d : SReg) (disp : BitVec 32) (s : State) : exec (.jal d disp) s =
    .next (s.transfer (s.me.ch.pc + 8 * disp.signExtend 64) fun u =>
      (u.setSreg d (s.me.ch.pc + 8)).jump (s.me.ch.pc + 8 * disp.signExtend 64)) := rfl

theorem exec_jr (a : SReg) (s : State) : exec (.jr a) s = .next (s.jumpReg (s.sreg a) fun u => u.jump (s.sreg a)) := rfl

theorem exec_jalr (d a : SReg) (s : State) : exec (.jalr d a) s =
    .next (s.jumpReg (s.sreg a) fun u => (u.setSreg d (s.me.ch.pc + 8)).jump (s.sreg a)) := rfl

theorem jumps : Claims.Jumps := by
  intro d a disp s
  simp only [exec_j, exec_jal, exec_jr, exec_jalr]
  refine ⟨fun ho => ?_, fun ho hr => ?_, fun hi => ?_, fun hi hr => ?_, fun hr => ?_⟩
  · simp only [State.transfer_outside ho, and_self]
  · simp only [State.jumpReg_aligned hr, State.transfer_outside ho, and_self]
  · simp only [State.transfer_inside hi, and_self]
  · simp only [State.jumpReg_aligned hr, State.transfer_inside hi, and_self]
  · simp only [State.jumpReg_misaligned hr, and_self]

/-- Settles O13: the words of R271, each through the transfer to its target. -/
theorem branchWords : Obligations.BranchWords := ⟨conditionalBranches, jumps⟩

end Sys2Proof.Machine
end

section
/-! PROOFS. The scalar queue moves (spec 05, spec 13, R94, R286). -/

namespace Sys2Proof.Machine

/-- With nothing pending and no trap held, the vector stream at most forgets the record that a rollback would need. -/
theorem State.drain_of_pend_nil {s : State} (hp : s.me.pend = []) (ht : s.me.trap = none) :
    ∃ e p, s.drain = s.onMe fun k => { k with early := e, pops := p } := by
  unfold State.drain
  split
  · exact ⟨s.me.early, s.me.pops, rfl⟩
  · exact ⟨[], [], by simp [State.drainFor, Strand.settle, hp, ht, State.onMe]⟩

@[simp] theorem Strand.toQ_setToQ_self (k : Strand) (q : QNum) (l : List QEntry) : (k.setToQ q l).toQ q = l := by
  simp [Strand.toQ, Strand.setToQ]

theorem Strand.toQ_setToQ_other (k : Strand) {q r : QNum} (h : r ≠ q) (l : List QEntry) : (k.setToQ q l).toQ r = k.toQ r :=
  Vector.getElem_set_ne q.isLt r.isLt fun e => h (BitVec.eq_of_toNat_eq e.symm)

@[simp] theorem Strand.fromQ_setFromQ_self (k : Strand) (q : QNum) (l : List QEntry) : (k.setFromQ q l).fromQ q = l := by
  simp [Strand.fromQ, Strand.setFromQ]

theorem Strand.fromQ_setFromQ_other (k : Strand) {q r : QNum} (h : r ≠ q) (l : List QEntry) :
    (k.setFromQ q l).fromQ r = k.fromQ r :=
  Vector.getElem_set_ne q.isLt r.isLt fun e => h (BitVec.eq_of_toNat_eq e.symm)

section
variable {s : State} (hp : s.me.pend = []) (ht : s.me.trap = none)
include hp ht

/-- QPUSH with room and no SKIP. -/
theorem exec_qpush {q : QNum} (a : SReg) (hs : s.me.skipOf q = 0) (hr : (s.me.toQ q).length < 16) :
    ∃ e p, exec (.qpush q a) s = .next ((s.onMe fun k => k.setToQ q (k.toQ q ++ [⟨s.sreg a, k.seq⟩])).next.onMe
      fun k => { k with early := e, pops := p }) := by
  have fits : s.me.pushFits q = true := by simp [Strand.pushFits, queueRoom, hr]
  have push : s.me.push q (s.sreg a) = s.me.setToQ q (s.me.toQ q ++ [⟨s.sreg a, s.me.seq⟩]) := if_pos hs
  obtain ⟨e, p, hd⟩ := State.drain_of_pend_nil (s := (s.onMe fun k => k.setToQ q (k.toQ q ++ [⟨s.sreg a, k.seq⟩])).next) hp ht
  refine ⟨e, p, ?_⟩
  rw [← hd]
  show execQpush q a s = _
  simp only [execQpush, fits, if_true, State.onMe, push]

/-- QPOP of a queue that has an entry. -/
theorem exec_qpop {q : QNum} (d : SReg) {e : QEntry} {l : List QEntry} (hq : s.me.fromQ q = e :: l) :
    ∃ y p, exec (.qpop d q) s = .next (((s.onMe fun k => k.setFromQ q l).setSreg d e.val).next.onMe
      fun k => { k with early := y, pops := p }) := by
  obtain ⟨y, p, hd⟩ := State.drain_of_pend_nil (s := ((s.onMe fun k => k.popped q e l).setSreg d e.val).next) hp ht
  refine ⟨y, p, ?_⟩
  show execQpop d q s = _
  simp only [execQpop, hq, hd]
  rfl

end

/-- Settles O23: the word moves its entry, and a vector stream with nothing pending changes no queue after it. -/
theorem queueMoves : Obligations.QueueMoves := by
  intro s hp ht
  refine ⟨fun q a hs hr => ?_, fun q d e l hq => ?_⟩
  · obtain ⟨y, p, he⟩ := exec_qpush hp ht a hs hr
    exact ⟨_, he, Strand.toQ_setToQ_self _ _ _, rfl, rfl, fun r h => Strand.toQ_setToQ_other _ h _, rfl⟩
  · obtain ⟨y, p, he⟩ := exec_qpop hp ht d hq
    exact ⟨_, he, Strand.fromQ_setFromQ_self _ _ _, rfl, rfl, fun r h => Strand.fromQ_setFromQ_other _ h _, rfl⟩

end Sys2Proof.Machine
end

section
/-! PROOFS. A chained word joins the convoy that is forming, or traps at its head (spec 05, R85, R89, R90). -/

namespace Sys2Proof.Machine

/-- A chained word goes to the chanter with its scalar operands captured (R85). -/
theorem exec_chained {i : Instr} (h : Claims.chained i = true) (s : State) : ∃ (op : VOp) (gov : MReg) (a b : SReg),
    exec i s = .next (s.takeVector (Claims.chained i) (s.vword i op gov a b)) ∧ op.indexed = Claims.indexed i := by
  cases i with
  | vadd c | vsub c | vmul c | vmulh c | vmin c | vmax c | vand c | vor c | vxor c | vshl c | vshr c | vsra c | vsadd c
  | vssub c | vabs c | vfadd c | vfsub c | vfmul c | vfdiv c | vfsqrt c | vfma c | vfms c | vfnma c | vfmin c | vfmax c
  | vfabs c | vfneg c | vfrsqe c | vfrcpe c | vfexp2 c | vflog2 c | vcmp c | vfcmp c | vfclass c | mand c | mor c | mxor c
  | mandn c | mnot c | mmov c | mpopc c | mfirst c | mpush c | minv c | mpop c | mtop c | vcompress c | viota c | vperm c
  | vslideup c | vslidedn c | vbcast c | vextr c | vins c | vmerge c | vmov c | vredsum c | vredmin c | vredmax c
  | vfredsum c | vfredmin c | vfredmax c | vcvt c | vfcvt c | vresenc c | vresdec c | vresmac c | vresadd c | vresmul c
  | mopa c | mops c | mzero c | mmerge c | mrow c | mwrow c | mfold c | mcvt c =>
    cases c with
    | true => exact ⟨_, _, _, _, rfl, rfl⟩
    | false => nomatch h
  | vld | vlds | vldx | vldff | vldsc | vst | vsts | vstx | vamo | mldt | mstt => exact ⟨_, _, _, _, rfl, rfl⟩
  | _ => nomatch h

/-- The convoy that is forming takes a word, and the chanter goes on to the next one. -/
def State.chain (s : State) (x : VWord) : State :=
  s.onMe fun k => { k with
    forming := k.forming ++ [x], formPc := k.headPc, formSnap := k.headSnap, ch := { k.ch with pc := k.ch.pc + 8 }, wait := .none }

/-- What the rules of R90 forbid a word with chain bit 1: a fourth place, a third memory word, an indexed access; and a
loop that ends at the word (R274, log entry 76). -/
def State.unchainable (s : State) (x : VWord) : Prop :=
  3 ≤ s.me.forming.length ∨ 2 < ((s.me.forming ++ [x]).filter fun y => y.op.memory).length ∨ x.op.indexed = true ∨
    s.me.ch.loops.endingAt (s.me.ch.pc + 8) ≠ []

theorem State.takeVector_chained (s : State) (x : VWord) [Decidable (s.unchainable x)] : s.takeVector true x =
    if s.unchainable x then s.raise (stopAt s.me.headPc .convoy x.word) else s.chain x := by
  simp only [State.takeVector, ← ite_or]
  refine if_congr (or_congr ?_ (or_congr Iff.rfl (or_congr Iff.rfl ?_))) rfl rfl
  · simp; omega
  · simp

theorem length_filter_append_singleton_le {α : Type} (p : α → Bool) (l : List α) (x : α) :
    ((l ++ [x]).filter p).length ≤ (l.filter p).length + 1 := by
  rw [List.filter_append, List.length_append]
  exact Nat.add_le_add_left (List.length_filter_le _ [x]) _

/-- Settles O41: `State.unchainable` decides between the convoy and the trap. -/
theorem convoyForms : Obligations.ConvoyForms := by
  intro i s hc
  obtain ⟨op, gov, a, b, he, ho⟩ := exec_chained hc s
  classical
  rw [he, hc, State.takeVector_chained]
  refine ⟨fun hi hn hm hl => ⟨s.vword i op gov a b, rfl, congrArg _ (if_neg ?_)⟩,
    fun h => congrArg _ (if_pos (h.imp_right fun h => .inr (h.imp_left ho.trans)))⟩
  have few := length_filter_append_singleton_le (fun y => y.op.memory) s.me.forming (s.vword i op gov a b)
  rintro (four | third | indexed | loopEnd)
  · omega
  · omega
  · exact absurd (indexed.symm.trans (ho.trans hi)) (by decide)
  · exact loopEnd hl

end Sys2Proof.Machine
end

section
/-! PROOFS. Scalar accesses of the strand's share. -/

namespace Sys2Proof.Machine

/-! ### Cells of a share, and little-endian bytes -/

theorem cellsWrite_wf : ∀ (bs : List Byte) (l : List Host.Cell) (off : Nat), Memory.wf l = true →
    Memory.wf (cellsWrite l off bs) = true
  | [], _, _, h => h
  | b :: bs, _, off, h => cellsWrite_wf bs _ (off + 1) (Assoc.wf_put byteDefault b off h)

theorem get_cellsWrite_other {o : Nat} : ∀ (bs : List Byte) (l : List Host.Cell) (off : Nat), Memory.wf l = true →
    (o < off ∨ off + bs.length ≤ o) → Assoc.get byteDefault o (cellsWrite l off bs) = Assoc.get byteDefault o l
  | [], _, _, _, _ => rfl
  | b :: bs, l, off, h, ho => by
    simp only [List.length_cons] at ho
    have hne : o ≠ off := by omega
    calc Assoc.get byteDefault o (cellsWrite (Assoc.put byteDefault off b l) (off + 1) bs)
        = Assoc.get byteDefault o (Assoc.put byteDefault off b l) :=
          get_cellsWrite_other bs _ (off + 1) (Assoc.wf_put byteDefault b off h) (by omega)
      _ = Assoc.get byteDefault o l := Assoc.get_put_other byteDefault b hne h

theorem get_cellsWrite : ∀ (bs : List Byte) (l : List Host.Cell) (off : Nat), Memory.wf l = true →
    ∀ i, (hi : i < bs.length) → Assoc.get byteDefault (off + i) (cellsWrite l off bs) = bs[i]
  | b :: bs, l, off, h, 0, _ => by
    have hput := Assoc.wf_put byteDefault b off h
    simpa [cellsWrite, get_cellsWrite_other bs _ (off + 1) hput (Or.inl (Nat.lt_succ_self off))] using
      Assoc.get_put_self byteDefault b off h
  | b :: bs, l, off, h, i + 1, hi => by
    have hput := Assoc.wf_put byteDefault b off h
    have ih := get_cellsWrite bs (Assoc.put byteDefault off b l) (off + 1) hput i (by simpa using hi)
    rw [show off + (i + 1) = off + 1 + i by omega]
    simpa [cellsWrite] using ih

/-- Byte i of the little-endian bytes of a number. -/
theorem getElem_leBytes : ∀ (n v i : Nat) (h : i < (leBytes n v).length), (leBytes n v)[i] = BitVec.ofNat 8 (v / 256 ^ i)
  | n + 1, v, 0, _ => by simp [leBytes]
  | n + 1, v, i + 1, h => by
    have ih := getElem_leBytes n (v / 256) i (by simpa [leBytes] using h)
    simp only [leBytes, List.getElem_cons_succ, ih, Nat.div_div_eq_div_mul, Nat.pow_succ, Nat.mul_comm]

/-! ### References, watches and checks without a descriptor -/

/-- The SL form of a memory operand: the whole register is the offset (R102). -/
theorem refOf_slot {sl : BitVec 8} (h : sl ≠ 255) (a : Word) (disp : Int) : refOf sl a disp = ⟨sl.toNat, true, a.toInt + disp⟩ :=
  if_neg h

theorem State.watched_of_off {s : State} (h : s.me.dbgctl.getLsbD 2 = false) (rt : Rights) (slot : Nat) (off : Int) (n : Nat) :
    s.watched rt slot off n = false := by
  unfold State.watched; simp only [h, Bool.false_and]

/-- An access of the chanter changes only which stores a later access of the strip may fall below. -/
theorem State.chanterSees_eq (s : State) (r : Ref) (n : Nat) (fmt : Bool) :
    ∃ l, s.chanterSees r n fmt = s.onMe fun m => { m with older := l } := by
  unfold State.chanterSees
  split
  · exact ⟨s.me.older, rfl⟩
  · exact ⟨_, rfl⟩

/-- The descriptor of slot 254, which has none (R105). -/
def shareDesc : Desc := ⟨254, 0, 0, 0, 0, false⟩

/-- The check of an access of the share is alignment, then bounds, then the watch (R106 steps 7 and 8). -/
theorem State.probe_share (s : State) {rt : Rights} (hx : rt.ex = false) (off : Int) (n : Nat) (vec sup : Bool) :
    s.probe rt ⟨254, true, off⟩ n false vec sup =
      if off % n ≠ 0 then .fault s (hitOf .align ⟨254, true, off⟩ shareDesc false)
      else if off < 0 ∨ 1024 * s.me.strshare < off + n then .fault s (hitOf .bounds ⟨254, true, off⟩ shareDesc false)
      else if !sup && s.watched rt 254 off n then .fault s (hitOf .watch ⟨254, true, off⟩ shareDesc false)
      else .ok s (.share off.toNat, shareDesc) := by
  have hr : s.route s.me.vd (s.me.strshare, s.me.cushare) rt ⟨254, true, off⟩ shareDesc n false =
      if off % n ≠ 0 then .fault .align
      else if off < 0 ∨ 1024 * s.me.strshare < off + n then .fault .bounds
      else .ok (.share off.toNat) := by
    simp [State.route, hx, Int.mul_comm]
  have hd : s.descFor 254 = (s, shareDesc) := rfl
  unfold State.probe
  simp only [State.descWaits, hd, hr]
  split_ifs <;> simp_all [byteOff]

/-- With nothing older pending a chanter load waits for nothing. -/
theorem State.loadWaits_of_pend_nil {s : State} (h : s.me.pend = []) (r : Ref) (n : Nat) (fmt : Bool) :
    s.loadWaits r n fmt = false := by
  unfold State.loadWaits; simp only [h, List.isEmpty_nil, Bool.not_true, Bool.false_and]

/-- With nothing older pending a store takes effect at once. -/
theorem State.holdStore_of_pend_nil {s : State} (hp : s.me.pend = []) (r : Ref) (n : Nat) (fmt : Bool) (v : Word) (ch sc : BitVec 2)
    (word : Word) (sup : Bool) :
    s.hold (.store r n fmt v ch sc false) word sup = match s.store r n fmt false sup ch v.toNat with
      | .ok u _ => (u.chanterSees r n fmt).next
      | .fault u h => u.faultHere h
      | .wait u => (s.keepWait u).await .replay := by
  unfold State.hold State.holdWith
  rw [hp, List.isEmpty_nil, if_pos rfl]
  simp only [State.doHeld, State.doStore, Bool.false_eq_true, if_false, Ans.then]
  cases s.store r n fmt false sup ch v.toNat <;> rfl

/-! ### The words -/

theorem exec_ld_bytes (d : SReg) (m : Addr) (ch : BitVec 2) (t : MemTy) (o : BitVec 16) (s : State) :
    exec (.ld d m ch (.bytes t o)) s =
      .next (s.scalarLoad d (refOf m.sl (s.sreg m.a) o.toInt) (memBytes t) false ch fun _ b => memWiden t (ofLe b)) := by rfl

theorem exec_st_bytes (d : SReg) (m : Addr) (ch : BitVec 2) (t : MemTy) (o : BitVec 16) (s : State) :
    exec (.st d m ch (.bytes t o)) s =
      .next (s.hold (.store (refOf m.sl (s.sreg m.a) o.toInt) (memBytes t) false (s.sreg d) ch m.sc false)
        (wordOf (.st d m ch (.bytes t o))) s.supWatch) := by rfl

/-- LD and ST with nothing older pending, whose check faults, stop with the fault. -/
theorem State.scalarLoad_fault {s : State} (hp : s.me.pend = []) {r : Ref} {n : Nat} {x : Hit}
    (h : s.probe rdOnly r n false false s.supWatch = .fault s x) (d : SReg) (ch : BitVec 2) (wide : Desc → List Byte → Word) :
    s.scalarLoad d r n false ch wide = s.faultHere x := by
  simp [State.scalarLoad, State.loadWith, State.loadWaits_of_pend_nil hp, State.load, h]

theorem State.holdStore_fault {s : State} (hp : s.me.pend = []) {r : Ref} {n : Nat} {x : Hit}
    (h : s.probe wrOnly r n false false s.supWatch = .fault s x) (v : Word) (ch sc : BitVec 2) (word : Word) :
    s.hold (.store r n false v ch sc false) word s.supWatch = s.faultHere x := by
  simp [State.holdStore_of_pend_nil hp, State.store, State.storeWith, h]

theorem shareFaults : Claims.ShareFaults := by
  intro t d a sc ch off s at' fault hp
  have stops : ∀ c, (∀ rt : Rights, rt.ex = false → s.probe rt ⟨254, true, at'⟩ (memBytes t) false false s.supWatch =
        .fault s (hitOf c ⟨254, true, at'⟩ shareDesc false)) →
      exec (.ld d ⟨sc, 254, a⟩ ch (.bytes t off)) s = .next (fault c) ∧
      exec (.st d ⟨sc, 254, a⟩ ch (.bytes t off)) s = .next (fault c) := fun c h =>
    ⟨(exec_ld_bytes ..).trans (congrArg _ (State.scalarLoad_fault hp (h rdOnly rfl) ..)),
      (exec_st_bytes ..).trans (congrArg _ (State.holdStore_fault hp (h wrOnly rfl) ..))⟩
  refine ⟨fun h => stops .align fun rt hx => ?_, fun h ho => stops .bounds fun rt hx => ?_⟩
  · rw [State.probe_share s hx, if_pos h]
  · rw [State.probe_share s hx, if_neg (by simpa using h), if_pos ho]

section Inside
variable {t : MemTy} {s : State} {off : Int} (hw : s.me.dbgctl.getLsbD 2 = false) (h0 : 0 ≤ off)
  (h1 : off + memBytes t ≤ 1024 * s.me.strshare) (ha : off % memBytes t = 0)
include hw h0 h1 ha

/-- An aligned access inside the share, unwatched, passes its checks. -/
theorem State.probe_share_inside {rt : Rights} (hx : rt.ex = false) (vec sup : Bool) :
    s.probe rt ⟨254, true, off⟩ (memBytes t) false vec sup = .ok s (.share off.toNat, shareDesc) := by
  rw [State.probe_share s hx, if_neg (by simpa using ha), if_neg (by omega), State.watched_of_off hw, Bool.and_false, if_neg (by decide)]

theorem State.load_share (vec sup : Bool) (ch : BitVec 2) :
    s.load ⟨254, true, off⟩ (memBytes t) false vec sup ch =
      .ok s (cellsRead s.me.share off.toNat (memBytes t), shareDesc) := by
  unfold State.load; rw [State.probe_share_inside hw h0 h1 ha rfl]; rfl

theorem State.store_share (vec sup : Bool) (ch : BitVec 2) (v : Nat) :
    s.store ⟨254, true, off⟩ (memBytes t) false vec sup ch v =
      .ok (s.writeLoc (.share off.toNat) 0 (leBytes (memBytes t) v)) (false, .share off.toNat) := by
  unfold State.store State.storeWith; rw [State.probe_share_inside hw h0 h1 ha rfl]; rfl

end Inside

theorem shareLoads : Claims.ShareLoads := by
  intro t d a sc ch off s at' hp hw h0 h1 ha
  refine (exec_ld_bytes ..).trans (congrArg _ ?_)
  have hl := State.load_share hw h0 h1 ha false s.supWatch ch
  have hr : refOf 254 (s.sreg a) off.toInt = ⟨254, true, at'⟩ := refOf_slot (by decide) _ _
  unfold State.scalarLoad State.loadWith
  rw [hr, State.loadWaits_of_pend_nil hp, hl]
  rfl

/-- ST of the share inside it, with nothing older pending: the bytes of the share, and what later accesses may fall below. -/
theorem exec_st_share {t : MemTy} {s : State} {a : SReg} {off : BitVec 16} (hp : s.me.pend = [])
    (hw : s.me.dbgctl.getLsbD 2 = false) (h0 : 0 ≤ (s.sreg a).toInt + off.toInt)
    (h1 : (s.sreg a).toInt + off.toInt + memBytes t ≤ 1024 * s.me.strshare) (ha : ((s.sreg a).toInt + off.toInt) % memBytes t = 0)
    (d : SReg) (sc ch : BitVec 2) :
    ∃ l, exec (.st d ⟨sc, 254, a⟩ ch (.bytes t off)) s =
      .next (((s.writeLoc (.share ((s.sreg a).toInt + off.toInt).toNat) 0 (leBytes (memBytes t) (s.sreg d).toNat)).onMe
        fun m => { m with older := l }).next) := by
  obtain ⟨l, hl⟩ := (s.writeLoc (.share ((s.sreg a).toInt + off.toInt).toNat) 0 (leBytes (memBytes t) (s.sreg d).toNat)).chanterSees_eq
    ⟨254, true, (s.sreg a).toInt + off.toInt⟩ (memBytes t) false
  refine ⟨l, (exec_st_bytes ..).trans (congrArg _ ?_)⟩
  have hr : refOf 254 (s.sreg a) off.toInt = ⟨254, true, (s.sreg a).toInt + off.toInt⟩ := refOf_slot (by decide) _ _
  rw [← hl, hr, State.holdStore_of_pend_nil hp]
  simp only [State.store_share hw h0 h1 ha]

theorem shareStores : Claims.ShareStores := by
  intro t d a sc ch off s at' hp hw h0 h1 ha hwf
  obtain ⟨l, hl⟩ := exec_st_share hp hw h0 h1 ha d sc ch
  refine ⟨_, hl, rfl, fun _ => rfl, fun i hi => ?_, fun o ho => ?_⟩
  · have hlen : i < (leBytes (memBytes t) (s.sreg d).toNat).length := by simpa using hi
    exact (get_cellsWrite _ _ _ hwf i hlen).trans (getElem_leBytes _ _ _ _)
  · exact get_cellsWrite_other _ _ _ hwf (by simpa using ho)

/-- Settles O27: the check of the share, which needs no descriptor, then the cells it names. -/
theorem shareAccesses : Obligations.ShareAccesses := ⟨shareLoads, shareStores, shareFaults⟩

end Sys2Proof.Machine
end

section
/-! PROOFS. A vector word that meets an overfull result queue (spec 05, R87, R94). -/

namespace Sys2Proof.Machine

/-- A lone word that pushes nothing and takes nothing still waits where a result queue holds more than it has room for. -/
theorem blocks_lonePushed {s : State} {x : VWord} {q : QNum} (h : s.lone) (hx : x.op.plain = true) (ht : x.op.takes = none)
    (hl : lacksRoom [x] s.me = some q) :
    (s.lonePushed x).me.blocks { s.loneConvoy x [] with started := false } = some (.room q) := by
  obtain ⟨-, -, -, -, -, -, -, -, hab, hg, -, -⟩ := h
  let c : Convoy := { s.loneConvoy x [] with started := false }
  have hset : c.isSetvl = false := by
    cases hop : x.op <;> simp [c, Convoy.isSetvl, State.loneConvoy, hop, VOp.plain] at hx ⊢
  have hlacks : (s.lonePushed x).me.lacks c = false := by
    simp [Strand.lacks, State.lonePushed, Convoy.running, State.loneConvoy, c, hab]
  have htake : takeEntries c.running (s.lonePushed x).me.toVec = .ok ([], s.me.toVec) := by
    show takeEntries [x] s.me.toVec = _
    simp [takeEntries, ht]
  have hroom : lacksRoom c.running (s.lonePushed x).me = some q := hl
  have hlanes : (!c.isSetvl && decide (c.vl ≠ 0) && decide ((s.lonePushed x).me.grant = 0)) = false := by
    show (!c.isSetvl && decide (s.me.ch.vl ≠ 0) && decide (s.me.grant = 0)) = false
    rcases hg with hg | hg
    · have : ¬ s.me.grant = 0#32 := hg
      simp [this]
    · simp [hg]
  show (s.lonePushed x).me.blocks c = _
  unfold Strand.blocks
  simp only [hlacks, htake, hroom, Option.map_some]
  simpa using hlanes

/-- Its convoy stays pushed, and nothing of it takes effect. -/
theorem takeVector_blocked {s : State} {x : VWord} {q : QNum} (h : s.lone) (hx : x.op.plain = true) (ht : x.op.takes = none)
    (hl : lacksRoom [x] s.me = some q) :
    (s.takeVector false x).me.pend ≠ [] ∧ (s.takeVector false x).me.file = s.me.file := by
  have hblock := blocks_lonePushed h hx ht hl
  rw [takeVector_pushed h]
  obtain ⟨hp, -, -, -, -, -, -, -, -, -, hb, hq⟩ := h
  have hquiet := State.lonePushed_quiet (x := x) hp hq
  have hbrk : (!s.me.skipBrk && (s.lonePushed x).brkAt s.me.ch.pc) = false := by
    rcases hb with hb | hb
    · simp [hb]
    · have : (s.lonePushed x).brkAt s.me.ch.pc = s.brkAt s.me.ch.pc := rfl
      simp [this, hb]
  have hpend : (s.lonePushed x).me.pend = [⟨s.me.seq, s.me.ch, .convoy { s.loneConvoy x [] with started := false }⟩] := rfl
  obtain ⟨w, hturn⟩ : ∃ w, (s.lonePushed x).vecTurn = (s.lonePushed x).onMe fun k => { k with vwait := w } := by
    refine ⟨some (s.me.vwait.getD (s.now, (s.lonePushed x).me.ch.qtimeo)), ?_⟩
    unfold State.vecTurn
    dsimp only
    rw [State.quiet_held hquiet, State.quiet_retry hquiet, hpend]
    simp only [Bool.false_eq_true, if_false]
    rw [hblock]
    simp only [State.loneConvoy] at hbrk ⊢
    simp only [Option.isNone_none, Bool.not_false, Bool.and_true, Bool.true_and, hbrk, Bool.false_eq_true, if_false]
    obtain ⟨op, gov, sA, sB, word⟩ := x
    cases op <;> first | rfl | (simp [VOp.plain] at hx)
  have hdrain : (s.lonePushed x).drainFor 2 = (s.lonePushed x).onMe fun k => { k with vwait := w } := by
    simp only [State.drainFor, hpend, hturn]
    rfl
  rw [hdrain]
  exact ⟨by simp [hpend], rfl⟩

/-! ### States that meet the premises of O44, O59 and O60 -/

/-- The state with 17 entries in result queue 0, one more than it has room for (R94). -/
def State.overfull (s : State) : State :=
  s.onMe fun k => k.setFromQ 0 (List.replicate 17 ⟨0, 0⟩)

/-- A word that pushes nothing lacks room in an overfull state. -/
theorem lacksRoom_overfull (s : State) {x : VWord} (h : x.op.pushes = none) : lacksRoom [x] s.overfull.me = some 0 := by
  have h0 : 16 < (s.overfull.me.fromQ 0#2).length := by simp [State.overfull, Strand.fromQ, Strand.setFromQ]
  simp [lacksRoom, h, h0, queueRoom]

/-- In an overfull state a lone word without queue operands goes by and leaves its convoy pending and the registers as they were. -/
theorem exec_overfull {s u : State} {i : Instr} {x : VWord} (h : s.overfull.lone) (hx : x.op.plain = true) (ht : x.op.takes = none)
    (hp : x.op.pushes = none) (hi : exec i s.overfull = .next (s.overfull.takeVector false x)) (hu : exec i s.overfull = .next u) :
    u.me.pend ≠ [] ∧ u.me.file = s.overfull.me.file := by
  obtain rfl : s.overfull.takeVector false x = u := Host.Outcome.next.inj (hi.symm.trans hu)
  exact takeVector_blocked h hx ht (lacksRoom_overfull s hp)

/-- The governing mask m0, no chain, and no order (OE = 0). -/
def plainAcc : VAcc := ⟨false, 0, false, false⟩

theorem exec_vld_plain (d : VReg) (m : Addr) (ch : BitVec 2) (x : LdForm) (s : State) :
    exec (.vld plainAcc d m ch x) s =
      .next (s.takeVector false (s.vword (.vld plainAcc d m ch x) (.ld .unit plainAcc d m ch x) 0 m.a 0)) := by rfl

theorem exec_vldx_plain (d : VReg) (m : Addr) (ch : BitVec 2) (x : LdForm) (b : VReg) (s : State) :
    exec (.vldx plainAcc d m ch x b) s =
      .next (s.takeVector false (s.vword (.vldx plainAcc d m ch x b) (.ld (.index b) plainAcc d m ch x) 0 m.a 0)) := by rfl

theorem exec_vldsc_plain (d : VReg) (m : Addr) (ch : BitVec 2) (off : BitVec 14) (s : State) :
    exec (.vldsc plainAcc d m ch off) s =
      .next (s.takeVector false (s.vword (.vldsc plainAcc d m ch off) (.ldsc plainAcc d m ch off) 0 m.a 0)) := by rfl

/-- A strand after reset, with VL 0: it needs no lanes, and no element is active. -/
theorem lone_overfull_reset : State.reset.overfull.lone := by
  unfold State.lone; decide +kernel

theorem act_overfull_reset (k : MReg) (w e : Nat) : ¬ Claims.act State.reset.overfull k w e = true := by
  have h : State.reset.overfull.me.ch.vl = 0 := by decide +kernel
  simp [Claims.act, h]

/-- Refutes O44: a VLD of no element pushes nothing, yet with 17 entries in result queue 0 its convoy waits for room (R87), and
stays pending. The statement lacks the premise of O43 that no result queue holds more than 16 entries. -/
theorem not_shareVectorAccesses : ¬ Obligations.ShareVectorAccesses := by
  rintro ⟨hload, -⟩
  obtain ⟨hvld, -⟩ := hload plainAcc .i32 1 0 0 0 0 0 State.reset.overfull lone_overfull_reset rfl (by decide +kernel) (by decide +kernel)
  obtain ⟨g, u, hexec, hu, -⟩ := hvld fun e he => act_overfull_reset _ _ _ he |>.elim
  refine (exec_overfull lone_overfull_reset rfl rfl rfl (exec_vld_plain ..) hexec).1 ?_
  rw [hu]
  exact lone_overfull_reset.1

/-- Refutes O59: a VLDX of no element waits in the same way (R87, R94); the same premise is missing. -/
theorem not_shareIndexedAccesses : ¬ Obligations.ShareIndexedAccesses := by
  rintro ⟨hindexed, -, -⟩
  obtain ⟨hload, -⟩ := hindexed plainAcc 1 2 0 0 0 State.reset.overfull lone_overfull_reset rfl (by decide +kernel) (by decide +kernel)
    (by decide +kernel)
  obtain ⟨⟨g, u, hexec, hu, -⟩, -⟩ := hload .i32 0 fun e he => act_overfull_reset _ _ _ he |>.elim
  refine (exec_overfull lone_overfull_reset rfl rfl rfl (exec_vldx_plain ..) hexec).1 ?_
  rw [hu]
  exact lone_overfull_reset.1

/-! ### A scale load that waits -/

/-- Slot 0: blocks of 16 elements, the scales at its base 0x10000. -/
def scaleDesc : Desc := ⟨0, 0x10000, 0x10000, 0x2700000000000001, 0, false⟩

/-- Device 0 may read from 0x10000 on, where the first scale is 1; VL is 1 and v1 is 0. -/
def scaleState : State :=
  ((State.reset.setReg 0xF800000C0010 0x10000).setReg 0xF800000C0018 0x4000000000010000).setHomeBytes 0x10000 [1, 0] |>.onMe
    fun k => { k with dcache := [scaleDesc], grant := 1, ch := { k.ch with vl := 1 } }

theorem lone_scaleState : scaleState.overfull.lone := by
  unfold State.lone; decide +kernel

theorem slotReady_scaleState : Claims.slotReady scaleState.overfull 0 scaleDesc := by
  unfold Claims.slotReady; decide +kernel

/-- An answer that is the given one, by evaluation. -/
theorem Ans.eq_ok_of_check {α : Type} [DecidableEq α] {x : Ans α} {s : State} {a : α}
    (h : (match x with
      | .ok u b => decide (u = s) && decide (b = a)
      | _ => false) = true) : x = .ok s a := by
  cases x with
  | ok u b =>
    simp only [Bool.and_eq_true, decide_eq_true_eq] at h
    rw [h.1, h.2]
  | fault _ _ => simp at h
  | wait _ => simp at h

/-- The one active element's scale can be read at 0x10000. -/
theorem probe_scaleState :
    scaleState.overfull.probe rdOnly ⟨0, true, 0⟩ 2 false true false = .ok scaleState.overfull (.mem 0x10000, scaleDesc) :=
  Ans.eq_ok_of_check (by decide +kernel)

/-- Refutes O60: a VLDSC of one element waits in the same way (R87, R94), and its register keeps 0 where the scale is 1; the same
premise is missing. -/
theorem not_scaleAndMergeWords : ¬ Obligations.ScaleAndMergeWords := by
  rintro ⟨hscale, -⟩
  have hact : ∀ e, Claims.act scaleState.overfull plainAcc.gov 16 e = true → e = 0 := by
    intro e he
    have hvl : scaleState.overfull.me.ch.vl = 1 := by decide +kernel
    simp only [Claims.act, hvl, Bool.and_eq_true, decide_eq_true_eq] at he
    omega
  obtain ⟨u, hexec, -, -, hafter, -⟩ := hscale plainAcc 1 0 0 0 0 0 scaleState.overfull scaleDesc lone_scaleState rfl (by decide +kernel)
    slotReady_scaleState (by decide +kernel) (by decide +kernel) (by decide +kernel) (by decide +kernel)
    fun e he => by obtain rfl := hact e he; exact probe_scaleState
  have hfile := (exec_overfull lone_scaleState rfl rfl rfl (exec_vldsc_plain ..) hexec).2
  have hlane := hafter 0 (by decide)
  rw [hfile] at hlane
  have hold : Claims.lane 16 (scaleState.overfull.me.file.vreg 1) 0 = 0 := by decide +kernel
  have hon : Claims.act scaleState.overfull plainAcc.gov 16 0 = true := by decide +kernel
  simp only [hon, if_true] at hlane
  exact absurd (hold.symm.trans hlane) (by decide +kernel)

end Sys2Proof.Machine
end

section
/-! PROOFS. Bytes and bits of a cached line. -/

namespace Sys2Proof.Machine

theorem getLsbD_setElem (v : BitVec n) (e x i : Nat) (hi : i < n) :
    (setElem 8 v e x).getLsbD i = if 8 * e ≤ i ∧ i < 8 * e + 8 then x.testBit (i - 8 * e) else v.getLsbD i := by
  have hmask : ((2 ^ 8 - 1) * 2 ^ (8 * e)).testBit i = decide (8 * e ≤ i ∧ i < 8 * e + 8) := by
    rw [Nat.testBit_mul_two_pow, Nat.testBit_two_pow_sub_one]
    by_cases h : 8 * e ≤ i <;> simp [h]; omega
  have hbyte : ((x % 2 ^ 8) * 2 ^ (8 * e)).testBit i = (decide (8 * e ≤ i ∧ i < 8 * e + 8) && x.testBit (i - 8 * e)) := by
    rw [Nat.testBit_mul_two_pow, Nat.testBit_mod_two_pow]
    by_cases h : 8 * e ≤ i
    · simp only [h, decide_true, true_and, Bool.true_and]
      congr 1
      exact decide_eq_decide.2 (by omega)
    · simp [h]
  unfold setElem
  simp only [BitVec.getLsbD_or, BitVec.getLsbD_and, BitVec.getLsbD_not, BitVec.getLsbD_ofNat, hi, hmask, hbyte]
  by_cases h : 8 * e ≤ i ∧ i < 8 * e + 8 <;> simp [h]

/-- Byte j of a line after byte e is written. -/
theorem byte_setElem (v : BitVec 1024) (b : Byte) {e j : Nat} (hj : j < 128) :
    (setElem 8 v e b.toNat).extractLsb' (8 * j) 8 = if j = e then b else v.extractLsb' (8 * j) 8 := by
  ext i hi
  simp only [BitVec.getElem_extractLsb', getLsbD_setElem v e b.toNat (8 * j + i) (by omega)]
  by_cases h : j = e
  · subst h
    rw [if_pos (by omega), if_pos rfl, show 8 * j + i - 8 * j = i by omega]
    exact BitVec.getLsbD_eq_getElem hi
  · rw [if_neg (by omega), if_neg h, BitVec.getElem_extractLsb']

theorem getLsbD_setBit (m : BitVec n) (e : Nat) {i : Nat} (hi : i < n) :
    (setBit m e true).getLsbD i = (decide (i = e) || m.getLsbD i) := by
  simp only [setBit, if_true, BitVec.getLsbD_or, BitVec.getLsbD_ofNat, hi, Nat.testBit_two_pow, decide_true, Bool.true_and]
  rw [Bool.or_comm]
  congr 1
  exact decide_eq_decide.2 eq_comm

/-! ### Bytes put into a line -/

theorem WLine.put_line : ∀ (bs : List Byte) (l : WLine) (a : Nat), (l.put a bs).line = l.line
  | [], _, _ => rfl
  | _ :: bs, _, a => WLine.put_line bs _ (a + 1)

theorem L1Line.put_line : ∀ (bs : List Byte) (l : L1Line) (a : Nat), (l.put a bs).line = l.line
  | [], _, _ => rfl
  | _ :: bs, _, a => L1Line.put_line bs _ (a + 1)

theorem L1Line.put_pres : ∀ (bs : List Byte) (l : L1Line) (a : Nat), (l.put a bs).pres = l.pres
  | [], _, _ => rfl
  | _ :: bs, _, a => L1Line.put_pres bs _ (a + 1)

/-- The mask of a buffered line gains the bytes put. -/
theorem WLine.put_mask : ∀ (bs : List Byte) (l : WLine) (a : Nat) {j : Nat}, j < 128 → a % 128 + bs.length ≤ 128 →
    (l.put a bs).mask.getLsbD j = (decide (a % 128 ≤ j ∧ j < a % 128 + bs.length) || l.mask.getLsbD j)
  | [], l, a, j, hj, hl => by
    rw [decide_eq_false (by simp only [List.length_nil]; omega)]
    rfl
  | b :: bs, l, a, j, hj, hl => by
    simp only [List.length_cons] at hl
    cases bs with
    | nil =>
      simp only [WLine.put, getLsbD_setBit _ _ hj, List.length_cons, List.length_nil]
      congr 1
      exact decide_eq_decide.2 (by omega)
    | cons c cs =>
      simp only [List.length_cons] at hl
      have hnext : (a + 1) % 128 = a % 128 + 1 := by omega
      rw [WLine.put, WLine.put_mask (c :: cs) _ (a + 1) hj (by simp only [List.length_cons]; omega), getLsbD_setBit _ _ hj, hnext,
        ← Bool.or_assoc]
      congr 1
      rw [← Bool.decide_or]
      exact decide_eq_decide.2 (by simp only [List.length_cons]; omega)

/-- Bytes put into the data of a line: the buffer's and the L1's copies take them alike. -/
def putData (v : BitVec 1024) (a : Nat) : List Byte → BitVec 1024
  | [] => v
  | b :: bs => putData (setElem 8 v (a % 128) b.toNat) (a + 1) bs

theorem WLine.put_data : ∀ (bs : List Byte) (l : WLine) (a : Nat), (l.put a bs).data = putData l.data a bs
  | [], _, _ => rfl
  | _ :: bs, _, a => WLine.put_data bs _ (a + 1)

theorem L1Line.put_data : ∀ (bs : List Byte) (l : L1Line) (a : Nat), (l.put a bs).data = putData l.data a bs
  | [], _, _ => rfl
  | _ :: bs, _, a => L1Line.put_data bs _ (a + 1)

/-- Byte j of the line after bytes that lie in it are put at a. -/
theorem byte_putData : ∀ (bs : List Byte) (v : BitVec 1024) (a : Nat) {j : Nat}, j < 128 → a % 128 + bs.length ≤ 128 →
    (putData v a bs).extractLsb' (8 * j) 8 =
      if a % 128 ≤ j ∧ j < a % 128 + bs.length then bs.getD (j - a % 128) 0 else v.extractLsb' (8 * j) 8
  | [], v, a, j, hj, hl => by
    rw [if_neg (by simp only [List.length_nil]; omega)]
    rfl
  | [b], v, a, j, hj, hl => by
    simp only [putData, byte_setElem v b hj, List.length_singleton]
    by_cases h : j = a % 128
    · rw [if_pos h, if_pos (by omega), h, Nat.sub_self]; rfl
    · rw [if_neg h, if_neg (by omega)]
  | b :: c :: cs, v, a, j, hj, hl => by
    simp only [List.length_cons] at hl
    have hnext : (a + 1) % 128 = a % 128 + 1 := by omega
    rw [putData, byte_putData (c :: cs) _ (a + 1) hj (by simp only [List.length_cons]; omega), byte_setElem v b hj, hnext]
    simp only [List.length_cons]
    by_cases h : j = a % 128
    · rw [if_neg (by omega), if_pos h, if_pos (by omega), h, Nat.sub_self]; rfl
    · by_cases hin : a % 128 + 1 ≤ j ∧ j < a % 128 + 1 + (cs.length + 1)
      · rw [if_pos hin, if_pos (by omega), show j - a % 128 = j - (a % 128 + 1) + 1 by omega]; rfl
      · rw [if_neg hin, if_neg h, if_neg (by omega)]

end Sys2Proof.Machine
end

section
/-! PROOFS. What a store leaves in its CU (spec 06, R120). -/

namespace Sys2Proof.Machine

/-- The CU after a store of bytes inside one line that its write-combining buffer does not hold: a new buffered line `l`, and the L1's
copies patched. -/
def Cu.stored (c : Cu) (l : WLine) (a : Nat) (bytes : List Byte) : Cu :=
  { c with
    l1 := c.l1.map fun (u : L1Line) => if u.line = a / 128 then u.put a bytes else u
    wcb := c.wcb ++ [l.put a bytes] }

theorem State.cuWrite_fresh {s : State} {k a : Nat} (h : ∀ l ∈ (s.cu k).wcb, l.line ≠ a / 128) (m ctx incn cp : Nat)
    (bytes : List Byte) :
    s.cuWrite m ctx incn k a cp bytes = s.setCu k ((s.cu k).stored ⟨a / 128, 0, 0, m, ctx, incn, s.now, cp⟩ a bytes) := by
  have hfind : ((s.cu k).wcb.find? fun l => l.line == a / 128) = none := by
    rw [List.find?_eq_none]; simpa using h
  have hrest : ((s.cu k).wcb.filter fun l => l.line != a / 128) = (s.cu k).wcb := by
    rw [List.filter_eq_self]; simpa using h
  simp only [State.cuWrite, hfind, Bool.false_eq_true, if_false, hrest, Cu.stored]

/-- A store reads back, and leaves every other byte as the strands of the CU see it. -/
theorem lineByte_stored {c : Cu} {l : WLine} {a : Nat} {bytes : List Byte} (h : ∀ u ∈ c.wcb, u.line ≠ a / 128)
    (hl : l.line = a / 128) (hm : l.mask = 0) (hfit : a % 128 + bytes.length ≤ 128) (slot : Nat) (home : Nat → Byte) (x : Nat) :
    lineByte (c.stored l a bytes) slot home x =
      if a ≤ x ∧ x < a + bytes.length then bytes.getD (x - a) 0 else lineByte c slot home x := by
  have hj : x % 128 < 128 := Nat.mod_lt _ (by decide)
  have hmask : (l.put a bytes).mask.getLsbD (x % 128) = decide (a % 128 ≤ x % 128 ∧ x % 128 < a % 128 + bytes.length) := by
    rw [WLine.put_mask bytes l a hj hfit, hm]; simp
  have hlast : ((l.put a bytes).line == x / 128 && (l.put a bytes).mask.getLsbD (x % 128)) = decide (a ≤ x ∧ x < a + bytes.length) := by
    rw [WLine.put_line, hl, hmask, Bool.eq_iff_iff]
    simp only [Bool.and_eq_true, beq_iff_eq, decide_eq_true_eq]
    omega
  by_cases hin : a ≤ x ∧ x < a + bytes.length
  · have hfind : ((c.stored l a bytes).wcb.find? fun u => u.line == x / 128 && u.mask.getLsbD (x % 128)) = some (l.put a bytes) := by
      have hold : (c.wcb.find? fun u => u.line == x / 128 && u.mask.getLsbD (x % 128)) = none := by
        rw [List.find?_eq_none]
        intro u hu
        have : u.line ≠ x / 128 := fun e => h u hu (by omega)
        simp [this]
      simp [Cu.stored, List.find?_append, hold, hlast, hin]
    rw [lineByte, hfind, if_pos hin]
    dsimp only
    rw [WLine.put_data, byte_putData bytes l.data a hj hfit, if_pos (by omega), show x % 128 - a % 128 = x - a by omega]
  · have hfind : ((c.stored l a bytes).wcb.find? fun u => u.line == x / 128 && u.mask.getLsbD (x % 128)) =
        c.wcb.find? fun u => u.line == x / 128 && u.mask.getLsbD (x % 128) := by
      simp only [Cu.stored, List.find?_append, List.find?_singleton, hlast, decide_eq_false hin, Bool.false_eq_true, if_false,
        Option.or_none]
    have hl1 : ((c.stored l a bytes).l1.find? fun u => u.line == x / 128 && u.pres.getLsbD slot) =
        (c.l1.find? fun u => u.line == x / 128 && u.pres.getLsbD slot).map fun u => if u.line = a / 128 then u.put a bytes else u := by
      rw [Cu.stored, List.find?_map]
      congr 2
      funext u
      by_cases hu : u.line = a / 128 <;> simp [hu, L1Line.put_line, L1Line.put_pres]
    rw [lineByte, hfind, hl1, if_neg hin, lineByte]
    cases c.wcb.find? fun u => u.line == x / 128 && u.mask.getLsbD (x % 128) with
    | some u => rfl
    | none =>
      cases hu : c.l1.find? fun u => u.line == x / 128 && u.pres.getLsbD slot with
      | none => rfl
      | some u =>
        have hux : u.line = x / 128 := by
          have := List.find?_some hu
          simp only [Bool.and_eq_true, beq_iff_eq] at this
          exact this.1
        by_cases hua : u.line = a / 128
        · simp only [Option.map_some, if_pos hua]
          rw [L1Line.put_data, byte_putData bytes u.data a hj hfit, if_neg (by omega)]
        · simp only [Option.map_some, if_neg hua]

/-- A buffered line of at most eight bytes is not full. -/
theorem WLine.put_mask_ne_allOnes {l : WLine} {a : Nat} {bytes : List Byte} (hm : l.mask = 0) (hn : bytes.length ≤ 8)
    (hfit : a % 128 + bytes.length ≤ 128) : (l.put a bytes).mask ≠ BitVec.allOnes 128 := by
  intro h
  obtain ⟨j, hj, hout⟩ : ∃ j, j < 128 ∧ ¬ (a % 128 ≤ j ∧ j < a % 128 + bytes.length) := by
    by_cases h8 : 8 ≤ a % 128
    · exact ⟨0, by decide, by omega⟩
    · exact ⟨127, by decide, by omega⟩
  have hbit := WLine.put_mask bytes l a hj hfit
  rw [h, hm, decide_eq_false hout, BitVec.getLsbD_allOnes, decide_eq_true hj] at hbit
  exact absurd hbit (by simp)

/-- A CU that holds fewer than 16 buffered lines, none of them full, sends none out. -/
theorem State.settleWcb_idle {s : State} {k : Nat} (hn : (s.cu k).wcb.length ≤ 16)
    (hm : ∀ l ∈ (s.cu k).wcb, l.mask ≠ BitVec.allOnes 128) : s.settleWcb k = s.setCu k (s.cu k) := by
  have hfold : ∀ (ls held : List WLine), held.length + ls.length ≤ 16 → (∀ l ∈ ls, l.mask ≠ BitVec.allOnes 128) →
      ls.foldl State.enterWcb (s, held) = (s, held ++ ls) := by
    intro ls
    induction ls with
    | nil => intro held _ _; simp
    | cons l ls ih =>
      intro held hlen hmask
      simp only [List.length_cons] at hlen
      have hstep : State.enterWcb (s, held) l = (s, held ++ [l]) := by
        simp only [State.enterWcb, show ¬ 16 ≤ held.length by omega, hmask l (List.mem_cons_self ..), decide_false, Bool.false_and,
          Bool.false_eq_true, if_false]
      rw [List.foldl_cons, hstep, ih (held ++ [l]) (by simp only [List.length_append, List.length_singleton]; omega)
        fun u hu => hmask u (List.mem_cons_of_mem _ hu), List.append_assoc]
      rfl
  rw [State.settleWcb, hfold _ [] (by simpa using hn) hm]
  rfl

end Sys2Proof.Machine
end

section
/-! PROOFS. What translating an access and reading leave alone (spec 06, R106, R109, R120, R134). -/

namespace Sys2Proof.Machine

/-- Between two states only what a translation changes differs: the cached descriptors, the metering and the L2's tags. -/
def State.translated (s t : State) : Prop :=
  t = { s with me := { s.me with dcache := t.me.dcache }, fresh := t.fresh, adie := t.adie, buckets := t.buckets, last := t.last,
               l2 := t.l2, poison := t.poison }

/-- Only that, the CUs' buffers and the requests to peers differ: the access has at most read. -/
def State.looked (s t : State) : Prop :=
  t = { s with me := { s.me with dcache := t.me.dcache }, fresh := t.fresh, adie := t.adie, buckets := t.buckets, last := t.last,
               l2 := t.l2, poison := t.poison, cus := t.cus, asked := t.asked, sendq := t.sendq, peerIn := t.peerIn }

namespace State.translated
variable {s t u : State}

theorem refl (s : State) : s.translated s := rfl

theorem eq (h : s.translated t) :
    t = { s with me := { s.me with dcache := t.me.dcache }, fresh := t.fresh, adie := t.adie, buckets := t.buckets, last := t.last,
                 l2 := t.l2, poison := t.poison } := h

theorem of_caches (h : s.sameButCaches t) : s.translated t := by
  unfold State.translated; rw [h.eq]

theorem trans (h : s.translated t) (g : t.translated u) : s.translated u := by
  unfold State.translated at *; rw [g, h]

theorem looked (h : s.translated t) : s.looked t := by
  unfold State.looked; rw [h.eq]

theorem me (h : s.translated t) : t.me = { s.me with dcache := t.me.dcache } := congrArg State.me h.eq
theorem mem (h : s.translated t) : t.mem = s.mem := by rw [h.eq]
theorem fog (h : s.translated t) : t.fog = s.fog := by rw [h.eq]
theorem fogged (h : s.translated t) : t.fogged = s.fogged := by rw [h.eq]
theorem cus (h : s.translated t) : t.cus = s.cus := by rw [h.eq]
theorem others (h : s.translated t) : t.others = s.others := by rw [h.eq]
theorem cu (h : s.translated t) : t.me.cu = s.me.cu := by rw [h.me]; rfl
theorem slot (h : s.translated t) : t.me.slot = s.me.slot := by rw [h.me]; rfl
theorem vd (h : s.translated t) : t.me.vd = s.me.vd := by rw [h.me]

theorem homeByte (h : s.translated t) (a : Nat) : t.homeByte a = s.homeByte a := by
  unfold State.homeByte; rw [h.mem, h.fog, h.fogged]

end State.translated

namespace State.looked
variable {s t u : State}

theorem refl (s : State) : s.looked s := rfl

theorem eq (h : s.looked t) :
    t = { s with me := { s.me with dcache := t.me.dcache }, fresh := t.fresh, adie := t.adie, buckets := t.buckets, last := t.last,
                 l2 := t.l2, poison := t.poison, cus := t.cus, asked := t.asked, sendq := t.sendq, peerIn := t.peerIn } := h

theorem trans (h : s.looked t) (g : t.looked u) : s.looked u := by
  unfold State.looked at *; rw [g, h]

theorem me (h : s.looked t) : t.me = { s.me with dcache := t.me.dcache } := congrArg State.me h.eq
theorem mem (h : s.looked t) : t.mem = s.mem := by rw [h.eq]
theorem fog (h : s.looked t) : t.fog = s.fog := by rw [h.eq]
theorem fogged (h : s.looked t) : t.fogged = s.fogged := by rw [h.eq]
theorem others (h : s.looked t) : t.others = s.others := by rw [h.eq]
theorem counters (h : s.looked t) : t.counters = s.counters := by rw [h.eq]

theorem homeByte (h : s.looked t) (a : Nat) : t.homeByte a = s.homeByte a := by
  unfold State.homeByte; rw [h.mem, h.fog, h.fogged]

end State.looked

/-! ### Translation -/

theorem State.desc_translated (s : State) (slot : Nat) : s.translated (s.desc slot).1 := by
  unfold State.desc
  split
  · exact .refl s
  · exact (State.translated.of_caches (s.touchL2_caches s.me.vd ((s.me.slottb.toNat + 32 * slot) / 128) false 0)).trans rfl

theorem State.descFor_translated (s : State) (slot : Nat) : s.translated (s.descFor slot).1 := by
  unfold State.descFor
  split
  · exact .refl s
  · exact s.desc_translated slot

/-- An access that passes its checks has read its descriptor, and nothing else. -/
theorem State.probe_ok {s t : State} {rt : Rights} {r : Ref} {n : Nat} {fmt vec sup : Bool} {x : Loc × Desc}
    (h : s.probe rt r n fmt vec sup = .ok t x) : t = (s.descFor r.slot).1 := by
  unfold State.probe at h
  split at h
  · cases h
  · dsimp only at h
    repeat' split at h
    all_goals cases h
    all_goals rfl

theorem State.probe_translated {s t : State} {rt : Rights} {r : Ref} {n : Nat} {fmt vec sup : Bool} {x : Loc × Desc}
    (h : s.probe rt r n fmt vec sup = .ok t x) : s.translated t := by
  rw [State.probe_ok h]; exact s.descFor_translated r.slot

/-! ### Reads -/

theorem State.fillL1_looked (s : State) (k slot line : Nat) : s.looked (s.fillL1 k slot line) := by
  unfold State.fillL1
  dsimp only
  split
  · rfl
  · split <;> rfl

theorem State.cuRead_looked (s : State) (m k slot a n cp : Nat) (sync once : Bool) :
    s.looked (s.cuRead m k slot a n cp sync once).1 := by
  unfold State.cuRead
  dsimp only
  split
  · exact .refl s
  · refine (State.translated.of_caches (s.touchL2_caches m (a / 128) false cp)).looked.trans ?_
    generalize s.touchL2 m (a / 128) false cp = t
    have hasked : t.looked (if once then { t with asked := a / 128 :: t.asked } else t) := by
      cases once <;> rfl
    refine hasked.trans ?_
    generalize (if once then ({ t with asked := a / 128 :: t.asked } : State) else t) = u
    split
    · exact u.fillL1_looked k slot (a / 128)
    · exact .refl u

theorem State.askPeer_looked (s : State) (w : Who) (i a : Nat) (op : MemOp) : s.looked (s.askPeer w i a op).1 := by
  unfold State.askPeer
  split
  · rfl
  · split <;> rfl

theorem State.callPeer_looked {s t : State} {vec : Bool} {i a : Nat} {op : MemOp} {r : Ref} {d : Desc} {fmt : Bool} {b : List Byte}
    (h : s.callPeer vec i a op r d fmt = .ok t b) : s.looked t := by
  have ha := s.askPeer_looked (s.me.who vec) i a op
  unfold State.callPeer at h
  split at h
  · cases h
  · next u x hu =>
    rw [hu] at ha
    split at h
    · cases h; exact ha
    · cases h

theorem State.readLoc_looked {s t : State} {l : Loc} {r : Ref} {d : Desc} {n : Nat} {fmt vec : Bool} {ch : BitVec 2} {b : List Byte}
    (h : s.readLoc l r d n fmt vec ch = .ok t b) : s.looked t := by
  cases l with
  | share o => cases h; exact .refl s
  | cushare o => cases h; exact .refl s
  | peer i a => exact State.callPeer_looked h
  | mem a =>
    have h1 := s.cuRead_looked s.me.vd s.me.cu s.me.slot a (lineRoom a n) (policyOf ch d) d.sync vec
    unfold State.readLoc at h
    dsimp only at h
    split at h
    · cases h; exact h1
    · cases h; exact h1.trans (State.cuRead_looked _ _ _ _ _ _ _ _ _)

theorem State.load_looked {s t : State} {r : Ref} {n : Nat} {fmt vec sup : Bool} {ch : BitVec 2} {x : List Byte × Desc}
    (h : s.load r n fmt vec sup ch = .ok t x) : s.looked t := by
  unfold State.load at h
  split at h
  · cases h
  · cases h
  · next u l d hp =>
    have hu := (State.probe_translated hp).looked
    split at h
    · next v b hr => cases h; exact hu.trans (State.readLoc_looked hr)
    · cases h
    · cases h

theorem loadFrame : Claims.LoadFrame := by
  intro s u r n fmt sup ch x h
  have hl := State.load_looked h
  exact ⟨hl.mem, fun a => (hl.homeByte a).symm, hl.me, hl.others, hl.counters⟩

end Sys2Proof.Machine
end

section
/-! PROOFS. What a scalar store of memory leaves (spec 06, R120, R321). -/

namespace Sys2Proof.Machine

theorem State.cu_setCu {s : State} (h : Assoc.wf Cu.none s.cus = true) (k : Nat) (c : Cu) : (s.setCu k c).cu k = c :=
  Assoc.get_put_self Cu.none c k h

theorem State.setCu_wf {s : State} (h : Assoc.wf Cu.none s.cus = true) (k : Nat) (c : Cu) :
    Assoc.wf Cu.none (s.setCu k c).cus = true := Assoc.wf_put Cu.none c k h

/-- The CU `c'` shows the bytes at a, and every other byte as `c` does. -/
def Cu.shows (c c' : Cu) (a : Nat) (bytes : List Byte) : Prop :=
  ∀ (slot : Nat) (home : Nat → Byte) (x : Nat), lineByte c' slot home x =
    if a ≤ x ∧ x < a + bytes.length then bytes.getD (x - a) 0 else lineByte c slot home x

/-- Bytes written in two parts show as one write. -/
theorem Cu.shows_append {c c' c'' : Cu} {a : Nat} {x y : List Byte} (h : c.shows c' a x) (g : c'.shows c'' (a + x.length) y) :
    c.shows c'' a (x ++ y) := by
  intro slot home i
  rw [g, h, List.length_append]
  by_cases hy : a + x.length ≤ i ∧ i < a + x.length + y.length
  · rw [if_pos hy, if_pos (by omega), List.getD_append_right _ _ _ _ (by omega)]
    congr 1; omega
  · rw [if_neg hy]
    by_cases hx : a ≤ i ∧ i < a + x.length
    · rw [if_pos hx, if_pos (by omega), List.getD_append _ _ _ _ (by omega)]
    · rw [if_neg hx, if_neg (by omega)]

/-- A store inside one line that the CU does not buffer: it shows the bytes, in a new buffered line, which is not full. -/
theorem State.cuWrite_shows {s : State} {k a : Nat} {bytes : List Byte} (h : ∀ l ∈ (s.cu k).wcb, l.line ≠ a / 128)
    (hn : bytes.length ≤ 8) (hfit : a % 128 + bytes.length ≤ 128) (m ctx incn cp : Nat) :
    ∃ c w, s.cuWrite m ctx incn k a cp bytes = s.setCu k c ∧ (s.cu k).shows c a bytes ∧ c.wcb = (s.cu k).wcb ++ [w] ∧
      w.line = a / 128 ∧ w.mask ≠ BitVec.allOnes 128 :=
  ⟨_, _, State.cuWrite_fresh h m ctx incn cp bytes, lineByte_stored h rfl rfl hfit, rfl, WLine.put_line .., WLine.put_mask_ne_allOnes rfl hn hfit⟩

/-- A store of at most eight bytes by a CU that buffers nothing: it shows the bytes, and no line of its buffer is full. -/
theorem State.writeLoc_mem {s : State} {a : Nat} {bytes : List Byte} (hwf : Assoc.wf Cu.none s.cus = true)
    (he : (s.cu s.me.cu).wcb = []) (hn : bytes.length ≤ 8) (cp : Nat) :
    ∃ l c, s.writeLoc (.mem a) cp bytes = ({ s with cus := l } : State).setCu s.me.cu c ∧ Assoc.wf Cu.none l = true ∧
      (s.cu s.me.cu).shows c a bytes ∧ c.wcb.length ≤ 2 ∧ ∀ l ∈ c.wcb, l.mask ≠ BitVec.allOnes 128 := by
  obtain ⟨k, hk⟩ : ∃ k, k = lineRoom a bytes.length := ⟨_, rfl⟩
  have hroom : k = min bytes.length (128 - a % 128) := hk
  have hlen : (bytes.take k).length = k := by simp only [List.length_take]; omega
  obtain ⟨c, w, hwrite, hshow, hbuf, hline, hmask⟩ := State.cuWrite_shows (s := s) (bytes := bytes.take k) (k := s.me.cu) (a := a)
    (by simp [he]) (by omega) (by omega) s.me.vd s.me.ctx s.me.incn cp
  rw [he, List.nil_append] at hbuf
  unfold State.writeLoc
  dsimp only
  rw [← hk, hwrite]
  by_cases hall : k = bytes.length
  · rw [if_pos hall]
    rw [hall, List.take_length] at hshow
    exact ⟨s.cus, c, rfl, hwf, hshow, by simp [hbuf], by simpa [hbuf] using hmask⟩
  · rw [if_neg hall]
    have hcu : (s.setCu s.me.cu c).cu s.me.cu = c := State.cu_setCu hwf ..
    have hother : ∀ l ∈ ((s.setCu s.me.cu c).cu s.me.cu).wcb, l.line ≠ (a + k) / 128 := by
      intro l hl
      rw [hcu, hbuf, List.mem_singleton] at hl
      rw [hl, hline]
      omega
    obtain ⟨c', w', hwrite', hshow', hbuf', -, hmask'⟩ := State.cuWrite_shows (bytes := bytes.drop k) hother
      (by simp only [List.length_drop]; omega) (by simp only [List.length_drop]; omega) s.me.vd s.me.ctx s.me.incn cp
    rw [hcu] at hshow' hbuf'
    rw [hbuf, List.singleton_append] at hbuf'
    refine ⟨_, c', hwrite', State.setCu_wf hwf .., ?_, by simp [hbuf'], by simpa [hbuf'] using ⟨hmask, hmask'⟩⟩
    have happend := Cu.shows_append hshow (hlen.symm ▸ hshow')
    rw [hlen] at happend
    rwa [List.take_append_drop] at happend

/-- A store of a stored size that goes to memory, by a CU that buffers nothing: only the CU's buffer and L1 change. -/
theorem State.store_mem {s t : State} {r : Ref} {n a : Nat} {sup : Bool} {d : Desc} (hwf : Assoc.wf Cu.none t.cus = true)
    (he : (t.cu t.me.cu).wcb = []) (hn : n ≤ 8) (hp : s.probe wrOnly r n false false sup = .ok t (.mem a, d)) (ch : BitVec 2) (v : Nat) :
    ∃ l c, s.store r n false false sup ch v = .ok (({ t with cus := l } : State).setCu t.me.cu c) (false, .mem a) ∧
      Assoc.wf Cu.none l = true ∧ (t.cu t.me.cu).shows c a (leBytes n v) := by
  obtain ⟨l, c, hwrite, hl, hshow, hlen, hmask⟩ := State.writeLoc_mem (bytes := leBytes n v) hwf he (by simpa using hn) (policyOf ch d) (a := a)
  have hcu : (({ t with cus := l } : State).setCu t.me.cu c).cu t.me.cu = c := State.cu_setCu hl ..
  have hsettle := State.settleWcb_idle (s := ({ t with cus := l } : State).setCu t.me.cu c) (k := t.me.cu) (by rw [hcu]; omega)
    (by rw [hcu]; exact hmask)
  rw [hcu] at hsettle
  have hroom : t.wcbFull a = none := by simp [State.wcbFull, he]
  refine ⟨_, c, ?_, State.setCu_wf (s := { t with cus := l }) hl t.me.cu c, hshow⟩
  unfold State.store State.storeWith
  rw [hp]
  simp only [Bool.not_false, if_true, State.storeLoc, hroom, hwrite, Loc.isMem, Bool.false_and]
  exact congrArg (Ans.ok · _) hsettle

theorem getD_leBytes {n v i : Nat} (h : i < n) : (leBytes n v).getD i 0 = BitVec.ofNat 8 (v / 256 ^ i) := by
  have hi : i < (leBytes n v).length := by simpa using h
  rw [List.getD_eq_getElem _ _ hi, getElem_leBytes]

theorem storeFrame : Claims.StoreFrame := by
  intro s s1 u r n a val ch sc sup d hn hwf he hp h
  have ht := State.probe_translated hp
  have hcu : s1.cu s1.me.cu = s.cu s.me.cu := by rw [ht.cu]; unfold State.cu; rw [ht.cus]
  have hn8 : n ≤ 8 := by
    simp only [List.mem_cons, List.not_mem_nil, or_false] at hn
    omega
  obtain ⟨l, c, hstore, hl, hshow⟩ := State.store_mem (ht.cus ▸ hwf) (hcu ▸ he) hn8 hp ch val.toNat
  obtain ⟨o, ho⟩ := (({ s1 with cus := l } : State).setCu s1.me.cu c).chanterSees_eq r n false
  have hu : u = (({ s1 with cus := l } : State).setCu s1.me.cu c).onMe fun m => { m with older := o } := by
    unfold State.doStore at h
    simp only [Bool.false_eq_true, if_false, Ans.then, hstore, ho] at h
    cases h; rfl
  have hhome : ∀ b, u.homeByte b = s.homeByte b := by
    intro b; rw [← ht.homeByte b, hu]; rfl
  have huc : u.cu s.me.cu = c := by
    rw [hu, ← ht.cu]
    exact State.cu_setCu hl ..
  have hview : ∀ b, u.viewByte s.me.cu s.me.slot b =
      if a ≤ b ∧ b < a + n then (leBytes n val.toNat).getD (b - a) 0 else s.viewByte s.me.cu s.me.slot b := by
    intro b
    have hfun : u.homeByte = s.homeByte := funext hhome
    unfold State.viewByte
    rw [huc, hfun, hshow, length_leBytes, hcu]
  refine ⟨?_, by rw [hu]; exact ht.others, fun b => (hhome b).symm, fun i hi => ?_, fun b hb => ?_⟩
  · rw [hu]
    show ({ s1.me with older := o } : Strand) = { s.me with dcache := s1.me.dcache, older := o }
    rw [ht.me]
  · rw [hview, if_pos (by omega), show a + i - a = i by omega, getD_leBytes hi]
  · rw [hview, if_neg (by omega)]

end Sys2Proof.Machine
end

section
/-! PROOFS. Requests of a device to the home slices leave its order log's registers (spec 11, R218; R369). -/

namespace Sys2Proof.Machine

theorem State.reg_of_adie {s t : State} (h : t.adie = s.adie) (a : Nat) : t.reg a = s.reg a := by
  unfold State.reg; rw [h]

theorem State.charge_adie (s : State) (a : Arbiter) (v n : Nat) : (s.charge a v n).adie = s.adie := by
  unfold State.charge; dsimp only; (repeat' split) <;> rfl

theorem State.charge_reg (s : State) (a : Arbiter) (v n x : Nat) : (s.charge a v n).reg x = s.reg x :=
  State.reg_of_adie (s.charge_adie a v n) x

/-- The line counters of the pseudo-channels stand above the checkpoint registers of the 64 devices. -/
theorem ckpt_ne_pch {v : Nat} (h : v < 64) (c : Nat) (wr : Bool) : Reg.ckpt v ≠ Reg.pch c + if wr then 8 else 0 := by
  unfold Reg.ckpt Reg.pch; split <;> omega

theorem State.countReg_reg_other {s : State} {a b w : Nat} (h : b ≠ a) : (s.countReg a w).reg b = s.reg b := by
  unfold State.countReg
  split
  · exact s.reg_setReg_other _ h
  · rfl

section Device
variable {v : Nat} (hv : v < 64)
include hv

theorem State.countPch_ckpt (s : State) (m line : Nat) (wr : Bool) : (s.countPch m line wr).reg (Reg.ckpt v) = s.reg (Reg.ckpt v) := by
  unfold State.countPch
  split
  · rfl
  · split
    · next c _ =>
      dsimp only
      have hc := State.countReg_reg_other (s := s) (w := 32) (ckpt_ne_pch hv c wr)
      generalize s.countReg (Reg.pch c + if wr then 8 else 0) 32 = u at hc ⊢
      split
      · rw [State.charge_reg, hc]
      · exact hc
    · rfl

theorem State.evict_ckpt (s : State) (t : L2Tag) : (s.evict t).reg (Reg.ckpt v) = s.reg (Reg.ckpt v) := by
  unfold State.evict
  dsimp only
  split
  · exact State.countPch_ckpt hv _ t.vd t.line true
  · rfl

theorem State.takeWay_ckpt (s : State) (line : Nat) (ways : List Nat) :
    (s.takeWay line ways).1.reg (Reg.ckpt v) = s.reg (Reg.ckpt v) := by
  unfold State.takeWay
  dsimp only
  split
  · rfl
  · split
    · exact State.evict_ckpt hv s _
    · rfl

end Device

/-- A master above 63 has no ways, and is not metered (R79, R369). -/
theorem State.vdWays_agent (s : State) {v : Nat} (h : ¬ v < 64) : s.vdWays v = [] := if_pos (Nat.le_of_not_lt h)

theorem State.countPch_agent (s : State) {v : Nat} (h : ¬ v < 64) (line : Nat) (wr : Bool) : s.countPch v line wr = s :=
  if_pos (Nat.le_of_not_lt h)

/-- An access of a line for device v keeps that device's order-log registers. -/
theorem State.touchL2_ckpt (s : State) (v line : Nat) (wr : Bool) (cp : Nat) :
    (s.touchL2 v line wr cp).reg (Reg.ckpt v) = s.reg (Reg.ckpt v) := by
  unfold State.touchL2
  refine Eq.trans ?_ (s.charge_reg (.slice (homeSlice line)) v 1 _)
  generalize s.charge (.slice (homeSlice line)) v 1 = u
  dsimp only
  split
  · split <;> rfl
  · by_cases hv : v < 64
    · split
      · exact State.countPch_ckpt hv u v line wr
      · refine Eq.trans ?_ ((State.takeWay_ckpt hv _ line (u.vdWays v)).trans (State.countPch_ckpt hv u v line false))
        split <;> rfl
    · rw [u.vdWays_agent hv, if_pos (by simp), u.countPch_agent hv]

theorem State.fixZero_ckpt (s : State) (v line : Nat) : (s.fixZero v line).reg (Reg.ckpt v) = s.reg (Reg.ckpt v) := by
  unfold State.fixZero
  dsimp only
  split
  · split
    · refine Eq.trans ?_ (show ({ s with l2 := s.l2.filter fun u => u.line != line } : State).reg (Reg.ckpt v) = s.reg (Reg.ckpt v) from rfl)
      generalize ({ s with l2 := s.l2.filter fun u => u.line != line } : State) = u
      by_cases hv : v < 64
      · split
        · exact State.countPch_ckpt hv u v line true
        · refine Eq.trans ?_ (State.takeWay_ckpt hv u line (s.vdWays v))
          split <;> rfl
      · rw [s.vdWays_agent hv, if_pos (by simp), u.countPch_agent hv]
        rfl
    · rfl
  · rfl

theorem State.descFor_ckpt (s : State) (slot : Nat) : (s.descFor slot).1.reg (Reg.ckpt s.me.vd) = s.reg (Reg.ckpt s.me.vd) := by
  unfold State.descFor
  split
  · rfl
  · unfold State.desc
    split
    · rfl
    · exact s.touchL2_ckpt s.me.vd ((s.me.slottb.toNat + 32 * slot) / 128) false 0

end Sys2Proof.Machine
end

section
/-! PROOFS. What an atomic and ZLINE leave of memory (spec 06, R323, R329): the statement O46. -/

namespace Sys2Proof.Machine

/-- A CU that buffers nothing has nothing to send out. -/
theorem State.flushLine_idle {s : State} {k : Nat} (h : (s.cu k).wcb = []) (line : Nat) : s.flushLine k line = s := by
  unfold State.flushLine; simp [h]

theorem State.homeBytes_of_homeByte {s t : State} (h : ∀ a, t.homeByte a = s.homeByte a) (a n : Nat) : t.homeBytes a n = s.homeBytes a n := by
  unfold State.homeBytes; simp [h]

/-- A CU's own copies are no part of memory. -/
theorem State.homeByte_patchL1 (s : State) (k a : Nat) (bytes : List Byte) (x : Nat) : (s.patchL1 k a bytes).homeByte x = s.homeByte x := rfl

/-- A read at the home slice for device v: the tags, and nothing of the order log. -/
theorem State.homeRead_caches (s : State) (m a n cp : Nat) : s.sameButCaches (s.homeRead m a n cp).1 := by
  unfold State.homeRead
  dsimp only
  split
  · exact s.touchL2_caches m _ false cp
  · exact (s.touchL2_caches m _ false cp).trans (State.touchL2_caches _ _ _ _ _)

theorem State.homeRead_ckpt (s : State) (v a n cp : Nat) : (s.homeRead v a n cp).1.reg (Reg.ckpt v) = s.reg (Reg.ckpt v) := by
  unfold State.homeRead
  dsimp only
  split
  · exact s.touchL2_ckpt v _ false cp
  · exact (State.touchL2_ckpt _ v _ false cp).trans (s.touchL2_ckpt v _ false cp)

/-- A write at the home slice is the write of its bytes, between changes of the caches. -/
theorem State.homeWrite_eq (s : State) (m a : Nat) (bytes : List Byte) (cp : Nat) :
    ∃ t, s.sameButCaches t ∧ (t.setHomeBytes a bytes).sameButCaches (s.homeWrite m a bytes cp) := by
  unfold State.homeWrite
  dsimp only
  split
  · exact ⟨_, s.touchL2_caches _ _ _ _, State.fixZero_caches _ _ _⟩
  · exact ⟨_, (s.touchL2_caches _ _ _ _).trans (State.touchL2_caches _ _ _ _ _), (State.fixZero_caches _ _ _).trans (State.fixZero_caches _ _ _)⟩

theorem State.homeWrite_ckpt (s : State) (v a : Nat) (bytes : List Byte) (cp : Nat) :
    (s.homeWrite v a bytes cp).reg (Reg.ckpt v) = s.reg (Reg.ckpt v) := by
  have hset : ∀ u : State, (u.setHomeBytes a bytes).reg (Reg.ckpt v) = u.reg (Reg.ckpt v) :=
    fun u => State.reg_of_adie (u.setHomeBytes_adie a bytes) _
  unfold State.homeWrite
  dsimp only
  split
  · rw [State.fixZero_ckpt, hset, State.touchL2_ckpt]
  · rw [State.fixZero_ckpt, State.fixZero_ckpt, hset, State.touchL2_ckpt, State.touchL2_ckpt]

section Write
variable {s : State} (h : s.memOk) (m a : Nat) (bytes : List Byte) (cp : Nat)
include h

theorem State.homeWrite_memOk : (s.homeWrite m a bytes cp).memOk := by
  obtain ⟨t, ht, hu⟩ := s.homeWrite_eq m a bytes cp
  exact State.memOk_of_mem (State.setHomeBytes_memOk bytes (State.memOk_of_mem h ht.mem) a) hu.mem

theorem State.homeByte_homeWrite {i : Nat} (hi : i < bytes.length) : (s.homeWrite m a bytes cp).homeByte (a + i) = bytes[i] := by
  obtain ⟨t, ht, hu⟩ := s.homeWrite_eq m a bytes cp
  rw [hu.homeByte, State.homeByte_setHomeBytes bytes (State.memOk_of_mem h ht.mem) a i hi]

theorem State.homeByte_homeWrite_other {x : Nat} (hx : x < a ∨ a + bytes.length ≤ x) :
    (s.homeWrite m a bytes cp).homeByte x = s.homeByte x := by
  obtain ⟨t, ht, hu⟩ := s.homeWrite_eq m a bytes cp
  rw [hu.homeByte, State.homeByte_setHomeBytes_other bytes (State.memOk_of_mem h ht.mem) a hx, ht.homeByte]

end Write

/-! ### Atomics -/

/-- With no order log an atomic leaves no entry. -/
theorem State.logAtomic_off {s : State} (h : s.ckOn s.me.vd = false) (l : Loc) (d : Desc) : s.logAtomic l d = s := by
  unfold State.logAtomic State.orderLog State.orderLogOf
  cases l <;> simp [h]

/-- The state of a CU that buffers nothing, after the read of an atomic and after its write. -/
theorem State.homeLoc_mem {s : State} (he : (s.cu s.me.cu).wcb = []) (a n cp : Nat) :
    s.homeLoc (.mem a) n cp = ((s.homeRead s.me.vd a n cp).1, s.homeBytes a n) := by
  unfold State.homeLoc
  simp only [State.flushLine_idle he]
  rfl

theorem ckOn_of_reg {s t : State} {v : Nat} (h : t.reg (Reg.ckpt v) = s.reg (Reg.ckpt v)) : t.ckOn v = s.ckOn v := by
  unfold State.ckOn; rw [h]

/-- What an atomic at memory does, with nothing buffered and no order log: the read at the home slice, and the write of the new value
where there is one. -/
theorem State.amo_mem {s t : State} {r : Ref} {ty : AmoTy} {sup : Bool} {a : Nat} {d : Desc} (he : (t.cu t.me.cu).wcb = [])
    (hck : t.ckOn t.me.vd = false) (hp : s.probe rdWr r (amoBytes ty) false false sup = .ok t (.mem a, d)) (op : AmoOp) (y c : Nat) :
    let n := amoBytes ty
    let u := (t.homeRead t.me.vd a n d.cp).1
    s.amo r op ty false sup y c = .ok (match amoNew op ty (t.homeNat a n) (y % 2 ^ (8 * n)) (c % 2 ^ (8 * n)) with
      | some new => (u.homeWrite u.me.vd a (leBytes n new) d.cp).patchL1 u.me.cu a (leBytes n new)
      | none => u) (t.homeNat a n) := by
  intro n u
  have hu : t.sameButCaches u := t.homeRead_caches t.me.vd a n d.cp
  have hvd : u.me.vd = t.me.vd := by rw [hu.me]
  have hread : u.ckOn u.me.vd = false := by
    rw [hvd, ckOn_of_reg (t.homeRead_ckpt t.me.vd a n d.cp)]; exact hck
  have hwrite : ∀ b, ((u.homeWrite u.me.vd a b d.cp).patchL1 u.me.cu a b).logAtomic (.mem a) d =
      (u.homeWrite u.me.vd a b d.cp).patchL1 u.me.cu a b := by
    intro b
    refine State.logAtomic_off ?_ _ d
    show (u.homeWrite u.me.vd a b d.cp).ckOn (u.homeWrite u.me.vd a b d.cp).me.vd = false
    rw [State.homeWrite_me, ckOn_of_reg (u.homeWrite_ckpt u.me.vd a b d.cp)]
    exact hread
  unfold State.amo
  rw [hp]
  simp only [State.homeLoc_mem he, State.setHomeLoc]
  show (match amoNew op ty (t.homeNat a n) (y % 2 ^ (8 * n)) (c % 2 ^ (8 * n)) with
    | some new => Ans.ok (((u.homeWrite u.me.vd a (leBytes n new) d.cp).patchL1 u.me.cu a (leBytes n new)).logAtomic (.mem a) d) _
    | none => Ans.ok (u.logAtomic (.mem a) d) _) = _
  cases amoNew op ty (t.homeNat a n) (y % 2 ^ (8 * n)) (c % 2 ^ (8 * n)) with
  | some new => simp only [hwrite]; rfl
  | none => simp only [State.logAtomic_off hread]; rfl

/-- Byte i of a number read from memory. -/
theorem State.homeNat_byte (s : State) (a n : Nat) {i : Nat} (h : i < n) : BitVec.ofNat 8 (s.homeNat a n / 256 ^ i) = s.homeByte (a + i) := by
  have hb : leBytes n (s.homeNat a n) = s.homeBytes a n := by
    have := leBytes_ofLe (s.homeBytes a n)
    rwa [State.length_homeBytes] at this
  have hi : i < (leBytes n (s.homeNat a n)).length := by simpa using h
  rw [← getElem_leBytes n _ i hi, List.getElem_of_eq hb]
  simp [State.homeBytes]

theorem atomicFrame : Claims.AtomicFrame := by
  intro s s1 u op t r a y c old sup d hm he hck hp h n
  have ht := State.probe_translated hp
  have hcu : s1.cu s1.me.cu = s.cu s.me.cu := by rw [ht.cu]; unfold State.cu; rw [ht.cus]
  have hck1 : s1.ckOn s1.me.vd = false := by
    rw [ht.vd, State.probe_ok hp, ckOn_of_reg (s.descFor_ckpt r.slot)]; exact hck
  have hm1 : s1.memOk := State.memOk_of_mem hm ht.mem
  have hnat : s1.homeNat a n = s.homeNat a n := by
    unfold State.homeNat; rw [State.homeBytes_of_homeByte ht.homeByte]
  rw [State.amo_mem (hcu ▸ he) hck1 hp] at h
  have hv : s1.sameButCaches (s1.homeRead s1.me.vd a n d.cp).1 := s1.homeRead_caches s1.me.vd a n d.cp
  generalize (s1.homeRead s1.me.vd a n d.cp).1 = v at h hv
  have hold : old = s.homeNat a n := by
    rw [← hnat]; injection h with _ h; exact h.symm
  have hmv : v.memOk := State.memOk_of_mem hm1 hv.mem
  have hme : v.me = { s.me with dcache := v.me.dcache } := by rw [hv.me, ht.me]
  have hbyte : ∀ b, v.homeByte b = s.homeByte b := fun b => (hv.homeByte b).trans (ht.homeByte b)
  rw [hnat, ← hold] at h
  refine ⟨hold, ?_⟩
  cases hnew : amoNew op t old (y % 2 ^ (8 * n)) (c % 2 ^ (8 * n)) with
  | none =>
    rw [hnew] at h
    obtain rfl : v = u := by injection h
    refine ⟨hmv, hme, fun i hi => ?_, fun b _ => hbyte b⟩
    rw [Option.getD_none, hold, State.homeNat_byte s a n hi]
    exact hbyte _
  | some new =>
    rw [hnew] at h
    obtain rfl : (v.homeWrite v.me.vd a (leBytes n new) d.cp).patchL1 v.me.cu a (leBytes n new) = u := by injection h
    have hw := v.homeWrite_me v.me.vd a (leBytes n new) d.cp
    refine ⟨State.homeWrite_memOk hmv v.me.vd a (leBytes n new) d.cp, ?_, fun i hi => ?_, fun b hb => ?_⟩
    · show (v.homeWrite v.me.vd a (leBytes n new) d.cp).me = { s.me with dcache := (v.homeWrite v.me.vd a (leBytes n new) d.cp).me.dcache }
      rw [hw]; exact hme
    · have hlen : i < (leBytes n new).length := by simpa using hi
      rw [State.homeByte_patchL1, State.homeByte_homeWrite hmv _ a _ d.cp hlen, getElem_leBytes, Option.getD_some]
    · rw [State.homeByte_patchL1, State.homeByte_homeWrite_other hmv _ a _ d.cp (by simpa using hb)]
      exact hbyte b

/-! ### Zero lines -/

/-- A change of the L2's tags. -/
theorem State.sameButCaches.of_l2 (s : State) (l : List L2Tag) : s.sameButCaches { s with l2 := l } := rfl

/-- ZLINE at the home slice is the write of 128 zeros, between changes of the caches. -/
theorem State.zeroLine_eq (s : State) (m line : Nat) :
    ∃ t, s.sameButCaches t ∧ (t.setHomeBytes (128 * line) (List.replicate 128 0)).sameButCaches (s.zeroLine m line) := by
  refine ⟨s.charge (.slice (homeSlice line)) m 1, (s.charge_meters _ _ _).caches, ?_⟩
  unfold State.zeroLine
  generalize (s.charge (.slice (homeSlice line)) m 1).setHomeBytes (128 * line) (List.replicate 128 0) = u
  dsimp only
  split
  · exact .of_l2 u _
  · split
    · exact (u.countPch_meters m line true).caches.trans rfl
    · have hway := u.takeWay_caches line (u.vdWays m ++ [24, 25, 26, 27, 28, 29, 30, 31])
      refine hway.trans ?_
      split
      · exact State.pushTag_caches _ _ _
      · exact (State.countPch_meters _ m line true).caches.trans rfl

/-- The most recently used tag is found first. -/
theorem State.poisoned_of_head {s : State} {t : L2Tag} {l : List L2Tag} (h : s.l2 = t :: l) : s.poisoned t.line = t.poison :=
  State.poisoned_of_tag (by unfold State.tagOf; rw [h]; simp)

theorem State.poisoned_of_cleared {s : State} {line : Nat} {l : List Nat} (ht : s.tagOf line = none)
    (hp : s.poison = setMember l line false) : s.poisoned line = false := by
  rw [State.poisoned_of_no_tag ht, hp, contains_setMember_self]

/-- No way to take: nothing is evicted. -/
theorem State.takeWay_none {s : State} {line : Nat} {ways : List Nat} (h : (s.takeWay line ways).2 = none) : (s.takeWay line ways).1 = s := by
  unfold State.takeWay at h ⊢
  dsimp only at h ⊢
  split at h
  · cases h
  · split at h
    · cases h
    · rfl

/-- A zero line is poisoned no more. -/
theorem State.poisoned_zeroLine (s : State) (m line : Nat) : (s.zeroLine m line).poisoned line = false := by
  have count : ∀ u : State, u.tagOf line = none →
      ({ u.countPch m line true with poison := setMember u.poison line false } : State).poisoned line = false := by
    intro u hu
    refine State.poisoned_of_cleared (l := u.poison) ?_ rfl
    unfold State.tagOf at hu ⊢
    rw [show ({ u.countPch m line true with poison := setMember u.poison line false } : State).l2 = u.l2 from
      (u.countPch_meters m line true).l2]
    exact hu
  unfold State.zeroLine
  generalize (s.charge (.slice (homeSlice line)) m 1).setHomeBytes (128 * line) (List.replicate 128 0) = u
  dsimp only
  cases hu : u.tagOf line with
  | some t =>
    dsimp only
    obtain rfl := State.tagOf_line hu
    exact State.poisoned_of_head (t := { t with zero := true, dirty := true, poison := false }) rfl
  | none =>
    dsimp only
    split
    · exact count u hu
    · cases hw : (u.takeWay line (u.vdWays m ++ [24, 25, 26, 27, 28, 29, 30, 31])).2 with
      | some w => exact State.poisoned_of_head (t := ⟨line, w, m, true, true, false⟩) rfl
      | none =>
        rw [State.takeWay_none hw]
        exact count u hu

theorem zlineFrame : Claims.ZlineFrame := by
  intro s s1 u r a sup d hm he ha hp h
  have ht := State.probe_translated hp
  have hcu : s1.cu s1.me.cu = s.cu s.me.cu := by rw [ht.cu]; unfold State.cu; rw [ht.cus]
  obtain ⟨v, hv, hz⟩ := s1.zeroLine_eq s1.me.vd (a / 128)
  have hpoison := s1.poisoned_zeroLine s1.me.vd (a / 128)
  rw [show 128 * (a / 128) = a by omega] at hz
  have hmv : v.memOk := State.memOk_of_mem (State.memOk_of_mem hm ht.mem) hv.mem
  have hlen : (List.replicate 128 (0 : Byte)).length = 128 := List.length_replicate
  unfold State.doZline at h
  rw [hp] at h
  simp only [ha, if_true, State.flushLine_idle (hcu ▸ he), Ans.then] at h
  generalize s1.zeroLine s1.me.vd (a / 128) = w at h hz hpoison
  obtain ⟨o, ho⟩ := (w.patchL1 s1.me.cu a (List.replicate 128 0)).chanterSees_eq r 128 false
  obtain rfl : (w.patchL1 s1.me.cu a (List.replicate 128 0)).onMe (fun m => { m with older := o }) = u := by
    rw [← ho]; injection h
  refine ⟨State.memOk_of_mem (State.setHomeBytes_memOk _ hmv a) hz.mem, ?_, fun i hi => ?_, fun b hb => ?_, hpoison⟩
  · show ({ w.me with older := o } : Strand) = { s.me with dcache := w.me.dcache, older := o }
    rw [hz.me, State.setHomeBytes_me, hv.me, ht.me]
  · show w.homeByte (a + i) = 0
    rw [hz.homeByte, State.homeByte_setHomeBytes _ hmv a i (by rw [hlen]; exact hi)]
    exact List.getElem_replicate ..
  · show w.homeByte b = s.homeByte b
    rw [hz.homeByte, State.homeByte_setHomeBytes_other _ hmv a (by rw [hlen]; exact hb), hv.homeByte, ht.homeByte]

/-- Settles O46: a load has only looked; a store shows its bytes in its CU; an atomic and ZLINE write at the home slice. -/
theorem memoryFrames : Obligations.MemoryFrames := ⟨loadFrame, storeFrame, atomicFrame, zlineFrame⟩

end Sys2Proof.Machine
end

section
/-! PROOFS. Migration engines (spec 06, R114 to R116). -/

namespace Sys2Proof.Machine

/-! ### MIGCTL -/

theorem State.migBusy_iff (s : State) (d : Nat) : s.migBusy d = true ↔ s.regN (Reg.mig d + 0x20) % 2 = 1 := by
  unfold State.migBusy State.regN
  rw [BitVec.getLsbD, Nat.testBit_zero, decide_eq_true_eq]

section
variable {s : State} (hd : s.pins.port < 4)
include hd

/-- GO of an engine at rest clears its other status bits; GO of a busy one is ignored. -/
theorem exec_migctlGo (hv : s.pins.value % 4 = 1) : exec .migctlGo s = .next (s.migGo s.pins.port s.pins.value) := by
  have h0 : s.pins.value.testBit 0 = true := by rw [Nat.testBit_zero]; simp; omega
  have h1 : s.pins.value.testBit 1 = false := by
    rw [Nat.testBit_succ, Nat.testBit_zero]; simp; omega
  change execMigctlGo s = _
  unfold execMigctlGo State.writeMigctl
  rw [h0, h1]
  simp [hd]

theorem exec_migctlRel (hv : s.pins.value % 4 = 2) : exec .migctlRel s = .next (s.migRel s.pins.port) := by
  have h0 : s.pins.value.testBit 0 = false := by rw [Nat.testBit_zero]; simp; omega
  have h1 : s.pins.value.testBit 1 = true := by
    rw [Nat.testBit_succ, Nat.testBit_zero]; simp; omega
  change execMigctlRel s = _
  unfold execMigctlRel State.writeMigctl
  rw [h0, h1]
  simp [hd]

end

/-- REL after a copy that is done releases the requests that wait for its source; merge parts and requests from outside apart. -/
theorem State.migRel_done {s : State} {d : Nat} (h1 : (s.reg (Reg.mig d + 0x20)).getLsbD 1 = true)
    (h2 : (s.reg (Reg.mig d + 0x20)).getLsbD 2 = false) (hq : s.partq = []) (hw : ∀ w ∈ s.replay, ∀ r, w.who.ask ≠ .inbound r) :
    s.migRel d = ({ s with replay := s.replay.map fun w =>
          if (decide (s.migSrc d < 128 * w.line + 128) && decide (128 * w.line < s.migSrc d + s.migLen d)) = true then { w with go := true } else w } :
      State).setReg (Reg.mig d + 0x20) (s.reg (Reg.mig d + 0x20) ||| 4) := by
  unfold State.migRel
  dsimp only
  have hnone : (s.setReg (Reg.mig d + 0x20) (s.reg (Reg.mig d + 0x20) ||| 4)).partq = [] := hq
  rw [h1, h2, if_pos (by decide), hnone]
  exact State.letGo_own (s := s.setReg (Reg.mig d + 0x20) (s.reg (Reg.mig d + 0x20) ||| 4)) hw _

/-! ### Copies -/

/-- An engine that has copied its length ends. -/
theorem State.migRun_end {s : State} {d : Nat} (h : s.migLen d ≤ Assoc.get 0 d s.migs) : ∀ n, s.migRun d n = s.migEnd d false
  | 0 => if_pos h
  | _ + 1 => if_pos h

section
variable {s : State} (hd : s.pins.port < 4) (hb : s.migBusy s.pins.port = true)
include hd hb

theorem exec_migrationCopyEnd : exec .migrationCopyEnd s = .next (
    if (!s.migLsrc s.pins.port && overlaps (s.migSrc s.pins.port) (s.migLen s.pins.port) (s.migDst s.pins.port) (s.migLen s.pins.port)) ||
      decide (s.migLen s.pins.port % 128 ≠ 0) then s.migEnd s.pins.port true
    else s.migRun s.pins.port (if s.pins.count = 0 then s.migLen s.pins.port / 128 else s.pins.count)) := by
  change execMigrationCopyEnd s = _
  unfold execMigrationCopyEnd
  dsimp only
  rw [hb, if_neg (by simp; omega)]

/-- A length that is no multiple of 128 stops the copy (R115). -/
theorem exec_migrationCopyEnd_uneven (hn : s.migLen s.pins.port % 128 ≠ 0) :
    exec .migrationCopyEnd s = .next (s.migEnd s.pins.port true) := by
  rw [exec_migrationCopyEnd hd hb, if_pos (by simp [hn])]

theorem exec_migrationCopyEnd_done (hn : s.migLen s.pins.port % 128 = 0)
    (ho : overlaps (s.migSrc s.pins.port) (s.migLen s.pins.port) (s.migDst s.pins.port) (s.migLen s.pins.port) = false)
    (he : s.migLen s.pins.port ≤ Assoc.get 0 s.pins.port s.migs) :
    exec .migrationCopyEnd s = .next (s.migEnd s.pins.port false) := by
  rw [exec_migrationCopyEnd hd hb, if_neg (by simp [hn, ho])]
  exact congrArg _ (State.migRun_end he _)

end

/-- A master above 63 touches the tags alone: it is not metered, and allocates nothing (R79, R369). -/
theorem State.touchL2_agent (s : State) {m : Nat} (h : 64 ≤ m) (line : Nat) (wr : Bool) (cp : Nat) :
    ∃ l, s.touchL2 m line wr cp = { s with l2 := l } := by
  have hcharge : s.charge (.slice (homeSlice line)) m 1 = s := if_pos h
  have hm : ¬ m < 64 := Nat.not_lt.mpr h
  unfold State.touchL2
  dsimp only
  rw [hcharge]
  split
  · split
    · exact ⟨_, rfl⟩
    · exact ⟨_, rfl⟩
  · rw [s.vdWays_agent hm, if_pos (by simp), s.countPch_agent hm]
    exact ⟨s.l2, rfl⟩

/-- A read from outside by such a master likewise touches the tags alone. -/
theorem State.ioRead_agent (s : State) {m : Nat} (h : 64 ≤ m) (a n : Nat) : ∃ l, (s.ioRead m a n).1 = { s with l2 := l } := by
  have hfold : ∀ (ls : List Nat) (l : List L2Tag), ∃ l', ls.foldl (fun s line => s.touchL2 m line false 0) { s with l2 := l } =
      ({ s with l2 := l' } : State) := by
    intro ls
    induction ls with
    | nil => exact fun l => ⟨l, rfl⟩
    | cons x ls ih =>
      intro l
      obtain ⟨l', hl'⟩ := State.touchL2_agent { s with l2 := l } h x false 0
      rw [List.foldl_cons, hl']
      exact ih l'
  exact hfold (linesAt a n) s.l2

/-- Outside the host windows nothing goes to the host. -/
theorem State.hostGet_own {s : State} {a n : Nat} (h1 : inHost s.roots a = false) (h2 : inHost s.roots (a + n - 1) = false) :
    s.hostGet a n = s := if_pos (by simp [h1, h2])

theorem State.hostPut_own {s : State} {a n : Nat} (h1 : inHost s.roots a = false) (h2 : inHost s.roots (a + n - 1) = false) :
    s.hostPut a n = s := if_pos (by simp [h1, h2])

theorem State.sameButCaches.roots {s t : State} (h : s.sameButCaches t) : t.roots = s.roots := by rw [h.eq]

theorem State.ioWrite_roots (s : State) (m a : Nat) (l : List Byte) (en : Nat → Bool) : (s.ioWrite m a l en).roots = s.roots := by
  obtain ⟨t, ht, hu⟩ := s.ioWrite_passes m a l en
  rw [hu.roots, State.putEnabled_frame, ← ht.roots]

section
variable {s : State} {d : Nat} (hm : s.memOk) (hc : s.crit = []) (hr : s.replay = [])
  (hl : s.migLsrc d = false) (hp : Assoc.get 0 d s.migs = 0)
  (hread : s.engineMay (64 + d) (s.migSrc d) 128 false = true) (hwrite : s.engineMay (64 + d) (s.migDst d) 128 true = true)
  (hclean : s.poisoned (s.migSrc d / 128) = false)
  (hhost : ∀ a ∈ [s.migSrc d, s.migSrc d + 127, s.migDst d, s.migDst d + 127], inHost s.roots a = false)
include hm hc hr hl hp hread hwrite hclean hhost

/-- The first line of a copy, clean and within the access table: its bytes are written at the destination. -/
theorem State.migLine_first : ∃ u, s.migLine d = (u, some true) ∧ s.writesOnly u (s.migDst d) 128 ∧
    u.homeBytes (s.migDst d) 128 = s.homeBytes (s.migSrc d) 128 := by
  obtain ⟨hs0, hs1, hd0, hd1⟩ : inHost s.roots (s.migSrc d) = false ∧ inHost s.roots (s.migSrc d + 127) = false ∧
      inHost s.roots (s.migDst d) = false ∧ inHost s.roots (s.migDst d + 127) = false := by simpa using hhost
  have hretry : s.retryBy (migWho d) = s := by
    unfold State.retryBy; rw [hr, List.filter_nil, ← hr]
  have hhot : ∀ l, s.migHot d l = none := by
    intro l
    unfold State.migHot State.hotLine
    rw [List.findSome?_eq_none_iff]
    intro x _
    simp [State.lineWaits_of_cool hc]
  obtain ⟨tags, ht⟩ := s.ioRead_agent (m := 64 + d) (by omega) (s.migSrc d) 128
  let t : State := { s with l2 := tags }
  have hmigRead : s.migRead d (s.migSrc d) = (t, .line (some (s.homeBytes (s.migSrc d) 128)) false) := by
    unfold State.migRead
    rw [hl, if_neg (by decide), hread, if_pos rfl]
    dsimp only
    rw [ht, hclean]
    exact Prod.ext (State.hostGet_own (s := t) hs0 hs1) rfl
  have hlen : (s.homeBytes (s.migSrc d) 128).length = 128 := s.length_homeBytes _ _
  obtain ⟨hme, hok, hother⟩ := State.ioWrite_writesOnly (s := t) hm (64 + d) (s.migDst d) (s.homeBytes (s.migSrc d) 128) fun _ => true
  have hback := State.homeBytes_ioWrite (s := t) hm (64 + d) (s.migDst d) (s.homeBytes (s.migSrc d) 128)
  have hroots := t.ioWrite_roots (64 + d) (s.migDst d) (s.homeBytes (s.migSrc d) 128) fun _ => true
  rw [hlen] at hother hback
  let w : State := t.ioWrite (64 + d) (s.migDst d) (s.homeBytes (s.migSrc d) 128) fun _ => true
  have hpoison : w.sameButCaches (w.setPoison (s.migDst d / 128) false) := w.setPoison_caches _ _
  have hput : (w.setPoison (s.migDst d / 128) false).hostPut (s.migDst d) 128 = w.setPoison (s.migDst d / 128) false := by
    refine State.hostPut_own ?_ ?_
    · rw [hpoison.roots, hroots]; exact hd0
    · rw [hpoison.roots, hroots]; exact hd1
  have hmay : t.engineMay (64 + d) (s.migDst d) 128 true = true := hwrite
  refine ⟨{ w.setPoison (s.migDst d / 128) false with migs := Assoc.put 0 d 128 (w.setPoison (s.migDst d / 128) false).migs }, ?_,
    ⟨hpoison.me.trans hme, State.memOk_of_mem hok hpoison.mem, fun x hx => (hpoison.homeByte x).trans (hother x hx)⟩, ?_⟩
  · unfold State.migLine
    simp only [hp, Nat.add_zero, hretry, hhot, hmigRead, hmay, Bool.not_true, Bool.false_and, Bool.or_self, Bool.false_eq_true, if_false]
    rw [hput]
  · exact (State.homeBytes_of_homeByte hpoison.homeByte _ _).trans hback

/-- The copy of one line: what the engine's end leaves of it is its status. -/
theorem exec_migrationCopyEnd_line (hd : d < 4) (hd' : s.pins.port = d) (hb : s.migBusy d = true) (hn : s.migLen d = 128) (h0 : s.pins.count = 0)
    (ho : overlaps (s.migSrc d) 128 (s.migDst d) 128 = false) (hsend : s.sendq = []) (hports : s.ports = []) :
    ∃ u, exec .migrationCopyEnd s = .next u ∧ s.writesOnly u (s.migDst d) 128 ∧
      u.homeBytes (s.migDst d) 128 = s.homeBytes (s.migSrc d) 128 := by
  obtain ⟨u, hline, hw, hb'⟩ := State.migLine_first hm hc hr hl hp hread hwrite hclean hhost
  have hfree : s.heldBy (migWho d) = false := by
    simp [State.heldBy, State.peerPending, hr, hsend, hports]
  have hrun : s.migRun d 1 = u.migRun d 0 := by
    unfold State.migRun
    rw [hp, hn, if_neg (by decide), hfree, if_neg (by decide), hline]
    rfl
  subst hd'
  refine ⟨u.migRun s.pins.port 0, ?_, ?_⟩
  · rw [exec_migrationCopyEnd hd hb, hn, ho, if_neg (by simp), h0, if_pos rfl, ← hrun]
  · unfold State.migRun
    split
    · exact ⟨hw, hb'⟩
    · exact ⟨hw, hb'⟩

end

end Sys2Proof.Machine
end

section
/-! PROOFS. Merges, leases and transfers (spec 06, R125 to R127, R133 to R136; spec 16). -/

namespace Sys2Proof.Machine

/-! ### Merges -/

section
variable {s : State} {w : PartWait} (hq : s.partq = [w]) (h0 : s.pins.count = 0) (ht : s.tagCurrent w.ctx w.incn = true)
  (hl : s.lineWaits w.vd w.line = false)
include hq h0 ht hl

/-- A row that arrives at once is added (R127). -/
theorem exec_unorderedMergeArrival (hn : w.n = 0) :
    exec .unorderedMergeArrival s = .next { s.mergeNow w with partq := [] } := by
  change execUnorderedMergeArrival s = _
  unfold execUnorderedMergeArrival State.arrive
  rw [hq, h0]
  simp [hn, ht, hl]

/-- The first part of an ordered merge opens an entry (R125). -/
theorem exec_mergePartArrival_first (hn : 2 ≤ w.n)
    (hnone : ∀ e ∈ s.merges, ¬ (e.ctx = w.ctx ∧ e.incn = w.incn ∧ e.line = w.line))
    (hroom : (s.merges.filter fun e => homeSlice e.line == homeSlice w.line).length < 64) :
    exec .mergePartArrival s =
      .next { s with merges := s.merges ++ [⟨w.ctx, w.incn, w.vd, w.line, w.n, [w.part], s.now⟩], partq := [] } := by
  have hfind : (s.merges.find? fun e => e.ctx == w.ctx && e.incn == w.incn && e.line == w.line) = none := by
    rw [List.find?_eq_none]
    intro e he hm
    simp only [Bool.and_eq_true, beq_iff_eq] at hm
    exact hnone e he ⟨hm.1.1, hm.1.2, hm.2⟩
  have hpart : s.mergePart w.ctx w.incn w.vd w.line w.n w.part =
      ({ s with merges := s.merges ++ [⟨w.ctx, w.incn, w.vd, w.line, w.n, [w.part], s.now⟩] }, true) := by
    unfold State.mergePart
    rw [hfind]
    dsimp only
    rw [if_neg (Nat.not_le.mpr hroom), if_neg (by omega)]
  have harrive : s.arrive w = ({ s with merges := s.merges ++ [⟨w.ctx, w.incn, w.vd, w.line, w.n, [w.part], s.now⟩] }, true) := by
    unfold State.arrive
    rw [ht, hl, if_neg (by decide), if_neg (by decide), if_neg (by omega), hpart]
  have hget : s.partq[s.pins.count]? = some w := by rw [hq, h0]; rfl
  have hsole : s.retryPart w = { (s.arrive w).1 with partq := (s.arrive w).1.partq.erase w } := by
    unfold State.retryPart
    rw [hq]
    simp [harrive]
  change execMergePartArrival s = _
  unfold execMergePartArrival
  rw [hget]
  dsimp only
  rw [if_neg (by omega), hsole, harrive]
  simp [hq]

end

theorem exec_mergeTimeout {s : State} {e : Merge} (he : s.merges[s.pins.count]? = some e) (h0 : s.regN Reg.mrgto ≠ 0)
    (h : s.regN Reg.mrgto ≤ s.now - e.born) :
    exec .mergeTimeout s =
      .next (((s.closeMerge e).countReg Reg.mrgtocnt 32).setReg Reg.mrgtoln (BitVec.ofNat 64 (128 * e.line))) := by
  change execMergeTimeout s = _
  unfold execMergeTimeout
  rw [he]
  simp [h0, h]

/-! ### Lease tables -/

section
variable {s : State} (hp : s.pins.port < 256)
include hp

theorem exec_lenderEntryWrite_base (ha : s.pins.addr = 8) (hv : s.pins.value < 2 ^ 48) :
    exec .lenderEntryWrite s = .next (s.setReg (Reg.lender s.pins.port + 8) (BitVec.ofNat 64 s.pins.value)) := by
  change execLenderEntryWrite s = _
  unfold execLenderEntryWrite State.writeLender
  dsimp only
  rw [Nat.mod_eq_of_lt hv, ha, if_neg (Nat.not_le.mpr hp), if_neg (by decide), if_pos (by decide)]

theorem exec_borrowerEntryWrite_base (ha : s.pins.addr = 8) (hv : s.pins.value < 2 ^ 48) :
    exec .borrowerEntryWrite s = .next (s.setReg (Reg.borrower s.pins.port + 8) (BitVec.ofNat 64 s.pins.value)) := by
  change execBorrowerEntryWrite s = _
  unfold execBorrowerEntryWrite State.writeBorrower
  dsimp only
  rw [Nat.mod_eq_of_lt hv, ha, if_neg (Nat.not_le.mpr hp), if_neg (by decide), if_pos (by decide)]

/-- A lender entry that becomes revoking sends REVOKE, and its time starts (R135, R136). -/
theorem exec_lenderEntryWrite_revoke (ha : s.pins.addr = 0) (hs : Lease.state (s.lender s.pins.port) ≠ 2)
    (hv : field s.pins.value 16 2 = 2) :
    ∃ u, exec .lenderEntryWrite s = .next u ∧
      u.out = .lease 2 s.pins.port (field s.pins.value 48 8) (field s.pins.value 32 16) :: s.out ∧
      (s.pins.port, s.now) ∈ u.revoked ∧ u.mem = s.mem ∧ u.me = s.me := by
  refine ⟨s.writeLender s.pins.port s.pins.addr s.pins.value, rfl, ?_⟩
  unfold State.writeLender
  simp [ha, Nat.not_le.mpr hp, hv, hs, State.say, State.setLeaseState, State.setRegField]

end

theorem exec_revtoExpiry {s : State} {t : Nat} (hf : s.revoked.find? (fun r => r.1 == s.pins.port) = some (s.pins.port, t))
    (h : Lease.revto (s.lender s.pins.port) * usCycles ≤ s.now - t) :
    exec .revtoExpiry s =
      .next { s.setLeaseState (Reg.lender s.pins.port) 0 with revoked := s.revoked.filter fun r => r.1 != s.pins.port } := by
  change execRevtoExpiry s = _
  unfold execRevtoExpiry
  dsimp only
  rw [hf]
  exact congrArg _ (if_pos h)

theorem exec_revokeDrainDone {s : State} (hm : s.pins.port ∈ s.borrowq) (hb : s.leaseBusy s.pins.port = false) :
    exec .revokeDrainDone s =
      .next (({ s with borrowq := s.borrowq.filter fun j => j != s.pins.port } : State).say (.notice false s.pins.port)) := by
  change execRevokeDrainDone s = _
  unfold execRevokeDrainDone
  simp [hm, hb]

/-! ### Lease messages -/

section
variable {s : State} {kind : Nat} (hn : s.pins.bytes.length = 64)
include hn

/-- LIDX, BIDX and LGEN of a message of 64 bytes. -/
theorem leaseMessage_of_kind (hk : ofLe ((s.pins.bytes.drop 0).take 1) = kind) : leaseMessage s.pins.bytes kind =
    some (ofLe ((s.pins.bytes.drop 2).take 1), ofLe ((s.pins.bytes.drop 3).take 1), ofLe ((s.pins.bytes.drop 4).take 2)) := by
  unfold leaseMessage
  simp only [hn, hk, decide_true, Bool.and_self, if_true]

end

section
variable {s : State} {l b g : Nat}

theorem exec_leaseSetupMessage (hm : leaseMessage s.pins.bytes 1 = some (l, b, g)) :
    exec .leaseSetupMessage s = .next (s.say (.setup l b g)) := by
  change execLeaseSetupMessage s = _
  unfold execLeaseSetupMessage
  rw [hm]

/-- REVOKE of the active borrower entry that matches it (R135). -/
theorem exec_leaseRevokeMessage (hm : leaseMessage s.pins.bytes 2 = some (l, b, g)) (hs : Lease.state (s.borrower b) = 1)
    (hi : Lease.idx (s.borrower b) = l) (hg : Lease.lgen (s.borrower b) = g) :
    exec .leaseRevokeMessage s = .next { s.setLeaseState (Reg.borrower b) 2 with borrowq := s.borrowq ++ [b] } := by
  change execLeaseRevokeMessage s = _
  unfold execLeaseRevokeMessage
  rw [hm]
  exact congrArg _ (if_pos (by simp [hs, hi, hg]))

/-- DONE of the revoking lender entry that matches it (R135). -/
theorem exec_leaseDoneMessage (hm : leaseMessage s.pins.bytes 3 = some (l, b, g)) (hs : Lease.state (s.lender l) = 2)
    (hi : Lease.idx (s.lender l) = b) (hg : Lease.lgen (s.lender l) = g) :
    exec .leaseDoneMessage s = .next
      (({ s.setLeaseState (Reg.lender l) 0 with revoked := s.revoked.filter fun r => r.1 != l } : State).say (.notice true l)) := by
  change execLeaseDoneMessage s = _
  unfold execLeaseDoneMessage
  rw [hm]
  exact congrArg _ (if_pos (by simp [hs, hi, hg]))

end

/-! ### Transfers -/

section
variable {s : State} {x : Xfer} (hx : s.xfers[s.pins.count]? = some x)
include hx

theorem exec_copyBeat (hr : x.regs.rsh = false) (hm : s.mutedOf x = none) : exec .copyBeat s = .next (s.beat x) := by
  change execCopyBeat s = _
  unfold execCopyBeat
  rw [hx]
  simp [hr, hm]

theorem exec_remoteShareBeat (hr : x.regs.rsh = true) : exec .remoteShareBeat s = .next (s.beat x) := by
  change execRemoteShareBeat s = _
  unfold execRemoteShareBeat
  rw [hx]
  simp [hr]

theorem exec_chunkLanded : exec .chunkLanded s = .next (s.chunkLanded x) := by
  change execChunkLanded s = _
  unfold execChunkLanded
  rw [hx]

theorem exec_transferComplete (hf : x.regs.flagen = false) (hc : x.regs.cmask = 0) :
    exec .transferComplete s = .next (s.completeXfer x) := by
  change execTransferComplete s = _
  unfold execTransferComplete
  rw [hx]
  simp [hf, hc]

end

end Sys2Proof.Machine
end

section
/-! PROOFS. Leased reads and application cores (spec 06, R134; spec 01, R4, R5, R153). -/

namespace Sys2Proof.Machine

/-! ### A leased read -/

section
variable {s : State} (hv : s.pins.value < 2 ^ 24) (hb : s.pins.bytes = []) (hn : 0 < s.pins.count) (hx : s.pins.count ≤ 256)
include hv hb hn hx

/-- The request that a leased read makes of the home slices. -/
def Pins.leasedRead (p : Pins) : InReq :=
  ⟨72, p.port, p.addr, .read p.count, false, some (field p.value 16 8, field p.value 0 16)⟩

theorem exec_leasedAccessArrival_read : exec .leasedAccessArrival s = .next (s.inbound s.pins.leasedRead) := by
  have hsize : ¬ ((MemOp.read s.pins.count).size = 0 || 256 < (MemOp.read s.pins.count).size) = true := by
    show ¬ (s.pins.count = 0 || 256 < s.pins.count) = true
    simp; omega
  change execLeasedAccessArrival s = _
  unfold execLeasedAccessArrival
  dsimp only
  rw [if_pos hv, hb, List.isEmpty_nil, if_pos rfl]
  unfold State.forPeer
  rw [if_neg hsize]
  rfl

end

theorem inboundOk_leasedRead {s : State} (h1 : s.inMap s.pins.addr = true) (h2 : s.inMap (s.pins.addr + s.pins.count - 1) = true)
    (ha : s.admits 72 s.pins.addr s.pins.count false = true)
    (hl : s.leaseAdmits (field s.pins.value 16 8) (field s.pins.value 0 16) s.pins.addr s.pins.count true false = true) :
    s.inboundOk s.pins.leasedRead = true := by
  show (false || s.inMap s.pins.addr && s.inMap (s.pins.addr + s.pins.count - 1) && s.admits 72 s.pins.addr s.pins.count false &&
    s.leaseAdmits (field s.pins.value 16 8) (field s.pins.value 0 16) s.pins.addr s.pins.count true false) = true
  rw [h1, h2, ha, hl]
  rfl

/-- A lender entry that does not admit an access refuses it, whatever the access table says. -/
theorem inboundOk_leasedRead_refused {s : State}
    (hl : s.leaseAdmits (field s.pins.value 16 8) (field s.pins.value 0 16) s.pins.addr s.pins.count true false = false) :
    s.inboundOk s.pins.leasedRead = false := by
  show (false || s.inMap s.pins.addr && s.inMap (s.pins.addr + s.pins.count - 1) && s.admits 72 s.pins.addr s.pins.count false &&
    s.leaseAdmits (field s.pins.value 16 8) (field s.pins.value 0 16) s.pins.addr s.pins.count true false) = false
  rw [hl, Bool.and_false]
  rfl

/-! ### Application cores -/

section
variable {s : State} (ha : 0xF80000000000 ≤ s.pins.addr) (hb : s.pins.bytes = []) (hn : 0 < s.pins.count)
include ha hb hn

/-- A core's access of register space by a load. -/
theorem exec_applicationCoreAccess_reg :
    exec .applicationCoreAccess s = .next (s.coreReg s.pins.addr s.pins.count [] s.pins.ok) := by
  change execApplicationCoreAccess s = _
  unfold execApplicationCoreAccess
  dsimp only
  rw [hb, List.isEmpty_nil, if_pos rfl, if_neg (by omega), if_pos ha]

end

theorem State.coreReg_refused {s : State} {a : Nat} (h : privReg a = true) (n : Nat) (b : List Byte) :
    s.coreReg a n b false = s.say .privTrap := if_pos (by rw [h]; rfl)

theorem State.coreReg_read {s : State} {a : Nat} {priv : Bool} (h : privReg a = false ∨ priv = true) (hc : s.inCaps a = false) (n : Nat) :
    s.coreReg a n [] priv = s.say (.answer (leBytes (min n 8) (s.readReg a).toNat)) := by
  have hp : (privReg a && !priv) = false := by
    rcases h with h | h <;> simp [h]
  unfold State.coreReg
  rw [hp, hc]
  rfl

section
variable {s : State} (hc : s.crit = []) (hr : s.replay = []) (hk : ∀ k ∈ s.strands, k.shows = false)
include hc hr hk

/-- With nothing waiting, no stack critical and no image shown a core's request performs: it is not checked (R131). -/
theorem State.inbound_core {r : InReq} (hm : r.m = 255) : s.inbound r = s.perform r := by
  have hok : s.inboundOk r = true := by unfold State.inboundOk; rw [hm]; rfl
  have hhot : s.inboundHot r = none := by
    unfold State.inboundHot
    rw [List.find?_eq_none]
    intro line _
    rw [State.lineWaits_of_cool hc]
    decide
  have hlast : behind s.replay r = none := by
    unfold behind
    rw [hr, List.find?_eq_none]
    intro line _
    simp
  have hshown : (s.strands.filter fun k => k.shows && s.imgMeets k r.addr r.op.size 0 k.imgSpan) = [] :=
    List.filter_eq_nil_iff.mpr fun k hm => by simp [hk k hm]
  have hserve : s.serve r = s.perform r := by
    unfold State.serve State.throughImages
    rw [if_pos hm]
    dsimp only
    rw [hshown]
    cases r.op.writes <;> rfl
  unfold State.inbound
  rw [hok, hhot, hlast]
  exact hserve

variable (hv : s.pins.value = 0) (ha : s.pins.addr < 0xF00000000000) (hh : inHost s.roots s.pins.addr = false)
  (h1 : s.inMap s.pins.addr = true)
include hv ha hh h1

theorem exec_applicationCoreAccess_read (hb : s.pins.bytes = []) (hn : 0 < s.pins.count)
    (h2 : s.inMap (s.pins.addr + s.pins.count - 1) = true) :
    exec .applicationCoreAccess s = .next (s.perform ⟨255, s.pins.port, s.pins.addr, .read s.pins.count, false, none⟩) := by
  rw [← State.inbound_core hc hr hk rfl]
  change execApplicationCoreAccess s = _
  unfold execApplicationCoreAccess
  dsimp only
  rw [hb, List.isEmpty_nil, if_pos rfl, if_neg (by omega), if_neg (by omega), hv]
  simp only [ne_eq, not_true_eq_false, if_false, if_true]
  rw [if_neg (by omega), hh]
  simp [h1, MemOp.size, h2]

theorem exec_applicationCoreAccess_write (hb : s.pins.bytes ≠ []) (h2 : s.inMap (s.pins.addr + s.pins.bytes.length - 1) = true) :
    exec .applicationCoreAccess s =
      .next (s.perform ⟨255, s.pins.port, s.pins.addr, wholeWrite s.pins.bytes, false, none⟩) := by
  have he : s.pins.bytes.isEmpty = false := by simpa using hb
  have hn : s.pins.bytes.length ≠ 0 := by simpa using hb
  rw [← State.inbound_core hc hr hk rfl]
  change execApplicationCoreAccess s = _
  unfold execApplicationCoreAccess
  dsimp only
  rw [he]
  simp only [Bool.false_eq_true, if_false]
  rw [if_neg hn, if_neg (by omega), hv]
  simp only [ne_eq, not_true_eq_false, if_false]
  rw [if_neg (by omega), hh]
  simp [h1, MemOp.size, wholeWrite, h2]

end

/-- A write of all its bytes by a core is read back, and nothing else moves. -/
theorem State.perform_coreWrite {s : State} (h : s.memOk) (port a : Nat) (b : List Byte) :
    let u := s.perform ⟨255, port, a, wholeWrite b, false, none⟩
    s.writesOnly u a b.length ∧ u.homeBytes a b.length = b := by
  have hu : s.perform ⟨255, port, a, wholeWrite b, false, none⟩ = s.ioWrite 255 a b fun i => (2 ^ b.length - 1).testBit i := rfl
  dsimp only
  rw [hu]
  refine ⟨State.ioWrite_writesOnly h 255 a b _, List.ext_getElem (by simp) fun i _ hi => ?_⟩
  simp only [State.homeBytes, List.getElem_map, List.getElem_range]
  have hen : (2 ^ b.length - 1).testBit (a + i - a) = true := by
    rw [Nat.testBit_two_pow_sub_one, decide_eq_true_eq]; omega
  rw [State.homeByte_ioWrite h, if_pos ⟨by omega, by omega, hen⟩, show a + i - a = i by omega, List.getD_eq_getElem _ _ hi]

end Sys2Proof.Machine
end

section
/-! PROOFS. Events of engines, merges, leases, cores and transfers: the statement O57. -/

namespace Sys2Proof.Machine

/-- The engine's status word as its bits. -/
theorem State.reg_eq_ofNat_regN (s : State) (a : Nat) : BitVec.ofNat 64 (s.regN a) = s.reg a := by unfold State.regN; simp

/-- Settles O57: each event takes the one branch of its definition that its premises name; memory moves as the laws of reads and
writes at the home slices say. Where a core's register read gives at most 8 bytes is log entry 93, the microsecond log entry 64. -/
theorem memoryEvents : Obligations.MemoryEvents := by
  intro s p say
  refine ⟨fun hd => ⟨fun hv hst => ?go, fun hv hst => ?goBusy, fun hv h1 h2 hq hw => ?rel, fun hb hn => ?length, fun hb hn hl ho he => ?ended,
    fun hb hn hp hl hc ho hrd hwr hcl hm hcr hr hsq hpt hh => ?line⟩,
    fun w hq h0 ht hl => ⟨fun hn => ?unordered, fun hn hnone hroom => ?ordered⟩, fun e he h0 h => ?timeout, ⟨?base, ?revoke, ?revto, ?drained⟩,
    fun hn => ⟨?setup, ?revokeMsg, ?doneMsg⟩, fun hv hb hn hx => ⟨?leaseRefused, ?leaseRead⟩, fun hb ha hn hc => ⟨?regPriv, ?regRead⟩,
    fun hv ha hh h1 hc hr hk => ⟨?coreRead, ?coreWrite⟩, fun x hx => ⟨exec_copyBeat hx, exec_remoteShareBeat hx, exec_chunkLanded hx,
      exec_transferComplete hx⟩⟩
  case go =>
    have hidle : s.migBusy p.port = false := by
      rw [Bool.eq_false_iff, ne_eq, State.migBusy_iff]
      exact fun h => absurd (hst.symm.trans h) (by decide)
    rw [exec_migctlGo hd hv]
    exact congrArg _ (if_neg (by rw [hidle]; decide))
  case goBusy =>
    rw [exec_migctlGo hd hv]
    exact congrArg _ (if_pos ((s.migBusy_iff p.port).mpr hst))
  case rel =>
    rw [exec_migctlRel hd hv, State.migRel_done h1 h2 hq hw]
    simp only [State.reg_eq_ofNat_regN, Bool.and_eq_true, decide_eq_true_eq]
    rfl
  case length => exact exec_migrationCopyEnd_uneven hd ((s.migBusy_iff p.port).mpr hb) hn
  case ended => exact exec_migrationCopyEnd_done hd ((s.migBusy_iff p.port).mpr hb) hn ho he
  case line =>
    obtain ⟨u, hu, ⟨hme, hok, hother⟩, hbytes⟩ := exec_migrationCopyEnd_line hm hcr hr hl hp hrd hwr hcl hh hd rfl
      ((s.migBusy_iff p.port).mpr hb) hn hc ho hsq hpt
    exact ⟨u, hu, hme, hok, hbytes, hother⟩
  case unordered => exact exec_unorderedMergeArrival hq h0 ht hl hn
  case ordered => exact exec_mergePartArrival_first hq h0 ht hl hn hnone hroom
  case timeout => exact exec_mergeTimeout he h0 h
  case base => exact fun hp ha hv => ⟨exec_lenderEntryWrite_base hp ha hv, exec_borrowerEntryWrite_base hp ha hv⟩
  case revoke => exact fun hp ha hs hv => exec_lenderEntryWrite_revoke hp ha hs hv
  case revto => exact fun t hf h => exec_revtoExpiry hf h
  case drained => exact fun hm hb => exec_revokeDrainDone hm hb
  case setup => exact fun hk => exec_leaseSetupMessage (leaseMessage_of_kind hn hk)
  case revokeMsg => exact fun hk hs hi hg => exec_leaseRevokeMessage (leaseMessage_of_kind hn hk) hs hi hg
  case doneMsg => exact fun hk hs hi hg => exec_leaseDoneMessage (leaseMessage_of_kind hn hk) hs hi hg
  case leaseRefused =>
    intro hl
    rw [exec_leasedAccessArrival_read hv hb hn hx, State.inbound_refused (inboundOk_leasedRead_refused hl)]
    rfl
  case leaseRead =>
    intro hl h1 h2 ha hc hr hclean
    refine ⟨_, ?_, s.ioRead_answers 72 p.addr p.count⟩
    rw [exec_leasedAccessArrival_read hv hb hn hx,
      State.inbound_performs hc hr (inboundOk_leasedRead h1 h2 ha hl) (by show 72 ≠ 255; decide)]
    exact congrArg _ (State.perform_read_clean hclean 72 p.port p.addr p.count)
  case regPriv =>
    intro hp hok
    rw [exec_applicationCoreAccess_reg ha hb hn, hok]
    exact congrArg _ (State.coreReg_refused hp _ _)
  case regRead =>
    intro hp
    rw [exec_applicationCoreAccess_reg ha hb hn]
    exact congrArg _ (State.coreReg_read hp hc _)
  case coreRead =>
    intro hb hn h2 hclean
    refine ⟨_, ?_, s.ioRead_answers 255 p.addr p.count⟩
    rw [exec_applicationCoreAccess_read hc hr hk hv ha hh h1 hb hn h2]
    exact congrArg _ (State.perform_read_clean hclean 255 p.port p.addr p.count)
  case coreWrite =>
    intro hb h2 hm
    obtain ⟨⟨hme, hok, hother⟩, hbytes⟩ := State.perform_coreWrite hm p.port p.addr p.bytes
    exact ⟨_, exec_applicationCoreAccess_write hc hr hk hv ha hh h1 hb h2, hme, hok, hbytes, hother⟩
end Sys2Proof.Machine
end

section
/-! PROOFS. EXIT ends the strand (spec 06, R18, R120; spec 13, R281): the statement O19. -/

namespace Sys2Proof.Machine

/-! ### A strip closes and stores perform (R120, R151) -/

/-- Between two states only what closing the strip and performing stores changes differs: memory, the caches, the metering, the CUs'
buffers, the trace, and of the strand its strip and its record of vector stores. -/
def State.storesDone (s t : State) : Prop :=
  t = { s with me := { s.me with strip := t.me.strip, older := t.me.older }, mem := t.mem, fogged := t.fogged, cus := t.cus,
               trace := t.trace, adie := t.adie, buckets := t.buckets, last := t.last, l2 := t.l2, poison := t.poison }

namespace State.storesDone
variable {s t u : State}

theorem refl (s : State) : s.storesDone s := rfl

theorem trans (h : s.storesDone t) (g : t.storesDone u) : s.storesDone u := by
  unfold State.storesDone at *; rw [g, h]

theorem of_caches (h : s.sameButCaches t) : s.storesDone t := by
  unfold State.storesDone; rw [h.eq]

/-- A sequence of such changes is one. -/
theorem foldl {α : Type} {f : State → α → State} (hf : ∀ (s : State) x, s.storesDone (f s x)) :
    ∀ (l : List α) (s : State), s.storesDone (l.foldl f s)
  | [], s => refl s
  | x :: l, s => (hf s x).trans (foldl hf l (f s x))

theorem eq (h : s.storesDone t) :
    t = { s with me := { s.me with strip := t.me.strip, older := t.me.older }, mem := t.mem, fogged := t.fogged, cus := t.cus,
                 trace := t.trace, adie := t.adie, buckets := t.buckets, last := t.last, l2 := t.l2, poison := t.poison } := h

theorem others (h : s.storesDone t) : t.others = s.others := by rw [h.eq]
theorem crit (h : s.storesDone t) : t.crit = s.crit := by rw [h.eq]
theorem boundXfers (h : s.storesDone t) : t.boundXfers = s.boundXfers := by rw [h.eq]; rfl
theorem partsWait (h : s.storesDone t) : t.partsWait = s.partsWait := by rw [h.eq]; rfl

end State.storesDone

theorem State.emit_storesDone (s : State) (w0 w1 w2 w3 : Word) : s.storesDone (s.emit w0 w1 w2 w3) := by
  unfold State.emit
  dsimp only
  split
  · exact .of_caches (s.countReg_meters _ _).caches
  · rfl

theorem State.closeStrip_storesDone (s : State) (on : Bool) (pc : Word) (fin can : Bool) :
    s.storesDone (s.closeStrip on pc fin can) := by
  unfold State.closeStrip
  dsimp only
  split
  · exact (s.emit_storesDone _ _ _ _).trans rfl
  · rfl

theorem State.setHomeByte_storesDone (s : State) (c : Nat × Byte) : s.storesDone (s.setHomeByte c.1 c.2) := rfl

theorem State.writeBack_storesDone (s : State) (l : WLine) : s.storesDone (s.writeBack l) := by
  unfold State.writeBack
  split
  · exact .of_caches (s.countReg_meters _ _).caches
  · exact ((State.storesDone.of_caches (s.touchL2_caches ..)).trans (.foldl State.setHomeByte_storesDone l.cells _)).trans
      (.of_caches (State.fixZero_caches ..))

theorem State.drainWcb_storesDone (s : State) (k : Nat) : s.storesDone (s.drainWcb k) :=
  .trans (t := s.setCu k { s.cu k with wcb := (s.cu k).wcb.filter s.stuck }) rfl (.foldl State.writeBack_storesDone _ _)

/-- With no stack critical every buffered line can leave (R18). -/
theorem State.stuckLine_of_cool {s : State} (h : s.crit = []) (k : Nat) : s.stuckLine k = none := by
  have leaves : ∀ l ∈ (s.cu k).wcb, ¬ s.stuck l = true := fun l _ => by simp [State.stuck, State.lineWaits_of_cool h]
  rw [State.stuckLine, List.find?_eq_none.mpr leaves]
  rfl

/-- A release of a strand with no merge part outstanding waits for nothing while no stack is critical (R18, R142, R151). -/
theorem State.release_of_cool {s : State} (hp : s.partsWait = false) (hc : s.crit = []) (scope : Nat) (vec : Bool) :
    ∃ u, s.release scope vec = .ok u () ∧ s.storesDone u := by
  have drained : s.storesDone (if scope = 0 then s else s.drainWcb s.me.cu) := by
    split
    · exact .refl s
    · exact s.drainWcb_storesDone _
  have goes : (if scope = 0 then none else (if scope = 0 then s else s.drainWcb s.me.cu).stuckLine s.me.cu) = none := by
    rw [State.stuckLine_of_cool (drained.crit.trans hc), ite_self]
  refine ⟨(if scope = 0 then s else s.drainWcb s.me.cu).onMe fun k => { k with older := k.older.map fun o => { o with rel := true } },
    ?_, drained.trans rfl⟩
  unfold State.release
  rw [hp, if_neg Bool.false_ne_true]
  dsimp only
  rw [goes]

/-- The strip closes and the strand's stores perform, where it waits for no transfer, no merge part and no critical stack. -/
theorem State.closing_of_cool {s : State} (hx : s.boundXfers = false) (hp : s.partsWait = false) (hc : s.crit = []) :
    ∃ u, s.closing = .ok u () ∧ s.storesDone u := by
  have closed := s.closeStrip_storesDone (s.me.ch.trctl.getLsbD 0) s.me.ch.pc true s.me.cancelled.isSome
  obtain ⟨u, released, stores⟩ := State.release_of_cool (closed.partsWait.trans hp) (closed.crit.trans hc) 2 false
  have done := closed.trans stores
  refine ⟨u, ?_, done⟩
  unfold State.closing
  dsimp only
  rw [released]
  exact if_neg (by simp [done.boundXfers, hx])

/-! ### The strand leaves (R63, R211, R281, R375) -/

theorem State.dropCuShare_others (s : State) : s.dropCuShare.others = s.others := by
  unfold State.dropCuShare
  dsimp only
  split <;> rfl

theorem State.noteHold_others (s : State) : s.noteHold.others = s.others := by
  unfold State.noteHold
  split <;> rfl

theorem State.freeSplit_others (s : State) (cu : Nat) : (s.freeSplit cu).others = s.others := by
  unfold State.freeSplit
  split <;> rfl

theorem State.addRel_strands (s : State) (v r : Nat) (n : BitVec 32) (can : Bool) :
    (s.addRel v r n can).me = s.me ∧ (s.addRel v r n can).others = s.others := by
  unfold State.addRel
  split <;> exact ⟨rfl, rfl⟩

theorem State.holding_strands (s : State) (hold : Bool) (f : State → State) :
    (s.holding hold f).me = (f s).me ∧ (s.holding hold f).others = (f s).others := by
  cases hold <;> exact ⟨rfl, rfl⟩

/-- Counting an end moves no strand. -/
theorem State.countEnd_strands (s : State) (k : Strand) (can : Bool) :
    (s.countEnd k can).me = s.me ∧ (s.countEnd k can).others = s.others := by
  unfold State.countEnd
  rw [(State.holding_strands ..).1, (State.holding_strands ..).2]
  split
  · exact s.addRel_strands _ _ _ _
  · exact ⟨rfl, rfl⟩

/-- The end of a strand leaves no strand in its place, and the others as they stand. -/
theorem State.endStrand_strands (s : State) : s.endStrand.me = Strand.none ∧ s.endStrand.others = s.others := by
  unfold State.endStrand
  dsimp only
  rw [(State.countEnd_strands _ _ _).1, (State.countEnd_strands _ _ _).2, State.freeSplit_me, State.freeSplit_others]
  exact ⟨rfl, (State.noteHold_others _).trans (State.dropCuShare_others _)⟩

/-! ### The statement -/

theorem exec_exit {s u : State} (hp : s.me.pend = []) (hc : s.closing = .ok u ()) : exec .exit s = .next u.endStrand := by
  change execExit s = _
  unfold execExit State.whenIdle
  rw [if_pos (by simp [State.idle, hp])]
  dsimp only
  rw [hc]

/-- Settles O19: with nothing to wait for the strip closes and the stores perform, then the end leaves the other strands. -/
theorem exitEnds : Obligations.ExitEnds := by
  intro s hp hx hm hc
  obtain ⟨u, closes, done⟩ := State.closing_of_cool hx hm hc
  obtain ⟨gone, others⟩ := u.endStrand_strands
  exact ⟨_, u, closes, exec_exit hp closes, rfl, gone, others.trans done.others⟩

end Sys2Proof.Machine
end

section
/-! PROOFS. AMO (spec 06, R119, R142; spec 15, R323, R324): the statement O29. -/

namespace Sys2Proof.Machine

/-- AMO with nothing older pending is its release where ORD asks for one, the access, then its acquire where ORD asks for one. -/
theorem exec_amo_idle {s : State} (hp : s.me.pend = []) (op : AmoOp) (t : AmoTy) (ord : BitVec 2) (d : SReg) (m : Addr)
    (off : BitVec 12) (b : SReg) :
    exec (.amo op t ord d m off b) s = .next (s.scalarAmo op t ord d (refOf m.sl (s.sreg m.a) off.toInt) m.sc b) := by
  change execAmo op t ord d m off b s = _
  unfold execAmo
  dsimp only
  rw [State.heldWord_idle hp]

/-- A release before an access leaves the registers of the strand, and the stop it resumes from. -/
theorem State.releaseFor_ch_resume {s v : State} {r : Ref} {sc : BitVec 2} {vec : Bool} (h : s.releaseFor r sc vec = .ok v ()) :
    v.me.ch = s.me.ch ∧ v.me.resume = s.me.resume := by
  have keeps := s.releaseFor_keepsMe r sc vec
  rw [h] at keeps
  constructor <;> rw [show v.me = _ from keeps]

theorem atomicOrder : Claims.AtomicOrder := by
  intro op t ord d m off b s v u old r hp released access
  have kept : v.me.ch = s.me.ch ∧ v.me.resume = s.me.resume := by
    split at released
    · exact State.releaseFor_ch_resume released
    · cases released; exact ⟨rfl, rfl⟩
  obtain ⟨ch, resume⟩ := kept
  have operands : ∀ i, v.sreg i = s.sreg i := fun i => by unfold State.sreg; rw [ch]
  have watch : v.supWatch = s.supWatch := by unfold State.supWatch; rw [ch, resume]
  rw [watch, operands, operands] at access
  rw [exec_amo_idle hp]
  unfold State.scalarAmo
  rw [released]
  dsimp only
  rw [access]

/-- An aligned atomic inside the share, unwatched, answers the old value there and leaves the new one, if there is one, in its
bytes alone (R323, R324). -/
theorem State.amo_share {s : State} {t : AmoTy} {off : Int} (hw : s.me.dbgctl.getLsbD 2 = false) (h0 : 0 ≤ off)
    (h1 : off + amoBytes t ≤ 1024 * s.me.strshare) (ha : off % amoBytes t = 0) (op : AmoOp) (vec sup : Bool) (y c : Nat) :
    let n := amoBytes t
    let old := ofLe (cellsRead s.me.share off.toNat n)
    ∃ u, s.amo ⟨254, true, off⟩ op t vec sup y c = .ok u old ∧ u.me.ch = s.me.ch ∧ u.mem = s.mem ∧
      u.me.share = (amoNew op t old (y % 2 ^ (8 * n)) (c % 2 ^ (8 * n))).elim s.me.share fun x =>
        cellsWrite s.me.share off.toNat (leBytes n x) := by
  have checked : s.probe rdWr ⟨254, true, off⟩ (amoBytes t) false vec sup = .ok s (.share off.toNat, shareDesc) := by
    rw [State.probe_share s rfl, if_neg (by simpa using ha), if_neg (by omega), State.watched_of_off hw, Bool.and_false,
      if_neg Bool.false_ne_true]
  unfold State.amo
  rw [checked]
  dsimp only [State.homeLoc]
  cases amoNew op t (ofLe (cellsRead s.me.share off.toNat (amoBytes t))) (y % 2 ^ (8 * amoBytes t)) (c % 2 ^ (8 * amoBytes t)) with
  | some x => exact ⟨s.setHomeLoc (.share off.toNat) 0 (leBytes (amoBytes t) x), rfl, rfl, rfl, rfl⟩
  | none => exact ⟨s, rfl, rfl, rfl, rfl⟩

theorem shareAtomics : Claims.ShareAtomics := by
  intro op t d a b sc off s n at' old hp hw h0 h1 ha
  obtain ⟨v, access, ch, mem, share⟩ := State.amo_share hw h0 h1 ha op false s.supWatch (s.sreg b).toNat (s.sreg d).toNat
  have place : refOf 254 (s.sreg a) off.toInt = ⟨254, true, at'⟩ := refOf_slot (by decide) _ _
  obtain ⟨l, sees⟩ := v.chanterSees_eq ⟨254, true, at'⟩ n false
  rw [← place] at access
  have effect := atomicOrder op t 0 d ⟨sc, 254, a⟩ off b s s v old hp rfl access
  rw [if_neg (by decide), place, sees] at effect
  refine ⟨_, effect, ?_⟩
  simp only [State.next_me, State.next_mem, State.setSreg_me, State.setSreg_mem, State.onMe_me, State.onMe_mem, ch, mem, share,
    true_and]
  change (amoNew op t old ((s.sreg b).toNat % 2 ^ (8 * n)) ((s.sreg d).toNat % 2 ^ (8 * n))).elim _ _ = _
  generalize amoNew op t old _ _ = new
  cases new <;> rfl

/-- Settles O29: in the share by the effect of the access there; everywhere by the order of release, access and acquire. -/
theorem atomicWords : Obligations.AtomicWords := ⟨shareAtomics, atomicOrder⟩

end Sys2Proof.Machine
end

section
/-! PROOFS. TRAP, BRK and ERET (spec 08, R167, R168, R170, R173; spec 13, R275 to R277): the statements O14 and O15. -/

namespace Sys2Proof.Machine

/-! ### What a stop leaves (R167, R170) -/

/-- The strand as it stops, before the stop is delivered: what it waited for is forgotten, ESV0-ESV7 are the stop's. -/
def Strand.stopped (k : Strand) (st : Stop) (esv : Vector Word 8) : Strand :=
  { k with
    ch := { k.ch with esv := esv, pc := st.pc }
    wait := .none, trap := .none, forming := [], resume := .none, stepping := false, skipBrk := false, vwait := .none, armed := false
    woken := if st.cause = .asyncfault then k.woken else .none
    watching := .none, amo := .none }

/-- The state as its strand stops: the strand's waiting requests go, the trace takes its STOP record. -/
def State.stopped (s : State) (st : Stop) (esv : Vector Word 8) : State :=
  (s.onMe fun k => k.stopped st esv).dropWaits.emitStop st

/-- Between two states only the trace and the registers, with their counters, differ. -/
def State.sameButTrace (s t : State) : Prop := t = { s with trace := t.trace, adie := t.adie }

theorem State.countReg_sameButTrace (s : State) (a w : Nat) : s.sameButTrace (s.countReg a w) := by
  unfold State.countReg; split <;> rfl

theorem State.emitStop_sameButTrace (s : State) (st : Stop) : s.sameButTrace (s.emitStop st) := by
  unfold State.emitStop
  split
  · unfold State.emit
    dsimp only
    split
    · exact s.countReg_sameButTrace _ _
    · rfl
  · rfl

@[simp] theorem State.stopped_me (s : State) (st : Stop) (esv : Vector Word 8) : (s.stopped st esv).me = s.me.stopped st esv :=
  State.emitStop_me _ st

theorem State.stopped_eq (s : State) (st : Stop) (esv : Vector Word 8) :
    let t := s.stopped st esv
    t = { s with me := s.me.stopped st esv, replay := t.replay, peerIn := t.peerIn, trace := t.trace, adie := t.adie } := by
  have h : _ = s.stopped st esv := (State.emitStop_sameButTrace _ st).symm
  rw [← h]
  rfl

@[simp] theorem State.stopped_mem (s : State) (st : Stop) (esv : Vector Word 8) : (s.stopped st esv).mem = s.mem := by
  rw [s.stopped_eq]
@[simp] theorem State.stopped_counters (s : State) (st : Stop) (esv : Vector Word 8) : (s.stopped st esv).counters = s.counters := by
  rw [s.stopped_eq]
@[simp] theorem State.stopped_others (s : State) (st : Stop) (esv : Vector Word 8) : (s.stopped st esv).others = s.others := by
  rw [s.stopped_eq]
@[simp] theorem State.stopped_posts (s : State) (st : Stop) (esv : Vector Word 8) : (s.stopped st esv).posts = s.posts := by
  rw [s.stopped_eq]

/-! ### A class H stop enters the handler or escalates (R167) -/

/-- A handler is named in TVEC and none is active. -/
theorem Chanter.handles_iff (c : Chanter) : c.handles = true ↔ c.tvec.extractLsb' 0 48 ≠ 0 ∧ c.tcause.getLsbD 31 = false := by
  simp [Chanter.handles]

theorem State.takeStop_handler {s : State} {st : Stop} (hd : st.cause.delivery = .handler) (esv : Vector Word 8) :
    s.takeStop st esv = if s.me.ch.handles then (s.stopped st esv).onCh fun c => c.enter st
      else (s.stopped st esv).park st true .parked := by
  have still : (s.stopped st esv).me.ch.handles = s.me.ch.handles := by rw [State.stopped_me]; rfl
  rw [← still]
  unfold State.takeStop
  dsimp only
  rw [hd]
  rfl

/-! ### Fault records (R173) -/

theorem State.setHomeBytes_posts (l : List Byte) : ∀ (s : State) (a : Nat), (s.setHomeBytes a l).posts = s.posts := by
  induction l with
  | nil => exact fun _ _ => rfl
  | cons b l ih => exact fun s a => ih (s.setHomeByte a b) (a + 1)

@[simp] theorem State.writeRecord_posts (s : State) (r : FaultRec) : (s.writeRecord r).posts = s.posts := by
  simp [State.writeRecord, State.setHomeBytes_posts]

/-- A posted record is written, or waits behind those that wait. -/
theorem State.postRecord_posts (s : State) (r : FaultRec) :
    (s.postRecord r).posts = s.posts ∨ (s.postRecord r).posts = s.posts ++ [r] := by
  unfold State.postRecord
  split
  · exact .inl (s.writeRecord_posts r)
  · exact .inr rfl

/-- Where a park leaves a record waiting, it is the record of its stop. -/
theorem State.park_posts (s : State) (st : Stop) (esc : Bool) (dest : Status) :
    (s.park st esc dest).posts = s.posts ∨
      (s.park st esc dest).posts =
        s.posts ++ [stopRecord { s.me with status := dest, keep := some st } st esc (st.cause == .asyncfault)] :=
  State.postRecord_posts _ _

/-! ### TRAP and BRK (R276) -/

theorem exec_trap (imm : BitVec 32) (s : State) :
    exec (.trap imm) s = .next (s.raise (stopAt s.me.ch.pc .trap (imm.setWidth 64))) := rfl

theorem exec_brk (imm : BitVec 32) (s : State) :
    exec (.brk imm) s = .next (s.raise (stopAt s.me.ch.pc .brk (imm.setWidth 64))) := rfl

theorem exec_trap_idle {s : State} (hp : s.me.pend = []) (imm : BitVec 32) :
    exec (.trap imm) s = .next (s.takeStop (stopAt s.me.ch.pc .trap (imm.setWidth 64)) (esvOutside s.me.grant)) := by
  rw [exec_trap, State.raise_of_pend_nil hp]

theorem exec_brk_idle {s : State} (hp : s.me.pend = []) (imm : BitVec 32) :
    exec (.brk imm) s = .next (s.takeStop (stopAt s.me.ch.pc .brk (imm.setWidth 64)) (esvOutside s.me.grant)) := by
  rw [exec_brk, State.raise_of_pend_nil hp]

/-- ACT and the code are all that TCAUSE takes of a stop outside a convoy. -/
theorem tcauseOf_stopAt (pc info : Word) (c : Cause) : tcauseOf (stopAt pc c info) = BitVec.ofNat 32 (c.code + 2 ^ 31) := by
  simp [tcauseOf, stopAt]

/-- TRAP and BRK are the stops of a class H cause with their code, at the word. -/
theorem exec_trap_brk {s : State} (hp : s.me.pend = []) {i : Instr} {imm code : BitVec 32}
    (h : (i = .trap imm ∧ code = 0x39) ∨ (i = .brk imm ∧ code = 0x38)) :
    ∃ c : Cause, exec i s = .next (s.takeStop (stopAt s.me.ch.pc c (imm.setWidth 64)) (esvOutside s.me.grant)) ∧
      c.delivery = .handler ∧ tcauseOf (stopAt s.me.ch.pc c (imm.setWidth 64)) = 0x80000000 ||| code := by
  obtain ⟨rfl, rfl⟩ | ⟨rfl, rfl⟩ := h
  · exact ⟨.trap, exec_trap_idle hp imm, rfl, by rw [tcauseOf_stopAt]; decide⟩
  · exact ⟨.brk, exec_brk_idle hp imm, rfl, by rw [tcauseOf_stopAt]; decide⟩

theorem trapEntry : Claims.TrapEntry := by
  intro imm s i code hi hp hv ha
  obtain ⟨c, hexec, hd, hcode⟩ := exec_trap_brk hp hi
  rw [State.takeStop_handler hd, if_pos ((Chanter.handles_iff _).2 ⟨hv, ha⟩)] at hexec
  refine ⟨_, hexec, ?_⟩
  simp only [State.onCh_me, Chanter.enter, hcode]
  simp [Strand.stopped, esvOutside, stopAt]

theorem trapEscalates : Claims.TrapEscalates := by
  intro imm s hp hh
  have unhandled : ¬ s.me.ch.handles = true := by
    rw [Chanter.handles_iff]
    rintro ⟨hv, ha⟩
    exact hh.elim hv (by rw [ha]; exact Bool.false_ne_true)
  refine ⟨_, by rw [exec_trap_idle hp, State.takeStop_handler rfl, if_neg unhandled], ?_⟩
  simp only [State.park_me, State.stopped_me]
  refine ⟨trivial, rfl, rfl, rfl, rfl, rfl, rfl, trivial, fun waits => ?_⟩
  obtain written | queued := (s.stopped (stopAt s.me.ch.pc .trap (imm.setWidth 64)) (esvOutside s.me.grant)).park_posts _ true .parked
  · exact absurd (written.trans (s.stopped_posts _ _)) waits
  · refine ⟨_, queued.trans (congrArg (· ++ _) (s.stopped_posts _ _)), rfl, rfl, ?_⟩
    rw [State.stopped_me]
    rfl

/-- Settles O14: both words stop for a class H cause, which enters the handler or, as for TRAP, escalates. -/
theorem trapTaken : Obligations.TrapTaken := ⟨trapEntry, trapEscalates⟩

/-! ### ERET (R168, R275, R277) -/

/-- Where ERET goes on: ACT is clear, and the levels that end at TPC have made their tests (R275). -/
def Chanter.returned (c : Chanter) : Chanter :=
  ({ c with tcause := c.tcause &&& 0x7FFFFFFF } : Chanter).fallTo (c.tpc.setWidth 64)

/-- The strand after ERET: where no level looped back it resumes the stop that TCAUSE, TPC and TINFO name (R168). -/
def Strand.returned (k : Strand) : Strand :=
  { k with
    ch := k.ch.returned, wait := .none, seq := k.seq + 1, skipBrk := false
    woken := k.woken.filter fun w => w.1 == k.ch.returned.pc
    resume := if k.ch.returned.pc = k.ch.tpc.setWidth 64 then some k.ch.resumes else .none }

section
variable {s : State}

theorem exec_eret_active (ha : s.me.ch.tcause.getLsbD 31 = true) :
    exec .eret s = .next (s.transfer (s.me.ch.tpc.setWidth 64) fun _ => s.onMe Strand.returned) :=
  congrArg _ (if_neg (by rw [ha]; exact Bool.false_ne_true))

theorem exec_eret_inactive (ha : s.me.ch.tcause.getLsbD 31 = false) :
    exec .eret s = .next (s.raise (stopAt s.me.ch.pc .priv (wordOf .eret))) :=
  congrArg _ (if_pos (by rw [ha]; rfl))

end

/-- Settles O15: without a handler active it traps; with one it is a transfer of control to TPC, outside a convoy and inside. -/
theorem eretReturns : Obligations.EretReturns := by
  intro s
  refine ⟨fun ha ho => ⟨s.onMe Strand.returned, ?_, rfl, rfl, rfl⟩, fun ha hi => ?_, exec_eret_inactive⟩
  · rw [exec_eret_active ha, State.transfer_outside ho]
  · rw [exec_eret_active ha, State.transfer_inside hi]

end Sys2Proof.Machine
end

section
/-! PROOFS. Mask words that meet an overfull result queue (spec 05, R87, R94): the statement O38. -/

namespace Sys2Proof.Machine

theorem exec_mtop_closed (md : MReg) (s : State) :
    exec (.mtop false md) s = .next (s.takeVector false (s.vword (.mtop false md) (.mtop md) 0 0 0)) := rfl

/-- Refutes O38: MTOP pushes nothing, yet with 17 entries in result queue 0 its convoy waits for room (R87, R94) and stays pending,
where the statement has nothing pending after it. The premise of O43 that no result queue holds more than 16 entries is missing. -/
theorem not_maskWordEffects : ¬ Obligations.MaskWordEffects := by
  rintro ⟨⟨hword, -, -⟩, -⟩
  obtain ⟨-, hset⟩ := hword (.mtop false 1) State.reset.overfull 1 (stackTop State.reset.overfull.me.stack) lone_overfull_reset rfl
  have hexec := hset (by decide) (by decide)
  exact (exec_overfull lone_overfull_reset rfl rfl rfl (exec_mtop_closed 1 _) hexec).1 lone_overfull_reset.1

end Sys2Proof.Machine
end

section
/-! PROOFS. Scalar floating point: NaN operands (spec 09, R186, R190) and the words of R267 to R270: the statements O8 and O9. -/

namespace Sys2Proof.Machine

/-! ### NaN operands (R186, R190) -/

@[simp] theorem Fp.sig_negate (x : Fp) : x.negate.sig = x.sig := by cases x <;> rfl
@[simp] theorem Fp.isNaN_negate (x : Fp) : x.negate.isNaN = x.isNaN := by cases x <;> rfl

theorem Fp.sig_of_not_isNaN {x : Fp} (h : x.isNaN = false) : x.sig = false := by
  cases x with
  | nan _ => nomatch h
  | inf | fin => rfl

/-- A product with a NaN factor is a NaN, which carries invalid where a factor is signalling. -/
theorem fpProd_of_isNaN {x y : Fp} (h : x.isNaN = true ∨ y.isNaN = true) :
    fpProd x y = .nan (if x.sig || y.sig then flagI else 0) := by
  cases x with
  | nan a => cases y <;> rfl
  | inf | fin =>
    cases y with
    | nan b => rfl
    | inf | fin => exact absurd h (by simp [Fp.isNaN])

theorem flagI_ite_ne_zero (b : Bool) : ((if b then flagI else 0) != 0) = b := by cases b <;> rfl

/-- A NaN product makes the sum a NaN. -/
theorem addProd_nan (f : FpTy) (m : Rm) (b : Bool) (z : Fp) :
    addProd f m (.nan (if b then flagI else 0)) z = nanRes f (b || z.sig) := by
  simp only [addProd, flagI_ite_ne_zero]

/-- A NaN factor makes the product's sum with any addend a NaN, of either sign of the product. -/
theorem addProd_fpProd_of_isNaN {x y : Fp} (h : x.isNaN = true ∨ y.isNaN = true) (f : FpTy) (m : Rm) (z : Fp) :
    addProd f m (fpProd x y) z = nanRes f (x.sig || y.sig || z.sig) ∧
    addProd f m (fpProd x y).negate z = nanRes f (x.sig || y.sig || z.sig) := by
  rw [fpProd_of_isNaN h]
  exact ⟨addProd_nan .., addProd_nan ..⟩

/-- A NaN addend makes the sum a NaN: a number times one is no NaN. -/
theorem addProd_fpOne_of_isNaN_addend {x z : Fp} (hx : x.isNaN = false) (hz : z.isNaN = true) (f : FpTy) (m : Rm) :
    addProd f m (fpProd x fpOne) z = nanRes f z.sig := by
  cases z with
  | nan s =>
    cases x with
    | nan _ => nomatch hx
    | inf | fin => rfl
  | inf | fin => nomatch hz

/-- A sum with a NaN operand. -/
theorem addProd_fpOne_of_isNaN {x z : Fp} (h : x.isNaN = true ∨ z.isNaN = true) (f : FpTy) (m : Rm) :
    addProd f m (fpProd x fpOne) z = nanRes f (x.sig || z.sig) := by
  cases hx : x.isNaN with
  | true => rw [(addProd_fpProd_of_isNaN (.inl hx) f m z).1]; simp [fpOne, Fp.sig]
  | false =>
    rw [addProd_fpOne_of_isNaN_addend hx (h.resolve_left (by simp [hx])) f m, Fp.sig_of_not_isNaN hx, Bool.false_or]

theorem fpAdd_of_isNaN {x y : Fp} (h : x.isNaN = true ∨ y.isNaN = true) (f : FpTy) (m : Rm) :
    fpAdd f m x y = nanRes f (x.sig || y.sig) := addProd_fpOne_of_isNaN h f m

theorem fpSub_of_isNaN {x y : Fp} (h : x.isNaN = true ∨ y.isNaN = true) (f : FpTy) (m : Rm) :
    fpSub f m x y = nanRes f (x.sig || y.sig) := by
  rw [← y.sig_negate]
  exact addProd_fpOne_of_isNaN (by rwa [Fp.isNaN_negate]) f m

theorem fpMul_of_isNaN {x y : Fp} (h : x.isNaN = true ∨ y.isNaN = true) (f : FpTy) (m : Rm) :
    fpMul f m x y = nanRes f (x.sig || y.sig) := by
  simp only [fpMul, fpProd_of_isNaN h, flagI_ite_ne_zero]

theorem fpDiv_of_isNaN {x y : Fp} (h : x.isNaN = true ∨ y.isNaN = true) (f : FpTy) (m : Rm) :
    fpDiv f m x y = nanRes f (x.sig || y.sig) := by
  cases x with
  | nan a => cases y <;> rfl
  | inf | fin =>
    cases y with
    | nan b => rfl
    | inf | fin => exact absurd h (by simp [Fp.isNaN])

/-- An operation other than minimum and maximum with a NaN as its first or second operand: the canonical NaN, with invalid
where one of them is signalling. -/
theorem fpOp_of_isNaN {k : FpOp} {t : FpTy} {a b : Nat} (hmin : k ≠ .min) (hmax : k ≠ .max)
    (h : (fpRead t a).isNaN = true ∨ (fpRead t b).isNaN = true) (m : Rm) (c : Nat) :
    ∃ z : Bool, fpOp k t m a b c = nanRes t ((fpRead t a).sig || (fpRead t b).sig || z) := by
  cases k with
  | add => exact ⟨false, by rw [Bool.or_false]; exact fpAdd_of_isNaN h t m⟩
  | sub => exact ⟨false, by rw [Bool.or_false]; exact fpSub_of_isNaN h t m⟩
  | mul => exact ⟨false, by rw [Bool.or_false]; exact fpMul_of_isNaN h t m⟩
  | div => exact ⟨false, by rw [Bool.or_false]; exact fpDiv_of_isNaN h t m⟩
  | fma => exact ⟨_, (addProd_fpProd_of_isNaN h t m _).1⟩
  | fms => exact ⟨_, (addProd_fpProd_of_isNaN h t m _).1⟩
  | fnma => exact ⟨_, (addProd_fpProd_of_isNaN h t m _).2⟩
  | min => exact absurd rfl hmin
  | max => exact absurd rfl hmax

/-- Settles O9: every such result is `nanRes`, and its invalid flag is that of a signalling operand. -/
theorem naNOperands : Obligations.NaNOperands := by
  intro k t m a b c hmin hmax h
  obtain ⟨z, hres⟩ := fpOp_of_isNaN hmin hmax h m c
  rw [hres]
  refine ⟨rfl, fun hsig => ?_⟩
  have signalling : ((fpRead t a).sig || (fpRead t b).sig) = true := by
    rcases hsig with hs | hs <;> simp [hs, Fp.sig]
  simp [nanRes, signalling]

/-! ### Scalar floating-point words (R267 to R270) -/

/-- Every scalar floating-point word that can raise exceptions ends with its result and them (R267). -/
theorem exec_of_fpWord {s : State} {i : Instr} {d : SReg} {x : Word} {fl : Flags} (h : Claims.fpWord s i = some (d, x, fl)) :
    exec i s = .next (s.fpResult d x fl) := by
  cases i with
  | fadd | fsub | fmul | fdiv | fsqrt | fma | fmin | fmax | fcmp => cases h; rfl
  | fcvt k rm d a =>
    cases k with
    | ff | fi | ofInt => cases h; rfl
  | _ => nomatch h

theorem State.fpResult_of_none {s : State} {fl : Flags} (h : fl &&& s.me.ch.fpctl.extractLsb' 8 5 = 0) (d : SReg) (x : Word) :
    s.fpResult d x fl = ((s.onMe fun k => { k with fpflg := k.fpflg ||| fl.setWidth 32 }).setSreg d x).next := by
  have noCause : fpCause (enabled s.me.ch.fpctl fl) = none := by rw [enabled, h]; rfl
  rw [State.fpResult, noCause]
  rfl

theorem State.fpResult_of_cause {s : State} {fl : Flags} {c : Cause} (hp : s.me.pend = [])
    (h : fpCause (fl &&& s.me.ch.fpctl.extractLsb' 8 5) = some c) (d : SReg) (x : Word) :
    s.fpResult d x fl = s.takeStop (stopAt s.me.ch.pc c 0xFFFF) (esvOutside s.me.grant) := by
  have cause : fpCause (enabled s.me.ch.fpctl fl) = some c := h
  rw [State.fpResult, cause]
  exact State.raise_of_pend_nil hp _

/-- The causes of floating-point exceptions are of class H (R166). -/
theorem fpCause_delivery {fl : Flags} {c : Cause} (h : fpCause fl = some c) : c.delivery = .handler := by
  unfold fpCause at h
  split_ifs at h <;> (cases h; rfl)

/-- A stop of class H leaves the scalar registers and FPFLG, whether it enters the handler or parks the strand. -/
theorem State.takeStop_registers {s : State} {st : Stop} (hd : st.cause.delivery = .handler) (esv : Vector Word 8) :
    (s.takeStop st esv).me.ch.s = s.me.ch.s ∧ (s.takeStop st esv).me.fpflg = s.me.fpflg := by
  rw [State.takeStop_handler hd]
  split
  · simp [Chanter.enter, Strand.stopped]
  · simp [State.park_me, Strand.stopped]

theorem fpScalarResults : Claims.FpScalarResults :=
  ⟨fun _ _ d x _ hw hfl => by rw [exec_of_fpWord hw, State.fpResult_of_none hfl d x], fun _ _ _ _ => rfl⟩

theorem fpScalarTraps : Claims.FpScalarTraps := by
  intro s i d x fl c hw hp hc
  obtain ⟨hs, hflags⟩ := s.takeStop_registers (st := stopAt s.me.ch.pc c 0xFFFF) (fpCause_delivery hc) (esvOutside s.me.grant)
  exact ⟨_, by rw [exec_of_fpWord hw, State.fpResult_of_cause hp hc], rfl, hs, hflags⟩

/-- Settles O8: each word is `State.fpResult` of its result, which writes or traps. -/
theorem fpScalarWords : Obligations.FpScalarWords := ⟨fpScalarResults, fpScalarTraps⟩

end Sys2Proof.Machine
end

section
/-! PROOFS. Vector floating-point words, reductions and matrix words that meet an overfull result queue (spec 05, R87, R94): the
statements O36, O40 and O45. -/

namespace Sys2Proof.Machine

theorem exec_vfabs_closed (mk : MReg) (t : FpTy) (d a : VReg) (s : State) :
    exec (.vfabs false mk t d a) s =
      .next (s.takeVector false (s.vword (.vfabs false mk t d a) (.fpUn .abs t .rne d a) mk 0 0)) := rfl

theorem exec_vredsum_closed (mk : MReg) (t : VIntTy) (d : RedDst) (a : VReg) (st : Option VReg) (s : State) :
    exec (.vredsum false mk t d a st) s =
      .next (s.takeVector false (s.vword (.vredsum false mk t d a st) (.red .sum t d a st) mk 0 0)) := rfl

theorem exec_mzero_closed (td : TReg) (s : State) :
    exec (.mzero false td) s = .next (s.takeVector false (s.vword (.mzero false td) (.mzero td) 0 0 0)) := rfl

/-- Refutes O36: a VFABS of no element pushes nothing, yet with 17 entries in result queue 0 its convoy waits for room (R87, R94)
and stays pending, where the statement has nothing pending after it. The premise of O43 that no result queue holds more than 16
entries is missing. -/
theorem not_vectorFloats : ¬ Obligations.VectorFloats := by
  intro h
  obtain ⟨g, hexec, -⟩ := h (.vfabs false 0 .f32 1 1) State.reset.overfull _ 0 _ lone_overfull_reset rfl rfl
    fun e he => act_overfull_reset 0 32 e he |>.elim
  exact (exec_overfull lone_overfull_reset rfl rfl rfl (exec_vfabs_closed ..) hexec).1 lone_overfull_reset.1

/-- Refutes O40: a VREDSUM into a vector register waits in the same way (R87, R94); only the words that push have the premise of
room, and that for their own queue alone. -/
theorem not_reductions : ¬ Obligations.Reductions := by
  rintro ⟨h, -⟩
  obtain ⟨-, intoVector⟩ := h (.vredsum false 0 .i32 (.vec 1) 1 none) State.reset.overfull _ _ _ _ _ lone_overfull_reset rfl
    (by decide +kernel)
  obtain ⟨g, hexec, -⟩ := intoVector 1 rfl
  exact (exec_overfull lone_overfull_reset rfl rfl rfl (exec_vredsum_closed ..) hexec).1 lone_overfull_reset.1

/-- Refutes O45: an MZERO waits in the same way (R87, R94); the same premise is missing. -/
theorem not_matrixWords : ¬ Obligations.MatrixWords := by
  rintro ⟨-, h⟩
  obtain ⟨hexec, -⟩ := h State.reset.overfull 1 0 0 lone_overfull_reset
  exact (exec_overfull lone_overfull_reset rfl rfl rfl (exec_mzero_closed ..) hexec).1 lone_overfull_reset.1

end Sys2Proof.Machine
end

section
/-! PROOFS. The trace writer and the checkpoints (spec 01, R23; spec 03, R74; spec 10, R215 to R219): the statement O58. Its clauses
about SEGMENT_SEAL, SEGMENT_SEND, CHECKPOINT_TIMER and a refused store hold; the one about a written store holds in canonical memory
and fails outside it. -/

namespace Sys2Proof.Machine

variable {s : State}

/-! ### The writers' cycles (R74) -/

theorem State.inSlot_trace (h1 : 1056 ≤ s.now % 4096) (h2 : s.now % 4096 < 1088) : s.inSlot .trace = true := by
  have turn : maintAt s.now = some .trace := by
    unfold maintAt
    dsimp only
    rw [if_neg (by omega), if_neg (by omega), if_pos (by simp; omega)]
  unfold State.inSlot
  rw [turn]
  rfl

theorem State.inSlot_checkpoint (h1 : 32 ≤ s.now % 4096) (h2 : s.now % 4096 < 96) : s.inSlot .checkpoint = true := by
  have turn : maintAt s.now = some .checkpoint := by
    unfold maintAt
    dsimp only
    rw [if_neg (by omega), if_pos h2]
  unfold State.inSlot
  rw [turn]
  rfl

/-! ### Segments (R215 to R217) -/

/-- The trace unit once its open segment has been sealed into a ring with a free slot. -/
def State.sealedTrace (s : State) : Trace :=
  { s.trace with
    cur := [], seq := s.trace.seq + 1, segs := s.trace.segs ++ [⟨s.trace.seq, s.trace.seq % s.trNseg, false⟩], flush := false }

/-- A segment with records, in a ring with a free slot that the writer may write, is written there. -/
theorem State.sealSegment_free (hcur : s.trace.cur ≠ []) (hring : s.trRing = true) (hfree : s.trace.segs.length < s.trNseg)
    (hmay : s.trMay s.trSlot 0x100000 = true) :
    s.sealSegment = { s.ioWrite 70 s.trSlot (segmentBytes s.trace.seq s.trace.start s.trace.cur) fun _ => true with
      trace := s.sealedTrace } := by
  have hopen : s.trace.cur.isEmpty = false := by simpa using hcur
  have hkeep : decide (s.trNseg ≤ s.trace.segs.length) = false := by simpa using hfree
  unfold State.sealSegment
  simp only [hring, hopen, hkeep, hmay, Bool.not_true, Bool.or_self, Bool.false_eq_true, if_false, if_true]
  rfl

/-- The clause of O58 about SEGMENT_SEAL: a segment that is full or flushed is sealed. -/
theorem exec_segmentSeal_free (hslot : s.inSlot .trace = true) (hdue : s.trace.flush = true ∨ segmentRecords ≤ s.trace.cur.length)
    (hcool : s.crit = []) (hcur : s.trace.cur ≠ []) (hring : s.trRing = true) (hfree : s.trace.segs.length < s.trNseg)
    (hmay : s.trMay s.trSlot 0x100000 = true) (hm : s.memOk) :
    let b := segmentBytes s.trace.seq s.trace.start s.trace.cur
    ∃ u, exec .segmentSeal s = .next u ∧ u.trace = s.sealedTrace ∧ u.me = s.me ∧ u.homeBytes s.trSlot b.length = b := by
  intro b
  have hwaits : s.trWaits = false := by simp [State.trWaits, hcool]
  have hseal : exec .segmentSeal s = .next s.sealSegment :=
    congrArg _ (if_pos (by simpa [hslot, hwaits] using hdue))
  rw [State.sealSegment_free hcur hring hfree hmay] at hseal
  exact ⟨_, hseal, rfl, (s.ioWrite_frame _ _ _ _).1, State.homeBytes_ioWrite hm 70 s.trSlot b⟩

/-- The clause of O58 about SEGMENT_SEND: the oldest segment not yet sent goes to storage. -/
theorem exec_segmentSend_oldest {x : Segment} (hslot : s.inSlot .trace = true) (hon : s.tracing = true)
    (hblocks : field (s.regN (Reg.trace + 0x18)) 32 32 ≠ 0)
    (hroot : (s.roots.any fun r => r.num == field (s.regN (Reg.trace + 0x10)) 0 4) = true)
    (hx : s.trace.segs.find? (fun x => !x.sent) = some x) :
    exec .segmentSend s = .next ({ s with trace := { s.trace with
      segs := s.trace.segs.map fun (y : Segment) => if y.seq = x.seq then { y with sent := true } else y } }.say
        (.segment (field (s.regN (Reg.trace + 0x10)) 16 16) (field (s.regN (Reg.trace + 0x10)) 0 4) x.seq (s.segmentBlock x.seq))) := by
  change execSegmentSend s = _
  unfold execSegmentSend
  dsimp only
  rw [if_neg (by simp [hon, hslot, hblocks, hroot]), hx]

/-! ### A checkpoint begins (R219) -/

/-- A device with no strand in the machine has none to squash. -/
theorem State.squashForCkpt_of_none {v : Nat} (h : ∀ k ∈ s.strands, k.vd ≠ v) : s.squashForCkpt v = s := by
  have none : (s.strands.filter fun k => k.vd == v && k.onCu && !k.muted && k.squashing.isNone) = [] :=
    List.filter_eq_nil_iff.mpr fun k hk => by simp [h k hk]
  unfold State.squashForCkpt
  rw [none]
  rfl

/-- The clause of O58 about CHECKPOINT_TIMER: T after the last checkpoint of a device with no strand, the next one begins. -/
theorem exec_checkpointTimer_due (hon : s.ckOn s.pins.port = true) (hidle : s.ckBusy s.pins.port = false)
    (hnone : ∀ k ∈ s.strands, k.vd ≠ s.pins.port) (hdue : s.ckPeriod s.pins.port ≤ s.now - (s.ckpt s.pins.port).last) :
    exec .checkpointTimer s = .next
      { (s.setReg (Reg.ckpt s.pins.port + 0x20) (s.reg (Reg.ckpt s.pins.port + 0x20) ||| 1)).setCkpt s.pins.port ⟨s.now, []⟩ with
        ologs := Assoc.put [] s.pins.port [] s.ologs } := by
  change execCheckpointTimer s = _
  unfold execCheckpointTimer
  dsimp only
  rw [hidle, if_neg (by decide), if_pos (by simp [hdue])]
  unfold State.takeCheckpoint
  rw [hon, hidle, if_neg (by decide)]
  exact congrArg _ (State.squashForCkpt_of_none hnone)

/-! ### A checkpoint ends (R218, R219) -/

/-- The address of the checkpoint store of device v (R218). -/
def State.ckStore (s : State) (v : Nat) : Nat := field (s.regN (Reg.ckpt v + 8)) 0 48

/-- The checkpoint status of device v once one more is done: not busy, with the next number (R218). -/
def State.ckDone (s : State) (v : Nat) : Word :=
  BitVec.ofNat 64 ((field (s.regN (Reg.ckpt v + 0x20)) 32 32 + 1) % 2 ^ 32 * 2 ^ 32)

/-- The state once the checkpoint writer has written the store of device v. -/
def State.ckWritten (s : State) (v : Nat) : State :=
  (s.makeFog (s.ckStore v) (s.ckStore v + s.ckBytes v)).hostPut (s.ckStore v) (s.ckBytes v)

theorem State.forward_frame (s : State) (a : Nat) (op : MemOp) : s.forward a op = { s with out := (s.forward a op).out } := by
  unfold State.forward
  split <;> rfl

/-- A sequence of updates of the messages is one. -/
theorem foldl_out {α : Type} {f : State → α → State} (hf : ∀ s x, f s x = { s with out := (f s x).out }) :
    ∀ (l : List α) (s : State), l.foldl f s = { s with out := (l.foldl f s).out }
  | [], _ => rfl
  | x :: l, s => by
    rw [List.foldl_cons, foldl_out hf l (f s x), hf s x]

/-- What a write of a host window changes is the messages to the host (R23). -/
theorem State.hostPut_frame (s : State) (a n : Nat) : s.hostPut a n = { s with out := (s.hostPut a n).out } := by
  unfold State.hostPut
  split
  · rfl
  · exact foldl_out (fun _ _ => State.forward_frame _ _ _) _ _

theorem State.homeByte_hostPut (s : State) (a n b : Nat) : (s.hostPut a n).homeByte b = s.homeByte b := by
  rw [State.hostPut_frame]
  rfl

/-- Leaving out entries of other keys leaves the value of a key. -/
theorem Assoc.get_filter {α : Type} [DecidableEq α] (d : α) {p : Nat → Bool} {k : Nat} (hk : p k = true) :
    ∀ {l : List (Nat × α)} {lo : Nat}, Assoc.wfFrom d lo l = true → Assoc.get d k (l.filter fun c => p c.1) = Assoc.get d k l
  | [], _, _ => rfl
  | (j, v) :: l, lo, hw => by
    have hl : Assoc.wfFrom d (j + 1) l = true := by
      simp only [Assoc.wfFrom, Bool.and_eq_true] at hw
      exact hw.2
    have ih := Assoc.get_filter d hk hl
    cases hj : p j with
    | true => simp [hj, Assoc.get, ih]
    | false =>
      have hne : j ≠ k := fun e => by simp [e, hk] at hj
      rw [List.filter_cons_of_neg (by simp [hj]), ih]
      by_cases hlt : k < j
      · rw [Assoc.get_below (show k < j + 1 by omega) hl]
        simp [Assoc.get, hne, hlt]
      · simp [Assoc.get, hne, hlt]

/-- In canonical memory the bytes outside a range that becomes unspecified stand (R128). -/
theorem State.homeByte_makeFog_outside (h : s.memOk) {lo hi b : Nat} (hb : b < lo ∨ hi ≤ b) :
    (s.makeFog lo hi).homeByte b = s.homeByte b := by
  have out : (decide (lo ≤ b) && decide (b < hi)) = false := by simp; omega
  have hmem : Assoc.get byteDefault b (s.makeFog lo hi).mem = Assoc.get byteDefault b s.mem :=
    Assoc.get_filter byteDefault (p := fun c => !(decide (lo ≤ c) && decide (c < hi))) (by simp [out]) h
  have hfogged : (s.makeFog lo hi).fogged.contains b = s.fogged.contains b := by
    rw [Bool.eq_iff_iff]
    simp only [State.makeFog_fogged, List.contains_iff_mem, List.mem_filter, out, Bool.not_false, and_true]
  unfold State.homeByte
  rw [hmem, hfogged, State.makeFog_fog, List.find?_cons_of_neg (by simp [out])]

/-- What the clause of O58 about CHECKPOINT_COMPLETE needs: in canonical memory a checkpoint leaves every byte outside its store. -/
theorem State.homeByte_ckWritten_outside (h : s.memOk) {v b : Nat} (hb : b < s.ckStore v ∨ s.ckStore v + s.ckBytes v ≤ b) :
    (s.ckWritten v).homeByte b = s.homeByte b :=
  (State.homeByte_hostPut _ _ _ _).trans (State.homeByte_makeFog_outside h hb)

section
variable (hbusy : s.ckBusy s.pins.port = true) (hsaved : s.ckSaved s.pins.port = true) (hslot : s.inSlot .checkpoint = true)
  (hcool : s.crit = [])
include hbusy hsaved hslot hcool

theorem exec_checkpointComplete_cool : exec .checkpointComplete s =
    let t := if s.ckMay (s.ckStore s.pins.port) (s.ckBytes s.pins.port) then s.ckWritten s.pins.port else s
    .next (t.setReg (Reg.ckpt s.pins.port + 0x20) (t.ckDone s.pins.port)) :=
  congrArg _ (if_neg (by simp [hbusy, hsaved, hslot, hcool]))

/-- The store is refused: the checkpoint counts all the same. -/
theorem exec_checkpointComplete_refused (hmay : s.ckMay (s.ckStore s.pins.port) (s.ckBytes s.pins.port) = false) :
    exec .checkpointComplete s = .next (s.setReg (Reg.ckpt s.pins.port + 0x20) (s.ckDone s.pins.port)) := by
  rw [exec_checkpointComplete_cool hbusy hsaved hslot hcool, hmay]
  rfl

/-- The store is written, and the checkpoint counts. -/
theorem exec_checkpointComplete_written (hmay : s.ckMay (s.ckStore s.pins.port) (s.ckBytes s.pins.port) = true) :
    exec .checkpointComplete s = .next ((s.ckWritten s.pins.port).setReg (Reg.ckpt s.pins.port + 0x20) (s.ckDone s.pins.port)) := by
  have hdone : (s.ckWritten s.pins.port).ckDone s.pins.port = s.ckDone s.pins.port := by
    unfold State.ckWritten
    rw [State.hostPut_frame]
    rfl
  rw [exec_checkpointComplete_cool hbusy hsaved hslot hcool, hmay]
  simp only [if_true, hdone]

end

/-! ### The statement -/

/-- A checkpoint of device 0 ends at cycle 32, its store from byte 1 on. The list of memory is not canonical: byte 0 comes after
byte 1. -/
def misordered : State :=
  { ((State.reset.setReg (Reg.ckpt 0 + 0x20) 1).setReg (Reg.ckpt 0 + 8) 1).setReg (Reg.access 69 + 0x18) 0xC000000080000000 with
    now := 32, mem := [(1, 7), (0, 7)] }

/-- Refutes O58: its last clause claims the bytes outside the store in every state, canonical memory or not. Byte 0 of `misordered`
reads 0, as its entry is out of order; the write of the store from byte 1 on drops the entry before it, and byte 0 reads 7. The
premise `memOk` of the clause about SEGMENT_SEAL is missing, with which `State.homeByte_ckWritten_outside` gives the clause. -/
theorem not_traceEvents : ¬ Obligations.TraceEvents := by
  intro h
  obtain ⟨-, -, -, -, complete⟩ := h misordered
  have hmay : misordered.ckMay (misordered.ckStore 0) (misordered.ckBytes 0) = true := by decide +kernel
  obtain ⟨t, hexec, -, -, outside⟩ := (complete (by decide +kernel) (by decide +kernel) (by decide) (by decide) rfl).2 hmay
  rw [exec_checkpointComplete_written (by decide +kernel) (by decide +kernel) (by decide +kernel) rfl hmay] at hexec
  have written : (misordered.ckWritten 0).homeByte 0 = t.homeByte 0 :=
    (congrArg (State.homeByte · 0) (Host.Outcome.next.inj hexec) :)
  have stands : t.homeByte 0 = misordered.homeByte 0 := outside 0 (.inl (by decide +kernel))
  have after : (misordered.ckWritten 0).homeByte 0 = 7 := by
    rw [State.ckWritten, State.homeByte_hostPut]
    decide +kernel
  have before : misordered.homeByte 0 = 0 := by decide +kernel
  rw [written, stands, before] at after
  exact absurd after (by decide)

end Sys2Proof.Machine
end

section
/-! PROOFS. CNTWAIT, CANCEL, CPCANCEL and MARK with nothing older pending (spec 10, R229; spec 13, R284, R285, R293; spec 16,
R354): the statement O22. -/

namespace Sys2Proof.Machine

/-- A counter has reached a threshold when a cancel has marked it, or when it is less than half a turn past it: VALUE wraps. -/
theorem Counter.reached_iff (c : Counter) (x : BitVec 32) : c.reached x = true ↔ c.can = true ∨ (c.val - x).toNat < 2 ^ 31 := by
  have half_turn : (c.val - x).msb = false ↔ (c.val - x).toNat < 2 ^ 31 :=
    BitVec.msb_eq_false_iff_two_mul_lt.trans (by omega)
  simp [Counter.reached, half_turn]

section
variable {s : State} (hp : s.me.pend = [])
include hp

/-! ### Words with nothing older pending (R86, R87) -/

theorem State.whenIdle_idle (f : State → State) : s.whenIdle f = f s := if_pos (by simp [State.idle, hp])

/-- A held operation that completes at once. -/
theorem State.hold_done {u : State} {h : Held} {sup : Bool} (hd : s.doHeld h sup false = .ok u ()) (word : Word) :
    s.hold h word sup = u.next := by
  unfold State.hold State.holdWith
  rw [if_pos (by simp [hp]), hd]

/-! ### The words -/

/-- CNTWAIT whose threshold is met at its first read does not wait (R284). -/
theorem exec_cntwait_reached {a b : SReg} (hn : ((s.sreg a).extractLsb' 0 16).toNat < s.me.cntn) (hc : s.me.cancelled = none)
    (hw : s.me.woken = none) {c : Counter} (hv : c = s.counter (s.me.cntbase.toNat + ((s.sreg a).extractLsb' 0 16).toNat))
    (hr : c.reached ((s.sreg b).extractLsb' 0 32) = true) (d : SReg) :
    exec (.cntwait d a b) s = .next ((s.acquire.wake).setSreg d c.word).next := by
  subst hv
  exact (execCntwait_again hp hc hw hn d).trans (congrArg _ (if_pos hr))

/-- CANCEL of the strand's own context, or by a privileged strand (R262, R285). -/
theorem exec_cancel_permitted {lv : Level} {a : SReg}
    (hown : lv = .phase ∨ lv = .job → field (s.sreg a).toNat 0 13 = s.me.ctx ∨ s.me.priv = true) :
    exec (.cancel lv a) s = .next (s.doCancel lv (s.sreg a)).next := by
  change execCancel lv a s = _
  unfold execCancel
  dsimp only
  rw [State.hold_done hp rfl]
  refine congrArg _ (if_neg ?permitted)
  cases lv with
  | strand | launch | graph => simp
  | phase | job =>
    rcases hown (by simp) with own | priv
    · simp [own]
    · simp [priv]

theorem exec_cpcancel_idle (a : SReg) :
    exec (.cpcancel a) s = .next (s.cancelXfer ((s.sreg a).extractLsb' 0 16)).next :=
  congrArg _ (State.hold_done hp rfl _)

/-- MARK acts at once, on TRCTL.MARKE (R293). -/
theorem exec_mark_idle (a : SReg) :
    exec (.mark a) s = .next (if s.me.ch.trctl.getLsbD 2 then
      s.emit (s.sreg a) (BitVec.ofNat 64 s.now) ((s.me.ch.pc.extractLsb' 0 48).setWidth 64) (commonWord s.me 1 false false)
      else s).next :=
  congrArg _ (State.whenIdle_idle hp _)

end

/-- Settles O22: each of the four words acts at once, as nothing older is pending. -/
theorem heldDealerWords : Obligations.HeldDealerWords := by
  refine ⟨?cntwait, fun lv a s hp hown => exec_cancel_permitted hp hown, fun a s hp => exec_cpcancel_idle hp a, ?mark⟩
  case cntwait =>
    intro d a b s i c hp hn hc hw met
    exact exec_cntwait_reached hp hn hc hw rfl ((c.reached_iff _).mpr met) d
  case mark =>
    intro a s hp
    refine ⟨fun off => ?_, fun on => ?_⟩
    · rw [exec_mark_idle hp, if_neg (Bool.eq_false_iff.mp off)]
    · rw [exec_mark_idle hp, if_pos on]

end Sys2Proof.Machine
end

section
/-! PROOFS. Vector integer words, moves, compares and moves across elements that meet an overfull result queue (spec 05, R87, R94): the
statements O34, O35, O37 and O39. -/

namespace Sys2Proof.Machine

theorem exec_vabs_closed (mk : MReg) (t : VIntTy) (d a : VReg) (s : State) :
    exec (.vabs false mk t d a) s =
      .next (s.takeVector false (s.vword (.vabs false mk t d a) (.abs t d a) mk 0 0)) := rfl

theorem exec_vmov_closed (mk : MReg) (t : WTy) (d a : VReg) (s : State) :
    exec (.vmov false mk t d a) s =
      .next (s.takeVector false (s.vword (.vmov false mk t d a) (.mov t d a) mk 0 0)) := rfl

theorem exec_vcmp_closed (mk : MReg) (t : VIntTy) (k : Cond) (md : MReg) (a b : VReg) (s : State) :
    exec (.vcmp false mk t k md (.vec a) b) s =
      .next (s.takeVector false (s.vword (.vcmp false mk t k md (.vec a) b) (.cmp t k md (.vec a) b) mk 0 0)) := rfl

theorem exec_vcompress_closed (mk : MReg) (t : WTy) (d a : VReg) (s : State) :
    exec (.vcompress false mk t d a) s =
      .next (s.takeVector false (s.vword (.vcompress false mk t d a) (.compress t d a) mk 0 0)) := rfl

/-- Refutes O34: a VABS of no element pushes nothing, yet with 17 entries in result queue 0 its convoy waits for room (R87, R94)
and stays pending, where the statement has nothing pending after it. The premise of O43 that no result queue holds more than 16
entries is missing. -/
theorem not_vectorIntegers : ¬ Obligations.VectorIntegers := by
  intro h
  obtain ⟨g, hexec, -⟩ := h (.vabs false 0 .i32 1 1) State.reset.overfull _ 0 _ lone_overfull_reset rfl rfl
  exact (exec_overfull lone_overfull_reset rfl rfl rfl (exec_vabs_closed ..) hexec).1 lone_overfull_reset.1

/-- Refutes O35: a VMOV waits in the same way (R87, R94); the same premise is missing. -/
theorem not_vectorMoves : ¬ Obligations.VectorMoves := by
  intro h
  obtain ⟨g, hexec, -⟩ := h (.vmov false 0 .w32 1 1) State.reset.overfull _ 0 _ lone_overfull_reset rfl rfl
  exact (exec_overfull lone_overfull_reset rfl rfl rfl (exec_vmov_closed ..) hexec).1 lone_overfull_reset.1

/-- Refutes O37: a VCMP of two vector registers waits in the same way (R87, R94); the same premise is missing. -/
theorem not_vectorCompares : ¬ Obligations.VectorCompares := by
  intro h
  obtain ⟨hcmp, -⟩ := h State.reset.overfull 0 1 .eq (.vec 1) 1 0 _ lone_overfull_reset rfl (by decide)
  obtain ⟨g, hexec, -⟩ := hcmp .i32
  exact (exec_overfull lone_overfull_reset rfl rfl rfl (exec_vcmp_closed ..) hexec).1 lone_overfull_reset.1

/-- Refutes O39: a VCOMPRESS waits in the same way (R87, R94); the same premise is missing. -/
theorem not_crossElements : ¬ Obligations.CrossElements := by
  intro h
  obtain ⟨g, hexec, -⟩ := h (.vcompress false 0 .w32 1 1) State.reset.overfull _ lone_overfull_reset rfl
  exact (exec_overfull lone_overfull_reset rfl rfl rfl (exec_vcompress_closed ..) hexec).1 lone_overfull_reset.1

end Sys2Proof.Machine
end

section
/-! PROOFS. Operand fields of a word, read and written (spec 12, R244, R245): each reader answers a value exactly for the field that the
writer makes of it. -/

namespace Sys2Proof

/-- A reader `f` and a writer `g` that undo each other. -/
theorem eq_some_iff_of_inverse {α β : Type} {f : α → Option β} {g : β → α} (hfg : ∀ b, f (g b) = some b)
    (hgf : ∀ {a b}, f a = some b → g b = a) {a : α} {b : β} : f a = some b ↔ a = g b :=
  ⟨fun h => (hgf h).symm, fun h => h ▸ hfg b⟩

theorem req_eq_some {α : Type} {ok : Bool} {x y : α} : req ok x = some y ↔ ok = true ∧ x = y := by
  simp [req]

/-! ### Codes -/

theorem IntTy.ofCode_eq_some {x : BitVec 3} {t : IntTy} : IntTy.ofCode x = some t ↔ x = t.code :=
  eq_some_iff_of_inverse ofCode_code code_of
theorem VIntTy.ofCode_eq_some {x : BitVec 3} {t : VIntTy} : VIntTy.ofCode x = some t ↔ x = t.code :=
  eq_some_iff_of_inverse ofCode_code code_of
theorem FpTy.ofCode_eq_some {x : BitVec 3} {t : FpTy} : FpTy.ofCode x = some t ↔ x = t.code :=
  eq_some_iff_of_inverse ofCode_code code_of
theorem MatTy.ofCode_eq_some {x : BitVec 3} {t : MatTy} : MatTy.ofCode x = some t ↔ x = t.code :=
  eq_some_iff_of_inverse ofCode_code code_of
theorem MergeTy.ofCode_eq_some {x : BitVec 3} {t : MergeTy} : MergeTy.ofCode x = some t ↔ x = t.code :=
  eq_some_iff_of_inverse ofCode_code code_of
theorem WTy.ofCode_eq_some {x : BitVec 3} {t : WTy} : WTy.ofCode x = some t ↔ x = t.code :=
  eq_some_iff_of_inverse ofCode_code code_of
theorem MemTy.ofCode_eq_some {x : BitVec 3} {t : MemTy} : MemTy.ofCode x = some t ↔ x = t.code :=
  eq_some_iff_of_inverse ofCode_code code_of
theorem AmoTy.ofCode_eq_some {x : BitVec 3} {t : AmoTy} : AmoTy.ofCode x = some t ↔ x = t.code :=
  eq_some_iff_of_inverse ofCode_code code_of
theorem TileTy.ofCode_eq_some {x : BitVec 3} {t : TileTy} : TileTy.ofCode x = some t ↔ x = t.code :=
  eq_some_iff_of_inverse ofCode_code code_of
theorem Rm.ofCode_eq_some {x : BitVec 3} {t : Rm} : Rm.ofCode x = some t ↔ x = t.code :=
  eq_some_iff_of_inverse ofCode_code code_of
theorem Cond.ofCode_eq_some {x : BitVec 4} {t : Cond} : Cond.ofCode x = some t ↔ x = t.code :=
  eq_some_iff_of_inverse ofCode_code code_of
theorem AmoOp.ofCode_eq_some {x : BitVec 4} {t : AmoOp} : AmoOp.ofCode x = some t ↔ x = t.code :=
  eq_some_iff_of_inverse ofCode_code code_of
theorem Level.ofCode_eq_some {x : BitVec 3} {t : Level} : Level.ofCode x = some t ↔ x = t.code :=
  eq_some_iff_of_inverse ofCode_code code_of
theorem CReg.ofNumber_eq_some {x : BitVec 12} {r : CReg} : CReg.ofNumber x = some r ↔ x = r.number :=
  eq_some_iff_of_inverse ofNumber_number number_of

/-! ### Registers, tiles, queues and masks -/

theorem low2_eq_some {x : BitVec 5} {y : BitVec 2} : low2 x = some y ↔ x = up5 y := eq_some_iff_of_inverse low2_up5 up5_of_low2
theorem low2of4_eq_some {x : BitVec 4} {y : BitVec 2} : low2of4 x = some y ↔ x = 0#2 ++ y := by revert x y; decide
theorem feedQ_eq_some {x : BitVec 5} {q : QNum} : feedQ x = some q ↔ x = feed5 q := eq_some_iff_of_inverse feedQ_feed5 feed5_of
theorem readMask_eq_some {x : BitVec 5} {m : MReg} : readMask x = some m ↔ x = up5 m :=
  eq_some_iff_of_inverse readMask_up5 up5_of_readMask
theorem writeMask_eq_some {x : BitVec 5} {m : MReg} : writeMask x = some m ↔ x = up5 m ∧ m.writable = true :=
  ⟨fun h => ⟨(up5_of_writeMask h).1.symm, (up5_of_writeMask h).2⟩, fun ⟨hx, hm⟩ => hx ▸ writeMask_up5 hm⟩
theorem loopLevel_eq_some {x : BitVec 5} {lv : BitVec 1} : loopLevel x = some lv ↔ x = lv.setWidth 5 := by revert x lv; decide

theorem Src.ofFields_eq_some {os : BitVec 2} {x : BitVec 5} {a : Src} : Src.ofFields os x = some a ↔ os = a.osel ∧ x = a.field := by
  refine ⟨fun h => ?_, fun ⟨ho, hx⟩ => ho ▸ hx ▸ Src.ofFields_fields a⟩
  unfold ofFields at h
  split at h
  case h_1 hos | h_2 hos => cases h; exact ⟨BitVec.eq_of_toNat_eq hos, rfl⟩
  case h_3 hos =>
    obtain ⟨q, hq, rfl⟩ := Option.map_eq_some_iff.mp h
    exact ⟨BitVec.eq_of_toNat_eq hos, feedQ_eq_some.mp hq⟩
  case h_4 => cases h

theorem RedDst.ofFields_eq_some {os : BitVec 2} {x : BitVec 5} {d : RedDst} :
    RedDst.ofFields os x = some d ↔ os = d.osel ∧ x = d.field := by
  refine ⟨fun h => ?_, fun ⟨ho, hx⟩ => ho ▸ hx ▸ RedDst.ofFields_fields d⟩
  unfold ofFields at h
  split at h
  case h_1 hos => cases h; exact ⟨BitVec.eq_of_toNat_eq hos, rfl⟩
  case h_2 hos =>
    obtain ⟨q, hq, rfl⟩ := Option.map_eq_some_iff.mp h
    exact ⟨BitVec.eq_of_toNat_eq hos, low2_eq_some.mp hq⟩
  case h_3 => cases h

theorem stvOf_eq_some {fn : BitVec 4} {b : BitVec 5} {st : Option VReg} : stvOf fn b = some st ↔ fn = stvFn st ∧ b = stvB st := by
  refine ⟨fun h => ?_, fun ⟨hf, hb⟩ => hf ▸ hb ▸ stvOf_fields st⟩
  unfold stvOf at h
  split at h
  case h_1 hfn =>
    obtain ⟨rfl, rfl⟩ : b = 0 ∧ none = st := by simpa using h
    exact ⟨BitVec.eq_of_toNat_eq hfn, rfl⟩
  case h_2 hfn => cases h; exact ⟨BitVec.eq_of_toNat_eq hfn, rfl⟩
  case h_3 => cases h

theorem partOf_eq_some {oe : BitVec 1} {b : BitVec 5} {p : Option SReg} : partOf oe b = some p ↔ oe = partOe p ∧ b = partB p := by
  refine ⟨fun h => ?_, fun ⟨ho, hb⟩ => ho ▸ hb ▸ partOf_fields p⟩
  unfold partOf at h
  split at h
  case isTrue hoe => cases h; exact ⟨hoe, rfl⟩
  case isFalse hoe =>
    obtain ⟨rfl, rfl⟩ : b = 0 ∧ none = p := by simpa using h
    exact ⟨(BitVec.eq_zero_or_eq_one oe).resolve_right hoe, rfl⟩

/-! ### Immediates -/

theorem shiftCount_eq_some {x : BitVec 32} {n : BitVec 6} : shiftCount x = some n ↔ x = n.setWidth 32 := by
  simp only [shiftCount, Option.ite_none_right_eq_some, Option.some.injEq]
  bv_omega

theorem shift14_eq_some {x : BitVec 14} {n : BitVec 6} : shift14 x = some n ↔ x = n.setWidth 14 := by
  simp only [shift14, Option.ite_none_right_eq_some, Option.some.injEq]
  bv_omega

theorem slotOf_eq_some {x : BitVec 32} {k : BitVec 8} : slotOf x = some k ↔ x = k.setWidth 32 ∧ k ≠ 255 := by
  simp only [slotOf, Option.ite_none_right_eq_some, Option.some.injEq]
  bv_omega

/-- A word is two fields exactly if they are its high and its low bits. -/
theorem eq_append_iff {m k : Nat} {x : BitVec (m + k)} {hi : BitVec m} {lo : BitVec k} :
    x = hi ++ lo ↔ x.extractLsb' k m = hi ∧ x.extractLsb' 0 k = lo := by
  constructor
  · rintro rfl
    have hhi : (hi ++ lo).extractLsb' k m = hi.extractLsb' 0 m := by simpa using extract_high (w := m) hi lo (le_refl k)
    have hlo : (hi ++ lo).extractLsb' 0 k = lo.extractLsb' 0 k := extract_low hi lo (by omega)
    exact ⟨hhi.trans BitVec.extractLsb'_eq_self, hlo.trans BitVec.extractLsb'_eq_self⟩
  · rintro ⟨rfl, rfl⟩
    have h := extract_join (k := 0) (u := m) (v := k) x
    rw [Nat.zero_add] at h
    rw [h, BitVec.extractLsb'_eq_self]

theorem zero_append {m k : Nat} (lo : BitVec k) : (0#m ++ lo : BitVec (m + k)) = lo.setWidth (m + k) := by
  rw [BitVec.setWidth_eq_append (by omega)]
  simp

theorem off14Of_eq_some {x : BitVec 16} {o : BitVec 14} : off14Of x = some o ↔ x = 0#2 ++ o := by
  have h : x.extractLsb' 0 14 = x.setWidth 14 := by ext i hi; simp
  simp only [off14Of, Option.ite_none_right_eq_some, Option.some.injEq, ← h]
  exact (eq_append_iff (m := 2)).symm

theorem loopDisp_eq_some {x y : BitVec 32} : loopDisp x = some y ↔ x = y ∧ loopDispOk y = true := by
  simp only [loopDisp, Option.ite_none_right_eq_some, Option.some.injEq]
  grind

theorem cregOnly_eq_some {x : BitVec 32} {r : CReg} : cregOnly x = some r ↔ x = r.number.setWidth 32 := by
  simp only [cregOnly, Option.ite_none_right_eq_some, CReg.ofNumber_eq_some, ← zero_append (m := 20)]
  exact (eq_append_iff (m := 20)).symm

theorem levelOf_eq_some {x : BitVec 32} {lv : Level} : levelOf x = some lv ↔ x = lv.code.setWidth 32 := by
  simp only [levelOf, Option.ite_none_right_eq_some, Level.ofCode_eq_some, ← zero_append (m := 29)]
  exact (eq_append_iff (m := 29)).symm

theorem fenceKindOf_eq_some {x : BitVec 32} {k : FenceKind} : fenceKindOf x = some k ↔ x = fenceImm k (x.extractLsb' 2 2) := by
  have hk : FenceKind.ofCode (x.extractLsb' 0 2) = k ↔ x.extractLsb' 0 2 = k.code :=
    ⟨fun h => by rw [← h, FenceKind.code_ofCode], fun h => by rw [h, FenceKind.ofCode_code]⟩
  have hhigh : x.extractLsb' 4 28 = 0 ↔ x.extractLsb' 2 30 = 0#28 ++ x.extractLsb' 2 2 := by
    have h4 : (x.extractLsb' 2 30).extractLsb' 2 28 = x.extractLsb' 4 28 := by
      ext i hi; simp [show 2 + (2 + i) = 4 + i by omega]; omega
    have h2 : (x.extractLsb' 2 30).extractLsb' 0 2 = x.extractLsb' 2 2 := by ext i hi; simp; intro; omega
    rw [← h4, ← h2]
    exact ⟨fun h => (eq_append_iff (m := 28)).mpr ⟨h, rfl⟩, fun h => ((eq_append_iff (m := 28)).mp h).1⟩
  simp only [fenceKindOf, Option.ite_none_right_eq_some, Option.some.injEq, hk, hhigh]
  exact (eq_append_iff (m := 30)).symm

/-! ### Types and displacements -/

theorem vcvtSrc_eq_some {fn : BitVec 4} {t : VIntTy} : vcvtSrc fn = some t ↔ fn = 0#1 ++ t.code := by
  revert fn; cases t <;> decide

theorem mcvtSrc_eq_some {fn : BitVec 4} {t : MergeTy} : mcvtSrc fn = some t ↔ fn = 0#1 ++ t.code := by
  revert fn; cases t <;> decide

/-- Two values read one after the other (R270, R312, R339). -/
theorem bind_pair_eq_some {α β γ : Type} {x : Option α} {y : Option β} {mk : α → β → γ} {z : γ} :
    (do return mk (← x) (← y)) = some z ↔ ∃ a b, x = some a ∧ y = some b ∧ mk a b = z := by
  cases x <;> cases y <;> simp

/-- FN [3] and FN [2:0] (R270, R312). -/
theorem fn_eq_one_append {fn : BitVec 4} {c : BitVec 3} : fn = 1#1 ++ c ↔ fn.getLsbD 3 = true ∧ fn.setWidth 3 = c := by
  revert fn c; decide

theorem fn_eq_zero_append {fn : BitVec 4} {c : BitVec 3} : fn = 0#1 ++ c ↔ fn.getLsbD 3 = false ∧ fn.setWidth 3 = c := by
  revert fn c; decide

@[simp] theorem Cvt.ofFields_fields (k : Cvt) : Cvt.ofFields k.tCode k.osField k.fnField = some k := by
  cases k with
  | ff dst src =>
    have h := (fn_eq_one_append (c := src.code)).mp rfl
    simp only [ofFields, tCode, osField, fnField, h.1, h.2]
    simp
  | fi dst src => 
    have h := (fn_eq_one_append (c := src.code)).mp rfl
    simp only [ofFields, tCode, osField, fnField, h.1, h.2]
    simp
  | ofInt dst src =>
    have h := (fn_eq_zero_append (c := src.code)).mp rfl
    simp only [ofFields, tCode, osField, fnField, h.1, h.2]
    simp

theorem Cvt.ofFields_eq_some {t : BitVec 3} {os : BitVec 2} {fn : BitVec 4} {k : Cvt} :
    Cvt.ofFields t os fn = some k ↔ t = k.tCode ∧ os = k.osField ∧ fn = k.fnField := by
  refine ⟨fun h => ?_, fun ⟨ht, ho, hf⟩ => ht ▸ ho ▸ hf ▸ ofFields_fields k⟩
  unfold ofFields at h
  split at h
  case h_4 => cases h
  all_goals
    rename_i hos hfn
    obtain ⟨dst, src, hdst, hsrc, rfl⟩ := bind_pair_eq_some.mp h
    simp only [FpTy.ofCode_eq_some, IntTy.ofCode_eq_some] at hdst hsrc
    refine ⟨hdst, BitVec.eq_of_toNat_eq hos, ?_⟩
  · exact fn_eq_one_append.mpr ⟨hfn, hsrc⟩
  · exact fn_eq_zero_append.mpr ⟨hfn, hsrc⟩
  · exact fn_eq_one_append.mpr ⟨hfn, hsrc⟩

/-- FN [3:2] and FN [1:0] (R312). -/
theorem fn_eq_two_append {fn : BitVec 4} {t : FpTy} :
    fn = 2#2 ++ t.code.setWidth 2 ↔ fn.getLsbD 3 = true ∧ fn.getLsbD 2 = false ∧ (fn.setWidth 2).setWidth 3 = t.code := by
  revert fn; cases t <;> decide

theorem fn_eq_three_append {fn : BitVec 4} {t : FpTy} :
    fn = 3#2 ++ t.code.setWidth 2 ↔ fn.getLsbD 3 = true ∧ fn.getLsbD 2 = true ∧ (fn.setWidth 2).setWidth 3 = t.code := by
  revert fn; cases t <;> decide

@[simp] theorem VCvt.ofFields_fields (k : VCvt) : VCvt.ofFields k.tCode k.fnField = some k := by
  cases k with
  | ff dst src =>
    have h := (fn_eq_two_append (t := src)).mp rfl
    simp only [ofFields, tCode, fnField, h.1, h.2]
    simp
  | fi dst src => 
    have h := (fn_eq_three_append (t := src)).mp rfl
    simp only [ofFields, tCode, fnField, h.1, h.2]
    simp
  | ofInt dst src =>
    have h := (fn_eq_zero_append (c := src.code)).mp rfl
    simp only [ofFields, tCode, fnField, h.1, h.2]
    simp

theorem VCvt.ofFields_eq_some {t : BitVec 3} {fn : BitVec 4} {k : VCvt} :
    VCvt.ofFields t fn = some k ↔ t = k.tCode ∧ fn = k.fnField := by
  refine ⟨fun h => ?_, fun ⟨ht, hf⟩ => ht ▸ hf ▸ ofFields_fields k⟩
  unfold ofFields at h
  split at h
  all_goals
    obtain ⟨dst, src, hdst, hsrc, rfl⟩ := bind_pair_eq_some.mp h
    simp only [FpTy.ofCode_eq_some, VIntTy.ofCode_eq_some] at hdst hsrc
    refine ⟨hdst, ?_⟩
  · exact fn_eq_two_append.mpr ⟨‹_›, ‹_›, hsrc⟩
  · exact fn_eq_three_append.mpr ⟨‹_›, ‹_›, hsrc⟩
  · exact fn_eq_zero_append.mpr ⟨‹_›, hsrc⟩

@[simp] theorem MopTy.ofFields_fields (k : MopTy) : MopTy.ofFields k.tCode k.rmCode = some k := by
  cases k with
  | res => rfl
  | fp t rm =>
    have h4 : t.code ≠ 4 := by cases t <;> decide
    rw [ofFields, if_neg (show (MopTy.fp t rm).tCode ≠ 4 from h4)]
    simp [tCode, rmCode]

theorem MopTy.ofFields_eq_some {t rm : BitVec 3} {k : MopTy} : MopTy.ofFields t rm = some k ↔ t = k.tCode ∧ rm = k.rmCode := by
  refine ⟨fun h => ?_, fun ⟨ht, hr⟩ => ht ▸ hr ▸ ofFields_fields k⟩
  unfold ofFields at h
  split at h
  · obtain ⟨hr, rfl⟩ : rm = 0 ∧ .res = k := by simpa using h
    exact ⟨‹_›, hr⟩
  · obtain ⟨f, r, hf, hr, rfl⟩ := bind_pair_eq_some.mp h
    exact ⟨FpTy.ofCode_eq_some.mp hf, Rm.ofCode_eq_some.mp hr⟩

/-- A displacement in elements: bit 15 zero, DK in bit 14 (R236). -/
theorem off_eq_dk_append {off : BitVec 16} {r : Bool} {o : BitVec 14} :
    off = 0#1 ++ BitVec.ofBool r ++ o ↔ off.getLsbD 15 = false ∧ off.getLsbD 14 = r ∧ off.setWidth 14 = o := by
  have h15 : off.extractLsb' 14 2 = 0#1 ++ BitVec.ofBool r ↔ off.getLsbD 15 = false ∧ off.getLsbD 14 = r := by
    rw [show off.getLsbD 15 = (off.extractLsb' 14 2).getLsbD 1 by simp, show off.getLsbD 14 = (off.extractLsb' 14 2).getLsbD 0 by simp]
    generalize off.extractLsb' 14 2 = x
    revert x r; decide
  have hlow : off.extractLsb' 0 14 = off.setWidth 14 := by ext i hi; simp
  rw [← and_assoc, ← h15, ← hlow]
  exact eq_append_iff (m := 1 + 1) (k := 14)

@[simp] theorem LdForm.ofFields_fields (x : LdForm) : LdForm.ofFields x.tCode x.offField = some x := by
  cases x with
  | bytes t off =>
    have h7 : t.code ≠ 7 := by cases t <;> decide
    rw [ofFields, if_neg (show (LdForm.bytes t off).tCode ≠ 7 from h7)]
    simp [tCode, offField]
  | fmt r o =>
    have h := (off_eq_dk_append (r := r) (o := o)).mp rfl
    simp only [ofFields, tCode, offField, if_true, h]
    simp

theorem LdForm.ofFields_eq_some {t : BitVec 3} {off : BitVec 16} {x : LdForm} :
    LdForm.ofFields t off = some x ↔ t = x.tCode ∧ off = x.offField := by
  refine ⟨fun h => ?_, fun ⟨ht, ho⟩ => ht ▸ ho ▸ ofFields_fields x⟩
  unfold ofFields at h
  split at h
  · obtain ⟨h15, rfl⟩ : off.getLsbD 15 = false ∧ _ = x := by
      simpa only [Option.ite_none_left_eq_some, Bool.not_eq_true, Option.some.injEq] using h
    exact ⟨‹_›, off_eq_dk_append.mpr ⟨h15, rfl, rfl⟩⟩
  · obtain ⟨m, hm, hx⟩ := Option.bind_eq_some_iff.mp h
    cases hx
    exact ⟨MemTy.ofCode_eq_some.mp hm, rfl⟩

@[simp] theorem StForm.ofFields_fields (x : StForm) : StForm.ofFields x.tCode x.offField = some x := by
  cases x with
  | bytes t off =>
    have h7 : t.code ≠ 7 := by cases t <;> decide
    rw [ofFields, if_neg (show (StForm.bytes t off).tCode ≠ 7 from h7)]
    simp [tCode, offField]
  | fmt o =>
    have h := (off14Of_eq_some (o := o)).mpr rfl
    simp only [ofFields, tCode, offField, if_true, h]
    simp

theorem StForm.ofFields_eq_some {t : BitVec 3} {off : BitVec 16} {x : StForm} :
    StForm.ofFields t off = some x ↔ t = x.tCode ∧ off = x.offField := by
  refine ⟨fun h => ?_, fun ⟨ht, ho⟩ => ht ▸ ho ▸ ofFields_fields x⟩
  unfold ofFields at h
  split at h
  · obtain ⟨o, ho, rfl⟩ := Option.map_eq_some_iff.mp h
    exact ⟨‹_›, off14Of_eq_some.mp ho⟩
  · obtain ⟨m, hm, hx⟩ := Option.bind_eq_some_iff.mp h
    cases hx
    exact ⟨MemTy.ofCode_eq_some.mp hm, rfl⟩

@[simp] theorem TileLd.ofFields_fields (x : TileLd) : TileLd.ofFields x.tCode x.offField = some x := by
  cases x with
  | bytes t off =>
    have h7 : t.code ≠ 7 := by cases t <;> decide
    rw [ofFields, if_neg (show (TileLd.bytes t off).tCode ≠ 7 from h7)]
    simp [tCode, offField]
  | fmt r o =>
    have h := (off_eq_dk_append (r := r) (o := o)).mp rfl
    simp only [ofFields, tCode, offField, if_true, h]
    simp

theorem TileLd.ofFields_eq_some {t : BitVec 3} {off : BitVec 16} {x : TileLd} :
    TileLd.ofFields t off = some x ↔ t = x.tCode ∧ off = x.offField := by
  refine ⟨fun h => ?_, fun ⟨ht, ho⟩ => ht ▸ ho ▸ ofFields_fields x⟩
  unfold ofFields at h
  split at h
  · obtain ⟨h15, rfl⟩ : off.getLsbD 15 = false ∧ _ = x := by
      simpa only [Option.ite_none_left_eq_some, Bool.not_eq_true, Option.some.injEq] using h
    exact ⟨‹_›, off_eq_dk_append.mpr ⟨h15, rfl, rfl⟩⟩
  · obtain ⟨m, hm, hx⟩ := Option.bind_eq_some_iff.mp h
    cases hx
    exact ⟨TileTy.ofCode_eq_some.mp hm, rfl⟩

@[simp] theorem TileSt.ofFields_fields (x : TileSt) : TileSt.ofFields x.tCode x.offField = some x := by
  cases x with
  | bytes t off =>
    have h7 : t.code ≠ 7 := by cases t <;> decide
    rw [ofFields, if_neg (show (TileSt.bytes t off).tCode ≠ 7 from h7)]
    simp [tCode, offField]
  | fmt o =>
    have h := (off14Of_eq_some (o := o)).mpr rfl
    simp only [ofFields, tCode, offField, if_true, h]
    simp

theorem TileSt.ofFields_eq_some {t : BitVec 3} {off : BitVec 16} {x : TileSt} :
    TileSt.ofFields t off = some x ↔ t = x.tCode ∧ off = x.offField := by
  refine ⟨fun h => ?_, fun ⟨ht, ho⟩ => ht ▸ ho ▸ ofFields_fields x⟩
  unfold ofFields at h
  split at h
  · obtain ⟨o, ho, rfl⟩ := Option.map_eq_some_iff.mp h
    exact ⟨‹_›, off14Of_eq_some.mp ho⟩
  · obtain ⟨m, hm, hx⟩ := Option.bind_eq_some_iff.mp h
    cases hx
    exact ⟨TileTy.ofCode_eq_some.mp hm, rfl⟩

end Sys2Proof
end

section
/-! PROOFS. A word that a decoder of the opcode map takes is the word of a well-formed instruction, and no bit of it is dropped (R242,
R246 to R251). -/

namespace Sys2Proof

theorem ofBool_beq_one (c : BitVec 1) : BitVec.ofBool (c == 1#1) = c := by revert c; decide

theorem eq_ofNat_of_toNat {n k : Nat} {x : BitVec n} (h : x.toNat = k) : x = BitVec.ofNat n k := by
  subst h; simp

theorem bind_eq_some {α β : Type} {x : Option α} {g : α → Option β} {z : β} :
    (do let a ← x; g a) = some z ↔ ∃ a, x = some a ∧ g a = some z := Option.bind_eq_some_iff

/-! ### Scalar words -/

theorem decodeFR0_sound {f : FR} {i : Instr} (h : decodeFR0 f = some i) : i.wf = true ∧ encode i = some f.toWord := by
  cases f
  unfold decodeFR0 at h
  split at h
  case h_40 => cases h
  all_goals
    rename_i hop
    replace hop := eq_ofNat_of_toNat hop
    simp only [bind_eq_some, req_eq_some, Bool.and_eq_true, beq_iff_eq, IntTy.ofCode_eq_some, FpTy.ofCode_eq_some,
      Rm.ofCode_eq_some, Cond.ofCode_eq_some, Cvt.ofFields_eq_some] at h hop
    casesm* _ ∧ _, ∃ _, _
    subst_vars
    exact ⟨rfl, rfl⟩

theorem decodeFI0_sound {f : FI} {i : Instr} (h : decodeFI0 f = some i) : i.wf = true ∧ encode i = some f.toWord := by
  cases f
  unfold decodeFI0 at h
  split at h
  case h_11 => cases h
  all_goals
    rename_i hop
    replace hop := eq_ofNat_of_toNat hop
    simp only [bind_eq_some, req_eq_some, Bool.and_eq_true, beq_iff_eq, IntTy.ofCode_eq_some, shiftCount_eq_some] at h hop
    casesm* _ ∧ _, ∃ _, _
    subst_vars
    exact ⟨rfl, rfl⟩

theorem decodeFR1_sound {f : FR} {i : Instr} (h : decodeFR1 f = some i) : i.wf = true ∧ encode i = some f.toWord := by
  cases f
  unfold decodeFR1 at h
  split at h
  case h_12 => cases h
  all_goals
    rename_i hop
    replace hop := eq_ofNat_of_toNat hop
    simp only [bind_eq_some, req_eq_some, Bool.and_eq_true, beq_iff_eq, feedQ_eq_some, low2_eq_some] at h hop
    casesm* _ ∧ _, ∃ _, _
    subst_vars
    refine ⟨?_, rfl⟩
  case h_2 => exact Bool.and_eq_true_iff.mpr ⟨Bool.and_eq_true_iff.mpr ⟨‹_›, ‹_›⟩, ‹_›⟩
  all_goals rfl

/-- The instruction of opcode 0x091: a GETC of CPGOc is a copy launch (R349). -/
def getcInstr (d : SReg) : CReg → Instr
  | .cpgo ch => .copyLaunch d ch
  | r => .getc d r

theorem getcInstr_sound {d : SReg} {r : CReg} {i : Instr} (h : getcInstr d r = i) :
    i.wf = true ∧ encode i = some (FI.toWord ⟨0, 0x091, d, 0, 0, 0, 0, r.number.setWidth 32⟩) := by
  subst h
  cases r <;> exact ⟨rfl, rfl⟩

theorem decodeFI1_sound {f : FI} {i : Instr} (h : decodeFI1 f = some i) : i.wf = true ∧ encode i = some f.toWord := by
  obtain ⟨c, op, d, a, gm, t, z, imm⟩ := f
  unfold decodeFI1 at h
  split at h
  case h_11 => cases h
  all_goals
    rename_i hop
    replace hop := eq_ofNat_of_toNat hop
    simp only [bind_eq_some, req_eq_some, Bool.and_eq_true, beq_iff_eq, cregOnly_eq_some, CReg.ofNumber_eq_some, levelOf_eq_some,
      slotOf_eq_some] at h hop
  case h_3 =>
    obtain ⟨r, rfl, ⟨⟨⟨⟨rfl, rfl⟩, rfl⟩, rfl⟩, rfl⟩, h⟩ := h
    subst hop
    exact getcInstr_sound h
  case h_5 =>
    obtain ⟨r, hr, zeros, rfl⟩ := h
    casesm* _ ∧ _
    subst_vars
    refine ⟨rfl, ?_⟩
    change some (FI.toWord ⟨0, 0x093, 0, 0, 0, 0, 0, imm.extractLsb' 12 20 ++ r.number⟩) = _
    rw [← hr, show imm.extractLsb' 12 20 ++ imm.extractLsb' 0 12 = imm.extractLsb' 0 32 from extract_join (k := 0) imm,
      BitVec.extractLsb'_eq_self]
    rfl
  all_goals
    casesm* _ ∧ _, ∃ _, _
    subst_vars
    refine ⟨?_, rfl⟩
  case h_8 | h_9 | h_10 => exact bne_iff_ne.mpr ‹_›
  all_goals rfl

/-- The count of LOOPI in three fields, highest first. -/
theorem loopiCount_fields (a b z : BitVec 5) :
    (a ++ b ++ z).extractLsb' 10 5 = a ∧ (a ++ b ++ z).extractLsb' 5 5 = b ∧ (a ++ b ++ z).extractLsb' 0 5 = z := by
  refine ⟨?_, ?_, ?_⟩ <;>
    · repeat (first | refine (extract_low _ _ (by decide)).trans ?_ | refine (extract_high _ _ (by decide)).trans ?_)
      exact BitVec.extractLsb'_eq_self

theorem decodeFB1_sound {f : FB} {i : Instr} (h : decodeFB1 f = some i) : i.wf = true ∧ encode i = some f.toWord := by
  obtain ⟨c, op, d, a, b, z, disp⟩ := f
  unfold decodeFB1 at h
  split at h
  case h_15 => cases h
  all_goals
    rename_i hop
    replace hop := eq_ofNat_of_toNat hop
    simp only [bind_eq_some, req_eq_some, Bool.and_eq_true, beq_iff_eq, loopLevel_eq_some, loopDisp_eq_some] at h hop
  case h_11 =>
    obtain ⟨lv, rfl, disp', ⟨rfl, hok⟩, ⟨⟨rfl, rfl⟩, rfl⟩, rfl⟩ := h
    subst hop
    exact ⟨hok, rfl⟩
  case h_12 =>
    obtain ⟨lv, rfl, disp', ⟨rfl, hok⟩, rfl, rfl⟩ := h
    subst hop
    refine ⟨hok, ?_⟩
    change some (FB.toWord ⟨0, 0x08B, lv.setWidth 5, (a ++ b ++ z).extractLsb' 10 5, (a ++ b ++ z).extractLsb' 5 5,
      (a ++ b ++ z).extractLsb' 0 5, disp⟩) = _
    obtain ⟨ha, hb, hz⟩ := loopiCount_fields a b z
    rw [ha, hb, hz]
    rfl
  all_goals
    casesm* _ ∧ _
    subst_vars
    exact ⟨rfl, rfl⟩

/-! ### Vector and matrix words -/

theorem decodeFR2_sound {f : FR} {i : Instr} (h : decodeFR2 f = some i) : i.wf = true ∧ encode i = some f.toWord := by
  cases f
  unfold decodeFR2 at h
  split at h
  case h_72 => cases h
  all_goals
    rename_i hop
    replace hop := eq_ofNat_of_toNat hop
    simp only [bind_eq_some, req_eq_some, Bool.and_eq_true, beq_iff_eq, VIntTy.ofCode_eq_some, WTy.ofCode_eq_some,
      FpTy.ofCode_eq_some, Rm.ofCode_eq_some, Cond.ofCode_eq_some, VCvt.ofFields_eq_some, Src.ofFields_eq_some,
      RedDst.ofFields_eq_some, stvOf_eq_some, readMask_eq_some, writeMask_eq_some, low2_eq_some, vcvtSrc_eq_some] at h hop
    casesm* _ ∧ _, ∃ _, _
    subst_vars
    refine ⟨?_, ?_⟩
    · first | rfl | assumption
    · change some (FR.toWord _) = _
      simp only [ofBool_beq_one, BitVec.ofNat_eq_ofNat]

theorem decodeFR4_sound {f : FR} {i : Instr} (h : decodeFR4 f = some i) : i.wf = true ∧ encode i = some f.toWord := by
  cases f
  unfold decodeFR4 at h
  split at h
  case h_8 => cases h
  all_goals
    rename_i hop
    replace hop := eq_ofNat_of_toNat hop
    simp only [bind_eq_some, req_eq_some, Bool.and_eq_true, beq_iff_eq, MopTy.ofFields_eq_some, MatTy.ofCode_eq_some,
      Rm.ofCode_eq_some, low2_eq_some, low2of4_eq_some, mcvtSrc_eq_some] at h hop
    casesm* _ ∧ _, ∃ _, _
    subst_vars
    refine ⟨rfl, ?_⟩
    change some (FR.toWord _) = _
    simp only [ofBool_beq_one, BitVec.ofNat_eq_ofNat]

theorem decodeFR5_sound {f : FR} {i : Instr} (h : decodeFR5 f = some i) : i.wf = true ∧ encode i = some f.toWord := by
  cases f
  unfold decodeFR5 at h
  split at h
  case h_3 => cases h
  all_goals
    rename_i hop
    replace hop := eq_ofNat_of_toNat hop
    simp only [req_eq_some, Bool.and_eq_true, beq_iff_eq] at h hop
    casesm* _ ∧ _
    subst_vars
    exact ⟨rfl, rfl⟩

/-! ### Memory words -/

theorem decodeFI3_sound {f : FI} {i : Instr} (h : decodeFI3 f = some i) : i.wf = true ∧ encode i = some f.toWord := by
  obtain ⟨c, op, d, a, gm, t, z, imm⟩ := f
  unfold decodeFI3 at h
  split at h
  case h_2 => cases h
  rename_i hop
  replace hop := eq_ofNat_of_toNat hop
  simp only [bind_eq_some, req_eq_some, Bool.and_eq_true, beq_iff_eq, fenceKindOf_eq_some] at h hop
  obtain ⟨k, himm, zeros, rfl⟩ := h
  casesm* _ ∧ _
  subst_vars
  refine ⟨rfl, ?_⟩
  change some (FI.toWord ⟨0, 0x20F, 0, 0, 0, 0, 0, fenceImm k _⟩) = _
  rw [← himm]
  rfl

/-- OFF16 of an atomic: its operation above its displacement (R236). -/
theorem amo_off {off : BitVec 16} {op : AmoOp} (h : off.extractLsb' 12 4 = op.code) : op.code ++ off.extractLsb' 0 12 = off := by
  rw [← h]
  exact ((eq_append_iff (m := 4) (k := 12)).mpr ⟨rfl, rfl⟩).symm

theorem decodeFM3_sound {f : FM} {i : Instr} (h : decodeFM3 f = some i) : i.wf = true ∧ encode i = some f.toWord := by
  cases f
  unfold decodeFM3 at h
  split at h
  case h_18 => cases h
  all_goals
    rename_i hop
    replace hop := eq_ofNat_of_toNat hop
    simp only [bind_eq_some, req_eq_some, Bool.and_eq_true, beq_iff_eq, LdForm.ofFields_eq_some, StForm.ofFields_eq_some,
      MemTy.ofCode_eq_some, AmoTy.ofCode_eq_some, AmoOp.ofCode_eq_some, low2_eq_some, off14Of_eq_some] at h hop
  case h_5 | h_14 =>
    obtain ⟨op, hamo, h⟩ := h
    casesm* _ ∧ _, ∃ _, _
    subst_vars
    refine ⟨by simp [Instr.wf, *], ?_⟩
    change some (FM.toWord _) = _
    simp only [ofBool_beq_one, amo_off hamo, BitVec.ofNat_eq_ofNat]
  all_goals
    casesm* _ ∧ _, ∃ _, _
    subst_vars
    refine ⟨rfl, ?_⟩
    change some (FM.toWord _) = _
    simp only [ofBool_beq_one, BitVec.ofNat_eq_ofNat]

theorem decodeFM4_sound {f : FM} {i : Instr} (h : decodeFM4 f = some i) : i.wf = true ∧ encode i = some f.toWord := by
  cases f
  unfold decodeFM4 at h
  split at h
  case h_4 => cases h
  all_goals
    rename_i hop
    replace hop := eq_ofNat_of_toNat hop
    simp only [bind_eq_some, req_eq_some, Bool.and_eq_true, beq_iff_eq, TileLd.ofFields_eq_some, TileSt.ofFields_eq_some,
      MergeTy.ofCode_eq_some, low2_eq_some, partOf_eq_some] at h hop
    casesm* _ ∧ _, ∃ _, _
    subst_vars
    refine ⟨rfl, ?_⟩
    change some (FM.toWord _) = _
    simp only [ofBool_beq_one, BitVec.ofNat_eq_ofNat]

end Sys2Proof
end

section
/-! PROOFS. Pair words and their halves (spec 12, R238 to R242), and the statements O2 and O3. -/

namespace Sys2Proof

/-! ### Halves -/

theorem decodeHalf_sound {f : HF} {h : Half} (hd : decodeHalf f = some h) : h.bits = f.toBits := by
  cases f
  unfold decodeHalf at hd
  split at hd
  case h_26 => cases hd
  all_goals
    rename_i hop
    replace hop := eq_ofNat_of_toNat hop
    simp only [bind_eq_some, req_eq_some, Bool.and_eq_true, beq_iff_eq, shift14_eq_some, feedQ_eq_some, low2_eq_some,
      Option.some.injEq] at hd hop
    casesm* _ ∧ _, ∃ _, _
    subst_vars
    rfl

/-- The constructor of two halves: what it holds, when it is well-formed, its word. -/
theorem ofHalves_sound {h0 h1 : Half} {i : Instr} (h : Instr.ofHalves h0 h1 = some i) :
    i.wf = pairOk h0 h1 ∧ encode i = some (pairWord h0.bits h1.bits) := by
  cases h0
  case nop => cases h1 <;> (cases h; exact ⟨rfl, rfl⟩)
  case ldD | ldW | stD | stW | bz | bnz => cases h
  all_goals (cases h; exact ⟨rfl, rfl⟩)

/-- A pair word is bit 63, bit 62 and its slots. -/
theorem pairWord_slots {w : Word} (h63 : w.getLsbD 63 = true) (h62 : w.getLsbD 62 = false) :
    pairWord (w.extractLsb' 31 31) (w.extractLsb' 0 31) = w := by
  have htop : (2#2 : BitVec 2) = w.extractLsb' 62 2 := by
    ext i hi
    match i, hi with
    | 0, _ => simpa using h62
    | 1, _ => simpa using h63
  rw [pairWord, htop, show w.extractLsb' 62 2 ++ w.extractLsb' 31 31 = w.extractLsb' 31 33 from extract_join (k := 31) w,
    show w.extractLsb' 31 33 ++ w.extractLsb' 0 31 = w.extractLsb' 0 64 from extract_join (k := 0) w]
  exact BitVec.extractLsb'_eq_self

/-- A pair word that decodes: bit 62 is zero, its halves decode and pair, and it is their constructor. -/
theorem decodePair_ok {w : Word} {i : Instr} (h : decodePair w = .ok i) :
    w.getLsbD 62 = false ∧ ∃ h0 h1, decodeHalf (HF.ofBits (w.extractLsb' 31 31)) = some h0 ∧
      decodeHalf (HF.ofBits (w.extractLsb' 0 31)) = some h1 ∧ pairOk h0 h1 = true ∧ Instr.ofHalves h0 h1 = some i := by
  unfold decodePair at h
  dsimp only at h
  split at h
  · cases h
  split at h
  · cases h
  rename_i hbit
  split at h
  case h_2 => cases h
  case h_1 h0 h1 hd0 hd1 =>
    split at h
    case isFalse => cases h
    case isTrue hok =>
      split at h
      case h_2 => cases h
      case h_1 j hj =>
        cases h
        exact ⟨by simpa using hbit, h0, h1, hd0, hd1, hok, hj⟩

theorem decodePair_sound {w : Word} {i : Instr} (h63 : w.getLsbD 63 = true) (h : decodePair w = .ok i) :
    i.wf = true ∧ encode i = some w := by
  obtain ⟨h62, h0, h1, hd0, hd1, hok, hi⟩ := decodePair_ok h
  obtain ⟨hwf, henc⟩ := ofHalves_sound hi
  rw [decodeHalf_sound hd0, decodeHalf_sound hd1, HF.toBits_ofBits, HF.toBits_ofBits, pairWord_slots h63 h62] at henc
  exact ⟨hwf.trans hok, henc⟩

/-! ### Full words -/

theorem decodeFull_sound {w : Word} {i : Instr} (h63 : w.getLsbD 63 = false) (h : decodeFull w = some i) :
    i.wf = true ∧ encode i = some w := by
  unfold decodeFull at h
  dsimp only at h
  split_ifs at h
  · simpa only [FI.toWord_ofWord h63] using decodeFI0_sound h
  · simpa only [FR.toWord_ofWord h63] using decodeFR0_sound h
  · simpa only [FB.toWord_ofWord h63] using decodeFB1_sound h
  · simpa only [FI.toWord_ofWord h63] using decodeFI1_sound h
  · simpa only [FR.toWord_ofWord h63] using decodeFR1_sound h
  · simpa only [FR.toWord_ofWord h63] using decodeFR2_sound h
  · simpa only [FI.toWord_ofWord h63] using decodeFI3_sound h
  · simpa only [FM.toWord_ofWord h63] using decodeFM3_sound h
  · simpa only [FM.toWord_ofWord h63] using decodeFM4_sound h
  · simpa only [FR.toWord_ofWord h63] using decodeFR4_sound h
  · simpa only [FR.toWord_ofWord h63] using decodeFR5_sound h

/-- Settles O2: format by format, each decoder of the opcode map undoes the encoder. -/
theorem encodeOfDecode : Obligations.EncodeOfDecode := by
  intro i w h
  unfold decode at h
  split at h
  case isTrue h63 => exact decodePair_sound h63 h
  case isFalse h63 =>
    split at h
    · cases h
    split at h
    case h_1 j hj =>
      cases h
      exact decodeFull_sound (by simpa using h63) hj
    case h_2 => cases h

/-! ### Words of no instruction -/

/-- R242 step 1. -/
theorem unknownOpcodes : Claims.UnknownOpcodes := by
  intro w h63 hop
  unfold decode
  rw [h63, hop]
  rfl

/-- Settles O3: an opcode outside the map fails step 1 of R242, and bit 62 of a pair word fails step 2. -/
theorem wordsThatDecodeToNothing : Obligations.WordsThatDecodeToNothing := by
  refine ⟨unknownOpcodes, fun w h63 h62 i h => ?_⟩
  rw [decode, if_pos h63] at h
  exact absurd (decodePair_ok h).1 (by simp [h62])

end Sys2Proof
end

section
/-! PROOFS. The word of a well-formed instruction decodes to it (spec 12): the statement O1. -/

namespace Sys2Proof

/-! ### Pair words -/

/-- A constructor that stands for two halves: what it holds, when it is well-formed, its word. -/
theorem halves_eq_some {i : Instr} {h0 h1 : Half} (h : i.halves = some (h0, h1)) :
    Instr.ofHalves h0 h1 = some i ∧ i.wf = pairOk h0 h1 ∧ encode i = some (pairWord h0.bits h1.bits) := by
  cases i
  case halfNop | halfLdD | halfLdW | halfStD | halfStW | halfBz | halfBnz => cases h; exact ⟨rfl, rfl, rfl⟩
  case halfMov mate | halfAdd mate | halfSub mate | halfAnd mate | halfOr mate | halfXor mate | halfShl mate | halfShr mate
    | halfSra mate | halfAddi mate | halfAndi mate | halfShli mate | halfShri mate | halfSrai mate | halfSlti mate | halfMovi mate
    | halfQpush mate | halfQpop mate => cases mate <;> (cases h; exact ⟨rfl, rfl, rfl⟩)
  all_goals cases h

@[simp] theorem shift14_setWidth (n : BitVec 6) : shift14 (n.setWidth 14) = some n := shift14_eq_some.mpr rfl

theorem decodeHalf_bits (h : Half) : decodeHalf (HF.ofBits h.bits) = some h := by
  cases h <;> simp [Half.bits, decodeHalf, req]

theorem bits_op_le (h : Half) : ¬ 0x18 < (HF.ofBits h.bits).op.toNat := by
  cases h <;> simp [Half.bits]

theorem decode_pairWord {h0 h1 : Half} {i : Instr} (hok : pairOk h0 h1 = true) (hi : Instr.ofHalves h0 h1 = some i) :
    decode (pairWord h0.bits h1.bits) = .ok i := by
  simp only [decode, decodePair, pairWord_63, pairWord_62, pairWord_slot0, pairWord_slot1, bits_op_le, decodeHalf_bits, hok, hi,
    decide_false, Bool.or_self, if_true, if_false, Bool.false_eq_true]

/-! ### Full words, by the decoder that the opcode map gives them -/

/-- The decoder that the map gives an opcode, on the fields of the word in each format. -/
def decodeFields (op : Nat) (r : FR) (i : FI) (m : FM) (b : FB) : Option Instr :=
  if op < 0x080 then (if 0x01C ≤ op && op ≤ 0x025 then decodeFI0 i else decodeFR0 r)
  else if op < 0x100 then (if op ≤ 0x08D then decodeFB1 b else if isFI1 op then decodeFI1 i else decodeFR1 r)
  else if op < 0x200 then decodeFR2 r
  else if op < 0x280 then (if op = 0x20F then decodeFI3 i else decodeFM3 m)
  else if op < 0x2C0 then (if op = 0x283 || op = 0x284 || op = 0x285 then decodeFM4 m else decodeFR4 r)
  else decodeFR5 r

theorem decodeFull_eq (w : Word) : decodeFull w =
    decodeFields (w.extractLsb' 52 10).toNat (FR.ofWord w) (FI.ofWord w) (FM.ofWord w) (FB.ofWord w) := rfl

/-- The opcodes of the map whose word names no control register. -/
def opPlain (op : Nat) : Bool := opKnown op && !(op == 0x091 || op == 0x092 || op == 0x093)

/-- A full word that passes step 1 of R242 and that its decoder takes. -/
theorem decode_of_full {w : Word} {i : Instr} (h63 : w.getLsbD 63 = false) (hk : opPlain (w.extractLsb' 52 10).toNat = true)
    (hd : decodeFull w = some i) : decode w = .ok i := by
  rw [opPlain, Bool.and_eq_true, Bool.not_eq_true'] at hk
  simp only [decode, cregUnknown, h63, hk.1, hk.2, hd, Bool.false_eq_true, if_false, Bool.not_true, Bool.false_and, Bool.or_self]

theorem decode_FR {f : FR} {i : Instr} (hk : opPlain f.op.toNat = true) (hd : ∀ x y z, decodeFields f.op.toNat f x y z = some i) :
    decode f.toWord = .ok i :=
  decode_of_full f.toWord_63 (f.toWord_op ▸ hk) (by rw [decodeFull_eq, f.toWord_op, f.ofWord_toWord]; exact hd ..)

theorem decode_FI {f : FI} {i : Instr} (hk : opPlain f.op.toNat = true) (hd : ∀ x y z, decodeFields f.op.toNat x f y z = some i) :
    decode f.toWord = .ok i :=
  decode_of_full f.toWord_63 (f.toWord_op ▸ hk) (by rw [decodeFull_eq, f.toWord_op, f.ofWord_toWord]; exact hd ..)

theorem decode_FM {f : FM} {i : Instr} (hk : opPlain f.op.toNat = true) (hd : ∀ x y z, decodeFields f.op.toNat x y f z = some i) :
    decode f.toWord = .ok i :=
  decode_of_full f.toWord_63 (f.toWord_op ▸ hk) (by rw [decodeFull_eq, f.toWord_op, f.ofWord_toWord]; exact hd ..)

theorem decode_FB {f : FB} {i : Instr} (hk : opPlain f.op.toNat = true) (hd : ∀ x y z, decodeFields f.op.toNat x y z f = some i) :
    decode f.toWord = .ok i :=
  decode_of_full f.toWord_63 (f.toWord_op ▸ hk) (by rw [decodeFull_eq, f.toWord_op, f.ofWord_toWord]; exact hd ..)

/-- Words of GETC, SETC and SETCI name their register in IMM32 [11:0] (R278). -/
theorem decode_creg {f : FI} {i : Instr} {r : CReg} (hk : opKnown f.op.toNat = true) (hr : f.imm.extractLsb' 0 12 = r.number)
    (hd : ∀ x y z, decodeFields f.op.toNat x f y z = some i) : decode f.toWord = .ok i := by
  have hcreg : cregUnknown f.toWord = false := by
    have himm : f.toWord.extractLsb' 0 12 = f.imm.extractLsb' 0 12 := extract_low _ _ (by decide)
    rw [cregUnknown, himm, hr, CReg.ofNumber_number]
    simp
  have hfull : decodeFull f.toWord = some i := by rw [decodeFull_eq, f.toWord_op, f.ofWord_toWord]; exact hd ..
  simp only [decode, f.toWord_63, f.toWord_op, hk, hcreg, hfull, Bool.false_eq_true, if_false, Bool.not_true, Bool.or_self]

/-! ### The fields of a word read back -/

@[simp] theorem beq_one_ofBool (b : Bool) : (BitVec.ofBool b == 1#1) = b := by revert b; decide
@[simp] theorem shiftCount_setWidth (n : BitVec 6) : shiftCount (n.setWidth 32) = some n := shiftCount_eq_some.mpr rfl
@[simp] theorem cregOnly_number (r : CReg) : cregOnly (r.number.setWidth 32) = some r := cregOnly_eq_some.mpr rfl
@[simp] theorem levelOf_code (lv : Level) : levelOf (lv.code.setWidth 32) = some lv := levelOf_eq_some.mpr rfl
@[simp] theorem loopLevel_setWidth (lv : BitVec 1) : loopLevel (lv.setWidth 5) = some lv := loopLevel_eq_some.mpr rfl
@[simp] theorem low2of4_append (t : TReg) : low2of4 (0#2 ++ t) = some t := low2of4_eq_some.mpr rfl
@[simp] theorem vcvtSrc_append (t : VIntTy) : vcvtSrc (0#1 ++ t.code) = some t := vcvtSrc_eq_some.mpr rfl
@[simp] theorem mcvtSrc_append (t : MergeTy) : mcvtSrc (0#1 ++ t.code) = some t := mcvtSrc_eq_some.mpr rfl
@[simp] theorem off14Of_append (o : BitVec 14) : off14Of (0#2 ++ o) = some o := off14Of_eq_some.mpr rfl

theorem loopiCount_join (n : BitVec 15) : n.extractLsb' 10 5 ++ n.extractLsb' 5 5 ++ n.extractLsb' 0 5 = n := by
  rw [show n.extractLsb' 10 5 ++ n.extractLsb' 5 5 = n.extractLsb' 5 10 from extract_join (k := 5) n,
    show n.extractLsb' 5 10 ++ n.extractLsb' 0 5 = n.extractLsb' 0 15 from extract_join (k := 0) n]
  exact BitVec.extractLsb'_eq_self

theorem fenceImm_scope (k : FenceKind) (sc : BitVec 2) : (fenceImm k sc).extractLsb' 2 2 = sc := by
  revert sc; cases k <;> decide

theorem setciImm_fields (imm : BitVec 20) (r : BitVec 12) : (imm ++ r).extractLsb' 12 20 = imm ∧ (imm ++ r).extractLsb' 0 12 = r :=
  (eq_append_iff (m := 20)).mp rfl

theorem amoOff_fields (op : BitVec 4) (off : BitVec 12) : (op ++ off).extractLsb' 12 4 = op ∧ (op ++ off).extractLsb' 0 12 = off :=
  (eq_append_iff (m := 4)).mp rfl

/-! ### GETC, SETC and SETCI -/

theorem setWidth_low (r : BitVec 12) : (r.setWidth 32).extractLsb' 0 12 = r := by
  rw [← zero_append (m := 20)]
  exact ((eq_append_iff (m := 20)).mp rfl).2

theorem decode_getc (d : SReg) (r : CReg) :
    decode (FI.toWord ⟨0, 0x091, d, 0, 0, 0, 0, r.number.setWidth 32⟩) = .ok (getcInstr d r) := by
  refine decode_creg (r := r) rfl (setWidth_low _) fun _ _ _ => ?_
  have h : ∀ imm, decodeFI1 ⟨0, 0x091, d, 0, 0, 0, 0, imm⟩ = (cregOnly imm).bind fun r => some (getcInstr d r) := fun _ => rfl
  exact (h (r.number.setWidth 32)).trans (by rw [cregOnly_number r]; rfl)

theorem decode_setc (r : CReg) (a : SReg) :
    decode (FI.toWord ⟨0, 0x092, 0, a, 0, 0, 0, r.number.setWidth 32⟩) = .ok (.setc r a) :=
  decode_creg (r := r) rfl (setWidth_low _) fun _ _ _ => by simp [decodeFields, decodeFI1, isFI1, req]

theorem decode_setci (r : CReg) (imm : BitVec 20) :
    decode (FI.toWord ⟨0, 0x093, 0, 0, 0, 0, 0, imm ++ r.number⟩) = .ok (.setci r imm) := by
  obtain ⟨hhigh, hlow⟩ := setciImm_fields imm r.number
  exact decode_creg (r := r) rfl hlow fun _ _ _ => by simp [decodeFields, decodeFI1, isFI1, req, hhigh, hlow]

/-! ### The parts of the map -/

/-- The parts of the opcode map (R247 to R251); groups 4 and 5 are one. -/
inductive MapPart where
  | scalar | control | lanes | masks | moves | memory | matrix

/-- The part that holds the word of an instruction; none for pairs and for events. -/
def Instr.part : Instr → Option MapPart
  | .add .. | .sub .. | .mul .. | .mulh .. | .mulhn .. | .div .. | .divn .. | .rem .. | .remn .. | .and .. | .or .. | .xor ..
  | .andn .. | .shl .. | .shr .. | .sra .. | .rotr .. | .clz .. | .ctz .. | .popc .. | .min .. | .max .. | .minn .. | .maxn ..
  | .slt .. | .sltn .. | .seq .. | .csel .. | .addi .. | .andi .. | .ori .. | .xori .. | .shli .. | .shri .. | .srai ..
  | .slti .. | .movi .. | .movhi .. | .fadd .. | .fsub .. | .fmul .. | .fdiv .. | .fsqrt .. | .fma .. | .fmin .. | .fmax ..
  | .fcmp .. | .fcvt .. | .fclass .. => some .scalar
  | .beq .. | .bne .. | .blt .. | .bge .. | .bltn .. | .bgen .. | .j .. | .jal .. | .jr .. | .jalr .. | .loop .. | .loopi ..
  | .bmz .. | .bmnz .. | .trap .. | .brk .. | .eret | .getc .. | .copyLaunch .. | .setc .. | .setci .. | .deal .. | .exit
  | .yield | .cntinc .. | .cntwait .. | .cancel .. | .qpush .. | .qpop .. | .sptr .. | .slotq .. | .slotsync .. | .slotset ..
  | .slotinv .. | .incfence .. | .mark .. => some .control
  | .setvl .. | .msetvl .. | .vadd .. | .vsub .. | .vmul .. | .vmulh .. | .vmin .. | .vmax .. | .vand .. | .vor .. | .vxor ..
  | .vshl .. | .vshr .. | .vsra .. | .vsadd .. | .vssub .. | .vabs .. | .vfadd .. | .vfsub .. | .vfmul .. | .vfdiv ..
  | .vfsqrt .. | .vfma .. | .vfms .. | .vfnma .. | .vfmin .. | .vfmax .. | .vfabs .. | .vfneg .. | .vfrsqe .. | .vfrcpe ..
  | .vfexp2 .. | .vflog2 .. => some .lanes
  | .vcmp .. | .vfcmp .. | .vfclass .. | .mand .. | .mor .. | .mxor .. | .mandn .. | .mnot .. | .mmov .. | .mpopc ..
  | .mfirst .. | .mpush .. | .minv .. | .mpop .. | .mtop .. => some .masks
  | .vcompress .. | .viota .. | .vperm .. | .vslideup .. | .vslidedn .. | .vbcast .. | .vextr .. | .vins .. | .vmerge ..
  | .vredsum .. | .vredmin .. | .vredmax .. | .vfredsum .. | .vfredmin .. | .vfredmax .. | .vcvt .. | .vfcvt .. | .vresenc ..
  | .vresdec .. | .vresmac .. | .vresadd .. | .vresmul .. | .vmov .. => some .moves
  | .ld .. | .st .. | .ldacq .. | .strel .. | .amo .. | .vld .. | .vlds .. | .vldx .. | .vldff .. | .vldsc .. | .vst ..
  | .vsts .. | .vstx .. | .vamo .. | .zline .. | .fence .. | .waita .. | .pref .. => some .memory
  | .mopa .. | .mops .. | .mzero .. | .mldt .. | .mstt .. | .mmerge .. | .mrow .. | .mwrow .. | .mfold .. | .mcvt ..
  | .cpwait .. | .cpcancel .. => some .matrix
  | _ => none

/-- R247. -/
theorem decode_encode_scalar {i : Instr} {w : Word} (hp : i.part = some .scalar) (hwf : i.wf = true) (h : encode i = some w) :
    decode w = .ok i := by
  cases i
  case add | sub | mul | mulh | mulhn | div | divn | rem | remn | and | or | xor | andn | shl | shr | sra | rotr | clz | ctz
    | popc | min | max | minn | maxn | slt | sltn | seq | csel | fadd | fsub | fmul | fdiv | fsqrt | fma | fmin | fmax | fcmp
    | fcvt | fclass =>
    obtain rfl := Option.some.inj h
    exact decode_FR rfl fun _ _ _ => by simp [decodeFields, decodeFR0, req]
  case addi | andi | ori | xori | shli | shri | srai | slti | movi | movhi =>
    obtain rfl := Option.some.inj h
    exact decode_FI rfl fun _ _ _ => by simp [decodeFields, decodeFI0, req]
  all_goals cases hp

/-- R248. -/
theorem decode_encode_control {i : Instr} {w : Word} (hp : i.part = some .control) (hwf : i.wf = true) (h : encode i = some w) :
    decode w = .ok i := by
  cases i
  case beq | bne | blt | bge | bltn | bgen | j | jal | jr | jalr | bmz | bmnz =>
    obtain rfl := Option.some.inj h
    exact decode_FB rfl fun _ _ _ => by simp [decodeFields, decodeFB1, req]
  case trap | brk | cntinc | cancel =>
    obtain rfl := Option.some.inj h
    exact decode_FI rfl fun _ _ _ => by simp [decodeFields, decodeFI1, isFI1, req]
  case eret | exit | yield | cntwait | qpush | qpop | slotset | slotinv | incfence | mark =>
    obtain rfl := Option.some.inj h
    exact decode_FR rfl fun _ _ _ => by simp [decodeFields, decodeFR1, isFI1, req]
  case loop disp =>
    obtain rfl := Option.some.inj h
    have hdisp : loopDisp disp = some disp := loopDisp_eq_some.mpr ⟨rfl, hwf⟩
    exact decode_FB rfl fun _ _ _ => by simp [decodeFields, decodeFB1, req, hdisp]
  case loopi n disp =>
    obtain rfl := Option.some.inj h
    have hdisp : loopDisp disp = some disp := loopDisp_eq_some.mpr ⟨rfl, hwf⟩
    exact decode_FB rfl fun _ _ _ => by simp [decodeFields, decodeFB1, req, hdisp, loopiCount_join]
  case getc d r =>
    obtain rfl := Option.some.inj h
    rw [decode_getc]
    cases r
    case cpgo => cases hwf
    all_goals rfl
  case copyLaunch d ch =>
    obtain rfl := Option.some.inj h
    exact decode_getc d (.cpgo ch)
  case setc r a =>
    obtain rfl := Option.some.inj h
    exact decode_setc r a
  case setci r imm =>
    obtain rfl := Option.some.inj h
    exact decode_setci r imm
  case deal d a =>
    obtain rfl := Option.some.inj h
    have hregs : (d != a && d != 0 && a != 0) = true := hwf
    exact decode_FR rfl fun _ _ _ => by simpa [decodeFields, decodeFR1, isFI1, req, and_assoc] using hregs
  case sptr k _ | slotq k | slotsync k =>
    obtain rfl := Option.some.inj h
    have hk : slotOf (k.setWidth 32) = some k := slotOf_eq_some.mpr ⟨rfl, bne_iff_ne.mp hwf⟩
    exact decode_FI rfl fun _ _ _ => by simp [decodeFields, decodeFI1, isFI1, req, hk]
  all_goals cases hp

/-- R249, opcodes 0x100 to 0x120. -/
theorem decode_encode_lanes {i : Instr} {w : Word} (hp : i.part = some .lanes) (hwf : i.wf = true) (h : encode i = some w) :
    decode w = .ok i := by
  cases i
  case setvl | msetvl | vadd | vsub | vmul | vmulh | vmin | vmax | vand | vor | vxor | vshl | vshr | vsra | vsadd | vssub | vabs
    | vfadd | vfsub | vfmul | vfdiv | vfsqrt | vfma | vfms | vfnma | vfmin | vfmax | vfabs | vfneg | vfrsqe | vfrcpe | vfexp2
    | vflog2 =>
    obtain rfl := Option.some.inj h
    exact decode_FR rfl fun _ _ _ => by simp [decodeFields, decodeFR2, req]
  all_goals cases hp

/-- R249, opcodes 0x121 to 0x12F. -/
theorem decode_encode_masks {i : Instr} {w : Word} (hp : i.part = some .masks) (hwf : i.wf = true) (h : encode i = some w) :
    decode w = .ok i := by
  cases i
  case vfclass | mpopc | mfirst | mpush | minv | mpop =>
    obtain rfl := Option.some.inj h
    exact decode_FR rfl fun _ _ _ => by simp [decodeFields, decodeFR2, req]
  case vcmp md _ _ | vfcmp md _ _ | mand md _ _ | mor md _ _ | mxor md _ _ | mandn md _ _ | mnot md _ | mmov md _ | mtop md =>
    obtain rfl := Option.some.inj h
    have hmd : writeMask (up5 md) = some md := writeMask_up5 hwf
    exact decode_FR rfl fun _ _ _ => by simp [decodeFields, decodeFR2, req, hmd]
  all_goals cases hp

/-- R249, opcodes 0x130 to 0x146. -/
theorem decode_encode_moves {i : Instr} {w : Word} (hp : i.part = some .moves) (hwf : i.wf = true) (h : encode i = some w) :
    decode w = .ok i := by
  cases i
  case vcompress | vperm | vslideup | vslidedn | vbcast | vextr | vmerge | vredsum | vredmin | vredmax | vfredsum | vfredmin
    | vfredmax | vcvt | vfcvt | vresenc | vresdec | vresmac | vresadd | vresmul | vmov =>
    obtain rfl := Option.some.inj h
    exact decode_FR rfl fun _ _ _ => by simp [decodeFields, decodeFR2, req]
  case viota t _ =>
    obtain rfl := Option.some.inj h
    have ht : (t != .res32) = true := hwf
    exact decode_FR rfl fun _ _ _ => by simpa [decodeFields, decodeFR2, req] using ht
  case vins a _ =>
    obtain rfl := Option.some.inj h
    have ha : a.notVec = true := hwf
    exact decode_FR rfl fun _ _ _ => by simp [decodeFields, decodeFR2, req, ha]
  all_goals cases hp

/-- R250. -/
theorem decode_encode_memory {i : Instr} {w : Word} (hp : i.part = some .memory) (hwf : i.wf = true) (h : encode i = some w) :
    decode w = .ok i := by
  cases i
  case ld | st | ldacq | strel | vld | vlds | vldx | vldff | vldsc | vst | vsts | vstx | zline | waita | pref =>
    obtain rfl := Option.some.inj h
    exact decode_FM rfl fun _ _ _ => by simp [decodeFields, decodeFM3, req]
  case amo op t _ _ _ off _ =>
    obtain rfl := Option.some.inj h
    have ht : amoTyOk op t = true := hwf
    obtain ⟨hop, hoff⟩ := amoOff_fields op.code off
    exact decode_FM rfl fun _ _ _ => by simp [decodeFields, decodeFM3, req, ht, hop, hoff]
  case vamo op t _ _ _ off _ =>
    obtain rfl := Option.some.inj h
    have ht : (op != .cas && amoTyOk op t) = true := hwf
    obtain ⟨hop, hoff⟩ := amoOff_fields op.code off
    exact decode_FM rfl fun _ _ _ => by simpa [decodeFields, decodeFM3, req, hop, hoff] using ht
  case fence k sc =>
    obtain rfl := Option.some.inj h
    have hk : fenceKindOf (fenceImm k sc) = some k := fenceKindOf_eq_some.mpr (by rw [fenceImm_scope])
    exact decode_FI rfl fun _ _ _ => by simp [decodeFields, decodeFI3, req, hk, fenceImm_scope]
  all_goals cases hp

/-- R251. -/
theorem decode_encode_matrix {i : Instr} {w : Word} (hp : i.part = some .matrix) (hwf : i.wf = true) (h : encode i = some w) :
    decode w = .ok i := by
  cases i
  case mopa | mops | mzero | mrow | mwrow | mfold | mcvt =>
    obtain rfl := Option.some.inj h
    exact decode_FR rfl fun _ _ _ => by simp [decodeFields, decodeFR4, req]
  case mldt | mstt | mmerge =>
    obtain rfl := Option.some.inj h
    exact decode_FM rfl fun _ _ _ => by simp [decodeFields, decodeFM4, req]
  case cpwait | cpcancel =>
    obtain rfl := Option.some.inj h
    exact decode_FR rfl fun _ _ _ => by simp [decodeFields, decodeFR5, req]
  all_goals cases hp

/-- An instruction that has a word stands for two halves, or its word is in the map. -/
theorem halves_or_part {i : Instr} (h : (encode i).isSome = true) : i.halves.isSome = true ∨ i.part.isSome = true := by
  cases i <;> first | exact .inl rfl | exact .inr rfl | cases h

/-- Settles O1: a pair by its halves; a full word by the decoder that the map gives its opcode. -/
theorem decodeOfEncode : Obligations.DecodeOfEncode := by
  intro i w hwf h
  obtain hp | hp := halves_or_part (i := i) (by simp [h])
  · obtain ⟨⟨h0, h1⟩, hh⟩ := Option.isSome_iff_exists.mp hp
    obtain ⟨hi, hok, henc⟩ := halves_eq_some hh
    obtain rfl := Option.some.inj (henc.symm.trans h)
    exact decode_pairWord (hok.symm.trans hwf) hi
  · obtain ⟨p, hp⟩ := Option.isSome_iff_exists.mp hp
    cases p with
    | scalar => exact decode_encode_scalar hp hwf h
    | control => exact decode_encode_control hp hwf h
    | lanes => exact decode_encode_lanes hp hwf h
    | masks => exact decode_encode_masks hp hwf h
    | moves => exact decode_encode_moves hp hwf h
    | memory => exact decode_encode_memory hp hwf h
    | matrix => exact decode_encode_matrix hp hwf h

end Sys2Proof
end

section
/-! PROOFS. Operations on w-bit numbers (spec 13, R264 to R266) are those of bit vectors; the statements O5, O6 and O7. -/

namespace Sys2Proof.Machine

/-! ### Numbers and bit vectors -/

theorem field_setWidth (x : Word) (w : Nat) : field x.toNat 0 w = (x.setWidth w).toNat := by
  simp [field]

theorem toSigned_toNat {w : Nat} (x : BitVec w) : toSigned w x.toNat = x.toInt := by
  simp only [toSigned, BitVec.toInt_eq_toNat_cond, Nat.mod_eq_of_lt x.isLt]

theorem toSigned_ofNat (w n : Nat) : toSigned w n = (BitVec.ofNat w n).toInt := by
  rw [← toSigned_toNat, BitVec.toNat_ofNat]
  simp [toSigned]

theorem ofNat_wrapNat (w : Nat) (i : Int) : BitVec.ofNat w (wrapNat w i) = BitVec.ofInt w i := by
  apply BitVec.eq_of_toNat_eq
  have h0 : (0 : Int) < (2 ^ w : Nat) := by exact_mod_cast Nat.two_pow_pos w
  have hlt : wrapNat w i < 2 ^ w := by
    have := Int.emod_lt_of_pos i h0
    have := Int.emod_nonneg i h0.ne'
    unfold wrapNat
    omega
  rw [BitVec.toNat_ofInt, BitVec.toNat_ofNat, Nat.mod_eq_of_lt hlt]
  rfl

/-- A result is extended from its low w bits (R264). -/
theorem extendInt_eq_widen (t : IntTy) (n : Nat) : extendInt t n = Claims.widen t (BitVec.ofNat (intWidth t) n) := by
  unfold extendInt Claims.widen
  split
  · rw [sextWord, toSigned_ofNat]; rfl
  · apply BitVec.eq_of_toNat_eq; simp

theorem ofNat_of_eq_toNat {w n : Nat} {z : BitVec w} (h : n = z.toNat) : BitVec.ofNat w n = z := by
  subst h; simp

/-! ### The operations of R265 -/

section
variable {w : Nat} (x y : BitVec w)

theorem ofNat_addOf : BitVec.ofNat w (addOf w x.toNat y.toNat) = x + y := by
  simp [addOf, BitVec.ofNat_add]

theorem ofNat_subOf : BitVec.ofNat w (subOf w x.toNat y.toNat) = x - y := by
  rw [subOf, ofNat_wrapNat]
  apply BitVec.eq_of_toInt_eq
  rw [BitVec.toInt_ofInt, BitVec.toInt_sub, BitVec.toInt_eq_toNat_bmod, BitVec.toInt_eq_toNat_bmod]
  simp

theorem ofNat_mulOf : BitVec.ofNat w (mulOf w x.toNat y.toNat) = x * y := by
  simp [mulOf, BitVec.ofNat_mul]

/-- The high half of a product, of two numbers in 2w bits. -/
theorem extract_high_ofInt (i : Int) : (BitVec.ofInt (2 * w) i).extractLsb' w w = BitVec.ofInt w (i / (2 ^ w : Nat)) := by
  apply BitVec.eq_of_toNat_eq
  have hpow : ((2 ^ (2 * w) : Nat) : Int) = (2 ^ w : Nat) * (2 ^ w : Nat) := by rw [two_mul, pow_add]; push_cast; rfl
  have hpos : (0 : Int) < (2 ^ w : Nat) := by exact_mod_cast Nat.two_pow_pos w
  have hlow : i % (2 ^ (2 * w) : Nat) / (2 ^ w : Nat) = i / (2 ^ w : Nat) - 2 ^ w * (i / (2 ^ (2 * w) : Nat)) := by
    rw [Int.emod_def, hpow, mul_assoc, Int.sub_mul_ediv_left _ _ hpos.ne']
    push_cast
    rfl
  have hnn : 0 ≤ i % (2 ^ (2 * w) : Nat) := Int.emod_nonneg _ (by rw [hpow]; exact (mul_pos hpos hpos).ne')
  have hcast : ((i % (2 ^ (2 * w) : Nat)).toNat : Int) = i % (2 ^ (2 * w) : Nat) := Int.toNat_of_nonneg hnn
  rw [BitVec.extractLsb'_toNat, BitVec.toNat_ofInt, BitVec.toNat_ofInt, Nat.shiftRight_eq_div_pow]
  apply Int.ofNat_inj.mp
  rw [Int.toNat_of_nonneg (Int.emod_nonneg _ hpos.ne')]
  push_cast at *
  rw [hcast, hlow, Int.sub_mul_emod_self_left]

theorem ofNat_mulhOf : BitVec.ofNat w (mulhOf w x.toNat y.toNat) =
    (x.signExtend (2 * w) * y.signExtend (2 * w)).extractLsb' w w := by
  rw [mulhOf, ofNat_wrapNat, toSigned_toNat, toSigned_toNat, ← extract_high_ofInt, BitVec.ofInt_mul]
  rfl

theorem ofNat_mulhnOf : BitVec.ofNat w (mulhnOf w x.toNat y.toNat) =
    (x.setWidth (2 * w) * y.setWidth (2 * w)).extractLsb' w w := by
  apply BitVec.eq_of_toNat_eq
  have hle : 2 ^ w ≤ 2 ^ (2 * w) := Nat.pow_le_pow_right (by norm_num) (by omega)
  have hmul : x.toNat * y.toNat < 2 ^ (2 * w) := by
    rw [two_mul, pow_add]
    exact Nat.mul_lt_mul'' x.isLt y.isLt
  rw [BitVec.extractLsb'_toNat, BitVec.toNat_mul, BitVec.toNat_setWidth, BitVec.toNat_setWidth, BitVec.toNat_ofNat,
    Nat.mod_eq_of_lt (x.isLt.trans_le hle), Nat.mod_eq_of_lt (y.isLt.trans_le hle), Nat.mod_eq_of_lt hmul, Nat.shiftRight_eq_div_pow]
  rfl

theorem ofNat_allOnes : BitVec.ofNat w (2 ^ w - 1) = BitVec.allOnes w := by
  apply BitVec.eq_of_toNat_eq
  simp

theorem ofNat_divOf : BitVec.ofNat w (divOf w x.toNat y.toNat) = if y = 0 then BitVec.allOnes w else x.sdiv y := by
  have hy : y.toNat = 0 ↔ y = 0 := by simp [← BitVec.toNat_inj]
  unfold divOf
  by_cases h : y = 0
  · rw [if_pos (hy.mpr h), if_pos h, ofNat_allOnes]
  · rw [if_neg (mt hy.mp h), if_neg h, ofNat_wrapNat, toSigned_toNat, toSigned_toNat]
    apply BitVec.eq_of_toInt_eq
    rw [BitVec.toInt_ofInt, BitVec.toInt_sdiv]

theorem ofNat_divnOf : BitVec.ofNat w (divnOf w x.toNat y.toNat) = if y = 0 then BitVec.allOnes w else x / y := by
  have hy : y.toNat = 0 ↔ y = 0 := by simp [← BitVec.toNat_inj]
  unfold divnOf
  by_cases h : y = 0
  · rw [if_pos (hy.mpr h), if_pos h, ofNat_allOnes]
  · rw [if_neg (mt hy.mp h), if_neg h]
    exact ofNat_of_eq_toNat (BitVec.toNat_udiv ..).symm

theorem ofNat_remOf : BitVec.ofNat w (remOf w x.toNat y.toNat) = if y = 0 then x else x.srem y := by
  have hy : y.toNat = 0 ↔ y = 0 := by simp [← BitVec.toNat_inj]
  unfold remOf
  by_cases h : y = 0
  · rw [if_pos (hy.mpr h), if_pos h]; simp
  · rw [if_neg (mt hy.mp h), if_neg h, ofNat_wrapNat, toSigned_toNat, toSigned_toNat, ← BitVec.toInt_srem, BitVec.ofInt_toInt]

theorem ofNat_remnOf : BitVec.ofNat w (remnOf w x.toNat y.toNat) = if y = 0 then x else x % y := by
  have hy : y.toNat = 0 ↔ y = 0 := by simp [← BitVec.toNat_inj]
  unfold remnOf
  by_cases h : y = 0
  · rw [if_pos (hy.mpr h), if_pos h]; simp
  · rw [if_neg (mt hy.mp h), if_neg h]
    exact ofNat_of_eq_toNat (BitVec.toNat_umod ..).symm

theorem ofNat_andOf : BitVec.ofNat w (andOf w x.toNat y.toNat) = x &&& y := ofNat_of_eq_toNat (BitVec.toNat_and x y).symm

theorem ofNat_orOf : BitVec.ofNat w (orOf w x.toNat y.toNat) = x ||| y := ofNat_of_eq_toNat (BitVec.toNat_or x y).symm

theorem ofNat_xorOf : BitVec.ofNat w (xorOf w x.toNat y.toNat) = x ^^^ y := ofNat_of_eq_toNat (BitVec.toNat_xor x y).symm

theorem ofNat_andnOf : BitVec.ofNat w (andnOf w x.toNat y.toNat) = x &&& ~~~y :=
  ofNat_of_eq_toNat (by rw [BitVec.toNat_and, BitVec.toNat_not]; rfl)

theorem ofNat_shlOf (n : Nat) : BitVec.ofNat w (shlOf w x.toNat n) = x <<< (n % w) := by
  apply BitVec.eq_of_toNat_eq
  rw [BitVec.toNat_ofNat, BitVec.toNat_shiftLeft, Nat.shiftLeft_eq]
  rfl

theorem ofNat_shrOf (n : Nat) : BitVec.ofNat w (shrOf w x.toNat n) = x >>> (n % w) := by
  exact ofNat_of_eq_toNat (by rw [BitVec.toNat_ushiftRight, Nat.shiftRight_eq_div_pow]; rfl)

theorem ofNat_sraOf (n : Nat) : BitVec.ofNat w (sraOf w x.toNat n) = x.sshiftRight (n % w) := by
  rw [sraOf, ofNat_wrapNat, toSigned_toNat, ← Int.shiftRight_eq_div_pow, ← BitVec.toInt_sshiftRight, BitVec.ofInt_toInt]

theorem ofNat_rotrOf (n : Nat) : BitVec.ofNat w (rotrOf w x.toNat n) = x.rotateRight (n % w) := by
  rcases Nat.eq_zero_or_pos w with rfl | hw
  · exact Subsingleton.elim _ _
  refine ofNat_of_eq_toNat ?_
  rw [BitVec.toNat_rotateRight, Nat.mod_mod, rotrOf]
  have hr : n % w < w := Nat.mod_lt _ hw
  generalize n % w = r at hr
  have hpow : 2 ^ w = 2 ^ (w - r) * 2 ^ r := by rw [← pow_add]; congr 1; omega
  have hlow : x.toNat / 2 ^ r < 2 ^ (w - r) := Nat.div_lt_of_lt_mul (by rw [mul_comm, ← hpow]; exact x.isLt)
  calc x.toNat / 2 ^ r + x.toNat % 2 ^ r * 2 ^ (w - r)
      = 2 ^ (w - r) * (x.toNat % 2 ^ r) + x.toNat / 2 ^ r := by ring
    _ = 2 ^ (w - r) * (x.toNat % 2 ^ r) ||| x.toNat / 2 ^ r := Nat.two_pow_add_eq_or_of_lt hlow _
    _ = x.toNat >>> r ||| x.toNat <<< (w - r) % 2 ^ w := by
      rw [Nat.lor_comm, Nat.shiftRight_eq_div_pow, Nat.shiftLeft_eq, hpow, mul_comm x.toNat, Nat.mul_mod_mul_left]

theorem ofNat_minOf : BitVec.ofNat w (minOf w x.toNat y.toNat) = if y.slt x then y else x := by
  simp only [minOf, toSigned_toNat, BitVec.slt_iff_toInt_lt]
  split <;> simp

theorem ofNat_maxOf : BitVec.ofNat w (maxOf w x.toNat y.toNat) = if x.slt y then y else x := by
  simp only [maxOf, toSigned_toNat, BitVec.slt_iff_toInt_lt]
  split <;> simp

theorem ofNat_minnOf : BitVec.ofNat w (minnOf w x.toNat y.toNat) = if y.ult x then y else x := by
  simp only [minnOf, BitVec.ult_iff_lt, BitVec.lt_def]
  split <;> simp

theorem ofNat_maxnOf : BitVec.ofNat w (maxnOf w x.toNat y.toNat) = if x.ult y then y else x := by
  simp only [maxnOf, BitVec.ult_iff_lt, BitVec.lt_def]
  split <;> simp

theorem ofNat_sltOf : BitVec.ofNat w (sltOf w x.toNat y.toNat) = if x.slt y then BitVec.ofNat w 1 else 0 := by
  simp only [sltOf, toSigned_toNat, BitVec.slt_iff_toInt_lt]
  split <;> simp

theorem ofNat_sltnOf : BitVec.ofNat w (sltnOf w x.toNat y.toNat) = if x.ult y then BitVec.ofNat w 1 else 0 := by
  simp only [sltnOf, BitVec.ult_iff_lt, BitVec.lt_def]
  split <;> simp

theorem ofNat_seqOf : BitVec.ofNat w (seqOf w x.toNat y.toNat) = if x = y then BitVec.ofNat w 1 else 0 := by
  simp only [seqOf, BitVec.toNat_inj]
  split <;> simp

end

/-! ### Register words (R265) -/

/-- The result of a register form whose operation is that of the bit vectors. -/
theorem State.intReg_eq {t : IntTy} {op : Nat → Nat → Nat → Nat} {f : BitVec (intWidth t) → BitVec (intWidth t) → BitVec (intWidth t)}
    (h : ∀ x y : BitVec (intWidth t), BitVec.ofNat (intWidth t) (op (intWidth t) x.toNat y.toNat) = f x y) (s : State) (d a b : SReg) :
    s.intReg t d a b op = (s.setSreg d (Claims.widen t (f ((s.sreg a).setWidth _) ((s.sreg b).setWidth _)))).next := by
  rw [State.intReg, State.write, extendInt_eq_widen, field_setWidth, field_setWidth, h]

theorem State.intImm_eq {t : IntTy} {op : Nat → Nat → Nat → Nat} {f : BitVec (intWidth t) → BitVec (intWidth t) → BitVec (intWidth t)}
    (h : ∀ x y : BitVec (intWidth t), BitVec.ofNat (intWidth t) (op (intWidth t) x.toNat y.toNat) = f x y) (s : State) (d a : SReg)
    (y : Word) :
    s.intImm t d a y op = (s.setSreg d (Claims.widen t (f ((s.sreg a).setWidth _) (y.setWidth _)))).next := by
  rw [State.intImm, State.write, extendInt_eq_widen, field_setWidth, field_setWidth, h]

theorem intRegisterForms : Claims.IntRegisterForms := by
  simp only [Claims.IntRegisterForms, Claims.intForms, List.forall_mem_cons]
  exact ⟨fun _ d a b s => congrArg _ (State.intReg_eq ofNat_addOf s d a b),
    fun _ d a b s => congrArg _ (State.intReg_eq ofNat_subOf s d a b),
    fun _ d a b s => congrArg _ (State.intReg_eq ofNat_mulOf s d a b),
    fun _ d a b s => congrArg _ (State.intReg_eq ofNat_mulhOf s d a b),
    fun _ d a b s => congrArg _ (State.intReg_eq ofNat_mulhnOf s d a b),
    fun _ d a b s => congrArg _ (State.intReg_eq ofNat_divOf s d a b),
    fun _ d a b s => congrArg _ (State.intReg_eq ofNat_divnOf s d a b),
    fun _ d a b s => congrArg _ (State.intReg_eq ofNat_remOf s d a b),
    fun _ d a b s => congrArg _ (State.intReg_eq ofNat_remnOf s d a b),
    fun _ d a b s => congrArg _ (State.intReg_eq ofNat_andOf s d a b),
    fun _ d a b s => congrArg _ (State.intReg_eq ofNat_orOf s d a b),
    fun _ d a b s => congrArg _ (State.intReg_eq ofNat_xorOf s d a b),
    fun _ d a b s => congrArg _ (State.intReg_eq ofNat_andnOf s d a b),
    fun _ d a b s => congrArg _ (State.intReg_eq (fun x y => ofNat_shlOf x y.toNat) s d a b),
    fun _ d a b s => congrArg _ (State.intReg_eq (fun x y => ofNat_shrOf x y.toNat) s d a b),
    fun _ d a b s => congrArg _ (State.intReg_eq (fun x y => ofNat_sraOf x y.toNat) s d a b),
    fun _ d a b s => congrArg _ (State.intReg_eq (fun x y => ofNat_rotrOf x y.toNat) s d a b),
    fun _ d a b s => congrArg _ (State.intReg_eq ofNat_minOf s d a b),
    fun _ d a b s => congrArg _ (State.intReg_eq ofNat_maxOf s d a b),
    fun _ d a b s => congrArg _ (State.intReg_eq ofNat_minnOf s d a b),
    fun _ d a b s => congrArg _ (State.intReg_eq ofNat_maxnOf s d a b),
    fun _ d a b s => congrArg _ (State.intReg_eq ofNat_sltOf s d a b),
    fun _ d a b s => congrArg _ (State.intReg_eq ofNat_sltnOf s d a b),
    fun _ d a b s => congrArg _ (State.intReg_eq ofNat_seqOf s d a b), by simp⟩

/-! ### Counts of bits (R265) -/

/-- A count of at most w is a result whose top bit is 0: extending it changes nothing. -/
theorem extendInt_of_le (t : IntTy) {n : Nat} (h : n ≤ intWidth t) : extendInt t n = BitVec.ofNat 64 n := by
  have hw : 2 * intWidth t < 2 ^ intWidth t := by cases t <;> decide
  have hmod : n % 2 ^ intWidth t = n := Nat.mod_eq_of_lt (by omega)
  unfold extendInt
  split
  · have hpos : toSigned (intWidth t) n = n := by
      simp only [toSigned, hmod]
      rw [if_pos (by omega)]
    rw [sextWord, hpos]
    exact BitVec.ofInt_natCast ..
  · rw [hmod]

theorem State.intUn_count {t : IntTy} {op : Nat → Nat → Nat} (s : State) (d a : SReg)
    (h : op (intWidth t) ((s.sreg a).setWidth (intWidth t)).toNat ≤ intWidth t) :
    s.intUn t d a op = (s.setSreg d (BitVec.ofNat 64 (op (intWidth t) ((s.sreg a).setWidth (intWidth t)).toNat))).next := by
  rw [State.intUn, State.write, field_setWidth, extendInt_of_le t h]

section
variable {w : Nat} (x : BitVec w)

theorem clzOf_le : clzOf w x.toNat ≤ w := by
  unfold clzOf
  split <;> omega

theorem getMsbD_of_lt_clzOf {i : Nat} (h : i < clzOf w x.toNat) : x.getMsbD i = false := by
  rw [BitVec.getMsbD_eq_getLsbD, Bool.and_eq_false_iff]
  right
  unfold clzOf at h
  split at h
  · next h0 => simp [BitVec.getLsbD, h0]
  · next h0 =>
    exact Nat.testBit_lt_two_pow ((Nat.log2_lt h0).mp (by omega))

theorem getMsbD_clzOf (h : clzOf w x.toNat < w) : x.getMsbD (clzOf w x.toNat) = true := by
  have h0 : x.toNat ≠ 0 := fun h0 => by simp [clzOf, h0] at h
  have hlog : x.toNat.log2 < w := (Nat.log2_lt h0).mpr x.isLt
  have hn : clzOf w x.toNat = w - 1 - x.toNat.log2 := if_neg h0
  rw [BitVec.getMsbD_eq_getLsbD, hn]
  rw [hn] at h
  have hbit : w - 1 - (w - 1 - x.toNat.log2) = x.toNat.log2 := by omega
  simp [h, hbit, BitVec.getLsbD, Nat.testBit_log2 h0]

theorem ctzOf_spec : ctzOf w x.toNat ≤ w ∧ (∀ i < ctzOf w x.toNat, x.getLsbD i = false) ∧
    (ctzOf w x.toNat < w → x.getLsbD (ctzOf w x.toNat) = true) := by
  unfold ctzOf
  cases hf : (List.range w).find? fun i => x.toNat.testBit i with
  | none =>
    rw [List.find?_range_eq_none] at hf
    exact ⟨le_rfl, fun i hi => Bool.not_eq_true' _ ▸ hf i hi, fun h => absurd h (lt_irrefl w)⟩
  | some n =>
    obtain ⟨hbit, hmem, hbelow⟩ := List.find?_range_eq_some.mp hf
    exact ⟨(List.mem_range.mp hmem).le, fun i hi => Bool.not_eq_true' _ ▸ hbelow i hi, fun _ => hbit⟩

theorem foldl_count_eq (p : Nat → Bool) (l : List Nat) (c : Nat) :
    l.foldl (fun c i => if p i then c + 1 else c) c = c + l.countP p := by
  induction l generalizing c with
  | nil => rfl
  | cons i l ih =>
    rw [List.foldl_cons, ih, List.countP_cons]
    split <;> omega

theorem popBelow_eq_countP {n : Nat} (m : BitVec n) (k : Nat) : popBelow m k = (List.range k).countP fun i => m.getLsbD i := by
  rw [popBelow, foldl_count_eq, Nat.zero_add]

end

theorem popBelow_intWidth (t : IntTy) (x : BitVec (intWidth t)) :
    popBelow (BitVec.ofNat 64 x.toNat) (intWidth t) = (List.range (intWidth t)).countP fun i => x.getLsbD i := by
  have hw : intWidth t ≤ 64 := by cases t <;> decide
  rw [popBelow_eq_countP]
  apply List.countP_congr
  intro i hi
  have hlt : i < 64 := (List.mem_range.mp hi).trans_le hw
  simp [hlt]

theorem intBitCounts : Claims.IntBitCounts := by
  intro t d a s w x
  refine ⟨⟨clzOf w x.toNat, clzOf_le x, congrArg _ (State.intUn_count s d a (clzOf_le x)), fun i hi => getMsbD_of_lt_clzOf x hi,
    getMsbD_clzOf x⟩, ?_, ?_⟩
  · obtain ⟨hle, hbelow, hbit⟩ := ctzOf_spec x
    exact ⟨ctzOf w x.toNat, hle, congrArg _ (State.intUn_count s d a hle), hbelow, hbit⟩
  · have hle : popBelow (BitVec.ofNat 64 x.toNat) w ≤ w := by
      rw [popBelow_intWidth t x]
      exact List.countP_le_length.trans_eq List.length_range
    rw [← popBelow_intWidth t x]
    exact congrArg _ (State.intUn_count (op := fun w x => popBelow (BitVec.ofNat 64 x) w) s d a hle)

/-- Settles O6: the operations on w-bit numbers are those of bit vectors, the counts of bits are found at the bit that ends them. -/
theorem integerRegisterForms : Obligations.IntegerRegisterForms := ⟨intRegisterForms, intBitCounts⟩

/-! ### Immediate words (R266) -/

theorem ofNat_slti (t : IntTy) (x y : BitVec (intWidth t)) :
    BitVec.ofNat (intWidth t) ((if intSigned t then sltOf else sltnOf) (intWidth t) x.toNat y.toNat) =
      if (if intSigned t then x.slt y else x.ult y) then BitVec.ofNat (intWidth t) 1 else 0 := by
  cases intSigned t
  · exact ofNat_sltnOf x y
  · exact ofNat_sltOf x y

/-- A shift count of 6 bits survives the cut to w bits. -/
theorem toNat_count (t : IntTy) (n : BitVec 6) : ((n.setWidth 64).setWidth (intWidth t)).toNat = n.toNat := by
  have hw : 2 ^ 6 ≤ 2 ^ intWidth t := by cases t <;> decide
  rw [BitVec.toNat_setWidth, BitVec.toNat_setWidth_of_le (by norm_num), Nat.mod_eq_of_lt (n.isLt.trans_le hw)]

/-- Settles O5: each word is the shared immediate form with its operation. -/
theorem intImmediateForms : Obligations.IntImmediateForms := by
  refine ⟨?_, ?_, fun d imm s => ⟨rfl, rfl⟩, fun d a b s => ?_⟩
  · simp only [Claims.immForms, List.forall_mem_cons]
    exact ⟨fun _ d a _ s => congrArg _ (State.intImm_eq ofNat_addOf s d a _),
      fun _ d a _ s => congrArg _ (State.intImm_eq ofNat_andOf s d a _),
      fun _ d a _ s => congrArg _ (State.intImm_eq ofNat_orOf s d a _),
      fun _ d a _ s => congrArg _ (State.intImm_eq ofNat_xorOf s d a _),
      fun t d a _ s => congrArg _ (State.intImm_eq (ofNat_slti t) s d a _), by simp⟩
  · simp only [Claims.countForms, List.forall_mem_cons]
    refine ⟨fun t d a n s => ?_, fun t d a n s => ?_, fun t d a n s => ?_, by simp⟩ <;> rw [← toNat_count t n]
    · exact congrArg _ (State.intImm_eq (fun x y => ofNat_shlOf x y.toNat) s d a _)
    · exact congrArg _ (State.intImm_eq (fun x y => ofNat_shrOf x y.toNat) s d a _)
    · exact congrArg _ (State.intImm_eq (fun x y => ofNat_sraOf x y.toNat) s d a _)
  · show execCsel d a b s = _
    by_cases h : s.sreg d = 0 <;> simp [execCsel, State.write, h]

/-! ### Scalar registers (R252) -/

theorem Chanter.sreg_setSreg_same (c : Chanter) {r : SReg} (x : Word) (hr : r ≠ 0) : (c.setSreg r x).sreg r = x := by
  unfold Chanter.setSreg
  rw [if_neg hr, Chanter.sreg, if_neg hr]
  exact Vector.getElem_set_self _

theorem Chanter.sreg_setSreg_other (c : Chanter) {r q : SReg} (x : Word) (hq : q ≠ r) : (c.setSreg r x).sreg q = c.sreg q := by
  unfold Chanter.setSreg
  split
  · rfl
  · unfold Chanter.sreg
    split
    · rfl
    · exact Vector.getElem_set_ne r.isLt _ fun h => hq (BitVec.eq_of_toNat_eq h.symm)

/-- Settles O7: s0 is apart in both accessors, the others are the elements of a vector. -/
theorem scalarRegisters : Obligations.ScalarRegisters :=
  fun s _ _ x => ⟨rfl, rfl, s.me.ch.sreg_setSreg_same x, s.me.ch.sreg_setSreg_other x⟩

end Sys2Proof.Machine
end

section
/-! PROOFS. Loops, branches on the mask-stack top, control registers (spec 13, R253, R254, R262, R272 to R274, R278, R279): the
statements O10, O11, O12, O16 and O17. -/

namespace Sys2Proof.Machine

/-! ### Opening a loop (R273) -/

section
variable {s : State} {lv : BitVec 1}

theorem State.loop_active (ha : s.me.ch.loops.active lv = true) (cnt disp : BitVec 32) :
    s.loop lv cnt disp = s.raise (stopAt s.me.ch.pc .loopnest 0) := if_pos ha

theorem State.loop_skips (ha : s.me.ch.loops.active lv = false) (disp : BitVec 32) :
    s.loop lv 0 disp = s.skipTo (target s.me.ch.pc disp) := (if_neg (by simp [ha])).trans (if_pos rfl)

theorem State.loop_opens (ha : s.me.ch.loops.active lv = false) {cnt : BitVec 32} (hc : cnt ≠ 0) (disp : BitVec 32) :
    s.loop lv cnt disp = (s.onCh fun c => c.openLoop lv cnt (s.me.ch.pc + 8) (target s.me.ch.pc disp)).next :=
  (if_neg (by simp [ha])).trans (if_neg hc)

end

/-- Settles O10: LOOP and LOOPI are the one operation with their counts. -/
theorem loopWords : Obligations.LoopWords := by
  intro lv a n disp s e i cnt hi
  have hexec : exec i s = .next (s.loop lv cnt disp) := by rcases hi with ⟨rfl, rfl⟩ | ⟨rfl, rfl⟩ <;> rfl
  rw [hexec]
  refine ⟨fun ha => congrArg _ (State.loop_active ha ..), fun ha hc => ?_, fun ha hc => congrArg _ (State.loop_opens ha hc _)⟩
  subst hc
  exact ⟨_, congrArg _ (State.loop_skips ha _), rfl, rfl⟩

/-! ### The loop-back test (R274) -/

section
variable {c : Chanter}

theorem Chanter.loopTest_done {n : Nat} (h : (if n = 0 then c.lc0 else c.lc1).toNat ≤ 1) :
    c.loopTest n = ({ c with lc0 := if n = 0 then 0 else c.lc0, lc1 := if n = 0 then c.lc1 else 0, loops := c.loops.close n }, false) :=
  if_pos h

theorem Chanter.loopTest_back {n : Nat} (h : 1 < (if n = 0 then c.lc0 else c.lc1).toNat) :
    c.loopTest n = ({ c with
        lc0 := if n = 0 then c.lc0 - 1 else c.lc0
        lc1 := if n = 0 then c.lc1 else c.lc1 - 1
        pc := if n = 0 then c.loops.s0 else c.loops.s1 }, true) := by
  unfold Chanter.loopTest
  rw [if_neg (by omega)]
  by_cases hn : n = 0 <;> simp [hn]

/-- Only PC, the counts and the levels of the loops differ. -/
def Chanter.onlyLoops (c c' : Chanter) : Prop := c' = { c with pc := c'.pc, loops := c'.loops, lc0 := c'.lc0, lc1 := c'.lc1 }

theorem Chanter.onlyLoops.trans {c₁ c₂ c₃ : Chanter} (h : c₁.onlyLoops c₂) (g : c₂.onlyLoops c₃) : c₁.onlyLoops c₃ :=
  Eq.trans g (by rw [h])

theorem Chanter.loopTest_onlyLoops (c : Chanter) (n : Nat) : c.onlyLoops (c.loopTest n).1 := by
  unfold Chanter.loopTest
  dsimp only
  generalize (if n = 0 then c.lc0 else c.lc1) = lc
  split <;> rfl

theorem Chanter.fallTo_none {e : Word} (h : c.loops.endingAt e = []) : c.fallTo e = { c with pc := e } := by
  rw [Chanter.fallTo, h]

/-- The level tested first loops back: no other is tested. -/
theorem Chanter.fallTo_back {e : Word} {n : Nat} {rest : List Nat} (h : c.loops.endingAt e = n :: rest)
    (hlc : 1 < (if n = 0 then c.lc0 else c.lc1).toNat) :
    c.fallTo e = { c with
      lc0 := if n = 0 then c.lc0 - 1 else c.lc0
      lc1 := if n = 0 then c.lc1 else c.lc1 - 1
      pc := if n = 0 then c.loops.s0 else c.loops.s1 } := by
  rw [Chanter.fallTo, h]
  dsimp only
  rw [Chanter.loopTest_back (c := { c with pc := e }) hlc, if_pos rfl]

theorem Chanter.fallTo_done {e : Word} {n : Nat} (h : c.loops.endingAt e = [n])
    (hlc : (if n = 0 then c.lc0 else c.lc1).toNat ≤ 1) :
    c.fallTo e = { c with
      pc := e
      lc0 := if n = 0 then 0 else c.lc0
      lc1 := if n = 0 then c.lc1 else 0
      loops := c.loops.close n } := by
  rw [Chanter.fallTo, h]
  dsimp only
  rw [Chanter.loopTest_done (c := { c with pc := e }) hlc, if_neg (by simp)]

/-- Both levels are at their last turn: both close. -/
theorem Chanter.fallTo_order_done {e : Word} (h : c.loops.endingAt e = c.loops.order) (h0 : c.lc0.toNat ≤ 1) (h1 : c.lc1.toNat ≤ 1) :
    c.fallTo e = { c with pc := e, lc0 := 0, lc1 := 0, loops := (c.loops.close 0).close 1 } := by
  cases hl : c.loops.later
  · rw [Chanter.fallTo, h.trans (if_neg (by simp [hl]))]
    dsimp only
    rw [Chanter.loopTest_done (c := { c with pc := e }) (n := 0) h0, if_neg (by simp)]
    exact congrArg Prod.fst (Chanter.loopTest_done (c := { c with pc := e, lc0 := 0, loops := c.loops.close 0 }) (n := 1) h1)
  · rw [Chanter.fallTo, h.trans (if_pos hl)]
    dsimp only
    rw [Chanter.loopTest_done (c := { c with pc := e }) (n := 1) h1, if_neg (by simp)]
    exact congrArg Prod.fst (Chanter.loopTest_done (c := { c with pc := e, lc1 := 0, loops := c.loops.close 1 }) (n := 0) h0)

theorem Chanter.fallTo_onlyLoops (c : Chanter) (e : Word) : c.onlyLoops (c.fallTo e) := by
  unfold Chanter.fallTo
  split
  · rfl
  · next n rest _ =>
    have first : c.onlyLoops ({ c with pc := e }.loopTest n).1 := .trans (c₂ := { c with pc := e }) rfl (loopTest_onlyLoops _ n)
    dsimp only
    split
    · exact first
    · split
      · exact first
      · exact first.trans (loopTest_onlyLoops ..)

end

section
variable {l : Loops} {e : Word}

theorem Loops.endingAt_none (h0 : ¬ (l.act0 = true ∧ l.e0 = e)) (h1 : ¬ (l.act1 = true ∧ l.e1 = e)) : l.endingAt e = [] := by
  cases hl : l.later <;> simp_all [Loops.endingAt, Loops.order]

theorem Loops.endingAt_zero (h0 : l.act0 = true ∧ l.e0 = e) (h1 : ¬ (l.act1 = true ∧ l.e1 = e)) : l.endingAt e = [0] := by
  cases hl : l.later <;> simp_all [Loops.endingAt, Loops.order]

theorem Loops.endingAt_one (h0 : ¬ (l.act0 = true ∧ l.e0 = e)) (h1 : l.act1 = true ∧ l.e1 = e) : l.endingAt e = [1] := by
  cases hl : l.later <;> simp_all [Loops.endingAt, Loops.order]

theorem Loops.endingAt_both (h0 : l.act0 = true ∧ l.e0 = e) (h1 : l.act1 = true ∧ l.e1 = e) : l.endingAt e = l.order := by
  cases hl : l.later <;> simp_all [Loops.endingAt, Loops.order]

end

theorem loopBackTest : Claims.LoopBackTest := by
  intro s t a b c e at0 at1
  have hch : s.next.me.ch = c.fallTo e := rfl
  refine ⟨s.next, rfl, rfl, c.fallTo_onlyLoops e, fun h0 h1 => ?_, fun h0 h1 => ?_, fun h1 h0 => ?_⟩
  · rw [hch, Chanter.fallTo_none (Loops.endingAt_none h0 h1)]
    exact ⟨rfl, rfl, rfl, rfl⟩
  · have hend := Loops.endingAt_zero h0 h1
    rcases Nat.lt_or_ge 1 c.lc0.toNat with h | h
    · rw [hch, Chanter.fallTo_back hend h]
      exact ⟨rfl, rfl, fun h' => by omega, fun _ => ⟨rfl, rfl, rfl⟩⟩
    · rw [hch, Chanter.fallTo_done hend h]
      exact ⟨rfl, rfl, fun _ => ⟨rfl, rfl, rfl⟩, fun h' => by omega⟩
  · have hend := Loops.endingAt_one h0 h1
    rcases Nat.lt_or_ge 1 c.lc1.toNat with h | h
    · rw [hch, Chanter.fallTo_back hend h]
      exact ⟨rfl, rfl, fun h' => by omega, fun _ => ⟨rfl, rfl, rfl⟩⟩
    · rw [hch, Chanter.fallTo_done hend h]
      exact ⟨rfl, rfl, fun _ => ⟨rfl, rfl, rfl⟩, fun h' => by omega⟩

theorem sharedLoopEnd : Claims.SharedLoopEnd := by
  intro s t a b c ha0 he0 ha1 he1
  have hch : s.next.me.ch = c.fallTo (c.pc + 8) := rfl
  have hend : c.loops.endingAt (c.pc + 8) = c.loops.order := Loops.endingAt_both ⟨ha0, he0⟩ ⟨ha1, he1⟩
  refine ⟨s.next, rfl, rfl, fun hl h1 => ?_, fun hl h0 => ?_, fun h0 h1 => ?_⟩
  · rw [hch, Chanter.fallTo_back (hend.trans (if_pos hl)) h1]
    exact ⟨rfl, rfl, rfl⟩
  · rw [hch, Chanter.fallTo_back (hend.trans (if_neg (by simp [hl]))) h0]
    exact ⟨rfl, rfl, rfl⟩
  · rw [hch, Chanter.fallTo_order_done hend h0 h1]
    exact ⟨rfl, rfl, rfl⟩

/-- Settles O11: the levels that end at a word are those the lists of `endingAt` name, in the order of their tests. -/
theorem loopBackTests : Obligations.LoopBackTests := ⟨loopBackTest, sharedLoopEnd⟩

/-! ### Branches on the mask-stack top (R272) -/

theorem Strand.topSet_iff (k : Strand) : k.topSet = true ↔ ∃ e < k.ch.vl, (stackTop k.stack).getLsbD e = true := by
  simp [Strand.topSet]

section
variable {s : State} {t : Word}

theorem State.transfer_into_convoy (h : s.insideConvoy t = true) (f : State → State) :
    s.transfer t f = s.raise (stopAt s.me.ch.pc .badtarget t) := if_pos h

theorem State.transfer_free (h : s.insideConvoy t = false) (f : State → State) : s.transfer t f = f s :=
  if_neg (by simp [h])

end

/-- Settles O12: both are the shared branch, on the same test with opposite outcomes. -/
theorem maskBranches : Obligations.MaskBranches := by
  intro disp s t some'
  refine ⟨fun hp => ⟨congrArg _ (if_pos hp), congrArg _ (if_pos hp)⟩, fun hp i j hij => ?_⟩
  have hidle : ¬ s.me.stackPending = true := by simp [hp]
  have hbmz : exec (.bmz disp) s = .next (s.branch (!s.me.topSet) disp) := congrArg _ (if_neg hidle)
  have hbmnz : exec (.bmnz disp) s = .next (s.branch s.me.topSet disp) := congrArg _ (if_neg hidle)
  have hboth : exec j s = .next (s.branch false disp) ∧ exec i s = .next (s.branch true disp) := by
    rcases hij with ⟨rfl, rfl, hs⟩ | ⟨rfl, rfl, hs⟩
    · have htop : s.me.topSet = false := by rwa [← Bool.not_eq_true, Strand.topSet_iff]
      rw [hbmz, hbmnz, htop]
      exact ⟨rfl, rfl⟩
    · have htop : s.me.topSet = true := (Strand.topSet_iff _).mpr hs
      rw [hbmz, hbmnz, htop]
      exact ⟨rfl, rfl⟩
  rw [hboth.1, hboth.2]
  have htaken : s.branch true disp = s.transfer t fun s => s.jump t := rfl
  refine ⟨rfl, fun h => ?_, fun h => ?_⟩
  · rw [htaken, State.transfer_free h]
  · rw [htaken, State.transfer_into_convoy h]

/-! ### GETC (R278) -/

/-- Settles O16: none of the tests before the read stops the word. -/
theorem getcReads : Obligations.GetcReads := by
  refine ⟨fun d r s hr hs hw hl => ?_, fun d c s hp => ?_, fun d s hp => ?_⟩
  · have hslot : ¬ (decide (r = .slottb) && !s.me.priv) = true := by
      by_cases h : r = .slottb
      · simp [hs h]
      · simp [h]
    have hwait : ¬ (cregWaits r && !s.idle) = true := by
      cases h : cregWaits r
      · simp
      · simp [State.idle, hw h]
    have hlanes : ¬ (decide (r = .lanes) && s.me.setvlPending) = true := by
      by_cases h : r = .lanes
      · simp [hl h]
      · simp [h]
    refine congrArg _ ((if_neg hslot).trans ((if_neg hwait).trans ((if_neg hlanes).trans ?_)))
    dsimp only
    split
    · next c => exact absurd rfl (hr c).1
    · rfl
  · refine congrArg _ ((if_neg ?_).trans ((if_neg ?_).trans (if_neg ?_)))
    · simp
    · simp [State.idle, hp]
    · simp
  · exact congrArg _ (if_pos (by simp [hp]))

/-! ### SETC and SETCI (R254, R279) -/

section
variable {s : State} {r : CReg}

theorem State.setCreg_readOnly (h : cregReadOnly r = true) (x word : Word) :
    s.setCreg r x word = s.raise (stopAt s.me.ch.pc .priv (BitVec.ofNat 64 (cregNum r))) := if_pos h

theorem State.setCreg_chanter (h : cregReadOnly r = false) (hs : r ≠ .slottb) (hf : r ≠ .fpflg) (hm : r ≠ .mflg) (x word : Word) :
    s.setCreg r x word = (s.onCh fun c => c.writeCreg r x).next := by
  unfold State.setCreg
  rw [if_neg (by simp [h])]
  split
  · exact absurd rfl hs
  · exact absurd rfl hf
  · exact absurd rfl hm
  · rfl

theorem low_five (z : BitVec 32) : z &&& 0x1F = (z.setWidth 5).setWidth 32 := by
  ext i hi
  interval_cases i <;> simp

theorem low_six (z : BitVec 32) : z &&& 0x3F = (z.setWidth 6).setWidth 32 := by
  ext i hi
  interval_cases i <;> simp

theorem State.setCreg_fpflg (hp : s.me.pend = []) (x word : Word) :
    s.setCreg .fpflg x word = (s.onMe fun k => { k with fpflg := (x.extractLsb' 0 5).setWidth 32 }).next := by
  have hset : s.setCreg .fpflg x word = s.whenIdle fun s => (s.onMe fun k => { k with fpflg := x.setWidth 32 &&& 0x1F }).next := rfl
  rw [hset, State.whenIdle_idle hp, low_five]
  simp [BitVec.setWidth_eq_extractLsb']

theorem State.setCreg_mflg (hp : s.me.pend = []) (x word : Word) :
    s.setCreg .mflg x word = (s.onMe fun k => { k with mflg := (x.extractLsb' 0 6).setWidth 32 }).next := by
  have hset : s.setCreg .mflg x word = s.whenIdle fun s => (s.onMe fun k => { k with mflg := x.setWidth 32 &&& 0x3F }).next := rfl
  rw [hset, State.whenIdle_idle hp, low_six]
  simp [BitVec.setWidth_eq_extractLsb']

theorem State.setCreg_slottb (s : State) (x word : Word) :
    s.setCreg .slottb x word = if !s.me.priv then s.trapHere .priv word
      else s.whenIdle fun s => (s.onMe fun k => { k with slottb := x.setWidth 48, dcache := [] }).next := rfl

theorem State.setCreg_slottb_privileged (hv : s.me.priv = true) (hp : s.me.pend = []) (x word : Word) :
    s.setCreg .slottb x word = (s.onMe fun k => { k with slottb := x.extractLsb' 0 48, dcache := [] }).next := by
  rw [State.setCreg_slottb, if_neg (by simp [hv]), State.whenIdle_idle hp, BitVec.setWidth_eq_extractLsb' (by norm_num)]

theorem State.setCreg_slottb_unprivileged (hv : s.me.priv = false) (x word : Word) :
    s.setCreg .slottb x word = s.raise (stopAt s.me.ch.pc .priv word) := by
  rw [State.setCreg_slottb, if_pos (by simp [hv]), State.trapHere]

end

theorem setcWrites : Claims.SetcWrites := by
  intro a imm s x y flags sticky table
  exact ⟨fun r h hs hf hm => ⟨congrArg _ (State.setCreg_chanter h hs hf hm ..), congrArg _ (State.setCreg_chanter h hs hf hm ..)⟩,
    fun hp => ⟨congrArg _ (State.setCreg_fpflg hp ..), congrArg _ (State.setCreg_fpflg hp ..), congrArg _ (State.setCreg_mflg hp ..),
      congrArg _ (State.setCreg_mflg hp ..)⟩,
    fun hv hp => ⟨congrArg _ (State.setCreg_slottb_privileged hv hp ..), congrArg _ (State.setCreg_slottb_privileged hv hp ..)⟩,
    fun hv => ⟨congrArg _ (State.setCreg_slottb_unprivileged hv ..), congrArg _ (State.setCreg_slottb_unprivileged hv ..)⟩⟩

theorem tvec_low_zero (x : Word) : (x &&& 0xFFFFFFFFFFF8).extractLsb' 0 3 = 0 := by
  ext i hi
  interval_cases i <;> simp

theorem fpctl_mode_le (x : Word) : ((storeFpctl (x.setWidth 32) &&& 0x1F07).extractLsb' 0 3).toNat ≤ 4 := by
  have hmode : ∀ z : BitVec 32, (z &&& 0x1F07).extractLsb' 0 3 = z.extractLsb' 0 3 := by
    intro z
    ext i hi
    interval_cases i <;> simp
  rw [hmode, storeFpctl]
  split
  · have hclear : ∀ z : BitVec 32, (z &&& 0xFFFFFFF8).extractLsb' 0 3 = 0 := by
      intro z
      ext i hi
      interval_cases i <;> simp
    rw [hclear]
    decide
  · omega

theorem esv_ridx_le (hi : BitVec 32) (n : Nat) : (hi ++ BitVec.ofNat 32 (min 256 n)).extractLsb' 0 32 ≤ 256 := by
  rw [BitVec.extractLsb'_append_eq_right, BitVec.le_def, BitVec.toNat_ofNat]
  exact (Nat.mod_le ..).trans (min_le_left ..)

theorem writtenRegisters : Claims.WrittenRegisters := by
  intro c x n
  refine ⟨tvec_low_zero x, fpctl_mode_le x, ?_, rfl, rfl, ?_, ?_, ?_, ?_, ?_⟩
  · simp only [Chanter.writeCreg, Vector.getElem_set_self]
    exact esv_ridx_le ..
  all_goals exact BitVec.setWidth_eq_extractLsb' (x := x) (by decide)

/-- Settles O17: both words are the shared write, which asks for the read-only registers, SLOTTB, FPFLG and MFLG apart. -/
theorem controlRegisterWrites : Obligations.ControlRegisterWrites :=
  ⟨fun _ _ _ _ h => ⟨congrArg _ (State.setCreg_readOnly h ..), congrArg _ (State.setCreg_readOnly h ..)⟩, setcWrites, writtenRegisters⟩

end Sys2Proof.Machine
end

section
/-! PROOFS. Words that the spec writes out, the machine after reset, a step that answers (spec 12; log entries 1, 13 and 108): the
statements O4, O47, O49 and O50. -/

namespace Sys2Proof.Machine

/-- Settles O4: each word decodes to its instruction by evaluation. -/
theorem wordsOfTheSpec : Obligations.WordsOfTheSpec := by
  unfold Obligations.WordsOfTheSpec
  decide +kernel

/-- Settles O47: the lists of the machine after reset are empty, so that every register reads its reset value. -/
theorem resetState : Obligations.ResetState := by
  refine ⟨rfl, rfl, rfl, rfl, ?_, rfl, ?_, rfl, ?_⟩
  · decide +kernel
  · decide +kernel
  · decide +kernel

/-! ### Every step answers -/

theorem exec_answers (i : Instr) (s : State) : ∃ t, exec i s = .next t := by
  cases i <;> exact ⟨_, rfl⟩

theorem mapState_answers {r : Result} (h : ∃ t, r = .next t) (f : State → State) : ∃ t, mapState f r = .next t := by
  obtain ⟨t, rfl⟩ := h
  exact ⟨f t, rfl⟩

theorem State.take1_answers (s : State) (w : Word) : ∃ t, s.take1 w = .next t := by
  unfold State.take1
  split
  · exact ⟨_, rfl⟩
  · split
    · exact ⟨_, rfl⟩
    · split
      · exact ⟨_, rfl⟩
      · exact mapState_answers (exec_answers _ s) _

theorem State.chanterTurn_answers (s : State) : ∃ t, s.chanterTurn = .next t := by
  unfold State.chanterTurn
  dsimp only
  split
  · exact ⟨_, rfl⟩
  · generalize (if s.replayHeld false then s else s.retrying false) = u
    split
    · exact ⟨_, rfl⟩
    · split
      · exact State.take1_answers ..
      · split
        · exact ⟨_, rfl⟩
        · exact ⟨_, rfl⟩
        · exact State.take1_answers ..

theorem State.takeWords_answers (s : State) : ∃ t, s.takeWords = .next t := by
  unfold State.takeWords
  dsimp only
  split
  · exact ⟨_, rfl⟩
  · split
    · exact ⟨_, rfl⟩
    · split
      · exact ⟨_, rfl⟩
      · exact State.chanterTurn_answers _

theorem State.meTurn_answers (s : State) : ∃ t, s.meTurn = .next t := by
  unfold State.meTurn
  dsimp only
  split
  · exact ⟨_, rfl⟩
  · split
    · exact ⟨_, rfl⟩
    · split
      · exact ⟨_, rfl⟩
      · split
        · exact ⟨_, rfl⟩
        · split
          · exact ⟨_, rfl⟩
          · split
            · exact ⟨_, rfl⟩
            · split
              · exact ⟨_, rfl⟩
              · exact State.takeWords_answers s

theorem State.runTurn_answers (s : State) (t : Turn) : ∃ u, s.runTurn t = .next u := by
  cases t with
  | strand k => exact State.meTurn_answers _
  | event i p =>
    show ∃ u, (if isEvent i then exec i { s with pins := p } else .next s) = .next u
    split
    · exact exec_answers ..
    · exact ⟨_, rfl⟩
  | elapse n => exact ⟨_, rfl⟩
  | ahead k b => exact ⟨_, rfl⟩

theorem State.firstEvent_answers (s : State) (l : List (Instr × Pins)) (r : Result) (h : s.firstEvent l = some r) :
    ∃ t, r = .next t := by
  induction l with
  | nil => cases h
  | cons x l ih =>
    obtain ⟨i, p⟩ := x
    obtain ⟨t, ht⟩ := exec_answers i { s with pins := p }
    rw [State.firstEvent, ht] at h
    dsimp only at h
    split at h
    · exact ih h
    · exact ⟨_, (Option.some.inj h).symm⟩

theorem State.idleTurn_answers (s : State) : ∃ t, s.idleTurn = .next t := by
  unfold State.idleTurn
  split
  · next r hr => exact State.firstEvent_answers s _ r hr
  · split
    · exact State.meTurn_answers _
    · obtain ⟨t, ht⟩ := State.meTurn_answers s
      rw [ht]
      exact ⟨_, rfl⟩

theorem State.freeTurn_answers (s : State) : ∃ t, s.freeTurn = .next t := by
  unfold State.freeTurn
  split
  · exact State.meTurn_answers s
  · exact State.idleTurn_answers s

/-- Settles O49: every arm answers, and each turn that a step can take ends in an arm or answers by itself. -/
theorem everyStepAnswers : Obligations.EveryStepAnswers := by
  refine ⟨exec_answers, fun s => mapState_answers ?_ _⟩
  split
  · exact State.runTurn_answers ..
  · exact State.freeTurn_answers s

/-! ### A step runs the decoded word -/

/-- With nothing pending and nothing on record the vector stream has nothing to do. -/
theorem State.drain_of_settled {s : State} (hp : s.me.pend = []) (ht : s.me.trap = none) (he : s.me.early = []) (ho : s.me.pops = []) :
    s.drain = s := by
  have hsettle : s.me.settle = s.me := by
    unfold Strand.settle
    split
    · rw [← he, ← ho]
    · rfl
  have hme : s.onMe Strand.settle = s := by rw [State.onMe, hsettle]
  unfold State.drain
  split
  · rfl
  · simp only [State.drainFor, hp, ht, hme]

/-- A fetch that answers has translated, and read at the home slice. -/
theorem State.fetchAt_translated {s u : State} {pc w : Word} (h : s.fetchAt pc = .ok u w) : s.translated u := by
  unfold State.fetchAt at h
  split at h
  · cases h
  · cases h
  · next t l d hprobe =>
    dsimp only at h
    split at h
    · cases h
      exact (State.probe_translated hprobe).trans (.of_caches (State.homeRead_caches ..))
    all_goals cases h

section
variable {s : State}

theorem State.flow_settled (hp : s.me.pend = []) (ht : s.me.trap = none) (he : s.me.early = []) (ho : s.me.pops = [])
    (ha : s.me.ahead = false) : s.flow = s :=
  (if_neg (by simp [ha])).trans (State.drain_of_settled hp ht he ho)

theorem State.takeWords_flows (hflow : s.flow = s) (hf : s.me.flows = true) (ht : s.me.trap = none) (hs : s.me.stepping = false)
    (ha : s.me.async = []) : s.takeWords = s.chanterTurn := by
  unfold State.takeWords
  dsimp only
  rw [hflow, if_neg (by simp [hf, ht]), if_neg (by simp [hs]), if_neg (by simp [State.asyncReady, ha])]

theorem State.meTurn_flows (hf : s.me.flows = true) (hd : s.dispatchable s.me.vd = true) (hsq : s.me.squashing = none)
    (hp : s.me.pend = []) (hv : s.me.vwait = none) : s.meTurn = s.takeWords := by
  have hrun : s.me.status = .running ∧ s.me.muted = false := by
    simp only [Strand.flows, Strand.runs, Bool.and_eq_true] at hf
    simpa using hf.1
  have hstop : s.stopCancelled = none := by simp [State.stopCancelled, hp]
  unfold State.meTurn
  dsimp only
  rw [if_neg (by simp [hsq]), if_neg (by simp [hrun]), if_neg (by simp [hrun]), if_neg (by simp [hf]), hstop]
  dsimp only
  rw [if_neg (by simp [hd]), if_neg (by simp [State.vectorExpired, hv])]

theorem State.chanterTurn_fetches (hw : s.me.wait = .none) (hq : s.quiet false) (hb : s.me.skipBrk = true ∨ s.brkAt s.me.ch.pc = false)
    {s' : State} {w : Word} (hfetch : s.fetchAt s.me.ch.pc = .ok s' w) : s.chanterTurn = (s'.beginWord w).take1 w := by
  have hbrk : s.breaksAt s.me.ch.pc = false := by rcases hb with h | h <;> simp [State.breaksAt, h]
  have hbegun : s.me.wordBegun = none := by simp [Strand.wordBegun, hw, Wait.timed]
  unfold State.chanterTurn
  dsimp only
  rw [State.quiet_held hq, if_neg (by simp), State.quiet_retry hq, ite_self, if_neg (by simp [hbrk]), hbegun, hfetch]

theorem State.take1_decodes {w : Word} {i : Instr} (hdec : decode w = .ok i) (hp : s.me.pend = [])
    (hj : s.me.forming = [] ∨ joins i = true) : s.take1 w = mapState (State.noteStep s.me.seq) (exec i s) := by
  unfold State.take1
  rw [hdec]
  dsimp only
  rw [if_neg (by rcases hj with h | h <;> simp [h]), if_neg (by simp [Strand.owes, hp])]

end

/-- Settles O50: under the premises none of the tests of a turn stops the word, and the fetch leaves the strand but for its descriptor
cache. -/
theorem stepRunsDecoded : Obligations.StepRunsDecoded := by
  refine ⟨?_, ?_⟩
  · intro s s' t w i hag hf hw hd hsq hp he ho ht hv hst ha hasync hq hj hb hfetch hdec hexec
    have hme := (State.fetchAt_translated hfetch).me
    have hp' : (s'.beginWord w).me.pend = [] := (congrArg Strand.pend hme).trans hp
    have hj' : (s'.beginWord w).me.forming = [] ∨ joins i = true :=
      hj.imp (congrArg Strand.forming hme).trans id
    have hfree : s.freeTurn = s.meTurn := if_pos (by simp [hf, hw, hd])
    have hturn : s.freeTurn = .next (t.noteStep s'.me.seq) := by
      rw [hfree, State.meTurn_flows hf hd hsq hp hv, State.takeWords_flows (State.flow_settled hp ht he ho ha) hf ht hst hasync,
        State.chanterTurn_fetches hw hq hb hfetch, State.take1_decodes hdec hp' hj', hexec]
      rfl
    unfold step
    rw [hag, hturn]
    rfl
  · intro s s1 pc a d hprobe
    have htr := State.probe_translated hprobe
    have hbytes : s1.homeBytes a 8 = s.homeBytes a 8 := State.homeBytes_of_homeByte htr.homeByte a 8
    have hall := htr.trans (.of_caches (s1.homeRead_caches s1.me.vd a 8 d.cp))
    refine ⟨(s1.homeRead s1.me.vd a 8 d.cp).1, ?_, hall.mem, hall.me⟩
    rw [State.fetchAt, hprobe]
    show Ans.ok _ (BitVec.ofNat 64 (ofLe (s1.homeBytes a 8))) = _
    rw [hbytes]
    rfl

end Sys2Proof.Machine
end

section
/-! PROOFS. Pair words (spec 12, R238 to R240): the statements O32 and O33. -/

namespace Sys2Proof.Machine

/-! ### The stream with nothing pending -/

/-- The strand with no record of queue moves that a rollback would take back. -/
def State.settled (s : State) : State := s.onMe fun k => { k with early := [], pops := [] }

theorem State.settled_eq {s : State} (he : s.me.early = []) (ho : s.me.pops = []) : s.settled = s := by
  unfold State.settled State.onMe
  rw [← he, ← ho]

/-- The vector stream of the strand has nothing to do: no item, no held trap, no turns of its own, and no pushes to skip. -/
structure Strand.still (k : Strand) : Prop where
  pend : k.pend = []
  trap : k.trap = .none
  ahead : k.ahead = false
  skip : ∀ q, k.skipOf q = 0

theorem State.drain_still {s : State} (h : s.me.still) : s.drain = s.settled := by
  have hsettle : s.me.settle = { s.me with early := [], pops := [] } := if_pos (by simp [h.pend])
  unfold State.drain
  rw [if_neg (by simp [h.ahead])]
  simp only [State.drainFor, h.pend, h.trap, State.onMe, hsettle, State.settled]

theorem Strand.still.congr {k m : Strand} (h : k.still) (hp : m.pend = k.pend) (ht : m.trap = k.trap) (ha : m.ahead = k.ahead)
    (hs : m.skip = k.skip) : m.still :=
  ⟨hp.trans h.pend, ht.trans h.trap, ha.trans h.ahead, fun q => by rw [Strand.skipOf, hs]; exact h.skip q⟩

theorem State.drain_next_still {s : State} (h : s.me.still) : s.next.drain = s.settled.next :=
  State.drain_still (h.congr rfl rfl rfl rfl)

theorem State.drain_jump_still {s : State} (h : s.me.still) (t : Word) : (s.jump t).drain = s.settled.jump t :=
  State.drain_still (h.congr rfl rfl rfl rfl)

/-! ### Plain halves (R239) -/

section
variable {h : Half} {x y : Word} {t : State}

theorem Strand.push_still {k : Strand} (hs : k.still) (q : QNum) (x : Word) : k.push q x = k.setToQ q (k.toQ q ++ [⟨x, k.seq⟩]) :=
  if_pos (hs.skip q)

/-- A half leaves the vector stream with nothing to do. -/
theorem State.doHalf_still (hs : t.me.still) : (t.doHalf h x y).me.still := by
  cases h with
  | qpush q a =>
    show (t.me.push q y).still
    rw [Strand.push_still hs]
    exact hs.congr rfl rfl rfl rfl
  | qpop d q =>
    unfold State.doHalf
    dsimp only
    split
    · exact hs.congr rfl rfl rfl rfl
    · exact hs
  | _ => exact hs.congr rfl rfl rfl rfl

/-- But for the record of its queue moves a plain half does what R239 gives. -/
theorem State.doHalf_settled (s : State) (hs : t.me.still) (hp : Claims.plainHalf h = true) :
    (t.doHalf h (s.sreg (halfD h)) (s.sreg (halfA h))).settled = Claims.halfAct s h t.settled := by
  cases h with
  | qpush q a =>
    show (t.onMe fun k => k.push q (s.sreg a)).settled = _
    rw [State.onMe, Strand.push_still hs]
    rfl
  | qpop d q =>
    show (match t.me.fromQ q with
      | e :: l => (t.onMe fun k => k.popped q e l).setSreg d e.val
      | [] => t).settled = match t.me.fromQ q with
      | e :: l => (t.settled.onMe fun k => k.setFromQ q l).setSreg d e.val
      | [] => t.settled
    cases t.me.fromQ q <;> rfl
  | slti d a imm =>
    show (t.setSreg d (if (s.sreg a).slt (imm.signExtend 64) then 1 else 0)).settled = _
    simp only [BitVec.slt_iff_toInt_lt]
    rfl
  | ldD | ldW | stD | stW | bz | bnz => cases hp
  | _ => rfl

end

/-! ### The pair (R238, R94) -/

theorem exec_pairOf {i : Instr} {p : Half × Half} (h : i.halves = some p) (s : State) : exec i s = .next (s.pair p.1 p.2 (wordOf i)) := by
  have hp : s.pairOf i = s.pair p.1 p.2 (wordOf i) := by rw [State.pairOf, h]
  rw [← hp]
  cases i <;> cases h <;> rfl

section
variable {s : State} {h0 h1 : Half}

theorem pairBlock_ready (h : Claims.pairReady s h0 h1) : s.me.pairBlock h0 h1 = none := by
  obtain ⟨-, -, -, -, -, hq⟩ := h
  have hnone : ∀ h ∈ [h0, h1], (match h with
      | .qpop _ q => if (s.me.fromQ q).length < halfPops h0 q + halfPops h1 q then some (Wait.queuePop q, q.toNat) else none
      | .qpush q _ =>
        if queueRoom < (s.me.toQ q).length + (halfPushes h0 q + halfPushes h1 q - s.me.skipOf q) then some (.queuePush q, 4 + q.toNat)
        else none
      | _ => none) = none := by
    intro h _
    cases h with
    | qpop d q => exact if_neg (by have := (hq q).1; omega)
    | qpush q a => exact if_neg (by obtain ⟨-, hs, hl⟩ := hq q; simp only [queueRoom]; omega)
    | _ => rfl
  exact List.findSome?_eq_none_iff.mpr hnone

theorem pairReady_still (h : Claims.pairReady s h0 h1) : s.me.still :=
  ⟨h.1, h.2.1, h.2.2.2.2.1, fun q => (h.2.2.2.2.2 q).2.1⟩

theorem pairReady_settled (h : Claims.pairReady s h0 h1) : s.settled = s := State.settled_eq h.2.2.1 h.2.2.2.1

theorem State.pair_plain (h : Claims.pairReady s h0 h1) (hp : Claims.plainHalf h1 = true) (word : Word) :
    s.pair h0 h1 word = (((s.doHalf h0 (s.sreg (halfD h0)) (s.sreg (halfA h0))).doHalf h1 (s.sreg (halfD h1)) (s.sreg (halfA h1))).next).drain := by
  unfold State.pair
  rw [pairBlock_ready h]
  cases h1 with
  | ldD | ldW | stD | stW | bz | bnz => cases hp
  | _ => rfl

/-- The first half of a ready pair, with what follows it, once the stream has settled. -/
theorem State.firstHalf_settled (h : Claims.pairReady s h0 h1) (hp : Claims.plainHalf h0 = true) :
    (s.doHalf h0 (s.sreg (halfD h0)) (s.sreg (halfA h0))).settled = Claims.halfAct s h0 s := by
  rw [State.doHalf_settled s (pairReady_still h) hp, pairReady_settled h]

end

/-- Settles O32: the record that a half keeps of its queue moves is forgotten when the stream drains, as nothing older is pending. -/
theorem pairsOfPlainHalves : Obligations.PairsOfPlainHalves := by
  intro i h0 h1 s hi hp0 hp1 hr
  have hstill := State.doHalf_still (h := h0) (x := s.sreg (halfD h0)) (y := s.sreg (halfA h0)) (pairReady_still hr)
  have hstill' := State.doHalf_still (h := h1) (x := s.sreg (halfD h1)) (y := s.sreg (halfA h1)) hstill
  rw [exec_pairOf hi, State.pair_plain hr hp1, State.drain_next_still hstill', ← State.firstHalf_settled hr hp0,
    ← State.doHalf_settled s hstill hp1]

/-! ### Halves that branch -/

/-- A trap that the strand takes leaves the vector stream with nothing to do. -/
theorem State.drain_raise {s : State} {st : Stop} (hp : s.me.pend = []) (he : s.me.early = []) (ho : s.me.pops = [])
    (hd : st.cause.delivery = .handler) : (s.raise st).drain = s.raise st := by
  rw [State.raise_of_pend_nil hp, State.takeStop_handler hd]
  split
  · exact State.drain_of_settled (by simp [Strand.stopped, hp]) (by simp [Strand.stopped]) (by simp [Strand.stopped, he])
      (by simp [Strand.stopped, ho])
  · exact State.drain_of_settled (by simp [State.park_me, Strand.stopped, hp]) (by simp [State.park_me, Strand.stopped])
      (by simp [State.park_me, Strand.stopped, he]) (by simp [State.park_me, Strand.stopped, ho])

section
variable {s : State} {h0 : Half} {a : SReg} {imm : BitVec 14} {z : Bool}

/-- A pair whose second half branches where a is zero, or where it is not. -/
theorem State.pair_branch (h : Claims.pairReady s h0 (if z then .bz a imm else .bnz a imm)) (word : Word) :
    s.pair h0 (if z then .bz a imm else .bnz a imm) word =
      (if (s.sreg a == 0) == z then s.transfer (target s.me.ch.pc imm) fun t =>
          (t.doHalf h0 (s.sreg (halfD h0)) (s.sreg (halfA h0))).jump (target s.me.ch.pc imm)
        else (s.doHalf h0 (s.sreg (halfD h0)) (s.sreg (halfA h0))).next).drain := by
  unfold State.pair
  rw [pairBlock_ready h]
  cases z with
  | true =>
    show (if s.sreg a == 0 then _ else _ : State).drain = _
    rw [beq_true]
  | false =>
    show (if s.sreg a != 0 then _ else _ : State).drain = _
    rw [beq_false]
    rfl

end

theorem pairBranches : Claims.PairBranches := by
  intro i h0 a imm s z h1 hi hp0 hr t w
  have hstill := State.doHalf_still (h := h0) (x := s.sreg (halfD h0)) (y := s.sreg (halfA h0)) (pairReady_still hr)
  have hw : (s.doHalf h0 (s.sreg (halfD h0)) (s.sreg (halfA h0))).settled = w := State.firstHalf_settled hr hp0
  have htest : ((s.sreg a == 0) == z) = true ↔ ((s.sreg a = 0) ↔ (z = true)) := by cases z <;> simp
  rw [exec_pairOf hi]
  dsimp only
  rw [State.pair_branch hr]
  refine ⟨fun hz => ?_, fun hz hc => ?_, fun hz hc => ?_⟩
  · rw [if_neg (mt htest.mp hz), State.drain_next_still hstill, hw]
  · rw [if_pos (htest.mpr hz), State.transfer_free (t := target s.me.ch.pc imm) hc, State.drain_jump_still hstill, hw]
    rfl
  · obtain ⟨hp, -, he, ho, -⟩ := hr
    rw [if_pos (htest.mpr hz), State.transfer_into_convoy (t := target s.me.ch.pc imm) hc]
    exact congrArg _ (State.drain_raise hp he ho rfl)

/-! ### Halves that access the share -/

/-- The register form of an operand: slot and offset of the pointer (R102). -/
theorem refPtr_share {a : Word} (h : a.extractLsb' 48 16 = 0xFE00) (disp : Int) : refPtr a disp = ⟨254, true, ((a.toNat % 2 ^ 48 : Nat) : Int) + disp⟩ := by
  have hslot : a.extractLsb' 56 8 = 254 := by
    rw [show a.extractLsb' 56 8 = (a.extractLsb' 48 16).extractLsb' 8 8 by ext; simp; grind, h]
    rfl
  have hzero : a.extractLsb' 48 8 = 0 := by
    rw [show a.extractLsb' 48 8 = (a.extractLsb' 48 16).extractLsb' 0 8 by ext; simp; grind, h]
    rfl
  simp [refPtr, refOf, hslot, hzero]

/-- A load of the share beside a plain half. -/
theorem State.loadWith_share {t : MemTy} {s : State} {h0 h1 : Half} {off : Int} (hr : Claims.pairReady s h0 h1)
    (hp0 : Claims.plainHalf h0 = true) (hw : s.me.dbgctl.getLsbD 2 = false) (hlo : 0 ≤ off)
    (hhi : off + memBytes t ≤ 1024 * s.me.strshare) (ha : off % memBytes t = 0) (d : SReg) (wide : Desc → List Byte → Word) :
    (s.loadWith d ⟨254, true, off⟩ (memBytes t) false 0 wide
      fun t => t.doHalf h0 (s.sreg (halfD h0)) (s.sreg (halfA h0))).drain =
    ((Claims.halfAct s h0 (s.chanterSees ⟨254, true, off⟩ (memBytes t) false)).setSreg d
      (wide shareDesc (cellsRead s.me.share off.toNat (memBytes t)))).next := by
  have hstill := pairReady_still hr
  obtain ⟨l, hl⟩ := s.chanterSees_eq ⟨254, true, off⟩ (memBytes t) false
  have hsees : (s.chanterSees ⟨254, true, off⟩ (memBytes t) false).me.still := by rw [hl]; exact hstill.congr rfl rfl rfl rfl
  have hset : (s.chanterSees ⟨254, true, off⟩ (memBytes t) false).settled = s.chanterSees ⟨254, true, off⟩ (memBytes t) false := by
    rw [hl]; exact State.settled_eq hr.2.2.1 hr.2.2.2.1
  have hhalf := State.doHalf_still (h := h0) (x := s.sreg (halfD h0)) (y := s.sreg (halfA h0)) hsees
  have hact := State.doHalf_settled s hsees hp0
  rw [hset] at hact
  unfold State.loadWith
  rw [State.loadWaits_of_pend_nil hr.1, if_neg (by simp), State.load_share hw hlo hhi ha false s.supWatch 0, ← hact]
  exact State.drain_next_still (hhalf.congr rfl rfl rfl rfl)

/-- A store into the share beside a plain half. -/
theorem State.holdWith_share {t : MemTy} {s : State} {h0 h1 : Half} {off : Int} (hr : Claims.pairReady s h0 h1)
    (hp0 : Claims.plainHalf h0 = true) (hw : s.me.dbgctl.getLsbD 2 = false) (hlo : 0 ≤ off)
    (hhi : off + memBytes t ≤ 1024 * s.me.strshare) (ha : off % memBytes t = 0) (v word : Word) :
    (s.holdWith (.store ⟨254, true, off⟩ (memBytes t) false v 0 2 false) word s.supWatch
      fun t => t.doHalf h0 (s.sreg (halfD h0)) (s.sreg (halfA h0))).drain =
    (Claims.halfAct s h0 ((s.onMe fun k => { k with share := cellsWrite k.share off.toNat (leBytes (memBytes t) v.toNat) }).chanterSees
      ⟨254, true, off⟩ (memBytes t) false)).next := by
  have hstill := pairReady_still hr
  let u := s.onMe fun k => { k with share := cellsWrite k.share off.toNat (leBytes (memBytes t) v.toNat) }
  obtain ⟨l, hl⟩ := u.chanterSees_eq ⟨254, true, off⟩ (memBytes t) false
  have hsees : (u.chanterSees ⟨254, true, off⟩ (memBytes t) false).me.still := by rw [hl]; exact hstill.congr rfl rfl rfl rfl
  have hset : (u.chanterSees ⟨254, true, off⟩ (memBytes t) false).settled = u.chanterSees ⟨254, true, off⟩ (memBytes t) false := by
    rw [hl]; exact State.settled_eq hr.2.2.1 hr.2.2.2.1
  have hhalf := State.doHalf_still (h := h0) (x := s.sreg (halfD h0)) (y := s.sreg (halfA h0)) hsees
  have hact := State.doHalf_settled s hsees hp0
  rw [hset] at hact
  have hheld : s.doHeld (.store ⟨254, true, off⟩ (memBytes t) false v 0 2 false) s.supWatch false =
      .ok (u.chanterSees ⟨254, true, off⟩ (memBytes t) false) () := by
    simp only [State.doHeld, State.doStore, Bool.false_eq_true, if_false, Ans.then, State.store_share hw hlo hhi ha]
    rfl
  unfold State.holdWith
  rw [if_pos (by simp [hr.1]), hheld, ← hact]
  exact State.drain_next_still hhalf

/-- A half that moves no queue blocks no pair that is ready without it. -/
theorem pairBlock_of_alone {s : State} {h0 h1 : Half} (hr : Claims.pairReady s h0 .nop)
    (h : ∀ q, halfPops h1 q = 0 ∧ halfPushes h1 q = 0) : s.me.pairBlock h0 h1 = none := by
  obtain ⟨hp, ht, he, ho, ha, hq⟩ := hr
  refine pairBlock_ready ⟨hp, ht, he, ho, ha, fun q => ?_⟩
  rw [(h q).1, (h q).2]
  exact hq q

theorem pairMemory : Claims.PairMemory := by
  intro i h0 d a imm s hp0 hr hw hslot at' sees bytes fits
  have href : refPtr (s.sreg a) imm.toInt = ⟨254, true, at'⟩ := refPtr_share hslot _
  refine ⟨fun hi ⟨hlo, hhi, ha⟩ => ?_, fun hi ⟨hlo, hhi, ha⟩ => ?_, fun hi ⟨hlo, hhi, ha⟩ => ?_, fun hi ⟨hlo, hhi, ha⟩ => ?_⟩ <;>
    refine (exec_pairOf hi s).trans (congrArg _ ?_) <;> unfold State.pair <;> rw [pairBlock_of_alone hr fun _ => ⟨rfl, rfl⟩] <;>
    dsimp only [sees, halfD, halfA] <;> rw [href]
  · exact State.loadWith_share (t := .i64) hr hp0 hw hlo hhi ha d _
  · exact State.loadWith_share (t := .i32) hr hp0 hw hlo hhi ha d _
  · exact State.holdWith_share (t := .i64) hr hp0 hw hlo hhi ha _ _
  · exact State.holdWith_share (t := .i32) hr hp0 hw hlo hhi ha _ _

/-- Settles O33: a half that branches or accesses memory stands in slot 1, and the plain half before it acts as it does in every pair. -/
theorem pairsWithAccesses : Obligations.PairsWithAccesses := ⟨pairBranches, pairMemory⟩

end Sys2Proof.Machine
end

section
/-! PROOFS. Dealer words, slot words and privilege (spec 08, R174; spec 13, R262, R282 to R284, R287 to R292): the statements O20, O21,
O24 and O25. -/

namespace Sys2Proof.Machine

/-! ### YIELD (R174, R282) -/

/-- Cutting the copies of the strand leaves it but for the records of the cuts, and the machine but for the transfers and their requests. -/
theorem State.cutCopies_eq (s : State) :
    s.cutCopies = { s with me := { s.me with copyRecs := s.cutCopies.me.copyRecs }, xfers := s.cutCopies.xfers, replay := s.cutCopies.replay } := by
  have hfold : ∀ (l : List Xfer) (t : State), ∃ c, l.foldl (fun (s : State) x => s.onMe fun k =>
      if h : x.chan < 4 then
        { k with copyRecs := k.copyRecs.set x.chan (some ⟨ceilDiv x.pos 8, BitVec.ofNat 5 x.regs.dst.toNat, x.id, x.regs⟩) h }
      else k) t = t.onMe fun k => { k with copyRecs := c } := by
    intro l
    induction l with
    | nil => exact fun t => ⟨t.me.copyRecs, rfl⟩
    | cons x l ih =>
      intro t
      rw [List.foldl_cons]
      obtain ⟨c, hc⟩ := ih (t.onMe fun k =>
        if h : x.chan < 4 then
          { k with copyRecs := k.copyRecs.set x.chan (some ⟨ceilDiv x.pos 8, BitVec.ofNat 5 x.regs.dst.toNat, x.id, x.regs⟩) h }
        else k)
      refine ⟨c, hc.trans ?_⟩
      simp only [State.onMe]
      split <;> rfl
  unfold State.cutCopies
  dsimp only
  obtain ⟨c, hc⟩ := hfold (s.xfers.filter fun (x : Xfer) => x.vd == s.me.vd && x.imgidx == s.me.imgidx && !x.orphan && x.regs.dreg &&
    x.err == .none && !x.cancel && decide (x.pos < x.regs.size)) s
  rw [hc]
  rfl

/-- A write-combining buffer that holds nothing has nothing to send out. -/
theorem State.drainWcb_mem_of_nil {s : State} {k : Nat} (h : (s.cu k).wcb = []) : (s.drainWcb k).mem = s.mem := by
  unfold State.drainWcb
  simp [h]

section
variable {s : State} (hp : s.me.pend = []) (hf : s.me.forming = []) (ha : s.me.amo = none)
include hp hf ha

/-- With nothing pending, forming or sent the rollback point is the word at PC (R88). -/
theorem State.rollbackForSquash_idle :
    s.rollbackForSquash = s.onMe fun k => { k with
      forming := [], trap := none, vwait := none, amo := none
      armed := s.rollbackForSquash.me.armed, wait := s.rollbackForSquash.me.wait, since := s.rollbackForSquash.me.since } := by
  have hsent : s.amoSent = false := by simp [State.amoSent, ha]
  unfold State.rollbackForSquash
  simp only [hp, List.dropWhile_nil, hsent, Bool.false_eq_true, if_false, State.onMe, hf, List.isEmpty_nil, if_true]

/-- What such a squash leaves as it stood: but for its requests and transfers the strand is muted without lanes, and its stores are gone. -/
theorem State.finishSquash_idle (hr : s.me.status = .running) :
    let t := s.finishSquash
    t.me.muted = true ∧ t.me.grant = 0 ∧ t.me.ch = s.me.ch ∧ t.me.v = s.me.v ∧ t.me.m = s.me.m ∧ t.me.t = s.me.t ∧
    t.me.stack = s.me.stack ∧ t.me.toVec = s.me.toVec ∧ t.me.fromVec = s.me.fromVec ∧ t.me.share = s.me.share ∧
    ((s.cu s.me.cu).wcb = [] → t.mem = s.mem) ∧ t.others = s.others := by
  have hsent : s.amoSent = false := by simp [State.amoSent, ha]
  have hroll := State.rollbackForSquash_idle hp hf ha
  generalize hu : s.rollbackForSquash = u at hroll
  have hcut := u.cutCopies_eq
  generalize hw : u.cutCopies = w at hcut
  have hdrain := (w.drainWcb_storesDone u.me.cu).eq
  have hmem : (w.cu u.me.cu).wcb = [] → (w.drainWcb u.me.cu).mem = w.mem := State.drainWcb_mem_of_nil
  generalize hx : w.drainWcb u.me.cu = x at hdrain hmem
  have hfin : s.finishSquash = ((((x.setCu x.me.cu { x.cu x.me.cu with
      divert := (x.cu x.me.cu).divert ++ s.divertEntries }).dropGone).releaseLanes).onMe fun k =>
      { k with muted := true, short := false, squashing := none, begun := none }) := by
    unfold State.finishSquash
    dsimp only
    rw [hsent, if_neg (by simp), if_pos hr, hu, hw, hx]
  rw [hfin]
  refine ⟨rfl, rfl, ?_⟩
  have hme : x.me.ch = s.me.ch ∧ x.me.v = s.me.v ∧ x.me.m = s.me.m ∧ x.me.t = s.me.t ∧ x.me.stack = s.me.stack ∧
      x.me.toVec = s.me.toVec ∧ x.me.fromVec = s.me.fromVec ∧ x.me.share = s.me.share := by
    rw [hdrain, hcut, hroll]
    exact ⟨rfl, rfl, rfl, rfl, rfl, rfl, rfl, rfl⟩
  obtain ⟨h1, h2, h3, h4, h5, h6, h7, h8⟩ := hme
  refine ⟨h1, h2, h3, h4, h5, h6, h7, h8, fun hb => ?_, ?_⟩
  · refine (hmem ?_).trans ?_
    · rw [hcut, hroll]; exact hb
    · rw [hcut, hroll]; rfl
  · show x.others = s.others
    rw [hdrain, hcut, hroll]
    rfl

end

/-- A strand no request of which is at a lender waits for nothing in its squash. -/
theorem State.inFlight_of_ports {s : State} (h : ∀ p ∈ s.ports, ∀ r ∈ p.2, s.me.asks r.who = false) : s.inFlight = false := by
  unfold State.inFlight
  rw [List.any_eq_false]
  intro p hp
  rw [Bool.not_eq_true, List.any_eq_false]
  intro r hr
  simp [h p hp r hr]

/-- Settles O20: with nothing pending the squash takes effect at once, as no request of the strand is on its way. -/
theorem yieldSquashes : Obligations.YieldSquashes := by
  intro s hp
  have hexec : exec .yield s = .next (if s.yields && s.maySquash then s.next.squash true else s.next) :=
    congrArg _ (State.heldWord_idle hp ..)
  refine ⟨fun hy => ?_, fun hy hm hr hf ha hports => ?_⟩
  · rw [hexec, hy]
    rfl
  · let b := s.next.onMe fun k => { k with squashing := some s.next.now }
    have hhead : b.headStarted = false := by
      show (match s.me.pend with
        | p :: _ => _
        | [] => false) = false
      rw [hp]
    have hsquash : exec .yield s = .next b.finishSquash := by
      rw [hexec, hy, hm, Bool.and_self, if_pos rfl, State.squash_eq]
      exact congrArg _ ((if_pos rfl).trans (State.squashTurn_idle hhead (State.inFlight_of_ports hports)))
    exact ⟨b.finishSquash, hsquash, State.finishSquash_idle (s := b) hp hf ha hr⟩

/-! ### Counters (R283, R284) -/

/-- A release where no merge part waits and no stack is critical: the buffered stores perform, the strip's older stores are released. -/
theorem State.release_cool_eq {s : State} (hp : s.partsWait = false) (hc : s.crit = []) {scope : Nat} (hs : scope ≠ 0) (vec : Bool) :
    s.release scope vec = .ok ((s.drainWcb s.me.cu).onMe fun k => { k with older := k.older.map fun o => { o with rel := true } }) () := by
  obtain ⟨u, hu, -⟩ := State.release_of_cool hp hc scope vec
  unfold State.release at hu ⊢
  rw [if_neg (by simp [hp])] at hu ⊢
  dsimp only at hu ⊢
  rw [if_neg hs, if_neg hs] at hu ⊢
  split at hu
  · cases hu
  · rfl

/-- Holding launches changes launches only. -/
theorem State.holding_add (s : State) (hold : Bool) (i : Nat) (n : BitVec 32) (can : Bool) :
    let t := s.holding hold fun s => s.addCounter i n can
    t = { s with counters := Assoc.put Counter.zero i ⟨(s.counter i).val + n, (s.counter i).can || can⟩ s.counters, launches := t.launches } := by
  unfold State.holding
  dsimp only
  split <;> rfl

theorem cntincAdds : Claims.CntincAdds := by
  intro a imm s i hp hi hparts hcrit hwf
  have hrel := State.release_cool_eq hparts hcrit (scope := 2) (by decide) false
  have hdone := (s.drainWcb_storesDone s.me.cu).eq
  generalize hr : s.drainWcb s.me.cu = r at hrel hdone
  let u := r.onMe fun k => { k with older := k.older.map fun o => { o with rel := true } }
  let n := u.me.cntbase.toNat + ((s.sreg a).extractLsb' 0 16).toNat
  have hadd := u.holding_add (u.me.dbgctl.getLsbD 4) n imm false
  generalize ht : (u.holding (u.me.dbgctl.getLsbD 4) fun s => s.addCounter n imm false) = t at hadd
  have hheld : s.doHeld (.cntinc ((s.sreg a).extractLsb' 0 16) imm) false false = .ok t () := by
    show (s.release 2 false).then _ = _
    rw [hrel, ← ht]
    rfl
  have hexec : exec (.cntinc a imm) s = .next t.next :=
    congrArg _ ((if_neg (by omega)).trans (State.hold_done hp hheld _))
  have hu : n = s.me.cntbase.toNat + ((s.sreg a).extractLsb' 0 16).toNat ∧ u.counters = s.counters ∧ u.me.ch = s.me.ch ∧
      u.me.file = s.me.file ∧ u.me.share = s.me.share ∧ u.others = s.others := by
    show r.me.cntbase.toNat + _ = _ ∧ r.counters = _ ∧ r.me.ch = _ ∧ r.me.file = _ ∧ r.me.share = _ ∧ r.others = _
    rw [hdone]
    exact ⟨rfl, rfl, rfl, rfl, rfl, rfl⟩
  obtain ⟨hn, hcounters, hch, hfile, hshare, hothers⟩ := hu
  have hwf' : Assoc.wf Counter.zero u.counters = true := by rw [hcounters]; exact hwf
  have hsame : ∀ j, u.counter j = s.counter j := fun j => by rw [State.counter, hcounters]; rfl
  have hval : t.counter n = ⟨(s.counter n).val + imm, (s.counter n).can⟩ := by
    have hput : t.counter n = Assoc.get Counter.zero n (Assoc.put Counter.zero n ⟨(u.counter n).val + imm, (u.counter n).can || false⟩
        u.counters) := by
      rw [hadd]
      rfl
    rw [hput, Assoc.get_put_self Counter.zero _ n hwf', Bool.or_false, hsame]
  have hother : ∀ j, j ≠ n → t.counter j = s.counter j := by
    intro j hj
    rw [hadd, ← hsame]
    exact Assoc.get_put_other Counter.zero _ hj hwf'
  rw [hn] at hval hother
  refine ⟨t.next, hexec, ?_, ?_, ?_, ?_, ?_, ?_, ?_, hother⟩
  · rw [hadd]
    exact congrArg (fun c : Chanter => c.fallTo (c.pc + 8)) hch
  · rw [hadd]; exact hfile
  · rw [hadd]; exact hshare
  · rw [hadd]; rfl
  · rw [hadd]; exact hothers
  · exact congrArg Counter.val hval
  · exact (congrArg Counter.can hval :)

theorem counterRange : Claims.CounterRange :=
  fun _ _ _ _ _ h => ⟨congrArg _ (if_pos h), congrArg _ (if_pos h)⟩

/-- Settles O21: CNTINC is a release, then the increment; the range is checked before either word waits. -/
theorem counterWords : Obligations.CounterWords := ⟨cntincAdds, counterRange⟩

/-! ### Slot words (R287 to R289) -/

theorem sptr_eq (k : BitVec 8) (x : Word) : k ++ 0#8 ++ x.extractLsb' 0 48 = BitVec.ofNat 64 (k.toNat * 2 ^ 56 + x.toNat % 2 ^ 48) := by
  apply BitVec.eq_of_toNat_eq
  have hlow : x.toNat % 2 ^ 48 < 2 ^ 48 := Nat.mod_lt _ (by norm_num)
  have hk := k.isLt
  have hfit : k.toNat * 2 ^ 56 + x.toNat % 2 ^ 48 < 2 ^ 64 := by omega
  have hhigh : (k ++ 0#8).toNat = k.toNat * 2 ^ 8 := by
    rw [BitVec.toNat_append, ← Nat.shiftLeft_add_eq_or_of_lt (by decide), Nat.shiftLeft_eq]
    simp
  rw [BitVec.toNat_append, hhigh, BitVec.extractLsb'_toNat, Nat.shiftRight_zero, ← Nat.shiftLeft_add_eq_or_of_lt hlow, Nat.shiftLeft_eq,
    BitVec.toNat_ofNat, Nat.mod_eq_of_lt hfit, mul_assoc, ← pow_add]

/-- Settles O24: the four words, the windows before the other slots, as the model reads them. -/
theorem slotWords : Obligations.SlotWords := by
  refine ⟨fun d a k s => ?_, fun d s => ⟨rfl, rfl⟩, fun d k s h254 h253 hw hbad => ?_, fun k s hp => ?_⟩
  · rw [← sptr_eq]
    rfl
  · change execSlotq d k s = _
    unfold execSlotq
    rw [if_neg h254, if_neg h253, hw]
    dsimp only
    rw [if_neg (by simp [hbad])]
  · exact congrArg _ (State.whenIdle_idle hp _)

/-! ### Privileged words (R262, R290 to R292) -/

theorem State.privileged_runs {s : State} (hv : s.me.priv = true) (hp : s.me.pend = []) (word : Word) (f : State → State) :
    s.privileged word f = f s := (if_pos hv).trans (State.whenIdle_idle hp f)

theorem privilegedWords : Claims.PrivilegedWords := by
  intro i s hi hv
  have htrap : ∀ (word : Word) f, s.privileged word f = s.raise (stopAt s.me.ch.pc .priv word) := fun _ _ => if_neg (by simp [hv])
  cases i with
  | slotset a b => exact congrArg _ (htrap ..)
  | slotinv a b => exact congrArg _ (htrap ..)
  | incfence a => exact congrArg _ (htrap ..)
  | _ => cases hi

theorem slotControl : Claims.SlotControl := by
  intro a b s hv hp c slot valid names first last
  have hset : exec (.slotset a b) s = .next (if s.homeNat (s.ctxRec c) 1 % 2 = 1 && slot ≤ 251 then
      s.afterRelease 2 fun s => (s.setSlotState c slot ((s.sreg b).extractLsb' 0 3)).next else s.next) :=
    congrArg _ (State.privileged_runs hv hp ..)
  have hinv : exec (.slotinv a b) s = .next (if last < first then s.next else
      if (s.flushContexts names).usesVersion names then (s.flushContexts names).await .slotinv
      else ((s.flushContexts names).invalidate names first last).next) :=
    congrArg _ (State.privileged_runs hv hp ..)
  have hfence : exec (.incfence a) s = .next (if s.outstandingOld (field (s.sreg a).toNat 0 13) = 0 then s.next else s.await .incfence) :=
    congrArg _ (State.privileged_runs hv hp ..)
  have hvalid : (decide (s.homeNat (s.ctxRec c) 1 % 2 = 1) && decide (slot ≤ 251)) = true ↔ valid := by simp [valid]
  refine ⟨fun hparts hcrit hval => ?_, fun hval => ?_, fun hlt => ?_, fun hle huses => ?_, fun hold => ?_⟩
  · obtain ⟨u, hu, hdone⟩ := State.release_of_cool hparts hcrit 2 false
    refine ⟨u, hu, ?_⟩
    have hsreg : u.sreg b = s.sreg b := by rw [State.sreg, hdone.eq]; rfl
    rw [hset, if_pos (hvalid.mpr hval), State.afterRelease, hu]
    dsimp only
    rw [hsreg]
  · rw [hset, if_neg (mt hvalid.mp hval)]
  · rw [hinv, if_pos hlt]
  · rw [hinv, if_neg (by omega), if_neg (by simp [huses])]
  · rw [hfence, if_pos hold]

/-- Settles O25: the privilege is checked first, then each word acts at once, as nothing older is pending. -/
theorem privilegedSlotWords : Obligations.PrivilegedSlotWords := ⟨privilegedWords, slotControl⟩

end Sys2Proof.Machine
end

section
/-! PROOFS. Scalar memory and synchronisation words, copy launches (spec 15, R321, R322, R329 to R332; spec 16, R348, R349, R353): the
statements O26, O28, O30 and O31. -/

namespace Sys2Proof.Machine

/-! ### Loads and stores whose access answers (R321, R322, R329) -/

section
variable {s : State}

theorem State.scalarLoad_answers {u : State} {r : Ref} {n : Nat} {fmt : Bool} {ch : BitVec 2} {b : List Byte} {ds : Desc}
    (hw : s.loadWaits r n fmt = false) (hl : s.load r n fmt false s.supWatch ch = .ok u (b, ds)) (d : SReg)
    (wide : Desc → List Byte → Word) :
    s.scalarLoad d r n fmt ch wide = ((u.chanterSees r n fmt).setSreg d (wide ds b)).next := by
  unfold State.scalarLoad State.loadWith
  rw [hw, if_neg (by simp), hl]

end

/-- Settles O26: a load that waits for nothing and is answered writes d and goes on; LDACQ acquires before its own load (log entry 49). -/
theorem scalarLoads : Obligations.ScalarLoads := by
  intro d m s s' b ds
  refine ⟨fun ch x => ?_, fun t off => ?_⟩
  · rcases hsize : ldSize x with ⟨n, disp, fmt⟩
    intro hw hl
    have hexec : exec (.ld d m ch x) s =
        .next (s.scalarLoad d (refOf m.sl (s.sreg m.a) disp) n fmt ch (ldValue x (refOf m.sl (s.sreg m.a) disp))) := by
      show execLd d m ch x s = _
      unfold execLd
      rw [hsize]
    rw [hexec, State.scalarLoad_answers hw hl]
  · intro r hw hw' hl
    exact congrArg _ ((if_neg (Bool.eq_false_iff.mp hw)).trans (State.scalarLoad_answers hw' hl d _))

/-- Settles O28: each is a held operation, which completes at once. -/
theorem scalarStores : Obligations.ScalarStores := by
  intro d m s u hp
  have held : ∀ (h : Held) (word : Word), s.doHeld h s.supWatch false = .ok u () → s.hold h word s.supWatch = u.next :=
    fun _ word hd => State.hold_done hp hd word
  refine ⟨fun ch x => ?_, fun t off hd => congrArg _ (held (.store ..) _ hd), fun off hd => congrArg _ (held (.zline ..) _ hd)⟩
  rcases hsize : stSize x with ⟨n, disp, fmt⟩
  intro hd
  have hexec : exec (.st d m ch x) s =
      .next (s.hold (.store (refOf m.sl (s.sreg m.a) disp) n fmt (s.sreg d) ch m.sc false) (wordOf (.st d m ch x)) s.supWatch) := by
    show execSt d m ch x s = _
    unfold execSt
    rw [hsize]
  rw [hexec, held (.store ..) _ hd]

/-! ### PREF (R330) -/

/-- A prefetch fills no register: it reads a descriptor and marks a line. -/
theorem State.prefetch_translated (s : State) (r : Ref) (ch : BitVec 2) : s.translated (s.prefetch r ch) := by
  unfold State.prefetch
  split
  · exact .refl s
  · dsimp only
    split
    · exact (s.desc_translated _).trans (.of_caches (State.touchL2_caches ..))
    · exact s.desc_translated _

/-! ### FENCE (R331) -/

section
variable {s : State}

theorem exec_fence_idle (hp : s.me.pend = []) (hx : s.anyXfer = false) (k : FenceKind) (sc : BitVec 2) :
    exec (.fence k sc) s = .next (if FenceKind.coversStores k then s.afterRelease sc.toNat fun s => (s.fenced k).next
      else (s.fenced k).next) := by
  have hfence : exec (.fence k sc) s = .next (s.fence k sc) := congrArg _ (State.heldWord_idle hp ..)
  rw [hfence, State.fence, if_neg (by simp [hx])]

theorem State.fenced_eq (s : State) (k : FenceKind) :
    s.fenced k = (if k = .loads ∨ k = .all then s.acquire else s).onMe fun m => { m with older := FenceKind.fixes k m.older } := by
  cases k <;> rfl

end

/-- Settles O30: none of the four finds anything to wait for. -/
theorem syncWords : Obligations.SyncWords := by
  refine ⟨fun m ch off s => ?_, fun k sc s hp hx hparts hcrit => ⟨fun hk => ?_, fun hk => ?_⟩, ?_, ?_⟩
  · have htr := s.prefetch_translated (refOf m.sl (s.sreg m.a) off.toInt) ch
    refine ⟨_, rfl, ?_, ?_, ?_, htr.mem⟩
    · exact (congrArg (fun k : Strand => k.ch.fallTo (k.ch.pc + 8)) htr.me :)
    · exact (congrArg Strand.v htr.me :)
    · exact (congrArg Strand.share htr.me :)
  · obtain ⟨u, hu, -⟩ := State.release_of_cool hparts hcrit sc.toNat false
    have hcov : FenceKind.coversStores k = true := by rcases hk with rfl | rfl <;> rfl
    refine ⟨u, hu, ?_⟩
    rw [exec_fence_idle hp hx, if_pos hcov, State.afterRelease, hu]
    dsimp only
    rw [State.fenced_eq]
  · have hcov : ¬ FenceKind.coversStores k = true := by rcases hk with rfl | rfl <;> decide
    rw [exec_fence_idle hp hx, if_neg hcov, State.fenced_eq]
  · intro t d m off b s u y l hp hc hw hread hne
    have hwoken : s.me.wokenHere = none := by simp [Strand.wokenHere, hw]
    refine congrArg _ ((State.unlessCancelled_live hc _).trans ((State.heldWord_idle hp ..).trans ?_))
    unfold State.waita
    rw [hwoken, hread]
    dsimp only
    rw [if_pos hne]
  · intro d a s hp hc hw hout
    have hwoken : s.me.wokenHere = none := by simp [Strand.wokenHere, hw]
    refine congrArg _ ((State.unlessCancelled_live hc _).trans ((State.heldWord_idle hp ..).trans ?_))
    unfold State.cpwait
    rw [hwoken, hout]
    rfl

/-! ### Copy launches (R349) -/

/-- Mask bits of a strand are the m registers of strands, or bytes of an image: no transfer and no chanter's register changes. -/
theorem State.setMaskBits_frame (s : State) (k : Strand) (m : MReg) (l : List Nat) (b : Bool) :
    (s.setMaskBits k m l b).xfers = s.xfers ∧ (s.setMaskBits k m l b).me.ch = s.me.ch := by
  unfold State.setMaskBits
  split
  · dsimp only
    generalize s.imgAddr k.vd k.imgidx + 0x20C00 + 0x80 * (m.toNat - 1) = a
    induction l generalizing s with
    | nil => exact ⟨rfl, rfl⟩
    | cons e l ih =>
      rw [List.foldl_cons]
      exact ih _
  · refine ⟨rfl, ?_⟩
    show (if s.me.is k.vd k.imgidx then _ else s.me : Strand).ch = s.me.ch
    split <;> rfl

/-- The transfer that a channel of a strand describes starts with the strand's next id. -/
def State.launchedXfer (s : State) (c : BitVec 2) : Xfer :=
  let k := s.me
  { key := s.order, vd := k.vd, launch := k.launch, ctx := k.ctx, incn := k.incn, imgidx := k.imgidx, cu := k.cu, slot := k.slot,
    chan := c.toNat, id := k.ch.cpnext, regs := k.ch.channel c, pos := 0, chunks := 0, cancel := false, err := .none, info := 0, cut := false,
    tainted := [], before := [], orphan := false, slottb := k.slottb, strshare := k.strshare, cushare := k.cushare,
    cuidx := k.cuidx }

theorem State.launchCopy_frame (s : State) (d : SReg) (c : BitVec 2) :
    (s.launchCopy d c).xfers = s.xfers ++ [s.launchedXfer c] ∧
    (s.launchCopy d c).me.ch =
      (let ch := ({ s.me.ch with cpnext := nextId s.me.ch.cpnext } : Chanter).setSreg d
        (BitVec.ofNat 64 (c.toNat * 2 ^ 16 + s.me.ch.cpnext.toNat))
       ch.fallTo (ch.pc + 8)) := by
  unfold State.launchCopy
  dsimp only
  split
  · exact ⟨rfl, rfl⟩
  · obtain ⟨hx, hch⟩ := s.setMaskBits_frame s.me (s.me.ch.channel c).cmask
      ((List.range 1024).filter fun e => decide (e * (s.me.ch.channel c).wb < (s.me.ch.channel c).size)) false
    refine ⟨congrArg (· ++ [_]) hx, ?_⟩
    exact congrArg (fun m : Chanter =>
      let ch := ({ m with cpnext := nextId s.me.ch.cpnext } : Chanter).setSreg d
        (BitVec.ofNat 64 (c.toNat * 2 ^ 16 + s.me.ch.cpnext.toNat))
      ch.fallTo (ch.pc + 8)) hch

theorem Chanter.sreg_fallTo (c : Chanter) (e : Word) (r : SReg) : (c.fallTo e).sreg r = c.sreg r := by
  rw [c.fallTo_onlyLoops e]
  rfl

theorem Chanter.cpnext_setSreg (c : Chanter) (r : SReg) (x : Word) : (c.setSreg r x).cpnext = c.cpnext := by
  unfold Chanter.setSreg
  split <;> rfl

theorem Chanter.cpnext_fallTo (c : Chanter) (e : Word) : (c.fallTo e).cpnext = c.cpnext := by
  rw [c.fallTo_onlyLoops e]

/-- Without a watch no write of a transfer is watched (R209). -/
theorem State.copyWatched_of_off {s : State} (h : s.me.dbgctl.getLsbD 2 = false) (c : Channel) : s.copyWatched c = none := by
  unfold State.copyWatched
  simp [State.watched_of_off h]

/-- Settles O31: with a free place the launch is judged, then released and started. -/
theorem copyLaunches : Obligations.CopyLaunches := by
  intro d c s hp hout hparts
  have hexec : exec (.copyLaunch d c) s = .next (
      if s.badLaunch c then s.trapHere .resfield (wordOf (.copyLaunch d c))
      else match s.copyWatched (s.me.ch.channel c) with
        | some h => if s.supWatch then s.afterRelease 1 fun s => s.launchCopy d c else s.faultHere h
        | none => s.afterRelease 1 fun s => s.launchCopy d c) := by
    refine congrArg _ ((State.heldWord_idle hp ..).trans ?_)
    exact if_neg (Nat.not_le.mpr hout)
  refine ⟨fun hgood hd hw hcrit => ?_, fun hbad => ?_⟩
  · obtain ⟨u, hu, hdone⟩ := State.release_of_cool hparts hcrit 1 false
    obtain ⟨hxfers, hch⟩ := u.launchCopy_frame d c
    have hme : u.me.ch = s.me.ch ∧ u.me.vd = s.me.vd ∧ u.me.imgidx = s.me.imgidx ∧ u.xfers = s.xfers := by
      rw [hdone.eq]
      exact ⟨rfl, rfl, rfl, rfl⟩
    obtain ⟨hsame, hvd, himg, hlist⟩ := hme
    refine ⟨u.launchCopy d c, u.launchedXfer c, ?_, hxfers.trans (congrArg (· ++ [_]) hlist), congrArg Chanter.cpnext hsame, rfl,
      congrArg (Chanter.channel · c) hsame, hvd, himg, rfl, ?_, ?_⟩
    · rw [hexec, if_neg (by simp [hgood]), State.copyWatched_of_off hw]
      dsimp only
      rw [State.afterRelease, hu]
    · rw [State.sreg, hch, hsame]
      exact (Chanter.sreg_fallTo ..).trans (Chanter.sreg_setSreg_same _ _ hd)
    · rw [hch, hsame]
      exact (Chanter.cpnext_fallTo ..).trans (Chanter.cpnext_setSreg ..)
  · rw [hexec, if_pos hbad]
    rfl

end Sys2Proof.Machine
end

section
/-! PROOFS. The lengths that SETVL and MSETVL grant (spec 14, R299, R300): the statement O42. -/

namespace Sys2Proof.Machine

/-- Refutes O42: with 17 entries in result queue 0 the convoy of a lone MSETVL waits for room (R87, R94), where the statement has
MSETVL complete with nothing pending. The premise of O43 that no result queue holds more than 16 entries is missing. -/
theorem not_lengthsGranted : ¬ Obligations.LengthsGranted := by
  rintro ⟨-, hmsetvl⟩
  have hexec := hmsetvl .w16 0 0 State.reset.overfull lone_overfull_reset
  have hwaits :
      (after (exec (.msetvl .w16 0 0) State.reset.overfull) State.reset).me.pend ≠ [] := by decide +kernel
  rw [hexec] at hwaits
  exact hwaits lone_overfull_reset.1

end Sys2Proof.Machine
end

section
/-! SUPPORT. What the operations of memory, of the caches and of the merges leave: memory in canonical form, and the strands that
have no turn. -/

namespace Sys2Proof.Machine

theorem foldl_keeps {α β : Type} {g : State → β} {f : State → α → State} (hf : ∀ s x, g (f s x) = g s) (l : List α) (s : State) :
    g (l.foldl f s) = g s := by
  induction l generalizing s with
  | nil => rfl
  | cons x l ih => rw [List.foldl_cons, ih, hf]

theorem foldl_memOk {α : Type} {f : State → α → State} (hf : ∀ {s} x, s.memOk → (f s x).memOk) (l : List α) {s : State} (h : s.memOk) :
    (l.foldl f s).memOk := by
  induction l generalizing s with
  | nil => exact h
  | cons x l ih => exact ih (hf x h)

theorem State.memOk_ite {c : Prop} [Decidable c] {s t : State} (hs : s.memOk) (ht : t.memOk) : (if c then s else t).memOk := by
  split <;> assumption

@[simp] theorem State.countReg_mem (s : State) (a w : Nat) : (s.countReg a w).mem = s.mem := by
  unfold State.countReg; split <;> simp

@[simp] theorem State.countReg_others (s : State) (a w : Nat) : (s.countReg a w).others = s.others := by
  unfold State.countReg; split <;> simp

@[simp] theorem State.charge_mem (s : State) (a : Arbiter) (v n : Nat) : (s.charge a v n).mem = s.mem := by
  unfold State.charge; dsimp only; (repeat' split) <;> simp

@[simp] theorem State.charge_others (s : State) (a : Arbiter) (v n : Nat) : (s.charge a v n).others = s.others := by
  unfold State.charge; dsimp only; (repeat' split) <;> simp

@[simp] theorem State.forward_mem (s : State) (a : Nat) (op : MemOp) : (s.forward a op).mem = s.mem := by
  unfold State.forward; split <;> simp

@[simp] theorem State.hostPut_mem (s : State) (a n : Nat) : (s.hostPut a n).mem = s.mem := by
  unfold State.hostPut; split
  · rfl
  · exact foldl_keeps (fun _ _ => State.forward_mem ..) _ _

@[simp] theorem State.hostGet_mem (s : State) (a n : Nat) : (s.hostGet a n).mem = s.mem := by
  unfold State.hostGet; split
  · rfl
  · exact foldl_keeps (fun _ _ => State.forward_mem ..) _ _

theorem State.setHomeBytes_others : ∀ (l : List Byte) (s : State) (a : Nat), (s.setHomeBytes a l).others = s.others
  | [], _, _ => rfl
  | _ :: l, _, _ => State.setHomeBytes_others l _ _

@[simp] theorem State.countPch_mem (s : State) (m line : Nat) (wr : Bool) : (s.countPch m line wr).mem = s.mem := by
  unfold State.countPch; dsimp only; (repeat' split) <;> simp

@[simp] theorem State.countPch_others (s : State) (m line : Nat) (wr : Bool) : (s.countPch m line wr).others = s.others := by
  unfold State.countPch; dsimp only; (repeat' split) <;> simp

@[simp] theorem State.setPoison_mem (s : State) (line : Nat) (b : Bool) : (s.setPoison line b).mem = s.mem := by
  unfold State.setPoison; split <;> simp

@[simp] theorem State.setPoison_others (s : State) (line : Nat) (b : Bool) : (s.setPoison line b).others = s.others := by
  unfold State.setPoison; split <;> simp

@[simp] theorem State.evict_mem (s : State) (t : L2Tag) : (s.evict t).mem = s.mem := by
  unfold State.evict; split <;> simp

@[simp] theorem State.evict_others (s : State) (t : L2Tag) : (s.evict t).others = s.others := by
  unfold State.evict; split <;> simp

@[simp] theorem State.takeWay_mem (s : State) (line : Nat) (ways : List Nat) : (s.takeWay line ways).1.mem = s.mem := by
  unfold State.takeWay; dsimp only; (repeat' split) <;> simp

@[simp] theorem State.takeWay_others (s : State) (line : Nat) (ways : List Nat) : (s.takeWay line ways).1.others = s.others := by
  unfold State.takeWay; dsimp only; (repeat' split) <;> simp

@[simp] theorem State.pushTag_mem (s : State) (t : L2Tag) (cp : Nat) : (s.pushTag t cp).mem = s.mem := rfl

@[simp] theorem State.pushTag_others (s : State) (t : L2Tag) (cp : Nat) : (s.pushTag t cp).others = s.others := rfl

@[simp] theorem State.touchL2_mem (s : State) (m line : Nat) (wr : Bool) (cp : Nat) : (s.touchL2 m line wr cp).mem = s.mem := by
  unfold State.touchL2; dsimp only; (repeat' split) <;> simp

@[simp] theorem State.touchL2_others (s : State) (m line : Nat) (wr : Bool) (cp : Nat) : (s.touchL2 m line wr cp).others = s.others := by
  unfold State.touchL2; dsimp only; (repeat' split) <;> simp

@[simp] theorem State.fixZero_mem (s : State) (m line : Nat) : (s.fixZero m line).mem = s.mem := by
  unfold State.fixZero; dsimp only; (repeat' split) <;> simp

@[simp] theorem State.fixZero_others (s : State) (m line : Nat) : (s.fixZero m line).others = s.others := by
  unfold State.fixZero; dsimp only; (repeat' split) <;> simp

@[simp] theorem State.homeWrite_others (s : State) (m a : Nat) (bytes : List Byte) (cp : Nat) : (s.homeWrite m a bytes cp).others = s.others := by
  unfold State.homeWrite
  dsimp only
  split <;> simp [State.setHomeBytes_others]

@[simp] theorem State.homeRead_mem (s : State) (m a n cp : Nat) : (s.homeRead m a n cp).1.mem = s.mem := by
  unfold State.homeRead; split <;> simp

@[simp] theorem State.homeRead_others (s : State) (m a n cp : Nat) : (s.homeRead m a n cp).1.others = s.others := by
  unfold State.homeRead; split <;> simp

@[simp] theorem State.zeroLine_memOk {s : State} (h : s.memOk) (m line : Nat) : (s.zeroLine m line).memOk := by
  have zeroed : ((s.charge (.slice (homeSlice line)) m 1).setHomeBytes (128 * line) (List.replicate 128 0)).memOk :=
    State.setHomeBytes_memOk _ (by simp [State.memOk, h]) _
  unfold State.zeroLine
  dsimp only
  generalize (s.charge (.slice (homeSlice line)) m 1).setHomeBytes (128 * line) (List.replicate 128 0) = t at zeroed ⊢
  split
  · exact zeroed
  · split
    · simp [State.memOk, zeroed]
    · split <;> simp [State.memOk, zeroed]

@[simp] theorem State.writeBack_memOk {s : State} (h : s.memOk) (l : WLine) : (s.writeBack l).memOk := by
  unfold State.writeBack
  split
  · simp [State.memOk, h]
  · have touched : (s.touchL2 l.vd l.line true l.cp).memOk := by simp [State.memOk, h]
    have written := foldl_memOk (f := fun s (c : Nat × Byte) => s.setHomeByte c.1 c.2) (fun c h => State.setHomeByte_memOk h c.1 c.2) l.cells touched
    exact State.memOk_of_mem written (State.fixZero_mem ..)

@[simp] theorem State.writeBack_others (s : State) (l : WLine) : (s.writeBack l).others = s.others := by
  unfold State.writeBack
  split
  · simp
  · rw [State.fixZero_others]
    exact (foldl_keeps (f := fun s (c : Nat × Byte) => s.setHomeByte c.1 c.2) (fun _ _ => rfl) _ _).trans (State.touchL2_others ..)

@[simp] theorem State.drainWcb_memOk {s : State} (h : s.memOk) (k : Nat) : (s.drainWcb k).memOk :=
  foldl_memOk (fun l h => State.writeBack_memOk h l) _ h

@[simp] theorem State.drainWcb_others (s : State) (k : Nat) : (s.drainWcb k).others = s.others :=
  foldl_keeps State.writeBack_others _ _

@[simp] theorem State.fillL1_mem (s : State) (k slot line : Nat) : (s.fillL1 k slot line).mem = s.mem := by
  unfold State.fillL1; dsimp only; (repeat' split) <;> simp

@[simp] theorem State.fillL1_others (s : State) (k slot line : Nat) : (s.fillL1 k slot line).others = s.others := by
  unfold State.fillL1; dsimp only; (repeat' split) <;> simp

@[simp] theorem State.cuRead_mem (s : State) (m k slot a n cp : Nat) (sync once : Bool) :
    (s.cuRead m k slot a n cp sync once).1.mem = s.mem := by
  unfold State.cuRead; dsimp only; (repeat' split) <;> simp

@[simp] theorem State.cuRead_others (s : State) (m k slot a n cp : Nat) (sync once : Bool) :
    (s.cuRead m k slot a n cp sync once).1.others = s.others := by
  unfold State.cuRead; dsimp only; (repeat' split) <;> simp

@[simp] theorem State.cuWrite_memOk {s : State} (h : s.memOk) (m ctx incn k a cp : Nat) (bytes : List Byte) :
    (s.cuWrite m ctx incn k a cp bytes).memOk := by
  unfold State.cuWrite; dsimp only; (repeat' split) <;> simp [State.memOk, h]

@[simp] theorem State.cuWrite_others (s : State) (m ctx incn k a cp : Nat) (bytes : List Byte) :
    (s.cuWrite m ctx incn k a cp bytes).others = s.others := by
  unfold State.cuWrite; dsimp only; (repeat' split) <;> simp

theorem State.enterWcb_memOk {x : State × List WLine} (h : x.1.memOk) (l : WLine) : (State.enterWcb x l).1.memOk := by
  unfold State.enterWcb; dsimp only; (repeat' split) <;> simp_all [State.memOk]

theorem State.enterWcb_others (x : State × List WLine) (l : WLine) : (State.enterWcb x l).1.others = x.1.others := by
  unfold State.enterWcb; dsimp only; (repeat' split) <;> simp_all

@[simp] theorem State.settleWcb_memOk {s : State} (h : s.memOk) (k : Nat) : (s.settleWcb k).memOk := by
  have entered : ∀ (l : List WLine) (x : State × List WLine), x.1.memOk → (l.foldl State.enterWcb x).1.memOk := by
    intro l
    induction l with
    | nil => exact fun _ h => h
    | cons w l ih => exact fun x h => ih _ (State.enterWcb_memOk h w)
  exact entered _ _ h

@[simp] theorem State.settleWcb_others (s : State) (k : Nat) : (s.settleWcb k).others = s.others := by
  have entered : ∀ (l : List WLine) (x : State × List WLine), (l.foldl State.enterWcb x).1.others = x.1.others := by
    intro l
    induction l with
    | nil => exact fun _ => rfl
    | cons w l ih => exact fun x => (ih _).trans (State.enterWcb_others x w)
  exact entered _ _

@[simp] theorem State.flushLine_memOk {s : State} (h : s.memOk) (k line : Nat) : (s.flushLine k line).memOk := by
  unfold State.flushLine; dsimp only; split <;> simp [State.memOk, h]

@[simp] theorem State.flushLine_others (s : State) (k line : Nat) : (s.flushLine k line).others = s.others := by
  unfold State.flushLine; dsimp only; split <;> simp

@[simp] theorem State.patchL1_mem (s : State) (k a : Nat) (bytes : List Byte) : (s.patchL1 k a bytes).mem = s.mem := rfl

@[simp] theorem State.patchL1_others (s : State) (k a : Nat) (bytes : List Byte) : (s.patchL1 k a bytes).others = s.others := rfl

@[simp] theorem State.desc_mem (s : State) (slot : Nat) : (s.desc slot).1.mem = s.mem := by
  unfold State.desc; split <;> simp

@[simp] theorem State.desc_others (s : State) (slot : Nat) : (s.desc slot).1.others = s.others := by
  unfold State.desc; split <;> simp

@[simp] theorem State.descFor_mem (s : State) (slot : Nat) : (s.descFor slot).1.mem = s.mem := by
  unfold State.descFor; split <;> simp

@[simp] theorem State.descFor_others (s : State) (slot : Nat) : (s.descFor slot).1.others = s.others := by
  unfold State.descFor; split <;> simp

@[simp] theorem State.enqueue_mem (s : State) (w : Waiting) : (s.enqueue w).mem = s.mem := by
  unfold State.enqueue; split <;> simp

@[simp] theorem State.enqueue_others (s : State) (w : Waiting) : (s.enqueue w).others = s.others := by
  unfold State.enqueue; split <;> simp

@[simp] theorem State.waitFor_mem (s : State) (why : WaitWhy) (line lease slot : Nat) (gen : BitVec 16) (off : Int) (vec wr : Bool) :
    (s.waitFor why line lease slot gen off vec wr).mem = s.mem := by
  unfold State.waitFor; simp

@[simp] theorem State.waitFor_others (s : State) (why : WaitWhy) (line lease slot : Nat) (gen : BitVec 16) (off : Int) (vec wr : Bool) :
    (s.waitFor why line lease slot gen off vec wr).others = s.others := by
  unfold State.waitFor; simp

@[simp] theorem State.keepWait_mem (s s' : State) : (s.keepWait s').mem = s.mem := rfl

@[simp] theorem State.dropWaits_mem (s : State) : (s.dropWaits).mem = s.mem := rfl

@[simp] theorem State.markWait_mem (s : State) (f : Waiting → Waiting) : (s.markWait f).mem = s.mem := rfl

@[simp] theorem State.markWait_others (s : State) (f : Waiting → Waiting) : (s.markWait f).others = s.others := rfl

@[simp] theorem State.askPeer_mem (s : State) (w : Who) (i a : Nat) (op : MemOp) : (s.askPeer w i a op).1.mem = s.mem := by
  unfold State.askPeer; (repeat' split) <;> simp

@[simp] theorem State.askPeer_others (s : State) (w : Who) (i a : Nat) (op : MemOp) : (s.askPeer w i a op).1.others = s.others := by
  unfold State.askPeer; (repeat' split) <;> simp

theorem State.askAll_mem (w : Who) : ∀ (l : List (Nat × Nat × MemOp)) (s : State), (s.askAll w l).1.mem = s.mem
  | [], _ => rfl
  | (i, a, op) :: l, s => by
    have h := s.askPeer_mem w i a op
    unfold State.askAll
    split
    · next e => rw [e] at h; exact h
    · next e => rw [e] at h; exact (State.askAll_mem w l _).trans h

@[simp] theorem State.setCuShare_mem (s : State) (f : List Host.Cell → List Host.Cell) : (s.setCuShare f).mem = s.mem := rfl

@[simp] theorem State.setCuShare_others (s : State) (f : List Host.Cell → List Host.Cell) : (s.setCuShare f).others = s.others := rfl

@[simp] theorem State.writeLoc_memOk {s : State} (h : s.memOk) (l : Loc) (cp : Nat) (bytes : List Byte) :
    (s.writeLoc l cp bytes).memOk := by
  unfold State.writeLoc; dsimp only; (repeat' split) <;> simp [State.memOk, h]

@[simp] theorem State.writeLoc_others (s : State) (l : Loc) (cp : Nat) (bytes : List Byte) : (s.writeLoc l cp bytes).others = s.others := by
  unfold State.writeLoc; dsimp only; (repeat' split) <;> simp

@[simp] theorem State.homeLoc_memOk {s : State} (h : s.memOk) (l : Loc) (n cp : Nat) : (s.homeLoc l n cp).1.memOk := by
  unfold State.homeLoc; split <;> simp [State.memOk, h]

@[simp] theorem State.homeLoc_others (s : State) (l : Loc) (n cp : Nat) : (s.homeLoc l n cp).1.others = s.others := by
  unfold State.homeLoc; split <;> simp

@[simp] theorem State.setHomeLoc_memOk {s : State} (h : s.memOk) (l : Loc) (cp : Nat) (bytes : List Byte) :
    (s.setHomeLoc l cp bytes).memOk := by
  cases l with
  | mem a => exact State.memOk_of_mem (State.homeWrite_memOk h ..) (State.patchL1_mem ..)
  | share off => exact h
  | cushare off => exact h
  | peer i a => exact h

@[simp] theorem State.setHomeLoc_others (s : State) (l : Loc) (cp : Nat) (bytes : List Byte) :
    (s.setHomeLoc l cp bytes).others = s.others := by
  unfold State.setHomeLoc; split <;> simp

@[simp] theorem State.orderLogOf_memOk {s : State} (h : s.memOk) (v strandid : Nat) (stripn : Word) (x : LogData) :
    (s.orderLogOf v strandid stripn x).memOk := by
  unfold State.orderLogOf
  dsimp only
  split
  · exact State.makeFog_memOk h _ _
  · exact h

@[simp] theorem State.orderLogOf_others (s : State) (v strandid : Nat) (stripn : Word) (x : LogData) :
    (s.orderLogOf v strandid stripn x).others = s.others := by
  unfold State.orderLogOf; dsimp only; split <;> simp

@[simp] theorem State.orderLog_memOk {s : State} (h : s.memOk) (x : LogData) : (s.orderLog x).memOk := by
  unfold State.orderLog; simp [State.memOk, h]

@[simp] theorem State.orderLog_others (s : State) (x : LogData) : (s.orderLog x).others = s.others := by
  unfold State.orderLog; simp

@[simp] theorem State.logAtomic_memOk {s : State} (h : s.memOk) (l : Loc) (d : Desc) : (s.logAtomic l d).memOk := by
  unfold State.logAtomic; (repeat' split) <;> simp [State.memOk, h]

@[simp] theorem State.logAtomic_others (s : State) (l : Loc) (d : Desc) : (s.logAtomic l d).others = s.others := by
  unfold State.logAtomic; (repeat' split) <;> simp

@[simp] theorem State.acquire_mem (s : State) : (s.acquire).mem = s.mem := rfl

@[simp] theorem State.loadPast_mem (s : State) (oe : Bool) (r : Ref) (n : Nat) (fmt : Bool) (b : List Byte) :
    (s.loadPast oe r n fmt b).1.mem = s.mem := by
  unfold State.loadPast; dsimp only; (repeat' split) <;> simp

@[simp] theorem State.loadPast_others (s : State) (oe : Bool) (r : Ref) (n : Nat) (fmt : Bool) (b : List Byte) :
    (s.loadPast oe r n fmt b).1.others = s.others := by
  unfold State.loadPast; dsimp only; (repeat' split) <;> simp

@[simp] theorem State.noteStore_memOk {s : State} (h : s.memOk) (oe low : Bool) (l : Loc) (cp : Nat) (old : List Byte) :
    (s.noteStore oe low l cp old).memOk := by
  unfold State.noteStore; dsimp only; (repeat' split) <;> simp [State.memOk, h]

@[simp] theorem State.noteStore_others (s : State) (oe low : Bool) (l : Loc) (cp : Nat) (old : List Byte) :
    (s.noteStore oe low l cp old).others = s.others := by
  unfold State.noteStore; dsimp only; (repeat' split) <;> simp

@[simp] theorem State.endWrites_memOk {s : State} (h : s.memOk) (l : List Loc) : (s.endWrites l).memOk := by
  unfold State.endWrites; split <;> simp [State.memOk, h]

@[simp] theorem State.endWrites_others (s : State) (l : List Loc) : (s.endWrites l).others = s.others := by
  unfold State.endWrites; split <;> simp

@[simp] theorem performOrder_mem (s : State) (oe : Bool) (ref : Nat → Ref) (n : Nat) (l : List Nat) :
    (performOrder s oe ref n l).2.mem = s.mem := by
  unfold performOrder; (repeat' split) <;> simp

@[simp] theorem performOrder_others (s : State) (oe : Bool) (ref : Nat → Ref) (n : Nat) (l : List Nat) :
    (performOrder s oe ref n l).2.others = s.others := by
  unfold performOrder; (repeat' split) <;> simp

@[simp] theorem State.coverLines_mem (s : State) (n : Nat) (locs : List Loc) : (s.coverLines n locs).mem = s.mem :=
  foldl_keeps (fun s l => by split <;> simp) _ _

@[simp] theorem State.coverLines_others (s : State) (n : Nat) (locs : List Loc) : (s.coverLines n locs).others = s.others :=
  foldl_keeps (fun s l => by split <;> simp) _ _

@[simp] theorem State.dropCopies_mem (s : State) (ctx incn line : Nat) : (s.dropCopies ctx incn line).mem = s.mem := by
  unfold State.dropCopies; rw [foldl_keeps (g := State.mem)]; intro s k; rfl

@[simp] theorem State.dropCopies_others (s : State) (ctx incn line : Nat) : (s.dropCopies ctx incn line).others = s.others := by
  unfold State.dropCopies; rw [foldl_keeps (g := State.others)]; intro s k; rfl

@[simp] theorem State.writeMerged_memOk {s : State} (h : s.memOk) (vd ctx incn line : Nat) (v : BitVec 1024) :
    (s.writeMerged vd ctx incn line v).memOk := by
  unfold State.writeMerged
  dsimp only
  refine State.memOk_of_mem (State.homeWrite_memOk (s := if s.poisoned line then s.countReg Reg.mrgerr 32 else s) ?_ ..) (State.dropCopies_mem ..)
  split <;> simp [State.memOk, h]

@[simp] theorem State.writeMerged_others (s : State) (vd ctx incn line : Nat) (v : BitVec 1024) :
    (s.writeMerged vd ctx incn line v).others = s.others := by
  unfold State.writeMerged; split <;> simp

@[simp] theorem State.mergeNow_memOk {s : State} (h : s.memOk) (w : PartWait) : (s.mergeNow w).memOk :=
  State.orderLogOf_memOk (State.writeMerged_memOk h ..) ..

@[simp] theorem State.mergeNow_others (s : State) (w : PartWait) : (s.mergeNow w).others = s.others := by
  unfold State.mergeNow; simp

@[simp] theorem State.closeMerge_memOk {s : State} (h : s.memOk) (e : Merge) : (s.closeMerge e).memOk := by
  unfold State.closeMerge; simp [State.memOk, h]

@[simp] theorem State.closeMerge_others (s : State) (e : Merge) : (s.closeMerge e).others = s.others := by
  unfold State.closeMerge; simp

@[simp] theorem State.mergePart_memOk {s : State} (h : s.memOk) (ctx incn vd line n : Nat) (p : Part) :
    (s.mergePart ctx incn vd line n p).1.memOk := by
  unfold State.mergePart; dsimp only; (repeat' split) <;> simp [State.memOk, h]

@[simp] theorem State.mergePart_others (s : State) (ctx incn vd line n : Nat) (p : Part) :
    (s.mergePart ctx incn vd line n p).1.others = s.others := by
  unfold State.mergePart; dsimp only; (repeat' split) <;> simp

@[simp] theorem State.arrive_memOk {s : State} (h : s.memOk) (w : PartWait) : (s.arrive w).1.memOk := by
  unfold State.arrive; (repeat' split) <;> simp [State.memOk, h]

@[simp] theorem State.arrive_others (s : State) (w : PartWait) : (s.arrive w).1.others = s.others := by
  unfold State.arrive; (repeat' split) <;> simp

@[simp] theorem State.retryPart_memOk {s : State} (h : s.memOk) (w : PartWait) : (s.retryPart w).memOk := by
  unfold State.retryPart; dsimp only; (repeat' split) <;> simp [State.memOk, h]

@[simp] theorem State.retryPart_others (s : State) (w : PartWait) : (s.retryPart w).others = s.others := by
  unfold State.retryPart; dsimp only; (repeat' split) <;> simp

@[simp] theorem State.retryParts_memOk {s : State} (h : s.memOk) : s.retryParts.memOk :=
  foldl_memOk (fun w h => State.retryPart_memOk h w) _ h

@[simp] theorem State.retryParts_others (s : State) : s.retryParts.others = s.others := foldl_keeps State.retryPart_others _ _

@[simp] theorem State.sendPart_memOk {s : State} (h : s.memOk) (slot : Nat) (d : Desc) (line n : Nat) (p : Part) :
    (s.sendPart slot d line n p).memOk := by
  have flushed := State.flushLine_memOk h s.me.cu line
  have arrived := fun w => State.arrive_memOk flushed w
  unfold State.sendPart
  dsimp only
  split
  · exact flushed
  · split
    · exact State.retryParts_memOk (arrived _)
    · exact arrived _

@[simp] theorem State.sendPart_others (s : State) (slot : Nat) (d : Desc) (line n : Nat) (p : Part) :
    (s.sendPart slot d line n p).others = s.others := by
  unfold State.sendPart; dsimp only; (repeat' split) <;> simp

end Sys2Proof.Machine
end

section
/-! SUPPORT. An access of memory, and every word of a convoy, leaves memory in canonical form and the strands that have no turn. -/

namespace Sys2Proof.Machine

/-- A state goes to another as an access does: memory stays in canonical form, and the strands that have no turn stand. -/
def State.accesses (s t : State) : Prop := (s.memOk → t.memOk) ∧ t.others = s.others

theorem State.accesses_of {s t : State} (hm : t.mem = s.mem) (ho : t.others = s.others) : s.accesses t :=
  ⟨fun h => State.memOk_of_mem h hm, ho⟩

theorem State.accesses_refl (s : State) : s.accesses s := ⟨id, rfl⟩

theorem State.accesses_trans {s t u : State} (h : s.accesses t) (g : t.accesses u) : s.accesses u :=
  ⟨fun k => g.1 (h.1 k), g.2.trans h.2⟩

theorem State.onMe_accesses (s : State) (f : Strand → Strand) : s.accesses (s.onMe f) := State.accesses_of rfl rfl

theorem State.homeLoc_accesses (s : State) (l : Loc) (n cp : Nat) : s.accesses (s.homeLoc l n cp).1 :=
  ⟨fun h => State.homeLoc_memOk h .., State.homeLoc_others ..⟩

theorem State.logAtomic_accesses (s : State) (l : Loc) (d : Desc) : s.accesses (s.logAtomic l d) :=
  ⟨fun h => State.logAtomic_memOk h .., State.logAtomic_others ..⟩

theorem State.performOrder_accesses (s : State) (oe : Bool) (ref : Nat → Ref) (n : Nat) (l : List Nat) :
    s.accesses (performOrder s oe ref n l).2 :=
  State.accesses_of (performOrder_mem ..) (performOrder_others ..)

theorem State.foldl_accesses {α : Type} {f : State → α → State} (hf : ∀ (s : State) x, s.accesses (f s x)) (l : List α) (s : State) :
    s.accesses (l.foldl f s) := by
  induction l generalizing s with
  | nil => exact s.accesses_refl
  | cons x l ih => exact State.accesses_trans (hf s x) (ih _)

/-- An answer comes after an access of the state. -/
def Ans.accesses (s : State) : Ans α → Prop
  | .ok t _ => s.accesses t
  | .fault t _ => s.accesses t
  | .wait t => s.accesses t

theorem Ans.accesses_trans {s t : State} {x : Ans α} (h : s.accesses t) (g : x.accesses t) : x.accesses s := by
  cases x <;> exact State.accesses_trans h g

theorem State.descFor_accesses (s : State) (k : Nat) : s.accesses (s.descFor k).1 :=
  State.accesses_of (State.descFor_mem ..) (State.descFor_others ..)

theorem State.acquire_accesses (s : State) : s.accesses s.acquire := State.accesses_of rfl rfl

theorem State.release_accesses (s : State) (n : Nat) (v : Bool) : (s.release n v).accesses s := by
  have h : s.accesses (if n = 0 then s else s.drainWcb s.me.cu) := by
    split
    · exact s.accesses_refl
    · exact ⟨fun g => State.drainWcb_memOk g _, State.drainWcb_others ..⟩
  unfold State.release
  split
  · exact s.accesses_refl
  · dsimp only
    split
    · exact State.accesses_trans h ⟨fun h => by simp [State.memOk, h], by simp⟩
    · exact State.accesses_trans h (State.onMe_accesses ..)

theorem State.releaseFor_accesses (s : State) (r : Ref) (sc : BitVec 2) (v : Bool) : (s.releaseFor r sc v).accesses s := by
  unfold State.releaseFor
  split
  · exact ⟨fun h => by simp [State.memOk, h], by simp⟩
  · exact Ans.accesses_trans (s.descFor_accesses r.slot) (State.release_accesses _ _ _)

theorem State.callPeer_accesses (s : State) (vec : Bool) (i a : Nat) (op : MemOp) (r : Ref) (d : Desc) (fmt : Bool) :
    (s.callPeer vec i a op r d fmt).accesses s := by
  have h : s.accesses (s.askPeer (s.me.who vec) i a op).1 := ⟨fun h => by simp [State.memOk, h], by simp⟩
  unfold State.callPeer
  split
  · next e => rw [e] at h; exact h
  · next e => rw [e] at h; split <;> exact h

theorem State.probe_accesses (s : State) (rt : Rights) (r : Ref) (n : Nat) (fmt vec sup : Bool) :
    (s.probe rt r n fmt vec sup).accesses s := by
  have h := s.descFor_accesses r.slot
  unfold State.probe
  split
  · exact ⟨fun h => by simp [State.memOk, h], by simp⟩
  · dsimp only
    repeat' (first | exact h | exact State.accesses_trans h (State.accesses_of (State.waitFor_mem ..) (State.waitFor_others ..)) | split)

theorem State.readLoc_accesses (s : State) (l : Loc) (r : Ref) (d : Desc) (n : Nat) (fmt vec : Bool) (ch : BitVec 2) :
    (s.readLoc l r d n fmt vec ch).accesses s := by
  unfold State.readLoc
  split
  · exact s.accesses_refl
  · exact s.accesses_refl
  · dsimp only; split <;> exact ⟨fun h => by simp [State.memOk, h], by simp⟩
  · exact State.callPeer_accesses _ _ _ _ _ _ _ _

theorem State.writeLoc_accesses (s : State) (l : Loc) (cp : Nat) (b : List Byte) : s.accesses (s.writeLoc l cp b) :=
  ⟨fun h => State.writeLoc_memOk h .., State.writeLoc_others ..⟩

theorem State.storeLoc_accesses (s : State) (l : Loc) (r : Ref) (d : Desc) (cp : Nat) (fmt vec : Bool) (b : List Byte) :
    (s.storeLoc l r d cp fmt vec b).accesses s := by
  unfold State.storeLoc
  split
  · next i a =>
    have h := s.callPeer_accesses vec i a (.write b (2 ^ b.length - 1)) r d fmt
    revert h
    cases s.callPeer vec i a (.write b (2 ^ b.length - 1)) r d fmt <;> exact id
  · split
    · exact ⟨fun h => by simp [State.memOk, h], by simp⟩
    · exact State.writeLoc_accesses _ _ _ _
  · exact State.writeLoc_accesses _ _ _ _

theorem State.setHomeLoc_accesses (s : State) (l : Loc) (cp : Nat) (b : List Byte) : s.accesses (s.setHomeLoc l cp b) :=
  ⟨fun h => State.setHomeLoc_memOk h .., State.setHomeLoc_others ..⟩

theorem State.peerNibble_accesses (vec : Bool) (i a : Nat) (put : Byte → Byte) (r : Ref) (d : Desc) :
    ∀ (n : Nat) (s : State) (old : Nat), (s.peerNibble vec i a put r d n old).accesses s
  | 0, s, _ => s.accesses_refl
  | n + 1, s, old => by
    unfold State.peerNibble
    dsimp only
    generalize MemOp.atomic _ _ _ _ = o
    have h := s.callPeer_accesses vec i (a - a % 4) o r d true
    revert h
    cases s.callPeer vec i (a - a % 4) o r d true with
    | ok t b =>
      exact fun h => iteInduction (motive := Ans.accesses s) (fun _ => h)
        (fun _ => Ans.accesses_trans h (State.peerNibble_accesses vec i a put r d n t _))
    | fault t e => exact id
    | wait t => exact id

theorem State.nibbleLoc_accesses (s : State) (l : Loc) (r : Ref) (d : Desc) (cp : Nat) (vec : Bool) (put : Byte → Byte) :
    (s.nibbleLoc l r d cp vec put).accesses s := by
  unfold State.nibbleLoc
  split
  · next i a =>
    have h := s.callPeer_accesses vec i (a - a % 4) (.read 4) r d true
    revert h
    cases s.callPeer vec i (a - a % 4) (.read 4) r d true with
    | ok t b => exact fun h => Ans.accesses_trans h (State.peerNibble_accesses _ _ _ _ _ _ _ _ _)
    | fault t e => exact id
    | wait t => exact id
  · exact State.accesses_trans (State.homeLoc_accesses ..) (State.setHomeLoc_accesses ..)

theorem State.load_accesses (s : State) (r : Ref) (n : Nat) (fmt vec sup : Bool) (ch : BitVec 2) :
    (s.load r n fmt vec sup ch).accesses s := by
  have h := s.probe_accesses rdOnly r n fmt vec sup
  unfold State.load
  revert h
  cases s.probe rdOnly r n fmt vec sup with
  | ok t x =>
    obtain ⟨l, d⟩ := x
    have g := t.readLoc_accesses l r d (if fmt then 1 else n) fmt vec ch
    revert g
    dsimp only
    cases t.readLoc l r d (if fmt then 1 else n) fmt vec ch <;> exact fun g h => State.accesses_trans h g
  | fault t e => exact id
  | wait t => exact id

theorem State.storeWith_accesses (s : State) (r : Ref) (n : Nat) (fmt vec sup : Bool) (ch : BitVec 2) (v : Nat) (m : Option Nat) :
    (s.storeWith r n fmt vec sup ch v m).accesses s := by
  have h := s.probe_accesses wrOnly r n fmt vec sup
  unfold State.storeWith
  revert h
  cases s.probe wrOnly r n fmt vec sup with
  | ok t x =>
    obtain ⟨l, d⟩ := x
    dsimp only
    generalize hy : (if (!fmt) = true then _ else _ : Ans Unit) = y
    have g : y.accesses t := by
      subst hy
      refine iteInduction (motive := Ans.accesses t) (fun _ => State.storeLoc_accesses _ _ _ _ _ _ _ _) fun _ => ?_
      refine iteInduction (motive := Ans.accesses t) (fun _ => State.storeLoc_accesses _ _ _ _ _ _ _ _) fun _ => ?_
      cases m
      · exact State.nibbleLoc_accesses _ _ _ _ _ _ _
      · exact State.storeLoc_accesses _ _ _ _ _ _ _ _
    revert g
    cases y <;> exact fun g h => State.accesses_trans h g
  | fault t e => exact id
  | wait t => exact id

theorem State.store_accesses (s : State) (r : Ref) (n : Nat) (fmt vec sup : Bool) (ch : BitVec 2) (v : Nat) :
    (s.store r n fmt vec sup ch v).accesses s := by
  have h := s.storeWith_accesses r n fmt vec sup ch v none
  unfold State.store
  revert h
  cases s.storeWith r n fmt vec sup ch v none with
  | ok t x =>
    refine fun h => State.accesses_trans h ?_
    split
    · exact ⟨fun g => State.settleWcb_memOk g _, State.settleWcb_others ..⟩
    · exact t.accesses_refl
  | fault t e => exact id
  | wait t => exact id

theorem State.amo_accesses (s : State) (r : Ref) (op : AmoOp) (t : AmoTy) (vec sup : Bool) (y c : Nat) :
    (s.amo r op t vec sup y c).accesses s := by
  have h := s.probe_accesses rdWr r (amoBytes t) false vec sup
  unfold State.amo
  revert h
  cases s.probe rdWr r (amoBytes t) false vec sup with
  | ok u x =>
    obtain ⟨l, d⟩ := x
    intro h
    dsimp only
    split
    · next i a =>
      generalize MemOp.atomic _ _ _ _ = o
      have g := u.callPeer_accesses vec i a o r d false
      revert g
      cases u.callPeer vec i a o r d false <;> exact fun g => State.accesses_trans h g
    · split
      · exact State.accesses_trans h (State.accesses_trans
          (State.accesses_trans (State.homeLoc_accesses ..) (State.setHomeLoc_accesses ..)) (State.logAtomic_accesses ..))
      · exact State.accesses_trans h ⟨fun h => by simp [State.memOk, h], by simp⟩
  | fault t e => exact id
  | wait t => exact id

theorem State.loadPast_accesses (s : State) (oe : Bool) (r : Ref) (n : Nat) (fmt : Bool) (b : List Byte) :
    s.accesses (s.loadPast oe r n fmt b).1 :=
  State.accesses_of (State.loadPast_mem ..) (State.loadPast_others ..)

theorem State.noteStore_accesses (s : State) (oe low : Bool) (l : Loc) (cp : Nat) (old : List Byte) :
    s.accesses (s.noteStore oe low l cp old) :=
  ⟨fun h => State.noteStore_memOk h .., State.noteStore_others ..⟩

theorem State.vecLoad_accesses (s : State) (oe : Bool) (r : Ref) (n : Nat) (fmt sup : Bool) (ch : BitVec 2) :
    (s.vecLoad oe r n fmt sup ch).accesses s := by
  have h := s.load_accesses r n fmt true sup ch
  unfold State.vecLoad
  revert h
  cases s.load r n fmt true sup ch with
  | ok t x => exact fun h => State.accesses_trans h (State.loadPast_accesses _ _ _ _ _ _)
  | fault t e => exact id
  | wait t => exact id

theorem State.vecStore_accesses (s : State) (oe : Bool) (r : Ref) (n : Nat) (fmt sup : Bool) (ch : BitVec 2) (v : Nat) (m : Option Nat) :
    (s.vecStore oe r n fmt sup ch v m).accesses s := by
  have h := s.storeWith_accesses r n fmt true sup ch v m
  unfold State.vecStore
  revert h
  cases s.storeWith r n fmt true sup ch v m with
  | ok t x => exact fun h => State.accesses_trans h (State.noteStore_accesses _ _ _ _ _ _)
  | fault t e => exact id
  | wait t => exact id

theorem State.vecAmo_accesses (s : State) (oe : Bool) (r : Ref) (op : AmoOp) (t : AmoTy) (sup : Bool) (y : Nat) :
    (s.vecAmo oe r op t sup y).accesses s := by
  have h := s.amo_accesses r op t true sup y 0
  unfold State.vecAmo
  revert h
  cases s.amo r op t true sup y 0 with
  | ok u old =>
    dsimp only
    split
    · exact fun h => State.accesses_trans h (State.noteStore_accesses _ _ _ _ _ _)
    · exact id
  | fault t e => exact id
  | wait t => exact id

theorem eachElem_accesses {β : Type} (s0 : State) (acc : State → Nat → Ans β) (w : Nat)
    (ha : ∀ s e, (acc s e).accesses s) :
    ∀ (l : List Nat) (s : State) (out : List (Nat × β)) (st : List ElemStop), s0.accesses s →
      match eachElem s acc w l out st with
      | .ok (t, _, _) => s0.accesses t
      | .error t => s0.accesses t
  | [], s, out, st, h => h
  | e :: l, s, out, st, h => by
    have g := ha s e
    cases q : acc s e with
    | ok s' b =>
      rw [q] at g
      simpa only [eachElem, q] using eachElem_accesses s0 acc w ha l _ _ _ (State.accesses_trans h g)
    | fault s' t =>
      rw [q] at g
      simpa only [eachElem, q] using eachElem_accesses s0 acc w ha l _ _ _ (State.accesses_trans h g)
    | wait s' =>
      rw [q] at g
      simpa only [eachElem, q] using State.accesses_trans (State.accesses_trans h g) (State.accesses_of (State.markWait_mem ..) (State.markWait_others ..))

theorem eachElem_accesses_of {β : Type} {acc : State → Nat → Ans β} {w : Nat} {l : List Nat} {s t : State} {out : List (Nat × β)}
    {st : List ElemStop} (q : eachElem s acc w l [] [] = .ok (t, out, st)) (ha : ∀ s e, (acc s e).accesses s) : s.accesses t := by
  have g := eachElem_accesses s acc w ha l s [] [] s.accesses_refl
  rw [q] at g
  exact g

theorem indexedElems_accesses_of {β : Type} {acc : Bool → State → Nat → Ans β} {w : Nat} {l : List Nat} {s t : State} {out : List (Nat × β)}
    {st hits : List ElemStop} (q : indexedElems s acc w l = .ok (t, out, st, hits)) (ha : ∀ b s e, (acc b s e).accesses s) :
    s.accesses t := by
  unfold indexedElems at q
  split at q
  · nomatch q
  · next q1 =>
    dsimp only at q
    split at q
    · nomatch q
    · next q2 =>
      simp only [Except.ok.injEq, Prod.mk.injEq] at q
      obtain ⟨rfl, -⟩ := q
      exact State.accesses_trans (eachElem_accesses_of q1 (ha false)) (eachElem_accesses_of q2 (ha true))

/-! ### Words of a convoy -/

/-- A word of a convoy goes on after its accesses of the state. -/
def Out.accesses (s : State) : Out → Prop
  | .ran r _ => s.accesses r.s
  | .wait _ => True

theorem State.accesses_begin (s : State) {t : State} (h : s.beginReads.accesses t) : s.accesses t := h

theorem State.cover_accesses (s : State) (n : Nat) (l : List Loc) : s.accesses ((s.coverLines n l).endWrites l) :=
  ⟨fun h => by simp [State.memOk, h], by simp⟩

theorem Run.load_accesses (r : Run) (h : How) (x : VWord) (p : VMode) (v : VAcc) (d : VReg) (m : Addr) (ch : BitVec 2) (f : LdForm) :
    (r.load h x p v d m ch f).accesses r.s := by
  have acc : ∀ (ref : Nat → Ref) (n w : Nat) (fmt b : Bool) (s : State) (e : Nat),
      (s.vecLoad v.oe (ref e) n fmt (b || h.sup (groupOf w e)) ch).accesses s := fun _ _ _ _ _ s _ => s.vecLoad_accesses _ _ _ _ _ _
  unfold Run.load
  cases p <;> simp only [if_true, Bool.false_eq_true, if_false] <;> split
  · trivial
  · next q => simpa [Out.accesses] using r.s.accesses_begin (eachElem_accesses_of q (acc _ _ _ _ _))
  · trivial
  · next q => simpa [Out.accesses] using r.s.accesses_begin (eachElem_accesses_of q (acc _ _ _ _ _))
  · trivial
  · next q => simpa [Out.accesses] using r.s.accesses_begin (indexedElems_accesses_of q (acc _ _ _ _))

theorem Run.loadFF_accesses (r : Run) (h : How) (x : VWord) (v : VAcc) (d : VReg) (m : Addr) (ch : BitVec 2) (f : LdForm) (q : QNum) :
    (r.loadFF h x v d m ch f q).accesses r.s := by
  unfold Run.loadFF
  dsimp only
  split
  · trivial
  · next q =>
    have g := r.s.accesses_begin (eachElem_accesses_of q (fun s e => s.vecLoad_accesses _ _ _ _ _ _))
    exact iteInduction (motive := Out.accesses r.s) (fun _ => g) (fun _ => by simpa [Out.accesses] using g)

theorem Run.loadSc_accesses (r : Run) (h : How) (x : VWord) (v : VAcc) (d : VReg) (m : Addr) (ch : BitVec 2) (off : BitVec 14) :
    (r.loadSc h x v d m ch off).accesses r.s := by
  unfold Run.loadSc
  dsimp only
  split
  · trivial
  · next q =>
    have g := eachElem_accesses_of q (fun s e => by
      have k := s.descFor_accesses (refOf m.sl x.sA off.toInt).slot
      exact iteInduction (motive := Ans.accesses s) (fun _ => k) (fun _ => Ans.accesses_trans k (State.vecLoad_accesses _ _ _ _ _ _ _)))
    exact r.s.accesses_begin g

/-- An access that only checks. -/
theorem probe_only_accesses {β : Type} (s : State) (rt : Rights) (r : Ref) (n : Nat) (fmt vec sup : Bool) (f : Loc → Desc → β) :
    (match s.probe rt r n fmt vec sup with
      | .ok s (l, d) => Ans.ok s (f l d)
      | .fault s t => .fault s t
      | .wait s => .wait s).accesses s := by
  have h := s.probe_accesses rt r n fmt vec sup
  revert h
  cases s.probe rt r n fmt vec sup <;> exact id

theorem probe_check_accesses {β : Type} (s : State) (rt : Rights) (r : Ref) (n : Nat) (fmt vec sup : Bool) (b : β) :
    (match s.probe rt r n fmt vec sup with
      | .ok s _ => Ans.ok s b
      | .fault s t => .fault s t
      | .wait s => .wait s).accesses s := by
  have h := s.probe_accesses rt r n fmt vec sup
  revert h
  cases s.probe rt r n fmt vec sup <;> exact id

theorem Run.store_accesses (r : Run) (h : How) (x : VWord) (p : VMode) (v : VAcc) (d : VReg) (m : Addr) (ch : BitVec 2) (f : StForm) :
    (r.store h x p v d m ch f).accesses r.s := by
  have one : ∀ (c : Bool) (s : State) (ref : Ref) (n : Nat) (fmt sup : Bool) (y : Nat) (mate : Option Nat) (f : Loc → Desc → Bool × Loc),
      Ans.accesses s (if c = true then s.vecStore v.oe ref n fmt sup ch y mate else
        match s.probe wrOnly ref n fmt true sup with
        | .ok s (l, d) => .ok s (f l d)
        | .fault s t => .fault s t
        | .wait s => .wait s) := fun c s ref n fmt sup y mate f =>
    iteInduction (motive := Ans.accesses s) (fun _ => State.vecStore_accesses _ _ _ _ _ _ _ _ _)
      (fun _ => probe_only_accesses s _ _ _ _ _ _ f)
  have done : ∀ {t : State} {oe : Bool} {ref : Nat → Ref} {n : Nat} {l : List Nat} (k : Nat) (a : List Loc),
      (performOrder r.s oe ref n l).2.accesses t → r.s.accesses ((t.coverLines k a).endWrites a) := fun k a g =>
    State.accesses_trans (State.accesses_trans (State.performOrder_accesses ..) g) (State.cover_accesses ..)
  unfold Run.store
  generalize nibbles = nib
  cases p <;> simp only [if_true, Bool.false_eq_true, if_false] <;> split
  · trivial
  · next q =>
    rw [Out.accesses, Run.satBits_s]
    exact done _ _ (eachElem_accesses_of q fun s e => one _ s _ _ _ _ _ _ _)
  · trivial
  · next q =>
    rw [Out.accesses, Run.satBits_s]
    exact done _ _ (eachElem_accesses_of q fun s e => one _ s _ _ _ _ _ _ _)
  · trivial
  · next q =>
    rw [Out.accesses, Run.indexed_s, Run.satBits_s]
    exact done _ _ (indexedElems_accesses_of q fun b s e => one _ s _ _ _ _ _ _ _)

theorem Run.amo_accesses (r : Run) (h : How) (x : VWord) (v : VAcc) (op : AmoOp) (t : AmoTy) (ord : BitVec 2) (d : VReg) (m : Addr)
    (off : BitVec 12) (b : VReg) : (r.amo h x v op t ord d m off b).accesses r.s := by
  have perform : ∀ (s : State) (ref : Ref) (sup : Bool) (y : Nat), (match s.vecAmo v.oe ref op t sup y with
      | .ok s old => Ans.ok (if ord.getLsbD 0 then s.acquire else s) old
      | .fault s t => .fault s t
      | .wait s => .wait s).accesses s := by
    intro s ref sup y
    have k := s.vecAmo_accesses v.oe ref op t sup y
    revert k
    cases s.vecAmo v.oe ref op t sup y with
    | ok u old => exact fun k => iteInduction (motive := s.accesses) (fun _ => State.accesses_trans k u.acquire_accesses) (fun _ => k)
    | fault u e => exact id
    | wait u => exact id
  unfold Run.amo
  dsimp only
  split
  · trivial
  · next q =>
    have g := indexedElems_accesses_of q (fun b s e => probe_check_accesses s _ _ _ _ _ _ _)
    have g := State.accesses_trans (State.performOrder_accesses r.s v.oe ..) g
    refine iteInduction (motive := Out.accesses r.s) (fun _ => by rw [Out.accesses, Run.indexed_s]; exact g) (fun _ => ?_)
    split
    · trivial
    · next q2 =>
      have g2 := indexedElems_accesses_of q2 (fun b s e => by
        refine iteInduction (motive := Ans.accesses s) (fun _ => probe_check_accesses s _ _ _ _ _ _ _) fun _ => ?_
        refine iteInduction (motive := Ans.accesses s) (fun _ => perform s _ _ _) fun _ => ?_
        generalize elemRef _ _ _ _ _ _ _ _ = ref
        have k := s.releaseFor_accesses ref m.sc true
        revert k
        cases s.releaseFor ref m.sc true with
        | ok u _ => exact fun k => Ans.accesses_trans k (perform u _ _ _)
        | fault u e => exact id
        | wait u => exact id)
      rw [Out.accesses, Run.indexed_s, Run.write_s]
      exact State.accesses_trans g g2

theorem Run.tileLoad_accesses (r : Run) (h : How) (x : VWord) (v : VAcc) (td : TReg) (m : Addr) (ch : BitVec 2) (f : TileLd) :
    (r.tileLoad h x v td m ch f).accesses r.s := by
  unfold Run.tileLoad
  dsimp only
  split
  · trivial
  · next q => exact r.s.accesses_begin (eachElem_accesses_of q (fun s e => s.vecLoad_accesses _ _ _ _ _ _))

theorem Run.tileStore_accesses (r : Run) (h : How) (x : VWord) (v : VAcc) (td : TReg) (m : Addr) (ch : BitVec 2) (f : TileSt) :
    (r.tileStore h x v td m ch f).accesses r.s := by
  unfold Run.tileStore
  dsimp only
  split
  · trivial
  · next q =>
    have g := eachElem_accesses_of q (fun s e => probe_check_accesses s _ _ _ _ _ _ ())
    refine iteInduction (motive := Out.accesses r.s) (fun _ => g) (fun _ => ?_)
    split
    · trivial
    · next q2 =>
      have g2 := eachElem_accesses_of q2 (fun s e => by
        refine Ans.accesses_trans (s.descFor_accesses (tileRef x m (tileStShape f).2.2.2.1 (tileStShape f).1
          (e / h.mlim (tileStShape f).2.2.1) (e % h.mlim (tileStShape f).2.2.1)).slot) ?_
        exact iteInduction (motive := Ans.accesses _) (fun _ => State.vecStore_accesses _ _ _ _ _ _ _ _ _)
          (fun _ => probe_only_accesses _ _ _ _ _ _ _ _))
      exact State.accesses_trans (State.accesses_trans (State.accesses_trans g (State.performOrder_accesses ..)) g2)
        (State.cover_accesses ..)

theorem Run.merge_accesses (r : Run) (h : How) (x : VWord) (t : MergeTy) (ord : Bool) (td : TReg) (m : Addr) (off : BitVec 16) :
    (r.merge h x t ord td m off).accesses r.s := by
  have k := r.s.descFor_accesses (refOf m.sl x.sA off.toInt).slot
  unfold Run.merge
  dsimp only
  refine iteInduction (motive := Out.accesses r.s) (fun _ => r.s.accesses_refl) (fun _ => ?_)
  refine iteInduction (motive := Out.accesses r.s) (fun _ => r.s.accesses_refl) (fun _ => ?_)
  refine iteInduction (motive := Out.accesses r.s) (fun _ => k) (fun _ => ?_)
  split
  · trivial
  · next q =>
    have g := eachElem_accesses_of q (fun s e => by
      generalize (h.sup 256 || _ : Bool) = sup
      generalize ({ refOf m.sl x.sA off.toInt with off := _ } : Ref) = ref
      have h := s.probe_accesses wrOnly ref (mergeSize t) false true sup
      revert h
      split <;> (next q => rw [q]; exact id))
    have g := State.accesses_trans k g
    refine iteInduction (motive := Out.accesses r.s) (fun _ => g) (fun _ => ?_)
    refine iteInduction (motive := Out.accesses r.s) (fun _ => g) (fun _ => ?_)
    exact State.accesses_trans g (State.foldl_accesses (fun s line =>
      iteInduction (motive := s.accesses) (fun _ => s.accesses_refl)
        (fun _ => ⟨fun h => State.sendPart_memOk h .., State.sendPart_others ..⟩)) _ _)

theorem Run.stackWord_accesses (r : Run) (f : List MaskEntry → List MaskEntry) (full : Bool) : (r.stackWord f full).accesses r.s := by
  unfold Run.stackWord
  dsimp only
  refine iteInduction (motive := Out.accesses r.s) (fun _ => r.s.accesses_refl) (fun _ => ?_)
  exact iteInduction (motive := Out.accesses r.s) (fun _ => r.s.accesses_refl) (fun _ => r.s.accesses_refl)

theorem Run.vecWord_accesses (r : Run) (h : How) (x : VWord) : (r.vecWord h x).accesses r.s := by
  obtain ⟨op, gov, sA, sB, word⟩ := x
  cases op
  case ld => exact r.load_accesses ..
  case ldff => exact r.loadFF_accesses ..
  case ldsc => exact r.loadSc_accesses ..
  case st => exact r.store_accesses ..
  case amo => exact r.amo_accesses ..
  case mpush => unfold Run.vecWord; exact r.stackWord_accesses ..
  case minv => unfold Run.vecWord; exact r.stackWord_accesses ..
  case mpop => unfold Run.vecWord; exact r.stackWord_accesses ..
  case bcast w d a => cases a <;> exact r.s.accesses_refl
  case ins => exact iteInduction (motive := Out.accesses r.s) (fun _ => r.s.accesses_refl) (fun _ => r.s.accesses_refl)
  case red => exact State.accesses_of (by rw [Run.redResult_s]) (by rw [Run.redResult_s])
  case fred => exact State.accesses_of (by rw [Run.redResult_s]; rfl) (by rw [Run.redResult_s]; rfl)
  all_goals exact r.s.accesses_refl

/-- Whatever a word of a convoy does, it leaves memory in canonical form and the strands that have no turn. -/
theorem Run.anyWord_accesses (r : Run) (h : How) (x : VWord) : (r.anyWord h x).accesses r.s := by
  have k := r.vecWord_accesses h x
  obtain ⟨op, gov, sA, sB, word⟩ := x
  cases op
  case mldt => exact r.tileLoad_accesses ..
  case mstt => exact r.tileStore_accesses ..
  case mmerge => exact r.merge_accesses ..
  case mwrow td a => exact State.accesses_of (by split <;> rfl) (by split <;> rfl)
  case mopa => exact r.s.accesses_refl
  case mzero => exact r.s.accesses_refl
  case mrow => exact r.s.accesses_refl
  case mfold => exact r.s.accesses_refl
  case mcvt => exact r.s.accesses_refl
  all_goals exact k

end Sys2Proof.Machine
end

section
/-! PROOFS. Vector and matrix memory words that stand alone (spec 14 and 16, R325 to R328, R341, R346): the statement O43. -/

namespace Sys2Proof.Machine

/-- What a strand does with one value that its words push, noted with the number of their convoy. -/
def Strand.pushed (n : Nat) (k : Strand) (y : QNum × Word) : Strand := k.setFromQ y.1 (k.fromQ y.1 ++ [⟨y.2, n⟩])

theorem Strand.foldl_pushed_frame (n : Nat) (l : List (QNum × Word)) (k : Strand) :
    l.foldl (Strand.pushed n) k = { k with fromVec := (l.foldl (Strand.pushed n) k).fromVec } := by
  induction l generalizing k with
  | nil => rfl
  | cons y l ih => rw [List.foldl_cons, ih]; rfl

theorem Strand.fromQ_pushed (n : Nat) (k : Strand) (y : QNum × Word) (q : QNum) :
    (k.pushed n y).fromQ q = k.fromQ q ++ if y.1 == q then [⟨y.2, n⟩] else [] := by
  by_cases h : y.1 = q
  · subst h; simp [Strand.pushed, Strand.fromQ, Strand.setFromQ]
  · have hne : y.1.toNat ≠ q.toNat := fun e => h (BitVec.eq_of_toNat_eq e)
    simp [Strand.pushed, Strand.fromQ, Strand.setFromQ, h, hne]

theorem Strand.fromQ_foldl_pushed (n : Nat) (q : QNum) (l : List (QNum × Word)) (k : Strand) :
    (l.foldl (Strand.pushed n) k).fromQ q = k.fromQ q ++ (l.filter fun y => y.1 == q).map fun y => ⟨y.2, n⟩ := by
  induction l generalizing k with
  | nil => simp
  | cons y l ih =>
    rw [List.foldl_cons, ih, Strand.fromQ_pushed, List.append_assoc, List.filter_cons]
    split <;> simp

/-- A word that takes no queue entry leaves the queues. -/
theorem takeEntries_none {x : VWord} (h : x.op.takes = none) (qs : Vector (List QEntry) 4) : takeEntries [x] qs = .ok ([], qs) := by
  simp [takeEntries, h]

/-- Where no result queue is full one word has room for what it pushes. -/
theorem lacksRoom_of_room (x : VWord) {k : Strand} (h : ∀ q : QNum, (k.fromQ q).length < 16) : lacksRoom [x] k = none := by
  have hroom : ∀ q : QNum, ¬ queueRoom < (k.fromQ q).length + ([x].filter fun x => x.op.pushes == some q).length := by
    intro q
    have hone : ([x].filter fun x => x.op.pushes == some q).length ≤ 1 := List.length_filter_le _ _
    have := h q
    simp only [queueRoom]
    omega
  unfold lacksRoom
  simp [hroom]

/-- A memory word with chain bit 0 goes by as a convoy of its own; it takes no queue entry and is no SETVL. -/
theorem exec_memWord {i : Instr} {s : State} {x : VWord} (hc : Claims.chained i = false) (hx : Claims.memWord s i = some x) :
    exec i s = .next (s.takeVector false x) ∧ x.op.plain = true ∧ x.op.takes = none := by
  cases i
  case vld v d m ch f | vldff v d m ch f q | vldsc v d m ch off | vst v d m ch f =>
    obtain rfl := Option.some.inj hx
    have hv : v.c = false := hc
    exact ⟨by rw [← hv]; rfl, rfl, rfl⟩
  case vlds v d m ch f b | vldx v d m ch f b | vsts v d m ch f b | vstx v d m ch f b | mldt v d m ch f b | mstt v d m ch f b =>
    obtain rfl := Option.some.inj hx
    have hv : v.c = false := hc
    exact ⟨by rw [← hv]; rfl, rfl, rfl⟩
  case vamo v op t ord d m off b =>
    obtain rfl := Option.some.inj hx
    have hv : v.c = false := hc
    exact ⟨by rw [← hv]; rfl, rfl, rfl⟩
  case mmerge c mk t part td m off =>
    obtain rfl := Option.some.inj hx
    cases c
    · exact ⟨rfl, rfl, rfl⟩
    · cases hc
  all_goals cases hx

/-- Once the last convoy of a strand has committed, the strand holds the registers of the run and what its words pushed. -/
theorem Run.commit_settled_me {r : Run} {p : Pend} {c : Convoy} (h : r.s.me.pend = [p]) :
    ((r.commit p c).onMe Strand.settle).me =
      { r.s.me.withFile r.c with
        fromVec := (r.pushes.foldl (Strand.pushed p.seq) (r.s.me.withFile r.c)).fromVec, pend := [], early := [], pops := [] } := by
  have hcommit : (r.commit p c).me = { r.pushes.foldl (Strand.pushed p.seq) (r.s.me.withFile r.c) with
      pend := (r.pushes.foldl (Strand.pushed p.seq) (r.s.me.withFile r.c)).pend.tail
      early := (r.pushes.foldl (Strand.pushed p.seq) (r.s.me.withFile r.c)).early ++ earlyOf p.seq c } := rfl
  rw [Strand.foldl_pushed_frame] at hcommit
  simp [Strand.settle, hcommit, Strand.withFile, h]

/-- Settles O43: the convoy of the lone word starts at once and commits; what its accesses leave of the strand and of the strands
that have no turn stands. -/
theorem vectorAccesses : Obligations.VectorAccesses := by
  intro i s x r hlone hchain hmem hroom hran hix
  obtain ⟨hexec, hplain, htakes⟩ := exec_memWord hchain hmem
  have hword := lone_word hlone hplain (takeEntries_none htakes _) (lacksRoom_of_room x hroom) hran hix
  have hkeeps := Run.anyWord_keepsMe ⟨s.loneStart x [] s.me.toVec, s.me.file, s.me.file, [], none, []⟩ (s.loneHow 0) x
  have haccess := Run.anyWord_accesses ⟨s.loneStart x [] s.me.toVec, s.me.file, s.me.file, [], none, []⟩ (s.loneHow 0) x
  rw [hran] at hkeeps haccess
  have hme : r.s.me = { (s.loneStart x [] s.me.toVec).me with dcache := r.s.me.dcache, share := r.s.me.share, older := r.s.me.older } :=
    hkeeps
  have hpend : r.s.me.pend = [s.loneItem x []] := by rw [hme]; rfl
  have ht := Run.commit_settled_me (c := s.loneConvoy x []) hpend
  generalize hu : (r.commit (s.loneItem x []) (s.loneConvoy x [])).onMe Strand.settle = u at hword ht
  refine ⟨u, by rw [hexec, hword], ?_, ?_, ?_, ?_, ?_, ?_, ?_, ?_, ?_, ?_, ?_, ?_, ?_, ?_⟩
  · rw [ht]; rfl
  iterate 4 subst hu; rfl
  · rw [ht, hme]; rfl
  · rw [ht]; rfl
  · rw [ht]; rfl
  · rw [ht, hme]; rfl
  · intro q
    have hfrom : u.me.fromQ q = (r.pushes.foldl (Strand.pushed (s.loneItem x []).seq) (r.s.me.withFile r.c)).fromQ q := by rw [ht]; rfl
    rw [hfrom, Strand.fromQ_foldl_pushed, hme]
    rfl
  · rw [ht]
  · rw [ht, hme]; rfl
  · rw [ht, hme]; rfl
  · subst hu; exact haccess.2

end Sys2Proof.Machine
end

section
/-! SUPPORT. Memory stays in canonical form under trap delivery, the lane grants, the queues and the launches. -/

namespace Sys2Proof.Machine

@[simp] theorem State.emit_mem (s : State) (w0 w1 w2 w3 : Word) : (s.emit w0 w1 w2 w3).mem = s.mem := by
  unfold State.emit; dsimp only; split <;> simp

@[simp] theorem State.emitStop_mem (s : State) (st : Stop) : (s.emitStop st).mem = s.mem := by
  unfold State.emitStop; split <;> simp

@[simp] theorem State.writeRecord_memOk {s : State} (h : s.memOk) (r : FaultRec) : (s.writeRecord r).memOk := by
  unfold State.writeRecord
  generalize r.bytes = l
  dsimp only
  exact State.memOk_of_mem (State.setHomeBytes_memOk l h _) rfl

@[simp] theorem State.postRecord_memOk {s : State} (h : s.memOk) (r : FaultRec) : (s.postRecord r).memOk := by
  unfold State.postRecord; split <;> simp [State.memOk, h]

@[simp] theorem State.park_memOk {s : State} (h : s.memOk) (st : Stop) (esc : Bool) (dest : Status) : (s.park st esc dest).memOk :=
  State.postRecord_memOk (State.memOk_of_mem h (State.onMe_mem ..)) _

@[simp] theorem State.takeStop_memOk {s : State} (h : s.memOk) (st : Stop) (esv : Vector Word 8) : (s.takeStop st esv).memOk := by
  unfold State.takeStop; dsimp only; (repeat' split) <;> simp [State.memOk, h]

@[simp] theorem State.takeBrk_memOk {s : State} (h : s.memOk) (pc : Word) : (s.takeBrk pc).memOk := by
  unfold State.takeBrk; exact State.memOk_of_mem (State.takeStop_memOk h _ _) (State.onMe_mem ..)

@[simp] theorem State.raise_memOk {s : State} (h : s.memOk) (st : Stop) : (s.raise st).memOk := by
  unfold State.raise; split <;> simp [State.memOk, h]

@[simp] theorem State.trapHere_memOk {s : State} (h : s.memOk) (c : Cause) (info : Word) : (s.trapHere c info).memOk := by
  unfold State.trapHere; simp [State.memOk, h]

@[simp] theorem State.faultHere_memOk {s : State} (h : s.memOk) (x : Hit) : (s.faultHere x).memOk := State.raise_memOk h _

@[simp] theorem State.beginWord_mem (s : State) (w : Word) : (s.beginWord w).mem = s.mem := rfl

@[simp] theorem State.mapStrands_mem (s : State) (f : Strand → Strand) : (s.mapStrands f).mem = s.mem := rfl

theorem State.focus_mem {s t : State} {p : Strand → Bool} (h : s.focus p = some t) : t.mem = s.mem := by
  unfold State.focus at h
  split at h
  · cases h; rfl
  · obtain ⟨x, -, rfl⟩ := Option.map_eq_some_iff.mp h; rfl

theorem State.getD_focus_mem (s : State) (p : Strand → Bool) : ((s.focus p).getD s).mem = s.mem := by
  cases h : s.focus p with
  | none => rfl
  | some t => exact State.focus_mem h

@[simp] theorem State.asStrand_mem (s : State) (p : Strand → Bool) {f : State → State} (hf : ∀ s, (f s).mem = s.mem) :
    (s.asStrand p f).mem = s.mem := by
  unfold State.asStrand
  split
  · rfl
  · next h => exact (State.getD_focus_mem ..).trans ((hf _).trans (State.focus_mem h))

/-- What keeps memory in canonical form keeps it so as another strand. -/
theorem State.asStrand_memOk {s : State} (h : s.memOk) (p : Strand → Bool) {f : State → State} (hf : ∀ {s}, s.memOk → (f s).memOk) :
    (s.asStrand p f).memOk := by
  unfold State.asStrand
  split
  · exact h
  · next g => exact State.memOk_of_mem (hf (State.memOk_of_mem h (State.focus_mem g))) (State.getD_focus_mem ..)

@[simp] theorem State.releaseLanes_mem (s : State) : (s.releaseLanes).mem = s.mem := rfl

@[simp] theorem State.renegotiate_mem (s : State) (vl w : Nat) : (s.renegotiate vl w).1.mem = s.mem := by
  unfold State.renegotiate; split <;> simp

@[simp] theorem State.joinFifo_mem (s : State) : (s.joinFifo).mem = s.mem := by
  unfold State.joinFifo; dsimp only; split <;> simp

@[simp] theorem State.leaveFifo_mem (s : State) : (s.leaveFifo).mem = s.mem := rfl

@[simp] theorem State.closeStrip_mem (s : State) (on : Bool) (pc : Word) (fin can : Bool) : (s.closeStrip on pc fin can).mem = s.mem := by
  unfold State.closeStrip; dsimp only; split <;> simp

@[simp] theorem State.openStrip_mem (s : State) (w : BitVec 2) (vl : Nat) : (s.openStrip w vl).mem = s.mem := rfl

@[simp] theorem State.addCounter_mem (s : State) (i : Nat) (n : BitVec 32) (can : Bool) : (s.addCounter i n can).mem = s.mem := rfl

@[simp] theorem State.addRel_mem (s : State) (v r : Nat) (n : BitVec 32) (can : Bool) : (s.addRel v r n can).mem = s.mem := by
  unfold State.addRel; split <;> simp

@[simp] theorem State.addCtx_mem (s : State) (c r : Nat) (n : BitVec 32) (can : Bool) : (s.addCtx c r n can).mem = s.mem := by
  unfold State.addCtx; simp

@[simp] theorem State.setLaunch_mem (s : State) (l : Launch) : (s.setLaunch l).mem = s.mem := rfl

@[simp] theorem State.holding_mem (s : State) (hold : Bool) (f : State → State) : (s.holding hold f).mem = (f s).mem := by
  unfold State.holding; dsimp only; split <;> rfl

@[simp] theorem State.retireLaunch_mem (s : State) (l : Launch) : (s.retireLaunch l).mem = s.mem := by
  unfold State.retireLaunch; simp

@[simp] theorem State.queueError_memOk {s : State} (h : s.memOk) (v q : Nat) (idx : BitVec 32) (code : Nat) :
    (s.queueError v q idx code).memOk := by
  unfold State.queueError; simp [State.memOk, State.setHomeBytes_memOk, h]

@[simp] theorem State.advanceHead_memOk {s : State} (h : s.memOk) (v q : Nat) : (s.advanceHead v q).memOk := by
  unfold State.advanceHead; simp [State.memOk, State.setHomeBytes_memOk, h]

@[simp] theorem State.acceptTail_mem (s : State) (v q : Nat) (t : BitVec 32) : (s.acceptTail v q t).mem = s.mem := rfl

@[simp] theorem State.notify_memOk {s : State} (h : s.memOk) (v q : Nat) (t : BitVec 32) : (s.notify v q t).memOk := by
  unfold State.notify; dsimp only; (repeat' split) <;> simp [State.memOk, h]

@[simp] theorem State.failEntry_memOk {s : State} (h : s.memOk) (v q : Nat) (x : Queue) (code : Nat) (done : Option (Nat × Nat)) :
    (s.failEntry v q x code done).memOk := by
  unfold State.failEntry; split <;> simp [State.memOk, h]

@[simp] theorem State.setLevel_mem (s : State) (c : Nat) (x : Levels) : (s.setLevel c x).mem = s.mem := rfl

@[simp] theorem State.openJob_mem (s : State) (c : Nat) : (s.openJob c).mem = s.mem := rfl

@[simp] theorem State.takeLaunch_memOk {s : State} (h : s.memOk) (v q : Nat) (x : Queue) (a : Nat) : (s.takeLaunch v q x a).memOk := by
  unfold State.takeLaunch; dsimp only; (repeat' split) <;> simp [State.memOk, h]

@[simp] theorem State.takeEntry_memOk {s : State} (h : s.memOk) (v q : Nat) (x : Queue) : (s.takeEntry v q x).memOk := by
  unfold State.takeEntry; dsimp only; (repeat' split) <;> simp [State.memOk, h]

@[simp] theorem State.take_memOk {s : State} (h : s.memOk) (v : Nat) (kinds : List Nat) : (s.take v kinds).memOk := by
  unfold State.take; (repeat' split) <;> simp [State.memOk, h]

@[simp] theorem State.applyEntry_mem (s : State) (v : Nat) (t : Taken) (lv : Option Bool) : (s.applyEntry v t lv).mem = s.mem := by
  unfold State.applyEntry; (repeat' split) <;> simp

@[simp] theorem State.retireTaken_memOk {s : State} (h : s.memOk) (v q : Nat) (lv : Option Bool) : (s.retireTaken v q lv).memOk := by
  unfold State.retireTaken; dsimp only; split <;> simp [State.memOk, h]

@[simp] theorem State.voidHead_memOk {s : State} (h : s.memOk) (v q : Nat) : (s.voidHead v q).memOk := by
  unfold State.voidHead; dsimp only; (repeat' split) <;> simp [State.memOk, h]

@[simp] theorem State.endSpan_mem (s : State) (v q : Nat) : (s.endSpan v q).mem = s.mem := rfl

theorem State.voidRun_memOk (v q : Nat) : ∀ (n : Nat) {s : State} (_ : s.memOk), (s.voidRun v q n).memOk
  | 0, _, h => h
  | n + 1, s, h => by
    unfold State.voidRun
    dsimp only
    split
    · exact h
    · next phase _ _ _ _ =>
      split
      · have retired := State.retireTaken_memOk h v q (some phase)
        refine State.voidRun_memOk v q n ?_
        split <;> simp [State.memOk, retired]
      · exact h
    · split
      · exact State.memOk_of_mem h (State.endSpan_mem ..)
      · exact State.voidRun_memOk v q n (State.voidHead_memOk h v q)

@[simp] theorem State.voidSpan_memOk {s : State} (h : s.memOk) (v q : Nat) : (s.voidSpan v q).memOk := State.voidRun_memOk v q _ h

@[simp] theorem State.cancelLaunches_mem (s : State) (lv : Level) (p : Launch → Bool) : (s.cancelLaunches lv p).mem = s.mem :=
  foldl_keeps State.retireLaunch_mem _ _

@[simp] theorem State.cancelWork_memOk {s : State} (h : s.memOk) (v c : Nat) (phase : Bool) : (s.cancelWork v c phase).memOk := by
  unfold State.cancelWork
  refine foldl_memOk (fun x h => State.voidSpan_memOk ?_ ..) _ ?_
  · exact State.memOk_of_mem h (State.setQueue_mem ..)
  · dsimp only
    (repeat' split) <;> simp [State.memOk, h]

@[simp] theorem State.cancel_memOk {s : State} (h : s.memOk) (v : Nat) (lv : Level) (c id : Nat) : (s.cancel v lv c id).memOk := by
  unfold State.cancel; dsimp only; (repeat' split) <;> simp [State.memOk, h]

@[simp] theorem State.dealAnswer_mem (s : State) : (s.dealAnswer).1.mem = s.mem := by
  unfold State.dealAnswer; dsimp only; (repeat' split) <;> simp

@[simp] theorem State.startStrand_mem (s : State) (v : Nat) : (s.startStrand v).mem = s.mem := by
  unfold State.startStrand
  split
  · rfl
  · dsimp only; split <;> simp [State.addStrand_mem]

@[simp] theorem State.chanterSees_mem (s : State) (r : Ref) (n : Nat) (fmt : Bool) : (s.chanterSees r n fmt).mem = s.mem := by
  unfold State.chanterSees; split <;> simp

end Sys2Proof.Machine
end

section
/-! SUPPORT. Memory stays in canonical form under the beats and the completions of the copy engines. -/

namespace Sys2Proof.Machine

@[simp] theorem State.updStrand_mem (s : State) (v i : Nat) (f : Strand → Strand) : (s.updStrand v i f).mem = s.mem := rfl

@[simp] theorem State.setXfer_mem (s : State) (x : Xfer) : (s.setXfer x).mem = s.mem := rfl

@[simp] theorem State.setShareByte_memOk {s : State} (h : s.memOk) (k : Strand) (off : Nat) (b : Byte) :
    (s.setShareByte k off b).memOk := by
  unfold State.setShareByte; split <;> simp [State.memOk, State.setHomeByte_memOk, -State.setHomeByte_mem, h]

@[simp] theorem State.setCuShareByte_memOk {s : State} (h : s.memOk) (x : Xfer) (off : Nat) (b : Byte) :
    (s.setCuShareByte x off b).memOk := by
  unfold State.setCuShareByte; (repeat' split) <;> simp [State.memOk, State.setHomeByte_memOk, -State.setHomeByte_mem, h]

@[simp] theorem State.pushAsync_memOk {s : State} (h : s.memOk) (k : Strand) (info : Word) : (s.pushAsync k info).memOk := by
  unfold State.pushAsync; dsimp only; (repeat' split) <;> simp [State.memOk, State.setHomeBytes_memOk, h]

@[simp] theorem State.reportXfer_memOk {s : State} (h : s.memOk) (x : Xfer) (info : Word) : (s.reportXfer x info).memOk := by
  unfold State.reportXfer; split <;> simp [State.memOk, h]

@[simp] theorem State.xferStop_mem (s : State) (x : Xfer) (wr : Bool) (e : Ref × Chk) : (s.xferStop x wr e).mem = s.mem := by
  unfold State.xferStop; split <;> simp

@[simp] theorem State.xferWrite_memOk {s : State} (h : s.memOk) (x : Xfer) (l : Loc) (b : Byte) : (s.xferWrite x l b).memOk := by
  unfold State.xferWrite; dsimp only; (repeat' split) <;> simp [State.memOk, State.setHomeByte_memOk, -State.setHomeByte_mem, h]

@[simp] theorem State.beatPoison_mem (s : State) (x : Xfer) (dst : List (Nat × Int)) (tainted : Bool) :
    (s.beatPoison x dst tainted).1.mem = s.mem := by
  unfold State.beatPoison
  induction dst generalizing s x with
  | nil => rfl
  | cons y l ih =>
    rw [List.foldl_cons, ih]
    split
    · simp
    · split <;> simp

@[simp] theorem State.landReg_mem (s : State) (x : Xfer) (l : List (Nat × Byte)) : (s.landReg x l).mem = s.mem := rfl

@[simp] theorem State.landShare_memOk {s : State} (h : s.memOk) (x : Xfer) (img : Nat) (l : List (Loc × Byte)) :
    (s.landShare x img l).memOk := by
  refine State.memOk_of_mem (foldl_memOk (fun y h => ?_) l h) (State.setXfer_mem ..)
  split
  · exact State.setShareByte_memOk h ..
  · exact h

@[simp] theorem State.landBeat_memOk {s : State} (h : s.memOk) (x : Xfer) (tainted : Bool) (l : List (Nat × Loc × Byte)) :
    (s.landBeat x tainted l).memOk := by
  have landed : ∀ (lines : List Nat) (cp : Nat),
      (lines.foldl (fun s line => s.fixZero x.vd line) (l.foldl (fun s y => s.xferWrite x y.2.1 y.2.2)
        (lines.foldl (fun s line => s.touchL2 x.vd line true cp) s))).memOk := fun lines cp =>
    State.memOk_of_mem (foldl_memOk (fun y h => State.xferWrite_memOk h ..) l
        (State.memOk_of_mem h (foldl_keeps (fun _ _ => State.touchL2_mem ..) lines s)))
      (foldl_keeps (fun _ _ => State.fixZero_mem ..) lines _)
  exact State.memOk_of_mem (landed _ _) ((State.setXfer_mem ..).trans (State.beatPoison_mem ..))

@[simp] theorem State.beat_memOk {s : State} (h : s.memOk) (x : Xfer) : (s.beat x).memOk := by
  have retried : (s.retryBy x.who).memOk := h
  unfold State.beat
  refine State.memOk_ite h ?_
  dsimp only
  generalize s.retryBy x.who = t at retried ⊢
  split
  · exact State.memOk_of_mem retried (State.xferStop_mem ..)
  split
  · exact State.memOk_of_mem retried (State.xferStop_mem ..)
  refine State.memOk_ite (State.memOk_of_mem retried (State.setXfer_mem ..)) ?_
  split
  · exact State.memOk_of_mem retried (State.keepWait_mem ..)
  next u ans e =>
  have read : u.memOk := State.memOk_of_mem retried ((congrArg (fun x => x.1.mem) e).symm.trans (State.askAll_mem ..))
  split
  · exact State.memOk_of_mem read (State.setXfer_mem ..)
  split
  · exact State.memOk_of_mem retried (State.keepWait_mem ..)
  next v acks e =>
  have written : v.memOk := State.memOk_of_mem read ((congrArg (fun x => x.1.mem) e).symm.trans (State.askAll_mem ..))
  split
  · exact State.memOk_of_mem written (State.setXfer_mem ..)
  have charged : ({ v.charge (.bellows x.cu) x.vd 1 with fresh := v.fresh + 1 } : State).memOk :=
    State.memOk_of_mem written (State.charge_mem ..)
  have touched := fun (l : List Nat) (cp : Nat) =>
    State.memOk_of_mem charged (foldl_keeps (f := fun s line => s.touchL2 x.vd line false cp) (fun _ _ => State.touchL2_mem ..) l _)
  refine State.memOk_ite (State.memOk_of_mem (touched _ _) (State.landReg_mem ..)) ?_
  exact State.memOk_ite (State.landShare_memOk (touched _ _) ..)
    (State.landBeat_memOk (touched _ _) ..)

@[simp] theorem State.setMaskBits_memOk {s : State} (h : s.memOk) (k : Strand) (m : MReg) (l : List Nat) (b : Bool) :
    (s.setMaskBits k m l b).memOk := by
  unfold State.setMaskBits
  split
  · exact foldl_memOk (fun e h => State.setHomeByte_memOk h _ _) l h
  · exact State.memOk_of_mem h (State.updStrand_mem ..)

@[simp] theorem State.chunkLanded_memOk {s : State} (h : s.memOk) (x : Xfer) : (s.chunkLanded x).memOk := by
  unfold State.chunkLanded; (repeat' split) <;> simp [State.memOk, h]

@[simp] theorem State.writeFlag_memOk {s : State} (h : s.memOk) (x : Xfer) (l : Loc) : (s.writeFlag x l).memOk := by
  unfold State.writeFlag
  generalize leBytes 8 x.flag = b
  cases l with
  | mem a =>
    have written := State.homeWrite_memOk h x.vd a b (s.xferDesc x (refPtr x.regs.flag 0).slot).cp
    dsimp only
    split
    · split
      · exact written
      · exact State.memOk_of_mem written (State.patchL1_mem ..)
    · exact written
  | share off => exact foldl_memOk (fun y h => State.xferWrite_memOk h ..) _ h
  | cushare off => exact foldl_memOk (fun y h => State.xferWrite_memOk h ..) _ h
  | peer i a => exact h

@[simp] theorem State.endXfer_memOk {s : State} (h : s.memOk) (x : Xfer) (info : Word) (flag : Option Loc) :
    (s.endXfer x info flag).memOk := by
  have noted : ∀ (k : Strand) (f g : Strand → Strand) (a : Nat) (l : List Byte) {t : State}, t.memOk →
      (if k.saved then (t.updStrand k.vd k.imgidx f).setHomeBytes a l else (t.updStrand k.vd k.imgidx f).updStrand k.vd k.imgidx g).memOk := by
    intro k f g a l t ht
    split
    · exact State.setHomeBytes_memOk l (State.memOk_of_mem ht (State.updStrand_mem ..)) a
    · exact State.memOk_of_mem ht ((State.updStrand_mem ..).trans (State.updStrand_mem ..))
  have flagged : ∀ {t : State}, t.memOk → (match flag with
      | some l => t.writeFlag x l
      | none => t).memOk := by
    intro t ht
    cases flag with
    | none => exact ht
    | some l => exact State.writeFlag_memOk ht x l
  unfold State.endXfer
  refine State.memOk_ite (flagged ?_) (State.reportXfer_memOk (flagged ?_) ..)
  all_goals
    split
    · exact noted _ _ _ _ _ h
    · exact h

@[simp] theorem State.flagFault_memOk {s : State} (h : s.memOk) (x : Xfer) (c : Cause) : (s.flagFault x c).memOk := by
  unfold State.flagFault; split <;> simp [State.memOk, h]

@[simp] theorem State.completeXfer_memOk {s : State} (h : s.memOk) (x : Xfer) : (s.completeXfer x).memOk := by
  have retried : (s.retryBy x.who).memOk := h
  unfold State.completeXfer
  refine State.memOk_ite h ?_
  dsimp only
  generalize s.retryBy x.who = t at retried ⊢
  split
  · exact State.flagFault_memOk retried x _
  · exact State.memOk_of_mem retried (State.xferStop_mem ..)
  · next i a _ =>
    have asked := t.askPeer_mem x.who i a (.write (leBytes 8 x.flag) 255)
    split
    · next e => rw [e] at asked; exact State.memOk_of_mem retried (State.keepWait_mem ..)
    · next e =>
      rw [e] at asked
      split
      · exact State.flagFault_memOk (State.memOk_of_mem retried asked) x _
      · exact State.endXfer_memOk (State.memOk_of_mem retried asked) x _ _
  · exact State.endXfer_memOk retried x _ _

@[simp] theorem State.cancelXfer_mem (s : State) (id : BitVec 16) : (s.cancelXfer id).mem = s.mem := rfl

end Sys2Proof.Machine
end

section
/-! SUPPORT. Memory stays in canonical form under convoys, the run-ahead buffer, the end of a strand, squashes and saves. -/

namespace Sys2Proof.Machine

/-- An answer leaves memory in canonical form. -/
def Ans.memOk : Ans α → Prop
  | .ok s _ => s.memOk
  | .fault s _ => s.memOk
  | .wait s => s.memOk

theorem Ans.memOk_ite {c : Prop} [Decidable c] {x y : Ans α} (hx : x.memOk) (hy : y.memOk) : Ans.memOk (if c then x else y) := by
  split <;> assumption

theorem Ans.accesses_memOk {s : State} {x : Ans α} (h : s.memOk) (g : x.accesses s) : x.memOk := by
  cases x <;> exact g.1 h

theorem Ans.then_memOk {x : Ans Unit} {f : State → Ans Unit} (h : x.memOk) (hf : ∀ {s}, s.memOk → (f s).memOk) : (x.then f).memOk := by
  cases x with
  | ok s a => exact hf h
  | fault s e => exact h
  | wait s => exact h

/-- The run of a convoy leaves memory in canonical form. -/
def Ran.memOk : Ran → Prop
  | .done r => r.s.memOk
  | .stop s _ _ _ => s.memOk
  | .wait s => s.memOk

theorem runWords_memOk {how : Nat → How} : ∀ {l : List (Nat × VWord)} {r r' : Run} {st st' : List (Nat × ElemStop)},
    runWords how l r st = .ok (r', st') → r.s.memOk → r'.s.memOk
  | [], r, r', st, st', e, h => by
    cases e; exact h
  | (i, x) :: l, r, r', st, st', e, h => by
    have g := Run.anyWord_accesses r { how i with dry := (how i).whole && !st.isEmpty } x
    unfold runWords at e
    split at e
    · cases e
    · next q => rw [q] at g; exact runWords_memOk e (g.1 h)

theorem State.runConvoy_memOk {s : State} (h : s.memOk) (c : Convoy) : (s.runConvoy c).memOk := by
  unfold State.runConvoy
  dsimp only
  split
  · exact h
  · next e =>
    have head := runWords_memOk e h
    split
    · split
      · exact h
      · next e =>
        have tail := runWords_memOk e head
        split
        · exact tail
        · split
          · exact h
          · next e => exact runWords_memOk e head
    · split
      · exact h
      · next e =>
        have again := runWords_memOk e h
        split <;> exact again

@[simp] theorem State.startHead_mem (s : State) (c : Convoy) : (s.startHead c).mem = s.mem := by
  unfold State.startHead; split <;> simp

@[simp] theorem Run.commit_mem (r : Run) (p : Pend) (c : Convoy) : (r.commit p c).mem = r.s.mem := rfl

@[simp] theorem State.stopFrom_memOk {s : State} (h : s.memOk) (n : Nat) (snap : Chanter) (st : Stop) (esv : Vector Word 8) :
    (s.stopFrom n snap st esv).memOk := by
  unfold State.stopFrom; simp [State.memOk, h]

@[simp] theorem State.runHead_memOk {s : State} (h : s.memOk) (p : Pend) (c : Convoy) : (s.runHead p c).memOk := by
  have ran := State.runConvoy_memOk h c
  unfold State.runHead
  split
  · next e => rw [e] at ran; exact ran
  · next e =>
    rw [e] at ran
    refine State.stopFrom_memOk ?_ _ _ _ _
    exact ran
  · next e =>
    rw [e] at ran
    dsimp only
    split
    · exact ran
    · refine State.stopFrom_memOk ?_ _ _ _ _
      exact ran

@[simp] theorem State.serveMine_mem (s : State) : (s.serveMine).mem = s.mem := by
  unfold State.serveMine; dsimp only; (repeat' split) <;> simp

theorem State.serveFifo_mem (cu : Nat) : ∀ (n : Nat) (s : State), (s.serveFifo cu n).mem = s.mem
  | 0, _ => rfl
  | n + 1, s => by
    unfold State.serveFifo
    split
    · rfl
    · have mine := fun p => State.asStrand_mem s p State.serveMine_mem
      exact iteInduction (motive := fun t : State => t.mem = s.mem) (fun _ => (State.serveFifo_mem cu n _).trans (mine _)) (fun _ => mine _)

@[simp] theorem State.serveLanes_mem (s : State) : s.serveLanes.mem = s.mem := State.serveFifo_mem ..

@[simp] theorem State.reachSetvl_mem (s : State) (p : Pend) (c : Convoy) (w : WTy) (vl : Nat) : (s.reachSetvl p c w vl).mem = s.mem := by
  unfold State.reachSetvl; dsimp only; (repeat' split) <;> simp

theorem State.doStore_memOk {s : State} (h : s.memOk) (r : Ref) (n : Nat) (fmt : Bool) (val : Word) (ch sc : BitVec 2) (rel sup vec : Bool) :
    (s.doStore r n fmt val ch sc rel sup vec).memOk := by
  unfold State.doStore
  refine Ans.then_memOk ?_ fun {t} ht => ?_
  · split
    · exact Ans.accesses_memOk h (State.releaseFor_accesses ..)
    · exact h
  · have stored := Ans.accesses_memOk ht (t.store_accesses r n fmt vec sup ch val.toNat)
    split
    · next e => rw [e] at stored; exact State.memOk_of_mem stored (State.chanterSees_mem ..)
    · next e => rw [e] at stored; exact stored
    · next e => rw [e] at stored; exact stored

theorem State.doZline_memOk {s : State} (h : s.memOk) (r : Ref) (sup vec : Bool) : (s.doZline r sup vec).memOk := by
  have probed := Ans.accesses_memOk h (s.probe_accesses wrOnly r 128 false vec sup)
  unfold State.doZline
  split
  · next e => rw [e] at probed; exact probed
  · next e => rw [e] at probed; exact probed
  · next t l d e =>
    rw [e] at probed
    have stored := Ans.accesses_memOk probed (t.storeLoc_accesses l r d 0 false vec (List.replicate 128 0))
    dsimp only
    refine Ans.then_memOk ?_ fun {t} ht => State.memOk_of_mem (t := t.chanterSees r 128 false) ht (State.chanterSees_mem ..)
    split
    · split
      · exact State.memOk_of_mem (State.zeroLine_memOk (State.flushLine_memOk probed ..) ..) (State.patchL1_mem ..)
      · exact Ans.then_memOk stored fun ht => State.settleWcb_memOk ht _
    · exact stored

theorem State.doCntinc_memOk {s : State} (h : s.memOk) (i : BitVec 16) (inc : BitVec 32) (vec : Bool) :
    (s.doCntinc i inc vec).memOk := by
  refine Ans.then_memOk (Ans.accesses_memOk h (s.release_accesses 2 vec)) fun {t} ht => ?_
  exact State.memOk_of_mem ht ((State.holding_mem ..).trans (State.addCounter_mem ..))

@[simp] theorem State.doCancel_memOk {s : State} (h : s.memOk) (lv : Level) (a : Word) : (s.doCancel lv a).memOk := by
  unfold State.doCancel; dsimp only; (repeat' split) <;> simp [State.memOk, h]

theorem State.doHeld_memOk {s : State} (h : s.memOk) (x : Held) (sup vec : Bool) : (s.doHeld x sup vec).memOk := by
  cases x with
  | word dst orders foot => exact h
  | store r n fmt val ch sc rel => exact State.doStore_memOk h ..
  | zline r w => exact State.doZline_memOk h ..
  | cntinc i inc => exact State.doCntinc_memOk h ..
  | cancel lv a => exact State.doCancel_memOk h ..
  | cpcancel id => exact State.memOk_of_mem h (State.cancelXfer_mem ..)

@[simp] theorem State.vecTurn_memOk {s : State} (h : s.memOk) : s.vecTurn.memOk := by
  have retried : (s.retrying true).memOk := h
  unfold State.vecTurn
  split
  · exact h
  · refine State.memOk_ite h ?_
    dsimp only
    generalize s.retrying true = t at retried ⊢
    split
    · exact retried
    · have done := fun x => State.doHeld_memOk retried x false true
      split
      · next e => exact (congrArg Ans.memOk e).mp (done _)
      · exact retried
      · next e => exact State.stopFrom_memOk ((congrArg Ans.memOk e).mp (done _)) _ _ _ _
    · refine State.memOk_ite (State.takeBrk_memOk (State.memOk_of_mem retried (State.onMe_mem ..)) _) ?_
      split
      · exact State.memOk_of_mem retried (State.reachSetvl_mem ..)
      · refine State.memOk_ite (State.runHead_memOk retried ..) ?_
        split
        · have started := fun c => State.memOk_of_mem retried (State.startHead_mem t c)
          split
          · exact State.runHead_memOk (started _) ..
          · exact started _
        · exact retried
        · exact retried
        · exact retried

theorem State.drainFor_memOk : ∀ (n : Nat) {s : State} (_ : s.memOk), (s.drainFor n).memOk
  | 0, _, h => h
  | n + 1, s, h => by
    unfold State.drainFor
    split
    · split
      · exact State.takeStop_memOk h ..
      · exact h
    · exact State.memOk_ite (State.drainFor_memOk n (State.vecTurn_memOk h)) (State.vecTurn_memOk h)

@[simp] theorem State.drain_memOk {s : State} (h : s.memOk) : s.drain.memOk := by
  unfold State.drain
  exact State.memOk_ite h (State.drainFor_memOk _ h)

theorem State.holdWith_memOk {s : State} (h : s.memOk) (x : Held) (word : Word) (sup : Bool) {f : State → State}
    (hf : ∀ {s}, s.memOk → (f s).memOk) : (s.holdWith x word sup f).memOk := by
  have done := State.doHeld_memOk h x sup false
  unfold State.holdWith
  refine State.memOk_ite ?_ ?_
  · split
    · next e => rw [e] at done; exact State.memOk_of_mem (hf done) (State.next_mem _)
    · next e => rw [e] at done; exact State.faultHere_memOk done _
    · exact h
  · exact State.memOk_ite h
      (State.drain_memOk (State.memOk_of_mem (hf h) rfl))

@[simp] theorem State.hold_memOk {s : State} (h : s.memOk) (x : Held) (word : Word) (sup : Bool) : (s.hold x word sup).memOk :=
  State.holdWith_memOk h x word sup id

@[simp] theorem State.whenIdle_memOk {s : State} (h : s.memOk) {f : State → State} (hf : (f s).memOk) : (s.whenIdle f).memOk := by
  unfold State.whenIdle; exact State.memOk_ite hf h

theorem State.heldWord_memOk {s : State} (h : s.memOk) (word : Word) (dst : List SReg) (orders : Bool) (foot : Option (Ref × Nat))
    {f : State → State} (hf : (f s).memOk) : (s.heldWord word dst orders foot f).memOk := by
  unfold State.heldWord
  refine State.memOk_ite hf ?_
  exact State.memOk_ite h (State.drain_memOk (State.memOk_of_mem h rfl))

@[simp] theorem State.trapHead_memOk {s : State} (h : s.memOk) (c : Cause) (info : Word) : (s.trapHead c info).memOk := by
  unfold State.trapHead; simp [State.memOk, h]

@[simp] theorem State.pushConvoy_memOk {s : State} (h : s.memOk) (pc : Word) (c : Chanter) (ws : List VWord) :
    (s.pushConvoy pc c ws).memOk := by
  unfold State.pushConvoy; split <;> simp [State.memOk, h]

@[simp] theorem State.takeVector_memOk {s : State} (h : s.memOk) (c : Bool) (x : VWord) : (s.takeVector c x).memOk := by
  unfold State.takeVector; dsimp only; (repeat' split) <;> simp [State.memOk, h]

@[simp] theorem State.leaveCu_mem (s : State) : (s.leaveCu).mem = s.mem := rfl

@[simp] theorem State.dropCuShare_mem (s : State) : (s.dropCuShare).mem = s.mem := by
  unfold State.dropCuShare; dsimp only; split <;> simp

@[simp] theorem State.freeSplit_mem (s : State) (cu : Nat) : (s.freeSplit cu).mem = s.mem := by
  unfold State.freeSplit; split <;> simp

@[simp] theorem State.noteHold_mem (s : State) : (s.noteHold).mem = s.mem := by
  unfold State.noteHold; split <;> simp

@[simp] theorem State.countEnd_mem (s : State) (k : Strand) (can : Bool) : (s.countEnd k can).mem = s.mem := by
  unfold State.countEnd
  rw [State.holding_mem]
  split <;> simp

@[simp] theorem State.endStrand_mem (s : State) : (s.endStrand).mem = s.mem := by
  unfold State.endStrand; simp

theorem State.closing_memOk {s : State} (h : s.memOk) : s.closing.memOk := by
  unfold State.closing
  generalize hc : s.closeStrip (s.me.ch.trctl.getLsbD 0) s.me.ch.pc true s.me.cancelled.isSome = t
  have closed : t.memOk := State.memOk_of_mem h (by rw [← hc, State.closeStrip_mem])
  have released := Ans.accesses_memOk closed (t.release_accesses 2 false)
  dsimp only
  split
  · next e => rw [e] at released; split <;> exact released
  · exact released

@[simp] theorem State.tryEnd_memOk {s : State} (h : s.memOk) : s.tryEnd.memOk := by
  have closed := State.closing_memOk h
  unfold State.tryEnd
  split
  · next e => rw [e] at closed; exact State.memOk_of_mem closed (State.endStrand_mem _)
  · next e => rw [e] at closed; exact closed
  · next e => rw [e] at closed; exact closed

@[simp] theorem State.endByCancel_mem (s : State) : (s.endByCancel).mem = s.mem := rfl

@[simp] theorem State.saveQueue_memOk {s : State} (h : s.memOk) (a : Nat) (l : List Word) (skip : Nat) : (s.saveQueue a l skip).memOk :=
  State.setHomeBytes_memOk _ (foldl_memOk (fun _ h => State.setHomeBytes_memOk _ h _) _ (State.makeFog_memOk h ..)) _

@[simp] theorem State.saveEager_memOk {s : State} (h : s.memOk) (a : Nat) : (s.saveEager a).memOk := by
  unfold State.saveEager
  refine foldl_memOk (fun _ h => State.setHomeBytes_memOk _ h _) _ ?_
  refine foldl_memOk (fun _ h => State.setHomeBytes_memOk _ h _) _ ?_
  refine foldl_memOk (fun _ h => State.setHomeBytes_memOk _ h _) _ ?_
  refine State.setHomeBytes_memOk _ ?_ _
  refine foldl_memOk (fun _ h => State.setHomeBytes_memOk _ h _) _ ?_
  refine foldl_memOk (fun _ h => State.saveQueue_memOk (State.saveQueue_memOk h ..) ..) _ ?_
  refine foldl_memOk (fun _ h => State.setHomeBytes_memOk _ h _) _ ?_
  exact State.setHomeBytes_memOk _ (State.setHomeBytes_memOk _ (State.setHomeBytes_memOk _ h _) _) _

@[simp] theorem State.saveRegLines_memOk {s : State} (h : s.memOk) (a i : Nat) (b : List Byte) : (s.saveRegLines a i b).memOk := by
  unfold State.saveRegLines
  exact State.memOk_ite (State.setHomeBytes_memOk b h a)
    (foldl_memOk (fun _ h => State.setHomeBytes_memOk _ h _) _ h)

@[simp] theorem State.saveLines_memOk {s : State} (h : s.memOk) (a : Nat) : (s.saveLines a).memOk := by
  unfold State.saveLines
  refine foldl_memOk (fun _ h => State.saveRegLines_memOk h ..) _ ?_
  exact foldl_memOk (fun _ h => State.saveRegLines_memOk h ..) _ h

@[simp] theorem State.saveShare_memOk {s : State} (h : s.memOk) (a : Nat) : (s.saveShare a).memOk := State.setHomeBytes_memOk _ h _

@[simp] theorem State.dropStrand_mem (s : State) : (s.dropStrand).mem = s.mem := by
  unfold State.dropStrand; dsimp only; split <;> simp

@[simp] theorem State.dropStrands_mem (c : Nat) : ∀ (n : Nat) (s : State), (s.dropStrands c n).mem = s.mem
  | 0, _ => rfl
  | n + 1, s => by
    unfold State.dropStrands
    split
    · next h =>
      refine (State.dropStrands_mem c n _).trans (Eq.trans ?_ (State.focus_mem h))
      split
      · split <;> simp
      · simp
    · rfl

@[simp] theorem State.dropTraffic_mem (s : State) (c : Nat) : (s.dropTraffic c).mem = s.mem := rfl

@[simp] theorem State.kill_memOk {s : State} (h : s.memOk) (c : Nat) : (s.kill c).memOk := by
  unfold State.kill; simp [State.memOk, State.setHomeBytes_memOk, h]

@[simp] theorem State.killFor_memOk {s : State} (h : s.memOk) (c : Nat) : (s.killFor c).memOk := by
  unfold State.killFor; split <;> simp [State.memOk, h]

@[simp] theorem State.amoLands_memOk {s : State} (h : s.memOk) (ans : PeerAns) : (s.amoLands ans).memOk := by
  unfold State.amoLands; (repeat' split) <;> simp [State.memOk, State.setHomeBytes_memOk, h]

@[simp] theorem State.cutCopies_mem (s : State) : s.cutCopies.mem = s.mem := by
  unfold State.cutCopies; dsimp only; rw [foldl_keeps (g := State.mem)]; intro s x; rfl

@[simp] theorem State.rollbackForSquash_mem (s : State) : (s.rollbackForSquash).mem = s.mem := by
  unfold State.rollbackForSquash; dsimp only; (repeat' split) <;> simp

@[simp] theorem State.dropGone_mem (s : State) : (s.dropGone).mem = s.mem := rfl

@[simp] theorem State.finishSquash_memOk {s : State} (h : s.memOk) : (s.finishSquash).memOk := by
  unfold State.finishSquash; dsimp only; (repeat' split) <;> simp [State.memOk, h]

@[simp] theorem State.squashTurn_memOk {s : State} (h : s.memOk) : (s.squashTurn).memOk := by
  unfold State.squashTurn; dsimp only; (repeat' split) <;> simp [State.memOk, h]

@[simp] theorem State.squash_memOk {s : State} (h : s.memOk) (now : Bool) : (s.squash now).memOk := by
  unfold State.squash; dsimp only; split <;> simp [State.memOk, h]

@[simp] theorem State.copied_mem (s : State) (a n : Nat) : (s.copied a n).mem = s.mem :=
  (State.hostPut_mem ..).trans (foldl_keeps (fun _ _ => by simp) _ _)

@[simp] theorem State.fetched_mem (s : State) (a n : Nat) : (s.fetched a n).mem = s.mem :=
  (State.hostGet_mem ..).trans (foldl_keeps (fun _ _ => by simp) _ _)

@[simp] theorem State.saveStrand_memOk {s : State} (h : s.memOk) : s.saveStrand.memOk := by
  have saved := fun a => State.saveShare_memOk (State.saveEager_memOk (State.saveLines_memOk h a) a) a
  unfold State.saveStrand
  exact State.memOk_of_mem (saved _) ((State.freeSplit_mem ..).trans
    ((foldl_keeps (fun _ _ => State.setPoison_mem ..) _ _).trans (State.copied_mem ..)))

@[simp] theorem State.showImage_memOk {s : State} (h : s.memOk) (a n : Nat) : (s.showImage a n).memOk := by
  have lines : ∀ (c : Prop) [Decidable c] (b : Nat) {t : State}, t.memOk → (if c then t.saveLines b else t).memOk :=
    fun c _ b _ h => State.memOk_ite (State.saveLines_memOk h b) h
  have eager : ∀ (c : Prop) [Decidable c] (b : Nat) {t : State}, t.memOk → (if c then t.saveEager b else t).memOk :=
    fun c _ b _ h => State.memOk_ite (State.saveEager_memOk h b) h
  have shown := fun c d [Decidable c] [Decidable d] b => eager d b (lines c b h)
  unfold State.showImage
  exact State.memOk_ite (State.saveShare_memOk (shown _ _ _) _) (shown _ _ _)

@[simp] theorem State.takeImage_mem (s : State) (a n : Nat) : (s.takeImage a n).mem = s.mem := rfl

@[simp] theorem State.resumeCopies_mem (s : State) : (s.resumeCopies).mem = s.mem := rfl

@[simp] theorem State.endDiversion_mem (s : State) (k : Strand) : (s.endDiversion k).mem = s.mem := rfl

@[simp] theorem State.restoreCuShare_mem (s : State) (k : Strand) (cu : Nat) : (s.restoreCuShare k cu).mem = s.mem := by
  unfold State.restoreCuShare; (repeat' split) <;> simp

@[simp] theorem State.restore_mem (s : State) (cu : Nat) (split : Nat) : (s.restore cu split).mem = s.mem := by
  unfold State.restore; dsimp only; split <;> simp

@[simp] theorem State.unmute_mem (s : State) : (s.unmute).mem = s.mem := by
  unfold State.unmute; dsimp only; split <;> simp

@[simp] theorem State.fillLine_mem (s : State) (i : Nat) : (s.fillLine i).mem = s.mem := by
  unfold State.fillLine; split <;> simp

end Sys2Proof.Machine
end

section
/-! SUPPORT. Memory stays in canonical form under the operations that scalar words share. -/

namespace Sys2Proof.Machine

@[simp] theorem State.transfer_memOk {s : State} (h : s.memOk) (t : Word) {f : State → State} (hf : (f s).memOk) :
    (s.transfer t f).memOk := by
  unfold State.transfer
  exact State.memOk_ite (State.trapHere_memOk h ..) hf

@[simp] theorem State.branch_memOk {s : State} (h : s.memOk) (taken : Bool) (disp : BitVec 32) : (s.branch taken disp).memOk := by
  unfold State.branch; split <;> simp [State.memOk, h]

@[simp] theorem State.jumpReg_memOk {s : State} (h : s.memOk) (t : Word) {f : State → State} (hf : (f s).memOk) :
    (s.jumpReg t f).memOk := by
  unfold State.jumpReg
  exact State.memOk_ite (State.trapHere_memOk h ..) (State.transfer_memOk h _ hf)

@[simp] theorem State.skipTo_mem (s : State) (t : Word) : (s.skipTo t).mem = s.mem := rfl

@[simp] theorem State.loop_memOk {s : State} (h : s.memOk) (n : BitVec 1) (cnt : BitVec 32) (disp : BitVec 32) :
    (s.loop n cnt disp).memOk := by
  unfold State.loop; (repeat' split) <;> simp [State.memOk, h]

@[simp] theorem State.seeDone_memOk {s : State} (h : s.memOk) (n : BitVec 2) : (s.seeDone n).memOk := by
  unfold State.seeDone; dsimp only; split <;> simp [State.memOk, h]

@[simp] theorem State.setCreg_memOk {s : State} (h : s.memOk) (r : CReg) (x word : Word) : (s.setCreg r x word).memOk := by
  unfold State.setCreg
  refine State.memOk_ite (State.trapHere_memOk h ..) ?_
  split
  · exact State.memOk_ite (State.trapHere_memOk h ..) (State.whenIdle_memOk h h)
  · exact State.whenIdle_memOk h h
  · exact State.whenIdle_memOk h h
  · exact h

@[simp] theorem State.launchCopy_memOk {s : State} (h : s.memOk) (d : SReg) (c : BitVec 2) : (s.launchCopy d c).memOk := by
  unfold State.launchCopy; dsimp only; split <;> simp [State.memOk, h]

theorem State.afterRelease_memOk {s : State} (h : s.memOk) (scope : Nat) {f : State → State} (hf : ∀ {s}, s.memOk → (f s).memOk) :
    (s.afterRelease scope f).memOk := by
  have released := Ans.accesses_memOk h (s.release_accesses scope false)
  unfold State.afterRelease
  split
  · next e => rw [e] at released; exact hf released
  · next e => rw [e] at released; exact State.faultHere_memOk released _
  · exact h

@[simp] theorem State.unlessCancelled_memOk {s : State} (h : s.memOk) {f : State → State} (hf : (f s).memOk) : (s.unlessCancelled f).memOk := by
  unfold State.unlessCancelled
  exact State.memOk_ite (State.memOk_of_mem h (State.endByCancel_mem s)) hf

@[simp] theorem State.wake_mem (s : State) : (s.wake).mem = s.mem := rfl

@[simp] theorem State.watch_mem (s : State) (w : Watch) (why : Wait) : (s.watch w why).mem = s.mem := rfl

@[simp] theorem State.blockOn_memOk {s : State} (h : s.memOk) (w : Wait) (q : Nat) : (s.blockOn w q).memOk := by
  unfold State.blockOn; (repeat' split) <;> simp [State.memOk, h]

@[simp] theorem State.privileged_memOk {s : State} (h : s.memOk) (word : Word) {f : State → State} (hf : (f s).memOk) :
    (s.privileged word f).memOk := by
  unfold State.privileged
  exact State.memOk_ite (State.whenIdle_memOk h hf) (State.trapHere_memOk h ..)

@[simp] theorem State.setSlotState_memOk {s : State} (h : s.memOk) (c slot : Nat) (st : BitVec 3) : (s.setSlotState c slot st).memOk := by
  unfold State.setSlotState; simp [State.memOk, State.homeWrite_memOk, h]

@[simp] theorem State.invalidate_mem (s : State) (p : Nat → Bool) (first last : Nat) : (s.invalidate p first last).mem = s.mem := by
  unfold State.invalidate; dsimp only; rw [foldl_keeps (g := State.mem)]
  · rfl
  · intro s k; rfl

@[simp] theorem State.flushContexts_memOk {s : State} (h : s.memOk) (p : Nat → Bool) : (s.flushContexts p).memOk :=
  foldl_memOk (fun c h => State.drainWcb_memOk h c.1) _ h

theorem State.loadWith_memOk {s : State} (h : s.memOk) (d : SReg) (r : Ref) (n : Nat) (fmt : Bool) (ch : BitVec 2)
    (wide : Desc → List Byte → Word) {f : State → State} (hf : ∀ {s}, s.memOk → (f s).memOk) :
    (s.loadWith d r n fmt ch wide f).memOk := by
  have loaded := Ans.accesses_memOk h (s.load_accesses r n fmt false s.supWatch ch)
  unfold State.loadWith
  refine State.memOk_ite h ?_
  split
  · next t _ _ e =>
    rw [e] at loaded
    exact State.memOk_of_mem (hf (State.memOk_of_mem loaded (State.chanterSees_mem t r n fmt))) rfl
  · next e => rw [e] at loaded; exact State.faultHere_memOk loaded _
  · exact h

@[simp] theorem State.scalarLoad_memOk {s : State} (h : s.memOk) (d : SReg) (r : Ref) (n : Nat) (fmt : Bool) (ch : BitVec 2)
    (wide : Desc → List Byte → Word) : (s.scalarLoad d r n fmt ch wide).memOk := State.loadWith_memOk h d r n fmt ch wide id

@[simp] theorem State.scalarAmo_memOk {s : State} (h : s.memOk) (op : AmoOp) (t : AmoTy) (ord : BitVec 2) (d : SReg) (r : Ref)
    (sc : BitVec 2) (b : SReg) : (s.scalarAmo op t ord d r sc b).memOk := by
  have released : Ans.memOk (if ord.getLsbD 1 then s.releaseFor r sc false else Ans.ok s ()) :=
    Ans.memOk_ite (Ans.accesses_memOk h (State.releaseFor_accesses ..)) h
  unfold State.scalarAmo
  split
  · next e => rw [e] at released; exact State.faultHere_memOk released _
  · exact h
  · next u _ e =>
    rw [e] at released
    have done := Ans.accesses_memOk released (u.amo_accesses r op t false s.supWatch (s.sreg b).toNat (s.sreg d).toNat)
    split
    · next v _ e =>
      rw [e] at done
      have acquired : (if ord.getLsbD 0 then v.acquire else v).memOk := State.memOk_ite done done
      exact State.memOk_of_mem acquired (State.chanterSees_mem ..)
    · next e => rw [e] at done; exact State.faultHere_memOk done _
    · exact h

@[simp] theorem State.prefetch_mem (s : State) (r : Ref) (ch : BitVec 2) : (s.prefetch r ch).mem = s.mem := by
  unfold State.prefetch; dsimp only; (repeat' split) <;> simp

@[simp] theorem State.fenced_mem (s : State) (k : FenceKind) : (s.fenced k).mem = s.mem := by
  unfold State.fenced; split <;> simp

@[simp] theorem State.fence_memOk {s : State} (h : s.memOk) (k : FenceKind) (sc : BitVec 2) : (s.fence k sc).memOk := by
  unfold State.fence
  refine State.memOk_ite h ?_
  exact State.memOk_ite (State.afterRelease_memOk h _ fun {t} ht => State.memOk_of_mem ht (State.fenced_mem t k))
    (State.memOk_of_mem h (State.fenced_mem s k))

theorem State.watchRead_memOk {s : State} (h : s.memOk) (r : Ref) (n : Nat) : (s.watchRead r n).memOk := by
  have retried : (s.retrying false).memOk := h
  have probed := Ans.accesses_memOk retried ((s.retrying false).probe_accesses rdOnly r n false false s.supWatch)
  unfold State.watchRead
  refine Ans.memOk_ite h ?_
  split
  · next e => rw [e] at probed; exact probed
  · next e => rw [e] at probed; exact probed
  · next t l d e =>
    rw [e] at probed
    split
    · next i a =>
      have called := Ans.accesses_memOk probed (t.callPeer_accesses false i a (.read n) r d false)
      split <;> (next e => rw [e] at called; exact called)
    · exact State.homeLoc_memOk probed ..

@[simp] theorem State.waitaDone_memOk {s : State} (h : s.memOk) (d : SReg) (x : Word) : (s.waitaDone d x).memOk := by
  unfold State.waitaDone; simp [State.memOk, h]

@[simp] theorem State.waita_memOk {s : State} (h : s.memOk) (t : AmoTy) (d : SReg) (r : Ref) (b : SReg) : (s.waita t d r b).memOk := by
  have read := State.watchRead_memOk h r (amoBytes t)
  unfold State.waita
  split
  · exact State.waitaDone_memOk h ..
  · split
    · next u _ e => rw [e] at read; exact State.faultHere_memOk (State.memOk_of_mem read (State.wake_mem u)) _
    · split <;> exact h
    · next e =>
      rw [e] at read
      dsimp only
      refine State.memOk_ite (State.waitaDone_memOk read ..) ?_
      exact State.memOk_ite read read

@[simp] theorem State.cpwait_memOk {s : State} (h : s.memOk) (d : SReg) (id : BitVec 16) : (s.cpwait d id).memOk := by
  unfold State.cpwait; (repeat' split) <;> simp [State.memOk, h]

@[simp] theorem State.doHalf_mem (s : State) (h : Half) (x y : Word) : (s.doHalf h x y).mem = s.mem := by
  unfold State.doHalf; (repeat' split) <;> simp

@[simp] theorem State.pair_memOk {s : State} (h : s.memOk) (h0 h1 : Half) (word : Word) : (s.pair h0 h1 word).memOk := by
  have half : ∀ {t : State}, t.memOk → ∀ (k : Half) (x y : Word), (t.doHalf k x y).memOk :=
    fun {t} ht k x y => State.memOk_of_mem ht (t.doHalf_mem k x y)
  have branched : ∀ (c : Bool) (w : Word) (x y : Word),
      (if c then s.transfer w fun t => (t.doHalf h0 x y).jump w else (s.doHalf h0 x y).next).memOk := fun c w x y =>
    State.memOk_ite (State.transfer_memOk h w (half h h0 x y)) (half h h0 x y)
  unfold State.pair
  split
  · exact State.blockOn_memOk h ..
  · dsimp only
    split
    · exact State.drain_memOk (State.loadWith_memOk h _ _ _ _ _ _ fun ht => half ht _ _ _)
    · exact State.drain_memOk (State.loadWith_memOk h _ _ _ _ _ _ fun ht => half ht _ _ _)
    · exact State.drain_memOk (State.holdWith_memOk h _ _ _ fun ht => half ht _ _ _)
    · exact State.drain_memOk (State.holdWith_memOk h _ _ _ fun ht => half ht _ _ _)
    · exact State.drain_memOk (branched _ _ _ _)
    · exact State.drain_memOk (branched _ _ _ _)
    · exact State.drain_memOk (half (half h _ _ _) _ _ _)

@[simp] theorem State.pairOf_memOk {s : State} (h : s.memOk) (i : Instr) : (s.pairOf i).memOk := by
  unfold State.pairOf; split <;> simp [State.memOk, h]

end Sys2Proof.Machine
end

section
/-! SUPPORT. Memory stays in canonical form under what comes from outside: inbound requests, heat, links, boot. -/

namespace Sys2Proof.Machine

@[simp] theorem State.setRegField_mem (s : State) (a lo w v : Nat) : (s.setRegField a lo w v).mem = s.mem := rfl

@[simp] theorem State.addReg_mem (s : State) (a w n : Nat) : (s.addReg a w n).mem = s.mem := rfl

@[simp] theorem State.uncorrectable_mem (s : State) (k line : Nat) : (s.uncorrectable k line).mem = s.mem := by
  unfold State.uncorrectable; simp

@[simp] theorem State.readCodeWord_memOk {s : State} (h : s.memOk) (a n : Nat) : (s.readCodeWord a n).memOk := by
  unfold State.readCodeWord
  split
  · exact h
  · dsimp only
    refine State.memOk_ite h ?_
    refine State.memOk_ite (State.memOk_of_mem h (State.countReg_mem ..)) ?_
    exact State.memOk_ite (State.memOk_of_mem h (State.uncorrectable_mem ..))
      (State.makeFog_memOk (State.memOk_of_mem h rfl) _ _)

@[simp] theorem State.setStackState_mem (s : State) (k x : Nat) : (s.setStackState k x).mem = s.mem := rfl

@[simp] theorem State.ioRead_mem (s : State) (m a n : Nat) : (s.ioRead m a n).1.mem = s.mem :=
  foldl_keeps (fun _ _ => by simp) _ _

@[simp] theorem State.dmaWrite_memOk {s : State} (h : s.memOk) (a : Nat) (bytes : List Byte) (ep : Bool) :
    (s.dmaWrite a bytes ep).memOk := by
  unfold State.dmaWrite
  refine foldl_memOk (fun line ht => ?_) _ (State.ioWrite_memOk h 73 a bytes _)
  split
  · exact State.memOk_of_mem ht (State.setPoison_mem ..)
  · split
    · exact State.memOk_of_mem ht (State.setPoison_mem ..)
    · exact ht

@[simp] theorem State.ioAtomic_memOk {s : State} (h : s.memOk) (m a : Nat) (op : AmoOp) (t : AmoTy) (y c : Nat) :
    (s.ioAtomic m a op t y c).1.memOk := by
  have read := State.memOk_of_mem h (State.ioRead_mem s m a (amoBytes t))
  unfold State.ioAtomic
  dsimp only
  split
  · exact State.ioWrite_memOk read m a _ _
  · exact read

@[simp] theorem State.refuse_mem (s : State) (m : Nat) : (s.refuse m).mem = s.mem := by
  unfold State.refuse; (repeat' split) <;> simp

theorem State.throughImages_memOk {s : State} (h : s.memOk) (r : InReq) {f : State → State} (hf : ∀ {s}, s.memOk → (f s).memOk) :
    (s.throughImages r f).memOk := by
  have each : ∀ {g : State → State}, (∀ {s}, s.memOk → (g s).memOk) → ∀ (l : List (Nat × Nat)) {t : State}, t.memOk →
      (l.foldl (fun s x => s.asStrand (fun k => k.is x.1 x.2) g) t).memOk := fun hg l _ ht =>
    foldl_memOk (fun _ hu => State.asStrand_memOk hu _ hg) l ht
  have shown := fun l => hf (each (fun ht => State.showImage_memOk ht r.addr r.op.size) l h)
  unfold State.throughImages
  exact State.memOk_ite (each (fun {t} ht => State.memOk_of_mem ht (t.takeImage_mem r.addr r.op.size)) _ (shown _)) (shown _)

@[simp] theorem State.perform_memOk {s : State} (h : s.memOk) (r : InReq) : (s.perform r).memOk := by
  unfold State.perform
  dsimp only
  split
  · exact State.memOk_ite h (State.memOk_of_mem h (State.ioRead_mem ..))
  · next b en _ =>
    refine State.memOk_ite (State.dmaWrite_memOk h ..) ?_
    exact State.memOk_ite (State.ioWrite_memOk h ..) (State.ioWrite_memOk h ..)
  · exact State.memOk_ite h (State.ioAtomic_memOk h ..)

@[simp] theorem State.serve_memOk {s : State} (h : s.memOk) (r : InReq) : (s.serve r).memOk := by
  unfold State.serve
  exact State.memOk_ite (State.throughImages_memOk h r fun ht => State.perform_memOk ht r)
    (State.perform_memOk h r)

@[simp] theorem State.inbound_memOk {s : State} (h : s.memOk) (r : InReq) : (s.inbound r).memOk := by
  unfold State.inbound; (repeat' split) <;> simp [State.memOk, h]

theorem State.serveInbound_memOk : ∀ (n : Nat) {s : State} (_ : s.memOk), (s.serveInbound n).memOk
  | 0, _, h => h
  | n + 1, s, h => by
    unfold State.serveInbound
    split
    · next w r _ =>
      have dropped : ({ s with replay := s.replay.erase w } : State).memOk := h
      refine State.serveInbound_memOk n (State.memOk_ite ?_ ?_)
      · exact State.memOk_of_mem dropped (State.refuse_mem ..)
      · split
        · exact h
        · exact State.serve_memOk dropped r
    · exact h

@[simp] theorem State.letGo_memOk {s : State} (h : s.memOk) (p : Waiting → Bool) : (s.letGo p).memOk :=
  State.serveInbound_memOk _ (State.memOk_of_mem h rfl)

@[simp] theorem State.leaveCritical_memOk {s : State} (h : s.memOk) (k : Nat) : (s.leaveCritical k).memOk := by
  unfold State.leaveCritical; simp [State.memOk, h]

@[simp] theorem State.coolState_mem (s : State) (k : Nat) (warm : Bool) : (s.coolState k warm).mem = s.mem := by
  unfold State.coolState; dsimp only; split <;> simp

@[simp] theorem State.writeStktherm_mem (s : State) (k x : Nat) : (s.writeStktherm k x).mem = s.mem := by
  unfold State.writeStktherm; dsimp only; split <;> simp

@[simp] theorem State.writeThermwait_mem (s : State) (x : Nat) : (s.writeThermwait x).mem = s.mem := rfl

@[simp] theorem State.thermalStop_memOk {s : State} (h : s.memOk) (w : Waiting) : (s.thermalStop w).memOk := by
  refine State.asStrand_memOk h _ fun ht => ?_
  dsimp only
  split
  · exact State.stopFrom_memOk (State.memOk_of_mem ht (State.onMe_mem ..)) ..
  · exact State.stopFrom_memOk ht ..
  · exact State.raise_memOk ht _

@[simp] theorem State.rootRequest_memOk {s : State} (h : s.memOk) (r : InReq) : (s.rootRequest r).memOk := by
  unfold State.rootRequest; dsimp only; (repeat' split) <;> simp [State.memOk, h]

@[simp] theorem State.forPeer_memOk {s : State} (h : s.memOk) (addr : Nat) (op : MemOp) (lease : Option (Nat × Nat)) :
    (s.forPeer addr op lease).memOk := by
  unfold State.forPeer; split <;> simp [State.memOk, h]

@[simp] theorem State.setLink_mem (s : State) (p state width lanes : Nat) : (s.setLink p state width lanes).mem = s.mem := rfl

@[simp] theorem State.transmit_mem (s : State) (p : Nat) (r : PeerReq) : (s.transmit p r).mem = s.mem := by
  unfold State.transmit; simp

@[simp] theorem State.dropStale_mem (s : State) (wr : Bool) : (s.dropStale wr).mem = s.mem := by
  unfold State.dropStale; split <;> simp

@[simp] theorem State.answer_memOk {s : State} (h : s.memOk) (r : PeerReq) (ans : PeerAns) : (s.answer r ans).memOk := by
  unfold State.answer
  refine State.memOk_ite (State.memOk_of_mem h (State.countReg_mem ..)) ?_
  refine State.memOk_ite (State.asStrand_memOk h _ fun ht => State.amoLands_memOk ht ans) ?_
  exact State.memOk_ite h h

@[simp] theorem State.reissue_memOk {s : State} (h : s.memOk) (p : Nat) (r : PeerReq) : (s.reissue p r).memOk := by
  unfold State.reissue; dsimp only; (repeat' split) <;> simp [State.memOk, h]

@[simp] theorem State.goDown_memOk {s : State} (h : s.memOk) (p : Nat) : (s.goDown p).memOk :=
  foldl_memOk (fun r ht => State.reissue_memOk ht p r) _ (State.memOk_of_mem h ((State.setSent_mem ..).trans (State.setLink_mem ..)))

@[simp] theorem State.setStep_mem (s : State) (n status alt fails : Nat) : (s.setStep n status alt fails).mem = s.mem := rfl

@[simp] theorem State.packageReset_memOk (s : State) : s.packageReset.memOk := rfl

@[simp] theorem State.haltBoot_mem (s : State) (n code : Nat) : (s.haltBoot n code).mem = s.mem := rfl

@[simp] theorem State.buildCaps_mem (s : State) : (s.buildCaps).mem = s.mem := rfl

theorem State.beginStep_mem : ∀ (fuel n : Nat) (s : State), (s.beginStep fuel n).mem = s.mem
  | 0, _, _ => rfl
  | fuel + 1, n, s => by
    have built : (if n = 20 then s.buildCaps else s).mem = s.mem := by split <;> simp
    unfold State.beginStep
    refine iteInduction (motive := fun t : State => t.mem = s.mem) (fun _ => rfl) (fun _ => ?_)
    dsimp only
    generalize (if n = 20 then s.buildCaps else s) = t at built ⊢
    split
    · exact (State.beginStep_mem fuel _ _).trans ((State.setStep_mem ..).trans built)
    · refine Eq.trans ?_ built
      refine iteInduction (motive := fun u : State => u.mem = t.mem) (fun _ => ?_) (fun _ => ?_)
      · exact (foldl_keeps (fun _ _ => State.setLink_mem ..) _ _).trans (State.setStep_mem ..)
      · exact iteInduction (motive := fun u : State => u.mem = t.mem) (fun _ => (State.setStackState_mem ..).trans (State.setStep_mem ..))
          (fun _ => State.setStep_mem ..)

@[simp] theorem State.stepDone_mem (s : State) (n : Nat) (alt : Bool) : (s.stepDone n alt).1.mem = s.mem := by
  unfold State.stepDone; (repeat' split) <;> simp

@[simp] theorem State.passStep_mem (s : State) (n : Nat) : (s.passStep n).mem = s.mem := by
  unfold State.passStep
  dsimp only
  split <;> simp [State.beginStep_mem]

@[simp] theorem State.failStep_memOk {s : State} (h : s.memOk) (noBlob : Bool) : (s.failStep noBlob).memOk := by
  unfold State.failStep; dsimp only; (repeat' split) <;> simp [State.memOk, h]

@[simp] theorem State.clearBoot_memOk (s : State) : s.clearBoot.memOk := rfl

@[simp] theorem State.attPend_mem (s : State) : (s.attPend).mem = s.mem := rfl

@[simp] theorem State.attGo_mem (s : State) : (s.attGo).mem = s.mem := by
  unfold State.attGo; dsimp only; split <;> simp

end Sys2Proof.Machine
end

section
/-! SUPPORT. Memory stays in canonical form under the trace, checkpoints, partitions, migration and the register writes. -/

namespace Sys2Proof.Machine

@[simp] theorem State.sealSegment_memOk {s : State} (h : s.memOk) : s.sealSegment.memOk := by
  unfold State.sealSegment
  refine State.memOk_ite h ?_
  dsimp only
  have counted : (if decide (s.trNseg ≤ s.trace.segs.length) then s.countReg (Reg.trace + 0x20) 32 else s).memOk :=
    State.memOk_ite (State.memOk_of_mem h (State.countReg_mem ..)) h
  generalize (if decide (s.trNseg ≤ s.trace.segs.length) then s.countReg (Reg.trace + 0x20) 32 else s) = t at counted ⊢
  have sealed : ∀ (a : Nat) (l : List Byte), (if t.trMay a 0x100000 then t.ioWrite 70 a l fun _ => true else t).memOk := fun a l =>
    State.memOk_ite (State.ioWrite_memOk counted ..) counted
  exact State.memOk_of_mem (sealed _ _) rfl

@[simp] theorem State.writeTrstat_mem (s : State) (x : Nat) : (s.writeTrstat x).mem = s.mem := by
  unfold State.writeTrstat; split <;> simp

@[simp] theorem State.setCkpt_mem (s : State) (v : Nat) (c : Ckpt) : (s.setCkpt v c).mem = s.mem := rfl

@[simp] theorem State.saveCuShare_memOk {s : State} (h : s.memOk) (cu : Nat) (x : CuShare) : (s.saveCuShare cu x).memOk := by
  unfold State.saveCuShare
  exact State.memOk_of_mem (State.setHomeBytes_memOk _ h _) ((State.setCu_mem ..).trans (State.copied_mem ..))

@[simp] theorem State.squashForCkpt_memOk {s : State} (h : s.memOk) (v : Nat) : (s.squashForCkpt v).memOk := by
  unfold State.squashForCkpt
  refine foldl_memOk (fun i ht => State.asStrand_memOk ht _ fun hu => ?_) _ h
  exact State.memOk_ite (State.memOk_of_mem (State.squash_memOk hu true) (State.setCkpt_mem ..)) hu

@[simp] theorem State.takeCheckpoint_memOk {s : State} (h : s.memOk) (v : Nat) : (s.takeCheckpoint v).memOk := by
  unfold State.takeCheckpoint; split <;> simp [State.memOk, h]

@[simp] theorem State.writeDbgrel_mem (s : State) (v x : Nat) : (s.writeDbgrel v x).mem = s.mem := by
  unfold State.writeDbgrel; split <;> simp

@[simp] theorem State.remap_memOk {s : State} {f : State → State} (hf : (f s).memOk) : (s.remap f).memOk :=
  foldl_memOk (fun _ h => State.makeFog_memOk h _ _) _ hf

@[simp] theorem State.dropLatch_memOk {s : State} (h : s.memOk) (p : Nat) : (s.dropLatch p).memOk := by
  unfold State.dropLatch; simp [State.memOk, h]

@[simp] theorem State.writePcumask_memOk {s : State} (h : s.memOk) (p d : Nat) (x : BitVec 128) : (s.writePcumask p d x).memOk := by
  unfold State.writePcumask; dsimp only; split <;> simp [State.memOk, h]

@[simp] theorem State.writePlsport_memOk {s : State} (h : s.memOk) (p x : Nat) : (s.writePlsport p x).memOk := by
  unfold State.writePlsport; dsimp only; split <;> simp [State.memOk, h]

@[simp] theorem State.writePmbase_memOk {s : State} (h : s.memOk) (p x : Nat) : (s.writePmbase p x).memOk := by
  unfold State.writePmbase; split <;> simp [State.memOk, h]

@[simp] theorem State.writePart_memOk {s : State} (h : s.memOk) (p o x : Nat) : (s.writePart p o x).memOk := by
  unfold State.writePart; dsimp only; (repeat' split) <;> simp [State.memOk, h]

@[simp] theorem State.writePowceil_mem (s : State) (p x : Nat) : (s.writePowceil p x).mem = s.mem := by
  unfold State.writePowceil; split <;> simp

@[simp] theorem State.dropQueues_mem (s : State) (v : Nat) : (s.dropQueues v).mem = s.mem := rfl

@[simp] theorem State.writeVdctl_memOk {s : State} (h : s.memOk) (v x : Nat) : (s.writeVdctl v x).memOk := by
  unfold State.writeVdctl; dsimp only; (repeat' split) <;> simp [State.memOk, h]

@[simp] theorem State.writeVd_memOk {s : State} (h : s.memOk) (v o x : Nat) : (s.writeVd v o x).memOk := by
  have put : ∀ (a : Nat) (w : Word), (s.setReg a w).memOk := fun a w => State.memOk_of_mem h (s.setReg_mem a w)
  unfold State.writeVd
  dsimp only
  refine State.memOk_ite h ?_
  refine State.memOk_ite (State.writeVdctl_memOk h v x) ?_
  refine State.memOk_ite (put _ _) ?_
  refine State.memOk_ite (put _ _) ?_
  refine State.memOk_ite h ?_
  refine State.memOk_ite ?_ ?_
  · exact State.memOk_ite h (put _ _)
  refine State.memOk_ite (put _ _) ?_
  refine State.memOk_ite (put _ _) ?_
  refine State.memOk_ite (put _ _) ?_
  refine State.memOk_ite ?_ h
  exact State.memOk_ite h (put _ _)

@[simp] theorem State.writeCntdata_mem (s : State) (v x : Nat) : (s.writeCntdata v x).mem = s.mem := by
  unfold State.writeCntdata; split <;> simp

@[simp] theorem State.writeCancelcmd_memOk {s : State} (h : s.memOk) (v x : Nat) : (s.writeCancelcmd v x).memOk := by
  unfold State.writeCancelcmd; (repeat' split) <;> simp [State.memOk, h]

@[simp] theorem State.cancelcmd_memOk {s : State} (h : s.memOk) (n : Nat) : (s.cancelcmd n).memOk := by
  unfold State.cancelcmd; split <;> simp [State.memOk, h]

@[simp] theorem State.retire_memOk {s : State} (h : s.memOk) (v q kind : Nat) : (s.retire v q kind).memOk := by
  unfold State.retire; dsimp only; (repeat' split) <;> simp [State.memOk, h]

@[simp] theorem State.launchEligible_mem (s : State) (key : Nat) : (s.launchEligible key).mem = s.mem := by
  unfold State.launchEligible; (repeat' split) <;> simp

@[simp] theorem State.refill_mem (s : State) (num v : Nat) : (s.refill num v).mem = s.mem := rfl

@[simp] theorem State.atStrand_mem (s : State) (p : Strand → Bool) {f : State → State} (hf : ∀ s, (f s).mem = s.mem) :
    (s.atStrand p f).mem = s.mem := by
  unfold State.atStrand; exact State.asStrand_mem _ _ hf

@[simp] theorem State.vectorDead_memOk {s : State} (h : s.memOk) : (s.vectorDead).memOk := by
  unfold State.vectorDead; (repeat' split) <;> simp [State.memOk, h]

@[simp] theorem State.queueDead_memOk {s : State} (h : s.memOk) : (s.queueDead).memOk := by
  unfold State.queueDead; (repeat' split) <;> simp [State.memOk, h]

@[simp] theorem State.writeCtxkill_memOk {s : State} (h : s.memOk) (c : Nat) : (s.writeCtxkill c).memOk := by
  unfold State.writeCtxkill; (repeat' split) <;> simp [State.memOk, h]

@[simp] theorem State.dropStaleWaits_mem (s : State) (p : Waiting → Bool) : (s.dropStaleWaits p).mem = s.mem := by
  unfold State.dropStaleWaits; exact foldl_keeps (fun _ _ => State.dropStale_mem ..) _ _

@[simp] theorem State.writeFqres_mem (s : State) (x : Nat) : (s.writeFqres x).mem = s.mem := by
  unfold State.writeFqres; split
  · rfl
  · exact State.asStrand_mem _ _ fun _ => rfl

@[simp] theorem State.leaveCkpt_mem (s : State) (k : Strand) : (s.leaveCkpt k).mem = s.mem := rfl

@[simp] theorem State.deliverAsync_memOk {s : State} (h : s.memOk) : (s.deliverAsync).memOk := by
  unfold State.deliverAsync; dsimp only; (repeat' split) <;> simp [State.memOk, h]

@[simp] theorem State.noteStep_mem (before : Nat) (s : State) : (s.noteStep before).mem = s.mem := by
  unfold State.noteStep; split <;> rfl

@[simp] theorem State.noteWatches_mem (s : State) : (s.noteWatches).mem = s.mem := rfl

@[simp] theorem State.translatePart_memOk {s : State} (h : s.memOk) (w : PartWait) : (s.translatePart w).memOk := by
  have dropped : ({ s with partq := s.partq.erase w } : State).memOk := h
  unfold State.translatePart
  dsimp only
  split
  · split
    · exact State.pushAsync_memOk dropped ..
    · exact dropped
  · exact h

@[simp] theorem State.migRel_memOk {s : State} (h : s.memOk) (d : Nat) : (s.migRel d).memOk := by
  unfold State.migRel
  refine State.memOk_ite (State.letGo_memOk ?_ _) h
  exact foldl_memOk (fun w ht => State.translatePart_memOk ht w) _ (State.memOk_of_mem h (State.setReg_mem ..))

@[simp] theorem State.migGo_mem (s : State) (d x : Nat) : (s.migGo d x).mem = s.mem := by
  unfold State.migGo; split <;> simp

@[simp] theorem State.writeMigctl_memOk {s : State} (h : s.memOk) (d x : Nat) : (s.writeMigctl d x).memOk := by
  unfold State.writeMigctl; (repeat' split) <;> simp [State.memOk, h]

@[simp] theorem State.migRead_mem (s : State) (d a : Nat) : (s.migRead d a).1.mem = s.mem := by
  have h := s.askPeer_mem (migWho d) (s.migLease d) a (.read 128)
  unfold State.migRead
  dsimp only
  refine iteInduction (motive := fun x : State × MigRead => x.1.mem = s.mem) (fun _ => ?_) (fun _ => ?_)
  · refine iteInduction (motive := fun x : State × MigRead => x.1.mem = s.mem) (fun _ => rfl) (fun _ => ?_)
    split <;> (next e => rw [e] at h; exact h)
  · exact iteInduction (motive := fun x : State × MigRead => x.1.mem = s.mem)
      (fun _ => (State.hostGet_mem ..).trans (State.ioRead_mem ..)) (fun _ => rfl)

@[simp] theorem State.migPoison_memOk {s : State} (h : s.memOk) (d a : Nat) : (s.migPoison d a).memOk := by
  have noted : ∀ (n x : Nat) (b : Nat) (w : Word),
      (if n = 0 then (s.setRegField (Reg.mig d + 0x20) 16 16 x).setReg b w else s.setRegField (Reg.mig d + 0x20) 16 16 x).memOk :=
    fun _ _ _ _ => State.memOk_ite (State.memOk_of_mem h ((State.setReg_mem ..).trans (State.setRegField_mem ..)))
      (State.memOk_of_mem h (State.setRegField_mem ..))
  unfold State.migPoison
  split
  · exact State.memOk_of_mem (State.ioWrite_memOk (noted _ _ _ _) ..) (State.hostPut_mem ..)
  · exact noted _ _ _ _

@[simp] theorem State.migLine_memOk {s : State} (h : s.memOk) (d : Nat) : (s.migLine d).1.memOk := by
  have retried : (s.retryBy (migWho d)).memOk := h
  unfold State.migLine
  dsimp only
  generalize s.retryBy (migWho d) = t at retried ⊢
  split
  · exact State.memOk_of_mem retried (State.enqueue_mem ..)
  · have read := State.memOk_of_mem retried (State.migRead_mem t d (s.migSrc d + Assoc.get 0 d s.migs))
    split
    · next e => rw [e] at read; exact read
    · next e => rw [e] at read; exact read
    · next u bytes bad e =>
      rw [e] at read
      replace read : u.memOk := read
      refine iteInduction (motive := fun x : State × Option Bool => x.1.memOk) (fun _ => read) (fun _ => ?_)
      have put : ∀ b : Nat, (match bytes with
          | some x => u.ioWrite (64 + d) b x fun _ => true
          | none => u.makeFog b (b + 128)).memOk := by
        intro b
        cases bytes with
        | none => exact State.makeFog_memOk read ..
        | some x => exact State.ioWrite_memOk read ..
      have moved := fun b => State.memOk_of_mem (put b)
        ((State.hostPut_mem ((match bytes with
          | some x => u.ioWrite (64 + d) b x fun _ => true
          | none => u.makeFog b (b + 128)).setPoison (b / 128) bad) b 128).trans (State.setPoison_mem ..))
      exact State.memOk_ite (State.migPoison_memOk (moved _) ..) (moved _)

@[simp] theorem State.migEnd_mem (s : State) (d : Nat) (err : Bool) : (s.migEnd d err).mem = s.mem := rfl

theorem State.migRun_memOk (d : Nat) : ∀ (n : Nat) {s : State} (_ : s.memOk), (s.migRun d n).memOk
  | 0, s, h => by
    unfold State.migRun
    exact State.memOk_ite h h
  | n + 1, s, h => by
    have line := State.migLine_memOk h d
    unfold State.migRun
    refine State.memOk_ite h ?_
    refine State.memOk_ite h ?_
    split
    · next e => rw [e] at line; exact State.migRun_memOk d n line
    · next e => rw [e] at line; exact line
    · next e => rw [e] at line; exact line

@[simp] theorem State.writeAccess_mem (s : State) (m o x : Nat) : (s.writeAccess m o x).mem = s.mem := by
  unfold State.writeAccess; (repeat' split) <;> simp

@[simp] theorem State.setLeaseState_mem (s : State) (a x : Nat) : (s.setLeaseState a x).mem = s.mem := rfl

@[simp] theorem State.writeLender_mem (s : State) (i o x : Nat) : (s.writeLender i o x).mem = s.mem := by
  unfold State.writeLender; dsimp only; (repeat' split) <;> simp

@[simp] theorem State.writeBorrower_memOk {s : State} (h : s.memOk) (i o x : Nat) : (s.writeBorrower i o x).memOk := by
  unfold State.writeBorrower; dsimp only; (repeat' split) <;> simp [State.memOk, h]

@[simp] theorem State.writeSinvcmd_mem (s : State) (x : Nat) : (s.writeSinvcmd x).mem = s.mem := by
  unfold State.writeSinvcmd; split <;> simp

@[simp] theorem State.store64_mem (s : State) (a m x : Nat) : (s.store64 a m x).mem = s.mem := rfl

@[simp] theorem State.writeBoot_memOk {s : State} (h : s.memOk) (o x : Nat) : (s.writeBoot o x).memOk := by
  unfold State.writeBoot; (repeat' split) <;> simp [State.memOk, h]

@[simp] theorem State.writeStack_mem (s : State) (k o x : Nat) : (s.writeStack k o x).mem = s.mem := by
  unfold State.writeStack; (repeat' split) <;> simp

@[simp] theorem State.writeLink_mem (s : State) (p o x : Nat) : (s.writeLink p o x).mem = s.mem := by
  unfold State.writeLink; (repeat' split) <;> simp

@[simp] theorem State.writePartBlock_memOk {s : State} (h : s.memOk) (p o x : Nat) : (s.writePartBlock p o x).memOk := by
  unfold State.writePartBlock; (repeat' split) <;> simp [State.memOk, h]

@[simp] theorem State.writeCtx_memOk {s : State} (h : s.memOk) (a x : Nat) : (s.writeCtx a x).memOk := by
  unfold State.writeCtx; (repeat' split) <;> simp [State.memOk, h]

@[simp] theorem State.writeMig_memOk {s : State} (h : s.memOk) (d o x : Nat) : (s.writeMig d o x).memOk := by
  unfold State.writeMig; (repeat' split) <;> simp [State.memOk, h]

@[simp] theorem State.writeNotify_memOk {s : State} (h : s.memOk) (v o x : Nat) : (s.writeNotify v o x).memOk := by
  unfold State.writeNotify; (repeat' split) <;> simp [State.memOk, h]

@[simp] theorem State.writeDbg_mem (s : State) (v o x : Nat) : (s.writeDbg v o x).mem = s.mem := by
  unfold State.writeDbg; (repeat' split) <;> simp

@[simp] theorem State.writeTrace_mem (s : State) (o x : Nat) : (s.writeTrace o x).mem = s.mem := by
  unfold State.writeTrace; (repeat' split) <;> simp

@[simp] theorem State.writeCkpt_mem (s : State) (v o x : Nat) : (s.writeCkpt v o x).mem = s.mem := by
  unfold State.writeCkpt; (repeat' split) <;> simp

@[simp] theorem State.writeFq_mem (s : State) (o x : Nat) : (s.writeFq o x).mem = s.mem := by
  unfold State.writeFq; (repeat' split) <;> simp

@[simp] theorem State.writeReg_memOk {s : State} (h : s.memOk) (a x : Nat) : (s.writeReg a x).memOk := by
  have same : ∀ {t : State}, t.mem = s.mem → t.memOk := State.memOk_of_mem h
  unfold State.writeReg
  extract_lets o page
  clear_value o page
  refine State.memOk_ite h ?_
  refine State.memOk_ite (State.writeBoot_memOk h ..) ?_
  refine State.memOk_ite (same (State.writeStack_mem ..)) ?_
  refine State.memOk_ite (same (State.writeLink_mem ..)) ?_
  refine State.memOk_ite (State.writePartBlock_memOk h ..) ?_
  refine State.memOk_ite (State.writeVd_memOk h ..) ?_
  refine State.memOk_ite (State.writeCtx_memOk h ..) ?_
  refine State.memOk_ite ?_ ?_
  · refine State.memOk_ite h ?_
    refine State.memOk_ite (same (State.store64_mem ..)) ?_
    exact State.memOk_ite (same (State.store64_mem ..)) h
  refine State.memOk_ite (State.writeMig_memOk h ..) ?_
  refine State.memOk_ite (same (State.writeAccess_mem ..)) ?_
  refine State.memOk_ite ?_ ?_
  · exact State.memOk_ite (same (State.store64_mem ..)) h
  refine State.memOk_ite (State.writeBorrower_memOk h ..) ?_
  refine State.memOk_ite (same (State.writeLender_mem ..)) ?_
  refine State.memOk_ite (State.writeNotify_memOk h ..) ?_
  refine State.memOk_ite (same (State.writeDbg_mem ..)) ?_
  refine State.memOk_ite (same (State.writeTrace_mem ..)) ?_
  refine State.memOk_ite (same (State.writeCkpt_mem ..)) ?_
  refine State.memOk_ite ?_ ?_
  · exact State.memOk_ite (same (State.store64_mem ..)) h
  exact State.memOk_ite (same (State.writeFq_mem ..)) h

end Sys2Proof.Machine
end

section
/-! SUPPORT. Memory stays in canonical form under core accesses, scalar results and the grants of lengths. -/

namespace Sys2Proof.Machine

@[simp] theorem State.coreReg_memOk {s : State} (h : s.memOk) (a n : Nat) (bytes : List Byte) (priv : Bool) :
    (s.coreReg a n bytes priv).memOk := by
  unfold State.coreReg; (repeat' split) <;> simp [State.memOk, h]

@[simp] theorem State.write_mem (s : State) (d : SReg) (x : Word) : (s.write d x).mem = s.mem := rfl

@[simp] theorem State.intReg_mem (s : State) (t : IntTy) (d a b : SReg) (op : Nat → Nat → Nat → Nat) :
    (s.intReg t d a b op).mem = s.mem := rfl

@[simp] theorem State.intImm_mem (s : State) (t : IntTy) (d a : SReg) (y : Word) (op : Nat → Nat → Nat → Nat) :
    (s.intImm t d a y op).mem = s.mem := rfl

@[simp] theorem State.intUn_mem (s : State) (t : IntTy) (d a : SReg) (op : Nat → Nat → Nat) : (s.intUn t d a op).mem = s.mem := rfl

@[simp] theorem State.fpResult_memOk {s : State} (h : s.memOk) (d : SReg) (x : Word) (fl : Flags) : (s.fpResult d x fl).memOk := by
  unfold State.fpResult; split <;> simp [State.memOk, h]

@[simp] theorem State.fpScalar_memOk {s : State} (h : s.memOk) (k : FpOp) (f : FpTy) (rm : Rm) (d a b : SReg) :
    (s.fpScalar k f rm d a b).memOk := by
  unfold State.fpScalar; simp [State.memOk, h]

@[simp] theorem State.setvl_memOk {s : State} (h : s.memOk) (t : WTy) (d a : SReg) : (s.setvl t d a).memOk := by
  unfold State.setvl; dsimp only; split <;> simp [State.memOk, h]

@[simp] theorem State.msetvl_memOk {s : State} (h : s.memOk) (t : WTy) (d a : SReg) : (s.msetvl t d a).memOk := by
  unfold State.msetvl; simp [State.memOk, h]

end Sys2Proof.Machine
end

section
/-! SUPPORT. Memory stays in canonical form under every meaning. -/

namespace Sys2Proof.Machine

/-- A meaning leaves memory in canonical form. -/
def Result.memOk : Result → Prop
  | .next t => t.memOk
  | .fault _ => True
  | .refused _ => True

theorem Result.memOk_ite {c : Prop} [Decidable c] {x y : Result} (hx : Result.memOk x) (hy : Result.memOk y) :
    Result.memOk (if c then x else y) := by
  split <;> assumption

theorem State.atStrand_memOk {s : State} (h : s.memOk) (p : Strand → Bool) {f : State → State} (hf : ∀ {s}, s.memOk → (f s).memOk) :
    (s.atStrand p f).memOk := State.asStrand_memOk h _ hf

/-- A word that is tried again leaves memory in canonical form where its meaning does. -/
theorem State.retryWord_memOk {s : State} (h : s.memOk) {r : Result} (hr : Result.memOk r) : (s.retryWord r).memOk := by
  cases r with
  | next t => exact State.memOk_of_mem (t := t.noteStep s.me.seq) hr (State.noteStep_mem ..)
  | fault e => exact State.memOk_of_mem (t := s.noteStep s.me.seq) h (State.noteStep_mem ..)
  | refused e => exact State.memOk_of_mem (t := s.noteStep s.me.seq) h (State.noteStep_mem ..)

theorem execCntwait_memOk {s : State} (h : s.memOk) (d a b : SReg) : Result.memOk (execCntwait d a b s) := by
  refine State.memOk_ite (State.trapHere_memOk h ..) ?_
  refine State.unlessCancelled_memOk h (State.heldWord_memOk h _ _ _ _ ?_)
  dsimp only
  split
  · exact h
  · refine State.memOk_ite h ?_
    exact State.memOk_ite h h

theorem execWaita_memOk {s : State} (h : s.memOk) (t : AmoTy) (d : SReg) (m : Addr) (off : BitVec 16) (b : SReg) :
    Result.memOk (execWaita t d m off b s) :=
  State.unlessCancelled_memOk h (State.heldWord_memOk h _ _ _ _ (State.waita_memOk h ..))

theorem execCpwait_memOk {s : State} (h : s.memOk) (d a : SReg) : Result.memOk (execCpwait d a s) :=
  State.unlessCancelled_memOk h (State.heldWord_memOk h _ _ _ _ (State.cpwait_memOk h ..))

theorem execDieLinkFlit_memOk {s : State} (h : s.memOk) : Result.memOk (execDieLinkFlit s) := by
  unfold execDieLinkFlit; split <;> simp [Result.memOk, State.memOk, h]

theorem execPoisonedLineEviction_memOk {s : State} (h : s.memOk) : Result.memOk (execPoisonedLineEviction s) := by
  unfold execPoisonedLineEviction; dsimp only [Result.memOk]; (repeat' split) <;> simp [State.memOk, h]

theorem execScrubRead_memOk {s : State} (h : s.memOk) : Result.memOk (execScrubRead s) := by
  unfold execScrubRead; split <;> simp [Result.memOk, State.memOk, h]

theorem execStackTemperatureReport_memOk {s : State} (h : s.memOk) : Result.memOk (execStackTemperatureReport s) := by
  unfold execStackTemperatureReport; dsimp only [Result.memOk]; (repeat' split) <;> simp [State.memOk, h]

theorem execSelfRefreshEntry_memOk {s : State} (h : s.memOk) : Result.memOk (execSelfRefreshEntry s) := by
  unfold execSelfRefreshEntry; split <;> simp [Result.memOk, State.memOk, h]

theorem execThermwaitExpiry_memOk {s : State} (h : s.memOk) : Result.memOk (execThermwaitExpiry s) := by
  unfold execThermwaitExpiry; dsimp only [Result.memOk]; (repeat' split) <;> simp [State.memOk, h]

theorem execPcieInboundRequest_memOk {s : State} (h : s.memOk) : Result.memOk (execPcieInboundRequest s) := by
  unfold execPcieInboundRequest; dsimp only; split <;> simp [Result.memOk, State.memOk, h]

theorem execDownstreamDmaWrite_memOk {s : State} (h : s.memOk) : Result.memOk (execDownstreamDmaWrite s) := by
  unfold execDownstreamDmaWrite; simp [Result.memOk, State.memOk, h]

theorem execCxlMemRead_memOk {s : State} (h : s.memOk) : Result.memOk (execCxlMemRead s) := by
  unfold execCxlMemRead; dsimp only [Result.memOk]; (repeat' split) <;> simp [State.memOk, h]

theorem execUalinkRequestSend_memOk {s : State} (h : s.memOk) : Result.memOk (execUalinkRequestSend s) := by
  unfold execUalinkRequestSend
  dsimp only [Result.memOk]
  have dropped := State.memOk_of_mem (s := { s with sendq := s.sendq.filter fun r => !s.staleWho r.who }) h
    (foldl_keeps (f := fun (s : State) (r : PeerReq) => s.dropStale r.op.writes) (fun _ _ => State.dropStale_mem ..)
      (s.sendq.filter fun r => s.staleWho r.who) _)
  generalize (s.sendq.filter fun r => s.staleWho r.who).foldl (fun (s : State) r => s.dropStale r.op.writes) _ = t at dropped ⊢
  split
  · exact dropped
  · split
    · exact dropped
    · exact State.memOk_of_mem dropped ((State.transmit_mem ..).trans (State.setSent_mem ..))

theorem execPeerAtomic_memOk {s : State} (h : s.memOk) : Result.memOk (execPeerAtomic s) := by
  unfold execPeerAtomic; dsimp only; split <;> simp [Result.memOk, State.memOk, h]

theorem execUnknownPacket_memOk {s : State} (h : s.memOk) : Result.memOk (execUnknownPacket s) := by
  unfold execUnknownPacket; split <;> simp [Result.memOk, State.memOk, h]

theorem execResponseArrival_memOk {s : State} (h : s.memOk) : Result.memOk (execResponseArrival s) := by
  unfold execResponseArrival; dsimp only [Result.memOk]; (repeat' split) <;> simp [State.memOk, h]

theorem execLaneRepairRequest_memOk {s : State} (h : s.memOk) : Result.memOk (execLaneRepairRequest s) := by
  unfold execLaneRepairRequest; dsimp only; split <;> simp [Result.memOk, State.memOk, h]

theorem execReplayDrainEnd_memOk {s : State} (h : s.memOk) : Result.memOk (execReplayDrainEnd s) := by
  unfold execReplayDrainEnd; dsimp only; split <;> simp [Result.memOk, State.memOk, h]

theorem execLaneRepairDone_memOk {s : State} (h : s.memOk) : Result.memOk (execLaneRepairDone s) := by
  unfold execLaneRepairDone; dsimp only; split <;> simp [Result.memOk, State.memOk, h]

theorem execPortRetrain_memOk {s : State} (h : s.memOk) : Result.memOk (execPortRetrain s) := by
  unfold execPortRetrain; dsimp only; split <;> simp [Result.memOk, State.memOk, h]

theorem execTrainingEnd_memOk {s : State} (h : s.memOk) : Result.memOk (execTrainingEnd s) := by
  unfold execTrainingEnd
  dsimp only [Result.memOk]
  refine State.memOk_ite h ?_
  refine State.memOk_ite ?_ ?_
  · exact State.memOk_ite (State.memOk_of_mem h (State.setLink_mem ..)) (State.goDown_memOk h _)
  refine State.memOk_ite ?_ h
  refine State.memOk_ite ?_ (State.goDown_memOk h _)
  exact State.memOk_of_mem h ((foldl_keeps (fun _ _ => State.transmit_mem ..) _ _).trans (State.setLink_mem ..))

theorem execPortDown_memOk {s : State} (h : s.memOk) : Result.memOk (execPortDown s) := by
  unfold execPortDown; split <;> simp [Result.memOk, State.memOk, h]

theorem execBootStart_memOk {s : State} (h : s.memOk) : Result.memOk (execBootStart s) :=
  State.memOk_ite h
    (State.memOk_of_mem h ((State.beginStep_mem ..).trans (State.setReg_mem ..)))

theorem execBootStepPass_memOk {s : State} (h : s.memOk) : Result.memOk (execBootStepPass s) := by
  unfold execBootStepPass; dsimp only [Result.memOk]; (repeat' split) <;> simp [State.memOk, h]

theorem execBootStepTimeout_memOk {s : State} (h : s.memOk) : Result.memOk (execBootStepTimeout s) := by
  unfold execBootStepTimeout; dsimp only [Result.memOk]; (repeat' split) <;> simp [State.memOk, h]

theorem execMeasurementExtend_memOk {s : State} (h : s.memOk) : Result.memOk (execMeasurementExtend s) := by
  unfold execMeasurementExtend; split <;> simp [Result.memOk, State.memOk, h]

theorem execAttcmdGo_memOk {s : State} (h : s.memOk) : Result.memOk (execAttcmdGo s) := by
  unfold execAttcmdGo; simp [Result.memOk, State.memOk, h]

theorem execAttestationReportWrite_memOk {s : State} (h : s.memOk) : Result.memOk (execAttestationReportWrite s) := by
  unfold execAttestationReportWrite
  dsimp only [Result.memOk]
  split
  · exact h
  · next r l _ =>
    have written := fun bytes => State.ioWrite_memOk h 255 r.dst bytes fun _ => true
    exact State.memOk_of_mem (written _) ((State.attPend_mem _).trans (State.setRegField_mem ..))

theorem execVdctlEnSet_memOk {s : State} (h : s.memOk) : Result.memOk (execVdctlEnSet s) := by
  unfold execVdctlEnSet; split <;> simp [Result.memOk, State.memOk, h]

theorem execVdctlEnClear_memOk {s : State} (h : s.memOk) : Result.memOk (execVdctlEnClear s) := by
  unfold execVdctlEnClear; split <;> simp [Result.memOk, State.memOk, h]

theorem execNotifyWrite_memOk {s : State} (h : s.memOk) : Result.memOk (execNotifyWrite s) := by
  unfold execNotifyWrite; split <;> simp [Result.memOk, State.memOk, h]

theorem execNopTake_memOk {s : State} (h : s.memOk) : Result.memOk (execNopTake s) := by
  unfold execNopTake; dsimp only [Result.memOk]; (repeat' split) <;> simp [State.memOk, h]

theorem execPhaseRetire_memOk {s : State} (h : s.memOk) : Result.memOk (execPhaseRetire s) := by
  unfold execPhaseRetire; dsimp only; split <;> simp [Result.memOk, State.memOk, h]

theorem execLaunchRetire_memOk {s : State} (h : s.memOk) : Result.memOk (execLaunchRetire s) := by
  unfold execLaunchRetire; dsimp only [Result.memOk]; (repeat' split) <;> simp [State.memOk, h]

theorem execStrandEnd_memOk {s : State} (h : s.memOk) : Result.memOk (execStrandEnd s) :=
  State.asStrand_memOk h _ State.tryEnd_memOk

theorem execFrameStart_memOk {s : State} (h : s.memOk) : Result.memOk (execFrameStart s) :=
  State.memOk_ite h
    (State.memOk_of_mem h ((State.collectTrace_mem _).trans
      (foldl_keeps (fun _ _ => foldl_keeps (fun _ _ => State.refill_mem ..) _ _) _ _)))

theorem execLendingPoint_memOk {s : State} (h : s.memOk) : Result.memOk (execLendingPoint s) := by
  refine State.memOk_ite h (foldl_memOk (fun v ht => ?_) _ h)
  exact State.memOk_ite ht ht

theorem execLaneRenegotiation_memOk {s : State} (h : s.memOk) : Result.memOk (execLaneRenegotiation s) := by
  refine State.atStrand_memOk h _ fun ht => ?_
  split
  · exact State.memOk_ite (State.vecTurn_memOk ht) ht
  · exact ht

theorem execLaneFifoService_memOk {s : State} (h : s.memOk) : Result.memOk (execLaneFifoService s) :=
  State.memOk_of_mem h (State.serveFifo_mem ..)

theorem execConvoyStart_memOk {s : State} (h : s.memOk) : Result.memOk (execConvoyStart s) := by
  refine State.atStrand_memOk h _ fun {t} ht => ?_
  split
  · refine State.memOk_ite ht ?_
    refine State.memOk_ite (State.vecTurn_memOk ht) ?_
    exact State.memOk_ite (State.memOk_of_mem ht (State.startHead_mem ..)) ht
  · exact ht

theorem execConvoyRetire_memOk {s : State} (h : s.memOk) : Result.memOk (execConvoyRetire s) :=
  State.atStrand_memOk h _ fun ht => State.memOk_ite (State.vecTurn_memOk ht) ht

theorem execHeldOperationRelease_memOk {s : State} (h : s.memOk) : Result.memOk (execHeldOperationRelease s) :=
  State.atStrand_memOk h _ fun ht => State.memOk_ite (State.vecTurn_memOk ht) ht

theorem execSquash_memOk {s : State} (h : s.memOk) : Result.memOk (execSquash s) :=
  State.atStrand_memOk h _ fun ht => State.memOk_ite (State.squash_memOk ht _) ht

theorem execSquashDeadline_memOk {s : State} (h : s.memOk) : Result.memOk (execSquashDeadline s) :=
  State.atStrand_memOk h _ fun ht => State.memOk_ite (State.finishSquash_memOk ht) ht

theorem execQdeadTimeout_memOk {s : State} (h : s.memOk) : Result.memOk (execQdeadTimeout s) :=
  State.atStrand_memOk h _ State.queueDead_memOk

theorem execRegisterLineFill_memOk {s : State} (h : s.memOk) : Result.memOk (execRegisterLineFill s) := by
  unfold execRegisterLineFill; dsimp only [Result.memOk]; (repeat' split) <;> simp [State.memOk, h]

theorem execReplayRelease_memOk {s : State} (h : s.memOk) : Result.memOk (execReplayRelease s) :=
  foldl_memOk (fun w ht => State.retryPart_memOk ht w) _ (State.letGo_memOk (State.memOk_of_mem h (State.dropStaleWaits_mem ..)) _)

theorem execMigctlGo_memOk {s : State} (h : s.memOk) : Result.memOk (execMigctlGo s) := by
  unfold execMigctlGo; split <;> simp [Result.memOk, State.memOk, h]

theorem execMigrationCopyEnd_memOk {s : State} (h : s.memOk) : Result.memOk (execMigrationCopyEnd s) := by
  refine State.memOk_ite h ?_
  exact State.memOk_ite (State.memOk_of_mem h (State.migEnd_mem ..)) (State.migRun_memOk _ _ h)

theorem execMigctlRel_memOk {s : State} (h : s.memOk) : Result.memOk (execMigctlRel s) := by
  unfold execMigctlRel; split <;> simp [Result.memOk, State.memOk, h]

theorem execWcbLineTimeout_memOk {s : State} (h : s.memOk) : Result.memOk (execWcbLineTimeout s) := by
  unfold execWcbLineTimeout; dsimp only [Result.memOk]; (repeat' split) <;> simp [State.memOk, h]

theorem execZeroLineEviction_memOk {s : State} (h : s.memOk) : Result.memOk (execZeroLineEviction s) := by
  unfold execZeroLineEviction; dsimp only [Result.memOk]; (repeat' split) <;> simp [State.memOk, h]

theorem execMergePartArrival_memOk {s : State} (h : s.memOk) : Result.memOk (execMergePartArrival s) := by
  unfold execMergePartArrival; dsimp only [Result.memOk]; (repeat' split) <;> simp [State.memOk, h]

theorem execMergeTimeout_memOk {s : State} (h : s.memOk) : Result.memOk (execMergeTimeout s) := by
  unfold execMergeTimeout; dsimp only [Result.memOk]; (repeat' split) <;> simp [State.memOk, h]

theorem execUnorderedMergeArrival_memOk {s : State} (h : s.memOk) : Result.memOk (execUnorderedMergeArrival s) := by
  unfold execUnorderedMergeArrival; dsimp only [Result.memOk]; (repeat' split) <;> simp [State.memOk, h]

theorem execLeasedAccessArrival_memOk {s : State} (h : s.memOk) : Result.memOk (execLeasedAccessArrival s) := by
  unfold execLeasedAccessArrival; dsimp only [Result.memOk]; (repeat' split) <;> simp [State.memOk, h]

theorem execLeaseSetupMessage_memOk {s : State} (h : s.memOk) : Result.memOk (execLeaseSetupMessage s) := by
  unfold execLeaseSetupMessage; split <;> simp [Result.memOk, State.memOk, h]

theorem execLeaseRevokeMessage_memOk {s : State} (h : s.memOk) : Result.memOk (execLeaseRevokeMessage s) := by
  unfold execLeaseRevokeMessage; dsimp only [Result.memOk]; (repeat' split) <;> simp [State.memOk, h]

theorem execRevokeDrainDone_memOk {s : State} (h : s.memOk) : Result.memOk (execRevokeDrainDone s) := by
  unfold execRevokeDrainDone; dsimp only; split <;> simp [Result.memOk, State.memOk, h]

theorem execLeaseDoneMessage_memOk {s : State} (h : s.memOk) : Result.memOk (execLeaseDoneMessage s) := by
  unfold execLeaseDoneMessage; dsimp only [Result.memOk]; (repeat' split) <;> simp [State.memOk, h]

theorem execRevtoExpiry_memOk {s : State} (h : s.memOk) : Result.memOk (execRevtoExpiry s) := by
  unfold execRevtoExpiry; dsimp only [Result.memOk]; (repeat' split) <;> simp [State.memOk, h]

theorem execTrapTaken_memOk {s : State} (h : s.memOk) : Result.memOk (execTrapTaken s) := by
  refine State.atStrand_memOk h _ fun ht => ?_
  split
  · exact State.takeStop_memOk ht ..
  · exact ht

theorem execFaultRecordPost_memOk {s : State} (h : s.memOk) : Result.memOk (execFaultRecordPost s) := by
  unfold execFaultRecordPost; dsimp only [Result.memOk]; (repeat' split) <;> simp [State.memOk, h]

theorem execContextSave_memOk {s : State} (h : s.memOk) : Result.memOk (execContextSave s) := by
  unfold execContextSave
  dsimp only [Result.memOk]
  split
  · refine State.memOk_ite h ?_
    refine State.memOk_ite (State.atStrand_memOk h _ State.saveStrand_memOk) ?_
    exact State.memOk_ite (State.killFor_memOk h _) (State.makeFog_memOk (State.killFor_memOk h _) _ _)
  · exact h

theorem execCuShareSave_memOk {s : State} (h : s.memOk) : Result.memOk (execCuShareSave s) := by
  unfold execCuShareSave; dsimp only [Result.memOk]; (repeat' split) <;> simp [State.memOk, h]

theorem execDivertedLanding_memOk {s : State} (h : s.memOk) : Result.memOk (execDivertedLanding s) := by
  unfold execDivertedLanding; dsimp only [Result.memOk]; (repeat' split) <;> simp [State.memOk, h]

theorem execRestore_memOk {s : State} (h : s.memOk) : Result.memOk (execRestore s) := by
  refine State.atStrand_memOk h _ fun ht => ?_
  refine State.memOk_ite ?_ ?_
  · exact State.memOk_ite (State.memOk_of_mem ht ((State.leaveCkpt_mem ..).trans (State.unmute_mem _))) ht
  · refine State.memOk_ite ?_ ht
    exact State.memOk_ite (State.killFor_memOk ht _)
      (State.memOk_of_mem ht ((State.leaveCkpt_mem ..).trans (State.restore_mem ..)))

theorem execAsyncfaultDelivery_memOk {s : State} (h : s.memOk) : Result.memOk (execAsyncfaultDelivery s) :=
  State.atStrand_memOk h _ fun ht => State.memOk_ite (State.deliverAsync_memOk ht) ht

theorem execKillComplete_memOk {s : State} (h : s.memOk) : Result.memOk (execKillComplete s) := by
  unfold execKillComplete; dsimp only; split <;> simp [Result.memOk, State.memOk, h]

theorem execRequestAtTarget_memOk {s : State} (h : s.memOk) : Result.memOk (execRequestAtTarget s) := by
  unfold execRequestAtTarget; dsimp only [Result.memOk]; (repeat' split) <;> simp [State.memOk, h]

theorem execSegmentSeal_memOk {s : State} (h : s.memOk) : Result.memOk (execSegmentSeal s) := by
  unfold execSegmentSeal; split <;> simp [Result.memOk, State.memOk, h]

theorem execSegmentSend_memOk {s : State} (h : s.memOk) : Result.memOk (execSegmentSend s) := by
  unfold execSegmentSend; dsimp only [Result.memOk]; (repeat' split) <;> simp [State.memOk, h]

theorem execCheckpointTimer_memOk {s : State} (h : s.memOk) : Result.memOk (execCheckpointTimer s) := by
  unfold execCheckpointTimer; dsimp only [Result.memOk]; (repeat' split) <;> simp [State.memOk, h]

theorem execSinvComplete_memOk {s : State} (h : s.memOk) : Result.memOk (execSinvComplete s) := by
  unfold execSinvComplete; dsimp only [Result.memOk]; (repeat' split) <;> simp [State.memOk, h]

theorem execCopyBeat_memOk {s : State} (h : s.memOk) : Result.memOk (execCopyBeat s) := by
  unfold execCopyBeat; dsimp only [Result.memOk]; (repeat' split) <;> simp [State.memOk, h]

theorem execRemoteShareBeat_memOk {s : State} (h : s.memOk) : Result.memOk (execRemoteShareBeat s) := by
  unfold execRemoteShareBeat; dsimp only [Result.memOk]; (repeat' split) <;> simp [State.memOk, h]

theorem execChunkLanded_memOk {s : State} (h : s.memOk) : Result.memOk (execChunkLanded s) := by
  unfold execChunkLanded; split <;> simp [Result.memOk, State.memOk, h]

theorem execTransferComplete_memOk {s : State} (h : s.memOk) : Result.memOk (execTransferComplete s) := by
  unfold execTransferComplete
  dsimp only [Result.memOk]
  split
  · exact State.memOk_ite (State.asStrand_memOk (State.completeXfer_memOk h _) _ fun ht => State.orderLog_memOk ht _)
      (State.completeXfer_memOk h _)
  · exact h

theorem execCntwaitWake_memOk {s : State} (h : s.memOk) : Result.memOk (execCntwaitWake s) := by
  refine State.atStrand_memOk h _ fun ht => ?_
  split
  · exact State.memOk_ite (State.retryWord_memOk ht (execCntwait_memOk ht ..)) ht
  · exact ht

theorem execCntwaitTimeout_memOk {s : State} (h : s.memOk) : Result.memOk (execCntwaitTimeout s) := by
  refine State.atStrand_memOk h _ fun ht => ?_
  split
  · exact State.memOk_ite (State.retryWord_memOk ht (execCntwait_memOk ht ..)) ht
  · exact ht

theorem execWaitaWake_memOk {s : State} (h : s.memOk) : Result.memOk (execWaitaWake s) := by
  refine State.atStrand_memOk h _ fun {t} ht => ?_
  split
  · have read := fun r n => State.watchRead_memOk ht r n
    dsimp only
    split
    · next e =>
      have taken := (congrArg Ans.memOk e).mp (read _ _)
      refine State.memOk_ite (State.retryWord_memOk ht (execWaita_memOk ht ..)) ?_
      exact State.memOk_ite taken ht
    · exact ht
    · exact State.retryWord_memOk ht (execWaita_memOk ht ..)
  · exact ht

theorem execWaitaTimeout_memOk {s : State} (h : s.memOk) : Result.memOk (execWaitaTimeout s) := by
  refine State.atStrand_memOk h _ fun ht => ?_
  split
  · exact State.memOk_ite (State.retryWord_memOk ht (execWaita_memOk ht ..)) ht
  · exact ht

theorem execCpwaitEnd_memOk {s : State} (h : s.memOk) : Result.memOk (execCpwaitEnd s) := by
  refine State.atStrand_memOk h _ fun ht => ?_
  split
  · exact State.memOk_ite (State.retryWord_memOk ht (execCpwait_memOk ht ..)) ht
  · exact ht

theorem execCpwaitTimeout_memOk {s : State} (h : s.memOk) : Result.memOk (execCpwaitTimeout s) := by
  refine State.atStrand_memOk h _ fun ht => ?_
  split
  · exact State.memOk_ite (State.retryWord_memOk ht (execCpwait_memOk ht ..)) ht
  · exact ht

theorem execFsqrt_memOk {s : State} (h : s.memOk) (t : FpTy) (rm : Rm) (d a : SReg) : Result.memOk (execFsqrt t rm d a s) := by
  unfold execFsqrt; simp [Result.memOk, State.memOk, h]

theorem execFcmp_memOk {s : State} (h : s.memOk) (t : FpTy) (k : Cond) (d a b : SReg) : Result.memOk (execFcmp t k d a b s) := by
  unfold execFcmp; simp [Result.memOk, State.memOk, h]

theorem execFcvt_memOk {s : State} (h : s.memOk) (k : Cvt) (rm : Rm) (d a : SReg) : Result.memOk (execFcvt k rm d a s) := by
  unfold execFcvt; simp [Result.memOk, State.memOk, h]

theorem execJal_memOk {s : State} (h : s.memOk) (d : SReg) (disp : BitVec 32) : Result.memOk (execJal d disp s) := by
  unfold execJal; simp [Result.memOk, State.memOk, h]

theorem execJr_memOk {s : State} (h : s.memOk) (a : SReg) : Result.memOk (execJr a s) := by
  unfold execJr; simp [Result.memOk, State.memOk, h]

theorem execJalr_memOk {s : State} (h : s.memOk) (d a : SReg) : Result.memOk (execJalr d a s) := by
  unfold execJalr; simp [Result.memOk, State.memOk, h]

theorem execBmz_memOk {s : State} (h : s.memOk) (disp : BitVec 32) : Result.memOk (execBmz disp s) := by
  unfold execBmz; split <;> simp [Result.memOk, State.memOk, h]

theorem execBmnz_memOk {s : State} (h : s.memOk) (disp : BitVec 32) : Result.memOk (execBmnz disp s) := by
  unfold execBmnz; split <;> simp [Result.memOk, State.memOk, h]

theorem execEret_memOk {s : State} (h : s.memOk) : Result.memOk (execEret s) := by
  unfold execEret; dsimp only; split <;> simp [Result.memOk, State.memOk, h]

theorem execGetc_memOk {s : State} (h : s.memOk) (d : SReg) (r : CReg) : Result.memOk (execGetc d r s) := by
  unfold execGetc; dsimp only [Result.memOk]; (repeat' split) <;> simp [State.memOk, h]

theorem execCopyLaunch_memOk {s : State} (h : s.memOk) (d : SReg) (ch : BitVec 2) : Result.memOk (execCopyLaunch d ch s) := by
  have launched := State.afterRelease_memOk h 1 fun ht => State.launchCopy_memOk ht d ch
  refine State.heldWord_memOk h _ _ _ _ ?_
  refine State.memOk_ite h ?_
  refine State.memOk_ite (State.trapHere_memOk h ..) ?_
  split
  · exact State.memOk_ite launched (State.faultHere_memOk h _)
  · exact launched

theorem execDeal_memOk {s : State} (h : s.memOk) (d a : SReg) : Result.memOk (execDeal d a s) := by
  refine State.unlessCancelled_memOk h (State.heldWord_memOk h _ _ _ _ ?_)
  exact State.memOk_of_mem (State.orderLog_memOk (State.memOk_of_mem h (State.dealAnswer_mem s)) _) rfl

theorem execExit_memOk {s : State} (h : s.memOk) : Result.memOk (execExit s) := by
  have closed := State.closing_memOk h
  refine State.whenIdle_memOk h ?_
  split
  · next e => exact State.memOk_of_mem ((congrArg Ans.memOk e).mp closed) (State.endStrand_mem _)
  · next e => exact State.faultHere_memOk ((congrArg Ans.memOk e).mp closed) _
  · next e => exact State.memOk_of_mem ((congrArg Ans.memOk e).mp closed) (State.await_mem ..)

theorem execYield_memOk {s : State} (h : s.memOk) : Result.memOk (execYield s) :=
  State.heldWord_memOk h _ _ _ _ (State.memOk_ite (State.squash_memOk (State.memOk_of_mem h (State.next_mem s)) true)
    h)

theorem execCntinc_memOk {s : State} (h : s.memOk) (a : SReg) (imm : BitVec 32) : Result.memOk (execCntinc a imm s) := by
  unfold execCntinc; dsimp only; split <;> simp [Result.memOk, State.memOk, h]

theorem execCancel_memOk {s : State} (h : s.memOk) (lv : Level) (a : SReg) : Result.memOk (execCancel lv a s) := by
  unfold execCancel; dsimp only [Result.memOk]; (repeat' split) <;> simp [State.memOk, h]

theorem execQpush_memOk {s : State} (h : s.memOk) (q : QNum) (a : SReg) : Result.memOk (execQpush q a s) := by
  unfold execQpush; split <;> simp [Result.memOk, State.memOk, h]

theorem execQpop_memOk {s : State} (h : s.memOk) (d : SReg) (q : QNum) : Result.memOk (execQpop d q s) := by
  unfold execQpop; split <;> simp [Result.memOk, State.memOk, h]

theorem execSlotq_memOk {s : State} (h : s.memOk) (d : SReg) (k : BitVec 8) : Result.memOk (execSlotq d k s) := by
  unfold execSlotq; dsimp only [Result.memOk]; (repeat' split) <;> simp [State.memOk, h]

theorem execSlotsync_memOk {s : State} (h : s.memOk) (k : BitVec 8) : Result.memOk (execSlotsync k s) := State.whenIdle_memOk h h

theorem execSlotset_memOk {s : State} (h : s.memOk) (a b : SReg) : Result.memOk (execSlotset a b s) := by
  refine State.privileged_memOk h _ (State.memOk_ite ?_ h)
  exact State.afterRelease_memOk h 2 fun ht => State.memOk_of_mem (State.setSlotState_memOk ht ..) (State.next_mem _)

theorem execSlotinv_memOk {s : State} (h : s.memOk) (a b : SReg) : Result.memOk (execSlotinv a b s) := by
  refine State.privileged_memOk h _ (State.memOk_ite h ?_)
  refine State.memOk_ite (State.memOk_of_mem (State.flushContexts_memOk h _) (State.await_mem ..)) ?_
  exact State.memOk_of_mem (State.flushContexts_memOk h _) ((State.next_mem _).trans (State.invalidate_mem ..))

theorem execIncfence_memOk {s : State} (h : s.memOk) (a : SReg) : Result.memOk (execIncfence a s) :=
  State.privileged_memOk h _ (State.memOk_ite h h)

theorem execMark_memOk {s : State} (h : s.memOk) (a : SReg) : Result.memOk (execMark a s) := by
  refine State.whenIdle_memOk h (State.memOk_of_mem ?_ (State.next_mem _))
  exact State.memOk_ite (State.memOk_of_mem h (State.emit_mem ..)) h

theorem execSetvl_memOk {s : State} (h : s.memOk) (t : WTy) (d a : SReg) : Result.memOk (execSetvl t d a s) := by
  unfold execSetvl; dsimp only [Result.memOk]; (repeat' split) <;> simp [State.memOk, h]

theorem execMsetvl_memOk {s : State} (h : s.memOk) (t : WTy) (d a : SReg) : Result.memOk (execMsetvl t d a s) := by
  unfold execMsetvl; split <;> simp [Result.memOk, State.memOk, h]

theorem execLd_memOk {s : State} (h : s.memOk) (d : SReg) (m : Addr) (ch : BitVec 2) (x : LdForm) : Result.memOk (execLd d m ch x s) := by
  unfold execLd; simp [Result.memOk, State.memOk, h]

theorem execSt_memOk {s : State} (h : s.memOk) (d : SReg) (m : Addr) (ch : BitVec 2) (x : StForm) : Result.memOk (execSt d m ch x s) := by
  unfold execSt; simp [Result.memOk, State.memOk, h]

theorem execLdacq_memOk {s : State} (h : s.memOk) (t : MemTy) (d : SReg) (m : Addr) (off : BitVec 16) :
    Result.memOk (execLdacq t d m off s) := by
  unfold execLdacq; dsimp only; split <;> simp [Result.memOk, State.memOk, h]

theorem execAmo_memOk {s : State} (h : s.memOk) (op : AmoOp) (t : AmoTy) (ord : BitVec 2) (d : SReg) (m : Addr) (off : BitVec 12)
    (b : SReg) : Result.memOk (execAmo op t ord d m off b s) :=
  State.heldWord_memOk h _ _ _ _ (State.scalarAmo_memOk h ..)

theorem execFence_memOk {s : State} (h : s.memOk) (k : FenceKind) (sc : BitVec 2) : Result.memOk (execFence k sc s) :=
  State.heldWord_memOk h _ _ _ _ (State.fence_memOk h ..)

theorem execPref_memOk {s : State} (h : s.memOk) (m : Addr) (ch : BitVec 2) (off : BitVec 16) : Result.memOk (execPref m ch off s) := by
  unfold execPref; simp [Result.memOk, State.memOk, h]

theorem execApplicationCoreAccess_memOk {s : State} (h : s.memOk) : Result.memOk (execApplicationCoreAccess s) := by
  unfold execApplicationCoreAccess; dsimp only [Result.memOk]; (repeat' split) <;> simp [State.memOk, h]

theorem execDispatchBucketCharge_memOk {s : State} (h : s.memOk) : Result.memOk (execDispatchBucketCharge s) :=
  State.memOk_ite h
    (State.memOk_of_mem h (foldl_keeps (fun _ _ => State.charge_mem ..) _ _))

theorem execCheckpointComplete_memOk {s : State} (h : s.memOk) : Result.memOk (execCheckpointComplete s) := by
  refine State.memOk_ite h (State.memOk_of_mem ?_ (State.setReg_mem ..))
  exact State.memOk_ite (State.memOk_of_mem (State.makeFog_memOk h _ _) (State.hostPut_mem ..)) h

/-! ### Every meaning -/

theorem exec_memOk {s : State} (h : s.memOk) (i : Instr) : Result.memOk (exec i s) := by
  cases i
  case vadd | vsub | vmul | vmulh | vmin | vmax | vand | vor | vxor | vshl | vshr | vsra | vsadd | vssub | vabs | vfadd | vfsub
    | vfmul | vfdiv | vfsqrt | vfma | vfms | vfnma | vfmin | vfmax | vfabs | vfneg | vfrsqe | vfrcpe | vfexp2 | vflog2 | vcmp
    | vfcmp | vfclass | mand | mor | mxor | mandn | mnot | mmov | mpopc | mfirst | mpush | minv | mpop | mtop | vcompress | viota
    | vperm | vslideup | vslidedn | vbcast | vextr | vins | vmerge | vmov | vredsum | vredmin | vredmax | vfredsum | vfredmin
    | vfredmax | vcvt | vfcvt | vresenc | vresdec | vresmac | vresadd | vresmul | vld | vlds | vldx | vldff | vldsc | vst | vsts
    | vstx | vamo | mopa | mops | mzero | mldt | mstt | mmerge | mrow | mwrow | mfold | mcvt => exact State.takeVector_memOk h ..
  case thermwaitWrite | add | sub | mul | mulh | mulhn | div | divn | rem | remn | and | or | xor | andn | shl | shr | sra | rotr
    | clz | ctz | popc | min | max | minn | maxn | slt | sltn | seq | csel | addi | andi | ori | xori | shli | shri | srai | slti
    | movi | movhi | fclass | sptr | segmentWriteCompletion => exact h
  case halfNop | halfMov | halfAdd | halfSub | halfAnd | halfOr | halfXor | halfShl | halfShr | halfSra | halfAddi | halfAndi
    | halfShli | halfShri | halfSrai | halfSlti | halfMovi | halfLdD | halfLdW | halfStD | halfStW | halfBz | halfBnz | halfQpush
    | halfQpop => exact State.pairOf_memOk h ..
  case fadd | fsub | fmul | fdiv | fma | fmin | fmax => exact State.fpScalar_memOk h ..
  case beq | bne | blt | bge | bltn | bgen | j => exact State.branch_memOk h ..
  case cancelcmdStrand | cancelcmdLaunch | cancelcmdGraph | cancelcmdPhase | cancelcmdJob => exact State.cancelcmd_memOk h ..
  case launchTake | waitTake | signalTake | phaseTake => exact State.take_memOk h ..
  case strel | zline | cpcancel => exact State.hold_memOk h ..
  case peerRead | peerWrite => exact State.forPeer_memOk h ..
  case waitRetire | signalRetire => exact State.retire_memOk h ..
  case loop | loopi => exact State.loop_memOk h ..
  case trap | brk => exact State.trapHere_memOk h ..
  case setc | setci => exact State.setCreg_memOk h ..
  case codeWordRead => exact State.readCodeWord_memOk h ..
  case stkthermWrite => exact State.memOk_of_mem h (State.writeStktherm_mem ..)
  case bootStepFail => exact State.failStep_memOk h ..
  case bootctlClr => exact State.clearBoot_memOk s
  case bootctlRst => exact State.packageReset_memOk s
  case pcumaskWrite => exact State.writePcumask_memOk h ..
  case plsportWrite => exact State.writePlsport_memOk h ..
  case pmbaseWrite => exact State.writePmbase_memOk h ..
  case partitionRegisterWrite => exact State.writePart_memOk h ..
  case powceilWrite => exact State.memOk_of_mem h (State.writePowceil_mem ..)
  case vdRegisterWrite => exact State.writeVd_memOk h ..
  case cntdataWrite => exact State.memOk_of_mem h (State.writeCntdata_mem ..)
  case launchEligible => exact State.memOk_of_mem h (State.launchEligible_mem ..)
  case strandStart => exact State.memOk_of_mem h (State.startStrand_mem ..)
  case accessTableWrite => exact State.memOk_of_mem h (State.writeAccess_mem ..)
  case lenderEntryWrite => exact State.memOk_of_mem h (State.writeLender_mem ..)
  case borrowerEntryWrite => exact State.writeBorrower_memOk h ..
  case fqresWrite => exact State.memOk_of_mem h (State.writeFqres_mem ..)
  case ctxkillWrite => exact State.writeCtxkill_memOk h ..
  case dbgrelWrite => exact State.memOk_of_mem h (State.writeDbgrel_mem ..)
  case trstatFlush => exact State.memOk_of_mem h (State.writeTrstat_mem ..)
  case sinvcmdWrite => exact State.memOk_of_mem h (State.writeSinvcmd_mem ..)
  case registerWrite => exact State.writeReg_memOk h ..
  case cntwait => exact execCntwait_memOk h ..
  case waita => exact execWaita_memOk h ..
  case cpwait => exact execCpwait_memOk h ..
  case dieLinkFlit => exact execDieLinkFlit_memOk h ..
  case poisonedLineEviction => exact execPoisonedLineEviction_memOk h ..
  case scrubRead => exact execScrubRead_memOk h ..
  case stackTemperatureReport => exact execStackTemperatureReport_memOk h ..
  case selfRefreshEntry => exact execSelfRefreshEntry_memOk h ..
  case thermwaitExpiry => exact execThermwaitExpiry_memOk h ..
  case pcieInboundRequest => exact execPcieInboundRequest_memOk h ..
  case downstreamDmaWrite => exact execDownstreamDmaWrite_memOk h ..
  case cxlMemRead => exact execCxlMemRead_memOk h ..
  case ualinkRequestSend => exact execUalinkRequestSend_memOk h ..
  case peerAtomic => exact execPeerAtomic_memOk h ..
  case unknownPacket => exact execUnknownPacket_memOk h ..
  case responseArrival => exact execResponseArrival_memOk h ..
  case laneRepairRequest => exact execLaneRepairRequest_memOk h ..
  case replayDrainEnd => exact execReplayDrainEnd_memOk h ..
  case laneRepairDone => exact execLaneRepairDone_memOk h ..
  case portRetrain => exact execPortRetrain_memOk h ..
  case trainingEnd => exact execTrainingEnd_memOk h ..
  case portDown => exact execPortDown_memOk h ..
  case bootStart => exact execBootStart_memOk h ..
  case bootStepPass => exact execBootStepPass_memOk h ..
  case bootStepTimeout => exact execBootStepTimeout_memOk h ..
  case measurementExtend => exact execMeasurementExtend_memOk h ..
  case attcmdGo => exact execAttcmdGo_memOk h ..
  case attestationReportWrite => exact execAttestationReportWrite_memOk h ..
  case vdctlEnSet => exact execVdctlEnSet_memOk h ..
  case vdctlEnClear => exact execVdctlEnClear_memOk h ..
  case notifyWrite => exact execNotifyWrite_memOk h ..
  case nopTake => exact execNopTake_memOk h ..
  case phaseRetire => exact execPhaseRetire_memOk h ..
  case launchRetire => exact execLaunchRetire_memOk h ..
  case strandEnd => exact execStrandEnd_memOk h ..
  case frameStart => exact execFrameStart_memOk h ..
  case lendingPoint => exact execLendingPoint_memOk h ..
  case laneRenegotiation => exact execLaneRenegotiation_memOk h ..
  case laneFifoService => exact execLaneFifoService_memOk h ..
  case convoyStart => exact execConvoyStart_memOk h ..
  case convoyRetire => exact execConvoyRetire_memOk h ..
  case heldOperationRelease => exact execHeldOperationRelease_memOk h ..
  case squash => exact execSquash_memOk h ..
  case squashDeadline => exact execSquashDeadline_memOk h ..
  case qdeadTimeout => exact execQdeadTimeout_memOk h ..
  case registerLineFill => exact execRegisterLineFill_memOk h ..
  case replayRelease => exact execReplayRelease_memOk h ..
  case migctlGo => exact execMigctlGo_memOk h ..
  case migrationCopyEnd => exact execMigrationCopyEnd_memOk h ..
  case migctlRel => exact execMigctlRel_memOk h ..
  case wcbLineTimeout => exact execWcbLineTimeout_memOk h ..
  case zeroLineEviction => exact execZeroLineEviction_memOk h ..
  case mergePartArrival => exact execMergePartArrival_memOk h ..
  case mergeTimeout => exact execMergeTimeout_memOk h ..
  case unorderedMergeArrival => exact execUnorderedMergeArrival_memOk h ..
  case leasedAccessArrival => exact execLeasedAccessArrival_memOk h ..
  case leaseSetupMessage => exact execLeaseSetupMessage_memOk h ..
  case leaseRevokeMessage => exact execLeaseRevokeMessage_memOk h ..
  case revokeDrainDone => exact execRevokeDrainDone_memOk h ..
  case leaseDoneMessage => exact execLeaseDoneMessage_memOk h ..
  case revtoExpiry => exact execRevtoExpiry_memOk h ..
  case trapTaken => exact execTrapTaken_memOk h ..
  case faultRecordPost => exact execFaultRecordPost_memOk h ..
  case contextSave => exact execContextSave_memOk h ..
  case cuShareSave => exact execCuShareSave_memOk h ..
  case divertedLanding => exact execDivertedLanding_memOk h ..
  case restore => exact execRestore_memOk h ..
  case asyncfaultDelivery => exact execAsyncfaultDelivery_memOk h ..
  case killComplete => exact execKillComplete_memOk h ..
  case requestAtTarget => exact execRequestAtTarget_memOk h ..
  case segmentSeal => exact execSegmentSeal_memOk h ..
  case segmentSend => exact execSegmentSend_memOk h ..
  case checkpointTimer => exact execCheckpointTimer_memOk h ..
  case sinvComplete => exact execSinvComplete_memOk h ..
  case copyBeat => exact execCopyBeat_memOk h ..
  case remoteShareBeat => exact execRemoteShareBeat_memOk h ..
  case chunkLanded => exact execChunkLanded_memOk h ..
  case transferComplete => exact execTransferComplete_memOk h ..
  case cntwaitWake => exact execCntwaitWake_memOk h ..
  case cntwaitTimeout => exact execCntwaitTimeout_memOk h ..
  case waitaWake => exact execWaitaWake_memOk h ..
  case waitaTimeout => exact execWaitaTimeout_memOk h ..
  case cpwaitEnd => exact execCpwaitEnd_memOk h ..
  case cpwaitTimeout => exact execCpwaitTimeout_memOk h ..
  case fsqrt => exact execFsqrt_memOk h ..
  case fcmp => exact execFcmp_memOk h ..
  case fcvt => exact execFcvt_memOk h ..
  case jal => exact execJal_memOk h ..
  case jr => exact execJr_memOk h ..
  case jalr => exact execJalr_memOk h ..
  case bmz => exact execBmz_memOk h ..
  case bmnz => exact execBmnz_memOk h ..
  case eret => exact execEret_memOk h ..
  case getc => exact execGetc_memOk h ..
  case copyLaunch => exact execCopyLaunch_memOk h ..
  case deal => exact execDeal_memOk h ..
  case exit => exact execExit_memOk h ..
  case yield => exact execYield_memOk h ..
  case cntinc => exact execCntinc_memOk h ..
  case cancel => exact execCancel_memOk h ..
  case qpush => exact execQpush_memOk h ..
  case qpop => exact execQpop_memOk h ..
  case slotq => exact execSlotq_memOk h ..
  case slotsync => exact execSlotsync_memOk h ..
  case slotset => exact execSlotset_memOk h ..
  case slotinv => exact execSlotinv_memOk h ..
  case incfence => exact execIncfence_memOk h ..
  case mark => exact execMark_memOk h ..
  case setvl => exact execSetvl_memOk h ..
  case msetvl => exact execMsetvl_memOk h ..
  case ld => exact execLd_memOk h ..
  case st => exact execSt_memOk h ..
  case ldacq => exact execLdacq_memOk h ..
  case amo => exact execAmo_memOk h ..
  case fence => exact execFence_memOk h ..
  case pref => exact execPref_memOk h ..
  case applicationCoreAccess => exact execApplicationCoreAccess_memOk h ..
  case dispatchBucketCharge => exact execDispatchBucketCharge_memOk h ..
  case checkpointComplete => exact execCheckpointComplete_memOk h ..

end Sys2Proof.Machine
end

section
/-! PROOFS. Every step leaves memory in canonical form (spec 06): the statement O48. -/

namespace Sys2Proof.Machine

theorem mapState_memOk {f : State → State} (hf : ∀ {s}, s.memOk → (f s).memOk) {r : Result} (h : Result.memOk r) :
    Result.memOk (mapState f r) := by
  cases r with
  | next t => exact hf h
  | fault e => trivial
  | refused e => trivial

theorem after_memOk {s : State} (h : s.memOk) {r : Result} (hr : Result.memOk r) : (after r s).memOk := by
  cases r with
  | next t => exact hr
  | fault e => exact h
  | refused e => exact h

/-- An event leaves memory in canonical form, whatever its pins. -/
theorem exec_pins_memOk {s : State} (h : s.memOk) (i : Instr) (p : Pins) : Result.memOk (exec i { s with pins := p }) := by
  have present : ({ s with pins := p } : State).memOk := h
  exact exec_memOk present i

/-! ### The turn of a strand -/

theorem State.take1_memOk {s : State} (h : s.memOk) (w : Word) : Result.memOk (s.take1 w) := by
  unfold State.take1
  split
  · exact State.trapHead_memOk h ..
  · refine Result.memOk_ite (State.trapHead_memOk h ..) ?_
    refine Result.memOk_ite h ?_
    exact mapState_memOk (fun {t} ht => State.memOk_of_mem ht (t.noteStep_mem s.me.seq)) (exec_memOk h _)

theorem State.fetchAt_memOk {s : State} (h : s.memOk) (pc : Word) : (s.fetchAt pc).memOk := by
  have probed := Ans.accesses_memOk h (s.probe_accesses exOnly ⟨0, true, pc.toNat⟩ 8 false false true)
  unfold State.fetchAt
  split
  · next e => exact (congrArg Ans.memOk e).mp probed
  · next e => exact (congrArg Ans.memOk e).mp probed
  · next t l d e =>
    have read : t.memOk := (congrArg Ans.memOk e).mp probed
    cases l with
    | mem a => exact State.memOk_of_mem read (t.homeRead_mem t.me.vd a 8 d.cp)
    | share off => exact read
    | cushare off => exact read
    | peer i a => exact read

theorem State.chanterTurn_memOk {s : State} (h : s.memOk) : Result.memOk s.chanterTurn := by
  unfold State.chanterTurn
  refine Result.memOk_ite h ?_
  have retried : (if s.replayHeld false then s else s.retrying false).memOk :=
    State.memOk_ite h h
  dsimp only
  generalize (if s.replayHeld false then s else s.retrying false) = t at retried ⊢
  refine Result.memOk_ite ?_ ?_
  · exact State.memOk_ite (State.takeBrk_memOk retried _) retried
  · split
    · exact State.take1_memOk retried _
    · have fetched := State.fetchAt_memOk retried s.me.ch.pc
      split
      · next e => exact State.raise_memOk ((congrArg Ans.memOk e).mp fetched) _
      · exact State.memOk_ite retried retried
      · next e => exact State.take1_memOk (State.memOk_of_mem ((congrArg Ans.memOk e).mp fetched) (State.beginWord_mem ..)) _

theorem State.flow_memOk {s : State} (h : s.memOk) : s.flow.memOk := by
  unfold State.flow
  refine State.memOk_ite ?_ (State.drain_memOk h)
  exact State.memOk_ite h (State.vecTurn_memOk h)

theorem State.takeWords_memOk {s : State} (h : s.memOk) : Result.memOk s.takeWords := by
  have flowed := State.flow_memOk h
  unfold State.takeWords
  dsimp only
  generalize s.flow = t at flowed ⊢
  refine Result.memOk_ite flowed ?_
  refine Result.memOk_ite ?_ ?_
  · exact State.memOk_ite (State.takeStop_memOk flowed ..) flowed
  · exact Result.memOk_ite (State.deliverAsync_memOk flowed) (State.chanterTurn_memOk flowed)

theorem State.stopCancelled_mem {s t : State} (h : s.stopCancelled = some t) : t.mem = s.mem := by
  unfold State.stopCancelled at h
  split at h
  · split at h
    · cases h; simp
    · cases h
  · cases h

theorem State.meTurn_memOk {s : State} (h : s.memOk) : Result.memOk s.meTurn := by
  unfold State.meTurn
  refine Result.memOk_ite (State.squashTurn_memOk h) ?_
  refine Result.memOk_ite ?_ ?_
  · refine State.memOk_ite (State.tryEnd_memOk h) ?_
    cases e : s.stopCancelled with
    | none => exact State.flow_memOk h
    | some t => exact State.memOk_of_mem h (State.stopCancelled_mem e)
  refine Result.memOk_ite (State.vecTurn_memOk h) ?_
  refine Result.memOk_ite h ?_
  split
  · next e => exact State.memOk_of_mem h (State.stopCancelled_mem e)
  · refine Result.memOk_ite h ?_
    exact Result.memOk_ite (State.vectorDead_memOk h) (State.takeWords_memOk h)

/-! ### Whose turn it is, and what goes on by itself -/

theorem State.turnTo_mem (s : State) (k : Nat) : (s.turnTo k).mem = s.mem := by
  unfold State.turnTo
  dsimp only
  (repeat' split) <;> rfl

theorem State.runTurn_memOk {s : State} (h : s.memOk) (t : Turn) : Result.memOk (s.runTurn t) := by
  cases t with
  | strand k => exact State.meTurn_memOk (State.memOk_of_mem h (State.turnTo_mem ..))
  | event i p => exact Result.memOk_ite (exec_pins_memOk h i p) h
  | elapse n => exact h
  | ahead k b => exact State.memOk_of_mem h ((State.onMe_mem ..).trans (State.turnTo_mem ..))

theorem State.firstEvent_memOk {s : State} (h : s.memOk) : ∀ {l : List (Instr × Pins)} {r : Result}, s.firstEvent l = some r →
    Result.memOk r
  | [], _, e => nomatch e
  | (i, p) :: l, r, e => by
    have fired := exec_pins_memOk h i p
    unfold State.firstEvent at e
    split at e
    · next q =>
      split at e
      · exact State.firstEvent_memOk h e
      · obtain rfl := Option.some.inj e
        exact (congrArg Result.memOk q).mp fired
    · obtain rfl := Option.some.inj e
      exact fired

theorem State.cycle_memOk {s : State} (h : s.memOk) : s.cycle.memOk := by
  have fire : ∀ {t : State} (i : Instr) (p : Pins), t.memOk → ({ after (exec i { t with pins := p }) t with pins := t.pins } : State).memOk :=
    fun i p ht => State.memOk_of_mem (after_memOk ht (exec_pins_memOk ht i p)) rfl
  unfold State.cycle
  extract_lets t again u arbiters v
  have elapsed : t.memOk := h
  have framed : u.memOk := State.memOk_ite (fire _ _ elapsed) elapsed
  have lent : v.memOk := State.memOk_ite (foldl_memOk (fun _ ht => fire _ _ ht) _ framed) framed
  exact State.memOk_ite (foldl_memOk (fun _ ht => fire _ _ ht) _ lent) lent

theorem State.meTurn_next_memOk {s t : State} (h : s.memOk) (e : s.meTurn = .next t) : t.memOk :=
  (congrArg Result.memOk e).mp (State.meTurn_memOk h)

theorem State.idleTurn_next_memOk {s t : State} (h : s.memOk) (e : s.idleTurn = .next t) : t.memOk := by
  unfold State.idleTurn at e
  split at e
  · next q => exact (congrArg Result.memOk e).mp (State.firstEvent_memOk h q)
  · split at e
    · exact State.meTurn_next_memOk (State.memOk_of_mem h (State.turnTo_mem ..)) e
    · split at e
      · next q =>
        obtain rfl := Host.Outcome.next.inj e
        exact State.memOk_ite (State.memOk_of_mem (State.cycle_memOk h) (State.turnTo_mem ..)) (State.meTurn_next_memOk h q)
      · exact State.meTurn_next_memOk h e

theorem State.freeTurn_next_memOk {s t : State} (h : s.memOk) (e : s.freeTurn = .next t) : t.memOk := by
  unfold State.freeTurn at e
  split at e
  · exact State.meTurn_next_memOk h e
  · exact State.idleTurn_next_memOk h e

theorem mapState_eq_next {f : State → State} {r : Result} {t : State} (e : mapState f r = .next t) : ∃ u, r = .next u ∧ t = f u := by
  cases r with
  | next u => exact ⟨u, rfl, (Host.Outcome.next.inj e).symm⟩
  | fault x => cases e
  | refused x => cases e

/-- Settles O48: memory is written byte by byte at home or made unknown, each of which keeps it canonical; every access, every
meaning and every turn is made of these. -/
theorem stepKeepsMemory : Obligations.StepKeepsMemory := by
  intro s t h e
  obtain ⟨u, hu, rfl⟩ := mapState_eq_next e
  refine State.memOk_of_mem ?_ u.noteWatches_mem
  split at hu
  · next x l _ =>
    have taken : ({ s with agenda := l } : State).memOk := h
    exact (congrArg Result.memOk hu).mp (State.runTurn_memOk taken x)
  · exact State.freeTurn_next_memOk h hu

end Sys2Proof.Machine
end
